-- ==== Sys2Proof/Word.lean ====
section
/-!
DEFINITION. The word types of the Duntos DN-9 and nothing else.

A general register holds 64 bits (R46), an address is a 64-bit value while it is computed, and memory is addressed in
bytes.  Names of registers, masks, slots and CSRs are short bit vectors, as wide as their instruction fields.
-/

namespace Sys2Proof

/-- One byte of memory. -/
abbrev Byte := BitVec 8

/-- The value of a general register (R46). -/
abbrev Word := BitVec 64

/-- The number of a general or vector register: a five-bit field of an instruction (R87). -/
abbrev Reg := BitVec 5

/-- The number of a mask, scale or copy-barrier register: a three-bit field (R54, R55, R316). -/
abbrev Reg3 := BitVec 3

/-- The number of a CSR: imm12 of a system instruction, taken as unsigned (R91). -/
abbrev CsrNum := BitVec 12

end Sys2Proof
end

