-- ==== Sys2Proof/Config.lean ====
section
/-!
DEFINITION. What the spec fixes for every module, and what it leaves open.

The open values are opaque constants with no body: nothing can evaluate them, and a claim about the machine holds
whatever they are.  Each is named in a log entry.
-/

namespace Sys2Proof.Config

/-- Stacks of a module, logical front ends of a stack, harts of a front end (R1, R28). -/
def stackCount : Nat := 16
def frontEndsPerStack : Nat := 192
def hartsPerFrontEnd : Nat := 4

/-- Vaults of a stack (R65). -/
def vaultsPerStack : Nat := 192

/-- The device partition's code in `part` and `beatmap` (R336, R383), and the code of a slot that belongs to none. -/
def devicePartition : Nat := 12
def noPartition : Nat := 15

/-- Pool entries, watermark objects, queue slots (R334, R193, R331). -/
def poolEntries : Nat := 4096
def marksPerStack : Nat := 4096
def queueSlots : Nat := 64

/-- How many clock cycles the `n`-th step takes; free (log 7). -/
opaque cyclesTaken : Nat → Nat

/-- Whether the plain stores of context `n` may lag behind it, and which of the posted stores performs at the `n`-th
choice (R114); free (log 20). -/
opaque lags : Nat → Bool
opaque pick : Nat → Nat

/-- Whether the `n`-th fetch of a halfword that was stored to since the last `flushi` sees the old value (R85); free
(log 6). -/
opaque staleFetch : Nat → Bool

/-- The fuse test data of a front end: the `harness` value that the fuse loader writes (R24, R395); free (log 9). -/
opaque fuseHarness : Nat → Word

/-- The site that supplies a half: of a front end, by the code 0 to 4 of R24 (own, north, east, south, west); free
(log 9). -/
opaque siteOf : Nat → Nat → Nat

/-- Whether the `n`-th context that is saved is written to its save area at once (R341); byte `i` of save number `n` where it
holds nothing; byte `i` of section `k` of a save area with these contents, whose inner layout the spec does not give (R343); free
(log 25). -/
opaque savesToArea : Nat → Bool
opaque saveByte : Nat → Nat → Byte
opaque saveLayout : Nat → List Nat → Nat → Byte

/-- Whether the scalar side of the current hart runs one instruction ahead at the `n`-th choice (R22), and whether another
replica of its parallel loop runs on (R34); free (log 23, log 22). -/
opaque runsAhead : Nat → Bool
opaque switches : Nat → Bool

/-- Whether the byte at an address that a replica stores in the step with the `n`-th choice performs later than that step (R34); free
(log 54). -/
opaque storeLags : Nat → Nat → Bool

/-- How many `f4b` elements a widening `swpin` takes a resident `f4b` block of so many bytes for (R273, R274); free
(log 24). -/
opaque f4bElems : Nat → Nat

/-- Whether a vault fails its test at bring-up (R395); free (log 9). -/
opaque vaultFails : Nat → Bool

/-- The hash of the vendor root public key in the fuses; the public key of a firmware bank, x and y, and the bank's signature, r and
s, after the `n`-th writing (R391, R392); free (log 10). -/
opaque rootKeyHash : List Byte
opaque bankKey : Bool → Nat → List Byte
opaque bankSignature : Bool → Nat → Nat × Nat

/-- The private device identity key, and the number with which the `n`-th quote is signed (R393); free (log 10). -/
opaque identityKey : Nat
opaque quoteNumber : Nat → Nat

/-- Window `i` of the eight that the boot ROM locks for the service cores: its first byte and its end (R390); free (log 10). -/
opaque serviceWindow : Nat → Nat × Nat

/-- The number of blown rollback fuses (R391); free (log 10). -/
opaque rollbackFuses : Nat

/-- The fused count of authentication failures that raises a security alarm (R359); free (log 10). -/
opaque alarmThreshold : Nat

/-- Whether the fuse policy zeroises the key store at a security alarm (R359); free (log 10). -/
opaque zeroisePolicy : Bool

/-- The contents of the two firmware banks (the second bank: `true`) as they stand after the `n`-th writing, 0 at power-on:
ABI major, version, security version (R389); free (log 10). -/
opaque bankField : Bool → Nat → Nat → Nat

/-- Header and body of a firmware bank after the `n`-th writing: what its signature and its hash cover (R392); free (log 10). -/
opaque bankImage : Bool → Nat → List Byte

/-- The digest with which the boot ROM stage is measured (R392); free (log 10). -/
opaque bootDigest : List Byte

/-- Whether a partition's configuration has been measured anew before the `n`-th quote, and byte `i` of that measurement (R392); free
(log 10). -/
opaque configMeasured : Nat → Bool
opaque configMeasure : Nat → Nat → Byte

/-- The cause that the log entry of a termination by service call holds (R360); free (log 27). -/
opaque terminateCause : Nat

end Sys2Proof.Config
end

