-- ==== Sys2Proof/Syntax.lean ====
section
/-!
DEFINITION. The syntax of the machine: one constructor of `Instr` for every row of the table of operations and events.

Rows with an encoding (chapter 6 of the spec) carry the fields of that encoding; register numbers, operand forms and
codes are turned into names here, so that the machine never sees raw bits.  Rows without an encoding are the part's
events: they carry what the event is about (a hart slot, a queue entry, a value that arrives from outside).
-/

namespace Sys2Proof

/-- The width of a scalar atomic or of `waitw` (R90): a word or a doubleword. -/
inductive AmoSz where
  | w | d
  deriving DecidableEq, Repr

/-- What an atomic does; `cas` names the value that it compares with (R177). -/
inductive AmoOp where
  | add | swap | min | max | and | or | xor
  | cas (old : Word)
  deriving DecidableEq, Repr

/-- The scope of a fence (R91, R123). -/
inductive FenceScope where
  | hart | gang | stack | part | device | system
  deriving DecidableEq, Repr

/-- The memory element width of a vector access (R95): the width of `vtype`, half of it, a quarter of it. -/
inductive MemW where
  | x1 | x2 | x4
  deriving DecidableEq, Repr

/-- The third operand of a vector instruction (R94): a vector register, a general register or a five-bit immediate. -/
inductive VOp where
  | vv (b : Reg)
  | vs (b : Reg)
  | vi (imm : BitVec 5)
  deriving DecidableEq, Repr

/-- The element types (R202, R203, R207), codes 0 to 13. -/
inductive ElemTy where
  | i8 | i16 | i32 | i64 | n8 | n16 | n32 | n64 | f32 | f16 | bf16 | e4m3 | e5m2 | f4b
  deriving DecidableEq, Repr

/-- Why a bit pattern is not an instruction (R86, checks 2 to 7). -/
inductive DecodeError where
  /-- check 2: the halfword 0x0000 -/
  | zeroHalfword
  /-- check 2: the word 0xFFFF_FFFF -/
  | onesWord
  /-- check 3: a compressed form that is not assigned, or with a nonzero reserved bit -/
  | compressed
  /-- check 4: a 64-bit form whose class is not 0 -/
  | prefixClass
  /-- check 5: an unassigned major or selector -/
  | unassigned
  /-- check 6: a reserved field that is not zero -/
  | reservedField
  /-- check 7: an operand outside its limits, or an operand form the instruction does not accept -/
  | operand
  /-- the pattern is shorter than its first halfword says (not reached from a fetch) -/
  | truncated
  deriving DecidableEq, Repr

/-- Which half of a logical slab an error names (R358): lanes 0 to 15, lanes 16 to 31, or both. -/
inductive HalfSel where
  | a | b | both
  deriving DecidableEq, Repr

/-- The loop registers that have a pending write (R255). -/
inductive LoopReg where
  | lpstart | lpend | lpcount
  deriving DecidableEq, Repr

/-- Where a register write goes that has no table row of its own (R57, R383): a CSR, a device register, or a register of
BAR0 of PF0. -/
inductive RegDest where
  | csr (n : CsrNum)
  | device (addr : Nat)
  | pf0 (off : Nat)
  deriving DecidableEq, Repr

/-- Where an uncorrectable error was found (R359). Granules are byte addresses div 8, words are keyed as in the state. -/
inductive ErrorSite where
  | cleanLine
  | dirtyUser (granules : List Nat)
  | dirtyPrivileged (p : Nat)
  | dram (granule : Nat)
  /-- a line of 64 bytes that the host or an expander reports as poisoned, by its address div 64 (R355, R385) -/
  | farLine (line : Nat)
  | scratchpad (fe key : Nat)
  | rowStore (h key : Nat)
  | accumulator (h word : Nat)
  | savedContext (h : Nat)
  | syncEntry (p : Nat)
  | firmware
  | vault (v : Nat)
  | link (l : Nat)
  deriving DecidableEq, Repr

/-- What raises a security alarm (R359): tamper or glitch, or repeated authentication failure of a partition's calls. -/
inductive Alarm where
  | tamper
  | authentication (p : Nat)
  deriving DecidableEq, Repr

/-- A function of a partition (R381): the partition's own, or its virtual function `vf`. -/
structure BarFunction where
  part : Nat
  vf : Option Nat := none
  deriving DecidableEq, Repr

/-- What an access from outside does (R381, R386): read some bytes, or write them. -/
inductive ExtAccess where
  | read (len : Nat)
  | write (data : List Byte)
  | atomic (sz : AmoSz) (op : AmoOp) (v : Word)
  deriving DecidableEq, Repr

/-- The operations and events of the part: one constructor per row of the opcode table. -/
inductive Instr where
  -- R108: layout U
  | lhi (d : Reg) (imm : BitVec 20)
  | aupc (d : Reg) (imm : BitVec 20)
  -- R107: layout I
  | addi (d a : Reg) (imm : BitVec 12)
  | andi (d a : Reg) (imm : BitVec 12)
  | ori (d a : Reg) (imm : BitVec 12)
  | xori (d a : Reg) (imm : BitVec 12)
  | slti (d a : Reg) (imm : BitVec 12)
  | sltni (d a : Reg) (imm : BitVec 12)
  -- R107: shifts by an immediate
  | slli (d a : Reg) (sh : BitVec 6)
  | srli (d a : Reg) (sh : BitVec 6)
  | srai (d a : Reg) (sh : BitVec 6)
  -- R105, R106: layout R
  | add (d a b : Reg)
  | sub (d a b : Reg)
  | and (d a b : Reg)
  | or (d a b : Reg)
  | xor (d a b : Reg)
  | sll (d a b : Reg)
  | srl (d a b : Reg)
  | sra (d a b : Reg)
  | slt (d a b : Reg)
  | sltn (d a b : Reg)
  | mul (d a b : Reg)
  | mulh (d a b : Reg)
  | mulhn (d a b : Reg)
  | div (d a b : Reg)
  | divn (d a b : Reg)
  | rem (d a b : Reg)
  | remn (d a b : Reg)
  | min (d a b : Reg)
  | max (d a b : Reg)
  | minn (d a b : Reg)
  | maxn (d a b : Reg)
  -- R112, R115: loads
  | ldb (d a : Reg) (imm : BitVec 12)
  | ldh (d a : Reg) (imm : BitVec 12)
  | ldw (d a : Reg) (imm : BitVec 12)
  | ldd (d a : Reg) (imm : BitVec 12)
  | ldbn (d a : Reg) (imm : BitVec 12)
  | ldhn (d a : Reg) (imm : BitVec 12)
  | ldwn (d a : Reg) (imm : BitVec 12)
  | ldbAcq (d a : Reg) (imm : BitVec 12)
  | ldhAcq (d a : Reg) (imm : BitVec 12)
  | ldwAcq (d a : Reg) (imm : BitVec 12)
  | lddAcq (d a : Reg) (imm : BitVec 12)
  | ldbnAcq (d a : Reg) (imm : BitVec 12)
  | ldhnAcq (d a : Reg) (imm : BitVec 12)
  | ldwnAcq (d a : Reg) (imm : BitVec 12)
  -- R112, R116: stores
  | stb (b a : Reg) (imm : BitVec 12)
  | sth (b a : Reg) (imm : BitVec 12)
  | stw (b a : Reg) (imm : BitVec 12)
  | std (b a : Reg) (imm : BitVec 12)
  | stbRel (b a : Reg) (imm : BitVec 12)
  | sthRel (b a : Reg) (imm : BitVec 12)
  | stwRel (b a : Reg) (imm : BitVec 12)
  | stdRel (b a : Reg) (imm : BitVec 12)
  -- R119: branches
  | beq (a b : Reg) (off : BitVec 12)
  | bne (a b : Reg) (off : BitVec 12)
  | blt (a b : Reg) (off : BitVec 12)
  | bge (a b : Reg) (off : BitVec 12)
  | bltn (a b : Reg) (off : BitVec 12)
  | bgen (a b : Reg) (off : BitVec 12)
  -- R120: jumps
  | jal (d : Reg) (off : BitVec 20)
  | jalr (d a : Reg) (imm : BitVec 12)
  -- R117: scalar FP
  | fadd (d a b : Reg)
  | fsub (d a b : Reg)
  | fmul (d a b : Reg)
  | fdiv (d a b : Reg)
  | fmin (d a b : Reg)
  | fmax (d a b : Reg)
  | feq (d a b : Reg)
  | flt (d a b : Reg)
  | fle (d a b : Reg)
  | fmadd (d a b : Reg)
  -- R117, R118: scalar FP with one source
  | fsqrt (d a : Reg)
  | fclass (d a : Reg)
  | fcvtF32I32 (d a : Reg)
  | fcvtF32N32 (d a : Reg)
  | fcvtF32I64 (d a : Reg)
  | fcvtF32N64 (d a : Reg)
  | fcvtI32F32 (d a : Reg)
  | fcvtN32F32 (d a : Reg)
  | fcvtI64F32 (d a : Reg)
  | fcvtN64F32 (d a : Reg)
  -- R177: scalar atomics
  | amoadd (sz : AmoSz) (aq rl : Bool) (d b a : Reg)
  | amoswap (sz : AmoSz) (aq rl : Bool) (d b a : Reg)
  | amocas (sz : AmoSz) (aq rl : Bool) (d b a : Reg)
  | amomin (sz : AmoSz) (aq rl : Bool) (d b a : Reg)
  | amomax (sz : AmoSz) (aq rl : Bool) (d b a : Reg)
  | amoand (sz : AmoSz) (aq rl : Bool) (d b a : Reg)
  | amoor (sz : AmoSz) (aq rl : Bool) (d b a : Reg)
  | amoxor (sz : AmoSz) (aq rl : Bool) (d b a : Reg)
  -- R179
  | waitw (sz : AmoSz) (aq : Bool) (d b a : Reg)
  -- R124 to R126, R349: system
  | ecall
  | trap
  | eret
  | exit
  | yield
  | flushi
  -- R122
  | csrrd (d : Reg) (csr : CsrNum)
  | csrwr (csr : CsrNum) (a : Reg)
  | csrset (csr : CsrNum) (a : Reg)
  | csrclr (csr : CsrNum) (a : Reg)
  -- R123
  | fenceSv (scope : FenceScope)
  | fenceVs (scope : FenceScope)
  | fenceVv (scope : FenceScope)
  | fenceAll (scope : FenceScope)
  -- R69
  | lslot (d : Reg) (n : BitVec 8)
  -- R75, R78
  | mvreq (d a : Reg) (n : BitVec 8)
  | mvcommit (d a : Reg) (n : BitVec 8)
  -- R71, R110
  | ltag (d a : Reg)
  | ljoin (d a : Reg)
  | lclr (d : Reg)
  -- R111
  | safept
  -- R110
  | vlclr (vd : Reg)
  -- R157: the request is c * 2^e
  | vsetvli (d : Reg) (e : BitVec 3) (c : BitVec 6) (vt : BitVec 10)
  | vsetvl (d a b : Reg)
  -- R158
  | vwin (vd a b : Reg)
  -- R230: vector integer
  | vadd (vd va : Reg) (b : VOp) (m : Reg3)
  | vsub (vd va : Reg) (b : VOp) (m : Reg3)
  | vmul (vd va : Reg) (b : VOp) (m : Reg3)
  | vmulh (vd va : Reg) (b : VOp) (m : Reg3)
  | vand (vd va : Reg) (b : VOp) (m : Reg3)
  | vor (vd va : Reg) (b : VOp) (m : Reg3)
  | vxor (vd va : Reg) (b : VOp) (m : Reg3)
  | vsll (vd va : Reg) (b : VOp) (m : Reg3)
  | vsrl (vd va : Reg) (b : VOp) (m : Reg3)
  | vsra (vd va : Reg) (b : VOp) (m : Reg3)
  | vmin (vd va : Reg) (b : VOp) (m : Reg3)
  | vmax (vd va : Reg) (b : VOp) (m : Reg3)
  | vminn (vd va : Reg) (b : VOp) (m : Reg3)
  | vmaxn (vd va : Reg) (b : VOp) (m : Reg3)
  | vsadd (vd va : Reg) (b : VOp) (m : Reg3)
  | vssub (vd va : Reg) (b : VOp) (m : Reg3)
  -- R231: vector FP
  | vfadd (vd va : Reg) (b : VOp) (m : Reg3)
  | vfsub (vd va : Reg) (b : VOp) (m : Reg3)
  | vfmul (vd va : Reg) (b : VOp) (m : Reg3)
  | vfmadd (vd va : Reg) (b : VOp) (m : Reg3)
  | vfnmsub (vd va : Reg) (b : VOp) (m : Reg3)
  | vfdiv (vd va : Reg) (b : VOp) (m : Reg3)
  | vfmin (vd va : Reg) (b : VOp) (m : Reg3)
  | vfmax (vd va : Reg) (b : VOp) (m : Reg3)
  | vfscale (vd va : Reg) (b : VOp) (m : Reg3)
  | vfsgnj (vd va : Reg) (b : VOp) (m : Reg3)
  -- R232
  | vfsqrt (vd va : Reg) (m : Reg3)
  | vfrecip (vd va : Reg) (m : Reg3)
  | vfrsqrt (vd va : Reg) (m : Reg3)
  | vfround (vd va : Reg) (m : Reg3)
  -- R233: compares
  | vcmpEq (md : Reg3) (va : Reg) (b : VOp) (m : Reg3)
  | vcmpNe (md : Reg3) (va : Reg) (b : VOp) (m : Reg3)
  | vcmpLt (md : Reg3) (va : Reg) (b : VOp) (m : Reg3)
  | vcmpLe (md : Reg3) (va : Reg) (b : VOp) (m : Reg3)
  | vcmpGt (md : Reg3) (va : Reg) (b : VOp) (m : Reg3)
  | vcmpGe (md : Reg3) (va : Reg) (b : VOp) (m : Reg3)
  | vcmpLtn (md : Reg3) (va : Reg) (b : VOp) (m : Reg3)
  | vcmpLen (md : Reg3) (va : Reg) (b : VOp) (m : Reg3)
  | vcmpGtn (md : Reg3) (va : Reg) (b : VOp) (m : Reg3)
  | vcmpGen (md : Reg3) (va : Reg) (b : VOp) (m : Reg3)
  | vfcmpEq (md : Reg3) (va : Reg) (b : VOp) (m : Reg3)
  | vfcmpNe (md : Reg3) (va : Reg) (b : VOp) (m : Reg3)
  | vfcmpLt (md : Reg3) (va : Reg) (b : VOp) (m : Reg3)
  | vfcmpLe (md : Reg3) (va : Reg) (b : VOp) (m : Reg3)
  | vfcmpGt (md : Reg3) (va : Reg) (b : VOp) (m : Reg3)
  | vfcmpGe (md : Reg3) (va : Reg) (b : VOp) (m : Reg3)
  -- R234: mask logic
  | mand (md ma mb : Reg3)
  | mor (md ma mb : Reg3)
  | mxor (md ma mb : Reg3)
  | mandn (md ma mb : Reg3)
  | mnot (md ma : Reg3)
  | mmv (md ma : Reg3)
  -- R235
  | mpop (d : Reg) (ma : Reg3)
  | mfirst (d : Reg) (ma : Reg3)
  | mset (md : Reg3)
  -- R240: slides
  | vslideup (vd va : Reg) (b : VOp) (m : Reg3)
  | vslidedn (vd va : Reg) (b : VOp) (m : Reg3)
  -- R241
  | vgather (vd va vb : Reg) (m : Reg3)
  | vcompress (vd va : Reg) (m : Reg3)
  -- R242
  | vbcast (vd b : Reg) (m : Reg3)
  | vid (vd : Reg) (m : Reg3)
  | vmerge (vd va : Reg) (b : VOp) (m : Reg3)
  | vmv (vd va : Reg) (m : Reg3)
  -- R243
  | vmvsx (vd b : Reg)
  | vmvxs (d va : Reg)
  | vext (d va : Reg) (b : VOp)
  -- R236, R237
  | vcvt (vd va : Reg) (src : BitVec 4) (m : Reg3)
  | vcvti (vd va : Reg) (src : BitVec 4) (m : Reg3)
  -- R238
  | vquant (vd va : Reg) (kb : Reg3) (m : Reg3)
  -- R239: reductions
  | vredsum (d va b : Reg) (m : Reg3)
  | vredmax (d va b : Reg) (m : Reg3)
  | vredmin (d va b : Reg) (m : Reg3)
  | vfredsum (d va b : Reg) (m : Reg3)
  | vfredosum (d va b : Reg) (m : Reg3)
  | vfredmax (d va b : Reg) (m : Reg3)
  -- R160, R161, R163, R164: vector memory
  | vld (vd a : Reg) (m : Reg3) (w : MemW)
  | vst (vd a : Reg) (m : Reg3) (w : MemW)
  | vlds (vd a b : Reg) (m : Reg3) (w : MemW)
  | vldx (vd a b : Reg) (m : Reg3) (w : MemW)
  | vsts (vd a b : Reg) (m : Reg3) (w : MemW)
  | vstx (vd a b : Reg) (m : Reg3) (w : MemW)
  | vlseg (vd a : Reg) (nf : Reg3) (m : Reg3) (w : MemW)
  | vsseg (vd a : Reg) (nf : Reg3) (m : Reg3) (w : MemW)
  -- R181
  | vamoAdd (vd a vb : Reg) (m : Reg3)
  | vamoSwap (vd a vb : Reg) (m : Reg3)
  | vamoMin (vd a vb : Reg) (m : Reg3)
  | vamoMax (vd a vb : Reg) (m : Reg3)
  | vamoAnd (vd a vb : Reg) (m : Reg3)
  | vamoOr (vd a vb : Reg) (m : Reg3)
  | vamoXor (vd a vb : Reg) (m : Reg3)
  -- R182
  | vwait (a b : Reg)
  -- R187
  | vsred (vd va : Reg) (m : Reg3)
  -- R189
  | awdecl (a b : Reg)
  -- R191
  | awmerge (a : Reg)
  -- R195
  | wmpub (n : BitVec 4) (b : Reg)
  -- R194
  | wmset (n : BitVec 4) (a : Reg)
  | wmclr (n : BitVec 4)
  -- R183
  | gbar
  -- R184
  | gjoin (d a : Reg)
  -- R185
  | gleave
  -- R249
  | vregion (ma : Reg3) (off : BitVec 12)
  -- R253
  | vloop (a : Reg) (off : BitVec 12)
  | vloopP (a : Reg) (off : BitVec 12)
  -- R252
  | bany (ma : Reg3) (off : BitVec 12)
  | ball (ma : Reg3) (off : BitVec 12)
  | bnone (ma : Reg3) (off : BitVec 12)
  -- R266
  | bsend (va : Reg) (off : BitVec 12)
  -- R254, R251
  | vlend
  | vrend
  -- R262, R265
  | vsbind (vd a : Reg)
  | vsunbind (vd : Reg)
  -- R173, R174
  | vspill (vd a : Reg)
  | vfill (vd a : Reg)
  -- R175
  | gspill (b a : Reg) (imm : BitVec 12)
  | gfill (d a : Reg) (imm : BitVec 12)
  -- R321 to R325: the copy engine
  | cpy (d a b : Reg) (m : Reg3)
  | cpyx (a : Reg) (m : Reg3)
  | cpb (m : Reg3) (b : Reg)
  | cpwait (m : Reg3)
  -- R268, R127: engines and launch
  | swpout (d a : Reg)
  | swpin (d a : Reg)
  | xfer (d a : Reg)
  | launch (d a : Reg)
  | launchNb (d a : Reg)
  -- R293 to R303: the matrix class
  | mattach (rows : BitVec 7)
  | mdetach
  | mzero
  | vmma (ty : ElemTy) (acc : BitVec 6) (va vb : Reg) (rows : BitVec 7) (m : Reg3)
  | vmmas (acc : BitVec 6) (va vb : Reg) (rows : BitVec 7) (ka kb : Reg3) (m : Reg3)
  | mext (vd : Reg) (row : BitVec 6) (ty : ElemTy) (m : Reg3)
  | mins (row : BitVec 6) (va : Reg) (ty : ElemTy) (m : Reg3)
  -- R102: the compressed forms
  | cAddi (d : Reg) (imm : BitVec 7)
  | cLi (d : Reg) (imm : BitVec 7)
  | cMv (d a : Reg)
  | cAdd (d a : Reg)
  | cSub (d a : Reg)
  | cAnd (d a : Reg)
  | cLdd (d a : Reg3) (off : BitVec 6)
  | cStd (b a : Reg3) (off : BitVec 6)
  | cLdw (d a : Reg3) (off : BitVec 6)
  | cBeqz (a : Reg3) (off : BitVec 8)
  | cBnez (a : Reg3) (off : BitVec 8)
  | cJ (off : BitVec 9)
  | cJr (a : Reg)
  | cExit
  | cVlend
  | cSafept
  | cYield
  -- waits and replies; `h` is a context number (R179, R124, R37, R77, R182)
  | waitwWake (h : Nat)
  | ecallReply (h : Nat)
  | exitComplete (h : Nat)
  | mvreqComplete (h : Nat)
  | vwaitWake (h : Nat)
  | vwaitTimeout (h : Nat)
  -- a queued merge, a chunk of a bound register, a copy barrier, a copy by its number (R191, R263, R325, R310)
  | awmergeApply (k : Nat)
  | chunkDelivery (v : Reg)
  | cpwaitComplete (h : Nat)
  | copyChunk (k : Nat)
  -- engine commands by their number (R278 to R280)
  | swpoutComplete (k : Nat)
  | swpinBlockLanded (k : Nat)
  | swpinComplete (k : Nat)
  | xferLayer (k : Nat)
  | xferComplete (k : Nat)
  -- fetch and issue (R86, R41, R358, R40)
  | illegalEncoding (e : DecodeError) (raw : Word)
  | issueBeat (fe : Nat)
  | laneShiftRepair (fe : Nat) (entry : BitVec 2) (half : HalfSel) (repair : Option (BitVec 16))
  | frameBoundary (fe : Nat)
  -- posted stores and replies of a context (R136, R227, R112), stalls, traps (R196, R347)
  | accessPerform (h k : Nat)
  | replyWrite (h k : Nat)
  | coldTierStoreError (h k : Nat)
  | watermarkTimeout (h : Nat) (n : BitVec 4)
  | trapEntry (h : Nat)
  -- launches and queues (R329, R331, R332); the slots are the hardware's choice
  | launchStart (k : Nat) (slots : List Nat)
  | ringFetch (p q : Nat)
  | notifyWrite (p : Nat) (vf : Option Nat) (v : BitVec 32)
  | hostInterrupt (p : Nat) (vf : Option Nat)
  | hostApertureAccess (fn : BarFunction) (off : Nat) (acc : ExtAccess)
  | dlaunch (addr : Word)
  | peerAccess (device : BitVec 16) (sender remote : BitVec 4) (off : Nat) (acc : ExtAccess)
  -- scheduling (R338, R340, R342)
  | sliceEnd (p : Nat)
  | contextSave (h : Nat)
  | restore (gangStack gang : Nat) (slots : List Nat)
  -- register writes (R61, R25, R40, R23, R336, R73, R330, R194, R316, R255, R157, R351, R57)
  | slotbaseWrite (v : Word)
  | harnessWrite (fe : Nat) (v : Word)
  | beatmapWrite (fe : Nat) (v : Word)
  | rowrangeWrite (slot : Nat) (v : Word)
  | partWrite (slot : Nat) (v : Word)
  | selvedgeWrite (slot : Nat) (i : BitVec 4) (v : Word)
  | notifybmWrite (v : Word)
  | wmCsrWrite (n : BitVec 4) (v : Word)
  | cpbCsrWrite (m : Reg3) (v : Word)
  | loopRegisterWrite (r : LoopReg) (v : Word)
  | stripWrite (v : Word)
  | vlCsrWrite (v : Word)
  | vstartWrite (v : Word)
  | registerWrite (dest : RegDest) (v : Word)
  -- errors and containment (R360, R359, R361, R362, R385, R394)
  | timerExpire (p : Nat)
  | uncorrectableError (site : ErrorSite)
  | securityAlarm (a : Alarm)
  | quarantineRelease (p : Nat)
  | vaultControlWrite (v : Nat) (w : Word)
  | linkLaneFailure (l : Nat) (lane : BitVec 3)
  | coldTierExpanderError (r : Nat)
  | thermalNotice (stack : Nat)
  | stackShutdown (stack : Nat)
  | powerNotice
  -- the module and its services; `k` is the number of an accepted call (R395, R389, R393, R387)
  | bringUp
  | firmwareSwitch
  | certificateChain
  | version (k : Nat)
  | loadImage (k : Nat)
  | unloadImage (k : Nat)
  | allocateWatermark (k : Nat)
  | freeWatermark (k : Nat)
  | setSessionDirectory (k : Nat)
  | readEventBlock (k : Nat)
  | writeEventBlock (k : Nat)
  | terminate (k : Nat)
  | attestationQuote (k : Nat)
  | peerWatermarkPublication (device : BitVec 16) (sender remote : BitVec 4) (obj : BitVec 16) (index : Nat)
  | vaultRetirement (v : Nat)
  deriving DecidableEq, Repr

end Sys2Proof
end

