-- ==== Sys2Proof/WellFormed.lean ====
section
/-!
DEFINITION. Which terms of `Instr` are instructions: the operand limits of chapter 6 (R86, check 7).

The decoder refuses a pattern whose operands break one of these limits with cause 1, by this very check, and the encoder
is meant for terms that meet them.
-/

namespace Sys2Proof

/-- The operand is a vector or a general register, not an immediate (R94, forms "vv, vs"). -/
def VOp.isReg : VOp → Bool
  | .vv _ | .vs _ => true
  | .vi _ => false

/-- The operand is a general register or an immediate (R94, forms "vs, vi"). -/
def VOp.isScalar : VOp → Bool
  | .vs _ | .vi _ => true
  | .vv _ => false

/-- The operand is not a negative immediate (R240, R243). -/
def VOp.notNegative : VOp → Bool
  | .vi imm => !imm.msb
  | _ => true

/-- `vmma` accepts these types (R296). -/
def ElemTy.isMmaType : ElemTy → Bool
  | .bf16 | .f16 | .e4m3 | .e5m2 | .i8 | .n8 => true
  | _ => false

/-- `mext` and `mins` accept these types (R302, R303). -/
def ElemTy.isExtType : ElemTy → Bool
  | .f32 | .f16 | .bf16 | .e4m3 | .e5m2 | .i8 | .i16 | .i32 | .n8 | .n16 | .n32 => true
  | _ => false

/-- A slot number that `lslot`, `mvreq` and `mvcommit` accept: 1 to 254 (R69, R75). -/
def slotOperandOk (n : BitVec 8) : Bool := n != 0 && n != 255

/-- A tile height that `vmma` accepts (R293), with a B base that is a multiple of 8. -/
def mmaOperandsOk (vb : Reg) (rows : BitVec 7) : Bool :=
  vb.toNat % 8 == 0 && (1 ≤ rows.toNat && rows.toNat ≤ 64)

/-- The operand limits of the instructions (R86 check 7, R92, R94, R95, R163, R240, R243, R293).  An operation that is
not named here takes every value of its fields. -/
def wellFormed : Instr → Bool
  | .lslot _ n | .mvreq _ _ n | .mvcommit _ _ n => slotOperandOk n
  | .vfadd _ _ b _ | .vfsub _ _ b _ | .vfmul _ _ b _ | .vfmadd _ _ b _ | .vfnmsub _ _ b _ | .vfdiv _ _ b _
  | .vfmin _ _ b _ | .vfmax _ _ b _ | .vfsgnj _ _ b _ => b.isReg
  | .vfcmpEq _ _ b _ | .vfcmpNe _ _ b _ | .vfcmpLt _ _ b _ | .vfcmpLe _ _ b _ | .vfcmpGt _ _ b _
  | .vfcmpGe _ _ b _ => b.isReg
  | .vslideup _ _ b _ | .vslidedn _ _ b _ | .vext _ _ b => b.isScalar && b.notNegative
  | .vlseg d _ nf _ _ | .vsseg d _ nf _ _ => nf != 0 && decide (d.toNat + nf.toNat ≤ 31)
  | .mattach rows => rows == 16 || rows == 32 || rows == 48 || rows == 64
  | .vmma ty _ _ vb rows _ => ty.isMmaType && mmaOperandsOk vb rows
  | .vmmas _ _ vb rows _ _ _ => mmaOperandsOk vb rows
  | .mext _ _ ty _ | .mins _ _ ty _ => ty.isExtType
  | .cAddi d _ | .cLi d _ | .cMv d _ | .cAdd d _ | .cSub d _ | .cAnd d _ => d != 0
  | _ => true

end Sys2Proof
end

