-- ==== Sys2Proof/Decode.lean ====
section
/-!
DEFINITION. The decoder and the encoder (chapter 6 of the spec).

`decode` is total on any list of bytes: it answers an instruction with the rest of the bytes, or the reason of R86 why
the pattern is not one.  The order of the reasons is R86's: checks 2, 3, 4, 5, 6, 7.  Words are natural numbers here and
a field is a quotient and a remainder, which is what a proof about them needs.
-/

namespace Sys2Proof

/-- The field of `n` bits from bit `lo` up. -/
def fld (w lo n : Nat) : Nat := w / 2 ^ lo % 2 ^ n

/-- The same field as a bit vector. -/
def bits (w lo n : Nat) : BitVec n := BitVec.ofNat n (w / 2 ^ lo)

/-- A register field of five bits from bit `lo` up. -/
def reg (w lo : Nat) : Reg := bits w lo 5

/-- A one-bit field. -/
def flag (w lo : Nat) : Bool := fld w lo 1 == 1

/-- The width bit of a scalar atomic (R90, bit 4). -/
def amoSz (w : Nat) : AmoSz := if fld w 4 1 = 0 then .w else .d

/-- The width bit as written in the encoding. -/
def AmoSz.code : AmoSz → Nat
  | .w => 0
  | .d => 1

/-- The code of a fence scope (R91). -/
def FenceScope.code : FenceScope → Nat
  | .hart => 0
  | .gang => 1
  | .stack => 2
  | .part => 3
  | .device => 4
  | .system => 5

/-- The fence scope of a code; 6 and 7 name none (R91). -/
def FenceScope.ofCode : Nat → Option FenceScope
  | 0 => some .hart
  | 1 => some .gang
  | 2 => some .stack
  | 3 => some .part
  | 4 => some .device
  | 5 => some .system
  | _ => none

/-- The code of a memory element width (R95). -/
def MemW.code : MemW → Nat
  | .x1 => 0
  | .x2 => 1
  | .x4 => 2

/-- The memory element width of a code; 3 names none (R95). -/
def MemW.ofCode : Nat → Option MemW
  | 0 => some .x1
  | 1 => some .x2
  | 2 => some .x4
  | _ => none

/-- The code of an element type (R202, R203, R207). -/
def ElemTy.code : ElemTy → Nat
  | .i8 => 0
  | .i16 => 1
  | .i32 => 2
  | .i64 => 3
  | .n8 => 4
  | .n16 => 5
  | .n32 => 6
  | .n64 => 7
  | .f32 => 8
  | .f16 => 9
  | .bf16 => 10
  | .e4m3 => 11
  | .e5m2 => 12
  | .f4b => 13

/-- The element type of a code; 14 and 15 are invalid (R203). -/
def ElemTy.ofCode : Nat → Option ElemTy
  | 0 => some .i8
  | 1 => some .i16
  | 2 => some .i32
  | 3 => some .i64
  | 4 => some .n8
  | 5 => some .n16
  | 6 => some .n32
  | 7 => some .n64
  | 8 => some .f32
  | 9 => some .f16
  | 10 => some .bf16
  | 11 => some .e4m3
  | 12 => some .e5m2
  | 13 => some .f4b
  | _ => none

/-- The operand form field opf of a third operand (R87). -/
def VOp.opf : VOp → Nat
  | .vv _ => 0
  | .vs _ => 1
  | .vi _ => 2

/-- The five-bit field of a third operand. -/
def VOp.field : VOp → Nat
  | .vv b => b.toNat
  | .vs b => b.toNat
  | .vi i => i.toNat

/-- Check 6 of R86 for one instruction: its reserved fields, added up, are zero. -/
def unless0 (reservedBits : Nat) (i : Instr) : Except DecodeError Instr :=
  if reservedBits = 0 then .ok i else .error .reservedField

/-- Check 7 of R86: the operand limits. -/
def limit (i : Instr) : Except DecodeError Instr :=
  if wellFormed i then .ok i else .error .operand

/-- A V-layout instruction that takes a third operand; opf 3 is no form that any instruction accepts (R87, R94). That it fails check 7,
behind the reserved fields, is a DESIGN CHOICE (log 47), as for a memory width of 3, a fence scope of 6 or 7, and nf 0. -/
def withForm (w : Nat) (k : VOp → Except DecodeError Instr) : Except DecodeError Instr :=
  match fld w 7 2 with
  | 0 => k (.vv (reg w 12))
  | 1 => k (.vs (reg w 12))
  | 2 => k (.vi (bits w 12 5))
  | _ => .error .operand

/-- A compare: as `withForm`, and the high bits of the mask field d are reserved (R94). -/
def withShortForm (w : Nat) (k : VOp → Except DecodeError Instr) : Except DecodeError Instr :=
  if fld w 25 2 ≠ 0 then .error .reservedField
  else withForm w k

/-- A V-layout instruction with the one form `opf`: the reserved fields (check 6), then the form (check 7). -/
def onlyForm (w opf reservedBits : Nat) (i : Instr) : Except DecodeError Instr :=
  if reservedBits ≠ 0 then .error .reservedField
  else if fld w 7 2 = opf then .ok i
  else .error .operand

/-- The memory element width of a vector access: 3 is outside the limits (R95). -/
def withMemW (w : Nat) (k : MemW → Except DecodeError Instr) : Except DecodeError Instr :=
  match MemW.ofCode (fld w 2 2) with
  | some mw => k mw
  | none => .error .operand

/-- R107: major 0x02, integer immediates. -/
def decodeIntImm (w : Nat) : Except DecodeError Instr :=
  match fld w 14 3 with
  | 0 => .ok (.addi (reg w 22) (reg w 17) (bits w 2 12))
  | 1 => .ok (.andi (reg w 22) (reg w 17) (bits w 2 12))
  | 2 => .ok (.ori (reg w 22) (reg w 17) (bits w 2 12))
  | 3 => .ok (.xori (reg w 22) (reg w 17) (bits w 2 12))
  | 4 => unless0 (fld w 8 6) (.slli (reg w 22) (reg w 17) (bits w 2 6))
  | 5 =>
    if fld w 13 1 ≠ 0 ∨ fld w 8 4 ≠ 0 then .error .reservedField
    else if fld w 12 1 = 0 then .ok (.srli (reg w 22) (reg w 17) (bits w 2 6))
    else .ok (.srai (reg w 22) (reg w 17) (bits w 2 6))
  | 6 => .ok (.slti (reg w 22) (reg w 17) (bits w 2 12))
  | _ => .ok (.sltni (reg w 22) (reg w 17) (bits w 2 12))

/-- R105, R106: major 0x03, integer registers. -/
def decodeIntReg (w : Nat) : Except DecodeError Instr :=
  match fld w 2 7 with
  | 0 => unless0 (fld w 9 3) (.add (reg w 22) (reg w 17) (reg w 12))
  | 1 => unless0 (fld w 9 3) (.sub (reg w 22) (reg w 17) (reg w 12))
  | 2 => unless0 (fld w 9 3) (.and (reg w 22) (reg w 17) (reg w 12))
  | 3 => unless0 (fld w 9 3) (.or (reg w 22) (reg w 17) (reg w 12))
  | 4 => unless0 (fld w 9 3) (.xor (reg w 22) (reg w 17) (reg w 12))
  | 5 => unless0 (fld w 9 3) (.sll (reg w 22) (reg w 17) (reg w 12))
  | 6 => unless0 (fld w 9 3) (.srl (reg w 22) (reg w 17) (reg w 12))
  | 7 => unless0 (fld w 9 3) (.sra (reg w 22) (reg w 17) (reg w 12))
  | 8 => unless0 (fld w 9 3) (.slt (reg w 22) (reg w 17) (reg w 12))
  | 9 => unless0 (fld w 9 3) (.sltn (reg w 22) (reg w 17) (reg w 12))
  | 10 => unless0 (fld w 9 3) (.mul (reg w 22) (reg w 17) (reg w 12))
  | 11 => unless0 (fld w 9 3) (.mulh (reg w 22) (reg w 17) (reg w 12))
  | 12 => unless0 (fld w 9 3) (.mulhn (reg w 22) (reg w 17) (reg w 12))
  | 13 => unless0 (fld w 9 3) (.div (reg w 22) (reg w 17) (reg w 12))
  | 14 => unless0 (fld w 9 3) (.divn (reg w 22) (reg w 17) (reg w 12))
  | 15 => unless0 (fld w 9 3) (.rem (reg w 22) (reg w 17) (reg w 12))
  | 16 => unless0 (fld w 9 3) (.remn (reg w 22) (reg w 17) (reg w 12))
  | 17 => unless0 (fld w 9 3) (.min (reg w 22) (reg w 17) (reg w 12))
  | 18 => unless0 (fld w 9 3) (.max (reg w 22) (reg w 17) (reg w 12))
  | 19 => unless0 (fld w 9 3) (.minn (reg w 22) (reg w 17) (reg w 12))
  | 20 => unless0 (fld w 9 3) (.maxn (reg w 22) (reg w 17) (reg w 12))
  | _ => .error .unassigned

/-- R112: major 0x04, scalar loads. -/
def decodeLoad (w : Nat) : Except DecodeError Instr :=
  match fld w 14 3 with
  | 0 => .ok (.ldb (reg w 22) (reg w 17) (bits w 2 12))
  | 1 => .ok (.ldh (reg w 22) (reg w 17) (bits w 2 12))
  | 2 => .ok (.ldw (reg w 22) (reg w 17) (bits w 2 12))
  | 3 => .ok (.ldd (reg w 22) (reg w 17) (bits w 2 12))
  | 4 => .ok (.ldbn (reg w 22) (reg w 17) (bits w 2 12))
  | 5 => .ok (.ldhn (reg w 22) (reg w 17) (bits w 2 12))
  | 6 => .ok (.ldwn (reg w 22) (reg w 17) (bits w 2 12))
  | _ => .error .unassigned

/-- R112, R116: major 0x05, scalar stores. -/
def decodeStore (w : Nat) : Except DecodeError Instr :=
  match fld w 14 3 with
  | 0 => .ok (.stb (reg w 22) (reg w 17) (bits w 2 12))
  | 1 => .ok (.sth (reg w 22) (reg w 17) (bits w 2 12))
  | 2 => .ok (.stw (reg w 22) (reg w 17) (bits w 2 12))
  | 3 => .ok (.std (reg w 22) (reg w 17) (bits w 2 12))
  | 4 => .ok (.stbRel (reg w 22) (reg w 17) (bits w 2 12))
  | 5 => .ok (.sthRel (reg w 22) (reg w 17) (bits w 2 12))
  | 6 => .ok (.stwRel (reg w 22) (reg w 17) (bits w 2 12))
  | _ => .ok (.stdRel (reg w 22) (reg w 17) (bits w 2 12))

/-- R119: major 0x06, branches. -/
def decodeBranch (w : Nat) : Except DecodeError Instr :=
  match fld w 14 3 with
  | 0 => .ok (.beq (reg w 22) (reg w 17) (bits w 2 12))
  | 1 => .ok (.bne (reg w 22) (reg w 17) (bits w 2 12))
  | 2 => .ok (.blt (reg w 22) (reg w 17) (bits w 2 12))
  | 3 => .ok (.bge (reg w 22) (reg w 17) (bits w 2 12))
  | 4 => .ok (.bltn (reg w 22) (reg w 17) (bits w 2 12))
  | 5 => .ok (.bgen (reg w 22) (reg w 17) (bits w 2 12))
  | _ => .error .unassigned

/-- R117, R118: major 0x09, scalar FP. -/
def decodeScalarFp (w : Nat) : Except DecodeError Instr :=
  match fld w 2 7 with
  | 0 => unless0 (fld w 9 3) (.fadd (reg w 22) (reg w 17) (reg w 12))
  | 1 => unless0 (fld w 9 3) (.fsub (reg w 22) (reg w 17) (reg w 12))
  | 2 => unless0 (fld w 9 3) (.fmul (reg w 22) (reg w 17) (reg w 12))
  | 3 => unless0 (fld w 9 3) (.fdiv (reg w 22) (reg w 17) (reg w 12))
  | 4 => unless0 (fld w 9 8) (.fsqrt (reg w 22) (reg w 17))
  | 5 => unless0 (fld w 9 3) (.fmin (reg w 22) (reg w 17) (reg w 12))
  | 6 => unless0 (fld w 9 3) (.fmax (reg w 22) (reg w 17) (reg w 12))
  | 7 => unless0 (fld w 9 3) (.feq (reg w 22) (reg w 17) (reg w 12))
  | 8 => unless0 (fld w 9 3) (.flt (reg w 22) (reg w 17) (reg w 12))
  | 9 => unless0 (fld w 9 3) (.fle (reg w 22) (reg w 17) (reg w 12))
  | 10 => unless0 (fld w 9 8) (.fclass (reg w 22) (reg w 17))
  | 11 => unless0 (fld w 9 3) (.fmadd (reg w 22) (reg w 17) (reg w 12))
  | 16 => unless0 (fld w 9 8) (.fcvtF32I32 (reg w 22) (reg w 17))
  | 17 => unless0 (fld w 9 8) (.fcvtF32N32 (reg w 22) (reg w 17))
  | 18 => unless0 (fld w 9 8) (.fcvtF32I64 (reg w 22) (reg w 17))
  | 19 => unless0 (fld w 9 8) (.fcvtF32N64 (reg w 22) (reg w 17))
  | 20 => unless0 (fld w 9 8) (.fcvtI32F32 (reg w 22) (reg w 17))
  | 21 => unless0 (fld w 9 8) (.fcvtN32F32 (reg w 22) (reg w 17))
  | 22 => unless0 (fld w 9 8) (.fcvtI64F32 (reg w 22) (reg w 17))
  | 23 => unless0 (fld w 9 8) (.fcvtN64F32 (reg w 22) (reg w 17))
  | _ => .error .unassigned

/-- R90: major 0x0A, acquire loads, scalar atomics and waitw. -/
def decodeOrdered (w : Nat) : Except DecodeError Instr :=
  match fld w 14 3 with
  | 0 => .ok (.ldbAcq (reg w 22) (reg w 17) (bits w 2 12))
  | 1 => .ok (.ldhAcq (reg w 22) (reg w 17) (bits w 2 12))
  | 2 => .ok (.ldwAcq (reg w 22) (reg w 17) (bits w 2 12))
  | 3 => .ok (.lddAcq (reg w 22) (reg w 17) (bits w 2 12))
  | 4 => .ok (.ldbnAcq (reg w 22) (reg w 17) (bits w 2 12))
  | 5 => .ok (.ldhnAcq (reg w 22) (reg w 17) (bits w 2 12))
  | 6 => .ok (.ldwnAcq (reg w 22) (reg w 17) (bits w 2 12))
  | _ =>
    match fld w 5 4 with
    | 0 => .ok (.amoadd (amoSz w) (flag w 3) (flag w 2) (reg w 22) (reg w 9) (reg w 17))
    | 1 => .ok (.amoswap (amoSz w) (flag w 3) (flag w 2) (reg w 22) (reg w 9) (reg w 17))
    | 2 => .ok (.amocas (amoSz w) (flag w 3) (flag w 2) (reg w 22) (reg w 9) (reg w 17))
    | 3 => .ok (.amomin (amoSz w) (flag w 3) (flag w 2) (reg w 22) (reg w 9) (reg w 17))
    | 4 => .ok (.amomax (amoSz w) (flag w 3) (flag w 2) (reg w 22) (reg w 9) (reg w 17))
    | 5 => .ok (.amoand (amoSz w) (flag w 3) (flag w 2) (reg w 22) (reg w 9) (reg w 17))
    | 6 => .ok (.amoor (amoSz w) (flag w 3) (flag w 2) (reg w 22) (reg w 9) (reg w 17))
    | 7 => .ok (.amoxor (amoSz w) (flag w 3) (flag w 2) (reg w 22) (reg w 9) (reg w 17))
    | 8 => unless0 (fld w 2 1) (.waitw (amoSz w) (flag w 3) (reg w 22) (reg w 9) (reg w 17))
    | _ => .error .unassigned

/-- R91: major 0x0B, the system group. -/
def decodeSystem (w : Nat) : Except DecodeError Instr :=
  match fld w 14 3 with
  | 0 =>
    match fld w 2 12 with
    | 0 => unless0 (fld w 17 10) .ecall
    | 1 => unless0 (fld w 17 10) .trap
    | 2 => unless0 (fld w 17 10) .eret
    | 3 => unless0 (fld w 17 10) .exit
    | 4 => unless0 (fld w 17 10) .yield
    | 5 => unless0 (fld w 17 10) .flushi
    | _ => .error .unassigned
  | 1 => unless0 (fld w 17 5) (.csrrd (reg w 22) (bits w 2 12))
  | 2 => unless0 (fld w 22 5) (.csrwr (bits w 2 12) (reg w 17))
  | 3 => unless0 (fld w 22 5) (.csrset (bits w 2 12) (reg w 17))
  | 4 => unless0 (fld w 22 5) (.csrclr (bits w 2 12) (reg w 17))
  | 5 =>
    if fld w 17 10 ≠ 0 ∨ fld w 7 7 ≠ 0 then .error .reservedField
    else match FenceScope.ofCode (fld w 4 3) with
      | none => .error .operand
      | some s =>
        match fld w 2 2 with
        | 0 => .ok (.fenceSv s)
        | 1 => .ok (.fenceVs s)
        | 2 => .ok (.fenceVv s)
        | _ => .ok (.fenceAll s)
  | _ => .error .unassigned

/-- R92: major 0x0C, slots, leases and moves. -/
def decodeMeta (w : Nat) : Except DecodeError Instr :=
  match fld w 14 3 with
  | 0 =>
      if fld w 17 5 + fld w 10 4 ≠ 0 then .error .reservedField else limit (.lslot (reg w 22) (bits w 2 8))
  | 1 =>
      if fld w 10 4 ≠ 0 then .error .reservedField else limit (.mvreq (reg w 22) (reg w 17) (bits w 2 8))
  | 2 =>
      if fld w 10 4 ≠ 0 then .error .reservedField else limit (.mvcommit (reg w 22) (reg w 17) (bits w 2 8))
  | 3 =>
    match fld w 2 12 with
    | 0 => .ok (.ltag (reg w 22) (reg w 17))
    | 1 => unless0 (fld w 17 5) (.lclr (reg w 22))
    | 2 => .ok (.ljoin (reg w 22) (reg w 17))
    | 3 => unless0 (fld w 17 10) .safept
    | 4 => unless0 (fld w 17 5) (.vlclr (reg w 22))
    | _ => .error .unassigned
  | _ => .error .unassigned

/-- R93: major 0x0D, vector configuration. -/
def decodeVConfig (w : Nat) : Except DecodeError Instr :=
  if fld w 21 1 = 0 then
    .ok (.vsetvli (reg w 22) (bits w 18 3) (bits w 12 6) (bits w 2 10))
  else match fld w 2 9 with
    | 0 => .ok (.vsetvl (reg w 22) (reg w 16) (reg w 11))
    | 1 => .ok (.vwin (reg w 22) (reg w 16) (reg w 11))
    | _ => .error .unassigned

/-- R230: major 0x0E, vector integer arithmetic. -/
def decodeVInt (w : Nat) : Except DecodeError Instr :=
  match fld w 2 5 with
  | 0 => withForm w fun b => limit (.vadd (reg w 22) (reg w 17) b (bits w 9 3))
  | 1 => withForm w fun b => limit (.vsub (reg w 22) (reg w 17) b (bits w 9 3))
  | 2 => withForm w fun b => limit (.vmul (reg w 22) (reg w 17) b (bits w 9 3))
  | 3 => withForm w fun b => limit (.vmulh (reg w 22) (reg w 17) b (bits w 9 3))
  | 4 => withForm w fun b => limit (.vand (reg w 22) (reg w 17) b (bits w 9 3))
  | 5 => withForm w fun b => limit (.vor (reg w 22) (reg w 17) b (bits w 9 3))
  | 6 => withForm w fun b => limit (.vxor (reg w 22) (reg w 17) b (bits w 9 3))
  | 7 => withForm w fun b => limit (.vsll (reg w 22) (reg w 17) b (bits w 9 3))
  | 8 => withForm w fun b => limit (.vsrl (reg w 22) (reg w 17) b (bits w 9 3))
  | 9 => withForm w fun b => limit (.vsra (reg w 22) (reg w 17) b (bits w 9 3))
  | 10 => withForm w fun b => limit (.vmin (reg w 22) (reg w 17) b (bits w 9 3))
  | 11 => withForm w fun b => limit (.vmax (reg w 22) (reg w 17) b (bits w 9 3))
  | 12 => withForm w fun b => limit (.vminn (reg w 22) (reg w 17) b (bits w 9 3))
  | 13 => withForm w fun b => limit (.vmaxn (reg w 22) (reg w 17) b (bits w 9 3))
  | 14 => withForm w fun b => limit (.vsadd (reg w 22) (reg w 17) b (bits w 9 3))
  | 15 => withForm w fun b => limit (.vssub (reg w 22) (reg w 17) b (bits w 9 3))
  | _ => .error .unassigned

/-- R231, R232: major 0x0F, vector floating point. -/
def decodeVFp (w : Nat) : Except DecodeError Instr :=
  match fld w 2 5 with
  | 0 => withForm w fun b => limit (.vfadd (reg w 22) (reg w 17) b (bits w 9 3))
  | 1 => withForm w fun b => limit (.vfsub (reg w 22) (reg w 17) b (bits w 9 3))
  | 2 => withForm w fun b => limit (.vfmul (reg w 22) (reg w 17) b (bits w 9 3))
  | 3 => withForm w fun b => limit (.vfmadd (reg w 22) (reg w 17) b (bits w 9 3))
  | 4 => withForm w fun b => limit (.vfnmsub (reg w 22) (reg w 17) b (bits w 9 3))
  | 5 => withForm w fun b => limit (.vfdiv (reg w 22) (reg w 17) b (bits w 9 3))
  | 6 => onlyForm w 0 (fld w 12 5) (.vfsqrt (reg w 22) (reg w 17) (bits w 9 3))
  | 7 => withForm w fun b => limit (.vfmin (reg w 22) (reg w 17) b (bits w 9 3))
  | 8 => withForm w fun b => limit (.vfmax (reg w 22) (reg w 17) b (bits w 9 3))
  | 9 => onlyForm w 0 (fld w 12 5) (.vfrecip (reg w 22) (reg w 17) (bits w 9 3))
  | 10 => onlyForm w 0 (fld w 12 5) (.vfrsqrt (reg w 22) (reg w 17) (bits w 9 3))
  | 11 => withForm w fun b => limit (.vfscale (reg w 22) (reg w 17) b (bits w 9 3))
  | 12 => onlyForm w 0 (fld w 12 5) (.vfround (reg w 22) (reg w 17) (bits w 9 3))
  | 13 => withForm w fun b => limit (.vfsgnj (reg w 22) (reg w 17) b (bits w 9 3))
  | _ => .error .unassigned

/-- R233 to R235: major 0x10, compares and mask instructions. -/
def decodeVCmp (w : Nat) : Except DecodeError Instr :=
  match fld w 2 5 with
  | 0 => withShortForm w fun b => limit (.vcmpEq (bits w 22 3) (reg w 17) b (bits w 9 3))
  | 1 => withShortForm w fun b => limit (.vcmpNe (bits w 22 3) (reg w 17) b (bits w 9 3))
  | 2 => withShortForm w fun b => limit (.vcmpLt (bits w 22 3) (reg w 17) b (bits w 9 3))
  | 3 => withShortForm w fun b => limit (.vcmpLe (bits w 22 3) (reg w 17) b (bits w 9 3))
  | 4 => withShortForm w fun b => limit (.vcmpGt (bits w 22 3) (reg w 17) b (bits w 9 3))
  | 5 => withShortForm w fun b => limit (.vcmpGe (bits w 22 3) (reg w 17) b (bits w 9 3))
  | 6 => withShortForm w fun b => limit (.vcmpLtn (bits w 22 3) (reg w 17) b (bits w 9 3))
  | 7 => withShortForm w fun b => limit (.vcmpLen (bits w 22 3) (reg w 17) b (bits w 9 3))
  | 8 => withShortForm w fun b => limit (.vcmpGtn (bits w 22 3) (reg w 17) b (bits w 9 3))
  | 9 => withShortForm w fun b => limit (.vcmpGen (bits w 22 3) (reg w 17) b (bits w 9 3))
  | 10 => .error .unassigned
  | 11 => .error .unassigned
  | 12 => withShortForm w fun b => limit (.vfcmpEq (bits w 22 3) (reg w 17) b (bits w 9 3))
  | 13 => withShortForm w fun b => limit (.vfcmpNe (bits w 22 3) (reg w 17) b (bits w 9 3))
  | 14 => withShortForm w fun b => limit (.vfcmpLt (bits w 22 3) (reg w 17) b (bits w 9 3))
  | 15 => withShortForm w fun b => limit (.vfcmpLe (bits w 22 3) (reg w 17) b (bits w 9 3))
  | 16 => withShortForm w fun b => limit (.vfcmpGt (bits w 22 3) (reg w 17) b (bits w 9 3))
  | 17 => withShortForm w fun b => limit (.vfcmpGe (bits w 22 3) (reg w 17) b (bits w 9 3))
  | 18 => .error .unassigned
  | 19 => .error .unassigned
  | 20 => .error .unassigned
  | 21 => .error .unassigned
  | 22 => .error .unassigned
  | 23 => onlyForm w 0 (fld w 25 2 + fld w 20 2 + fld w 15 2 + fld w 9 3) (.mand (bits w 22 3) (bits w 17 3) (bits w 12 3))
  | 24 => onlyForm w 0 (fld w 25 2 + fld w 20 2 + fld w 15 2 + fld w 9 3) (.mor (bits w 22 3) (bits w 17 3) (bits w 12 3))
  | 25 => onlyForm w 0 (fld w 25 2 + fld w 20 2 + fld w 15 2 + fld w 9 3) (.mxor (bits w 22 3) (bits w 17 3) (bits w 12 3))
  | 26 => onlyForm w 0 (fld w 25 2 + fld w 20 2 + fld w 15 2 + fld w 9 3) (.mandn (bits w 22 3) (bits w 17 3) (bits w 12 3))
  | 27 => onlyForm w 0 (fld w 25 2 + fld w 20 2 + fld w 9 8) (.mnot (bits w 22 3) (bits w 17 3))
  | 28 => onlyForm w 0 (fld w 20 2 + fld w 9 8) (.mpop (reg w 22) (bits w 17 3))
  | 29 => onlyForm w 0 (fld w 20 2 + fld w 9 8) (.mfirst (reg w 22) (bits w 17 3))
  | 30 => onlyForm w 0 (fld w 25 2 + fld w 9 13) (.mset (bits w 22 3))
  | _ => onlyForm w 0 (fld w 25 2 + fld w 20 2 + fld w 9 8) (.mmv (bits w 22 3) (bits w 17 3))

/-- R240 to R243: major 0x11, permutes and moves. -/
def decodeVPerm (w : Nat) : Except DecodeError Instr :=
  match fld w 2 5 with
  | 0 => withForm w fun b => limit (.vslideup (reg w 22) (reg w 17) b (bits w 9 3))
  | 1 => withForm w fun b => limit (.vslidedn (reg w 22) (reg w 17) b (bits w 9 3))
  | 2 => onlyForm w 0 0 (.vgather (reg w 22) (reg w 17) (reg w 12) (bits w 9 3))
  | 3 => onlyForm w 0 (fld w 12 5) (.vcompress (reg w 22) (reg w 17) (bits w 9 3))
  | 4 => onlyForm w 1 (fld w 17 5) (.vbcast (reg w 22) (reg w 12) (bits w 9 3))
  | 5 => onlyForm w 0 (fld w 12 10) (.vid (reg w 22) (bits w 9 3))
  | 6 => withForm w fun b => limit (.vmerge (reg w 22) (reg w 17) b (bits w 9 3))
  | 7 => onlyForm w 0 (fld w 12 5) (.vmv (reg w 22) (reg w 17) (bits w 9 3))
  | 8 => onlyForm w 1 (fld w 17 5 + fld w 9 3) (.vmvsx (reg w 22) (reg w 12))
  | 9 => onlyForm w 0 (fld w 9 8) (.vmvxs (reg w 22) (reg w 17))
  | 10 =>
    if fld w 9 3 ≠ 0 then .error .reservedField
    else withForm w fun b => limit (.vext (reg w 22) (reg w 17) b)
  | _ => .error .unassigned

/-- R236 to R239: major 0x12, conversions and reductions. -/
def decodeVConv (w : Nat) : Except DecodeError Instr :=
  match fld w 2 5 with
  | 0 => onlyForm w 0 (fld w 16 1) (.vcvt (reg w 22) (reg w 17) (bits w 12 4) (bits w 9 3))
  | 1 => onlyForm w 0 (fld w 16 1) (.vcvti (reg w 22) (reg w 17) (bits w 12 4) (bits w 9 3))
  | 2 => onlyForm w 0 (fld w 15 2) (.vquant (reg w 22) (reg w 17) (bits w 12 3) (bits w 9 3))
  | 8 => onlyForm w 1 0 (.vredsum (reg w 22) (reg w 17) (reg w 12) (bits w 9 3))
  | 9 => onlyForm w 1 0 (.vredmax (reg w 22) (reg w 17) (reg w 12) (bits w 9 3))
  | 10 => onlyForm w 1 0 (.vredmin (reg w 22) (reg w 17) (reg w 12) (bits w 9 3))
  | 11 => onlyForm w 1 0 (.vfredsum (reg w 22) (reg w 17) (reg w 12) (bits w 9 3))
  | 12 => onlyForm w 1 0 (.vfredosum (reg w 22) (reg w 17) (reg w 12) (bits w 9 3))
  | 13 => onlyForm w 1 0 (.vfredmax (reg w 22) (reg w 17) (reg w 12) (bits w 9 3))
  | _ => .error .unassigned

/-- R95: major 0x13, vector loads. -/
def decodeVLoad (w : Nat) : Except DecodeError Instr :=
  match fld w 7 2 with
  | 0 => if fld w 12 5 ≠ 0 ∨ fld w 4 3 ≠ 0 then .error .reservedField
    else withMemW w fun mw => .ok (.vld (reg w 22) (reg w 17) (bits w 9 3) mw)
  | 1 => if fld w 4 3 ≠ 0 then .error .reservedField
    else withMemW w fun mw => .ok (.vlds (reg w 22) (reg w 17) (reg w 12) (bits w 9 3) mw)
  | 2 => if fld w 4 3 ≠ 0 then .error .reservedField
    else withMemW w fun mw => .ok (.vldx (reg w 22) (reg w 17) (reg w 12) (bits w 9 3) mw)
  | _ => if fld w 12 5 ≠ 0 then .error .reservedField
    else withMemW w fun mw => limit (.vlseg (reg w 22) (reg w 17) (bits w 4 3) (bits w 9 3) mw)

/-- R95: major 0x14, vector stores. -/
def decodeVStore (w : Nat) : Except DecodeError Instr :=
  match fld w 7 2 with
  | 0 => if fld w 12 5 ≠ 0 ∨ fld w 4 3 ≠ 0 then .error .reservedField
    else withMemW w fun mw => .ok (.vst (reg w 22) (reg w 17) (bits w 9 3) mw)
  | 1 => if fld w 4 3 ≠ 0 then .error .reservedField
    else withMemW w fun mw => .ok (.vsts (reg w 22) (reg w 17) (reg w 12) (bits w 9 3) mw)
  | 2 => if fld w 4 3 ≠ 0 then .error .reservedField
    else withMemW w fun mw => .ok (.vstx (reg w 22) (reg w 17) (reg w 12) (bits w 9 3) mw)
  | _ => if fld w 12 5 ≠ 0 then .error .reservedField
    else withMemW w fun mw => limit (.vsseg (reg w 22) (reg w 17) (bits w 4 3) (bits w 9 3) mw)

/-- R96: major 0x15, vector synchronisation. -/
def decodeVSync (w : Nat) : Except DecodeError Instr :=
  match fld w 2 7 with
  | 0 => .ok (.vamoAdd (reg w 22) (reg w 17) (reg w 12) (bits w 9 3))
  | 1 => .ok (.vamoSwap (reg w 22) (reg w 17) (reg w 12) (bits w 9 3))
  | 3 => .ok (.vamoMin (reg w 22) (reg w 17) (reg w 12) (bits w 9 3))
  | 4 => .ok (.vamoMax (reg w 22) (reg w 17) (reg w 12) (bits w 9 3))
  | 5 => .ok (.vamoAnd (reg w 22) (reg w 17) (reg w 12) (bits w 9 3))
  | 6 => .ok (.vamoOr (reg w 22) (reg w 17) (reg w 12) (bits w 9 3))
  | 7 => .ok (.vamoXor (reg w 22) (reg w 17) (reg w 12) (bits w 9 3))
  | 8 => unless0 (fld w 22 5 + fld w 9 3) (.vwait (reg w 17) (reg w 12))
  | 9 => unless0 (fld w 12 5) (.vsred (reg w 22) (reg w 17) (bits w 9 3))
  | 10 => unless0 (fld w 22 5 + fld w 9 3) (.awdecl (reg w 17) (reg w 12))
  | 11 => unless0 (fld w 22 5 + fld w 9 8) (.awmerge (reg w 17))
  | 12 => unless0 (fld w 26 1 + fld w 17 5 + fld w 9 3) (.wmpub (bits w 22 4) (reg w 12))
  | 13 => unless0 (fld w 26 1 + fld w 9 8) (.wmset (bits w 22 4) (reg w 17))
  | 14 => unless0 (fld w 26 1 + fld w 9 13) (.wmclr (bits w 22 4))
  | 15 => unless0 (fld w 9 18) .gbar
  | 16 => unless0 (fld w 9 8) (.gjoin (reg w 22) (reg w 17))
  | 17 => unless0 (fld w 9 18) .gleave
  | _ => .error .unassigned

/-- R97: major 0x16, vector control. -/
def decodeVCtl (w : Nat) : Except DecodeError Instr :=
  match fld w 14 3 with
  | 0 => unless0 (fld w 17 5 + fld w 25 2) (.vregion (bits w 22 3) (bits w 2 12))
  | 1 => unless0 (fld w 17 5) (.vloop (reg w 22) (bits w 2 12))
  | 2 => unless0 (fld w 17 5) (.vloopP (reg w 22) (bits w 2 12))
  | 3 => unless0 (fld w 17 5 + fld w 25 2) (.bany (bits w 22 3) (bits w 2 12))
  | 4 => unless0 (fld w 17 5 + fld w 25 2) (.ball (bits w 22 3) (bits w 2 12))
  | 5 => unless0 (fld w 17 5 + fld w 25 2) (.bnone (bits w 22 3) (bits w 2 12))
  | 6 => unless0 (fld w 17 5) (.bsend (reg w 22) (bits w 2 12))
  | _ =>
    match fld w 2 12 with
    | 0 => unless0 (fld w 17 10) .vlend
    | 1 => unless0 (fld w 17 10) .vrend
    | _ => .error .unassigned

/-- R98: major 0x17, streams. -/
def decodeStream (w : Nat) : Except DecodeError Instr :=
  match fld w 2 7 with
  | 0 => unless0 (fld w 9 8) (.vsbind (reg w 22) (reg w 17))
  | 1 => unless0 (fld w 9 13) (.vsunbind (reg w 22))
  | _ => .error .unassigned

/-- R99: major 0x18, spills and fills. -/
def decodeSpill (w : Nat) : Except DecodeError Instr :=
  match fld w 14 3 with
  | 0 => unless0 (fld w 2 12) (.vspill (reg w 22) (reg w 17))
  | 1 => unless0 (fld w 2 12) (.vfill (reg w 22) (reg w 17))
  | 2 => .ok (.gspill (reg w 22) (reg w 17) (bits w 2 12))
  | 3 => .ok (.gfill (reg w 22) (reg w 17) (bits w 2 12))
  | _ => .error .unassigned

/-- R98: major 0x19, the copy engine. -/
def decodeCopy (w : Nat) : Except DecodeError Instr :=
  match fld w 2 7 with
  | 0 => .ok (.cpy (reg w 22) (reg w 17) (reg w 12) (bits w 9 3))
  | 1 => unless0 (fld w 22 5 + fld w 12 5) (.cpyx (reg w 17) (bits w 9 3))
  | 2 => unless0 (fld w 17 10) (.cpb (bits w 9 3) (reg w 12))
  | 3 => unless0 (fld w 12 15) (.cpwait (bits w 9 3))
  | _ => .error .unassigned

/-- R98: major 0x1A, engines and launch. -/
def decodeEngine (w : Nat) : Except DecodeError Instr :=
  match fld w 2 7 with
  | 0 => unless0 (fld w 9 8) (.swpout (reg w 22) (reg w 17))
  | 1 => unless0 (fld w 9 8) (.swpin (reg w 22) (reg w 17))
  | 2 => unless0 (fld w 9 8) (.xfer (reg w 22) (reg w 17))
  | 3 => unless0 (fld w 9 8) (.launch (reg w 22) (reg w 17))
  | 4 => unless0 (fld w 9 8) (.launchNb (reg w 22) (reg w 17))
  | _ => .error .unassigned

/-- A base instruction: the major in bits 31 to 27 selects the group (R88). -/
def decode32 (w : Nat) : Except DecodeError Instr :=
  if w = 0xFFFFFFFF then .error .onesWord
  else match fld w 27 5 with
    | 0x00 => .ok (.lhi (reg w 22) (bits w 2 20))
    | 0x01 => .ok (.aupc (reg w 22) (bits w 2 20))
    | 0x02 => decodeIntImm w
    | 0x03 => decodeIntReg w
    | 0x04 => decodeLoad w
    | 0x05 => decodeStore w
    | 0x06 => decodeBranch w
    | 0x07 => .ok (.jal (reg w 22) (bits w 2 20))
    | 0x08 => unless0 (fld w 14 3) (.jalr (reg w 22) (reg w 17) (bits w 2 12))
    | 0x09 => decodeScalarFp w
    | 0x0A => decodeOrdered w
    | 0x0B => decodeSystem w
    | 0x0C => decodeMeta w
    | 0x0D => decodeVConfig w
    | 0x0E => decodeVInt w
    | 0x0F => decodeVFp w
    | 0x10 => decodeVCmp w
    | 0x11 => decodeVPerm w
    | 0x12 => decodeVConv w
    | 0x13 => decodeVLoad w
    | 0x14 => decodeVStore w
    | 0x15 => decodeVSync w
    | 0x16 => decodeVCtl w
    | 0x17 => decodeStream w
    | 0x18 => decodeSpill w
    | 0x19 => decodeCopy w
    | 0x1A => decodeEngine w
    | _ => .error .unassigned

/-- The type field of a matrix instruction (R100): codes 14 and 15 are outside the limits. -/
def withMatrixType (w : Nat) (k : ElemTy → Instr) : Except DecodeError Instr :=
  match ElemTy.ofCode (fld w 18 4) with
  | some t => limit (k t)
  | none => .error .operand

/-- The operations of the matrix class (R101, R293); `w` holds word 0 in its low half and word 1 in its high half. -/
noncomputable def decodeMatrix (w : Nat) : Except DecodeError Instr :=
  match fld w 22 5 with
  | 0 => if fld w 2 20 + fld w 54 10 + fld w 32 15 ≠ 0 then .error .reservedField
    else limit (.mattach (bits w 47 7))
  | 1 => unless0 (fld w 2 20 + fld w 32 32) .mdetach
  | 2 => unless0 (fld w 2 20 + fld w 32 32) .mzero
  | 3 => if fld w 2 7 + fld w 32 15 ≠ 0 then .error .reservedField
    else withMatrixType w fun t =>
      .vmma t (bits w 12 6) (reg w 59) (reg w 54) (bits w 47 7) (bits w 9 3)
  | 4 => if fld w 2 7 + fld w 32 9 ≠ 0 then .error .reservedField
    else if fld w 18 4 ≠ 13 then .error .operand
    else limit (.vmmas (bits w 12 6) (reg w 59) (reg w 54) (bits w 47 7) (bits w 44 3) (bits w 41 3) (bits w 9 3))
  | 5 => if fld w 2 7 + fld w 32 27 ≠ 0 then .error .reservedField
    else withMatrixType w fun t => .mext (reg w 59) (bits w 12 6) t (bits w 9 3)
  | 6 => if fld w 2 7 + fld w 32 27 ≠ 0 then .error .reservedField
    else withMatrixType w fun t => .mins (bits w 12 6) (reg w 59) t (bits w 9 3)
  | _ => .error .unassigned

/-- A prefixed instruction (R100). -/
noncomputable def decode64 (w : Nat) : Except DecodeError Instr :=
  if fld w 0 32 = 0xFFFFFFFF then .error .onesWord
  else if fld w 27 5 ≠ 0 then .error .prefixClass
  else decodeMatrix w

/-- A compressed form: reserved bits and d = 0 raise cause 15 like an unassigned form (R102). -/
def compressedIf (ok : Bool) (i : Instr) : Except DecodeError Instr :=
  if ok && wellFormed i then .ok i else .error .compressed

/-- Major 7 of the compressed map: jumps and the short system forms (R102). -/
noncomputable def decodeCompressed7 (w : Nat) : Except DecodeError Instr :=
  match fld w 10 3 with
  | 0 => .ok (.cJ (bits w 1 9))
  | 1 => compressedIf (fld w 1 4 == 0) (.cJr (reg w 5))
  | 2 => compressedIf (fld w 1 9 == 0) .cExit
  | 3 => compressedIf (fld w 1 9 == 0) .cVlend
  | 4 => compressedIf (fld w 1 9 == 0) .cSafept
  | 5 => compressedIf (fld w 1 9 == 0) .cYield
  | _ => .error .compressed

/-- A compressed instruction (R102). -/
noncomputable def decode16 (w : Nat) : Except DecodeError Instr :=
  if w = 0 then .error .zeroHalfword
  else match fld w 13 3 with
    | 0 => compressedIf true (.cAddi (reg w 8) (bits w 1 7))
    | 1 => compressedIf true (.cLi (reg w 8) (bits w 1 7))
    | 2 =>
      match fld w 1 2 with
      | 0 => compressedIf true (.cMv (reg w 8) (reg w 3))
      | 1 => compressedIf true (.cAdd (reg w 8) (reg w 3))
      | 2 => compressedIf true (.cSub (reg w 8) (reg w 3))
      | _ => compressedIf true (.cAnd (reg w 8) (reg w 3))
    | 3 => .ok (.cLdd (bits w 10 3) (bits w 7 3) (bits w 1 6))
    | 4 => .ok (.cStd (bits w 10 3) (bits w 7 3) (bits w 1 6))
    | 5 => .ok (.cLdw (bits w 10 3) (bits w 7 3) (bits w 1 6))
    | 6 => if fld w 9 1 = 0 then .ok (.cBeqz (bits w 10 3) (bits w 1 8)) else .ok (.cBnez (bits w 10 3) (bits w 1 8))
    | _ => decodeCompressed7 w

/-- The length in bits that the first halfword gives (R83). -/
def lengthBits (first : Nat) : Nat :=
  if first % 2 = 0 then 16 else if first % 4 = 1 then 32 else 64

/-- Decode the word of an instruction whose length is `nbits`. -/
noncomputable def decodeWord (nbits w : Nat) : Except DecodeError Instr :=
  if nbits = 16 then decode16 w else if nbits = 32 then decode32 w else decode64 w

/-- The little-endian number that a list of bytes stands for. -/
def leNat : List Byte → Nat
  | [] => 0
  | b :: bs => b.toNat + 256 * leNat bs

/-- The `n` bytes of a number, least significant first. -/
def leBytes : Nat → Nat → List Byte
  | 0, _ => []
  | n + 1, w => BitVec.ofNat 8 w :: leBytes n (w / 256)

/-- Decode the instruction at the head of a list of bytes, in the order in which memory holds them (R83). -/
noncomputable def decode (bs : List Byte) : Except DecodeError (Instr × List Byte) :=
  match bs with
  | b0 :: b1 :: _ =>
    let n := lengthBits (leNat [b0, b1]) / 8
    if bs.length < n then .error .truncated
    else match decodeWord (8 * n) (leNat (bs.take n)) with
      | .ok i => .ok (i, bs.drop n)
      | .error e => .error e
  | _ => .error .truncated

/-- The instruction the decoder reads from a word of `nbits` bits; a longer instruction's further bits are zero. -/
noncomputable def decodeTableWord (nbits w : Nat) : Option Instr :=
  let bs := leBytes (nbits / 8) w ++ List.replicate (8 - nbits / 8) 0
  match decode bs with
  | .ok (i, _) => some i
  | .error _ => none

/-- The trap cause of a pattern that is not an instruction (R86). -/
def DecodeError.cause : DecodeError → Nat
  | .zeroHalfword | .onesWord | .unassigned | .operand | .truncated => 1
  | .reservedField => 2
  | .prefixClass => 14
  | .compressed => 15

/-- Layout R (R87): d, a, b, m and fn7. -/
def layR (major d a b m fn : Nat) : Nat :=
  major * 2 ^ 27 + d * 2 ^ 22 + a * 2 ^ 17 + b * 2 ^ 12 + m * 2 ^ 9 + fn * 2 ^ 2 + 1

/-- Layout V (R87): as layout R with fn7 split into opf and op. -/
def layV (major d a b m opf op : Nat) : Nat :=
  major * 2 ^ 27 + d * 2 ^ 22 + a * 2 ^ 17 + b * 2 ^ 12 + m * 2 ^ 9 + opf * 2 ^ 7 + op * 2 ^ 2 + 1

/-- Vector loads and stores (R95): fn7 split into kind, nf and mw. -/
def layVM (major d a b m kind nf mw : Nat) : Nat :=
  major * 2 ^ 27 + d * 2 ^ 22 + a * 2 ^ 17 + b * 2 ^ 12 + m * 2 ^ 9 + kind * 2 ^ 7 + nf * 2 ^ 4 + mw * 2 ^ 2 + 1

/-- Layouts I, S and B (R87): two registers, fn3 and twelve bits. -/
def layI (major d a fn imm : Nat) : Nat :=
  major * 2 ^ 27 + d * 2 ^ 22 + a * 2 ^ 17 + fn * 2 ^ 14 + imm * 2 ^ 2 + 1

/-- Layouts U and J (R87): one register and twenty bits. -/
def layU (major d imm : Nat) : Nat :=
  major * 2 ^ 27 + d * 2 ^ 22 + imm * 2 ^ 2 + 1

/-- Layout A (R87, R90): the scalar atomics. -/
def layA (d a b op sz aq rl : Nat) : Nat :=
  10 * 2 ^ 27 + d * 2 ^ 22 + a * 2 ^ 17 + 7 * 2 ^ 14 + b * 2 ^ 9 + op * 2 ^ 5 + sz * 2 ^ 4 + aq * 2 ^ 3 + rl * 2 ^ 2 + 1

/-- Layout C0 (R87, R93). -/
def layC0 (d e c vt : Nat) : Nat :=
  13 * 2 ^ 27 + d * 2 ^ 22 + e * 2 ^ 18 + c * 2 ^ 12 + vt * 2 ^ 2 + 1

/-- Layout C1 (R87, R93). -/
def layC1 (d a b fn : Nat) : Nat :=
  13 * 2 ^ 27 + d * 2 ^ 22 + 1 * 2 ^ 21 + a * 2 ^ 16 + b * 2 ^ 11 + fn * 2 ^ 2 + 1

/-- The matrix class (R100): word 0 in the low half, word 1 in the high half. -/
def layM (op ty acc m v vb rows ka kb : Nat) : Nat :=
  op * 2 ^ 22 + ty * 2 ^ 18 + acc * 2 ^ 12 + m * 2 ^ 9 + 3 +
    (v * 2 ^ 27 + vb * 2 ^ 22 + rows * 2 ^ 15 + ka * 2 ^ 12 + kb * 2 ^ 9) * 2 ^ 32

/-- The compressed forms with a five-bit register and seven bits (R102). -/
def layC8 (major d imm : Nat) : Nat := major * 2 ^ 13 + d * 2 ^ 8 + imm * 2

/-- The compressed register forms (R102). -/
def layCR (d a fn : Nat) : Nat := 2 * 2 ^ 13 + d * 2 ^ 8 + a * 2 ^ 3 + fn * 2

/-- The compressed loads and stores (R102). -/
def layC3 (major d a off : Nat) : Nat := major * 2 ^ 13 + d * 2 ^ 10 + a * 2 ^ 7 + off * 2

/-- The compressed branches (R102). -/
def layCB (a fn off : Nat) : Nat := 6 * 2 ^ 13 + a * 2 ^ 10 + fn * 2 ^ 9 + off * 2

/-- Major 7 of the compressed map (R102). -/
def layC7 (sub rest : Nat) : Nat := 7 * 2 ^ 13 + sub * 2 ^ 10 + rest * 2

/-- The length in bits of an instruction's encoding; 0 for an event, which has none. -/
def encodedBits : Instr → Nat
  | .mattach _ => 64
  | .mdetach => 64
  | .mzero => 64
  | .vmma _ _ _ _ _ _ => 64
  | .vmmas _ _ _ _ _ _ _ => 64
  | .mext _ _ _ _ => 64
  | .mins _ _ _ _ => 64
  | .cAddi _ _ => 16
  | .cLi _ _ => 16
  | .cMv _ _ => 16
  | .cAdd _ _ => 16
  | .cSub _ _ => 16
  | .cAnd _ _ => 16
  | .cLdd _ _ _ => 16
  | .cStd _ _ _ => 16
  | .cLdw _ _ _ => 16
  | .cBeqz _ _ => 16
  | .cBnez _ _ => 16
  | .cJ _ => 16
  | .cJr _ => 16
  | .cExit => 16
  | .cVlend => 16
  | .cSafept => 16
  | .cYield => 16
  | .waitwWake _ => 0
  | .ecallReply _ => 0
  | .exitComplete _ => 0
  | .mvreqComplete _ => 0
  | .vwaitWake _ => 0
  | .vwaitTimeout _ => 0
  | .awmergeApply _ => 0
  | .chunkDelivery _ => 0
  | .cpwaitComplete _ => 0
  | .copyChunk _ => 0
  | .swpoutComplete _ => 0
  | .swpinBlockLanded _ => 0
  | .swpinComplete _ => 0
  | .xferLayer _ => 0
  | .xferComplete _ => 0
  | .illegalEncoding _ _ => 0
  | .issueBeat _ => 0
  | .laneShiftRepair _ _ _ _ => 0
  | .frameBoundary _ => 0
  | .accessPerform _ _ => 0
  | .replyWrite _ _ => 0
  | .coldTierStoreError _ _ => 0
  | .watermarkTimeout _ _ => 0
  | .trapEntry _ => 0
  | .launchStart _ _ => 0
  | .ringFetch _ _ => 0
  | .notifyWrite _ _ _ => 0
  | .hostInterrupt _ _ => 0
  | .hostApertureAccess _ _ _ => 0
  | .dlaunch _ => 0
  | .peerAccess _ _ _ _ _ => 0
  | .sliceEnd _ => 0
  | .contextSave _ => 0
  | .restore _ _ _ => 0
  | .slotbaseWrite _ => 0
  | .harnessWrite _ _ => 0
  | .beatmapWrite _ _ => 0
  | .rowrangeWrite _ _ => 0
  | .partWrite _ _ => 0
  | .selvedgeWrite _ _ _ => 0
  | .notifybmWrite _ => 0
  | .wmCsrWrite _ _ => 0
  | .cpbCsrWrite _ _ => 0
  | .loopRegisterWrite _ _ => 0
  | .stripWrite _ => 0
  | .vlCsrWrite _ => 0
  | .vstartWrite _ => 0
  | .registerWrite _ _ => 0
  | .timerExpire _ => 0
  | .uncorrectableError _ => 0
  | .securityAlarm _ => 0
  | .quarantineRelease _ => 0
  | .vaultControlWrite _ _ => 0
  | .linkLaneFailure _ _ => 0
  | .coldTierExpanderError _ => 0
  | .thermalNotice _ => 0
  | .stackShutdown _ => 0
  | .powerNotice => 0
  | .bringUp => 0
  | .firmwareSwitch => 0
  | .certificateChain => 0
  | .version _ => 0
  | .loadImage _ => 0
  | .unloadImage _ => 0
  | .allocateWatermark _ => 0
  | .freeWatermark _ => 0
  | .setSessionDirectory _ => 0
  | .readEventBlock _ => 0
  | .writeEventBlock _ => 0
  | .terminate _ => 0
  | .attestationQuote _ => 0
  | .peerWatermarkPublication _ _ _ _ _ => 0
  | .vaultRetirement _ => 0
  | _ => 32

/-- The word of an instruction, written from the layouts of chapter 6; 0 for an event. -/
def encode : Instr → Nat
  | .addi d a imm => layI 2 d.toNat a.toNat 0 imm.toNat
  | .andi d a imm => layI 2 d.toNat a.toNat 1 imm.toNat
  | .ori d a imm => layI 2 d.toNat a.toNat 2 imm.toNat
  | .xori d a imm => layI 2 d.toNat a.toNat 3 imm.toNat
  | .slli d a sh => layI 2 d.toNat a.toNat 4 sh.toNat
  | .srli d a sh => layI 2 d.toNat a.toNat 5 sh.toNat
  | .srai d a sh => layI 2 d.toNat a.toNat 5 (2 ^ 10 + sh.toNat)
  | .slti d a imm => layI 2 d.toNat a.toNat 6 imm.toNat
  | .sltni d a imm => layI 2 d.toNat a.toNat 7 imm.toNat
  | .add d a b => layR 3 d.toNat a.toNat b.toNat 0 0
  | .sub d a b => layR 3 d.toNat a.toNat b.toNat 0 1
  | .and d a b => layR 3 d.toNat a.toNat b.toNat 0 2
  | .or d a b => layR 3 d.toNat a.toNat b.toNat 0 3
  | .xor d a b => layR 3 d.toNat a.toNat b.toNat 0 4
  | .sll d a b => layR 3 d.toNat a.toNat b.toNat 0 5
  | .srl d a b => layR 3 d.toNat a.toNat b.toNat 0 6
  | .sra d a b => layR 3 d.toNat a.toNat b.toNat 0 7
  | .slt d a b => layR 3 d.toNat a.toNat b.toNat 0 8
  | .sltn d a b => layR 3 d.toNat a.toNat b.toNat 0 9
  | .mul d a b => layR 3 d.toNat a.toNat b.toNat 0 10
  | .mulh d a b => layR 3 d.toNat a.toNat b.toNat 0 11
  | .mulhn d a b => layR 3 d.toNat a.toNat b.toNat 0 12
  | .div d a b => layR 3 d.toNat a.toNat b.toNat 0 13
  | .divn d a b => layR 3 d.toNat a.toNat b.toNat 0 14
  | .rem d a b => layR 3 d.toNat a.toNat b.toNat 0 15
  | .remn d a b => layR 3 d.toNat a.toNat b.toNat 0 16
  | .min d a b => layR 3 d.toNat a.toNat b.toNat 0 17
  | .max d a b => layR 3 d.toNat a.toNat b.toNat 0 18
  | .minn d a b => layR 3 d.toNat a.toNat b.toNat 0 19
  | .maxn d a b => layR 3 d.toNat a.toNat b.toNat 0 20
  | .ldb d a imm => layI 4 d.toNat a.toNat 0 imm.toNat
  | .ldh d a imm => layI 4 d.toNat a.toNat 1 imm.toNat
  | .ldw d a imm => layI 4 d.toNat a.toNat 2 imm.toNat
  | .ldd d a imm => layI 4 d.toNat a.toNat 3 imm.toNat
  | .ldbn d a imm => layI 4 d.toNat a.toNat 4 imm.toNat
  | .ldhn d a imm => layI 4 d.toNat a.toNat 5 imm.toNat
  | .ldwn d a imm => layI 4 d.toNat a.toNat 6 imm.toNat
  | .stb b a imm => layI 5 b.toNat a.toNat 0 imm.toNat
  | .sth b a imm => layI 5 b.toNat a.toNat 1 imm.toNat
  | .stw b a imm => layI 5 b.toNat a.toNat 2 imm.toNat
  | .std b a imm => layI 5 b.toNat a.toNat 3 imm.toNat
  | .stbRel b a imm => layI 5 b.toNat a.toNat 4 imm.toNat
  | .sthRel b a imm => layI 5 b.toNat a.toNat 5 imm.toNat
  | .stwRel b a imm => layI 5 b.toNat a.toNat 6 imm.toNat
  | .stdRel b a imm => layI 5 b.toNat a.toNat 7 imm.toNat
  | .beq a b off => layI 6 a.toNat b.toNat 0 off.toNat
  | .bne a b off => layI 6 a.toNat b.toNat 1 off.toNat
  | .blt a b off => layI 6 a.toNat b.toNat 2 off.toNat
  | .bge a b off => layI 6 a.toNat b.toNat 3 off.toNat
  | .bltn a b off => layI 6 a.toNat b.toNat 4 off.toNat
  | .bgen a b off => layI 6 a.toNat b.toNat 5 off.toNat
  | .lhi d imm => layU 0 d.toNat imm.toNat
  | .aupc d imm => layU 1 d.toNat imm.toNat
  | .jal d off => layU 7 d.toNat off.toNat
  | .jalr d a imm => layI 8 d.toNat a.toNat 0 imm.toNat
  | .fadd d a b => layR 9 d.toNat a.toNat b.toNat 0 0
  | .fsub d a b => layR 9 d.toNat a.toNat b.toNat 0 1
  | .fmul d a b => layR 9 d.toNat a.toNat b.toNat 0 2
  | .fdiv d a b => layR 9 d.toNat a.toNat b.toNat 0 3
  | .fsqrt d a => layR 9 d.toNat a.toNat 0 0 4
  | .fmin d a b => layR 9 d.toNat a.toNat b.toNat 0 5
  | .fmax d a b => layR 9 d.toNat a.toNat b.toNat 0 6
  | .feq d a b => layR 9 d.toNat a.toNat b.toNat 0 7
  | .flt d a b => layR 9 d.toNat a.toNat b.toNat 0 8
  | .fle d a b => layR 9 d.toNat a.toNat b.toNat 0 9
  | .fclass d a => layR 9 d.toNat a.toNat 0 0 10
  | .fmadd d a b => layR 9 d.toNat a.toNat b.toNat 0 11
  | .fcvtF32I32 d a => layR 9 d.toNat a.toNat 0 0 16
  | .fcvtF32N32 d a => layR 9 d.toNat a.toNat 0 0 17
  | .fcvtF32I64 d a => layR 9 d.toNat a.toNat 0 0 18
  | .fcvtF32N64 d a => layR 9 d.toNat a.toNat 0 0 19
  | .fcvtI32F32 d a => layR 9 d.toNat a.toNat 0 0 20
  | .fcvtN32F32 d a => layR 9 d.toNat a.toNat 0 0 21
  | .fcvtI64F32 d a => layR 9 d.toNat a.toNat 0 0 22
  | .fcvtN64F32 d a => layR 9 d.toNat a.toNat 0 0 23
  | .ldbAcq d a imm => layI 10 d.toNat a.toNat 0 imm.toNat
  | .ldhAcq d a imm => layI 10 d.toNat a.toNat 1 imm.toNat
  | .ldwAcq d a imm => layI 10 d.toNat a.toNat 2 imm.toNat
  | .lddAcq d a imm => layI 10 d.toNat a.toNat 3 imm.toNat
  | .ldbnAcq d a imm => layI 10 d.toNat a.toNat 4 imm.toNat
  | .ldhnAcq d a imm => layI 10 d.toNat a.toNat 5 imm.toNat
  | .ldwnAcq d a imm => layI 10 d.toNat a.toNat 6 imm.toNat
  | .amoadd sz aq rl d b a => layA d.toNat a.toNat b.toNat 0 sz.code aq.toNat rl.toNat
  | .amoswap sz aq rl d b a => layA d.toNat a.toNat b.toNat 1 sz.code aq.toNat rl.toNat
  | .amocas sz aq rl d b a => layA d.toNat a.toNat b.toNat 2 sz.code aq.toNat rl.toNat
  | .amomin sz aq rl d b a => layA d.toNat a.toNat b.toNat 3 sz.code aq.toNat rl.toNat
  | .amomax sz aq rl d b a => layA d.toNat a.toNat b.toNat 4 sz.code aq.toNat rl.toNat
  | .amoand sz aq rl d b a => layA d.toNat a.toNat b.toNat 5 sz.code aq.toNat rl.toNat
  | .amoor sz aq rl d b a => layA d.toNat a.toNat b.toNat 6 sz.code aq.toNat rl.toNat
  | .amoxor sz aq rl d b a => layA d.toNat a.toNat b.toNat 7 sz.code aq.toNat rl.toNat
  | .waitw sz aq d b a => layA d.toNat a.toNat b.toNat 8 sz.code aq.toNat 0
  | .ecall => layI 11 0 0 0 0
  | .trap => layI 11 0 0 0 1
  | .eret => layI 11 0 0 0 2
  | .exit => layI 11 0 0 0 3
  | .yield => layI 11 0 0 0 4
  | .flushi => layI 11 0 0 0 5
  | .csrrd d c => layI 11 d.toNat 0 1 c.toNat
  | .csrwr c a => layI 11 0 a.toNat 2 c.toNat
  | .csrset c a => layI 11 0 a.toNat 3 c.toNat
  | .csrclr c a => layI 11 0 a.toNat 4 c.toNat
  | .fenceSv s => layI 11 0 0 5 (s.code * 2 ^ 2 + 0)
  | .fenceVs s => layI 11 0 0 5 (s.code * 2 ^ 2 + 1)
  | .fenceVv s => layI 11 0 0 5 (s.code * 2 ^ 2 + 2)
  | .fenceAll s => layI 11 0 0 5 (s.code * 2 ^ 2 + 3)
  | .lslot d n => layI 12 d.toNat 0 0 n.toNat
  | .mvreq d a n => layI 12 d.toNat a.toNat 1 n.toNat
  | .mvcommit d a n => layI 12 d.toNat a.toNat 2 n.toNat
  | .ltag d a => layI 12 d.toNat a.toNat 3 0
  | .lclr d => layI 12 d.toNat 0 3 1
  | .ljoin d a => layI 12 d.toNat a.toNat 3 2
  | .safept => layI 12 0 0 3 3
  | .vlclr d => layI 12 d.toNat 0 3 4
  | .vsetvli d e c t => layC0 d.toNat e.toNat c.toNat t.toNat
  | .vsetvl d a b => layC1 d.toNat a.toNat b.toNat 0
  | .vwin d a b => layC1 d.toNat a.toNat b.toNat 1
  | .vadd d a b m => layV 14 d.toNat a.toNat b.field m.toNat b.opf 0
  | .vsub d a b m => layV 14 d.toNat a.toNat b.field m.toNat b.opf 1
  | .vmul d a b m => layV 14 d.toNat a.toNat b.field m.toNat b.opf 2
  | .vmulh d a b m => layV 14 d.toNat a.toNat b.field m.toNat b.opf 3
  | .vand d a b m => layV 14 d.toNat a.toNat b.field m.toNat b.opf 4
  | .vor d a b m => layV 14 d.toNat a.toNat b.field m.toNat b.opf 5
  | .vxor d a b m => layV 14 d.toNat a.toNat b.field m.toNat b.opf 6
  | .vsll d a b m => layV 14 d.toNat a.toNat b.field m.toNat b.opf 7
  | .vsrl d a b m => layV 14 d.toNat a.toNat b.field m.toNat b.opf 8
  | .vsra d a b m => layV 14 d.toNat a.toNat b.field m.toNat b.opf 9
  | .vmin d a b m => layV 14 d.toNat a.toNat b.field m.toNat b.opf 10
  | .vmax d a b m => layV 14 d.toNat a.toNat b.field m.toNat b.opf 11
  | .vminn d a b m => layV 14 d.toNat a.toNat b.field m.toNat b.opf 12
  | .vmaxn d a b m => layV 14 d.toNat a.toNat b.field m.toNat b.opf 13
  | .vsadd d a b m => layV 14 d.toNat a.toNat b.field m.toNat b.opf 14
  | .vssub d a b m => layV 14 d.toNat a.toNat b.field m.toNat b.opf 15
  | .vfadd d a b m => layV 15 d.toNat a.toNat b.field m.toNat b.opf 0
  | .vfsub d a b m => layV 15 d.toNat a.toNat b.field m.toNat b.opf 1
  | .vfmul d a b m => layV 15 d.toNat a.toNat b.field m.toNat b.opf 2
  | .vfmadd d a b m => layV 15 d.toNat a.toNat b.field m.toNat b.opf 3
  | .vfnmsub d a b m => layV 15 d.toNat a.toNat b.field m.toNat b.opf 4
  | .vfdiv d a b m => layV 15 d.toNat a.toNat b.field m.toNat b.opf 5
  | .vfsqrt d a m => layV 15 d.toNat a.toNat 0 m.toNat 0 6
  | .vfmin d a b m => layV 15 d.toNat a.toNat b.field m.toNat b.opf 7
  | .vfmax d a b m => layV 15 d.toNat a.toNat b.field m.toNat b.opf 8
  | .vfrecip d a m => layV 15 d.toNat a.toNat 0 m.toNat 0 9
  | .vfrsqrt d a m => layV 15 d.toNat a.toNat 0 m.toNat 0 10
  | .vfscale d a b m => layV 15 d.toNat a.toNat b.field m.toNat b.opf 11
  | .vfround d a m => layV 15 d.toNat a.toNat 0 m.toNat 0 12
  | .vfsgnj d a b m => layV 15 d.toNat a.toNat b.field m.toNat b.opf 13
  | .vcmpEq d a b m => layV 16 d.toNat a.toNat b.field m.toNat b.opf 0
  | .vcmpNe d a b m => layV 16 d.toNat a.toNat b.field m.toNat b.opf 1
  | .vcmpLt d a b m => layV 16 d.toNat a.toNat b.field m.toNat b.opf 2
  | .vcmpLe d a b m => layV 16 d.toNat a.toNat b.field m.toNat b.opf 3
  | .vcmpGt d a b m => layV 16 d.toNat a.toNat b.field m.toNat b.opf 4
  | .vcmpGe d a b m => layV 16 d.toNat a.toNat b.field m.toNat b.opf 5
  | .vcmpLtn d a b m => layV 16 d.toNat a.toNat b.field m.toNat b.opf 6
  | .vcmpLen d a b m => layV 16 d.toNat a.toNat b.field m.toNat b.opf 7
  | .vcmpGtn d a b m => layV 16 d.toNat a.toNat b.field m.toNat b.opf 8
  | .vcmpGen d a b m => layV 16 d.toNat a.toNat b.field m.toNat b.opf 9
  | .vfcmpEq d a b m => layV 16 d.toNat a.toNat b.field m.toNat b.opf 12
  | .vfcmpNe d a b m => layV 16 d.toNat a.toNat b.field m.toNat b.opf 13
  | .vfcmpLt d a b m => layV 16 d.toNat a.toNat b.field m.toNat b.opf 14
  | .vfcmpLe d a b m => layV 16 d.toNat a.toNat b.field m.toNat b.opf 15
  | .vfcmpGt d a b m => layV 16 d.toNat a.toNat b.field m.toNat b.opf 16
  | .vfcmpGe d a b m => layV 16 d.toNat a.toNat b.field m.toNat b.opf 17
  | .mand d a b => layV 16 d.toNat a.toNat b.toNat 0 0 23
  | .mor d a b => layV 16 d.toNat a.toNat b.toNat 0 0 24
  | .mxor d a b => layV 16 d.toNat a.toNat b.toNat 0 0 25
  | .mandn d a b => layV 16 d.toNat a.toNat b.toNat 0 0 26
  | .mnot d a => layV 16 d.toNat a.toNat 0 0 0 27
  | .mpop d a => layV 16 d.toNat a.toNat 0 0 0 28
  | .mfirst d a => layV 16 d.toNat a.toNat 0 0 0 29
  | .mset d => layV 16 d.toNat 0 0 0 0 30
  | .mmv d a => layV 16 d.toNat a.toNat 0 0 0 31
  | .vslideup d a b m => layV 17 d.toNat a.toNat b.field m.toNat b.opf 0
  | .vslidedn d a b m => layV 17 d.toNat a.toNat b.field m.toNat b.opf 1
  | .vgather d a b m => layV 17 d.toNat a.toNat b.toNat m.toNat 0 2
  | .vcompress d a m => layV 17 d.toNat a.toNat 0 m.toNat 0 3
  | .vbcast d b m => layV 17 d.toNat 0 b.toNat m.toNat 1 4
  | .vid d m => layV 17 d.toNat 0 0 m.toNat 0 5
  | .vmerge d a b m => layV 17 d.toNat a.toNat b.field m.toNat b.opf 6
  | .vmv d a m => layV 17 d.toNat a.toNat 0 m.toNat 0 7
  | .vmvsx d b => layV 17 d.toNat 0 b.toNat 0 1 8
  | .vmvxs d a => layV 17 d.toNat a.toNat 0 0 0 9
  | .vext d a b => layV 17 d.toNat a.toNat b.field 0 b.opf 10
  | .vcvt d a s m => layV 18 d.toNat a.toNat s.toNat m.toNat 0 0
  | .vcvti d a s m => layV 18 d.toNat a.toNat s.toNat m.toNat 0 1
  | .vquant d a k m => layV 18 d.toNat a.toNat k.toNat m.toNat 0 2
  | .vredsum d a b m => layV 18 d.toNat a.toNat b.toNat m.toNat 1 8
  | .vredmax d a b m => layV 18 d.toNat a.toNat b.toNat m.toNat 1 9
  | .vredmin d a b m => layV 18 d.toNat a.toNat b.toNat m.toNat 1 10
  | .vfredsum d a b m => layV 18 d.toNat a.toNat b.toNat m.toNat 1 11
  | .vfredosum d a b m => layV 18 d.toNat a.toNat b.toNat m.toNat 1 12
  | .vfredmax d a b m => layV 18 d.toNat a.toNat b.toNat m.toNat 1 13
  | .vld d a m w => layVM 19 d.toNat a.toNat 0 m.toNat 0 0 w.code
  | .vlds d a b m w => layVM 19 d.toNat a.toNat b.toNat m.toNat 1 0 w.code
  | .vldx d a b m w => layVM 19 d.toNat a.toNat b.toNat m.toNat 2 0 w.code
  | .vlseg d a nf m w => layVM 19 d.toNat a.toNat 0 m.toNat 3 nf.toNat w.code
  | .vst d a m w => layVM 20 d.toNat a.toNat 0 m.toNat 0 0 w.code
  | .vsts d a b m w => layVM 20 d.toNat a.toNat b.toNat m.toNat 1 0 w.code
  | .vstx d a b m w => layVM 20 d.toNat a.toNat b.toNat m.toNat 2 0 w.code
  | .vsseg d a nf m w => layVM 20 d.toNat a.toNat 0 m.toNat 3 nf.toNat w.code
  | .vamoAdd d a b m => layR 21 d.toNat a.toNat b.toNat m.toNat 0
  | .vamoSwap d a b m => layR 21 d.toNat a.toNat b.toNat m.toNat 1
  | .vamoMin d a b m => layR 21 d.toNat a.toNat b.toNat m.toNat 3
  | .vamoMax d a b m => layR 21 d.toNat a.toNat b.toNat m.toNat 4
  | .vamoAnd d a b m => layR 21 d.toNat a.toNat b.toNat m.toNat 5
  | .vamoOr d a b m => layR 21 d.toNat a.toNat b.toNat m.toNat 6
  | .vamoXor d a b m => layR 21 d.toNat a.toNat b.toNat m.toNat 7
  | .vwait a b => layR 21 0 a.toNat b.toNat 0 8
  | .vsred d a m => layR 21 d.toNat a.toNat 0 m.toNat 9
  | .awdecl a b => layR 21 0 a.toNat b.toNat 0 10
  | .awmerge a => layR 21 0 a.toNat 0 0 11
  | .wmpub n b => layR 21 n.toNat 0 b.toNat 0 12
  | .wmset n a => layR 21 n.toNat a.toNat 0 0 13
  | .wmclr n => layR 21 n.toNat 0 0 0 14
  | .gbar => layR 21 0 0 0 0 15
  | .gjoin d a => layR 21 d.toNat a.toNat 0 0 16
  | .gleave => layR 21 0 0 0 0 17
  | .bany a off => layI 22 a.toNat 0 3 off.toNat
  | .ball a off => layI 22 a.toNat 0 4 off.toNat
  | .bnone a off => layI 22 a.toNat 0 5 off.toNat
  | .vregion a off => layI 22 a.toNat 0 0 off.toNat
  | .vloop a off => layI 22 a.toNat 0 1 off.toNat
  | .vloopP a off => layI 22 a.toNat 0 2 off.toNat
  | .bsend a off => layI 22 a.toNat 0 6 off.toNat
  | .vlend => layI 22 0 0 7 0
  | .vrend => layI 22 0 0 7 1
  | .vsbind d a => layR 23 d.toNat a.toNat 0 0 0
  | .vsunbind d => layR 23 d.toNat 0 0 0 1
  | .vspill d a => layI 24 d.toNat a.toNat 0 0
  | .vfill d a => layI 24 d.toNat a.toNat 1 0
  | .gspill d a imm => layI 24 d.toNat a.toNat 2 imm.toNat
  | .gfill d a imm => layI 24 d.toNat a.toNat 3 imm.toNat
  | .cpy d a b m => layR 25 d.toNat a.toNat b.toNat m.toNat 0
  | .cpyx a m => layR 25 0 a.toNat 0 m.toNat 1
  | .cpb m b => layR 25 0 0 b.toNat m.toNat 2
  | .cpwait m => layR 25 0 0 0 m.toNat 3
  | .swpout d a => layR 26 d.toNat a.toNat 0 0 0
  | .swpin d a => layR 26 d.toNat a.toNat 0 0 1
  | .xfer d a => layR 26 d.toNat a.toNat 0 0 2
  | .launch d a => layR 26 d.toNat a.toNat 0 0 3
  | .launchNb d a => layR 26 d.toNat a.toNat 0 0 4
  | .mattach n => layM 0 0 0 0 0 0 n.toNat 0 0
  | .mdetach => layM 1 0 0 0 0 0 0 0 0
  | .mzero => layM 2 0 0 0 0 0 0 0 0
  | .vmma t c a b n m => layM 3 t.code c.toNat m.toNat a.toNat b.toNat n.toNat 0 0
  | .vmmas c a b n x y m => layM 4 13 c.toNat m.toNat a.toNat b.toNat n.toNat x.toNat y.toNat
  | .mext d c t m => layM 5 t.code c.toNat m.toNat d.toNat 0 0 0 0
  | .mins c a t m => layM 6 t.code c.toNat m.toNat a.toNat 0 0 0 0
  | .cAddi d imm => layC8 0 d.toNat imm.toNat
  | .cLi d imm => layC8 1 d.toNat imm.toNat
  | .cMv d a => layCR d.toNat a.toNat 0
  | .cAdd d a => layCR d.toNat a.toNat 1
  | .cSub d a => layCR d.toNat a.toNat 2
  | .cAnd d a => layCR d.toNat a.toNat 3
  | .cLdd d a off => layC3 3 d.toNat a.toNat off.toNat
  | .cStd d a off => layC3 4 d.toNat a.toNat off.toNat
  | .cLdw d a off => layC3 5 d.toNat a.toNat off.toNat
  | .cBeqz a off => layCB a.toNat 0 off.toNat
  | .cBnez a off => layCB a.toNat 1 off.toNat
  | .cJ off => layC7 0 off.toNat
  | .cJr a => layC7 1 (a.toNat * 2 ^ 4)
  | .cExit => layC7 2 0
  | .cVlend => layC7 3 0
  | .cSafept => layC7 4 0
  | .cYield => layC7 5 0
  | _ => 0

/-- The instruction's bits as a trap reports them (R86, R347). -/
def instrBits (i : Instr) : Word := BitVec.ofNat 64 (encode i)

/-- The bytes of an instruction as memory holds them. -/
def encodeBytes (i : Instr) : List Byte := leBytes (encodedBits i / 8) (encode i)

/-- The instruction has an encoding: it is no event. -/
def isEncoded (i : Instr) : Bool := encodedBits i != 0

end Sys2Proof
end

