-- ==== Sys2Proof/Machine/Bits.lean ====
section
/-!
DEFINITION. Bit fields of registers, sign extension and byte order: the helpers that every meaning uses.
-/

namespace Sys2Proof.Machine

/-- The number in bits `lo + n - 1` to `lo` of a bit vector. -/
def field {w : Nat} (x : BitVec w) (lo n : Nat) : Nat := x.toNat / 2 ^ lo % 2 ^ n

/-- One bit of a bit vector as a truth value. -/
def bit {w : Nat} (x : BitVec w) (i : Nat) : Bool := x.getLsbD i

/-- The 64-bit value with the low `n` bits of `x` sign-extended. -/
def sextNat (n x : Nat) : Word :=
  if x / 2 ^ (n - 1) % 2 = 1 then BitVec.ofNat 64 (x % 2 ^ n + (2 ^ 64 - 2 ^ n)) else BitVec.ofNat 64 (x % 2 ^ n)

/-- A twelve-bit immediate, sign-extended (R87). -/
def sext12 (imm : BitVec 12) : Word := imm.signExtend 64

/-- The byte distance of a branch offset that counts halfwords (R87). -/
def halfwords {n : Nat} (off : BitVec n) : Word := off.signExtend 64 * 2

/-- A truth value as a register value. -/
def boolWord (b : Bool) : Word := if b then 1 else 0

/-- A boolean as a number. -/
def b2n (b : Bool) : Nat := if b then 1 else 0

/-- The two's complement reading of the low `n` bits of a number. -/
def toSigned (n x : Nat) : Int :=
  let y := x % 2 ^ n
  if y / 2 ^ (n - 1) % 2 = 1 ∧ n ≠ 0 then (y : Int) - 2 ^ n else y

/-- The low `n` bits of an integer. -/
def ofSigned (n : Nat) (x : Int) : Nat := (x % (2 ^ n : Nat)).toNat

/-- `a / b` rounded up; 0 when `b` is 0. -/
def ceilDiv (a b : Nat) : Nat := (a + b - 1) / b

/-- The bits of `x` at positions `lo` to `hi - 1`, in place. -/
def bitsBetween (x lo hi : Nat) : Nat := x % 2 ^ hi / 2 ^ lo * 2 ^ lo

/-- Insert into a sorted list of numbers without repeats. -/
def insertNat (a : Nat) : List Nat → List Nat
  | [] => [a]
  | k :: l => if a < k then a :: k :: l else if a = k then k :: l else k :: insertNat a l

end Sys2Proof.Machine
end

