-- ==== Sys2Proof/Machine/State.lean ====
section
/-!
DEFINITION. The state of the machine, as plain data, and the state after reset.

The machine is the whole module: its memories, its front ends with their harts, its partitions, gangs, engines and
services.  One hart is current (`State.hart`); the other resident contexts are in `State.others` and the pre-empted ones
in `State.saved`.  Everything is data that can be compared and printed: memories are sorted lists of cells, sparse tables
are sorted lists of keyed records, fixed register files are vectors.
-/

namespace Sys2Proof.Machine

/-- A byte memory: sorted by address, no address twice, no cell that holds what an unlisted address reads as (zero). -/
abbrev Mem := List Host.Cell

/-- A sparse table: sorted by key, no key twice. An unlisted key reads as the default of the table. -/
abbrev Tab (α : Type) := List (Nat × α)

/-! ### Registers and their metadata (chapter "Registers and per-register metadata") -/

/-- A lease set with its saturation bit S (R48). -/
structure LeaseSet where
  /-- one bit per lease ID 0 to 15 -/
  ids : BitVec 16 := 0
  /-- S: the register depends on a load whose ID has been reused -/
  sat : Bool := false
  deriving DecidableEq, Repr

/-- A general register with its metadata (R46, R48). -/
structure GReg where
  val : Word := 0
  /-- slot tag: 0 untagged, 1 to 254 a slot, 255 conflict -/
  tag : BitVec 8 := 0
  lease : LeaseSet := {}
  deriving DecidableEq, Repr

/-- A window of register-store rows: the fields of `vwb` and `vwl`, or of `kwb` and `kwl` (R50, R55). -/
structure Window where
  base : BitVec 11 := 0
  len : BitVec 12 := 0
  deriving DecidableEq, Repr

/-- A vector register: its window, its progress index `vpi` (R53) and its lease set (R52). -/
structure VReg where
  win : Window := {}
  busy : Bool := false
  groups : BitVec 12 := 0
  lease : LeaseSet := {}
  deriving DecidableEq, Repr

/-- A mask register: bit i of `bits` governs element i (R54). -/
structure MReg where
  bits : Nat := 0
  lease : LeaseSet := {}
  deriving DecidableEq, Repr

/-- A scale register (R55). -/
structure KReg where
  win : Window := {}
  lease : LeaseSet := {}
  deriving DecidableEq, Repr

/-- The control and status registers of a hart that hold plain values (R57 to R59, R346, R351), in the widths of their
non-reserved fields. -/
structure Csrs where
  vl : Word := 0
  vtype : BitVec 10 := 0
  vstart : Word := 0
  vrestart : Word := 0
  vxstat : BitVec 6 := 0
  rndstate : BitVec 32 := 1
  fstat : BitVec 8 := 0
  mretry : BitVec 4 := 3
  slotbase : Word := 0
  wm : Vector Word 16 := Vector.replicate 16 0
  cpb : Vector Word 8 := Vector.replicate 8 0
  status : BitVec 12 := 0
  tvec : Word := 0
  epc : Word := 0
  cause : Word := 0
  tval : Word := 0
  scratch : Word := 0
  scopepol : Bool := false
  deriving DecidableEq, Repr

/-! ### Loops, regions, streams (chapter "Density-time masks, regions, strip loops and streams") -/

/-- The loop registers of one loop (R253). -/
structure LoopRegs where
  lpstart : Word := 0
  lpend : Word := 0
  lpcount : Word := 0
  strip : Word := 0
  deriving DecidableEq, Repr

/-- The loop context of a hart or replica (R253 to R256). -/
structure Loops where
  cur : LoopRegs := {}
  /-- the registers of the enclosing loops, innermost first -/
  stack : List LoopRegs := []
  depth : Nat := 0
  zeroTrip : Bool := false
  /-- pending writes, applied at the next back-edge (R255) -/
  pendStart : Option Word := none
  pendEnd : Option Word := none
  pendCount : Option Word := none
  deriving DecidableEq, Repr

/-- An open region: its mask and whether its body is skipped (R249, R343). -/
structure Region where
  mask : Reg3
  skip : Bool
  deriving DecidableEq, Repr

/-- What a trap entry sets aside: the open regions with the loop depth (R251, R256), and the address of the trapped instruction
if it has its stream chunks already (R264: a delivered chunk stays delivered). -/
structure Aside where
  regions : List Region
  depth : Nat
  fed : Option Word
  deriving DecidableEq, Repr

/-- A stream binding (R259). -/
structure Stream where
  reg : Reg
  addr : Word
  tag : BitVec 8
  record : List Byte
  /-- chunks delivered -/
  pos : Nat
  lease : LeaseSet
  deriving DecidableEq, Repr

/-- A cause with its `tval`: a pending asynchronous cause of a partition (R352), or a synchronous one that is held (R77, R74). -/
structure Async where
  code : Nat
  tval : Word
  deriving DecidableEq, Repr

/-- How a queued instruction stands to those before it that write what it reads (R43): its chain slot is to come, it has used
it, or it has missed it. -/
inductive Chain where
  | coming | chained | missed
  deriving DecidableEq, Repr

/-- An entry of the decoupling queue (R22): where the instruction stands, the instruction, the general registers as dispatch
captured them, the groups that it has issued and that wait for its turn to commit (R42, R350), the number of the copy that
its dispatch has accepted (R315), and the time that a hart has been parked in a `vwait` since its dispatch, before `waitSince`
(R182). -/
structure QEntry where
  pc : Word
  instr : Instr
  regs : Vector GReg 32
  issued : Nat := 0
  chain : Chain := .coming
  copy : Option Nat := none
  waitNs : Nat := 0
  waitSince : Nat := 0
  deriving DecidableEq, Repr

/-- A scalar instruction that has run ahead and has not completed: where it stands, the instruction, where it went on, what it
wrote, the flags after it, and whether a move has been committed since (R78): then it completes with this result. -/
structure Ran where
  pc : Word
  instr : Instr
  next : Word
  dest : Option (Reg × GReg)
  fstat : BitVec 8
  moved : Bool := false
  deriving DecidableEq, Repr

/-- The scalar side where it has run on past queued instructions: provisional, dropped if one of them traps (R350); with the scalar
instructions that it has fetched and that have not completed, the first one first (R85). -/
structure Front where
  pc : Word
  regs : Vector GReg 32
  fstat : BitVec 8
  ran : List Ran := []
  deriving DecidableEq, Repr

/-- How far a loop context has got with the instruction at its program counter, and what it has dispatched behind it: the fields of
the same names of `Hart`, as a replica keeps them that is not running (R34, R35); `vstart` is the element at which an instruction
that is part-way done goes on. -/
structure Flight where
  current : Option (Word × Instr) := none
  issued : Nat := 0
  inProgress : Option (BitVec 4) := none
  fed : Bool := false
  fromZero : Bool := false
  headed : Bool := false
  probed : Option (Option (Nat × Async)) := none
  offsets : List (Nat × Bool) := []
  wrote : List (Nat × Nat) := []
  stalled : List (Nat × Nat) := []
  bound : Option (Vector Word 16) := none
  retry : Option (BitVec 4) := none
  waitNs : Nat := 0
  waitSince : Nat := 0
  heldFault : Option Async := none
  queue : List QEntry := []
  front : Option Front := none
  lastSlot : Nat := 0
  vstart : Word := 0
  deriving DecidableEq, Repr

/-- A replica of a parallel strip loop that is not the one running (R32). -/
structure Replica where
  slab : Nat
  pc : Word
  regs : Vector GReg 32
  loops : Loops
  /-- its own open regions -/
  regions : List Region
  /-- its own copy of `rndstate` (R215) -/
  rnd : BitVec 32
  /-- the instruction that it has part-way done -/
  flight : Flight := {}
  deriving DecidableEq, Repr

/-- A running parallel strip loop (R31 to R33, R257). The running replica's own state is in the hart's fields. -/
structure ParLoop where
  /-- the slab whose replica runs -/
  active : Nat
  /-- the loop depth inside it, and how many trap entries were open when it began -/
  depth : Nat
  asides : Nat
  /-- the loop's count n -/
  count : Nat
  /-- the other replicas, in the order in which they run next -/
  rest : List Replica
  /-- the replicas that have ended, kept for the end of the loop -/
  ended : List Replica
  deriving DecidableEq, Repr

/-- An open accumulation window (R189), with the number of its declaration; copy cells are keyed by slab × 65,536 +
offset. -/
structure AccWin where
  seq : Nat
  base : Nat
  size : Nat
  ty : ElemTy
  copies : Mem
  deriving DecidableEq, Repr

/-- What a parked hart waits for (R36, R179, R182, R325, R127, R183, R187, R124). -/
inductive Wait where
  | none
  | waitw (sz : AmoSz) (aq : Bool) (d b a : Reg)
  | vwait (a b : Reg)
  | cpwait (m : Reg3)
  | launch (d a : Reg)
  | gbar
  | vsred (vd va : Reg) (m : Reg3)
  | ecall
  deriving DecidableEq, Repr

/-- The states of a hart context (R36); `exiting` is a hart whose `exit` has begun (R126). A move stop is kept beside it. -/
inductive Phase where
  | free | launched | parked | preempted | exiting | exited
  deriving DecidableEq, Repr

/-- A store, or a byte of one, that has issued and has not yet performed (R136): the bytes it writes, the slot tags of its operands
(R77). -/
structure Posted where
  addr : Nat
  data : List Byte
  tags : List (BitVec 8)
  /-- the slab of the replica that issued it (R34) -/
  slab : Option Nat := none
  /-- it is an access of the vector agent -/
  vec : Bool := false
  /-- a fence has passed it that later vector accesses, respectively later scalar ones, wait behind (R123) -/
  beforeVector : Bool := false
  beforeScalar : Bool := false
  /-- the address of the store that it is a byte of: an error of the far side is reported once, with that address (R112) -/
  part : Option Nat := none
  deriving DecidableEq, Repr

/-- A scalar result that waits in a reply slot (R227). -/
structure Reply where
  d : Reg
  val : GReg
  deriving DecidableEq, Repr

/-- A `cpb` that has entered the decoupling queue (R323): later vector accesses wait while more than `limit` bytes of barrier
`bar` are left of the copies numbered up to `upTo`. -/
structure Gate where
  bar : Reg3
  limit : Nat
  upTo : Nat
  deriving DecidableEq, Repr

/-- A `fence.vs` or `fence.vv` that has been executed (R123): later scalar accesses, or later vector ones, wait for the copies, merges
and commands numbered up to `upTo`; of a replica, for its own (R34). -/
structure VecFence where
  scalar : Bool
  upTo : Nat
  slab : Option Nat
  deriving DecidableEq, Repr

/-! ### Harts, gangs, launches -/

/-- The context of a hart (R36, R48 to R62, R130, R343). -/
structure Hart where
  /-- the context's own number, unique among all contexts of the module -/
  cid : Nat := 0
  phase : Phase := .free
  wait : Wait := .none
  /-- a move stop is pending, respectively has been taken (R76) -/
  stopPending : Bool := false
  stopped : Bool := false
  /-- a pre-emption is due (R339) -/
  due : Bool := false
  /-- `hartid` (R28): stack, front end, hart of the slot it holds or last held -/
  slot : Nat := 0
  partId : Nat := 15
  /-- `gangid` (R28) -/
  gangStack : Nat := 0
  gang : Nat := 0
  member : Nat := 0
  /-- the gang whose retirement waits for this context (R185) -/
  homeGang : Nat := 0
  /-- slabs the hart sees, and its depth range as it was placed (R342) -/
  g : Nat := 1
  depth : Nat := 0
  pc : Word := 0
  regs : Vector GReg 32 := Vector.replicate 32 {}
  vregs : Vector VReg 32 := Vector.replicate 32 {}
  mregs : Vector MReg 8 := Vector.replicate 8 {}
  kregs : Vector KReg 8 := Vector.replicate 8 {}
  csr : Csrs := {}
  loops : Loops := {}
  regions : List Region := []
  aside : List Aside := []
  streams : List Stream := []
  par : Option ParLoop := none
  accWin : Option AccWin := none
  /-- the register-store rows: key row × 1,024 + slab × 256 + byte (R18) -/
  rows : Mem := []
  /-- poisoned 8-byte granules of the rows, by key div 8 (R355) -/
  rowPoison : List Nat := []
  /-- granted accumulator rows (R56), FP32 columns keyed (row × 512 + column) × 4, and their poisoned words -/
  grant : Nat := 0
  acc : Mem := []
  accPoison : List Nat := []
  accLease : LeaseSet := {}
  /-- the slot-generation cache (R49): valid entries only -/
  genCache : Tab (BitVec 32) := []
  /-- the next lease ID (R130) and the IDs whose loads have not performed (R59) -/
  leaseNext : BitVec 4 := 0
  leasePending : BitVec 16 := 0
  /-- the ID that the instruction at `pc` took before it stalled part-way (R168, R340) -/
  inProgress : Option (BitVec 4) := none
  /-- the instruction at `pc` has received its stream chunks and has not completed (R263, R264) -/
  fed : Bool := false
  /-- the instruction at `pc` is part-way done and began at its first element or row (R52) -/
  fromZero : Bool := false
  /-- an instruction that has been fetched and has not completed, with its address (R85), and the issue beats that it has had for
  what it has not committed (R39, R225, R300) -/
  current : Option (Word × Instr) := none
  issued : Nat := 0
  /-- of a spill or fill part-way done: the header has been written or checked (R174) -/
  headed : Bool := false
  /-- of a transfer part-way done: what the check of its elements found before the first of them performed (R74, R165); the
  offsets that it has read, with their poison, if its results overwrite them (R163); the bytes that it has stored (R355) -/
  probed : Option (Option (Nat × Async)) := none
  offsets : List (Nat × Bool) := []
  wrote : List (Nat × Nat) := []
  /-- the cause of an instruction in flight that a move has stopped: it is delivered at the release (R77) -/
  heldFault : Option Async := none
  /-- how many of the instructions in flight stand up to the one that issued last, itself among them: round robin goes on behind it
  (R42) -/
  lastSlot : Nat := 0
  /-- none of the hart's instructions in flight has an element group ready (R42, R168) -/
  held : Bool := false
  /-- the decoupling queue, and the scalar side behind it (R22, R350) -/
  queue : List QEntry := []
  front : Option Front := none
  /-- its `cpb` instructions that may still hold back vector accesses (R323), and its fences that may still hold accesses back -/
  gates : List Gate := []
  vecFences : List VecFence := []
  /-- the age counter (R41) and the mark of a `yield` (R125) -/
  age : BitVec 6 := 0
  yielded : Bool := false
  /-- the runs of bytes of a group that is stalled on watermark bindings; the time spent so, or in a `vwait`, before
  `waitSince` (R182, R196) -/
  stalled : List (Nat × Nat) := []
  /-- the bindings in force when a load or `vamo` in flight issued (R194), and the repeat limit when a matrix instruction did (R306) -/
  bound : Option (Vector Word 16) := none
  retry : Option (BitVec 4) := none
  waitNs : Nat := 0
  waitSince : Nat := 0
  /-- the hart's outstanding service call has been accepted under this number (R124) -/
  call : Option Nat := none
  reply : Option (Vector Word 4) := none
  /-- whether its plain stores and its vector results in general registers may lag behind it (R114, R227; log 20) -/
  lag : Bool := false
  posted : List Posted := []
  replies : List Reply := []
  /-- stores of the cold tier that have reported an error: their addresses, the first report first (R112) -/
  coldErrors : List Nat := []
  /-- single step: the instruction at this address has completed, and cause 12 is owed at the next boundary (R353) -/
  owes12 : Option Word := none
  /-- cause 55 is owed at the next boundary after a restore (R346) -/
  owes55 : Bool := false
  /-- save area held in the partition's context region (R329, R344), and whether it has been written since the save -/
  saveArea : Nat := 0
  areaWritten : Bool := false
  /-- while pre-empted: the `part` register under which it was saved, the scratchpad range as saved, key slab × 2^20 + byte,
  and its poisoned granules (R311, R342, R343) -/
  savedPart : Word := 0
  savedScratch : Mem := []
  savedPoison : List Nat := []
  deriving DecidableEq, Repr

/-- A launch record in parsed form (R327). -/
structure LaunchRec where
  overlap : Bool
  wait : Bool
  members : Nat
  stack : Nat
  density : Nat
  slabs : Nat
  mode : Nat
  entry : Word
  table : Word
  mark : Nat
  threshold : Nat
  queue : Nat
  target : Nat
  tvec : Word
  deriving DecidableEq, Repr

/-- A pending launch: a pool entry of a stack's sync unit (R334). -/
structure Pending where
  seq : Nat
  partId : Nat
  stack : Nat
  record : LaunchRec
  deriving DecidableEq, Repr

/-- What the barrier of a gang is doing: which contexts have arrived in the open generation, and whether it broke (R30,
R183, R187). -/
structure Barrier where
  arrived : List Nat := []
  broken : Bool := false
  /-- contexts that belong to the broken generation and have not yet raised cause 48 -/
  owed : List Nat := []
  /-- contexts that joined while the generation was open and do not count in it (R186) -/
  late : List Nat := []
  deriving DecidableEq, Repr

/-- A gang (R28). Its members are the contexts that name it. -/
structure Gang where
  stack : Nat
  num : Nat
  partId : Nat
  size : Nat
  queue : Nat
  vdev : Nat
  /-- limited to partition scope by its virtual device (R337) -/
  clamped : Bool
  density : Nat
  slabs : Nat
  /-- its reserved pool entry (R334) -/
  hasReserve : Bool
  /-- it has spent its reserve and is owed the next entry -/
  owedReserve : Bool
  startedAt : Nat
  /-- the launch that made it; 0 for the gang of one of a hart that has left its gang -/
  seq : Nat := 0
  barrier : Barrier := {}
  deriving DecidableEq, Repr

/-- An open move (R76). -/
structure Move where
  manager : Nat
  table : Word
  slot : BitVec 8
  oldBase : Word
  oldSize : Word
  /-- mode D: the move affects every partition -/
  everyPart : Bool
  partId : Nat
  /-- its `mvreq` has completed; until then it waits for the harts that it stops, then writes `d` (R77) -/
  done : Bool
  /-- where the `mvreq` stands, and its destination -/
  pc : Word
  d : Reg
  lease : LeaseSet
  deriving DecidableEq, Repr

/-- A merge whose copies wait for lower contributors (R191): the merging context, its member index, the window, whether its
sums saturate (R211), and the declarations whose copies go first. -/
structure Merge where
  seq : Nat
  cid : Nat
  /-- the slot tag of its operand (R77) -/
  tag : BitVec 8
  partId : Nat
  member : Nat
  win : AccWin
  sat : Bool
  after : List Nat
  deriving DecidableEq, Repr

/-- A copy in flight (R315, R310): rows of `rowBytes` bytes at two pitches; `done` bytes have performed or been given up. -/
structure Copy where
  seq : Nat
  cid : Nat
  bar : Reg3
  dst : Word
  src : Word
  dstTag : BitVec 8
  srcTag : BitVec 8
  rowBytes : Nat
  rows : Nat
  dstPitch : Word
  srcPitch : Word
  done : Nat
  /-- the slab of the replica that issued it, if one did: its local addresses name that slab's scratchpad (R67) -/
  slab : Option Nat
  /-- it has been logged by a pre-emption and waits for its re-issue (R311) -/
  logged : Bool
  /-- it has been dispatched and has not left the decoupling queue (R315) -/
  queued : Bool := false
  /-- the slot tag of the operand of a `cpyx` (R77) -/
  tag : BitVec 8 := 0
  /-- the granules into which it has carried poison (R355) -/
  tainted : List Nat := []
  deriving DecidableEq, Repr

/-- An entry of an interlock table (R150, R317): a hart, whether it writes, a range of 256-byte rows, the copies that it
covers. -/
structure Entry where
  cid : Nat
  write : Bool
  lo : Nat
  hi : Nat
  copies : List Nat
  deriving DecidableEq, Repr

/-- An extent of an extent list (R199). -/
structure Extent where
  base : Nat
  len : Nat
  stride : Nat
  deriving DecidableEq, Repr

/-- The kinds of engine command (R275). -/
inductive EngineKind where
  | swpout | swpin | xfer
  deriving DecidableEq, Repr

/-- An accepted engine command (R275 to R281), with what its acceptance read. -/
structure EngineCmd where
  seq : Nat
  kind : EngineKind
  cid : Nat
  partId : Nat
  /-- mode D: R72's check 6 does not apply -/
  modeD : Bool
  slot : Nat
  session : Nat
  statusAddr : Nat
  cold : Nat
  capacity : Nat
  keep : Bool
  /-- the tokens of the session, and the slot tag of ga (R77) -/
  tokens : Nat
  tag : BitVec 8
  mark : Nat
  peer : Nat
  peerMark : Nat
  first : Nat
  layers : Nat
  bpl : Nat
  ty : Nat
  blockBytes : Nat
  blocks : Nat
  extents : List Extent
  dstExtents : List Extent
  /-- leading units done, sticky flags, and the failure that ends the command -/
  units : Nat
  flags : BitVec 5
  code : Nat
  cause : Nat
  deriving DecidableEq, Repr

/-! ### Slots, front ends, partitions, the module -/

/-- The configuration of a hart slot: `rowrange`, `part`, the selvedge windows and the debug registers (R23, R73, R336,
R353). -/
structure SlotCfg where
  rowrange : Word
  part : Word
  selvedge : Vector Word 16
  breakpoint : Word
  watchpoint : Word
  /-- held since its partition was terminated, until it is assigned again (R360) -/
  held : Bool := false
  deriving DecidableEq, Repr

/-- A front end: its harness, its beats and its local memories (R20, R24, R39, R67). -/
structure FrontEnd where
  harness : Word
  beatmap : Word
  /-- a written beat assignment that waits for the frame boundary (R40) -/
  beatPending : Option Word := none
  /-- the beat of the frame, 0 to 15 -/
  beat : Nat := 0
  /-- the hart that issued in each partition's previous beat (R41) -/
  lastIssued : Tab Nat := []
  /-- scratchpad of ganged slab k: key k × 2^20 + byte -/
  scratch : Mem := []
  scratchPoison : List Nat := []
  sdm : Mem := []
  /-- the partition that last held a chunk: 4 KiB of the scratchpads, 1 KiB of the scalar data memory (R63) -/
  scratchOwner : Tab Nat := []
  sdmOwner : Tab Nat := []
  /-- what its instruction cache still holds: memory as of the last `flushi` of its partitions (R20, R85, R125) -/
  imem : Mem := []
  outOfService : Bool := false
  /-- its shadow storage is fenced (R359) -/
  shadowFenced : Bool := false
  deriving DecidableEq, Repr

/-- A watermark object (R193). -/
structure Mark where
  owner : Nat
  base : Nat
  length : Nat
  esize : Nat
  index : Nat
  deriving DecidableEq, Repr

/-- A resident image: its resident-record area, its load base and its size (R379, R400). -/
structure Image where
  area : Nat
  base : Nat
  size : Nat
  deriving DecidableEq, Repr

/-- A partition: its scheduling region, event block, engines' directory, host and peer windows, images (R330, R360, R270,
R384, R386, R400, R392). -/
structure Part where
  notifybm : Word := 0
  /-- the context that last wrote `notifybm` (R332) -/
  eventHart : Option Nat := none
  pending : List Async := []
  timer : Word := 0
  logBase : Word := 0
  logEntries : BitVec 32 := 0
  logHead : BitVec 32 := 0
  logConsumed : BitVec 32 := 0
  logOverflow : BitVec 32 := 0
  quarantined : Bool := false
  sessBase : Nat := 0
  sessCount : Nat := 0
  hostWin : Word := 0
  peers : Tab Word := []
  images : List Image := []
  m2 : List Byte := List.replicate 48 0
  m3 : List Byte := List.replicate 48 0
  /-- hardware queue slots 0 to 63 that are in use: slot and queue (R332) -/
  hwSlots : Tab Nat := []
  /-- the virtual device of the current slice and the slices it has left (R338); 63 before the first slice, whose round begins
  at device 0 -/
  vdev : Nat := 63
  slicesLeft : Nat := 0
  sliceStart : Nat := 0
  /-- by queue: the launch of the queue that started last (R333) -/
  lastStarted : Tab Nat := []
  /-- save areas that are fenced (R359) -/
  fencedAreas : List Nat := []
  /-- ignored BAR0 writes of each function of the partition (R381) -/
  barErrors : Tab Nat := []
  deriving DecidableEq, Repr

/-- A firmware bank (R389, R392). -/
structure Bank where
  abi : Nat := 0
  version : Nat := 0
  securityVersion : Nat := 0
  authentic : Bool := false
  hash : List Byte := []
  deriving DecidableEq, Repr

/-- An accepted service call (R124, R387). -/
structure Call where
  seq : Nat
  cid : Nat
  partId : Nat
  token : Word
  fn : Nat
  args : Vector Word 6
  /-- the bank that accepted it and the firmware in it at that moment (R389) -/
  bankB : Bool
  abi : Nat
  version : Nat
  /-- an access for it lay outside the windows of the service cores: it waits for a restart of the service (R390) -/
  faulted : Bool := false
  deriving DecidableEq, Repr

/-- The service chiplets: banks, calls, measurement registers M0 and M1, key store (R387 to R393). -/
structure Service where
  bankA : Bank := {}
  bankB : Bank := {}
  activeB : Bool := false
  recovery : Bool := false
  fenced : Bool := false
  calls : List Call := []
  /-- the windows that the boot ROM has locked for the service cores: first byte and end (R390) -/
  windows : List (Nat × Nat) := []
  m0 : List Byte := List.replicate 48 0
  m1 : List Byte := List.replicate 48 0
  authFailures : Nat := 0
  keysZeroised : Bool := false
  deriving DecidableEq, Repr

/-- A cold-tier region: its register and capacity (R385), and whether an expander error refuses accesses. -/
structure ColdRegion where
  reg : Word
  capacity : Word
  failed : Bool
  deriving DecidableEq, Repr

/-- A vault control register (R361): retirement asked, retired, fenced. -/
structure VaultCtl where
  asked : Bool
  retired : Bool
  fenced : Bool
  deriving DecidableEq, Repr

/-- The device launch registers of PF0 (R383). -/
structure Pf0 where
  dstatus : Nat := 0
  dctxBase : Word := 0
  dctxCount : BitVec 32 := 0
  dctxStride : BitVec 32 := 0
  /-- sequence number of the record that dstatus reports on -/
  dseq : Nat := 0
  /-- a submitted record that waits for a pool entry -/
  dwait : Option (List Byte) := none
  deriving DecidableEq, Repr

/-- The state of the module. -/
structure State where
  /-- bring-up has finished its hardware steps (R395) -/
  up : Bool := false
  /-- the current hart; phase `free` when no hart runs -/
  hart : Hart := {}
  /-- the other contexts that hold a slot, in the order in which they run next (R21) -/
  others : List Hart := []
  /-- the pre-empted contexts (R340) -/
  saved : List Hart := []
  /-- system memory: DRAM by vault-linear address, host, peer and cold windows by address (R64 to R66) -/
  mem : Mem := []
  /-- poisoned granules of system memory, by address div 8 (R355) -/
  poison : List Nat := []
  slots : Tab SlotCfg := []
  fes : Tab FrontEnd := []
  /-- half-slabs that are fenced, by site × 2 + side (R358) -/
  fencedHalves : List Nat := []
  parts : Tab Part := []
  gangs : List Gang := []
  pool : List Pending := []
  moves : List Move := []
  copies : List Copy := []
  /-- the entries of the interlock tables that copies hold (R317) -/
  entries : List Entry := []
  engines : List EngineCmd := []
  merges : List Merge := []
  marks : Tab Mark := []
  links : Tab (BitVec 9) := []
  cold : Tab ColdRegion := []
  vaults : Tab VaultCtl := []
  svc : Service := {}
  pf0 : Pf0 := {}
  /-- what the host refuses: requester and 4 KiB page of its bus; what a peer refuses: partition and 4 KiB page of the peer
  windows. Inputs from outside (R384, R386) -/
  hostDeny : List (Nat × Nat) := []
  peerDeny : List (Nat × Nat) := []
  /-- the watermark objects on a peer whose allocation refuses a publication: peer and object. An input from outside (R276) -/
  markDeny : List (Nat × Nat) := []
  /-- partitions whose function has SR-IOV enabled by the host (R381, R384): an input from outside -/
  sriov : List Nat := []
  /-- how often each beat of the matrix steps to come fails its residue check: an input from outside (R305) -/
  residue : List Nat := []
  /-- issue is throttled by the power limiter or a thermal notice: timing only (R394) -/
  throttled : Bool := false
  /-- clock cycles since module reset (R59) -/
  cycle : Nat := 0
  /-- numbers handed out so far: contexts, gangs, launches, copies and commands -/
  nextId : Nat := 0
  /-- free values drawn so far: the model's own counter -/
  draws : Nat := 0
  /-- the step that comes next tries an internal event first: the model's own -/
  tock : Bool := false
  /-- the instruction that runs is to issue one element group only (R41): the model's own -/
  slice : Bool := false
  /-- events that arrive from outside or from the schedule, in their order: the model's input -/
  agenda : List Instr := []
  deriving DecidableEq, Repr

/-- Why the machine stops with a fault. -/
inductive Fault where
  /-- Raised by an access in mode D to a device register that the spec does not describe; safe: the machine stops where
  the hardware would go on in a way the spec does not give. -/
  | undescribedRegister (addr : Nat)
  deriving DecidableEq, Repr

/-- Why an instruction has no meaning. -/
inductive Refusal where
  /-- Answered by an arm of `exec` whose instruction has no meaning yet; safe: the machine stops. -/
  | notModelled (mnemonic : String)
  deriving DecidableEq, Repr

/-- The module right after power-on reset, before bring-up (R395): no hart is launched, memory lists nothing. -/
def State.reset : State := {}

end Sys2Proof.Machine
end

