-- ==== Sys2Proof/Machine/Mem.lean ====
section
/-!
DEFINITION. Byte memories and sparse tables as sorted lists: reading, writing, and their canonical form.

What an unlisted address reads as is zero, in every memory of the module (`memDefault`; log 2).
-/

namespace Sys2Proof.Machine

/-- What a byte of memory that nothing has written reads as. DESIGN CHOICE (log 2): the spec gives DRAM no reset
contents. -/
def memDefault : Byte := 0

/-- The byte of a memory at an address. -/
def Mem.read : Mem → Nat → Byte
  | [], _ => memDefault
  | (k, v) :: m, a => if k = a then v else Mem.read m a

/-- Put a cell where its address belongs. -/
def Mem.insert : Mem → Nat → Byte → Mem
  | [], a, b => [(a, b)]
  | (k, v) :: m, a, b =>
    if a < k then (a, b) :: (k, v) :: m
    else if a = k then (a, b) :: m
    else (k, v) :: Mem.insert m a b

/-- Write one byte; writing what an unlisted address reads as removes the cell. -/
def Mem.write (m : Mem) (a : Nat) (b : Byte) : Mem :=
  if b = memDefault then m.filter (fun c => c.1 != a) else Mem.insert m a b

/-- The canonical form: addresses strictly rising, no cell that holds the default. -/
abbrev Mem.wf (m : Mem) : Prop :=
  m.Pairwise (fun c d => c.1 < d.1) ∧ ∀ c ∈ m, c.2 ≠ memDefault

/-- `n` bytes from address `a` up. -/
def Mem.readBytes (m : Mem) (a : Nat) : Nat → List Byte
  | 0 => []
  | n + 1 => m.read a :: Mem.readBytes m (a + 1) n

/-- Write bytes from address `a` up. -/
def Mem.writeBytes (m : Mem) (a : Nat) : List Byte → Mem
  | [] => m
  | b :: bs => Mem.writeBytes (m.write a b) (a + 1) bs

/-- The little-endian number of `n` bytes from address `a` up (R3). -/
def Mem.readNat (m : Mem) (a n : Nat) : Nat := leNat (m.readBytes a n)

/-- The record of a key, or the default. -/
def Tab.get {α : Type} (dflt : α) : Tab α → Nat → α
  | [], _ => dflt
  | (k, v) :: t, a => if k = a then v else Tab.get dflt t a

/-- The record of a key, if one is listed. -/
def Tab.find? {α : Type} : Tab α → Nat → Option α
  | [], _ => none
  | (k, v) :: t, a => if k = a then some v else Tab.find? t a

/-- List a record under a key. -/
def Tab.set {α : Type} : Tab α → Nat → α → Tab α
  | [], a, x => [(a, x)]
  | (k, v) :: t, a, x =>
    if a < k then (a, x) :: (k, v) :: t
    else if a = k then (a, x) :: t
    else (k, v) :: Tab.set t a x

/-- Remove a key. -/
def Tab.erase {α : Type} (t : Tab α) (a : Nat) : Tab α := t.filter (fun c => c.1 != a)

end Sys2Proof.Machine
end

