-- ==== Sys2Proof/Machine/Regs.lean ====
section
/-!
DEFINITION. Reading and writing registers with their metadata: general registers, lease sets, lease IDs, slot tags.
-/

namespace Sys2Proof.Machine

/-! ### Lease sets (R48, R103, R130, R142) -/

/-- The union of two lease sets and their S bits (R103, R142). -/
def LeaseSet.union (l m : LeaseSet) : LeaseSet := { ids := l.ids ||| m.ids, sat := l.sat || m.sat }

/-- The lease set of a load's destination: its own ID with the set of its address register (R130). -/
def LeaseSet.withId (l : LeaseSet) (id : BitVec 4) : LeaseSet := { l with ids := l.ids ||| (1#16 <<< id.toNat) }

/-- What becomes of a lease set when another load takes the ID: it loses the ID and saturates (R130). -/
def LeaseSet.reuse (l : LeaseSet) (id : BitVec 4) : LeaseSet :=
  if l.ids.getLsbD id.toNat then { ids := l.ids &&& ~~~(1#16 <<< id.toNat), sat := true } else l

/-! ### General registers (R46) -/

/-- A general register; g0 reads zero, untagged, with an empty lease set. -/
def gpr (s : State) (r : Reg) : GReg := if r = 0 then {} else s.hart.regs.get r.toFin

/-- The value of a general register. -/
def gval (s : State) (r : Reg) : Word := (gpr s r).val

/-- Write a general register with its metadata; a write to g0 is discarded. -/
def setGpr (s : State) (r : Reg) (v : GReg) : State :=
  if r = 0 then s else { s with hart := { s.hart with regs := s.hart.regs.set r.toNat v r.isLt } }

/-- A result that is no load: untagged unless a tag is given, with the union of its sources' lease sets (R71, R103). -/
def result (v : Word) (l : LeaseSet) (tag : BitVec 8 := 0) : GReg := { val := v, tag := tag, lease := l }

/-! ### Slot tags (R71) -/

/-- The tag of `add` and `and`. -/
def joinTags (a b : BitVec 8) : BitVec 8 :=
  if a = 0 then b else if b = 0 then a else 255

/-- The tag of `sub`: two equal tags other than 255 cancel. -/
def subTags (a b : BitVec 8) : BitVec 8 :=
  if a = 0 then b else if b = 0 then a else if a = b ∧ a ≠ 255 then 0 else 255

/-! ### Mask, vector and scale registers -/

/-- A vector register. -/
def vreg (s : State) (v : Reg) : VReg := s.hart.vregs.get v.toFin

/-- Replace a vector register's window, index and lease set. -/
def setVreg (s : State) (v : Reg) (x : VReg) : State :=
  { s with hart := { s.hart with vregs := s.hart.vregs.set v.toNat x v.isLt } }

/-- A scale register. -/
def kreg (s : State) (k : Reg3) : KReg := s.hart.kregs.get k.toFin

/-- Replace a scale register. -/
def setKreg (s : State) (k : Reg3) (x : KReg) : State :=
  { s with hart := { s.hart with kregs := s.hart.kregs.set k.toNat x k.isLt } }

/-- A mask register other than m0 as it is held. -/
def mreg (s : State) (m : Reg3) : MReg := s.hart.mregs.get m.toFin

/-- Replace a mask register; a write to m0 is discarded (R54). -/
def setMreg (s : State) (m : Reg3) (x : MReg) : State :=
  if m = 0 then s else { s with hart := { s.hart with mregs := s.hart.mregs.set m.toNat x m.isLt } }

/-- Bit `i` of a mask; m0 reads all ones (R54). -/
def maskBit (s : State) (m : Reg3) (i : Nat) : Bool := if m = 0 then true else (mreg s m).bits.testBit i

/-- The lease set of a mask operand; m0 has none. -/
def maskLease (s : State) (m : Reg3) : LeaseSet := if m = 0 then {} else (mreg s m).lease

/-! ### Lease IDs (R130, R141) -/

/-- Another load takes the ID: in a register. -/
def GReg.reuse (id : BitVec 4) (x : GReg) : GReg := { x with lease := x.lease.reuse id }
def VReg.reuse (id : BitVec 4) (x : VReg) : VReg := { x with lease := x.lease.reuse id }
def MReg.reuse (id : BitVec 4) (x : MReg) : MReg := { x with lease := x.lease.reuse id }
def KReg.reuse (id : BitVec 4) (x : KReg) : KReg := { x with lease := x.lease.reuse id }
def Reply.reuse (id : BitVec 4) (x : Reply) : Reply := { x with val := x.val.reuse id }
def Front.reuse (id : BitVec 4) (x : Front) : Front := { x with regs := x.regs.map (GReg.reuse id) }
def Replica.reuse (id : BitVec 4) (x : Replica) : Replica :=
  { x with
    regs := x.regs.map (GReg.reuse id)
    flight := { x.flight with front := x.flight.front.map (Front.reuse id) } }
def ParLoop.reuse (id : BitVec 4) (x : ParLoop) : ParLoop :=
  { x with rest := x.rest.map (Replica.reuse id), ended := x.ended.map (Replica.reuse id) }

/-- The hart's next load takes its ID: every register that holds the ID loses it and saturates, and the counter
advances (R130). That the binding set of a stream keeps the ID is a DESIGN CHOICE (log 46). -/
def takeLease (h : Hart) : Hart :=
  let id := h.leaseNext
  { h with
    regs := h.regs.map (GReg.reuse id)
    vregs := h.vregs.map (VReg.reuse id)
    mregs := h.mregs.map (MReg.reuse id)
    kregs := h.kregs.map (KReg.reuse id)
    accLease := h.accLease.reuse id
    par := h.par.map (ParLoop.reuse id)
    front := h.front.map (Front.reuse id)
    replies := h.replies.map (Reply.reuse id)
    leaseNext := id + 1 }

/-- The state in which the current hart has taken its next lease ID. -/
def takeId (s : State) : State := { s with hart := takeLease s.hart }

/-- The union of the IDs that a list of general registers holds. -/
def heldIds (rs : Vector GReg 32) : BitVec 16 := rs.foldl (fun x r => x ||| r.lease.ids) 0

/-- The held field of `leasestat`: the union of the lease sets of all the hart's registers (R132), those of the replicas of a
parallel loop among them (R32; log 22). -/
def heldLeases (h : Hart) : BitVec 16 :=
  heldIds h.regs ||| h.vregs.foldl (fun x r => x ||| r.lease.ids) 0 |||
    h.mregs.foldl (fun x r => x ||| r.lease.ids) 0 ||| h.kregs.foldl (fun x r => x ||| r.lease.ids) 0 |||
    h.accLease.ids |||
    match h.par with
    | some p => (p.rest ++ p.ended).foldl (fun x r => x ||| heldIds r.regs) 0
    | none => 0

/-! ### The program counter and the mode -/

/-- Move past an instruction of `len` bytes. -/
def advance (len : Nat) (s : State) : State := { s with hart := { s.hart with pc := s.hart.pc + BitVec.ofNat 64 len } }

/-- Continue at an address. -/
def jumpTo (s : State) (pc : Word) : State := { s with hart := { s.hart with pc := pc } }

/-- The current mode of a hart (R346): 0 U, 1 S, 2 D. -/
def Hart.mode (h : Hart) : Nat := field h.csr.status 5 2

/-- The current hart's mode. -/
def mode (s : State) : Nat := s.hart.mode

def modeU : Nat := 0
def modeS : Nat := 1
def modeD : Nat := 2

end Sys2Proof.Machine
end

