-- ==== Sys2Proof/Machine/Tables.lean ====
section
/-!
DEFINITION. Looking up contexts, hart slots, front ends and partitions, and the constants of the physical map.
-/

namespace Sys2Proof.Machine

/-! ### The physical map (R64 to R67) -/

def gib : Nat := 2 ^ 30
/-- Bytes of a stack, of a vault, of bonded DRAM (R65). -/
def stackBytes : Nat := 96 * gib
def vaultBytes : Nat := 2 ^ 29
def dramBytes : Nat := 16 * stackBytes
def stripedBase : Nat := 0x100000000000
def hostBase : Nat := 0x400000000000
def peerBase : Nat := 0x800000000000
def peerBytes : Nat := 0x20000000000
def coldBase : Nat := 0x1000000000000
def coldBytes : Nat := 2 ^ 48
def deviceBase : Nat := 0xF000000000000
def localBase : Nat := 0xFFF0000000000
def mapEnd : Nat := 2 ^ 52

/-! ### Contexts -/

/-- Every context of the module: the current hart, the others that hold slots, the pre-empted ones. -/
def contexts (s : State) : List Hart :=
  (s.hart :: (s.others ++ s.saved)).filter (·.phase != .free)

/-- Change every context. -/
def mapContexts (f : Hart → Hart) (s : State) : State :=
  { s with
    hart := if s.hart.phase = .free then s.hart else f s.hart
    others := s.others.map f
    saved := s.saved.map f }

/-- Change one context. -/
def mapContext (cid : Nat) (f : Hart → Hart) (s : State) : State := mapContexts (fun h => if h.cid = cid then f h else h) s

/-- A context by its number. -/
def contextOf (s : State) (cid : Nat) : Option Hart := (contexts s).find? (·.cid == cid)

/-! ### Slots, front ends, partitions -/

/-- The configuration that the fuse loader leaves in a hart slot (R395): the default depth range; slot 0 belongs to the
device partition with 256 KiB of scratchpad, every other slot to none. -/
def fusedSlot (slot : Nat) : SlotCfg :=
  { rowrange := BitVec.ofNat 64 (512 * 2 ^ 16 + 512 * (slot % 4))
    part := if slot = 0 then BitVec.ofNat 64 (64 * 2 ^ 39 + 12) else 15
    selvedge := Vector.replicate 16 0
    breakpoint := 0
    watchpoint := 0 }

/-- The configuration of a hart slot. -/
def slotCfg (s : State) (slot : Nat) : SlotCfg := (s.slots.find? slot).getD (fusedSlot slot)

/-- An entry of `harness` that binds a slab: valid, with site codes 0 to 4 (R24). -/
def boundEntry (e : Nat) : Bool := e / 2 ^ 15 % 2 == 1 && e / 2 ^ 12 % 8 ≤ 4 && e / 2 ^ 8 % 8 ≤ 4

/-- The entries of a `harness` value from entry `j` on, as R24 lays them out: contiguous, reserved bits zero. -/
def harnessEntries (w : Word) : Nat → Nat → Nat
  | 0, _ => 0
  | n + 1, j =>
    let e := field w (16 * j) 16
    if boundEntry e then e / 128 * 128 + 2 ^ 16 * harnessEntries w n (j + 1) else 0

/-- The state that the fuse loader leaves in a front end (R395): the test data (log 9), in the layout of R24. -/
def fusedFrontEnd (id : Nat) : FrontEnd :=
  { harness := BitVec.ofNat 64 (harnessEntries (Config.fuseHarness id) 4 0), beatmap := if id = 0 then 0xCCCCCCCCCCCCCCCC else 0xFFFFFFFFFFFFFFFF }

/-- A front end. -/
def frontEnd (s : State) (id : Nat) : FrontEnd := (s.fes.find? id).getD (fusedFrontEnd id)

/-- Replace a front end. -/
def setFrontEnd (s : State) (id : Nat) (f : FrontEnd) : State := { s with fes := s.fes.set id f }

/-- Replace a slot's configuration. -/
def setSlotCfg (s : State) (slot : Nat) (c : SlotCfg) : State := { s with slots := s.slots.set slot c }

/-- A partition. -/
def part (s : State) (p : Nat) : Part := s.parts.get {} p

/-- Replace a partition. -/
def setPart (s : State) (p : Nat) (x : Part) : State := { s with parts := s.parts.set p x }

/-- The front end of a hart slot (R28). -/
def feOf (slot : Nat) : Nat := slot / 4

/-- The stack of a hart slot. -/
def stackOf (slot : Nat) : Nat := slot / (4 * 192)

/-- The `hartid` of a hart slot (R28). -/
def hartIdOf (slot : Nat) : Nat := slot / 768 * 1024 + slot % 768

/-- The hart slot of a `hartid`, if there is one. -/
def slotOfId (id : Nat) : Option Nat :=
  if id / 1024 < 16 ∧ id % 1024 < 768 then some (id / 1024 * 768 + id % 1024) else none

/-- A link's register (R362): eight good lanes unless listed. -/
def linkReg (s : State) (l : Nat) : BitVec 9 := s.links.get 0xFF l

/-- A cold-tier region (R385): not mapped unless listed. -/
def coldRegion (s : State) (r : Nat) : ColdRegion := s.cold.get { reg := 0, capacity := 0, failed := false } r

/-- A vault's control register (R361). -/
def vaultCtl (s : State) (v : Nat) : VaultCtl := s.vaults.get { asked := false, retired := false, fenced := false } v

end Sys2Proof.Machine
end

