-- ==== Sys2Proof/Machine/Device.lean ====
section
/-!
DEFINITION. The device registers that the spec describes (R353, R360, R361, R362, R384, R385, R386): reading and writing
them as 8-byte words.  An offset counts from the start of the device-register range.
-/

namespace Sys2Proof.Machine

/-- A device register by the kind the spec gives it. -/
inductive DevReg where
  | timer (p : Nat)
  | logBase (p : Nat)
  | logSize (p : Nat)
  | logCount (p : Nat)
  | quarantine (p : Nat)
  | eventHart (p : Nat)
  | hostWin (p : Nat)
  | peer (p n : Nat)
  | coldReg (r : Nat)
  | coldCap (r : Nat)
  | vault (v : Nat)
  | breakpoint (slot : Nat)
  | watchpoint (slot : Nat)
  | link (l : Nat)
  deriving DecidableEq, Repr

/-- The register of the event block at an offset within it (R360). -/
def eventReg (p r : Nat) : Option DevReg :=
  match r with
  | 0x00 => some (.timer p)
  | 0x08 => some (.logBase p)
  | 0x10 => some (.logSize p)
  | 0x18 => some (.logCount p)
  | 0x20 => some (.quarantine p)
  | 0x28 => some (.eventHart p)
  | _ => none

/-- The register at an offset that is a multiple of 8, if the spec describes one. The device partition, 12, has an event
block and windows like any other. -/
def deviceReg (o : Nat) : Option DevReg :=
  if o < 0xD000 then eventReg (o / 0x1000) (o % 0x1000)
  else if 0x30000 ≤ o ∧ o < 0x300D0 then
    if o % 16 = 0 then some (.hostWin ((o - 0x30000) / 16)) else none
  else if 0x40000 ≤ o ∧ o < 0x41A00 then some (.peer ((o - 0x40000) / 0x200) ((o - 0x40000) % 0x200 / 8))
  else if 0x50000 ≤ o ∧ o < 0x500E0 then
    if o % 16 = 0 then some (.coldReg ((o - 0x50000) / 16)) else some (.coldCap ((o - 0x50000) / 16))
  else if 0x100000 ≤ o ∧ o < 0x106000 then some (.vault ((o - 0x100000) / 8))
  else if 0x200000 ≤ o ∧ o < 0x240000 then
    (slotOfId ((o - 0x200000) / 16)).map fun x => if o % 16 = 0 then .breakpoint x else .watchpoint x
  else if 0x400000 ≤ o ∧ o < 0x400100 then some (.link ((o - 0x400000) / 8))
  else none

/-- The value of a register. -/
def devValue (s : State) : DevReg → Word
  | .timer p => (part s p).timer
  | .logBase p => (part s p).logBase
  | .logSize p => (part s p).logHead ++ (part s p).logEntries
  | .logCount p => (part s p).logOverflow ++ (part s p).logConsumed
  | .quarantine p => boolWord (part s p).quarantined
  | .eventHart p => BitVec.ofNat 64 ((((part s p).eventHart.bind (contextOf s)).map fun h => hartIdOf h.slot).getD 0)
  | .hostWin p => (part s p).hostWin
  | .peer p n => (part s p).peers.get 0 n
  | .coldReg r => (coldRegion s r).reg
  | .coldCap r => (coldRegion s r).capacity
  | .vault v =>
    let c := vaultCtl s v
    BitVec.ofNat 64 (b2n c.asked + 2 * b2n c.retired + 4 * b2n c.fenced)
  | .breakpoint x => (slotCfg s x).breakpoint
  | .watchpoint x => (slotCfg s x).watchpoint
  | .link l => (linkReg s l).zeroExtend 64

/-- Write a register; reserved bits stay zero, and what hardware alone writes keeps its value. -/
def devWrite (s : State) (r : DevReg) (v : Word) : State :=
  match r with
  | .timer p => setPart s p { part s p with timer := v }
  | .logBase p => setPart s p { part s p with logBase := v }
  | .logSize p => setPart s p { part s p with logEntries := v.truncate 32 }
  | .logCount p => setPart s p { part s p with logConsumed := v.truncate 32 }
  | .quarantine p => if bit v 0 then s else setPart s p { part s p with quarantined := false }
  | .eventHart _ => s
  | .hostWin p => setPart s p { part s p with hostWin := v &&& 0x00003FFFFFFFF001 }
  | .peer p n => setPart s p { part s p with peers := (part s p).peers.set n (v &&& 0x800FFFFFFFFFFFFF) }
  | .coldReg r =>
    let w := v &&& 0x8000000000000638
    { s with cold := s.cold.set r { coldRegion s r with reg := w, failed := (coldRegion s r).failed && !bit w 63 } }
  | .coldCap r => { s with cold := s.cold.set r { coldRegion s r with capacity := v } }
  | .vault x => { s with vaults := s.vaults.set x { vaultCtl s x with asked := bit v 0 } }
  | .breakpoint x => setSlotCfg s x { slotCfg s x with breakpoint := v &&& 0x000FFFFFFFFFFFFF }
  | .watchpoint x => setSlotCfg s x { slotCfg s x with watchpoint := v &&& 0x000FFFFFFFFFFFFB }
  | .link _ => s

/-- A power of two from 64 to 65,536 (R360). -/
def logSizeOk (n : Nat) : Bool := (List.range 11).any fun i => n == 2 ^ (i + 6)

/-- A value keeps what the layout of a register demands of software: reserved bits zero, a log base and a capacity of
multiples of 4 KiB, a log size that is a power of two, a first port that is a multiple of the ways (R353, R360, R384 to R386).
What breaks it has no outcome of its own, so the instruction raises cause 1 (R6, R8). -/
def devOk (old v : Word) : DevReg → Bool
  | .logBase _ => v &&& 0xFFF == 0 && decide (v.toNat < dramBytes ∨ (stripedBase ≤ v.toNat ∧ v.toNat < stripedBase + dramBytes))
  | .logSize _ => old.truncate 32 == (v.truncate 32 : BitVec 32) || logSizeOk (field v 0 32)
  | .hostWin _ => v &&& ~~~0x00003FFFFFFFF001 == 0
  | .peer _ _ => v &&& ~~~0x800FFFFFFFFFFFFF == 0 && field v 48 4 ≤ 11
  | .coldReg _ => v &&& ~~~0x8000000000000638 == 0 && field v 3 3 % 2 ^ field v 9 2 == 0
  | .coldCap _ => v &&& 0xFFF == 0
  | .breakpoint _ => v &&& ~~~0x000FFFFFFFFFFFFF == 0
  | .watchpoint _ => v &&& ~~~0x000FFFFFFFFFFFFB == 0
  | .timer _ | .logCount _ | .quarantine _ | .eventHart _ | .vault _ | .link _ => true

/-- One byte of the device registers; zero where the spec describes none. -/
def deviceByte (s : State) (o : Nat) : Byte :=
  match deviceReg (o / 8 * 8) with
  | some r => BitVec.ofNat 8 ((devValue s r).toNat / 2 ^ (8 * (o % 8)))
  | none => 0

/-- The word at an aligned offset with the bytes of a store put in. -/
def mergeBytes (old : Word) (o : Nat) (start : Nat) (bs : List Byte) : Word :=
  BitVec.ofNat 64 (leNat ((List.range 8).map fun i =>
    if start ≤ o + i then (bs[o + i - start]?).getD (BitVec.ofNat 8 (old.toNat / 2 ^ (8 * i)))
    else BitVec.ofNat 8 (old.toNat / 2 ^ (8 * i))))

/-- Store bytes to device registers: each register that the store touches is written once. -/
def deviceStore (s : State) (o : Nat) (bs : List Byte) : State :=
  (List.range ((o + bs.length - 1) / 8 - o / 8 + 1)).foldl (fun s i =>
    let q := (o / 8 + i) * 8
    match deviceReg q with
    | some r => devWrite s r (mergeBytes (devValue s r) q o bs)
    | none => s) s

/-- A store of bytes leaves a register with a value that its layout does not allow. -/
def deviceFail (s : State) (o : Nat) (bs : List Byte) : Bool :=
  (List.range ((o + bs.length - 1) / 8 - o / 8 + 1)).any fun i =>
    let q := (o / 8 + i) * 8
    match deviceReg q with
    | some r => !devOk (devValue s r) (mergeBytes (devValue s r) q o bs) r
    | none => false

/-- The first register that an access of `n` bytes touches and the spec does not describe (for a store: describes no
writing of), by its offset. -/
def unknownReg (write : Bool) (o n : Nat) : Option Nat :=
  ((List.range ((o + n - 1) / 8 - o / 8 + 1)).map fun i => (o / 8 + i) * 8).find? fun q =>
    match deviceReg q with
    | none => true
    | some (.link _) => write
    | some _ => false

end Sys2Proof.Machine
end

