-- ==== Sys2Proof/Machine/Access.lean ====
section
/-!
DEFINITION. Memory as a hart sees it: the physical map, the checks of R72 in their order, reading and writing bytes.

`checkAccess` is R72 whole; `readByte` and `storeBytes` are the one place where bytes are read and written.
-/

namespace Sys2Proof.Machine

/-- A synchronous cause with its `tval` (R354). -/
structure Exc where
  code : Nat
  tval : Word
  deriving DecidableEq, Repr

/-- An exception whose `tval` is an address. -/
def excAt (code addr : Nat) : Exc := { code := code, tval := BitVec.ofNat 64 addr }

/-- What an access does (R72): it decides the causes and the permission. -/
inductive Acc where
  | load | store | atomic | fetch
  deriving DecidableEq, Repr

/-- The cause of a bounds failure (R64, R72). -/
def Acc.bounds : Acc → Nat
  | .load => 16
  | .store | .atomic => 17
  | .fetch => 6

/-- The access writes. -/
def Acc.writes : Acc → Bool
  | .store | .atomic => true
  | .load | .fetch => false

/-! ### The physical map (R64 to R67) -/

/-- The ranges of R64, each peer window, cold region and local memory a range of its own. -/
inductive Place where
  | vault
  | striped
  | host
  | peer (p : Nat)
  | cold (r : Nat)
  | device
  | rows
  | scratch (k : Nat)
  | scalarMem
  | noLocal
  | hole
  deriving DecidableEq, Repr

/-- The local memory at an offset of the local window (R67). -/
def localPlace (o : Nat) : Place :=
  if o < 0x80000 then .rows
  else if 0x100000 ≤ o ∧ o < 0x500000 then .scratch ((o - 0x100000) / 0x100000)
  else if 0x800000 ≤ o ∧ o < 0x810000 then .scalarMem
  else .noLocal

/-- The range that holds an address (R64). -/
def placeOf (a : Nat) : Place :=
  if a < dramBytes then .vault
  else if a < stripedBase then .hole
  else if a < stripedBase + dramBytes then .striped
  else if a < hostBase then .hole
  else if a < peerBase then .host
  else if a < coldBase then .peer ((a - peerBase) / peerBytes)
  else if a < deviceBase then .cold ((a - coldBase) / coldBytes)
  else if a < localBase then .device
  else if a < mapEnd then localPlace (a - localBase)
  else .hole

/-- The vault-linear byte that a striped address names (R66). -/
def unstripe (a : Nat) : Nat :=
  let o := a - stripedBase
  let s := o / stackBytes
  let q := o % stackBytes
  let c := q / 4096
  s * stackBytes + c % 192 * vaultBytes + c / 192 * 4096 + q % 4096

/-- The address under which system memory holds a byte: vault-linear for DRAM (R66), its own elsewhere. -/
def canon (a : Nat) : Nat := if placeOf a = .striped then unstripe a else a

/-- The striped address of a vault-linear byte (R66, the other way). -/
def stripe (l : Nat) : Nat :=
  let q := l % stackBytes
  let r := q % vaultBytes
  stripedBase + l / stackBytes * stackBytes + (r / 4096 * 192 + q / vaultBytes) * 4096 + r % 4096

/-- An address of DRAM under the name that `base` uses. -/
def aliasAs (base a : Nat) : Nat := if placeOf base = .striped then stripe (canon a) else canon a

/-- The vault that holds a byte of DRAM, counted over the module (R65, R361). -/
def vaultOf (a : Nat) : Nat :=
  let o := canon a
  o / stackBytes * 192 + o % stackBytes / vaultBytes

/-- The address that an access on behalf of slab `k` reaches: the local window names a slab's own scratchpad first (R67,
R167). -/
def onSlab (k a : Nat) : Nat := if placeOf a = .scratch 0 then a + k * 0x100000 else a

/-- A run of bytes cut at every multiple of 4 KiB: within a piece either name of DRAM runs on (R66). -/
def pieces (a n : Nat) : List (Nat × Nat) :=
  (List.range ((a + n - 1) / 4096 - a / 4096 + 1)).map fun i =>
    let lo := max a ((a / 4096 + i) * 4096)
    (lo, min (a + n) ((a / 4096 + i + 1) * 4096) - lo)

/-- The place is bonded DRAM under either name. -/
def Place.isDram : Place → Bool
  | .vault | .striped => true
  | _ => false

/-- The place lies in the local window. -/
def Place.isLocal : Place → Bool
  | .rows | .scratch _ | .scalarMem | .noLocal => true
  | _ => false

/-- The place is of system scope (R113). -/
def Place.isSystem : Place → Bool
  | .host | .peer _ | .cold _ => true
  | _ => false

/-! ### Slots, front ends, partitions of the current hart -/

/-- `rowrange` fields (R23). -/
def rowLength (w : Word) : Nat := field w 16 12
def rowBase (w : Word) : Nat := field w 0 11

/-- The current hart's depth range in rows. -/
def depthRows (s : State) : Nat := rowLength (slotCfg s s.hart.slot).rowrange

/-- The slabs that an instruction of the current context sees: 1 inside a replica (R32), at most four (R24). -/
def slabs (s : State) : Nat := if s.hart.par.isSome then 1 else min s.hart.g 4

/-- The first slab that it sees. -/
def slab0 (s : State) : Nat :=
  match s.hart.par with
  | some p => min p.active 3
  | none => 0

/-- `part` fields (R336), in bytes. -/
def spBase (w : Word) : Nat := field w 48 8 * 4096
def spLen (w : Word) : Nat := field w 39 9 * 4096
def sdBase (w : Word) : Nat := field w 33 6 * 1024
def sdLen (w : Word) : Nat := field w 26 7 * 1024

/-- The slab of the replica that runs, if one does. -/
def replicaOf (s : State) : Option Nat := s.hart.par.map (·.active)

/-- A vector access, of a replica on `slab` or of a whole hart, may name the address (R167): not the rows or scalar memory (an
atomic is governed by R178 there), nor in a replica another slab's scratchpad. -/
def placeAllowed (slab : Option Nat) (k : Acc) (a : Nat) : Bool :=
  match placeOf a with
  | .rows | .scalarMem => k == .atomic
  | .scratch j => slab.isNone || j == 0
  | _ => true

def vectorPlace (s : State) (k : Acc) (a : Nat) : Bool := placeAllowed (replicaOf s) k a

/-- The address that a vector access of a replica reaches: the scratchpad of its own slab (R167). -/
def replicaAddr (s : State) (a : Nat) : Nat := onSlab ((replicaOf s).getD 0) a

/-! ### Which bytes may be accessed (R72 checks 5 and 6) -/

/-- The rules of R64 and R67 for one byte: the cause, if it fails. An atomic to the cold tier raises 26, installed or not
(log 41). -/
def byteCause (s : State) (k : Acc) (a : Nat) : Option Nat :=
  let cfg := slotCfg s s.hart.slot
  match placeOf a with
  | .hole => some k.bounds
  | .vault | .striped => if ((s.vaults.find? (vaultOf a)).map (·.retired)).getD false then some k.bounds else none
  | .host =>
    let w := (part s s.hart.partId).hostWin
    if bit w 0 ∧ a - hostBase < field w 12 34 * 4096 then none else some k.bounds
  | .peer p =>
    if bit ((part s s.hart.partId).peers.get 0 p) 63 ∧ (a - peerBase) % peerBytes < dramBytes then none
    else some k.bounds
  | .cold r =>
    if k = .atomic then some 26
    else match s.cold.find? r with
      | none => some k.bounds
      | some c => if bit c.reg 63 ∧ (a - coldBase) % coldBytes < c.capacity.toNat then none else some k.bounds
  | .device => if mode s ≠ modeD then some k.bounds else if k = .atomic then some 26 else none
  | .rows =>
    if k = .fetch then some 6
    else if k = .atomic then some 26
    else if (a - localBase) / 256 < depthRows s then none else some 24
  | .scratch j =>
    let o := (a - localBase) % 0x100000
    if k = .fetch then some 6
    else if j < s.hart.g ∧ spBase cfg.part ≤ o ∧ o < spBase cfg.part + spLen cfg.part then none else some 23
  | .scalarMem =>
    let o := a - localBase - 0x800000
    if k = .fetch then some 6
    else if sdBase cfg.part ≤ o ∧ o < sdBase cfg.part + sdLen cfg.part then none else some 23
  | .noLocal => if k = .fetch then some 6 else some 23

/-- The addresses at which the answer of `byteCause` can change within an access: its first byte and every multiple of
256 above it (windows, ranges and limits are all multiples of 256 bytes). -/
def checkPoints (a n : Nat) : List Nat :=
  a :: ((List.range ((a + n - 1) / 256 - a / 256)).map fun i => (a / 256 + i + 1) * 256)

/-- R72 check 5 on every byte of an access: the local window and the map, and that every byte lies in the range of the
first byte (R64). -/
def checkMap (s : State) (k : Acc) (a n : Nat) : Except Exc Unit :=
  let fails (x : Nat) : Option Exc :=
    if placeOf x = placeOf a then (byteCause s k x).map (excAt · x) else some (excAt k.bounds x)
  match (checkPoints a n).findSome? fails with
  | some e => .error e
  | none => .ok ()

/-- A selvedge window that is enabled with the permission an access needs (R73): its first byte and its end. -/
def windowOf (k : Acc) (w : Word) : Option (Nat × Nat) :=
  let lsz := field w 0 6
  let allowed := match k with
    | .load => bit w 7
    | .store => bit w 8
    | .atomic => bit w 7 && bit w 8
    | .fetch => bit w 9
  if lsz = 0 ∨ !allowed then none else some (field w 12 40 * 4096, field w 12 40 * 4096 + 2 ^ lsz)

/-- R73 over a list of windows: `none` when one of them holds every byte, else the first byte that R72 reports. -/
def selvedgeFail (ws : List Word) (k : Acc) (a n : Nat) : Option Nat :=
  let holds := (ws.filterMap (windowOf k)).filter fun w => w.1 ≤ a ∧ a < w.2
  if holds.any fun w => a + n ≤ w.2 then none
  else some (holds.foldl (fun m w => max m w.2) a)

/-- R72 check 6: outside mode D, and outside the local window. -/
def checkSelvedge (s : State) (k : Acc) (a n : Nat) : Except Exc Unit :=
  if mode s = modeD ∨ (placeOf a).isLocal then .ok ()
  else match selvedgeFail (slotCfg s s.hart.slot).selvedge.toList k a n with
    | none => .ok ()
    | some x => .error (excAt k.bounds x)

/-- R72 checks 5 and 6. -/
def checkPlain (s : State) (k : Acc) (a n : Nat) : Except Exc Unit := do
  checkMap s k a n
  checkSelvedge s k a n

/-- An access in mode D to a device register that the spec does not describe. -/
def undescribed (write : Bool) (a n : Nat) : Bool := placeOf a = .device && (unknownReg write (a - deviceBase) n).isSome

/-! ### Reading bytes -/

/-- The key of a byte of the local window's register-store rows: rows of ganged slab 0 (R67). -/
def rowWindowKey (o : Nat) : Nat := o / 256 * 1024 + o % 256

/-- One byte of memory as the current hart reads it. -/
def readByte (s : State) (a : Nat) : Byte :=
  match placeOf a with
  | .rows => s.hart.rows.read (rowWindowKey (a - localBase))
  | .scratch k => (frontEnd s (feOf s.hart.slot)).scratch.read (k * 0x100000 + (a - localBase) % 0x100000)
  | .scalarMem => (frontEnd s (feOf s.hart.slot)).sdm.read (a - localBase - 0x800000)
  | .device => deviceByte s (a - deviceBase)
  | _ => s.mem.read (canon a)

/-- `n` bytes from an address up. -/
def readBytes (s : State) (a : Nat) : Nat → List Byte
  | 0 => []
  | n + 1 => readByte s a :: readBytes s (a + 1) n

/-- The little-endian number of `n` bytes (R3). -/
def readNat (s : State) (a n : Nat) : Nat := leNat (readBytes s a n)

/-- The granule of a byte is poisoned (R355); a fenced vault's granules read poisoned (R359). -/
def bytePoisoned (s : State) (a : Nat) : Bool :=
  match placeOf a with
  | .rows => s.hart.rowPoison.contains (rowWindowKey (a - localBase) / 8)
  | .scratch k =>
    (frontEnd s (feOf s.hart.slot)).scratchPoison.contains ((k * 0x100000 + (a - localBase) % 0x100000) / 8)
  | .scalarMem => false
  | .vault | .striped =>
    s.poison.contains (canon a / 8) || ((s.vaults.find? (vaultOf a)).map (·.fenced)).getD false
  | _ => s.poison.contains (canon a / 8)

/-- The first poisoned byte of an access. -/
def firstPoisoned (s : State) (a : Nat) : Nat → Option Nat
  | 0 => none
  | n + 1 => if bytePoisoned s a then some a else firstPoisoned s (a + 1) n

/-! ### Errors that come after the checks: host, links, peers, expanders (R384, R362, R386, R385) -/

/-- A link that may still carry traffic (R362): unlisted links are good. -/
def linkUp (s : State) (l : Nat) : Bool := !bit (s.links.get 0xFF l) 8

/-- The requester ID that the current hart's accesses carry to the host (R384): by partition, 0 for the function itself,
1 + v for VF v where the host has enabled SR-IOV. -/
def requester (s : State) : Nat :=
  let v := ((s.gangs.find? fun g => g.stack == s.hart.gangStack && g.num == s.hart.gang).map (·.vdev)).getD 0
  s.hart.partId * 128 + if s.sriov.contains s.hart.partId then 1 + v else 0

/-- The error that the far side returns for an access that passed R72, if any: the host refuses the requester's page (R384),
no good link is left or the peer refuses the partition's page (R362, R386), the expander has failed (R385). -/
def farError (s : State) (k : Acc) (a : Nat) : Option Exc :=
  match placeOf a with
  | .host => if s.hostDeny.contains (requester s, (a - hostBase) / 4096) then some (excAt k.bounds a) else none
  | .peer p =>
    let e := (part s s.hart.partId).peers.get 0 p
    if (List.range 32).any (fun l => bit e l && linkUp s l) && !s.peerDeny.contains (s.hart.partId, (a - peerBase) / 4096) then
      none
    else some (excAt 59 a)
  | .cold r => if ((s.cold.find? r).map (·.failed)).getD false then some (excAt 30 a) else none
  | _ => none

/-- The same for an access of `n` bytes: the first page of 4 KiB that answers with an error. -/
def farErrorIn (s : State) (k : Acc) (a n : Nat) : Option Exc :=
  (a :: (List.range ((a + n - 1) / 4096 - a / 4096)).map fun i => (a / 4096 + i + 1) * 4096).findSome? (farError s k)

/-! ### Slot records and R72 whole -/

/-- A slot record (R68). -/
structure Record where
  base : Nat
  size : Nat
  ro : Bool
  isVoid : Bool
  gen : BitVec 32
  deriving DecidableEq, Repr

/-- The record whose 32 bytes lie at `a`, once its read has been checked: what the far side answers, poison, and cause 1 where a
reserved bit of its flags or of bytes +24 to +31 is set (R68, R8). That cause 1 comes after the others is a DESIGN CHOICE (log 45). -/
def checkedRecord (s : State) (a : Nat) : Except Exc Record := do
  match farError s .load a with
  | some e => throw e
  | none => pure ()
  match firstPoisoned s a 32 with
  | some x => throw (excAt 31 x)
  | none => pure ()
  let flags := readNat s (a + 16) 4
  if 4 ≤ flags ∨ readNat s (a + 24) 8 ≠ 0 then throw { code := 1, tval := 0 }
  return { base := readNat s a 8, size := readNat s (a + 8) 8, ro := flags / 2 % 2 = 1, isVoid := flags % 2 = 1,
           gen := BitVec.ofNat 32 (readNat s (a + 20) 4) }

/-- Read a record of the active table under R69: R72's checks 5 and 6, then the record. At a device register that the spec does not
describe it reads zeros (log 34). That this read raises no cause 44 where R72's checks 2 and 3 make it, and no fetch does, is a DESIGN
CHOICE (log 60). -/
def readRecord (s : State) (n : BitVec 8) : Except Exc Record := do
  let a := (s.hart.csr.slotbase + BitVec.ofNat 64 (32 * n.toNat)).toNat
  checkPlain s .load a 32
  checkedRecord s a

/-- R72 checks 1 to 3: the slot of a tagged address. -/
def checkSlot (s : State) (k : Acc) (tag : BitVec 8) (a n : Nat) : Except Exc Unit :=
  if tag = 0 then .ok ()
  else if tag = 255 then .error (excAt 20 a)
  else do
    let r ← readRecord s tag
    if s.hart.genCache.find? tag.toNat ≠ some r.gen then throw (excAt 22 a)
    if r.isVoid ∨ (r.ro ∧ k.writes) then throw (excAt 21 a)
    if a < r.base ∨ r.base + r.size ≤ a then throw (excAt 21 a)
    if r.base + r.size < a + n then throw (excAt 21 (r.base + r.size))

/-- R72 check 4: alignment to `al` bytes. -/
def checkAlign (k : Acc) (a al : Nat) : Except Exc Unit :=
  if a % al = 0 then .ok () else .error (excAt (if k.writes then 19 else 18) a)

/-- R72 in its order, for an access of `n` bytes at `a` through a base tagged `tag`, aligned to `al` bytes (1: no
alignment is required). -/
def checkAccess (s : State) (k : Acc) (tag : BitVec 8) (a n al : Nat) : Except Exc Unit := do
  checkSlot s k tag a n
  checkAlign k a al
  checkPlain s k a n

/-- The watchpoint of mode U (R353): the first watched byte of an access raises cause 13 after R72's checks. -/
def checkWatch (s : State) (k : Acc) (a n : Nat) : Except Exc Unit :=
  let w := (slotCfg s s.hart.slot).watchpoint
  let on : Bool := match k with
    | .load => bit w 0
    | .store | .atomic => bit w 1
    | .fetch => false
  let g := field w 3 49 * 8
  if mode s = modeU ∧ on ∧ a < g + 8 ∧ g < a + n then .error (excAt 13 (max a g)) else .ok ()

/-- A byte of DRAM lies in a window of bytes, under either name. -/
def inSpan (base size x : Nat) : Bool := (placeOf x).isDram && base ≤ aliasAs base x && aliasAs base x < base + size

/-- An open accumulation window of the hart is touched (R190). -/
def checkWindow (s : State) (a n : Nat) : Except Exc Unit :=
  match s.hart.accWin with
  | some w => if (checkPoints a n).any (inSpan w.base w.size) then .error (excAt 44 w.base) else .ok ()
  | none => .ok ()

/-- The checks at issue of a hart's access: R72, the watchpoint, the hart's own accumulation window. -/
def checkIssue (s : State) (k : Acc) (tag : BitVec 8) (a n al : Nat) : Except Exc Unit := do
  checkAccess s k tag a n al
  checkWatch s k a n
  checkWindow s a n

/-- The checks at issue, and what the far side answers. -/
def checkFull (s : State) (k : Acc) (tag : BitVec 8) (a n al : Nat) : Except Exc Unit := do
  checkIssue s k tag a n al
  match farError s k a with
  | some e => throw e
  | none => pure ()

/-- The checks of the read of `waitw` and `vwait`: as a load, of bonded DRAM, else cause 26 before anything that the far side answers
(R179, R182). -/
def checkDram (s : State) (tag : BitVec 8) (x n : Nat) : Except Exc Unit := do
  checkIssue s .load tag x n n
  if !(placeOf x).isDram then throw (excAt 26 x)

/-! ### Writing bytes -/

/-- Two runs of bytes, each under one name, share a byte. -/
def overlaps (a n b m : Nat) : Bool :=
  let plain (a n b m : Nat) : Bool := n != 0 && m != 0 && a < b + m && b < a + n
  if (placeOf a).isDram ∧ (placeOf b).isDram ∧ placeOf a ≠ placeOf b then
    if n ≤ m then (pieces a n).any fun p => plain (aliasAs b p.1) p.2 b m
    else (pieces b m).any fun p => plain a n (aliasAs a p.1) p.2
  else plain a n b m

/-- Remove the poison of every granule that a run of `n` bytes from key `a` covers whole (R355). -/
def clearPoison (l : List Nat) (a n : Nat) : List Nat :=
  if l.isEmpty then [] else l.filter fun g => !(a ≤ 8 * g && 8 * g + 8 ≤ a + n)

/-- Write a run of bytes of one place, within one 4 KiB chunk: the one place where a hart's stores reach memory. -/
def storeBytes (s : State) (a : Nat) (bs : List Byte) : State :=
  match placeOf a with
  | .rows =>
    let k := rowWindowKey (a - localBase)
    { s with hart := { s.hart with
        rows := s.hart.rows.writeBytes k bs
        rowPoison := clearPoison s.hart.rowPoison k bs.length } }
  | .scratch j =>
    let id := feOf s.hart.slot
    let f := frontEnd s id
    let k := j * 0x100000 + (a - localBase) % 0x100000
    setFrontEnd s id { f with scratch := f.scratch.writeBytes k bs, scratchPoison := clearPoison f.scratchPoison k bs.length }
  | .scalarMem =>
    let id := feOf s.hart.slot
    let f := frontEnd s id
    setFrontEnd s id { f with sdm := f.sdm.writeBytes (a - localBase - 0x800000) bs }
  | .device => deviceStore s (a - deviceBase) bs
  | _ =>
    { s with mem := s.mem.writeBytes (canon a) bs, poison := clearPoison s.poison (canon a) bs.length }

/-- A store of bytes at an address gives a device register a value that its layout does not allow: cause 1 (R6, R8). -/
def badDevice (s : State) (a : Nat) (bs : List Byte) : Bool := placeOf a = .device && deviceFail s (a - deviceBase) bs

/-- Mark the granules that a run of `n` bytes touches as poisoned. -/
def addPoison (l : List Nat) (a n : Nat) : List Nat :=
  if n = 0 then l
  else (List.range ((a + n - 1) / 8 - a / 8 + 1)).foldl (fun l i => insertNat (a / 8 + i) l) l

/-- Poison the granules of a run of bytes of one place (R355). -/
def poisonBytes (s : State) (a n : Nat) : State :=
  match placeOf a with
  | .rows => { s with hart := { s.hart with rowPoison := addPoison s.hart.rowPoison (rowWindowKey (a - localBase)) n } }
  | .scratch j =>
    let id := feOf s.hart.slot
    let f := frontEnd s id
    setFrontEnd s id { f with scratchPoison := addPoison f.scratchPoison (j * 0x100000 + (a - localBase) % 0x100000) n }
  | .scalarMem | .device => s
  | _ => { s with poison := addPoison s.poison (canon a) n }

end Sys2Proof.Machine
end

