-- ==== Sys2Proof/Machine/Float.lean ====
section
/-!
DEFINITION. Number formats, rounding and exact arithmetic (chapter "Number formats, rounding and sums").

A finite value is an exact dyadic number; every operation computes exactly (a quotient or a root keeps a sticky bit) and
is rounded once by `roundTo` (R210 to R212).  Flags are five bits: NV 16, DZ 8, OF 4, UF 2, NX 1 (R59).
-/

namespace Sys2Proof.Machine

/-- Sticky FP flags: bit 4 NV, 3 DZ, 2 OF, 1 UF, 0 NX (R59). -/
abbrev Flags := BitVec 5

def flagNV : Flags := 16
def flagDZ : Flags := 8
def flagOF : Flags := 4
def flagUF : Flags := 2
def flagNX : Flags := 1

/-- The flag, if the condition holds. -/
def flagIf (c : Bool) (f : Flags) : Flags := if c then f else 0

/-- Rounding modes (R58, R210). -/
inductive Rm where
  | rne | rtz | rdn | rup | sr
  deriving DecidableEq, Repr

/-- The rounding mode of a code 0 to 4. -/
def Rm.ofCode : Nat → Option Rm
  | 0 => some .rne
  | 1 => some .rtz
  | 2 => some .rdn
  | 3 => some .rup
  | 4 => some .sr
  | _ => none

/-- A binary floating-point format (R203). -/
structure Fmt where
  width : Nat
  expBits : Nat
  fracBits : Nat
  bias : Nat
  /-- `e4m3` has no infinities, and its one NaN takes the top code (R204) -/
  noInf : Bool
  deriving DecidableEq, Repr

def fmtF32 : Fmt := { width := 32, expBits := 8, fracBits := 23, bias := 127, noInf := false }
def fmtF16 : Fmt := { width := 16, expBits := 5, fracBits := 10, bias := 15, noInf := false }
def fmtBf16 : Fmt := { width := 16, expBits := 8, fracBits := 7, bias := 127, noInf := false }
def fmtE5m2 : Fmt := { width := 8, expBits := 5, fracBits := 2, bias := 15, noInf := false }
def fmtE4m3 : Fmt := { width := 8, expBits := 4, fracBits := 3, bias := 7, noInf := true }

/-- The smallest normal exponent. -/
def Fmt.emin (f : Fmt) : Int := 1 - (f.bias : Int)
/-- The exponent of the largest finite value. -/
def Fmt.emax (f : Fmt) : Int := (2 ^ f.expBits : Int) - (if f.noInf then 1 else 2) - f.bias
/-- The significand of the largest finite value, with `fracBits + 1` bits. -/
def Fmt.maxMan (f : Fmt) : Nat := 2 ^ (f.fracBits + 1) - (if f.noInf then 2 else 1)

/-- The bits of an infinity. -/
def Fmt.infBits (f : Fmt) (neg : Bool) : Nat := b2n neg * 2 ^ (f.width - 1) + (2 ^ f.expBits - 1) * 2 ^ f.fracBits
/-- The bits of the largest finite value. -/
def Fmt.maxBits (f : Fmt) (neg : Bool) : Nat :=
  b2n neg * 2 ^ (f.width - 1) + (f.emax + f.bias).toNat * 2 ^ f.fracBits + (f.maxMan - 2 ^ f.fracBits)
/-- The canonical NaN (R205). -/
def Fmt.nanBits (f : Fmt) : Nat :=
  if f.noInf then 2 ^ (f.width - 1) - 1 else (2 ^ f.expBits - 1) * 2 ^ f.fracBits + 2 ^ (f.fracBits - 1)

/-- A value: NaN (signalling or not), an infinity, or an exact dyadic number `± man × 2 ^ exp`. -/
inductive FVal where
  | nan (signalling : Bool)
  | inf (neg : Bool)
  | fin (neg : Bool) (man : Nat) (exp : Int)
  deriving DecidableEq, Repr

/-- The value of a bit pattern (R204). -/
def Fmt.decode (f : Fmt) (x : Nat) : FVal :=
  let neg := x / 2 ^ (f.width - 1) % 2 == 1
  let e := x / 2 ^ f.fracBits % 2 ^ f.expBits
  let m := x % 2 ^ f.fracBits
  if e = 0 then .fin neg m (f.emin - f.fracBits)
  else if e = 2 ^ f.expBits - 1 ∧ (!f.noInf ∨ m = 2 ^ f.fracBits - 1) then
    if f.noInf then .nan false
    else if m = 0 then .inf neg
    else .nan (m / 2 ^ (f.fracBits - 1) % 2 == 0)
  else .fin neg (m + 2 ^ f.fracBits) ((e : Int) - f.bias - f.fracBits)

/-- The value is a NaN. -/
def FVal.isNan : FVal → Bool
  | .nan _ => true
  | _ => false

/-- The value is a signalling NaN. -/
def FVal.isSnan : FVal → Bool
  | .nan s => s
  | _ => false

/-- The value is a zero of either sign. -/
def FVal.isZero : FVal → Bool
  | .fin _ 0 _ => true
  | _ => false

/-- The sign of a value; a NaN counts as positive. -/
def FVal.neg : FVal → Bool
  | .nan _ => false
  | .inf n => n
  | .fin n _ _ => n

/-- The value with its sign reversed. -/
def FVal.negate : FVal → FVal
  | .nan s => .nan s
  | .inf n => .inf (!n)
  | .fin n m e => .fin (!n) m e

/-- NV when one of the operands is a signalling NaN (R205, R212). -/
def snanFlag (xs : List FVal) : Flags := flagIf (xs.any FVal.isSnan) flagNV

/-- The exact value of an integer. -/
def FVal.ofInt (x : Int) : FVal := .fin (x < 0) x.natAbs 0

/-! ### Rounding (R210 to R214) -/

/-- Whether a magnitude `n + rem / 2^d` (0 < rem < 2^d) is rounded away from zero. `u` is the stochastic sample. -/
def roundsUp (rm : Rm) (neg : Bool) (n rem d u : Nat) : Bool :=
  match rm with
  | .rne => 2 ^ d < 2 * rem || (2 * rem == 2 ^ d && n % 2 == 1)
  | .rtz => false
  | .rdn => neg
  | .rup => !neg
  | .sr => if neg then !(u * 2 ^ d < 65536 * (2 ^ d - rem)) else u * 2 ^ d < 65536 * rem

/-- A magnitude `man × 2 ^ exp` as a multiple of `2 ^ q`, rounded: the multiple, and whether it is inexact. -/
def roundMag (rm : Rm) (neg : Bool) (man : Nat) (exp q : Int) (u : Nat) : Nat × Bool :=
  if q ≤ exp then (man * 2 ^ (exp - q).toNat, false)
  else
    let d := (q - exp).toNat
    let n := man / 2 ^ d
    let rem := man % 2 ^ d
    if rem = 0 then (n, false) else (n + b2n (roundsUp rm neg n rem d u), true)

/-- What a finite overflow gives (R211). -/
def overflowBits (f : Fmt) (sat : Bool) (rm : Rm) (neg : Bool) : Nat :=
  if sat then f.maxBits neg
  else if f.noInf then f.nanBits
  else match rm with
    | .rne | .sr => f.infBits neg
    | .rtz => f.maxBits neg
    | .rdn => if neg then f.infBits neg else f.maxBits neg
    | .rup => if neg then f.maxBits neg else f.infBits neg

/-- Round a nonzero dyadic number to a format (R210): its bits and flags. -/
def roundFin (f : Fmt) (sat : Bool) (rm : Rm) (u : Nat) (neg : Bool) (man : Nat) (exp : Int) : Nat × Flags :=
  let sign := b2n neg * 2 ^ (f.width - 1)
  let e := max ((Nat.log2 man : Int) + exp) f.emin
  let q := e - f.fracBits
  let (n, inexact) := roundMag rm neg man exp q u
  -- a carry out of the significand moves to the next binade
  let (n, e) := if n = 2 ^ (f.fracBits + 1) then (2 ^ f.fracBits, e + 1) else (n, e)
  if f.emax < e ∨ (e = f.emax ∧ f.maxMan < n) then (overflowBits f sat rm neg, flagOF ||| flagNX)
  else if n < 2 ^ f.fracBits then (sign + n, flagIf inexact (flagUF ||| flagNX))
  else (sign + (e + f.bias).toNat * 2 ^ f.fracBits + (n - 2 ^ f.fracBits), flagIf inexact flagNX)

/-- `round_to` (R210, R211): bits and flags; the NV of a signalling operand is the operation's own matter. -/
def roundTo (f : Fmt) (sat : Bool) (rm : Rm) (u : Nat) (x : FVal) : Nat × Flags :=
  match x with
  | .nan s => (f.nanBits, flagIf s flagNV)
  | .inf neg =>
    if f.noInf then (if sat then f.maxBits neg else f.nanBits, flagNV) else (f.infBits neg, 0)
  | .fin neg 0 _ => (b2n neg * 2 ^ (f.width - 1), 0)
  | .fin neg man exp => roundFin f sat rm u neg man exp

/-- `widen` (R206): the same value in a wider format, without a flag. -/
def widenBits (f : Fmt) (x : FVal) : Nat := (roundTo f false .rne 0 x).1

/-- One step of the stochastic-rounding register (R214). -/
def lfsrStep (s : BitVec 32) : BitVec 32 :=
  let b := s.getLsbD 31 ^^ s.getLsbD 21 ^^ s.getLsbD 1 ^^ s.getLsbD 0
  (s <<< 1) ||| (if b then 1 else 0)

/-- Sixteen steps: one sample (R214). -/
def lfsr16 (s : BitVec 32) : BitVec 32 := Nat.repeat lfsrStep 16 s

/-! ### Exact arithmetic -/

/-- The signed multiple of `2 ^ e` that a dyadic number is, for `e` at most its exponent. -/
def finInt (neg : Bool) (man : Nat) (exp e : Int) : Int :=
  let x : Int := man * 2 ^ (exp - e).toNat
  if neg then -x else x

/-- The sum of two values (R210, R212) and its invalid flag. Two zeros of one sign keep it; any other exactly zero sum is
+0, and −0 under RDN (log 42). -/
def FVal.add (rm : Rm) (x y : FVal) : FVal × Flags :=
  match x, y with
  | .nan s, z => (.nan false, flagIf (s || z.isSnan) flagNV)
  | _, .nan s => (.nan false, flagIf s flagNV)
  | .inf a, .inf b => if a = b then (.inf a, 0) else (.nan false, flagNV)
  | .inf a, _ => (.inf a, 0)
  | _, .inf b => (.inf b, 0)
  | .fin a m e, .fin b n f =>
    let g := min e f
    let t := finInt a m e g + finInt b n f g
    if t = 0 then
      if m = 0 ∧ n = 0 ∧ a = b then (.fin a 0 0, 0) else (.fin (rm = .rdn) 0 0, 0)
    else (.fin (t < 0) t.natAbs g, 0)

/-- The product of two values. -/
def FVal.mul (x y : FVal) : FVal × Flags :=
  match x, y with
  | .nan s, z => (.nan false, flagIf (s || z.isSnan) flagNV)
  | _, .nan s => (.nan false, flagIf s flagNV)
  | .inf a, z => if z.isZero then (.nan false, flagNV) else (.inf (a != z.neg), 0)
  | z, .inf b => if z.isZero then (.nan false, flagNV) else (.inf (b != z.neg), 0)
  | .fin a m e, .fin b n f => (.fin (a != b) (m * n) (e + f), 0)

/-- `x × y + z` (R117, R231): the product's invalid flag stands even when `z` is a quiet NaN. -/
def FVal.fma (rm : Rm) (x y z : FVal) : FVal × Flags :=
  let p := FVal.mul x y
  let t := FVal.add rm p.1 z
  (t.1, p.2 ||| t.2)

/-- The quotient of two values; an inexact one carries a sticky low bit. -/
def FVal.div (x y : FVal) : FVal × Flags :=
  match x, y with
  | .nan s, z => (.nan false, flagIf (s || z.isSnan) flagNV)
  | _, .nan s => (.nan false, flagIf s flagNV)
  | .inf _, .inf _ => (.nan false, flagNV)
  | .inf a, z => (.inf (a != z.neg), 0)
  | z, .inf b => (.fin (z.neg != b) 0 0, 0)
  | .fin a m e, .fin b n f =>
    if n = 0 then if m = 0 then (.nan false, flagNV) else (.inf (a != b), flagDZ)
    else
      let q := m * 2 ^ 80 / n
      let r := m * 2 ^ 80 % n
      (.fin (a != b) (2 * q + b2n (r != 0)) (e - f - 81), 0)

/-- The integer square root, digit by digit over the bits `k − 1` to 0 of the root. -/
def isqrtGo (x : Nat) : Nat → Nat → Nat
  | 0, r => r
  | k + 1, r => isqrtGo x k (if (r + 2 ^ k) * (r + 2 ^ k) ≤ x then r + 2 ^ k else r)

/-- The integer square root. -/
def isqrt (x : Nat) : Nat := isqrtGo x (Nat.log2 x / 2 + 1) 0

/-- A dyadic number with an even exponent. -/
def evenExp (m : Nat) (e : Int) : Nat × Int := if e % 2 = 0 then (m, e) else (2 * m, e - 1)

/-- The square root (R117, R232). -/
def FVal.sqrt (x : FVal) : FVal × Flags :=
  match x with
  | .nan s => (.nan false, flagIf s flagNV)
  | .inf neg => if neg then (.nan false, flagNV) else (.inf false, 0)
  | .fin neg 0 _ => (.fin neg 0 0, 0)
  | .fin true _ _ => (.nan false, flagNV)
  | .fin false m e =>
    let (m, e) := evenExp m e
    let t := m * 2 ^ 120
    let r := isqrt t
    (.fin false (2 * r + b2n (r * r != t)) (e / 2 - 61), 0)

/-- The reciprocal square root (R232). -/
def FVal.rsqrt (x : FVal) : FVal × Flags :=
  match x with
  | .nan s => (.nan false, flagIf s flagNV)
  | .inf neg => if neg then (.nan false, flagNV) else (.fin false 0 0, 0)
  | .fin neg 0 _ => (.inf neg, flagDZ)
  | .fin true _ _ => (.nan false, flagNV)
  | .fin false m e =>
    let (m, e) := evenExp m e
    let r := isqrt (2 ^ 240 / m)
    (.fin false (2 * r + b2n (r * r * m != 2 ^ 240)) (-(e / 2) - 121), 0)

/-- The order of two values that are no NaN: `lt`, `eq`, `gt`; zeros are equal. -/
def FVal.cmp (x y : FVal) : Ordering :=
  let key (v : FVal) (g : Int) : Int :=
    match v with
    | .fin n m e => finInt n m e g
    | _ => 0
  match x, y with
  | .inf a, .inf b => if a = b then .eq else if a then .lt else .gt
  | .inf a, _ => if a then .lt else .gt
  | _, .inf b => if b then .gt else .lt
  | .fin _ _ e, .fin _ _ f => compare (key x (min e f)) (key y (min e f))
  | _, _ => .eq

/-- The lesser or greater value (R117, R219): −0 below +0, one NaN gives the other operand. -/
def FVal.minMax (wantMax : Bool) (x y : FVal) : FVal :=
  if x.isNan then y
  else if y.isNan then x
  else
    let less := match FVal.cmp x y with
      | .lt => true
      | .gt => false
      | .eq => x.neg && !y.neg
    if less != wantMax then x else y

/-- A value rounded to an integer (R118, R213, R232): the integer and whether it is inexact. -/
def roundInt (rm : Rm) (u : Nat) (neg : Bool) (man : Nat) (exp : Int) : Int × Bool :=
  let (n, ix) := roundMag rm neg man exp 0 u
  (if neg then -(n : Int) else n, ix)

/-- A float-to-integer conversion to the range `lo` to `hi` (R118, R213): a NaN gives the largest value. -/
def FVal.toInt (rm : Rm) (lo hi : Int) (x : FVal) : Int × Flags :=
  match x with
  | .nan _ => (hi, flagNV)
  | .inf neg => (if neg then lo else hi, flagNV)
  | .fin neg man exp =>
    let (n, ix) := roundInt rm 0 neg man exp
    if n < lo then (lo, flagNV) else if hi < n then (hi, flagNV) else (n, flagIf ix flagNX)

/-- `fclass` (R117) of an FP32 pattern: the number of the one bit that is set. -/
def fclassBit (x : Nat) : Nat :=
  let f := fmtF32
  match f.decode x with
  | .nan s => if s then 8 else 9
  | .inf neg => if neg then 0 else 7
  | .fin neg man _ =>
    if man = 0 then if neg then 3 else 4
    else if man < 2 ^ f.fracBits then if neg then 2 else 5
    else if neg then 1 else 6

/-! ### The `f4b` block format (R207 to R209, R216) -/

/-- The magnitudes of codes 0 to 7 under scale type T, in units of 2^−6 (R208). -/
def codeMag (t c : Nat) : Nat :=
  match t with
  | 0 => 64 * c
  | 1 => match c with
    | 0 => 0 | 1 => 32 | 2 => 64 | 3 => 96 | 4 => 128 | 5 => 192 | 6 => 256 | _ => 384
  | 2 => if c = 0 then 0 else 2 ^ (c - 1)
  | _ => match c with
    | 0 => 0 | 1 => 64 | 2 => 128 | 3 => 192 | 4 => 256 | 5 => 512 | 6 => 1024 | _ => 2048

/-- `code_value` in units of 2^−6 (R208). -/
def codeValue (t c : Nat) : Int :=
  if t = 0 then 64 * toSigned 4 c
  else if 8 ≤ c then -(codeMag t (c - 8) : Int) else codeMag t c

/-- The value of an `f4b` element under its scale byte (R209). -/
def f4bVal (scale c : Nat) : FVal :=
  let e := scale % 64
  let t := scale / 64 % 4
  if e = 63 then .nan false
  else .fin (if t = 0 then decide (8 ≤ c) else 8 ≤ c) (codeValue t c).natAbs ((e : Int) - 38)

/-- The least and the greatest value of scale type T in units of 2^−6 (R216). -/
def codeRange (t : Nat) : Int × Int :=
  match t with
  | 0 => (-512, 448)
  | 1 => (-384, 384)
  | 2 => (-64, 64)
  | _ => (-2048, 2048)

/-- The codes of scale type T that stand for distinct values, with −0 left out (R216). -/
def distinctCodes (t : Nat) : List Nat :=
  if t = 0 then List.range 16 else (List.range 16).filter (· != 8)

/-- `x` in units of 2^−200: an exact integer for every element that is quantised. -/
def quantUnits (x : FVal) : Int :=
  match x with
  | .fin neg man exp => finInt neg man exp (-200)
  | _ => 0

/-- The value of a code under scale T, E in units of 2^−200. -/
def codeUnits (t e c : Nat) : Int := codeValue t c * 2 ^ (e + 162)

/-- The smallest E whose range holds every element, else 62 (R216). -/
def chooseE (t : Nat) (xs : List Int) : Nat :=
  let r := codeRange t
  let fits (e : Nat) : Bool := xs.all fun x => r.1 * 2 ^ (e + 162) ≤ x && x ≤ r.2 * 2 ^ (e + 162)
  ((List.range 63).find? fits).getD 62

/-- The greatest code value at or below `x` and the least at or above it, as codes; absent beyond the ends. -/
def codeBelow (t e : Nat) (x : Int) : Option Nat :=
  (distinctCodes t).foldl (fun b c =>
    if codeUnits t e c ≤ x then
      match b with
      | none => some c
      | some d => if codeUnits t e d < codeUnits t e c then some c else some d
    else b) none

def codeAbove (t e : Nat) (x : Int) : Option Nat :=
  (distinctCodes t).foldl (fun b c =>
    if x ≤ codeUnits t e c then
      match b with
      | none => some c
      | some d => if codeUnits t e c < codeUnits t e d then some c else some d
    else b) none

/-- `round_code` (R216): the code, and the flags of one element. -/
def roundCode (t e : Nat) (rm : Rm) (u : Nat) (x : Int) : Nat × Flags :=
  match codeBelow t e x, codeAbove t e x with
  | some l, some h =>
    let lo := codeUnits t e l
    let hi := codeUnits t e h
    if lo = hi then (l, 0)
    else
      let up : Bool := match rm with
        | .rne => hi - x < x - lo || (hi - x == x - lo && h % 2 == 0)
        | .rtz => x < 0
        | .rdn => false
        | .rup => true
        | .sr => (u : Int) * (hi - lo) < 65536 * (x - lo)
      let c := if up then h else l
      (c, flagNX ||| flagIf (codeUnits t e c == 0) flagUF)
  | some l, none => (l, flagOF ||| flagNX)
  | none, some h => (h, flagOF ||| flagNX)
  | none, none => (0, 0)

/-- The greatest error of a block under scale type T with its E. -/
def blockError (t e : Nat) (xs : List Int) : Int :=
  xs.foldl (fun m x => max m (x - codeUnits t e (roundCode t e .rne 0 x).1).natAbs) 0

/-- The scale type with the least error, the lower on a tie (R216). -/
def chooseT (xs : List Int) : Nat :=
  let errs := [0, 1, 2, 3].map fun t => (t, blockError t (chooseE t xs) xs)
  (errs.foldl (fun b c => if c.2 < b.2 then c else b) (0, blockError 0 (chooseE 0 xs) xs)).1

/-- `quant_block` (R216): the scale byte, the codes, the flags. `us` holds one stochastic sample per element. -/
def quantBlock (rm : Rm) (us : List Nat) (vals : List FVal) : Nat × List Nat × Flags :=
  if vals.any (fun v => match v with | .fin _ _ _ => false | _ => true) then
    (0x3F, vals.map fun _ => 0, flagIf (vals.any fun v => match v with | .inf _ => true | .nan s => s | _ => false) flagNV)
  else
    let xs := vals.map quantUnits
    let t := chooseT xs
    let e := chooseE t xs
    let cs := (xs.zip us).map fun p => roundCode t e rm p.2 p.1
    (t * 64 + e, cs.map (·.1), cs.foldl (fun f c => f ||| c.2) 0)

/-! ### The matrix step (R221) -/

/-- The exact sum of finite values as a dyadic number. -/
def sumFin (xs : List FVal) : Int × Int :=
  let g := xs.foldl (fun m x => match x with | .fin _ _ e => min m e | _ => m) 0
  (xs.foldl (fun t x => match x with | .fin n m e => t + finInt n m e g | _ => t) 0, g)

/-- The single-rounding step: accumulator bits and the exact products (R221). -/
def matrixStep (acc : Nat) (prods : List FVal) : Nat :=
  let a := fmtF32.decode acc
  let all := a :: prods
  let hasInf (neg : Bool) : Bool := all.any (· == .inf neg)
  if all.any FVal.isNan ∨ (hasInf true ∧ hasInf false) then fmtF32.nanBits
  else if hasInf true then fmtF32.infBits true
  else if hasInf false then fmtF32.infBits false
  else
    let (t, g) := sumFin all
    if t = 0 then
      if all.all (fun v => v.isZero && v.neg) then 2 ^ 31 else 0
    else (roundTo fmtF32 false .rne 0 (.fin (t < 0) t.natAbs g)).1

end Sys2Proof.Machine
end

