-- ==== Sys2Proof/Machine/Vec.lean ====
section
/-!
DEFINITION. Vector data: element types, element images in register-store rows, windows, masks, lease sets of vector
results, and the checks at issue that every vector instruction shares (R18, R50 to R58, R223 to R228).
-/

namespace Sys2Proof.Machine

/-! ### Element types (R202, R203, R207) -/

/-- The width of an element in bits. -/
def tyWidth : ElemTy → Nat
  | .i8 | .n8 | .e4m3 | .e5m2 => 8
  | .i16 | .n16 | .f16 | .bf16 => 16
  | .i32 | .n32 | .f32 => 32
  | .i64 | .n64 => 64
  | .f4b => 4

/-- Integer types, codes 0 to 7. -/
def tyIsInt : ElemTy → Bool
  | .i8 | .i16 | .i32 | .i64 | .n8 | .n16 | .n32 | .n64 => true
  | _ => false

/-- Two's complement types. -/
def tyIsSigned : ElemTy → Bool
  | .i8 | .i16 | .i32 | .i64 => true
  | _ => false

/-- The class "float" of R223. -/
def tyIsFloat : ElemTy → Bool
  | .f32 | .f16 | .bf16 => true
  | _ => false

/-- The classes "float" and "narrow float" of R223. -/
def tyIsAnyFloat : ElemTy → Bool
  | .f32 | .f16 | .bf16 | .e4m3 | .e5m2 => true
  | _ => false

/-- The format of a floating-point type; FP32 for a type that is none. -/
def tyFmt : ElemTy → Fmt
  | .f16 => fmtF16
  | .bf16 => fmtBf16
  | .e4m3 => fmtE4m3
  | .e5m2 => fmtE5m2
  | _ => fmtF32

/-- The range of an integer type (R202). -/
def tyMin (t : ElemTy) : Int := if tyIsSigned t then -(2 ^ (tyWidth t - 1) : Int) else 0
def tyMax (t : ElemTy) : Int := if tyIsSigned t then 2 ^ (tyWidth t - 1) - 1 else 2 ^ tyWidth t - 1

/-- An element read as an integer, signed or natural by its type. -/
def tyInt (t : ElemTy) (x : Nat) : Int := if tyIsSigned t then toSigned (tyWidth t) x else (x % 2 ^ tyWidth t : Nat)

/-- `wrap_int` (R202). -/
def wrapInt (t : ElemTy) (x : Int) : Nat := ofSigned (tyWidth t) x

/-- `sat_int` (R202): the element and whether it was clamped. -/
def satInt (t : ElemTy) (x : Int) : Nat × Bool :=
  if x < tyMin t then (wrapInt t (tyMin t), true)
  else if tyMax t < x then (wrapInt t (tyMax t), true)
  else (wrapInt t x, false)

/-- `fit` (R230): clamped when `vtype`.sat is 1, else wrapped. -/
def fitInt (sat : Bool) (t : ElemTy) (x : Int) : Nat × Bool := if sat then satInt t x else (wrapInt t x, false)

/-! ### `vl`, `vtype` (R58) -/

def vlOf (s : State) : Nat := s.hart.csr.vl.toNat
def vstartOf (s : State) : Nat := s.hart.csr.vstart.toNat

/-- Fields of `vtype`. -/
def vtSat (t : BitVec 10) : Bool := bit t 9
def vtRm (t : BitVec 10) : Nat := field t 6 3
def vtBlk (t : BitVec 10) : Nat := field t 4 2
def vtTy (t : BitVec 10) : Nat := field t 0 4

/-- The block length of a blk code (R58). -/
def blkLen (b : Nat) : Nat := if b = 0 then 0 else 8 * 2 ^ b

/-- `vtype` does not serve the instruction: cause 33 with the `vtype` value (R58, R354). -/
def vtypeExc (s : State) : Exc := { code := 33, tval := s.hart.csr.vtype.zeroExtend 64 }

/-- The mode under which an instruction runs, when `vtype` is valid: its type, its rounding mode, its sat bit. -/
structure VMode where
  ty : ElemTy
  rm : Rm
  sat : Bool
  blk : Nat
  deriving DecidableEq, Repr

/-- R58 for an instruction that reads `vtype`; `srOk` says whether the rounding mode SR is permitted for a type. -/
def vmode (s : State) (srOk : ElemTy → Bool) : Except Exc VMode :=
  let t := s.hart.csr.vtype
  match ElemTy.ofCode (vtTy t), Rm.ofCode (vtRm t) with
  | some ty, some rm =>
    if (ty = .f4b ∧ vtBlk t = 0) ∨ (rm = .sr ∧ !srOk ty) then .error (vtypeExc s)
    else .ok { ty := ty, rm := rm, sat := vtSat t, blk := blkLen (vtBlk t) }
  | _, _ => .error (vtypeExc s)

/-- The instruction accepts no stochastic rounding. -/
def noSr : ElemTy → Bool := fun _ => false

/-- The targets that R58 permits SR for in a conversion. -/
def srTarget : ElemTy → Bool
  | .bf16 | .e4m3 | .e5m2 | .f4b => true
  | _ => false

/-- Require a type class, else cause 33 (R223). -/
def needTy (s : State) (ok : Bool) : Except Exc Unit := if ok then .ok () else .error (vtypeExc s)

/-! ### Element images (R18) -/

/-- Bytes of a row over the slabs that the instruction sees. -/
def rowBytes (s : State) : Nat := 256 * slabs s

/-- The key of byte `b` of the image of a window that starts at row `base`. -/
def imageKey (s : State) (base b : Nat) : Nat :=
  (base + b / rowBytes s) * 1024 + slab0 s * 256 + b % rowBytes s

/-- Element `i` of width `w` in the image that starts at row `base`. -/
def readElem (s : State) (base w i : Nat) : Nat :=
  if w = 4 then
    let x := (s.hart.rows.read (imageKey s base (i / 2))).toNat
    if i % 2 = 0 then x % 16 else x / 16
  else s.hart.rows.readNat (imageKey s base (i * (w / 8))) (w / 8)

/-- The element holds a byte of a poisoned granule (R355). -/
def elemPoisoned (s : State) (base w i : Nat) : Bool :=
  !s.hart.rowPoison.isEmpty && s.hart.rowPoison.contains (imageKey s base (i * w / 8) / 8)

/-- Rows with one element written. -/
def rowsSetElem (s : State) (rows : Mem) (base w i x : Nat) : Mem :=
  if w = 4 then
    let k := imageKey s base (i / 2)
    let old := (rows.read k).toNat
    rows.write k (BitVec.ofNat 8 (if i % 2 = 0 then old / 16 * 16 + x % 16 else old % 16 + x % 16 * 16))
  else rows.writeBytes (imageKey s base (i * (w / 8))) (leBytes (w / 8) x)

/-- A granule of the rows whose every byte belongs to one of the written elements. -/
def granuleWritten (s : State) (base w : Nat) (idxs : List Nat) (g : Nat) : Bool :=
  (List.range (64 / w)).all fun j =>
    idxs.any fun i => imageKey s base (i * w / 8) / 8 = g && i * w % 64 == j * w

/-- Write a list of elements of a window. -/
def writeElems (s : State) (base w : Nat) (xs : List (Nat × Nat)) : State :=
  let poison :=
    if s.hart.rowPoison.isEmpty then [] else s.hart.rowPoison.filter fun g => !granuleWritten s base w (xs.map (·.1)) g
  { s with hart := { s.hart with
      rows := xs.foldl (fun r x => rowsSetElem s r base w x.1 x.2) s.hart.rows
      rowPoison := poison } }

/-! ### Windows (R50, R55, R226) -/

/-- A window operand: its register number, its window, the width at which it is read or written. -/
structure WinOp where
  num : Nat
  win : Window
  width : Nat
  deriving DecidableEq, Repr

/-- Vector register `v` accessed at width `w`. -/
def winOf (s : State) (v : Reg) (w : Nat) : WinOp := { num := v.toNat, win := (vreg s v).win, width := w }

/-- The window's rows lie in the depth range, else cause 24 with the first row that does not (R50, R354). -/
def checkRows (s : State) (w : Window) : Except Exc Unit :=
  if w.base.toNat + w.len.toNat ≤ depthRows s then .ok ()
  else .error { code := 24, tval := BitVec.ofNat 64 (max w.base.toNat (depthRows s)) }

/-- R50's three conditions for a window that must hold `n` elements: 32, 24, 34. -/
def checkWin (s : State) (o : WinOp) (n : Nat) : Except Exc Unit := do
  if o.win.len = 0 then throw { code := 32, tval := BitVec.ofNat 64 o.num }
  checkRows s o.win
  if o.win.len.toNat * (8 * rowBytes s) < n * o.width then throw { code := 34, tval := BitVec.ofNat 64 o.num }

/-- R50 for a list of operands. -/
def checkWins (s : State) (os : List WinOp) (n : Nat) : Except Exc Unit := os.forM (checkWin s · n)

/-- Two windows share a row; one without rows shares none. -/
def Window.shares (a b : Window) : Bool :=
  a.len != 0 && b.len != 0 &&
  a.base.toNat < b.base.toNat + b.len.toNat && b.base.toNat < a.base.toNat + a.len.toNat

/-- R226: a destination that shares a row with a source raises cause 32, unless the instruction is element-wise and the
two windows start at one row and have one width. -/
def checkOverlap (elementwise : Bool) (d : WinOp) (srcs : List WinOp) : Except Exc Unit :=
  if srcs.any fun o => d.win.shares o.win && !(elementwise && d.win.base == o.win.base && d.width == o.width) then
    .error { code := 32, tval := BitVec.ofNat 64 d.num }
  else .ok ()

/-- A scale window must hold `n` bytes: cause 40, then rows beyond the range: cause 24 (R55). -/
def checkScale (s : State) (k : Reg3) (n : Nat) : Except Exc Unit := do
  let w := (kreg s k).win
  if w.len = 0 ∨ w.len.toNat * rowBytes s < n then throw { code := 40, tval := BitVec.ofNat 64 k.toNat }
  checkRows s w

/-! ### Masks -/

/-- The bits that a mask holds: the hart's greatest vector length for 4-bit elements (R54). -/
def maskBits (s : State) : Nat := depthRows s * 2048 * slabs s / 4

/-- The indexes from `lo` to `hi − 1`. -/
def indexes (lo hi : Nat) : List Nat := (List.range (hi - lo)).map (lo + ·)

/-- The active elements of an instruction from `lo` to `hi − 1`. -/
def activeIdx (s : State) (m : Reg3) (lo hi : Nat) : List Nat := (indexes lo hi).filter (maskBit s m)

/-- A mask with its bits at the listed positions replaced. -/
def setBits (old : Nat) (xs : List (Nat × Bool)) : Nat :=
  xs.foldl (fun b x => if b.testBit x.1 = x.2 then b else b ^^^ 2 ^ x.1) old

/-! ### Lease sets of vector results (R52, R227) -/

/-- The rows that a list of elements lies in. -/
def rowsOf (s : State) (base w : Nat) (idxs : List Nat) : List Nat :=
  idxs.foldl (fun l i => insertNat (base + i * w / (8 * rowBytes s)) l) []

/-- The window holds one of the rows. -/
def Window.hasRow (w : Window) (rows : List Nat) : Bool :=
  rows.any fun r => w.base.toNat ≤ r && r < w.base.toNat + w.len.toNat

/-- Give every vector register other than `v` and every scale register other than `k`, whose window holds a written row,
the lease set as well (R52). -/
def spreadLease (s : State) (v : Option Reg) (k : Option Reg3) (rows : List Nat) (l : LeaseSet) : State :=
  if l = {} then s
  else
    { s with hart := { s.hart with
        vregs := s.hart.vregs.mapFinIdx fun i x _ =>
          if v.map (·.toNat) ≠ some i ∧ x.win.hasRow rows then { x with lease := x.lease.union l } else x
        kregs := s.hart.kregs.mapFinIdx fun i x _ =>
          if k.map (·.toNat) ≠ some i ∧ x.win.hasRow rows then { x with lease := x.lease.union l } else x } }

/-- The lease sets after vector register `v` has been written: replaced by a whole unmasked write, else joined (R52). -/
def leaseWritten (s : State) (v : Reg) (whole : Bool) (rows : List Nat) (l : LeaseSet) : State :=
  let x := vreg s v
  spreadLease (setVreg s v { x with lease := if whole then l else x.lease.union l }) (some v) none rows l

/-- The progress index of `v` with a count of groups (R53). -/
def setIndex (s : State) (v : Reg) (n : Nat) (busy : Bool) : State :=
  setVreg s v { vreg s v with busy := busy, groups := BitVec.ofNat 12 n }

/-- The progress index of `v` when the elements of width `w` below element `n` are committed (R53): whole groups, or all of
them. -/
def setGroups (s : State) (v : Reg) (w n : Nat) (busy : Bool) : State :=
  setIndex s v (if vlOf s ≤ n then ceilDiv (vlOf s * w) (8 * rowBytes s) else n * w / (8 * rowBytes s)) busy

/-! ### CSR effects of vector instructions -/

/-- Set `vstart`. -/
def setVstart (s : State) (k : Nat) : State :=
  { s with hart := { s.hart with csr := { s.hart.csr with vstart := BitVec.ofNat 64 k } } }

/-- Set `vrestart` (R351). -/
def setVrestart (s : State) (k : Nat) : State :=
  { s with hart := { s.hart with csr := { s.hart.csr with vrestart := BitVec.ofNat 64 k } } }

/-- Join flags and the saturation bit into `vxstat` (R59, R229). -/
def addVxstat (s : State) (f : Flags) (sat : Bool) : State :=
  { s with hart := { s.hart with csr := { s.hart.csr with
      vxstat := s.hart.csr.vxstat ||| f.zeroExtend 6 ||| (if sat then 32 else 0) } } }

/-- Set the stochastic-rounding register. -/
def setRnd (s : State) (r : BitVec 32) : State :=
  { s with hart := { s.hart with csr := { s.hart.csr with rndstate := r } } }

/-- The element group of R19 at width `w`, in elements. -/
def groupElems (s : State) (w : Nat) : Nat := 8 * rowBytes s / w

/-- Bits of a mask group (R234). -/
def maskGroup (s : State) : Nat := 512 * slabs s

/-- The element at which an instruction under mask `m` stops in this step: `vl`, or when only one group is to issue (R41) the end
of the first active group; inactive groups are passed, and behind the last active one nothing is left (R246, R247). -/
def stopAt (s : State) (m : Reg3) (w : Nat) : Nat :=
  if s.slice then
    match activeIdx s m (vstartOf s) (vlOf s) with
    | [] => vlOf s
    | i :: l =>
      let e := (i / groupElems s w + 1) * groupElems s w
      if l.any (e ≤ ·) then e else vlOf s
  else vlOf s

end Sys2Proof.Machine
end

