-- ==== Sys2Proof/Machine/Gang.lean ====
section
/-!
DEFINITION. Contexts and gangs: finding the harts of a gang, the barrier and the gang reduction, leaving and retiring
(R28 to R30, R38, R183 to R187).

A parked member of a barrier is woken either past its instruction (the generation completed) or at it (the generation
broke): in the second case it executes the instruction again, which then raises cause 48.
-/

namespace Sys2Proof.Machine

/-! ### Contexts of slots and gangs -/

/-- The context that holds a hart slot. -/
def slotHolder (s : State) (slot : Nat) : Option Hart :=
  ((s.hart :: s.others).filter (·.phase != .free)).find? (·.slot == slot)

/-- A hart slot holds a live context (R23, R336): one that has not retired. -/
def slotLive (s : State) (slot : Nat) : Bool := (slotHolder s slot).isSome

/-- A context whose program has neither ended nor been terminated (R36). -/
def Phase.live : Phase → Bool
  | .launched | .parked | .preempted | .exiting => true
  | .free | .exited => false

/-- Insert a context by its member index. -/
def insertMember (h : Hart) : List Hart → List Hart
  | [] => [h]
  | k :: l => if h.member < k.member then h :: k :: l else k :: insertMember h l

/-- The members of a gang in ascending member index. -/
def gangMembers (s : State) (stack num : Nat) : List Hart :=
  ((contexts s).filter fun h => h.gangStack == stack && h.gang == num && h.phase.live).foldl
    (fun l h => insertMember h l) []

/-! ### Gang records -/

/-- A gang by its stack and number (R28). -/
def gangOf (s : State) (stack num : Nat) : Option Gang := s.gangs.find? fun g => g.stack == stack && g.num == num

/-- Replace a gang's record. -/
def setGang (s : State) (g : Gang) : State :=
  { s with gangs := s.gangs.map fun x => if x.stack = g.stack ∧ x.num = g.num then g else x }

/-- The lowest gang number that is free in a stack (R28; which number is not defined: log 31). -/
def freeGangNum (s : State) (stack : Nat) : Nat :=
  ((List.range (s.gangs.length + 1)).find? fun n => !(s.gangs.any fun g => g.stack == stack && g.num == n)).getD 0

/-- The gang of the current hart; a gang of one when none is recorded. -/
def hartGang (s : State) : Gang :=
  (gangOf s s.hart.gangStack s.hart.gang).getD
    { stack := s.hart.gangStack, num := s.hart.gang, partId := s.hart.partId, size := 1, queue := 0, vdev := 0,
      clamped := false, density := 1, slabs := s.hart.g, hasReserve := false, owedReserve := false, startedAt := 0 }

/-- The value of `gangid` of a context (R28). -/
def gangIdOf (s : State) (h : Hart) : Nat :=
  let size := ((gangOf s h.gangStack h.gang).map (·.size)).getD 1
  h.gangStack * 2 ^ 28 + h.gang * 2 ^ 16 + (size - 1) % 256 * 2 ^ 8 + h.member

/-- The capacity of a context in bits (R27). -/
def capacityOf (h : Hart) : Nat := h.depth * 2048 * h.g

/-- Cg: the least capacity among a gang's members (R29). A member that has exited is no longer a current member (log 15). -/
def gangCapacity (s : State) (stack num : Nat) : Nat :=
  match (gangMembers s stack num).map capacityOf with
  | [] => 0
  | c :: l => l.foldl min c

/-! ### Pairwise trees (R187, R220) -/

/-- One level of the fixed pairwise tree: neighbours join, an odd last one is carried. -/
def treeLevel {α : Type} (f : α → α → α) : List α → List α
  | x :: y :: l => f x y :: treeLevel f l
  | l => l

/-- The fixed pairwise tree, in at most `fuel` levels. -/
def tree {α : Type} (f : α → α → α) : Nat → List α → List α
  | 0, l => l
  | fuel + 1, l => tree f fuel (treeLevel f l)

/-- One rounding step of a sum in FP32, an overflow under `sat` (R211): values with the flags raised so far. -/
def addF32 (sat : Bool) (x y : FVal × Flags) : FVal × Flags :=
  let r := FVal.add .rne x.1 y.1
  let b := roundTo fmtF32 sat .rne 0 r.1
  (fmtF32.decode b.1, x.2 ||| y.2 ||| r.2 ||| b.2)

/-- The FP32 tree sum of exact values, with its flags; a list of none sums to −0. -/
def treeSum (sat : Bool) (xs : List FVal) : FVal × Flags :=
  ((tree (addF32 sat) (xs.length + 1) (xs.map (·, 0))).head?).getD (.fin true 0 0, 0)

/-! ### The gang reduction (R187) -/

/-- What a member parked in `vsred` contributes for element `i`: the element's bits, or `none` where it is masked off. -/
def vsredTerm (s : State) (ty : ElemTy) (i : Nat) (h : Hart) : Option Nat :=
  let t := { s with hart := h }
  match h.wait with
  | .vsred _ va m => if maskBit t m i then some (readElem t (vreg t va).win.base.toNat (tyWidth ty) i) else none
  | _ => none

/-- The result of `vsred` for element `i`: its bits, its flags, and whether it saturated. -/
def vsredElem (s : State) (md : VMode) (hs : List Hart) (i : Nat) : Nat × Flags × Bool :=
  let ts := hs.map (vsredTerm s md.ty i)
  if tyIsInt md.ty then
    let x := (ts.map fun t => (t.map (tyInt md.ty)).getD 0).foldl (· + ·) 0
    let r := fitInt md.sat md.ty x
    (r.1, 0, r.2)
  else
    let x := treeSum md.sat (ts.map fun t => (t.map (tyFmt md.ty).decode).getD (.fin true 0 0))
    let b := roundTo (tyFmt md.ty) md.sat (if md.ty = .f32 then .rne else md.rm) 0 x.1
    (b.1, x.2 ||| b.2, false)

/-- A member receives the result and goes on after its `vsred`. -/
def vsredDone (s : State) (md : VMode) (rs : List (Nat × Flags × Bool)) (h : Hart) : Hart :=
  match h.wait with
  | .vsred vd va m =>
    let t := { s with hart := h }
    let w := tyWidth md.ty
    let base := (vreg t vd).win.base.toNat
    let n := rs.length
    let idxs := List.range n
    let lease := (vreg t va).lease.union (maskLease t m)
    let u := writeElems t base w (idxs.zip (rs.map (·.1)))
    let u := if n = 0 then u else leaseWritten u vd true (rowsOf t base w idxs) lease
    let u := setGroups u vd w n false
    let u := addVxstat u (rs.foldl (fun f r => f ||| r.2.1) 0) (rs.any (·.2.2))
    let u := setVstart u 0
    { u.hart with
      phase := if h.phase = .parked then .launched else h.phase
      wait := .none
      fed := false
      issued := 0
      current := none
      pc := h.pc + 4 }
  | _ => h

/-! ### The barrier (R30, R183, R186) -/

/-- A member parked at the barrier goes on after its `gbar`. -/
def gbarDone (h : Hart) : Hart :=
  { h with phase := if h.phase = .parked then .launched else h.phase, wait := .none, current := none, pc := h.pc + 4 }

/-- A member parked at the barrier executes its instruction again. -/
def barrierRetry (h : Hart) : Hart :=
  { h with phase := if h.phase = .parked then .launched else h.phase, wait := .none }

/-- The open generation breaks: `owed` are the members that are to raise cause 48 in it (R30, R187). -/
def breakGeneration (s : State) (g : Gang) (owed : List Nat) : State :=
  let woken := g.barrier.arrived
  let b : Barrier := if owed.isEmpty then {} else { arrived := [], broken := true, owed := owed, late := [] }
  mapContexts (fun h => if woken.contains h.cid then barrierRetry h else h) (setGang s { g with barrier := b })

/-- The generation completes with the current members: harts that joined while it was open stay parked and count as
arrived in the next one (R186). -/
def completeGeneration (s : State) (g : Gang) (hs : List Hart) : State :=
  let cids := hs.map (·.cid)
  let rest := g.barrier.arrived.filter fun c => !cids.contains c
  let s1 := setGang s { g with barrier := { arrived := rest, broken := false, owed := [], late := [] } }
  if hs.all (·.wait == .gbar) then mapContexts (fun h => if cids.contains h.cid then gbarDone h else h) s1
  else
    let alike := match hs with
      | [] => true
      | h :: l => l.all fun k => k.csr.vl == h.csr.vl && k.csr.vtype == h.csr.vtype
    match hs.head?, vmode { s with hart := hs.headD {} } noSr with
    | some h, .ok md =>
      if alike && hs.all (fun k => match k.wait with | .vsred _ _ _ => true | _ => false) then
        let rs := (List.range h.csr.vl.toNat).map (vsredElem s md hs)
        mapContexts (fun k => if cids.contains k.cid then vsredDone s md rs k else k) s1
      else breakGeneration s g cids
    | _, _ => breakGeneration s g cids

/-- The next generation opens where every member that counted in the open one has left: those that joined meanwhile count in it
(R184). -/
def Gang.reopened (g : Gang) (hs : List Hart) : Gang :=
  if hs.all fun h => g.barrier.late.contains h.cid then { g with barrier := { g.barrier with late := [] } } else g

/-- Complete the open generation if every member that counts in it has arrived (R183, R186). -/
def checkBarrier (s : State) (stack num : Nat) : State :=
  match gangOf s stack num with
  | none => s
  | some old =>
    let all := gangMembers s stack num
    let g := old.reopened all
    let hs := all.filter fun h => !g.barrier.late.contains h.cid
    if hs.isEmpty ∨ g.barrier.broken ∨ !(hs.all fun h => g.barrier.arrived.contains h.cid) then setGang s g
    else completeGeneration s g hs

/-- A broken generation in which no member owes cause 48 any more heals: a fresh one opens over the members still present,
those that joined meanwhile among them (R30). -/
def Barrier.healed (b : Barrier) : Barrier :=
  if b.broken ∧ b.owed.isEmpty then { b with broken := false, late := [] } else b

/-- A context leaves the barrier's membership: what it owed or had brought is dropped, and the generation may complete
or heal (R30, R186). The context must no longer count as a member. -/
def leaveBarrier (s : State) (stack num cid : Nat) : State :=
  match gangOf s stack num with
  | none => s
  | some g =>
    let drop (l : List Nat) := l.filter (· != cid)
    let b : Barrier :=
      { g.barrier with arrived := drop g.barrier.arrived, owed := drop g.barrier.owed, late := drop g.barrier.late }
    checkBarrier (setGang s { g with barrier := b.healed }) stack num

/-- A member has been terminated: the open generation breaks for every remaining member that counts in it (R30). In one that is
broken already the members that have raised cause 48 do not owe it again. -/
def breakBarrier (s : State) (stack num cid : Nat) : State :=
  match gangOf s stack num with
  | none => s
  | some g =>
    if g.barrier.broken then leaveBarrier s stack num cid
    else
      let owed := ((gangMembers s stack num).map (·.cid)).filter fun c => c != cid && !g.barrier.late.contains c
      breakGeneration s g owed

/-! ### Retirement (R38, R334) -/

/-- Pool entries of a stack in use: pending launches and reserves of running gangs. -/
def poolUsed (s : State) (stack : Nat) : Nat :=
  (s.pool.filter (·.stack == stack)).length + (s.gangs.filter fun g => g.stack == stack && g.hasReserve).length

/-- Gangs that have spent their reserve receive the entries that are free, ahead of every launch (R334). -/
def settleReserves (s : State) (stack : Nat) : State :=
  (s.gangs.filter fun g => g.stack == stack && g.owedReserve).foldl (fun s g =>
    if poolUsed s stack < Config.poolEntries then setGang s { g with hasReserve := true, owedReserve := false } else s) s

/-- Drop the records of a stack's gangs that no context names any more, with their barriers and reserves (R38). -/
def dropGangs (s : State) (stack : Nat) : State :=
  let named (g : Gang) : Bool := (contexts s).any fun h => h.gangStack == stack && (h.gang == g.num || h.homeGang == g.num)
  settleReserves { s with gangs := s.gangs.filter fun g => g.stack != stack || named g } stack

/-- Retire a gang if every context of its retirement set has exited or is gone: its slots become free, its record, its
barrier and its reserve go (R38). -/
def retireGang (s : State) (stack num : Nat) : State :=
  let mine (h : Hart) : Bool := h.phase != .free && h.gangStack == stack && h.homeGang == num
  if (contexts s).any fun h => mine h && h.phase.live then dropGangs s stack
  else
    let keep (h : Hart) : Bool := !mine h
    dropGangs { s with
      hart := if mine s.hart then {} else s.hart
      others := s.others.filter keep
      saved := s.saved.filter keep } stack

end Sys2Proof.Machine
end

