-- ==== Sys2Proof/Machine/Ops.lean ====
section
/-!
DEFINITION. The shared operations: taking a trap and returning from one, terminating a hart, acting on another context,
parking and move stops, and what an access waits for.

A hart that has to wait at an instruction keeps its state: it executes the instruction again in a later step (`stall`).
-/

namespace Sys2Proof.Machine

/-- The outcome of a meaning. -/
abbrev Out := Host.Outcome State Fault Refusal

/-- The instruction waits: it is executed again. -/
def stall (s : State) : Out := .next s

/-- Change the control and status registers of the current hart. -/
def setCsrs (s : State) (f : Csrs → Csrs) : State := { s with hart := { s.hart with csr := f s.hart.csr } }

/-- A free value is drawn: the number under which the open constants of the configuration answer. -/
def draw (s : State) : Nat × State := (s.draws, { s with draws := s.draws + 1 })

/-- A number not handed out before. -/
def freshId (s : State) : Nat × State := (s.nextId + 1, { s with nextId := s.nextId + 1 })

/-- `time` in nanoseconds (R59). -/
def timeNs (s : State) : Nat := s.cycle * 5 / 9

/-! ### Copies: their barriers and interlock entries (R315 to R317) -/

/-- The barrier of a copy. -/
def cpbOf (s : State) (m : Reg3) : Word := s.hart.csr.cpb.get m.toFin

/-- Bytes pending on a barrier. -/
def cpbPending (w : Word) : Nat := field w 0 48

/-- The value with another pending count. -/
def withPending (w : Word) (n : Nat) : Word := BitVec.ofNat 64 (w.toNat / 2 ^ 48 * 2 ^ 48 + n % 2 ^ 48)

/-- Write a copy barrier. -/
def setCpb (s : State) (m : Reg3) (v : Word) : State := setCsrs s fun c => { c with cpb := c.cpb.set m.toNat v m.isLt }

/-- Count bytes of a dispatched copy. -/
def countUp (s : State) (m : Reg3) (n : Nat) : State := setCpb s m (withPending (cpbOf s m) (cpbPending (cpbOf s m) + n))

/-- Subtract bytes that have performed or are given up; the count does not go below zero. -/
def countDown (s : State) (m : Reg3) (n : Nat) : State := setCpb s m (withPending (cpbOf s m) (cpbPending (cpbOf s m) - n))

/-- Copy `k` no longer holds its share of the interlock entries (R317). -/
def leaveEntries (l : List Entry) (k : Nat) : List Entry :=
  l.filterMap fun e =>
    if e.copies.contains k then
      if e.copies == [k] then none else some { e with copies := e.copies.filter (· != k) }
    else some e

/-- Bytes of a copy, and those that have neither performed nor been given up. -/
def Copy.total (c : Copy) : Nat := c.rowBytes * c.rows
def Copy.left (c : Copy) : Nat := c.total - c.done

/-- A copy of the current hart that has not left the decoupling queue is dropped: it withdraws what its dispatch took (R315). -/
def withdrawCopy (s : State) (c : Copy) : State :=
  { (countDown s c.bar c.left) with copies := s.copies.filter (·.seq != c.seq), entries := leaveEntries s.entries c.seq }

/-- The copies that stand in the decoupling queue are dropped with it (R315, R350). -/
def withdrawQueued (s : State) : State :=
  let ks := s.hart.queue.filterMap (·.copy)
  (s.copies.filter fun c => ks.contains c.seq).foldl withdrawCopy s

/-! ### Error logs and asynchronous causes (R352, R360) -/

/-- The 32 bytes of a log entry (R360). -/
def logBytes (s : State) (cause kind : Nat) (addr : Word) (h : Hart) : List Byte :=
  [BitVec.ofNat 8 cause, BitVec.ofNat 8 kind, 0, 0, 0, 0, 0, 0] ++ leBytes 8 (timeNs s) ++ leBytes 8 addr.toNat ++
    leBytes 4 (hartIdOf h.slot) ++ leBytes 4 (gangIdOf s h % 2 ^ 32)

/-- Write a log entry of a partition; a full log counts an overflow (R360). -/
def logEntry (s : State) (p cause kind : Nat) (addr : Word) (h : Hart) : State :=
  let x := part s p
  if x.logHead - x.logConsumed = x.logEntries then setPart s p { x with logOverflow := x.logOverflow + 1 }
  else
    let i := x.logHead.toNat % x.logEntries.toNat
    let a := canon (x.logBase.toNat + 32 * i)
    let t := setPart s p { x with logHead := x.logHead + 1 }
    { t with mem := t.mem.writeBytes a (logBytes s cause kind addr h), poison := clearPoison t.poison a 32 }

/-- The index that the next log entry of a partition gets: the `tval` of the causes that name a log entry. -/
def logIndex (s : State) (p : Nat) : Word := (part s p).logHead.zeroExtend 64

/-- An asynchronous cause becomes pending for a partition's event hart (R352). -/
def postAsync (s : State) (p code : Nat) (tval : Word) : State :=
  setPart s p { part s p with pending := (part s p).pending ++ [{ code := code, tval := tval }] }

/-- The asynchronous causes that a context is to take. -/
def pendingOf (s : State) (h : Hart) : List Async :=
  (if h.owes55 then [{ code := 55, tval := 0 }] else []) ++
    (if (part s h.partId).eventHart = some h.cid then (part s h.partId).pending else [])

/-- The pending cause of the highest code, which is taken first (R352). -/
def topAsync (s : State) (h : Hart) : Option Async :=
  (pendingOf s h).foldl (fun b x =>
    match b with
    | none => some x
    | some y => if y.code < x.code then some x else b) none

/-- Asynchronous causes may be taken: aie is 1 and h is 0 (R352). -/
def asyncOpen (h : Hart) : Bool := bit h.csr.status 1 && !bit h.csr.status 0

/-! ### Taking a trap (R347, R348) -/

/-- `status` after a trap entry (R347): pm, paie from mode, aie; aie 0; h 1; mode U becomes S. -/
def entryStatus (st : BitVec 12) : BitVec 12 :=
  let md := field st 5 2
  (st &&& 0xE00) ||| BitVec.ofNat 12 ((if md = modeU then modeS else md) * 32 + md * 8 + b2n (bit st 1) * 4 + 1)

/-- What the scalar side has run ahead of the current instruction is dropped (R350). -/
def dropAhead (h : Hart) : Hart := { h with queue := [], front := none, lastSlot := 0 }

/-- The instruction at `pc` is no longer part-way done. -/
def landed (h : Hart) : Hart :=
  { h with
    inProgress := none
    fed := false
    fromZero := false
    held := false
    current := none
    issued := 0
    headed := false
    probed := none
    offsets := []
    wrote := []
    stalled := []
    bound := none
    retry := none
    waitNs := 0 }

/-- Nothing is part-way done any more: no vector instruction is in flight (R53). -/
def endFlight (h : Hart) : Hart := { (landed h) with vregs := h.vregs.map fun x => { x with busy := false } }

/-- The trap entry of R347 for the current hart, which resumes at `epc` (its reserved bits read zero, R346); the open regions
are set aside (R251), and later instructions are dropped (R350). -/
def takeTrap (s : State) (async : Bool) (code : Nat) (tval : Word) (epc : Word) : State :=
  let s := withdrawQueued s
  let h := s.hart
  { s with hart := { (endFlight (dropAhead h)) with
      phase := .launched
      wait := .none
      owes12 := none
      pc := h.csr.tvec
      regions := []
      aside := { regions := h.regions, depth := h.loops.depth, fed := if h.fed then some epc else none } :: h.aside
      csr := { h.csr with
        epc := epc &&& 0x000FFFFFFFFFFFFE
        cause := BitVec.ofNat 64 (b2n async * 2 ^ 63 + code)
        tval := tval
        status := entryStatus h.csr.status } } }

/-- A move affects a context (R75, R76). -/
def usesTable (m : Move) (h : Hart) : Bool :=
  h.phase.live && h.csr.slotbase == m.table && (m.everyPart || h.partId == m.partId)

/-- A wait that starts over at its instruction after a release or a restore (R180, R182, R325, R127); `gbar`, `vsred` and `ecall`
are resumed in place (R128). -/
def Wait.startsOver : Wait → Bool
  | .waitw .. | .vwait .. | .cpwait .. | .launch .. => true
  | .none | .gbar | .vsred .. | .ecall => false

/-- The time of the context in a `vwait`, or with a group stalled on a binding, counts: it is resident and not stopped (R182,
R196). -/
def Hart.countsWait (h : Hart) : Bool :=
  !h.stopped && match h.phase, h.wait with
    | .parked, .vwait _ _ => true
    | .launched, _ => !h.stalled.isEmpty
    | _, _ => false

/-- The time that a context has spent in a `vwait` or a stall up to now. -/
def waitSoFar (s : State) (h : Hart) : Nat := if h.countsWait then h.waitNs + (timeNs s - h.waitSince) else h.waitNs

/-- The account of a queued `vwait` up to `now`, if the time counts. -/
def QEntry.settled (now : Nat) (counts : Bool) (q : QEntry) : QEntry :=
  { q with waitNs := if counts then q.waitNs + (now - q.waitSince) else q.waitNs, waitSince := now }

/-- The account of a replica's stall up to `now`, if the time counts. -/
def Replica.settled (now : Nat) (counts : Bool) (r : Replica) : Replica :=
  let f := r.flight
  { r with flight := { f with
      waitNs := if counts && !f.stalled.isEmpty then f.waitNs + (now - f.waitSince) else f.waitNs
      waitSince := now
      queue := f.queue.map (QEntry.settled now counts) } }

/-- The accounts of a context and its replicas are brought up to now (R182, R196); the time of one that is stopped or pre-empted does
not count. -/
def settled (s : State) (h : Hart) : Hart :=
  let counts := !h.stopped && h.phase != .preempted
  { h with
    waitNs := waitSoFar s h
    waitSince := timeNs s
    queue := h.queue.map (QEntry.settled (timeNs s) counts)
    par := h.par.map fun p => { p with rest := p.rest.map (Replica.settled (timeNs s) counts) } }

/-- The instruction of a loop context is part-way done. -/
def Flight.part (f : Flight) : Bool := f.fed || f.fromZero || f.inProgress.isSome || f.issued != 0

/-- The instruction at `pc` is part-way done. -/
def Hart.inFlight (h : Hart) : Bool := h.fed || h.fromZero || h.inProgress.isSome || h.issued != 0

/-- A replica fetches the instruction at which it stands anew, unless that is part-way done. -/
def Replica.refetch (r : Replica) : Replica := if r.flight.part then r else { r with flight := { r.flight with current := none } }

/-- A context that goes on after a stop fetches the instruction at which it stands anew, unless that is part-way done (R15, R85). -/
def Hart.refetch (h : Hart) : Hart :=
  { h with
    current := if h.inFlight then h.current else none
    par := h.par.map fun p => { p with rest := p.rest.map Replica.refetch } }

/-- A context that a move has stopped goes on: a wait starts over (R78, R79, R180). -/
def released (s : State) (h : Hart) : Hart :=
  let again := h.phase == .parked && h.wait.startsOver
  { (settled s h).refetch with
    stopped := false
    stopPending := false
    phase := if again then .launched else h.phase
    wait := if again then .none else h.wait }

/-- A move ends without a rebase: its harts are released (R79). -/
def releaseMove (s : State) (m : Move) : State :=
  mapContexts (fun h => if usesTable m h then released s h else h) s

/-- The error of a failed cold-tier expander at an address: reported after a store (R112, R350). -/
def lateError (s : State) (k : Acc) (a : Nat) : Bool :=
  match farError s k a with
  | some e => e.code == 30
  | none => false

/-- The stores that the current hart has issued perform; one to a failed expander writes nothing (R136, R385). -/
def performPosted (s : State) : State :=
  s.hart.posted.foldl (fun s p => if lateError s .store p.addr then s else storeBytes s p.addr p.data) s

/-- The current hart is gone (R360): its moves, copies, commands and windows are abandoned, its slot is freed, its gang's
open generation broken, its gang retired if it was the last. Stores that it has issued perform. -/
def dropHart (s : State) : State :=
  let s := performPosted s
  let h := s.hart
  let s := (s.moves.filter (·.manager == h.cid)).foldl releaseMove s
  let s := { s with
    hart := {}
    moves := s.moves.filter (·.manager != h.cid)
    copies := s.copies.filter (·.cid != h.cid)
    entries := s.entries.filter (·.cid != h.cid)
    engines := s.engines.filter (·.cid != h.cid)
    merges := s.merges.filter (·.cid != h.cid) }
  retireGang (breakBarrier s h.gangStack h.gang h.cid) h.gangStack h.homeGang

/-- Terminate the current hart with a log entry that holds the cause (R348, R360). -/
def terminateHart (s : State) (cause : Nat) : State := dropHart (logEntry s s.hart.partId cause 0 s.hart.pc s.hart)

/-- A replica that waits has dispatched something that goes on while the hart is stopped: its instruction is part-way done, or more
stands in its queue, and no fault of it is held. -/
def Flight.drains (f : Flight) : Bool := f.heldFault.isNone && (f.part || !f.queue.isEmpty)

/-- How far the running loop context has got with its instruction and behind it. -/
def Hart.flight (h : Hart) : Flight :=
  { current := h.current, issued := h.issued, inProgress := h.inProgress, fed := h.fed, fromZero := h.fromZero,
    headed := h.headed, probed := h.probed, offsets := h.offsets, wrote := h.wrote, stalled := h.stalled, bound := h.bound,
    retry := h.retry, waitNs := h.waitNs, waitSince := h.waitSince, heldFault := h.heldFault, queue := h.queue,
    front := h.front, lastSlot := h.lastSlot, vstart := h.csr.vstart }

/-- An instruction that the running loop context of the hart has dispatched has not completed. -/
def Hart.underWay (h : Hart) : Bool := h.inFlight || !h.queue.isEmpty

/-- A hart has dispatched a `vwait`: it is parked there, whatever stands before it in the queue (R182). -/
def Hart.queuedWait (h : Hart) : Bool :=
  h.queue.any fun q => match q.instr with
    | .vwait .. => true
    | _ => false

/-- A stopped hart goes on with what it has dispatched (R36), up to a fault of it (R77); its other replicas too, unless the handler of
one of them runs (R35). -/
def Hart.drains (h : Hart) : Bool :=
  h.stopped && ((h.heldFault.isNone && h.underWay) ||
    h.par.any fun p => p.asides == h.aside.length && p.rest.any (·.flight.drains))

/-- A fault of an operation that drains for a move is held, to be delivered at the release (R77). What the instruction has received
from its streams stays received (R264). -/
def holdFault (s : State) (e : Exc) : State :=
  let s := withdrawQueued s
  { s with hart := { (endFlight (dropAhead s.hart)) with fed := s.hart.fed, heldFault := some { code := e.code, tval := e.tval } } }

/-- A synchronous cause at the current instruction: a trap, or the end of the hart if it is in a handler (R347, R348); held, if
the hart has stopped for a move (R77). -/
def trap (s : State) (e : Exc) : State :=
  if s.hart.stopped then holdFault s e
  else if bit s.hart.csr.status 0 then terminateHart s e.code
  else takeTrap s false e.code e.tval s.hart.pc

/-- The outcome of raising a synchronous cause. -/
def raise (s : State) (e : Exc) : Out := .next (trap s e)

/-- Raise a cause with `tval` 0. -/
def raise0 (s : State) (code : Nat) : Out := raise s { code := code, tval := 0 }

/-- Go on if the checks pass, else raise their cause. -/
def checked {α : Type} (s : State) (x : Except Exc α) (f : α → Out) : Out :=
  match x with
  | .ok a => f a
  | .error e => raise s e

/-- The current hart takes its highest pending asynchronous cause, if it has one (R352). -/
def takeAsync (s : State) : State :=
  match topAsync s s.hart with
  | none => s
  | some x =>
    let h := s.hart
    if x.code = 55 then takeTrap { s with hart := { h with owes55 := false } } true 55 0 h.pc
    else
      let p := part s h.partId
      let s := setPart s h.partId { p with pending := p.pending.erase x }
      takeTrap s true x.code x.tval h.pc

/-- `status` after `eret` (R349): mode := pm, aie := paie, h := 0. -/
def returnStatus (st : BitVec 12) : BitVec 12 :=
  (st &&& 0xE1C) ||| BitVec.ofNat 12 (field st 3 2 * 32 + b2n (bit st 2) * 2)

/-- The return of R349: the regions set aside by the last entry are open again, and the instruction that it interrupted still
has the chunks that it had received (R264). -/
def leaveTrap (s : State) : State :=
  let h := dropAhead s.hart
  let back := match h.aside with
    | [] => h.regions
    | x :: _ => x.regions
  { s with hart := { h with
      pc := h.csr.epc
      regions := back
      fed := match h.aside with
        | [] => false
        | x :: _ => x.fed == some h.csr.epc
      aside := h.aside.tail
      csr := { h.csr with status := returnStatus h.csr.status } } }

/-! ### Acting on another context -/

/-- Put a context back where a placeholder of number `old` stands; a context that has no place left joins the others. -/
def putBack (s : State) (old : Nat) : State :=
  let h := s.hart
  let here (x : Hart) : Bool := x.cid == old
  let swap (l : List Hart) : List Hart := (l.map fun x => if here x then h else x).filter (·.phase != .free)
  let found := (s.others ++ s.saved).find? here
  let lost := if found.isNone ∧ h.phase ≠ .free then [h] else []
  { s with hart := found.getD {}, others := swap s.others ++ lost, saved := swap s.saved }

/-- Run an operation with context `cid` as the current hart. Nothing happens if there is no such context. -/
def asHart (s : State) (cid : Nat) (f : State → Out) : Out :=
  if s.hart.phase ≠ .free ∧ s.hart.cid = cid then f s
  else
    match (s.others ++ s.saved).find? (·.cid == cid) with
    | none => .next s
    | some h =>
      let old := s.hart
      let swap (l : List Hart) : List Hart := l.map fun x => if x.cid = cid then old else x
      match f { s with hart := h, others := swap s.others, saved := swap s.saved } with
      | .next t => .next (putBack t old.cid)
      | .fault e => .fault e
      | .refused e => .refused e

/-! ### Stops, parking, control flow (R36, R76) -/

/-- A pending move stop takes effect. -/
def stopNow (s : State) : State :=
  if s.hart.stopPending then { s with hart := { (settled s s.hart) with stopPending := false, stopped := true } } else s

/-- The current hart parks; a pending move stop takes effect (R36, R76). -/
def park (s : State) (w : Wait) : State :=
  stopNow { s with hart := { s.hart with phase := .parked, wait := w, waitSince := timeNs s, stalled := [] } }

/-- The current hart leaves its wait. -/
def unpark (s : State) : State :=
  { s with hart := { s.hart with phase := if s.hart.phase = .parked then .launched else s.hart.phase, wait := .none } }

/-- A taken branch or jump: a backward one is a move stop point (R76, R119). -/
def branchTo (s : State) (target : Word) : State :=
  if target ≤ s.hart.pc then stopNow (jumpTo s target) else jumpTo s target

/-! ### What an access waits for (R114, R150, R191, R281, R317) -/

/-- Two runs of bytes meet; two runs of bonded DRAM under different names are taken to meet (R150 allows an access to
wait that shares no byte). -/
def meets (a n b m : Nat) : Bool :=
  (a < b + m && b < a + n) || ((placeOf a).isDram && (placeOf b).isDram && placeOf a != placeOf b)

/-- The lowest byte and the end of `rows` rows of `len` bytes at a signed pitch. -/
def spanOf (base pitch : Word) (rows len : Nat) : Nat × Nat :=
  let far := (base + BitVec.ofNat 64 (rows - 1) * pitch).toNat
  (min base.toNat far, max base.toNat far + len)

/-- The bytes that a copy has left on a side, as they lie in memory, from the lowest to the end of the highest (R312: a re-issued
copy is one of the tail). -/
def Copy.sideSpan (c : Copy) (base pitch : Word) : Nat × Nat :=
  let r := c.done / c.rowBytes
  let o := c.done % c.rowBytes
  let a := (base + BitVec.ofNat 64 r * pitch + BitVec.ofNat 64 o).toNat
  let head := (a, a + (c.rowBytes - o))
  let rest := spanOf (base + BitVec.ofNat 64 (r + 1) * pitch) pitch (c.rows - (r + 1)) c.rowBytes
  let all := if c.rows ≤ r + 1 then head else (min head.1 rest.1, max head.2 rest.2)
  (onSlab (c.slab.getD 0) all.1, onSlab (c.slab.getD 0) all.1 + (all.2 - all.1))

/-- The bytes of a copy's source and destination. -/
def Copy.srcSpan (c : Copy) : Nat × Nat := c.sideSpan c.src c.srcPitch
def Copy.dstSpan (c : Copy) : Nat × Nat := c.sideSpan c.dst c.dstPitch

/-- A new entry joins those of its hart and kind that it overlaps or adjoins (R317). -/
def joinEntry (e : Entry) : List Entry → List Entry
  | [] => [e]
  | x :: l =>
    if x.cid = e.cid ∧ x.write = e.write ∧ x.lo ≤ e.hi ∧ e.lo ≤ x.hi then
      joinEntry { e with lo := min x.lo e.lo, hi := max x.hi e.hi, copies := x.copies ++ e.copies } l
    else x :: joinEntry e l

/-- The entries that a copy takes are joined to those held. -/
def takeEntries (l : List Entry) (c : Copy) : List Entry :=
  let row (w : Bool) (r : Nat × Nat) : Entry :=
    { cid := c.cid, write := w, lo := r.1 / 256, hi := (r.2 + 255) / 256, copies := [c.seq] }
  joinEntry (row true c.dstSpan) (joinEntry (row false c.srcSpan) l)

/-- A context holds a slot of the front end of the current hart. -/
def holdsHere (s : State) (cid : Nat) : Bool :=
  match contextOf s cid with
  | some h => feOf h.slot == feOf s.hart.slot && h.phase != .preempted
  | none => false

/-- The copies in flight on the front end of the current hart (R318); a logged one is not in flight until it is issued again (R312). -/
def copiesHere (s : State) : List Copy := s.copies.filter fun c => !c.logged && holdsHere s c.cid

/-- The front end of the current hart has as many copies in flight as it may have (R318). -/
def copiesFull (s : State) : Bool := 512 ≤ (copiesHere s).length

/-- The interlock entries held on the front end of the current hart; accesses of engine commands hold none (log 48). -/
def entriesHere (s : State) : List Entry := s.entries.filter fun e => holdsHere s e.cid

/-- A `cpb` of the current hart holds back its vector accesses that follow number `n` (R323). -/
def gated (s : State) (n : Nat) : Bool :=
  s.hart.gates.any fun g => g.upTo < n &&
    g.limit < ((s.copies.filter fun c => c.cid == s.hart.cid && c.bar == g.bar && c.seq ≤ g.upTo).map Copy.left).foldl (· + ·) 0

/-- The rows of an entry meet an access (R150). -/
def Entry.meets (e : Entry) (a n : Nat) : Bool := Machine.meets a n (e.lo * 256) ((e.hi - e.lo) * 256)

/-- Block `j` of an extent list (R199, R200): its address, if the list reaches it. -/
def extentBlock : List Extent → Nat → Option Nat
  | [], _ => none
  | x :: l, j => if j < x.len then some (x.base + j * x.stride) else extentBlock l (j - x.len)

/-- Elements of a block, and its compressed bytes (R273). -/
def blockElems (ty b : Nat) : Nat :=
  match ElemTy.ofCode ty with
  | some t => b * 8 / tyWidth t
  | none => 0

def compressedBytes (ty b : Nat) : Nat := if ty = 13 then b else ceilDiv (17 * blockElems ty b) (32 * 64) * 64

/-- The elements of a block that a `swpin` widens, and the bytes of a resident block after it (R274, R279). -/
def EngineCmd.elems (c : EngineCmd) : Nat := if c.ty = 13 then Config.f4bElems c.blockBytes else blockElems c.ty c.blockBytes
def EngineCmd.bytes (c : EngineCmd) : Nat := if c.keep then compressedBytes c.ty c.blockBytes else c.elems

/-- The blocks of a list from number `lo` to `hi − 1`, as runs of bytes. -/
def blockRuns (l : List Extent) (n lo hi : Nat) : List (Nat × Nat) :=
  (List.range (hi - lo)).filterMap fun i => (extentBlock l (lo + i)).map (·, n)

/-- The bytes of the compressed context of a command. -/
def EngineCmd.image (c : EngineCmd) : Nat × Nat := (c.cold, 64 + c.blocks * compressedBytes c.ty c.blockBytes)

/-- The runs of bytes that an unfinished command still reads, respectively writes, its directory entry apart: programs may
read and write that meanwhile (R272, R279). -/
def EngineCmd.reads (c : EngineCmd) : List (Nat × Nat) :=
  match c.kind with
  | .swpout => blockRuns c.extents c.blockBytes 0 c.blocks
  | .swpin => [c.image]
  | .xfer => blockRuns c.extents c.blockBytes (c.units * c.bpl) (c.layers * c.bpl)

def EngineCmd.writes (c : EngineCmd) : List (Nat × Nat) :=
  (c.statusAddr, 8) :: match c.kind with
    | .swpout => [c.image]
    | .swpin => blockRuns c.extents c.bytes c.units c.blocks
    | .xfer => blockRuns c.dstExtents c.blockBytes (c.units * c.bpl) (c.layers * c.bpl)

/-- Bytes of an unfinished engine command of the hart that a later access must follow (R281, R114). -/
def EngineCmd.meets (e : EngineCmd) (write : Bool) (a n : Nat) : Bool :=
  e.writes.any (fun r => Machine.meets a n r.1 r.2) || (write && e.reads.any fun r => Machine.meets a n r.1 r.2)

/-- Two accesses of a hart are ordered by its rules: not those of different replicas of one loop (R34). -/
def sameAgent (a b : Option Nat) : Bool := a.isNone || b.isNone || a == b

/-- The stores of the current hart, or of its running replica, that have not performed. -/
def ownPosted (s : State) : List Posted := s.hart.posted.filter fun p => sameAgent p.slab (replicaOf s)

/-- A copy that has left its queue holds the entry. Copies that stand in a queue come later than the access that is checked: their
entries alone hold nothing back (R317; log 48). -/
def Entry.stands (s : State) (e : Entry) : Bool := e.copies.any fun k => s.copies.any fun c => c.seq == k && !c.queued

/-- The interlock entries of the current hart that an access at its place is checked against (R317). -/
def ownEntries (s : State) : List Entry := s.entries.filter fun e => e.cid == s.hart.cid && e.stands s

/-- An access of the current hart waits for a store, a copy or a merge of the hart that comes earlier, overlaps it and has not performed
(R114, R150). -/
def followsStores (s : State) (write : Bool) (a n : Nat) : Bool :=
  (ownPosted s).any (fun p => meets a n p.addr p.data.length) ||
    (ownEntries s).any (fun e => (e.write || write) && e.meets a n) ||
    s.merges.any fun m => m.cid == s.hart.cid && meets a n m.win.base m.win.size

/-- The same, or for an engine command of the hart (R281). -/
def mustFollow (s : State) (write : Bool) (a n : Nat) : Bool :=
  followsStores s write a n || s.engines.any fun e => e.cid == s.hart.cid && e.meets write a n

/-- Every interlock entry is held: an access does not issue (R150). -/
def tableFull (s : State) : Bool := 32 ≤ ((entriesHere s).filter (Entry.stands s)).length

/-- An access of the current hart waits for an earlier access of the hart, or for an interlock entry (R150). -/
def mustWait (s : State) (write : Bool) (a n : Nat) : Bool := mustFollow s write a n || tableFull s

/-- The bytes of a copy that have not arrived, as runs of addresses (R315). -/
def copyAhead (c : Copy) : List (Nat × Nat) :=
  (List.range (c.rows - c.done / c.rowBytes)).map fun j =>
    let r := c.done / c.rowBytes + j
    let skip := if j = 0 then c.done % c.rowBytes else 0
    (onSlab (c.slab.getD 0) (c.dst + BitVec.ofNat 64 r * c.dstPitch).toNat + skip, c.rowBytes - skip)

/-- A run of pending bytes holds, in some bank, a byte at or below one that an access of `n` bytes at `a` reads in that bank:
the bank's arrival pointer does not lie above the access (R319). Bank = address bits 7:3 (R167). -/
def bankBehind (a n : Nat) (r : Nat × Nat) : Bool :=
  let lo := r.1 / 8
  r.2 != 0 && r.1 < a + n && (List.range ((a + n + 7) / 8 - a / 8)).any fun i =>
    let g := a / 8 + i
    lo ≤ g && lo + (g - lo) % 32 ≤ (r.1 + r.2 - 1) / 8

/-- The arrival pointers of an entry do not all lie above an access (R319). -/
def notArrived (s : State) (e : Entry) (a n : Nat) : Bool :=
  s.copies.any fun c => e.copies.contains c.seq && !c.queued && (copyAhead c).any (bankBehind a n)

/-- A vector read waits for earlier accesses of the hart; behind a copy into the scratchpad it waits only until the arrival
pointers have passed the bytes that it reads (R150, R319). -/
def readWaits (s : State) (a n : Nat) : Bool :=
  match placeOf a with
  | .scratch _ =>
    (ownPosted s).any (fun p => meets a n p.addr p.data.length) ||
      (ownEntries s).any (fun e => e.write && e.meets a n && notArrived s e a n) ||
      s.engines.any (fun e => e.cid == s.hart.cid && e.meets false a n) || tableFull s
  | _ => mustWait s false a n

/-- Every earlier scalar access of the hart, or of its running replica, has performed. -/
def scalarQuiet (s : State) : Bool := (ownPosted s).all (·.vec)

/-- Every earlier vector access of the hart, or of its running replica, has performed that a fence waits for (R147, R281). -/
def vectorQuiet (s : State) : Bool :=
  let me := s.hart.cid
  !(ownPosted s).any (·.vec) && !s.copies.any (·.cid == me) && !s.merges.any (·.cid == me) &&
    !s.engines.any (fun e => e.cid == me && e.kind == .swpout)

/-- A fence of the current hart, or of its running replica, still holds the accesses behind it back (R123). -/
def VecFence.holds (s : State) (f : VecFence) : Bool :=
  let me := s.hart.cid
  sameAgent f.slab (replicaOf s) &&
    (s.copies.any (fun c => c.cid == me && c.seq ≤ f.upTo) ||
      s.merges.any (fun m => m.cid == me && m.seq ≤ f.upTo) ||
      s.engines.any (fun e => e.cid == me && e.kind == .swpout && e.seq ≤ f.upTo))

/-- Fences hold the later vector accesses, respectively the later scalar accesses, of the current hart back (R123). -/
def vectorFenced (s : State) : Bool :=
  (ownPosted s).any (·.beforeVector) || s.hart.vecFences.any fun f => !f.scalar && f.holds s
def scalarFenced (s : State) : Bool :=
  (ownPosted s).any (·.beforeScalar) || s.hart.vecFences.any fun f => f.scalar && f.holds s

/-- What a fence of everything waits for: of engine commands `swpout` alone, since the writes of `swpin` and `xfer` belong to
their publications (R147, R281). -/
def fenceQuiet (s : State) : Bool := scalarQuiet s && vectorQuiet s

/-- Every earlier access of both agents of the hart has performed, those of every engine command among them (R135, R116). -/
def quiet (s : State) : Bool := scalarQuiet s && vectorQuiet s && !s.engines.any (·.cid == s.hart.cid)

end Sys2Proof.Machine
end

