-- ==== Sys2Proof/Machine/Flags.lean ====
section
/-!
DEFINITION. The flag registers: `fstat` of the scalar side (R59, R117) and the rounding modes that the registers hold.
The flags of vector results are joined by `addVxstat` of `Vec.lean`.
-/

namespace Sys2Proof.Machine

/-- Join flags into `fstat`. -/
def addFstat (s : State) (f : Flags) : State :=
  { s with hart := { s.hart with csr := { s.hart.csr with fstat := s.hart.csr.fstat ||| f.zeroExtend 8 } } }

/-- The scalar rounding mode, `fstat`.rm; the register never holds a code above 3 (R59). -/
def scalarRm (s : State) : Rm := (Rm.ofCode (field s.hart.csr.fstat 5 3)).getD .rne

end Sys2Proof.Machine
end

