-- ==== Sys2Proof/Machine/Operands.lean ====
section
/-!
DEFINITION. Operand forms: how an instruction reads its operands and writes its scalar result. The length of the
instruction in bytes is a parameter, so that compressed forms share the operations of their 32-bit counterparts.  And which vector,
mask and scale registers, and which accumulator rows, an instruction of the vector side reads and writes.
-/

namespace Sys2Proof.Machine

/-- Write a general register and go on after the instruction. -/
def finish (s : State) (len : Nat) (d : Reg) (v : GReg) : Out := .next (advance len (setGpr s d v))

/-- The union of the lease sets of two source registers (R103). -/
def leases2 (s : State) (a b : Reg) : LeaseSet := (gpr s a).lease.union (gpr s b).lease

/-- A result computed from two registers. -/
def aluRR (s : State) (len : Nat) (d a b : Reg) (f : Word → Word → Word) (tag : BitVec 8 := 0) : Out :=
  finish s len d (result (f (gval s a) (gval s b)) (leases2 s a b) tag)

/-- A result computed from one register. -/
def aluR (s : State) (len : Nat) (d a : Reg) (f : Word → Word) (tag : BitVec 8 := 0) : Out :=
  finish s len d (result (f (gval s a)) (gpr s a).lease tag)

/-- The effective address of a scalar load or store: ga + sext(imm12) (R112). -/
def effAddr (s : State) (a : Reg) (off : Word) : Nat := (gval s a + off).toNat

/-- The tag of a base register. -/
def baseTag (s : State) (a : Reg) : BitVec 8 := (gpr s a).tag

/-- The address of a base register without an offset. -/
def baseAddr (s : State) (a : Reg) : Nat := (gval s a).toNat

/-- A scalar result of an instruction of the vector side: in a reply slot when results lag, else in the register at once
(R227). -/
def scalarResult (s : State) (d : Reg) (v : GReg) : State :=
  if s.hart.lag then { s with hart := { s.hart with replies := s.hart.replies ++ [{ d := d, val := v }] } }
  else setGpr s d v

/-! ### The registers of an instruction of the vector side (R43, R51, R287) -/

/-- What an instruction reads and writes: vector registers, masks, scale registers. -/
structure Roles where
  vr : List Reg := []
  vw : List Reg := []
  mr : List Reg3 := []
  mw : List Reg3 := []
  kr : List Reg3 := []
  kw : List Reg3 := []
  deriving DecidableEq, Repr

/-- The field registers of a segment instruction: vd to vd + nf. -/
def fieldRegs (vd : Reg) (nf : Reg3) : List Reg := (List.range (nf.toNat + 1)).map fun i => vd + BitVec.ofNat 5 i

/-- The eight B registers of a matrix instruction. -/
def bRegs (vb : Reg) : List Reg := (List.range 8).map fun i => vb + BitVec.ofNat 5 i

/-- The vector register of a second operand, if it is one; the mask of an instruction, if it names one. -/
def vopVector : VOp → List Reg
  | .vv b => [b]
  | _ => []
def maskRead (m : Reg3) : List Reg3 := if m = 0 then [] else [m]

/-- The registers of an instruction, by its description. -/
def rolesOf : Instr → Roles
  | .vadd d a b m | .vsub d a b m | .vmul d a b m | .vmulh d a b m | .vand d a b m | .vor d a b m | .vxor d a b m
  | .vsll d a b m | .vsrl d a b m | .vsra d a b m | .vmin d a b m | .vmax d a b m | .vminn d a b m | .vmaxn d a b m
  | .vsadd d a b m | .vssub d a b m | .vfadd d a b m | .vfsub d a b m | .vfmul d a b m | .vfdiv d a b m | .vfmin d a b m
  | .vfmax d a b m | .vfscale d a b m | .vfsgnj d a b m | .vslideup d a b m | .vslidedn d a b m | .vmerge d a b m =>
    { vr := a :: vopVector b, vw := [d], mr := maskRead m }
  | .vfmadd d a b m | .vfnmsub d a b m => { vr := d :: a :: vopVector b, vw := [d], mr := maskRead m }
  | .vfsqrt d a m | .vfrecip d a m | .vfrsqrt d a m | .vfround d a m | .vcompress d a m | .vmv d a m | .vcvti d a _ m
  | .vsred d a m => { vr := [a], vw := [d], mr := maskRead m }
  | .vcvt d a src m => { vr := [a], vw := [d], mr := maskRead m, kr := if src = 13 then [0] else [] }
  | .vquant d a k m => { vr := [a], vw := [d], mr := maskRead m, kw := [k] }
  | .vcmpEq md a b m | .vcmpNe md a b m | .vcmpLt md a b m | .vcmpLe md a b m | .vcmpGt md a b m | .vcmpGe md a b m
  | .vcmpLtn md a b m | .vcmpLen md a b m | .vcmpGtn md a b m | .vcmpGen md a b m | .vfcmpEq md a b m | .vfcmpNe md a b m
  | .vfcmpLt md a b m | .vfcmpLe md a b m | .vfcmpGt md a b m | .vfcmpGe md a b m =>
    { vr := a :: vopVector b, mr := maskRead m, mw := [md] }
  | .mand md a b | .mor md a b | .mxor md a b | .mandn md a b => { mr := maskRead a ++ maskRead b, mw := [md] }
  | .mnot md a | .mmv md a => { mr := maskRead a, mw := [md] }
  | .mset md => { mw := [md] }
  | .mpop _ a | .mfirst _ a => { mr := maskRead a }
  | .vgather d a b m => { vr := [a, b], vw := [d], mr := maskRead m }
  | .vbcast d _ m | .vid d m => { vw := [d], mr := maskRead m }
  | .vmvsx d _ => { vw := [d] }
  | .vmvxs _ a => { vr := [a] }
  | .vext _ a b => { vr := a :: vopVector b }
  | .vredsum _ a _ m | .vredmax _ a _ m | .vredmin _ a _ m | .vfredsum _ a _ m | .vfredosum _ a _ m | .vfredmax _ a _ m =>
    { vr := [a], mr := maskRead m }
  | .vld d _ m _ | .vlds d _ _ m _ => { vw := [d], mr := maskRead m }
  | .vldx d _ b m _ => { vr := [b], vw := [d], mr := maskRead m }
  | .vlseg d _ nf m _ => { vw := fieldRegs d nf, mr := maskRead m }
  | .vst d _ m _ | .vsts d _ _ m _ => { vr := [d], mr := maskRead m }
  | .vstx d _ b m _ => { vr := [d, b], mr := maskRead m }
  | .vsseg d _ nf m _ => { vr := fieldRegs d nf, mr := maskRead m }
  | .vamoAdd d _ b m | .vamoSwap d _ b m | .vamoMin d _ b m | .vamoMax d _ b m | .vamoAnd d _ b m | .vamoOr d _ b m
  | .vamoXor d _ b m => { vr := [d, b], vw := [d], mr := maskRead m }
  | .vspill v _ => { vr := [v] }
  | .vfill v _ => { vw := [v] }
  | .vmma _ _ a b _ m => { vr := a :: bRegs b, mr := maskRead m }
  | .vmmas _ a b _ ka kb m => { vr := a :: bRegs b, mr := maskRead m, kr := [ka, kb] }
  | .mext d _ _ m => { vw := [d], mr := maskRead m }
  | .mins _ a _ m => { vr := [a], mr := maskRead m }
  | _ => {}

/-- The accumulator rows of a matrix instruction, from the first to the end, and whether it writes them (R287). -/
def accRows : Instr → Option (Nat × Nat × Bool)
  | .mattach _ | .mdetach | .mzero => some (0, 64, true)
  | .vmma _ n _ _ rows _ | .vmmas n _ _ rows _ _ _ => some (n.toNat, n.toNat + rows.toNat, true)
  | .mext _ n _ _ => some (n.toNat, n.toNat + 1, false)
  | .mins n _ _ _ => some (n.toNat, n.toNat + 1, true)
  | _ => none

end Sys2Proof.Machine
end

