-- ==== Sys2Proof/Machine/ScalarMem.lean ====
section
/-!
DEFINITION. Scalar loads and stores with their acquire and release forms (R112 to R116), and their lease IDs (R130, R140).

A load performs when it issues.  A plain store performs when it issues, or is posted and performs later (`Hart.lag`); a
release waits until every earlier access of the hart has performed.
-/

namespace Sys2Proof.Machine

/-- A load of `sz` bytes; `conv` extends the value. It takes its lease ID even when it raises a cause (R140). -/
def scalarLoad (s : State) (len : Nat) (d a : Reg) (off : Word) (sz : Nat) (conv : Nat → Word) : Out :=
  let x := effAddr s a off
  let t := takeId s
  match checkFull s .load (baseTag s a) x sz sz with
  | .error e => raise t e
  | .ok _ =>
    if mustWait s false x sz then stall s
    else if undescribed false x sz then .fault (.undescribedRegister x)
    else match firstPoisoned s x sz with
      | some p => raise t (excAt 31 p)
      | none => finish t len d (result (conv (readNat s x sz)) ((gpr t a).lease.withId s.hart.leaseNext))

/-- Sign extension and zero extension of `sz` bytes. -/
def signedBytes (sz x : Nat) : Word := sextNat (8 * sz) x
def naturalBytes (x : Nat) : Word := BitVec.ofNat 64 x

def execLdb (d a : Reg) (imm : BitVec 12) (s : State) : Out := scalarLoad s 4 d a (sext12 imm) 1 (signedBytes 1)
def execLdh (d a : Reg) (imm : BitVec 12) (s : State) : Out := scalarLoad s 4 d a (sext12 imm) 2 (signedBytes 2)
def execLdw (d a : Reg) (imm : BitVec 12) (s : State) : Out := scalarLoad s 4 d a (sext12 imm) 4 (signedBytes 4)
def execLdd (d a : Reg) (imm : BitVec 12) (s : State) : Out := scalarLoad s 4 d a (sext12 imm) 8 naturalBytes
def execLdbn (d a : Reg) (imm : BitVec 12) (s : State) : Out := scalarLoad s 4 d a (sext12 imm) 1 naturalBytes
def execLdhn (d a : Reg) (imm : BitVec 12) (s : State) : Out := scalarLoad s 4 d a (sext12 imm) 2 naturalBytes
def execLdwn (d a : Reg) (imm : BitVec 12) (s : State) : Out := scalarLoad s 4 d a (sext12 imm) 4 naturalBytes

/-! An acquire load performs before every later access (R115), as every load here does: loads perform when they issue. -/

def execLdbAcq (d a : Reg) (imm : BitVec 12) (s : State) : Out := scalarLoad s 4 d a (sext12 imm) 1 (signedBytes 1)
def execLdhAcq (d a : Reg) (imm : BitVec 12) (s : State) : Out := scalarLoad s 4 d a (sext12 imm) 2 (signedBytes 2)
def execLdwAcq (d a : Reg) (imm : BitVec 12) (s : State) : Out := scalarLoad s 4 d a (sext12 imm) 4 (signedBytes 4)
def execLddAcq (d a : Reg) (imm : BitVec 12) (s : State) : Out := scalarLoad s 4 d a (sext12 imm) 8 naturalBytes
def execLdbnAcq (d a : Reg) (imm : BitVec 12) (s : State) : Out := scalarLoad s 4 d a (sext12 imm) 1 naturalBytes
def execLdhnAcq (d a : Reg) (imm : BitVec 12) (s : State) : Out := scalarLoad s 4 d a (sext12 imm) 2 naturalBytes
def execLdwnAcq (d a : Reg) (imm : BitVec 12) (s : State) : Out := scalarLoad s 4 d a (sext12 imm) 4 naturalBytes

/-- The bytes that a store of `sz` bytes writes. -/
def storeData (s : State) (b : Reg) (sz : Nat) : List Byte := leBytes sz (gval s b).toNat

/-- A store whose checks have passed performs, or is posted; one that a failed expander refuses writes nothing and is
reported at the next boundary. `tags` are the slot tags of its operands. -/
def issueStore (s : State) (len : Nat) (x : Nat) (bs : List Byte) (tags : List (BitVec 8)) (post : Bool) : Out :=
  if lateError s .store x then
    .next (advance len { s with hart := { s.hart with coldErrors := s.hart.coldErrors ++ [x] } })
  else if post then
    .next (advance len { s with hart := { s.hart with
      posted := s.hart.posted ++ [{ addr := x, data := bs, tags := tags, slab := replicaOf s }] } })
  else .next (advance len (storeBytes s x bs))

/-- A plain store may be posted only where another agent could see it early or late: not in the local window, not in the
device registers. -/
def mayPost (s : State) (x : Nat) : Bool := s.hart.lag && ((placeOf x).isDram || (placeOf x).isSystem)

/-- The checks of a store at issue, with the far side's refusals that do not come late. -/
def checkStore (s : State) (tag : BitVec 8) (x n al : Nat) : Except Exc Unit := do
  checkIssue s .store tag x n al
  match farError s .store x with
  | some e => if e.code = 30 then pure () else throw e
  | none => pure ()

/-- A plain store (R112). It follows the hart's earlier accesses to its bytes (R114, R150); a value that a device register
does not take raises cause 1 (R8). -/
def scalarStore (s : State) (len : Nat) (b a : Reg) (off : Word) (sz : Nat) : Out :=
  let x := effAddr s a off
  checked s (checkStore s (baseTag s a) x sz sz) fun _ =>
    if mustWait s true x sz then stall s
    else if undescribed true x sz then .fault (.undescribedRegister x)
    else if badDevice s x (storeData s b sz) then raise0 s 1
    else issueStore s len x (storeData s b sz) [baseTag s a, baseTag s b] (mayPost s x)

/-- The sticky clamp bit of `status` (R346). -/
def setClamp (s : State) : State := setCsrs s fun c => { c with status := c.status ||| 0x200 }

/-- The current hart's gang is limited to partition scope (R337). -/
def scopeLimited (s : State) : Bool := (hartGang s).clamped

/-- A release or a fence acts at system scope: it is clamped under the policy of the virtual device, or traps (R116,
R123). -/
def clampScope (s : State) (sys : Bool) (code : Nat) (go : State → Out) : Out :=
  if sys ∧ scopeLimited s then
    if s.hart.csr.scopepol then raise0 s code else go (setClamp s)
  else go s

/-- A store with `.rel`: after every earlier access of both agents (R116). -/
def releaseStore (s : State) (len : Nat) (b a : Reg) (off : Word) (sz : Nat) : Out :=
  let x := effAddr s a off
  checked s (checkStore s (baseTag s a) x sz sz) fun _ =>
    if !quiet s || tableFull s then stall s
    else if undescribed true x sz then .fault (.undescribedRegister x)
    else if badDevice s x (storeData s b sz) then raise0 s 1
    else clampScope s (placeOf x).isSystem 51 fun t =>
      issueStore t len x (storeData s b sz) [baseTag s a, baseTag s b] false

def execStb (b a : Reg) (imm : BitVec 12) (s : State) : Out := scalarStore s 4 b a (sext12 imm) 1
def execSth (b a : Reg) (imm : BitVec 12) (s : State) : Out := scalarStore s 4 b a (sext12 imm) 2
def execStw (b a : Reg) (imm : BitVec 12) (s : State) : Out := scalarStore s 4 b a (sext12 imm) 4
def execStd (b a : Reg) (imm : BitVec 12) (s : State) : Out := scalarStore s 4 b a (sext12 imm) 8
def execStbRel (b a : Reg) (imm : BitVec 12) (s : State) : Out := releaseStore s 4 b a (sext12 imm) 1
def execSthRel (b a : Reg) (imm : BitVec 12) (s : State) : Out := releaseStore s 4 b a (sext12 imm) 2
def execStwRel (b a : Reg) (imm : BitVec 12) (s : State) : Out := releaseStore s 4 b a (sext12 imm) 4
def execStdRel (b a : Reg) (imm : BitVec 12) (s : State) : Out := releaseStore s 4 b a (sext12 imm) 8

/-! ### Posted stores (R136, R114) -/

/-- Store `k` of a list of posted stores, if no earlier one of the list overlaps it: accesses of one hart to overlapping
bytes perform in program order, those of different replicas in any order (R34). -/
def postedReady (l : List Posted) (k : Nat) : Option Posted :=
  match l[k]? with
  | some p =>
    if (l.take k).any (fun q => sameAgent p.slab q.slab && meets p.addr p.data.length q.addr q.data.length) then none else some p
  | none => none

/-- The store no longer waits: it is gone, with the other bytes of which it is one, and its error is to be reported (R112). -/
def reportStore (t : State) (k : Nat) (p : Posted) : State :=
  let rest := t.hart.posted.eraseIdx k
  { t with hart := { t.hart with
      posted := if p.part.isSome then rest.filter (·.part != p.part) else rest
      coldErrors := t.hart.coldErrors ++ [p.part.getD p.addr] } }

/-- Posted store `k` of context `h` performs; where the expander has failed meanwhile it is refused (R385). It performs for every
observer at once: a DESIGN CHOICE (log 63). -/
def execAccessPerform (h k : Nat) (s : State) : Out :=
  asHart s h fun t =>
    match postedReady t.hart.posted k with
    | some p =>
      if lateError t .store p.addr then .next (reportStore t k p)
      else .next (storeBytes { t with hart := { t.hart with posted := t.hart.posted.eraseIdx k } } p.addr p.data)
    | none => .next t

/-- The expander reports an error for posted store `k` of context `h`: it writes nothing, cause 30 is raised at the hart's
next instruction boundary, and the region refuses accesses until it is written valid again (R112, R350, R385). -/
def execColdTierStoreError (h k : Nat) (s : State) : Out :=
  asHart s h fun t =>
    match postedReady t.hart.posted k with
    | some p =>
      match placeOf p.addr with
      | .cold r => .next { (reportStore t k p) with cold := t.cold.set r { coldRegion t r with failed := true } }
      | _ => .next t
    | none => .next t

/-- Reply `k` of context `h` reaches its register (R227). -/
def execReplyWrite (h k : Nat) (s : State) : Out :=
  asHart s h fun t =>
    match t.hart.replies[k]? with
    | some r => .next (setGpr { t with hart := { t.hart with replies := t.hart.replies.eraseIdx k } } r.d r.val)
    | none => .next t

end Sys2Proof.Machine
end

