-- ==== Sys2Proof/Machine/Atomics.lean ====
section
/-!
DEFINITION. Scalar atomics (R177, R178) and waiting on a word (R179, R180).
-/

namespace Sys2Proof.Machine

/-- Bytes of an atomic's operand. -/
def amoBytes : AmoSz → Nat
  | .w => 4
  | .d => 8

/-- What an atomic of `w` bits writes: from the old value and the operand's low bits; `none` writes nothing (R177). -/
def amoNew (op : AmoOp) (w old x : Nat) : Option Nat :=
  match op with
  | .add => some (old + x)
  | .swap => some x
  | .cas c => if old = field c 0 w then some x else none
  | .min => some (if toSigned w x < toSigned w old then x else old)
  | .max => some (if toSigned w old < toSigned w x then x else old)
  | .and => some (old &&& x)
  | .or => some (old ||| x)
  | .xor => some (old ^^^ x)

/-- One atomic access: `new` computes what is written from the operand width in bits, the old value and gb's low bits;
`none` writes nothing. -/
def scalarAmo (s : State) (sz : AmoSz) (rl : Bool) (d b a : Reg) (new : Nat → Nat → Nat → Option Nat) : Out :=
  let n := amoBytes sz
  let x := baseAddr s a
  let t := takeId s
  match checkFull s .atomic (baseTag s a) x n n with
  | .error e => raise t e
  | .ok _ =>
    if mustWait s true x n ∨ (rl ∧ !quiet s) then stall s
    else match firstPoisoned s x n with
      | some p => raise t (excAt 31 p)
      | none =>
        clampScope t (rl && (placeOf x).isSystem) 51 fun u =>
          let old := readNat s x n
          let w := match new (8 * n) old (field (gval s b) 0 (8 * n)) with
            | some v => storeBytes u x (leBytes n v)
            | none => u
          finish w 4 d (result (signedBytes n old) ((gpr t a).lease.withId s.hart.leaseNext))

def execAmoadd (sz : AmoSz) (_aq rl : Bool) (d b a : Reg) (s : State) : Out :=
  scalarAmo s sz rl d b a (amoNew .add)
def execAmoswap (sz : AmoSz) (_aq rl : Bool) (d b a : Reg) (s : State) : Out :=
  scalarAmo s sz rl d b a (amoNew .swap)
def execAmocas (sz : AmoSz) (_aq rl : Bool) (d b a : Reg) (s : State) : Out :=
  scalarAmo s sz rl d b a (amoNew (.cas (gval s d)))
def execAmomin (sz : AmoSz) (_aq rl : Bool) (d b a : Reg) (s : State) : Out :=
  scalarAmo s sz rl d b a (amoNew .min)
def execAmomax (sz : AmoSz) (_aq rl : Bool) (d b a : Reg) (s : State) : Out :=
  scalarAmo s sz rl d b a (amoNew .max)
def execAmoand (sz : AmoSz) (_aq rl : Bool) (d b a : Reg) (s : State) : Out :=
  scalarAmo s sz rl d b a (amoNew .and)
def execAmoor (sz : AmoSz) (_aq rl : Bool) (d b a : Reg) (s : State) : Out :=
  scalarAmo s sz rl d b a (amoNew .or)
def execAmoxor (sz : AmoSz) (_aq rl : Bool) (d b a : Reg) (s : State) : Out :=
  scalarAmo s sz rl d b a (amoNew .xor)

/-- One read of a `waitw`: a different value completes it, an equal one parks the hart (R179). -/
def waitwRead (s : State) (sz : AmoSz) (aq : Bool) (d b a : Reg) : Out :=
  let n := amoBytes sz
  let x := baseAddr s a
  let t := takeId s
  match checkDram s (baseTag s a) x n with
  | .error e => raise t e
  | .ok _ =>
    if mustWait s false x n then stall s
    else match firstPoisoned s x n with
      | some p => raise t (excAt 31 p)
      | none =>
        let v := readNat s x n
        if v = field (gval s b) 0 (8 * n) then .next (park s (.waitw sz aq d b a))
        else finish t 4 d (result (signedBytes n v) ((gpr t a).lease.withId s.hart.leaseNext))

def execWaitw (sz : AmoSz) (aq : Bool) (d b a : Reg) (s : State) : Out := waitwRead s sz aq d b a

/-- A store to the word has performed: the parked hart reads again (R179). -/
def execWaitwWake (h : Nat) (s : State) : Out :=
  asHart s h fun t =>
    match t.hart.wait with
    | .waitw sz aq d b a => if t.hart.phase = .parked ∧ !t.hart.stopped then waitwRead (unpark t) sz aq d b a else .next t
    | _ => .next t

end Sys2Proof.Machine
end

