-- ==== Sys2Proof/Machine/Branch.lean ====
section
/-!
DEFINITION. Branches and jumps (R119, R120).
-/

namespace Sys2Proof.Machine

/-- A branch of layout B: taken to PC + sext(off12) × 2 if the condition holds. -/
def branch (s : State) (len : Nat) (cond : Bool) (off : Word) : Out :=
  .next (if cond then branchTo s (s.hart.pc + off) else advance len s)

def execBeq (a b : Reg) (off : BitVec 12) (s : State) : Out := branch s 4 (gval s a == gval s b) (halfwords off)
def execBne (a b : Reg) (off : BitVec 12) (s : State) : Out := branch s 4 (gval s a != gval s b) (halfwords off)
def execBlt (a b : Reg) (off : BitVec 12) (s : State) : Out := branch s 4 ((gval s a).slt (gval s b)) (halfwords off)
def execBge (a b : Reg) (off : BitVec 12) (s : State) : Out := branch s 4 (!(gval s a).slt (gval s b)) (halfwords off)
def execBltn (a b : Reg) (off : BitVec 12) (s : State) : Out := branch s 4 ((gval s a).ult (gval s b)) (halfwords off)
def execBgen (a b : Reg) (off : BitVec 12) (s : State) : Out := branch s 4 (!(gval s a).ult (gval s b)) (halfwords off)

/-- A jump that links (R120): an odd target raises cause 7 and leaves gd. -/
def jumpLink (s : State) (len : Nat) (d : Reg) (target : Word) : Out :=
  if bit target 0 then raise s { code := 7, tval := target }
  else .next (branchTo (setGpr s d (result (s.hart.pc + BitVec.ofNat 64 len) {})) target)

def execJal (d : Reg) (off : BitVec 20) (s : State) : Out := jumpLink s 4 d (s.hart.pc + halfwords off)
def execJalr (d a : Reg) (imm : BitVec 12) (s : State) : Out := jumpLink s 4 d (gval s a + sext12 imm)

end Sys2Proof.Machine
end

