-- ==== Sys2Proof/Machine/Int.lean ====
section
/-!
DEFINITION. The integer instructions: layout U, immediates and registers (R105 to R108, tags R71).
-/

namespace Sys2Proof.Machine

/-! ### Layout U (R108) -/

/-- sext(imm20 << 12, 32). -/
def upperImm (imm : BitVec 20) : Word := (imm ++ (0 : BitVec 12)).signExtend 64

def execLhi (d : Reg) (imm : BitVec 20) (s : State) : Out := finish s 4 d (result (upperImm imm) {})
def execAupc (d : Reg) (imm : BitVec 20) (s : State) : Out := finish s 4 d (result (s.hart.pc + upperImm imm) {})

/-! ### Immediates (R107) -/

/-- `addi` keeps the tag of ga (R71); the shared operation of `addi` and its compressed forms. -/
def addImm (s : State) (len : Nat) (d a : Reg) (imm : Word) : Out := aluR s len d a (· + imm) (baseTag s a)

def execAddi (d a : Reg) (imm : BitVec 12) (s : State) : Out := addImm s 4 d a (sext12 imm)
def execAndi (d a : Reg) (imm : BitVec 12) (s : State) : Out := aluR s 4 d a (· &&& sext12 imm) (baseTag s a)
def execOri (d a : Reg) (imm : BitVec 12) (s : State) : Out := aluR s 4 d a (· ||| sext12 imm)
def execXori (d a : Reg) (imm : BitVec 12) (s : State) : Out := aluR s 4 d a (· ^^^ sext12 imm)
def execSlti (d a : Reg) (imm : BitVec 12) (s : State) : Out := aluR s 4 d a fun x => boolWord (x.slt (sext12 imm))
def execSltni (d a : Reg) (imm : BitVec 12) (s : State) : Out := aluR s 4 d a fun x => boolWord (x.ult (sext12 imm))
def execSlli (d a : Reg) (sh : BitVec 6) (s : State) : Out := aluR s 4 d a (· <<< sh.toNat)
def execSrli (d a : Reg) (sh : BitVec 6) (s : State) : Out := aluR s 4 d a (· >>> sh.toNat)
def execSrai (d a : Reg) (sh : BitVec 6) (s : State) : Out := aluR s 4 d a (·.sshiftRight sh.toNat)

/-! ### Registers (R105) -/

/-- The shift amount of a register shift: y[5:0]. -/
def shiftAmount (y : Word) : Nat := y.toNat % 64

/-- The operations of `add`, `sub` and `and` with their tags (R71), shared with the compressed forms. -/
def addRegs (s : State) (len : Nat) (d a b : Reg) : Out := aluRR s len d a b (· + ·) (joinTags (baseTag s a) (baseTag s b))
def subRegs (s : State) (len : Nat) (d a b : Reg) : Out := aluRR s len d a b (· - ·) (subTags (baseTag s a) (baseTag s b))
def andRegs (s : State) (len : Nat) (d a b : Reg) : Out :=
  aluRR s len d a b (· &&& ·) (joinTags (baseTag s a) (baseTag s b))

def execAdd (d a b : Reg) (s : State) : Out := addRegs s 4 d a b
def execSub (d a b : Reg) (s : State) : Out := subRegs s 4 d a b
def execAnd (d a b : Reg) (s : State) : Out := andRegs s 4 d a b
def execOr (d a b : Reg) (s : State) : Out := aluRR s 4 d a b (· ||| ·)
def execXor (d a b : Reg) (s : State) : Out := aluRR s 4 d a b (· ^^^ ·)
def execSll (d a b : Reg) (s : State) : Out := aluRR s 4 d a b fun x y => x <<< shiftAmount y
def execSrl (d a b : Reg) (s : State) : Out := aluRR s 4 d a b fun x y => x >>> shiftAmount y
def execSra (d a b : Reg) (s : State) : Out := aluRR s 4 d a b fun x y => x.sshiftRight (shiftAmount y)
def execSlt (d a b : Reg) (s : State) : Out := aluRR s 4 d a b fun x y => boolWord (x.slt y)
def execSltn (d a b : Reg) (s : State) : Out := aluRR s 4 d a b fun x y => boolWord (x.ult y)
def execMul (d a b : Reg) (s : State) : Out := aluRR s 4 d a b (· * ·)

/-- Bits 127:64 of a signed and of a natural product. -/
def mulHigh (x y : Word) : Word := BitVec.ofInt 64 (x.toInt * y.toInt / 2 ^ 64)
def mulHighNat (x y : Word) : Word := BitVec.ofNat 64 (x.toNat * y.toNat / 2 ^ 64)

def execMulh (d a b : Reg) (s : State) : Out := aluRR s 4 d a b mulHigh
def execMulhn (d a b : Reg) (s : State) : Out := aluRR s 4 d a b mulHighNat

/-- Division with the edge cases of R106. -/
def divSigned (x y : Word) : Word := if y = 0 then -1 else BitVec.ofInt 64 (x.toInt.tdiv y.toInt)
def divNat (x y : Word) : Word := if y = 0 then -1 else BitVec.ofNat 64 (x.toNat / y.toNat)
def remSigned (x y : Word) : Word := if y = 0 then x else BitVec.ofInt 64 (x.toInt.tmod y.toInt)
def remNat (x y : Word) : Word := if y = 0 then x else BitVec.ofNat 64 (x.toNat % y.toNat)

def execDiv (d a b : Reg) (s : State) : Out := aluRR s 4 d a b divSigned
def execDivn (d a b : Reg) (s : State) : Out := aluRR s 4 d a b divNat
def execRem (d a b : Reg) (s : State) : Out := aluRR s 4 d a b remSigned
def execRemn (d a b : Reg) (s : State) : Out := aluRR s 4 d a b remNat

def execMin (d a b : Reg) (s : State) : Out := aluRR s 4 d a b fun x y => if y.slt x then y else x
def execMax (d a b : Reg) (s : State) : Out := aluRR s 4 d a b fun x y => if x.slt y then y else x
def execMinn (d a b : Reg) (s : State) : Out := aluRR s 4 d a b fun x y => if y.ult x then y else x
def execMaxn (d a b : Reg) (s : State) : Out := aluRR s 4 d a b fun x y => if x.ult y then y else x

end Sys2Proof.Machine
end

