-- ==== Sys2Proof/Machine/Loops.lean ====
section
/-!
DEFINITION. Regions, mask branches, strip loops and streams (R248 to R267, R31 to R35).

The replicas of a parallel strip loop run one at a time, strip by strip; the running replica's own state stands in the
hart's fields.
-/

namespace Sys2Proof.Machine

/-! ### Regions (R248 to R251) -/

/-- How many bits of a mask the current `vl` governs. -/
def maskLen (s : State) : Nat := min (vlOf s) (maskBits s)

/-- At least one bit below `vl` is set. -/
def maskAny (s : State) (m : Reg3) : Bool :=
  if m = 0 then vlOf s != 0 else (mreg s m).bits % 2 ^ maskLen s != 0

/-- Every bit below `vl` is set; m0 reads all ones. A mask holds no bit at or above its capacity (R54). -/
def maskAll (s : State) (m : Reg3) : Bool :=
  if m = 0 then true
  else vlOf s ≤ maskBits s && (mreg s m).bits % 2 ^ maskLen s == 2 ^ maskLen s - 1

def execVregion (m : Reg3) (_off : BitVec 12) (s : State) : Out :=
  if 8 ≤ s.hart.regions.length then raise0 s 41
  else
    .next (advance 4 { s with hart := { s.hart with
      regions := { mask := m, skip := !maskAny s m } :: s.hart.regions } })

def execVrend (s : State) : Out :=
  match s.hart.regions with
  | [] => raise0 s 1
  | _ :: l => .next (advance 4 { s with hart := { s.hart with regions := l } })

/-- The body that runs is a body that an open region skips (R249). -/
def skipping (s : State) : Bool := s.hart.regions.any (·.skip)

/-! ### Mask branches (R252) -/

def execBany (m : Reg3) (off : BitVec 12) (s : State) : Out := branch s 4 (maskAny s m) (halfwords off)
def execBall (m : Reg3) (off : BitVec 12) (s : State) : Out := branch s 4 (maskAll s m) (halfwords off)
def execBnone (m : Reg3) (off : BitVec 12) (s : State) : Out := branch s 4 (!maskAny s m) (halfwords off)

/-! ### Strip loops (R253, R254) -/

/-- The loops inside a `vloop` at `pc` whose `vlend` lies at `fin`, with `n` strips to run. -/
def enterLoop (l : Loops) (pc fin n : Word) : Loops :=
  { cur := { lpstart := pc + 4, lpend := fin, lpcount := n, strip := 0 }
    stack := if l.depth = 0 then l.stack else l.cur :: l.stack
    depth := l.depth + 1
    zeroTrip := n == 0
    pendStart := none
    pendEnd := none
    pendCount := none }

/-- Set the loops of the current hart. -/
def setLoops (s : State) (l : Loops) : State := { s with hart := { s.hart with loops := l } }

/-- The plain loop of `vloop` (R253). -/
def loopEnter (s : State) (a : Reg) (off : BitVec 12) : State :=
  let fin := s.hart.pc + halfwords off
  let t := setLoops s (enterLoop s.hart.loops s.hart.pc fin (gval s a))
  if gval s a = 0 then jumpTo t fin else advance 4 t

def execVloop (a : Reg) (off : BitVec 12) (s : State) : Out :=
  if s.hart.loops.depth = 4 then raise0 s 42 else .next (loopEnter s a off)

/-- Replica `j` of the current hart as `vloop.p` makes it (R31, R32). -/
def newReplica (t : State) (j : Nat) : Replica :=
  { slab := j, pc := t.hart.pc, regs := t.hart.regs, regions := t.hart.regions
    loops := { t.hart.loops with cur := { t.hart.loops.cur with strip := BitVec.ofNat 64 j } }
    rnd := t.hart.csr.rndstate }

/-- `vloop.p` (R31): with one slab, inside a replica, or with no strip it is `vloop`. -/
def execVloopP (a : Reg) (off : BitVec 12) (s : State) : Out :=
  if s.hart.loops.depth = 4 then raise0 s 42
  else if s.hart.g ≤ 1 ∨ s.hart.par.isSome ∨ gval s a = 0 then .next (loopEnter s a off)
  else
    let n := (gval s a).toNat
    let k := min s.hart.g n
    let t := loopEnter s a off
    let par : ParLoop :=
      { active := 0, depth := t.hart.loops.depth, asides := t.hart.aside.length, count := n,
        rest := (List.range (k - 1)).map fun j => newReplica t (j + 1), ended := [] }
    .next { t with hart := { t.hart with par := some par } }

/-- Leave the innermost loop (R254); the outermost one's registers keep their final values. -/
def leaveLoop (l : Loops) : Loops :=
  { cur := if 1 < l.depth then l.stack.headD l.cur else l.cur
    stack := l.stack.tail
    depth := l.depth - 1
    zeroTrip := false
    pendStart := none
    pendEnd := none
    pendCount := none }

/-- The loop registers at a back-edge, with the pending writes applied (R254, R255). -/
def backEdge (l : Loops) : Loops :=
  { l with
    cur := { lpstart := l.pendStart.getD l.cur.lpstart
             lpend := l.pendEnd.getD l.cur.lpend
             lpcount := l.pendCount.getD (l.cur.lpcount - 1)
             strip := l.cur.strip + 1 }
    pendStart := none
    pendEnd := none
    pendCount := none }

/-- Continue with a replica that has waited for its turn. `vstart` is the common one, but of an instruction that is part-way done
the element at which it goes on. -/
def runReplica (s : State) (p : ParLoop) (r : Replica) : State :=
  let h := s.hart
  let f := r.flight
  { s with hart := { h with
      pc := r.pc, regs := r.regs, loops := r.loops, regions := r.regions
      current := f.current, issued := f.issued, inProgress := f.inProgress, fed := f.fed, fromZero := f.fromZero
      headed := f.headed, probed := f.probed, offsets := f.offsets, wrote := f.wrote, stalled := f.stalled
      bound := f.bound, retry := f.retry, waitNs := f.waitNs, waitSince := f.waitSince, heldFault := f.heldFault
      queue := f.queue, front := f.front, lastSlot := f.lastSlot
      csr := { h.csr with
        rndstate := r.rnd
        vstart := if f.part then f.vstart else if h.inFlight then 0 else h.csr.vstart }
      par := some { p with active := r.slab } } }

/-- The running replica's own state, to continue at `pc`. -/
def saveReplica (s : State) (p : ParLoop) (pc : Word) (l : Loops) : Replica :=
  { slab := p.active, pc := pc, regs := s.hart.regs, loops := l, regions := s.hart.regions, rnd := s.hart.csr.rndstate,
    flight := s.hart.flight }

/-- Every reply that the running replica waits for is written: it leaves no slot of the eight behind (R32, R227). -/
def drainReplies (s : State) : State :=
  let t := s.hart.replies.foldl (fun t r => setGpr t r.d r.val) s
  { t with hart := { t.hart with replies := [] } }

/-- The running replica may give way here, between two instructions or two element groups of one, outside any trap entry of the loop
(R35). -/
def mayRotate (s : State) (p : ParLoop) : Bool :=
  s.hart.aside.length == p.asides && (s.hart.inFlight || vstartOf s == 0)

/-- Accesses of different replicas are unordered (R34): replica `k` of those that wait runs now in the place of the running
one. -/
def rotateReplicas (s : State) (k : Nat) : State :=
  match s.hart.par with
  | none => s
  | some p =>
    match p.rest[k]? with
    | none => s
    | some r =>
      if mayRotate s p then
        let t := drainReplies s
        runReplica t { p with rest := p.rest.eraseIdx k ++ [saveReplica t p t.hart.pc t.hart.loops] } r
      else s

/-- The end of a parallel loop: the hart goes on as the replica that ran strip n − 1 (R33, R215); what the replicas have stored comes
before whatever it does next. -/
def joinReplicas (s : State) (p : ParLoop) : State :=
  let r := (p.ended.find? fun r => r.slab == (p.count - 1) % s.hart.g).getD (p.ended.headD (saveReplica s p s.hart.pc s.hart.loops))
  let l := leaveLoop r.loops
  let l := if l.depth = 0 then
      { l with cur := { r.loops.cur with strip := BitVec.ofNat 64 p.count, lpcount := 0 } } else l
  { s with hart := { s.hart with
      pc := r.pc, regs := r.regs, loops := l, regions := r.regions, par := none
      posted := s.hart.posted.map fun p => { p with slab := none }
      vecFences := s.hart.vecFences.map fun f => { f with slab := none }
      csr := { s.hart.csr with rndstate := r.rnd } } }

/-- A `vlend` of a replica (R257): its next strip starts, or the replica ends; then the next replica has its turn, unless the hart is
stepped (R353). -/
def replicaEdge (s : State) (p : ParLoop) (len : Nat) : State :=
  let s := drainReplies s
  let l := s.hart.loops
  let strip := l.cur.strip.toNat
  let count := match l.pendCount with
    | some c => min p.count (strip + 1 + c.toNat)
    | none => p.count
  let nxt := strip + s.hart.g
  let out := s.hart.pc + BitVec.ofNat 64 len
  let l' := { l with pendStart := none, pendEnd := none, pendCount := none }
  if nxt < count ∧ s.hart.pc = l.cur.lpend then
    let l' := { l' with cur := { l'.cur with strip := BitVec.ofNat 64 nxt } }
    let p' := { p with count := count }
    let me := saveReplica s p l.cur.lpstart l'
    match p.rest, bit s.hart.csr.status 10 with
    | r :: rest, false => runReplica s { p' with rest := rest ++ [me] } r
    | _, _ => runReplica s p' me
  else
    let p' := { p with count := count, ended := p.ended ++ [saveReplica s p out l'] }
    match p.rest with
    | [] => joinReplicas s p'
    | r :: rest => runReplica s { p' with rest := rest } r

/-- The `vlend` of the replica that ran goes back to the start of its body (R254, R257): the replica has not ended. -/
def edgeTaken (p : ParLoop) (t : State) : Bool :=
  match t.hart.par with
  | some q => q.ended.length == p.ended.length
  | none => false

/-- `vlend` and its compressed form, `len` bytes long (R254). A back-edge that a replica takes is a move stop point (R76). -/
def loopEnd (s : State) (len : Nat) : Out :=
  let l := s.hart.loops
  let out := s.hart.pc + BitVec.ofNat 64 len
  match s.hart.par with
  | some p =>
    if l.depth = p.depth then
      let t := replicaEdge s p len
      .next (if edgeTaken p t then stopNow t else t)
    else plain l out
  | none => plain l out
where
  /-- A back-edge of a plain loop. -/
  plain (l : Loops) (out : Word) : Out :=
    if l.depth = 0 then raise0 s 1
    else if l.zeroTrip then .next (jumpTo (setLoops s (leaveLoop l)) out)
    else
      let m := backEdge l
      if s.hart.pc ≠ m.cur.lpend ∨ m.cur.lpcount = 0 then .next (jumpTo (setLoops s (leaveLoop m)) out)
      else .next (stopNow (jumpTo (setLoops s m) m.cur.lpstart))

def execVlend (s : State) : Out := loopEnd s 4

/-! ### Streams (R259 to R267) -/

/-- `n` bytes of a pattern record at an offset, as a number. -/
def recField (r : List Byte) (off n : Nat) : Nat := leNat ((r.drop off).take n)

/-- Offsets of a record's reserved bytes, from `lo` to `hi − 1`, hold zero. -/
def recZero (r : List Byte) (lo hi : Nat) : Bool := recField r lo (hi - lo) == 0

/-- The reserved bytes of a record of a type (R260). -/
def recReserved (r : List Byte) : Bool :=
  recZero r 1 4 &&
    match recField r 0 1 with
    | 0 => recZero r 24 64
    | 1 => recZero r 28 64
    | 2 => recZero r 44 64
    | 3 => recZero r 32 64
    | 4 => recZero r 29 32 && recZero r 40 64
    | _ => true

/-- Chunk bytes. -/
def chunkBytes (r : List Byte) : Nat := recField r 4 4

/-- The conditions of R262 on a record, for a window of `room` bytes. -/
def recordOk (r : List Byte) (room : Nat) : Bool :=
  let ty := recField r 0 1
  ty ≤ 4 && recReserved r && chunkBytes r != 0 && chunkBytes r ≤ room &&
    (ty != 2 || recField r 32 4 * recField r 36 4 == chunkBytes r) &&
    (ty != 3 || (recField r 16 4 != 0 && recField r 16 4 ≤ 16)) &&
    (ty != 4 || recField r 28 1 == 2 || recField r 28 1 == 3)

/-- The number of chunks N (R261). -/
def chunkCount (r : List Byte) : Nat :=
  match recField r 0 1 with
  | 0 => ceilDiv (recField r 16 8) (chunkBytes r)
  | 1 => recField r 24 4
  | 2 => recField r 40 4
  | 3 => recField r 28 4
  | _ => recField r 24 4

/-- The binding of a register. -/
def bindingOf (s : State) (v : Reg) : Option Stream := s.hart.streams.find? (·.reg == v)

/-- R72 for a vector access of `n` bytes at `a`, with R167's local rule. -/
def checkVectorAccess (s : State) (k : Acc) (tag : BitVec 8) (a n al : Nat) : Except Exc Unit := do
  checkSlot s k tag a n
  checkAlign k a al
  if !vectorPlace s k a then throw (excAt 23 a)
  match checkPlain s k (replicaAddr s a) n with
  | .error e => throw { e with tval := e.tval - BitVec.ofNat 64 (replicaAddr s a - a) }
  | .ok _ => pure ()

/-- What is checked after R72 of a vector access: the watchpoint, and the hart's own accumulation window unless the access adds to it
(R190). -/
def checkVectorOwn (s : State) (k : Acc) (adds : Bool) (a n : Nat) : Except Exc Unit := do
  checkWatch s k a n
  if !adds then checkWindow s a n

/-- The same, and then what the far side answers. -/
def checkVectorRest (s : State) (k : Acc) (adds : Bool) (a n : Nat) : Except Exc Unit := do
  checkVectorOwn s k adds a n
  match farErrorIn s k a n with
  | some e => throw e
  | none => pure ()

/-- The checks at issue of a vector access. -/
def checkVector (s : State) (k : Acc) (tag : BitVec 8) (a n al : Nat) : Except Exc Unit := do
  checkVectorAccess s k tag a n al
  checkVectorRest s k false a n

/-- Write bytes with their poison into the element image of a window from byte `off` on. -/
def writeImage (s : State) (base off : Nat) (bs : List (Byte × Bool)) : State :=
  let keys := (List.range bs.length).map fun i => imageKey s base (off + i)
  let rows := (keys.zip bs).foldl (fun m x => m.write x.1 x.2.1) s.hart.rows
  let whole (g : Nat) : Bool := ((List.range 8).all fun i => keys.contains (8 * g + i))
  let clean := s.hart.rowPoison.filter fun g => !whole g
  let bad := (keys.zip bs).foldl (fun l x => if x.2.2 then insertNat (x.1 / 8) l else l) clean
  { s with hart := { s.hart with rows := rows, rowPoison := bad } }

/-- The bytes of a run of memory with their poison. -/
def readRun (s : State) (a n : Nat) : List (Byte × Bool) :=
  (List.range n).map fun i => (readByte s (a + i), bytePoisoned s (a + i))

/-- The width at which `vsbind` checks its window under R50: that of `vtype`, where it has a type; a byte otherwise, which is a DESIGN
CHOICE (log 64). -/
def bindWidth (s : State) : Nat := ((ElemTy.ofCode (vtTy s.hart.csr.vtype)).map tyWidth).getD 8

/-- `vsbind` (R262): the checks, R50's three conditions first, and the record. -/
def bindCheck (s : State) (v a : Reg) : Except Exc (List Byte) := do
  let w := (vreg s v).win
  checkWin s (winOf s v (bindWidth s)) (vlOf s)
  let x := baseAddr s a
  checkFull s .load (baseTag s a) x 64 1
  match firstPoisoned s x 64 with
  | some p => throw (excAt 31 p)
  | none => pure ()
  let r := readBytes s x 64
  if !recordOk r (rowBytes s * w.len.toNat) ∨ (8 ≤ s.hart.streams.length ∧ (bindingOf s v).isNone) then
    throw (excAt 27 x)
  return r

def execVsbind (v a : Reg) (s : State) : Out :=
  if mustWait s false (baseAddr s a) 64 then stall s
  else checked s (bindCheck s v a) fun r =>
    let b : Stream := { reg := v, addr := gval s a, tag := baseTag s a, record := r, pos := 0, lease := (gpr s a).lease }
    .next (advance 4 { s with hart := { s.hart with streams := s.hart.streams.filter (·.reg != v) ++ [b] } })

def execVsunbind (v : Reg) (s : State) : Out :=
  .next (advance 4 { s with hart := { s.hart with streams := s.hart.streams.filter (·.reg != v) } })

def execBsend (v : Reg) (off : BitVec 12) (s : State) : Out :=
  match bindingOf s v with
  | none => raise0 s 27
  | some b => branch s 4 (b.pos == chunkCount b.record) (halfwords off)

end Sys2Proof.Machine
end

