-- ==== Sys2Proof/Machine/CopyLog.lean ====
section
/-!
DEFINITION. Copies in flight: their barriers (R316), their failures (R324), the checks of R321, and the re-issue of logged
copies at a restore (R310, R312).
-/

namespace Sys2Proof.Machine

/-- Record a failure on a barrier: err, and the cause if none is recorded (R324). -/
def recordFailure (s : State) (m : Reg3) (cause : Nat) : State :=
  let w := cpbOf s m
  setCpb s m (BitVec.ofNat 64 (2 ^ 63 + (if field w 50 6 = 0 then cause % 64 else field w 50 6) * 2 ^ 50 + cpbPending w))

/-! ### The checks of a side of a copy (R321) -/

/-- R72's check 5 for one side, of a copy that a replica on `slab` or a whole hart issued: rows, scalar memory and unbound
scratchpads are 23, device registers 26. -/
def copyMapFail (s : State) (k : Acc) (slab : Option Nat) (a n : Nat) : Option Exc :=
  (checkPoints a n).findSome? fun x =>
    if !placeAllowed slab k x then some (excAt 23 x)
    else if placeOf x = .device then some (excAt 26 x)
    else match byteCause s k (onSlab (slab.getD 0) x) with
      | some c => some (excAt c x)
      | none => if placeOf x = placeOf a then none else some (excAt k.bounds x)

/-- R72 for one side of a copy (R321): cause 29 with the failing address and the check's cause; a poisoned slot record is
consumed as control data (R399), and one with reserved bits set raises cause 1 (R8). -/
def checkCopyR72 (s : State) (k : Acc) (tag : BitVec 8) (slab : Option Nat) (a n : Nat) : Except Exc Unit := do
  let wrap (e : Exc) : Exc := if e.code = 31 ∨ e.code = 1 then e else excAt 29 (e.code * 2 ^ 58 + e.tval.toNat % 2 ^ 52)
  match checkSlot s k tag a n with
  | .error e => throw (wrap e)
  | .ok _ => pure ()
  match copyMapFail s k slab a n with
  | some e => throw (wrap e)
  | none => pure ()
  match checkSelvedge s k a n with
  | .error e => throw (wrap e)
  | .ok _ => pure ()

/-! ### Copies in flight (R310, R324, R312) -/

/-- Replace a copy, or drop it with its share of the entries when nothing is left of it (R317). -/
def setCopy (s : State) (c : Copy) : State :=
  if c.total ≤ c.done then { s with copies := s.copies.filter (·.seq != c.seq), entries := leaveEntries s.entries c.seq }
  else { s with copies := s.copies.map fun x => if x.seq = c.seq then c else x }

/-- A copy fails: what is left of it is given up (R324). The current hart is the copy's. -/
def failCopy (s : State) (c : Copy) (cause : Nat) : State :=
  setCopy (recordFailure (countDown s c.bar c.left) c.bar cause) { c with done := c.total }

/-- A copy has not left the decoupling queue: it stands there itself, or behind a `cpb` that waits (R315, R323). -/
def Copy.inQueue (s : State) (c : Copy) : Bool := c.queued || gated s c.seq

/-- The `cpb` instructions of the current hart that still hold something back (R323). -/
def openGates (s : State) : List Gate :=
  s.hart.gates.filter fun g => gated { s with hart := { s.hart with gates := [g] } } (g.upTo + 1)

/-- Copies of the current hart that stand in its queue behind a `cpb`, apart from those of its queue entries. -/
def gatedCopies (s : State) : List Copy := s.copies.filter fun c => c.cid == s.hart.cid && !c.queued && !c.logged && gated s c.seq

/-- The entries of the decoupling queue that the hart uses: its queued instructions, those of its replicas, its open `cpb`
instructions and the copies behind them (R22, R323). -/
def queueUsed (s : State) : Nat :=
  s.hart.queue.length + ((s.hart.par.map fun p => p.rest.map (·.flight.queue.length)).getD []).foldl (· + ·) 0 +
    (openGates s).length + (gatedCopies s).length

/-- The decoupling queue is full: the scalar side stalls at the dispatch of one more instruction (R22). -/
def queueFull (s : State) : Bool := 256 ≤ queueUsed s

/-- A logged copy is issued again as a new copy of its tail, checked under R72 with its logged tags; it takes entries of its own
(R312). The current hart is the copy's. -/
def reissueCopy (s : State) (c : Copy) : State :=
  let r := c.done / c.rowBytes
  let o := c.done % c.rowBytes
  let rowCheck (k : Acc) (tag : BitVec 8) (base pitch : Word) (i : Nat) : Except Exc Unit :=
    let skip := if i = 0 then o else 0
    checkCopyR72 s k tag c.slab (base + BitVec.ofNat 64 (r + i) * pitch + BitVec.ofNat 64 skip).toNat (c.rowBytes - skip)
  let fails (k : Acc) (tag : BitVec 8) (base pitch : Word) : Option Exc :=
    (List.range (c.rows - r)).findSome? fun i =>
      match rowCheck k tag base pitch i with
      | .error e => some e
      | .ok _ => none
  let code (e : Exc) : Nat := if e.code = 29 then e.tval.toNat / 2 ^ 58 else e.code
  match fails .load c.srcTag c.src c.srcPitch, fails .store c.dstTag c.dst c.dstPitch with
  | some e, _ => failCopy s c (code e)
  | none, some e => failCopy s c (code e)
  | none, none => { (setCopy s { c with logged := false }) with entries := takeEntries s.entries c }

/-- The copies of the current hart that wait for interlock entries after a restore: those in its queue, then the logged ones, in their
order (R312, R317). -/
def toReissue (s : State) : List Copy :=
  let mine := s.copies.filter (·.cid == s.hart.cid)
  let bare (c : Copy) : Bool := !s.entries.any fun e => e.copies.contains c.seq
  (mine.filter fun c => !c.logged && bare c) ++ mine.filter (·.logged)

/-- Issue copies again, until one finds no entries or no room free (R312, R317, R318). -/
def reissue (s : State) : List Copy → State
  | [] => s
  | c :: l =>
    if 32 < (takeEntries (entriesHere s) c).length || (c.logged && copiesFull s) then s
    else reissue (if c.logged then reissueCopy s c else { s with entries := takeEntries s.entries c }) l

/-- The copies of the current hart take their entries again and are issued again, as far as entries are free. -/
def reissueAll (s : State) : State := reissue s (toReissue s)

/-- The copies of a context that have left its queue are logged; the others are saved with the queue (R310). The entries of all of
them are free. -/
def logCopies (s : State) (cid : Nat) : State :=
  let h := (contextOf s cid).getD {}
  { s with
    copies := s.copies.map fun c => if c.cid = cid then { c with logged := !c.inQueue { s with hart := h } } else c
    entries := s.entries.filter (·.cid != cid) }

/-- Context `cid` resumes after a save and a restore: its copies are logged, and issued again (R310, R312). -/
def relog (s : State) (cid : Nat) : State :=
  match asHart (logCopies s cid) cid fun t => .next (reissueAll t) with
  | .next t => t
  | _ => s

/-- A copy has bytes left that it is to write to the cold tier or the host window. -/
def Copy.toFarHome (c : Copy) : Bool :=
  (copyAhead c).any fun r =>
    match placeOf r.1 with
    | .cold _ | .host => true
    | _ => false

/-- A copy of the current hart to the cold tier or the host window has left the queue and has bytes that have not completed at their
home: it has not passed its fault horizon, and nothing that comes later passes its own (R350). -/
def beforeHorizon (s : State) : Bool := s.copies.any fun c => c.cid == s.hart.cid && !c.queued && c.toFarHome

end Sys2Proof.Machine
end

