-- ==== Sys2Proof/Machine/Csr.lean ====
section
/-!
DEFINITION. Control and status registers: who may read and write them, what they read as, what a write checks and does
(R57 to R61, R346, R351), and the instructions that access them (R122).
-/

namespace Sys2Proof.Machine

/-! ### Permissions (R57) -/

/-- A CSR's permissions: the least mode that may read it, the least that may write it (3: none); `none` if the number is
not assigned. -/
def csrPerm (n : Nat) : Option (Nat × Nat) :=
  if n = 0x010 ∨ n = 0x011 ∨ n = 0x013 then some (0, 1)
  else if n = 0x012 ∨ (0x014 ≤ n ∧ n ≤ 0x016) ∨ n = 0x019 then some (0, 0)
  else if n = 0x018 ∨ n = 0x031 ∨ n = 0x0C0 ∨ n = 0x0C1 ∨ n = 0x0C8 ∨ n = 0x0C9 then some (0, 3)
  else if n = 0x020 ∨ n = 0x030 then some (0, 1)
  else if 0x021 ≤ n ∧ n ≤ 0x023 then some (0, 0)
  else if (0x040 ≤ n ∧ n ≤ 0x04F) ∨ (0x050 ≤ n ∧ n ≤ 0x057) ∨ (0x0A0 ≤ n ∧ n ≤ 0x0BF) then some (0, 1)
  else if (0x060 ≤ n ∧ n ≤ 0x09F) ∨ (0x0D0 ≤ n ∧ n ≤ 0x0DF) then some (0, 0)
  else if (0x100 ≤ n ∧ n ≤ 0x105) ∨ n = 0x108 ∨ n = 0x110 then some (1, 1)
  else if n = 0x200 ∨ n = 0x202 ∨ (0x210 ≤ n ∧ n ≤ 0x21F) ∨ n = 0x220 then some (1, 2)
  else if n = 0x201 then some (2, 2)
  else none

/-- The causes of R57's checks 1 and 2. -/
def csrCheck (s : State) (n : Nat) (write : Bool) : Except Exc Unit :=
  match csrPerm n with
  | none => .error { code := 5, tval := BitVec.ofNat 64 n }
  | some (r, w) =>
    if (if write then w else r) ≤ mode s then .ok () else .error { code := 4, tval := BitVec.ofNat 64 n }

/-! ### Loop registers (R255, R257) -/

/-- The innermost loop is the parallel loop whose replica runs. -/
def inReplicaLoop (s : State) : Option ParLoop :=
  match s.hart.par with
  | some p => if s.hart.loops.depth = p.depth then some p else none
  | none => none

/-- The strip of the loop at depth `d` among open loops. -/
def stripAt (l : Loops) (d : Nat) : Nat :=
  (if l.depth ≤ d then l.cur.strip else ((l.stack[l.depth - d - 1]?).getD {}).strip).toNat

/-- The strips of a parallel loop that have not started: those of each replica above the one that it is running (R31, R257). -/
def stripsToCome (s : State) (p : ParLoop) : Nat :=
  ((s.hart.loops :: p.rest.map (·.loops)).map fun l => (p.count - 1 - stripAt l p.depth) / max s.hart.g 1).foldl (· + ·) 0

/-- `lpcount`: the last value written, else the count; in a replica the strips that have not started (R257). -/
def readLpcount (s : State) : Word :=
  match s.hart.loops.pendCount, inReplicaLoop s with
  | some v, _ => v
  | none, some p => BitVec.ofNat 64 (stripsToCome s p)
  | none, none => s.hart.loops.cur.lpcount

/-- Record or apply a write of a loop register (R255). -/
def writeLoopReg (s : State) (r : LoopReg) (v : Word) : State :=
  let l := s.hart.loops
  let l' := if l.depth = 0 then
      match r with
      | .lpstart => { l with cur := { l.cur with lpstart := v } }
      | .lpend => { l with cur := { l.cur with lpend := v } }
      | .lpcount => { l with cur := { l.cur with lpcount := v } }
    else
      match r with
      | .lpstart => { l with pendStart := some v }
      | .lpend => { l with pendEnd := some v }
      | .lpcount => { l with pendCount := some v }
  { s with hart := { s.hart with loops := l' } }

/-! ### Reading -/

/-- The value of the packed window register `vwb`, `vwl`, `kwb`, `kwl`, `vpi` number `i`. -/
def vpiValue (x : VReg) : Word := BitVec.ofNat 64 (b2n x.busy * 4096 + x.groups.toNat)

/-- The IDs whose loads have not performed: the one that a stalled load keeps (R59, R168). -/
def pendingLeases (h : Hart) : BitVec 16 :=
  match h.inProgress with
  | some id => h.leasePending ||| (1#16 <<< id.toNat)
  | none => h.leasePending

/-- The value of an assigned CSR. That `beatmap` reads as the value last written, before it has taken effect (R40), is a DESIGN CHOICE
(log 58); that `vpi` is read at the turn of the `csrrd`, when every earlier instruction has completed (R60), is one too (log 23). -/
def csrValue (s : State) (n : Nat) : Word :=
  let h := s.hart
  let c := h.csr
  if n = 0x010 then c.vl
  else if n = 0x011 then c.vtype.zeroExtend 64
  else if n = 0x012 then c.vstart
  else if n = 0x013 then c.vrestart
  else if n = 0x014 then c.vxstat.zeroExtend 64
  else if n = 0x015 then c.rndstate.zeroExtend 64
  else if n = 0x016 then c.fstat.zeroExtend 64
  else if n = 0x018 then BitVec.ofNat 64 h.grant
  else if n = 0x019 then c.mretry.zeroExtend 64
  else if n = 0x020 then h.loops.cur.strip
  else if n = 0x021 then h.loops.pendStart.getD h.loops.cur.lpstart
  else if n = 0x022 then h.loops.pendEnd.getD h.loops.cur.lpend
  else if n = 0x023 then readLpcount s
  else if n = 0x030 then c.slotbase
  else if n = 0x031 then BitVec.ofNat 64 ((heldLeases h).toNat * 2 ^ 16 + (pendingLeases h).toNat)
  else if 0x040 ≤ n ∧ n ≤ 0x04F then c.wm.toList.getD (n - 0x040) 0
  else if 0x050 ≤ n ∧ n ≤ 0x057 then c.cpb.toList.getD (n - 0x050) 0
  else if 0x060 ≤ n ∧ n ≤ 0x07F then (vreg s (BitVec.ofNat 5 (n - 0x060))).win.base.zeroExtend 64
  else if 0x080 ≤ n ∧ n ≤ 0x09F then (vreg s (BitVec.ofNat 5 (n - 0x080))).win.len.zeroExtend 64
  else if 0x0A0 ≤ n ∧ n ≤ 0x0BF then vpiValue (vreg s (BitVec.ofNat 5 (n - 0x0A0)))
  else if n = 0x0C0 then BitVec.ofNat 64 (hartIdOf h.slot)
  else if n = 0x0C1 then BitVec.ofNat 64 (gangIdOf s h)
  else if n = 0x0C8 then BitVec.ofNat 64 s.cycle
  else if n = 0x0C9 then BitVec.ofNat 64 (timeNs s)
  else if 0x0D0 ≤ n ∧ n ≤ 0x0D7 then (kreg s (BitVec.ofNat 3 (n - 0x0D0))).win.base.zeroExtend 64
  else if 0x0D8 ≤ n ∧ n ≤ 0x0DF then (kreg s (BitVec.ofNat 3 (n - 0x0D8))).win.len.zeroExtend 64
  else if n = 0x100 then c.status.zeroExtend 64
  else if n = 0x101 then c.tvec
  else if n = 0x102 then c.epc
  else if n = 0x103 then c.cause
  else if n = 0x104 then c.tval
  else if n = 0x105 then c.scratch
  else if n = 0x108 then boolWord c.scopepol
  else if n = 0x110 then (part s h.partId).notifybm
  else if n = 0x200 then (frontEnd s (feOf h.slot)).beatPending.getD (frontEnd s (feOf h.slot)).beatmap
  else if n = 0x201 then (frontEnd s (feOf h.slot)).harness
  else if n = 0x202 then (slotCfg s h.slot).rowrange
  else if 0x210 ≤ n ∧ n ≤ 0x21F then (slotCfg s h.slot).selvedge.toList.getD (n - 0x210) 0
  else if n = 0x220 then (slotCfg s h.slot).part
  else 0

/-! ### Configuration writes (R23, R25, R40, R73, R336): `none` is cause 4 -/

/-- A half-slab by its site and side, as entry `j` of a harness names it for lanes 0 to 15 or 16 to 31 (R24). -/
def halfOf (fe : Nat) (v : Word) (j : Nat) (b : Bool) : Nat :=
  if b then Config.siteOf fe (field v (16 * j + 8) 3) * 2 + field v (16 * j + 7) 1
  else Config.siteOf fe (field v (16 * j + 12) 3) * 2 + field v (16 * j + 11) 1

/-- Entry `j` of a harness is valid. -/
def entryValid (v : Word) (j : Nat) : Bool := bit v (16 * j + 15)

/-- The number of valid entries, g (R24). -/
def harnessSlabs (v : Word) : Nat := ((List.range 4).filter (entryValid v)).length

/-- The halves that a harness binds. -/
def boundHalves (fe : Nat) (v : Word) : List Nat :=
  ((List.range 4).filter (entryValid v)).flatMap fun j => [halfOf fe v j false, halfOf fe v j true]

/-- Site and side codes of the halves that a harness names, to see a half named twice. -/
def halfCodes (v : Word) : List Nat :=
  ((List.range 4).filter (entryValid v)).flatMap fun j => [field v (16 * j + 11) 4, field v (16 * j + 7) 4]

/-- No number stands twice in a list. -/
def distinct : List Nat → Bool
  | [] => true
  | x :: l => !l.contains x && distinct l

/-- The slots of a front end. -/
def slotsOf (fe : Nat) : List Nat := [4 * fe, 4 * fe + 1, 4 * fe + 2, 4 * fe + 3]

/-- The harts that hold slots of a front end. -/
def hartsOn (s : State) (fe : Nat) : List Hart := (slotsOf fe).filterMap (slotHolder s)

/-- Another front end's harness binds one of the halves. -/
def halfTaken (s : State) (fe : Nat) (hs : List Nat) : Bool :=
  (List.range (Config.stackCount * Config.frontEndsPerStack)).any fun f =>
    f != fe && (boundHalves f (frontEnd s f).harness).any hs.contains

/-- The checks of R25 on a harness value. -/
def harnessOk (s : State) (fe : Nat) (v : Word) : Bool :=
  let js := List.range 4
  js.all (fun j => field v (16 * j) 7 == 0 && field v (16 * j + 12) 3 ≤ 4 && field v (16 * j + 8) 3 ≤ 4) &&
    js.all (fun j => !entryValid v (j + 1) || entryValid v j || 3 ≤ j) &&
    distinct (halfCodes v) &&
    !(boundHalves fe v).any s.fencedHalves.contains &&
    !halfTaken s fe (boundHalves fe v) &&
    (harnessSlabs v == harnessSlabs (frontEnd s fe).harness || (hartsOn s fe).isEmpty)

/-- Beats of a matrix step that has not committed issue again after a restore (R308). -/
def beatsKept (i : Option Instr) (issued : Nat) : Nat :=
  match i with
  | some (.vmma ..) | some (.vmmas ..) => 0
  | _ => issued

/-- A queued instruction after a restore: it forms its chain again without a chain slot (R340, R43); a wait goes on now. -/
def QEntry.resumed (now : Nat) (q : QEntry) : QEntry :=
  { (q.settled now false) with chain := .chained, issued := beatsKept (some q.instr) q.issued }

/-- A replica after a restore of its hart. -/
def Replica.resumed (now : Nat) (r : Replica) : Replica :=
  let r := r.refetch.settled now false
  let f := r.flight
  { r with flight := { f with issued := beatsKept (f.current.map (·.2)) f.issued, queue := f.queue.map (QEntry.resumed now) } }

/-- A context after a restore: a wait starts over, or is resumed in place (R128); an instruction that is not part-way done is fetched
anew; cause 55 is owed where the hart asked for it (R346). -/
def resumedHart (s : State) (h : Hart) : Hart :=
  let inPlace := h.wait != .none && !h.wait.startsOver
  let h := h.refetch
  { h with
    phase := if inPlace then .parked else .launched
    wait := if inPlace then h.wait else .none
    waitSince := timeNs s
    issued := beatsKept (h.current.map (·.2)) h.issued
    queue := h.queue.map (QEntry.resumed (timeNs s))
    par := h.par.map fun p => { p with rest := p.rest.map (Replica.resumed (timeNs s)) }
    owes55 := h.owes55 || bit h.csr.status 11 }

/-- A hart is pre-empted and restored at once, on its slot (R25, R339); one that a move has stopped goes on at its release (R128), and
one whose `exit` has begun completes it (R126). -/
def rebound (s : State) (h : Hart) : Hart :=
  if h.phase ≠ .launched ∧ h.phase ≠ .parked then h
  else if h.stopped then { h with owes55 := h.owes55 || bit h.csr.status 11 }
  else resumedHart s (settled s h)

/-- The partitions that own harts of a front end. -/
def ownersOn (s : State) (fe : Nat) : List Nat := (hartsOn s fe).foldl (fun l h => insertNat h.partId l) []

/-- Cause 60 to a partition, with a log entry of kind 4 (R25, R354, R360). -/
def postHarnessChange (s : State) (fe p : Nat) : State :=
  let i := logIndex s p
  postAsync (logEntry s p 60 4 (BitVec.ofNat 64 fe) {}) p 60 i

/-- Bind a front end's halves anew: the gangs of its harts go on as after a pre-emption and a restore (R339), with their copies
logged and issued again (R312); their partitions get cause 60. -/
def rebind (s : State) (fe : Nat) (v : Word) : State :=
  let owners := ownersOn s fe
  let here := hartsOn s fe
  let moved (h : Hart) : Bool :=
    h.phase != .preempted && here.any fun k => k.gangStack == h.gangStack && k.gang == h.gang
  let s := setFrontEnd s fe { frontEnd s fe with harness := v }
  let s := mapContexts (fun h => if moved h then rebound s h else h) s
  let s := (((contexts s).filter moved).map (·.cid)).foldl relog s
  owners.foldl (fun s p => postHarnessChange s fe p) s

/-- A write of `harness` (R25). -/
def writeHarness (s : State) (fe : Nat) (v : Word) : Option State :=
  if harnessOk s fe v then some (rebind s fe v) else none

/-- Owner `b` of a beat map (R39). -/
def beatOwner (v : Word) (b : Nat) : Nat := field v (4 * b) 4

/-- A write of `beatmap` (R40): recorded, in effect from the next frame. -/
def writeBeatmap (s : State) (fe : Nat) (v : Word) : Option State :=
  let owners := (List.range 16).map (beatOwner v)
  let parts := (slotsOf fe).map fun x => field (slotCfg s x).part 0 4
  if owners.any (fun o => o = 13 ∨ o = 14) ∨ parts.any (fun p => p ≠ Config.noPartition ∧ !owners.contains p) then none
  else some (setFrontEnd s fe { frontEnd s fe with beatPending := some v })

/-- A write of `rowrange` (R23). -/
def writeRowrange (s : State) (slot : Nat) (v : Word) : Option State :=
  let lo := rowBase v
  let n := rowLength v
  let clash := (slotsOf (feOf slot)).any fun x =>
    x != slot && lo < rowBase (slotCfg s x).rowrange + rowLength (slotCfg s x).rowrange &&
      rowBase (slotCfg s x).rowrange < lo + n
  if slotLive s slot ∨ field v 28 36 ≠ 0 ∨ field v 11 5 ≠ 0 ∨ n = 0 ∨ 2048 < lo + n ∨ clash then none
  else some (setSlotCfg s slot { slotCfg s slot with rowrange := v })

/-- A memory without the cells of a range, on every ganged slab of it: cleared to zero (R63). -/
def clearRange (m : Mem) (unit lo n : Nat) : Mem := m.filter fun c => !(lo ≤ c.1 % unit && c.1 % unit < lo + n)

/-- The chunks of a slot's range of bytes, `unit` bytes each. -/
def chunksOf (unit base len : Nat) : List Nat := (List.range (len / unit)).map (base / unit + ·)

/-- The partition that last held a chunk; before any assignment the device partition may have (R395). -/
def ownerOf (t : Tab Nat) (i : Nat) : Nat := t.get Config.devicePartition i

/-- Before a slot's ranges pass to partition `p`, every chunk of them that another partition held last is cleared (R63). -/
def claimRanges (f : FrontEnd) (p : Nat) (w : Word) : FrontEnd :=
  let sp := (chunksOf 4096 (spBase w) (spLen w)).filter fun i => ownerOf f.scratchOwner i != p
  let sd := (chunksOf 1024 (sdBase w) (sdLen w)).filter fun i => ownerOf f.sdmOwner i != p
  { f with
    scratch := sp.foldl (fun m i => clearRange m 0x100000 (4096 * i) 4096) f.scratch
    scratchPoison := f.scratchPoison.filter fun g => !sp.contains (8 * g % 0x100000 / 4096)
    sdm := sd.foldl (fun m i => clearRange m 0x10000 (1024 * i) 1024) f.sdm
    scratchOwner := sp.foldl (fun t i => t.set i p) f.scratchOwner
    sdmOwner := sd.foldl (fun t i => t.set i p) f.sdmOwner }

/-- The instruction cache of a front end on which a partition gains its first slot holds no line of it: lines are tagged by partition
(R63, R125). -/
def claimLines (s : State) (slot p : Nat) : State :=
  let fe := feOf slot
  if (slotsOf fe).any fun x => field (slotCfg s x).part 0 4 == p then s
  else setFrontEnd s fe { frontEnd s fe with imem := s.mem }

/-- A write of `part` (R336). -/
def writePart (s : State) (slot : Nat) (v : Word) : Option State :=
  let p := field v 0 4
  if slotLive s slot ∨ field v 56 8 ≠ 0 ∨ field v 4 22 ≠ 0 ∨ p = 13 ∨ p = 14 ∨ 0x100000 < spBase v + spLen v ∨
      0x10000 < sdBase v + sdLen v then none
  else
    let s := if p = Config.noPartition then s
      else
        let t := claimLines s slot p
        setFrontEnd t (feOf slot) (claimRanges (frontEnd t (feOf slot)) p v)
    some (setSlotCfg s slot { slotCfg s slot with part := v, held := false })

/-- A write of `selvedge` number `i` (R73). -/
def writeSelvedge (s : State) (slot : Nat) (i : BitVec 4) (v : Word) : Option State :=
  let lsz := field v 0 6
  if slotLive s slot ∨ field v 52 12 ≠ 0 ∨ field v 10 2 ≠ 0 ∨ bit v 6 ∨ (1 ≤ lsz ∧ lsz ≤ 11) ∨ 52 < lsz ∨
      (12 ≤ lsz ∧ field v 12 40 * 4096 % 2 ^ lsz ≠ 0) then none
  else
    let c := slotCfg s slot
    some (setSlotCfg s slot { c with selvedge := c.selvedge.set i.toNat v i.isLt })

/-! ### Writing -/

/-- The scheduling region named by a value lies in bonded DRAM and is aligned (R330). -/
def regionOk (v : Word) : Bool :=
  v.toNat % 4096 == 0 && (placeOf v.toNat).isDram && placeOf (v.toNat + 0x2063F) == placeOf v.toNat

/-- A watermark object by the binding that names it (R194). -/
def markKey (v : Nat) : Nat := v / 2 ^ 16 % 16 * 4096 + v / 16 % 4096

/-- A binding is well formed and names an object of the partition (R194). -/
def bindingOk (s : State) (v : Word) : Bool :=
  bit v 0 && field v 1 3 == 0 && field v 20 28 == 0 &&
    match s.marks.find? (markKey v.toNat) with
    | some m => m.owner == s.hart.partId
    | none => false

/-- Write a watermark binding. -/
def setWm (s : State) (n : BitVec 4) (v : Word) : State := setCsrs s fun c => { c with wm := c.wm.set n.toNat v n.isLt }

/-- A hart that names a table with an open move stops at once (R76). -/
def stopForTable (s : State) : State :=
  if s.moves.any fun m => usesTable m s.hart then { s with hart := { s.hart with stopPending := false, stopped := true } }
  else { s with hart := { s.hart with stopPending := false } }

/-- The new `status` of a write (R346), if the value is accepted. -/
def statusWrite (s : State) (v : Word) : Option (BitVec 12) :=
  let pm := field v 3 2
  if field v 12 52 ≠ 0 ∨ field v 7 2 ≠ 0 ∨ pm = 3 ∨ (pm = 2 ∧ mode s = modeS) then none
  else some ((v.truncate 12 &&& 0xF9F) ||| (s.hart.csr.status &&& 0x060))

/-- What a write of an assigned CSR does: the state, or the cause (4 for a value that the register rejects). That `vpi` takes a
count above 2,048 is a DESIGN CHOICE (log 40). -/
def csrWrite (s : State) (n : Nat) (v : Word) : Except Nat State :=
  let ok (b : Bool) (t : State) : Except Nat State := if b then .ok t else .error 4
  let opt (x : Option State) : Except Nat State := match x with | some t => .ok t | none => .error 4
  let fe := feOf s.hart.slot
  if n = 0x010 then .ok (setCsrs s ({ · with vl := v }))
  else if n = 0x011 then ok (field v 10 54 == 0) (setCsrs s ({ · with vtype := v.truncate 10 }))
  else if n = 0x012 then .ok (setCsrs s ({ · with vstart := v }))
  else if n = 0x013 then .ok (setCsrs s ({ · with vrestart := v }))
  else if n = 0x014 then ok (field v 6 58 == 0) (setCsrs s ({ · with vxstat := v.truncate 6 }))
  else if n = 0x015 then ok (field v 32 32 == 0 && v != 0) (setCsrs s ({ · with rndstate := v.truncate 32 }))
  else if n = 0x016 then ok (field v 8 56 == 0 && field v 5 3 ≤ 3) (setCsrs s ({ · with fstat := v.truncate 8 }))
  else if n = 0x019 then ok (field v 4 60 == 0) (setCsrs s ({ · with mretry := v.truncate 4 }))
  else if n = 0x020 then
    .ok { s with hart := { s.hart with loops := { s.hart.loops with cur := { s.hart.loops.cur with strip := v } } } }
  else if n = 0x021 then if s.hart.par.isSome then .error 1 else .ok (writeLoopReg s .lpstart v)
  else if n = 0x022 then if s.hart.par.isSome then .error 1 else .ok (writeLoopReg s .lpend v)
  else if n = 0x023 then .ok (writeLoopReg s .lpcount v)
  else if n = 0x030 then
    ok (field v 0 5 == 0 && field v 52 12 == 0)
      (stopForTable { (setCsrs s ({ · with slotbase := v })) with
        hart := { (setCsrs s ({ · with slotbase := v })).hart with genCache := [] } })
  else if 0x040 ≤ n ∧ n ≤ 0x04F then ok (v == 0 || bindingOk s v) (setWm s (BitVec.ofNat 4 (n - 0x040)) v)
  else if 0x050 ≤ n ∧ n ≤ 0x057 then
    ok (field v 56 7 == 0 && field v 48 2 == 0) (setCpb s (BitVec.ofNat 3 (n - 0x050)) v)
  else if 0x060 ≤ n ∧ n ≤ 0x07F then
    let r := BitVec.ofNat 5 (n - 0x060)
    let x := vreg s r
    ok (field v 11 53 == 0) (setVreg s r { x with win := { x.win with base := v.truncate 11 } })
  else if 0x080 ≤ n ∧ n ≤ 0x09F then
    let r := BitVec.ofNat 5 (n - 0x080)
    let x := vreg s r
    ok (v.toNat ≤ 2048) (setVreg s r { x with win := { x.win with len := v.truncate 12 } })
  else if 0x0A0 ≤ n ∧ n ≤ 0x0BF then
    let r := BitVec.ofNat 5 (n - 0x0A0)
    ok (field v 13 51 == 0) (setVreg s r { vreg s r with busy := bit v 12, groups := v.truncate 12 })
  else if 0x0D0 ≤ n ∧ n ≤ 0x0D7 then
    let r := BitVec.ofNat 3 (n - 0x0D0)
    let x := kreg s r
    ok (field v 11 53 == 0) (setKreg s r { x with win := { x.win with base := v.truncate 11 } })
  else if 0x0D8 ≤ n ∧ n ≤ 0x0DF then
    let r := BitVec.ofNat 3 (n - 0x0D8)
    let x := kreg s r
    ok (v.toNat ≤ 2048) (setKreg s r { x with win := { x.win with len := v.truncate 12 } })
  else if n = 0x100 then
    match statusWrite s v with
    | some st => .ok (setCsrs s ({ · with status := st }))
    | none => .error 4
  else if n = 0x101 then ok (field v 52 12 == 0 && field v 0 2 == 0) (setCsrs s ({ · with tvec := v }))
  else if n = 0x102 then ok (field v 52 12 == 0 && !bit v 0) (setCsrs s ({ · with epc := v }))
  else if n = 0x103 then ok (field v 6 57 == 0) (setCsrs s ({ · with cause := v }))
  else if n = 0x104 then .ok (setCsrs s ({ · with tval := v }))
  else if n = 0x105 then .ok (setCsrs s ({ · with scratch := v }))
  else if n = 0x108 then ok (field v 1 63 == 0) (setCsrs s ({ · with scopepol := bit v 0 }))
  else if n = 0x110 then
    ok (regionOk v)
      (setPart s s.hart.partId { part s s.hart.partId with notifybm := v, eventHart := some s.hart.cid })
  else if n = 0x200 then opt (writeBeatmap s fe v)
  else if n = 0x201 then opt (writeHarness s fe v)
  else if n = 0x202 then opt (writeRowrange s s.hart.slot v)
  else if 0x210 ≤ n ∧ n ≤ 0x21F then opt (writeSelvedge s s.hart.slot (BitVec.ofNat 4 (n - 0x210)) v)
  else if n = 0x220 then opt (writePart s s.hart.slot v)
  else .error 4

/-- An access of a CSR waits: a write of `slotbase` for the hart's earlier vector, copy and stream instructions (R61); any access of
`vxstat` for its merges, which have not completed before their last copy is applied and bring flags of their own (R60, R191). -/
def csrWaits (s : State) (write : Bool) (n : Nat) : Bool :=
  (write && n == 0x030 && !vectorQuiet s) || (n == 0x014 && s.merges.any (·.cid == s.hart.cid))

/-- A checked write of a CSR by the current hart (R57), then what follows. -/
def csrStore (s : State) (n : Nat) (v : Word) (go : State → Out) : Out :=
  checked s (csrCheck s n true) fun _ =>
    if csrWaits s true n then stall s
    else match csrWrite s n v with
      | .ok t => go t
      | .error c => raise s { code := c, tval := if c = 4 then BitVec.ofNat 64 n else 0 }

/-! ### The instructions (R122) -/

def execCsrrd (d : Reg) (csr : CsrNum) (s : State) : Out :=
  checked s (csrCheck s csr.toNat false) fun _ =>
    if csrWaits s false csr.toNat then stall s else finish s 4 d (result (csrValue s csr.toNat) {})
def execCsrwr (csr : CsrNum) (a : Reg) (s : State) : Out :=
  csrStore s csr.toNat (gval s a) fun t => .next (advance 4 t)
def execCsrset (csr : CsrNum) (a : Reg) (s : State) : Out :=
  csrStore s csr.toNat (csrValue s csr.toNat ||| gval s a) fun t => .next (advance 4 t)
def execCsrclr (csr : CsrNum) (a : Reg) (s : State) : Out :=
  csrStore s csr.toNat (csrValue s csr.toNat &&& ~~~(gval s a)) fun t => .next (advance 4 t)

/-! ### The writes as events of the machine: the same checks, without an instruction around them -/

/-- A CSR write of the current program, if there is one. -/
def csrEvent (s : State) (n : Nat) (v : Word) : Out := if s.hart.phase = .free then .next s else csrStore s n v .next

def execSlotbaseWrite (v : Word) (s : State) : Out := csrEvent s 0x030 v
def execNotifybmWrite (v : Word) (s : State) : Out := csrEvent s 0x110 v
def execWmCsrWrite (n : BitVec 4) (v : Word) (s : State) : Out := csrEvent s (0x040 + n.toNat) v
def execCpbCsrWrite (m : Reg3) (v : Word) (s : State) : Out := csrEvent s (0x050 + m.toNat) v

/-- The number of a loop register. -/
def loopRegNum : LoopReg → Nat
  | .lpstart => 0x021
  | .lpend => 0x022
  | .lpcount => 0x023

def execLoopRegisterWrite (r : LoopReg) (v : Word) (s : State) : Out := csrEvent s (loopRegNum r) v
def execStripWrite (v : Word) (s : State) : Out := csrEvent s 0x020 v
def execVlCsrWrite (v : Word) (s : State) : Out := csrEvent s 0x010 v
def execVstartWrite (v : Word) (s : State) : Out := csrEvent s 0x012 v

/-- A configuration write by a program in mode D to a slot or front end: cause 4 to that program if it is rejected. -/
def configWrite (s : State) (n : Nat) (x : Option State) : Out :=
  match x with
  | some t => .next t
  | none => if s.hart.phase = .launched ∧ mode s = modeD then raise s { code := 4, tval := BitVec.ofNat 64 n } else .next s

def execHarnessWrite (fe : Nat) (v : Word) (s : State) : Out := configWrite s 0x201 (writeHarness s fe v)
def execBeatmapWrite (fe : Nat) (v : Word) (s : State) : Out := configWrite s 0x200 (writeBeatmap s fe v)
def execRowrangeWrite (slot : Nat) (v : Word) (s : State) : Out := configWrite s 0x202 (writeRowrange s slot v)
def execPartWrite (slot : Nat) (v : Word) (s : State) : Out := configWrite s 0x220 (writePart s slot v)
def execSelvedgeWrite (slot : Nat) (i : BitVec 4) (v : Word) (s : State) : Out :=
  configWrite s (0x210 + i.toNat) (writeSelvedge s slot i v)

/-- A write of a register of BAR0 of PF0 that holds a plain value (R383). -/
def writePf0 (s : State) (off : Nat) (v : Word) : State :=
  if off = 0x10 then { s with pf0 := { s.pf0 with dctxBase := v &&& 0xFFFFFFFFFFFFF000 } }
  else if off = 0x18 then { s with pf0 := { s.pf0 with dctxCount := v.truncate 32, dctxStride := (v >>> 32).truncate 32 } }
  else s

/-- A write of a CSR, a device register or a register of PF0 that has no row of its own (R57). Of the last two the writer is PF0; a
program writes device registers by its stores (R64, R385). PF0's accesses before bring-up has finished are retried (R395); a value
that the register does not take changes nothing (log 56). -/
def execRegisterWrite (dest : RegDest) (v : Word) (s : State) : Out :=
  match dest with
  | .csr n => csrEvent s n.toNat v
  | .pf0 off => .next (if s.up then writePf0 s off v else s)
  | .device a =>
    let bs := leBytes 8 v.toNat
    if !s.up ∨ placeOf a ≠ .device then .next s
    else if undescribed true a 8 then .fault (.undescribedRegister a)
    else if badDevice s a bs then .next s
    else .next (deviceStore s (a - deviceBase) bs)

/-- Writing 0 to a partition's quarantine register (R360). -/
def execQuarantineRelease (p : Nat) (s : State) : Out := .next (devWrite s (.quarantine p) 0)

/-- Writing a vault control register (R361). -/
def execVaultControlWrite (v : Nat) (w : Word) (s : State) : Out := .next (devWrite s (.vault v) w)

/-- Once a vault's retirement has been asked for and its home entries have drained, it is retired (R361, R82). -/
def execVaultRetirement (v : Nat) (s : State) : Out :=
  let c := vaultCtl s v
  .next (if c.asked then { s with vaults := s.vaults.set v { c with retired := true } } else s)

end Sys2Proof.Machine
end

