-- ==== Sys2Proof/Machine/SaveArea.lean ====
section
/-!
DEFINITION. The save area of a pre-empted context (R341, R343, R345): where it lies, how long it is, what bytes it holds.

Sections whose inner layout the spec does not give hold their contents in a layout that is free (log 25).
-/

namespace Sys2Proof.Machine

/-! ### Where a save area lies (R330, R343, R383) -/

/-- A little-endian number of a partition's scheduling region, at an offset. -/
def regionNat (s : State) (p off n : Nat) : Nat := s.mem.readNat (canon ((part s p).notifybm.toNat + off)) n

/-- The context region of a partition: base, count, stride. The device partition's comes from PF0. -/
def contextRegion (s : State) (p : Nat) : Nat × Nat × Nat :=
  if p = Config.devicePartition then (s.pf0.dctxBase.toNat, s.pf0.dctxCount.toNat, s.pf0.dctxStride.toNat)
  else (regionNat s p 0x20608 8, regionNat s p 0x20610 4, regionNat s p 0x20614 4)

/-- The address of save area `i` of a partition (R343). -/
def areaAddr (s : State) (p i : Nat) : Nat :=
  let r := contextRegion s p
  r.1 + r.2.2 * i

/-- The bytes that a context needs (R345). -/
def areaBytes (grant g rows sp : Nat) : Nat := 0x9000 + grant * 512 * g + rows * 256 * g + sp * g

/-! ### The fixed part (R343) -/

/-- `n` zero bytes. -/
def zeroBytes (n : Nat) : List Byte := List.replicate n 0

/-- `n` free bytes of save number `k` from offset `o` on. -/
def freeBytes (k o n : Nat) : List Byte := (List.range n).map fun i => Config.saveByte k (o + i)

/-- A register's 16 bytes: value, then slot tag, lease set and S as R48 packs them. -/
def regBytes (x : GReg) : List Byte :=
  leBytes 8 x.val.toNat ++ leBytes 8 (x.tag.toNat + x.lease.ids.toNat * 2 ^ 8 + b2n x.lease.sat * 2 ^ 24)

/-- A lease set's word: bit 16 S, bits 15:0 leases. -/
def leaseBytes (l : LeaseSet) : List Byte := leBytes 4 (l.ids.toNat + b2n l.sat * 2 ^ 16)

/-- The 32 bytes of a stacked loop. -/
def loopBytes (l : LoopRegs) : List Byte :=
  leBytes 8 l.lpstart.toNat ++ leBytes 8 l.lpend.toNat ++ leBytes 8 l.lpcount.toNat ++ leBytes 8 l.strip.toNat

/-- `n` bytes of section `k` that hold these contents, in a layout that is free. -/
def sectionBytes (k : Nat) (contents : List Nat) (n : Nat) : List Byte := (List.range n).map (Config.saveLayout k contents)

/-- `count` entries of `n` bytes each of section `k`, of save number `save` from offset `o` on: those that are used, then free
bytes. -/
def entryBytes (save k o n count : Nat) (used : List (List Nat)) : List Byte :=
  (used.take count).flatMap (fun c => sectionBytes k c n) ++
    freeBytes save (o + n * min used.length count) (n * (count - used.length))

/-- A register, a lease set, a pending write, a loop, a region as contents. -/
def regNats (x : GReg) : List Nat := [x.val.toNat, x.tag.toNat, x.lease.ids.toNat, b2n x.lease.sat]
def leaseNats (l : LeaseSet) : List Nat := [l.ids.toNat, b2n l.sat]
def pendNats : Option Word → List Nat
  | none => [0, 0]
  | some v => [1, v.toNat]
def loopNats (l : LoopRegs) : List Nat := [l.lpstart.toNat, l.lpend.toNat, l.lpcount.toNat, l.strip.toNat]
def pendingNats (l : Loops) : List Nat := pendNats l.pendStart ++ pendNats l.pendEnd ++ pendNats l.pendCount
def regionNats (x : Region) : List Nat := [x.mask.toNat, b2n x.skip]

/-- A parked wait: its kind, its address and compare value, and the other operands. -/
def waitNats (h : Hart) : List Nat :=
  let reg (r : Reg) : Nat := if r = 0 then 0 else h.regs[r.toNat].val.toNat
  match h.wait with
  | .none => [0, 0, 0]
  | .waitw sz aq d b a => [1, reg a, reg b % 2 ^ (if sz = .w then 32 else 64), sz.code, b2n aq, d.toNat]
  | .vwait a b => [2, reg a, reg b]
  | .cpwait m => [3, 0, 0, m.toNat]
  | .launch d a => [4, reg a, 0, d.toNat]
  | .gbar => [5, 0, 0]
  | .vsred vd va m => [6, 0, 0, vd.toNat, va.toNat, m.toNat]
  | .ecall => [7, 0, 0]

/-- The replica of slab `j` of a running parallel loop, the running one among them. -/
def replicaOn (h : Hart) (j : Nat) : Option Replica :=
  match h.par with
  | none => none
  | some p =>
    if p.active = j then
      some { slab := j, pc := h.pc, regs := h.regs, loops := h.loops, regions := h.regions, rnd := h.csr.rndstate,
             flight := h.flight }
    else (p.rest ++ p.ended).find? (·.slab == j)

/-- The context as the main part of an area holds it: its scalar side, which may be ahead of the queued instructions (R22), or its
replica on slab 0 (R32). -/
def mainContext (h : Hart) : Hart :=
  match h.front, replicaOn h 0 with
  | some f, _ => { h with pc := f.pc, regs := f.regs, csr := { h.csr with fstat := f.fstat } }
  | none, none => h
  | none, some r =>
    { h with pc := r.pc, regs := r.regs, loops := r.loops, regions := r.regions, csr := { h.csr with rndstate := r.rnd } }

/-- An entry of the decoupling queue: the instruction, the captured operands (R22), the time spent waiting (R182). -/
def queueNats (q : QEntry) : List Nat := [q.pc.toNat, encode q.instr, q.waitNs] ++ q.regs.toList.map (·.val.toNat)

/-- How far a replica has got with its instruction, and what it has dispatched behind it. -/
def flightNats (f : Flight) : List Nat :=
  [f.vstart.toNat, f.issued, b2n f.fed, b2n f.fromZero, b2n f.headed, f.waitNs, f.stalled.length] ++
    (match f.inProgress with
      | none => [0]
      | some id => [1, id.toNat]) ++
    (match f.bound with
      | none => [0]
      | some b => 1 :: b.toList.map (·.toNat)) ++
    (match f.retry with
      | none => [0]
      | some n => [1, n.toNat]) ++
    f.queue.flatMap queueNats

/-- A replica as contents. -/
def replicaNats (r : Replica) : List Nat :=
  r.pc.toNat :: r.regs.toList.flatMap regNats ++ (r.loops.cur :: r.loops.stack).flatMap loopNats ++ pendingNats r.loops ++
    r.regions.flatMap regionNats ++ r.rnd.toNat :: flightNats r.flight

/-- A logged copy in the form of R310: the addresses of the first byte left, the bytes left, barrier, slot tags; and the rows of
a `cpyx`. -/
def copyNats (c : Copy) : List Nat :=
  let r := BitVec.ofNat 64 (c.done / c.rowBytes)
  let o := BitVec.ofNat 64 (c.done % c.rowBytes)
  [(c.dst + r * c.dstPitch + o).toNat, (c.src + r * c.srcPitch + o).toNat, c.left, c.bar.toNat, c.dstTag.toNat, c.srcTag.toNat] ++
    if c.rows = 1 then [] else [c.rowBytes, c.done % c.rowBytes, c.dstPitch.toNat, c.srcPitch.toNat]

/-- What stands in the decoupling queue of a context: its open `cpb` instructions, the copies behind them, its queued
instructions (R310, R323). -/
def queuedNats (s : State) (h : Hart) : List (List Nat) :=
  let t := { s with hart := h }
  ((openGates t).map fun g => [0, g.bar.toNat, g.limit, g.upTo]) ++ ((gatedCopies t).map fun c => 1 :: copyNats c) ++
    h.queue.map fun q => 2 :: queueNats q

/-- The vector registers as a save finds them: those that a queued instruction writes which has groups issued in advance are busy, with
none of its groups written (R53, R350). -/
def busyRegs (h : Hart) : Vector VReg 32 :=
  let qs := (h.queue ++ (h.par.map fun p => p.rest.flatMap (·.flight.queue)).getD []).filter (·.issued != 0)
  let ds := qs.flatMap fun q => (rolesOf q.instr).vw
  h.vregs.mapFinIdx fun i x _ => if !x.busy ∧ ds.any (·.toNat == i) then { x with busy := true, groups := 0 } else x

/-- The fixed part of the image of context `h`, as save number `k`; `sp` is its scratchpad range in bytes. -/
def fixedPart (s : State) (k : Nat) (h : Hart) (sp : Nat) : List Byte :=
  let m := mainContext h
  let t := { s with hart := { m with vregs := busyRegs h } }
  let loops := (m.loops.cur :: m.loops.stack).take 4
  let copies := s.copies.filter fun c => c.cid == h.cid && c.logged
  let queued := queuedNats s h
  leBytes 2 3 ++ leBytes 2 (b2n (h.wait != .none) + 2 * b2n h.par.isSome) ++ leBytes 1 h.g ++ leBytes 1 h.mode ++
    leBytes 2 h.depth ++ leBytes 2 (sp / 4096) ++ leBytes 1 h.grant ++ zeroBytes 5 ++
    leBytes 8 m.pc.toNat ++ leBytes 8 (gangIdOf s h) ++
    m.regs.toList.flatMap regBytes ++
    h.vregs.toList.flatMap (fun x => leaseBytes x.lease) ++ h.mregs.toList.flatMap (fun x => leaseBytes x.lease) ++
    h.kregs.toList.flatMap (fun x => leaseBytes x.lease) ++ leaseBytes h.accLease ++
    sectionBytes 0 [h.leaseNext.toNat, m.loops.depth, m.regions.length, b2n m.loops.zeroTrip, h.age.toNat] 5 ++ zeroBytes 23 ++
    loops.flatMap loopBytes ++ zeroBytes (128 - 32 * loops.length) ++ sectionBytes 1 (pendingNats m.loops) 32 ++
    entryBytes k 2 0x3A0 4 8 (m.regions.map regionNats) ++ zeroBytes 32 ++
    leBytes 32 (h.genCache.foldl (fun x e => x + 2 ^ e.1) 0) ++
    (List.range 256).flatMap (fun n =>
      match h.genCache.find? n with
      | some v => leBytes 4 v.toNat
      | none => freeBytes k (0x400 + 4 * n) 4) ++
    (List.range 0x200).flatMap (fun n => leBytes 8 (if (csrPerm n).isSome then csrValue t n else 0).toNat) ++
    entryBytes k 3 0x1800 128 8 (h.streams.map fun b =>
      [b.addr.toNat, b.tag.toNat, b.reg.toNat, b.pos] ++ leaseNats b.lease ++ [leNat b.record]) ++
    entryBytes k 4 0x1C00 16 8 (h.replies.map fun r => r.d.toNat :: regNats r.val) ++
    sectionBytes 5 (waitNats h ++ [h.waitNs, h.stalled.length] ++
      (match h.accWin with
        | none => [0]
        | some w => [1, w.base, w.size, w.ty.code]) ++
      (match h.call with
        | none => [0]
        | some c => [1, c])) 0x80 ++
    sectionBytes 6 [queued.length, copies.length] 4 ++ zeroBytes 0x2FC ++
    entryBytes k 7 0x2000 32 256 queued ++
    entryBytes k 8 0x4000 32 512 (copies.map copyNats) ++
    (List.range 3).flatMap (fun j =>
      match replicaOn h (j + 1) with
      | some r => sectionBytes 9 (replicaNats r) 0x400
      | none => freeBytes k (0x8000 + 0x400 * j) 0x400) ++
    freeBytes k 0x8C00 0x400

/-! ### The image in memory -/

/-- Replace `n` bytes of a memory from `a` on by those of the memory `cs`, whose keys count from `a`. -/
def Mem.splice (m : Mem) (a n : Nat) (cs : Mem) : Mem :=
  m.filter (fun c => c.1 < a) ++ ((cs.filter fun c => c.1 < n).map fun c => (a + c.1, c.2)) ++
    m.filter (fun c => a + n ≤ c.1)

/-- The cells of a list of bytes. -/
def cellsOf (bs : List Byte) : Mem :=
  ((List.range bs.length).zip bs).filter fun c => c.2 != memDefault

/-- The cells of an area in the order of its sections: fixed part, accumulator rows, register-store rows, scratchpad. -/
def areaCells (s : State) (k : Nat) (h : Hart) (sp lo : Nat) : Mem :=
  let acc := h.grant * 512 * h.g
  let rows := h.depth * 256 * h.g
  let slabByte (unit : Nat) (c : Host.Cell) : Host.Cell := (c.1 / 1024 * (256 * h.g) + c.1 % 1024 + unit, c.2)
  cellsOf (fixedPart s k h sp) ++
    ((h.acc.filter fun c => c.1 / 2048 < h.grant && c.1 % 2048 < 512 * h.g).map fun c =>
      (0x9000 + c.1 / 2048 * (512 * h.g) + c.1 % 2048, c.2)) ++
    (h.rows.filter fun c => c.1 / 1024 < h.depth && c.1 % 1024 < 256 * h.g).map (slabByte (0x9000 + acc)) ++
    (h.savedScratch.map fun c => (0x9000 + acc + rows + c.1 / 0x100000 * sp + (c.1 % 0x100000 - lo), c.2))

/-- The keys of the poisoned granules of an area, counted in granules from its first byte. -/
def areaPoison (h : Hart) (sp lo : Nat) : List Nat :=
  let acc := h.grant * 512 * h.g
  let rows := h.depth * 256 * h.g
  (h.accPoison.map fun w => (0x9000 + w * 4 / 2048 * (512 * h.g) + w * 4 % 2048) / 8) ++
    (h.rowPoison.map fun q => (0x9000 + acc + 8 * q / 1024 * (256 * h.g) + 8 * q % 1024) / 8) ++
    (h.savedPoison.map fun q => (0x9000 + acc + rows + 8 * q / 0x100000 * sp + (8 * q % 0x100000 - lo)) / 8)

/-- Write the image of a pre-empted context to its save area, page by page. -/
def writeArea (s : State) (h : Hart) : State :=
  let w := h.savedPart
  let a := areaAddr s h.partId h.saveArea
  let n := areaBytes h.grant h.g h.depth (spLen w)
  let cells := areaCells s s.draws h (spLen w) (spBase w)
  let bad := areaPoison h (spLen w) (spBase w)
  let page (t : State) (i : Nat) : State :=
    let len := min 4096 (n - 4096 * i)
    let b := canon (a + 4096 * i)
    let here : Mem := (cells.filter fun c => 4096 * i ≤ c.1 && c.1 < 4096 * i + len).foldl
      (fun m c => m.write (c.1 - 4096 * i) c.2) []
    let poison := (bad.filter fun g => 512 * i ≤ g && g < 512 * i + 512).foldl
      (fun l g => insertNat (b / 8 + (g - 512 * i)) l) (clearPoison t.poison b len)
    { t with mem := t.mem.splice b len here, poison := poison }
  { ((List.range (ceilDiv n 4096)).foldl page s) with draws := s.draws + 1 }

end Sys2Proof.Machine
end

