-- ==== Sys2Proof/Machine/System.lean ====
section
/-!
DEFINITION. The system instructions (R121 to R126), the return from a trap (R349), fences (R123), slots, leases and moves
(R69, R109 to R111).
-/

namespace Sys2Proof.Machine

/-! ### Service calls (R124, R387) -/

/-- The registers of a service call and its reply. -/
def callReg (i : Nat) : Reg := BitVec.ofNat 5 (10 + i)

/-- The functions that firmware defines (R387). -/
def definedFn (n : Nat) : Bool := [0, 1, 2, 16, 17, 18, 32, 33, 34, 48].contains n

/-- The ABI major of the active bank. -/
def activeBank (s : State) : Bank := if s.svc.activeB then s.svc.bankB else s.svc.bankA

/-- The status that is returned at once, if the call is not accepted (R387). -/
def callStatus (s : State) (g11 : Word) : Option Nat :=
  let fn := field g11 0 16
  if field g11 32 32 ≠ 0 then some 255
  else if fn ≠ 0 ∧ field g11 16 16 ≠ (activeBank s).abi then some 53
  else if !definedFn fn then some 255
  else if 256 ≤ (s.svc.calls.filter (·.partId == s.hart.partId)).length then some 52
  else none

/-- Write a reply to g10 to g13, untagged with empty lease sets, and go on after the `ecall` (R124). -/
def writeReply (s : State) (r : Vector Word 4) : State :=
  let put (s : State) (i : Nat) (v : Word) := setGpr s (callReg i) (result v {})
  advance 4 (put (put (put (put s 0 r[0]) 1 r[1]) 2 r[2]) 3 r[3])

/-- Submit a call in mode S or D: refused at once, or accepted; the hart then parks. In recovery no service answers
(R392). -/
def submitCall (s : State) : Out :=
  let g (i : Nat) : Word := gval s (callReg i)
  if !quiet s then stall s
  else if s.svc.recovery then .next (park s .ecall)
  else match callStatus s (g 1) with
    | some st => .next (writeReply s #v[BitVec.ofNat 64 st, 0, 0, 0])
    | none =>
      let (id, t) := freshId s
      let call : Call :=
        { seq := id, cid := s.hart.cid, partId := s.hart.partId, token := g 0, fn := field (g 1) 0 16,
          args := #v[g 2, g 3, g 4, g 5, g 6, g 7], bankB := s.svc.activeB, abi := (activeBank s).abi,
          version := (activeBank s).version }
      let t := { t with
        svc := { t.svc with calls := t.svc.calls ++ [call] }
        hart := { t.hart with call := some id, reply := none } }
      .next (park t .ecall)

def execEcall (s : State) : Out := if mode s = modeU then raise0 s 10 else submitCall s

/-- The reply of an accepted call reaches the parked hart (R124). -/
def execEcallReply (h : Nat) (s : State) : Out :=
  asHart s h fun t =>
    match t.hart.wait, t.hart.reply with
    | .ecall, some r =>
      if t.hart.phase = .parked ∧ !t.hart.stopped then
        .next (writeReply { (unpark t) with hart := { (unpark t).hart with call := none, reply := none } } r)
      else .next t
    | _, _ => .next t

/-! ### trap, eret, yield, flushi -/

def execTrap (s : State) : Out := raise0 s 9

/-- The loop depth differs from the depth at the trap entry that `eret` returns from (R256). -/
def depthChanged (s : State) : Bool :=
  match s.hart.aside with
  | [] => false
  | x :: _ => x.depth != s.hart.loops.depth

def execEret (s : State) : Out :=
  if mode s = modeU then raise s { code := 3, tval := instrBits .eret }
  else if depthChanged s then raise0 s 1
  else .next (leaveTrap s)

/-- `yield` (R125): the age counter is 0, and the hart is passed over in the next turn. -/
def yieldTurn (s : State) (len : Nat) : Out :=
  .next (advance len { s with hart := { s.hart with age := 0, yielded := true } })

def execYield (s : State) : Out := yieldTurn s 4

/-- The front ends on which a partition's slots lie; hart slot 0 is the device partition's unless it has been assigned anew
(R395). -/
def frontEndsOf (s : State) (p : Nat) : List Nat :=
  ((insertNat 0 (s.slots.map (·.1))).filter fun x => field (slotCfg s x).part 0 4 == p).foldl
    (fun l x => insertNat (feOf x) l) []

/-- Every line of the instruction caches of the listed front ends is discarded: a fetch sees memory as it is (R85). -/
def discardLines (s : State) (fes : List Nat) : State :=
  fes.foldl (fun s f => setFrontEnd s f { frontEnd s f with imem := s.mem }) s

/-- `flushi` (R125, R85): once the hart's stores have performed, the lines are discarded on every front end of its partition. -/
def execFlushi (s : State) : Out :=
  if !quiet s then stall s
  else .next (advance 4 (discardLines s (insertNat (feOf s.hart.slot) (frontEndsOf s s.hart.partId))))

/-! ### exit (R37, R38, R126) -/

/-- Every access, copy and command of the hart has performed and its replies have drained (R37). -/
def exitReady (s : State) : Bool :=
  quiet s && s.hart.replies.isEmpty

/-- The exit completes: the hart leaves its barrier, its gang retires if it was the last. -/
def completeExit (s : State) : State :=
  let h := s.hart
  let s := { s with hart := { h with phase := .exited } }
  retireGang (leaveBarrier s h.gangStack h.gang h.cid) h.gangStack h.homeGang

/-- What `exit` brings about at once: its grant is released, and its bindings are cleared unless one of its merges is under way (R37,
R191). -/
def exitRelease (s : State) (h : Hart) : Hart :=
  { h with
    phase := .exiting
    regions := []
    aside := []
    due := false
    grant := 0
    acc := []
    accPoison := []
    accLease := {}
    csr := { h.csr with wm := if s.merges.any (·.cid == h.cid) then h.csr.wm else Vector.replicate 16 0 } }

/-- `exit`: it raises a cause, or begins, and then no pre-emption applies to the hart (R126, R128); what it waits for may already
hold. -/
def exitHart (s : State) : Out :=
  if s.hart.par.isSome ∨ s.moves.any (·.manager == s.hart.cid) then raise0 s 1
  else if s.hart.accWin.isSome then raise0 s 45
  else
    let t := { s with hart := exitRelease s s.hart }
    .next (if exitReady t then completeExit t else t)

def execExit (s : State) : Out := exitHart s

def execExitComplete (h : Nat) (s : State) : Out :=
  asHart s h fun t => .next (if t.hart.phase = .exiting ∧ exitReady t then completeExit t else t)

/-! ### Fences (R123) -/

/-- A store that has issued is one that a fence of a scope waits for: at hart scope both agents see it already, since an access
to its bytes waits for it; below system scope it need not reach the host, a peer or the cold tier (R123, R136). -/
def fenceWaits (scope : FenceScope) (p : Posted) : Bool :=
  match scope with
  | .hart => false
  | .system => true
  | _ => (placeOf p.addr).isDram

/-- A fence is clamped at system scope under the policy of the virtual device; then `f` says what it holds back (R123). -/
def fence (s : State) (scope : FenceScope) (f : State → State) : Out :=
  clampScope s (scope == .system) 50 fun t => .next (advance 4 (f t))

/-- Mark the stores of the current hart that a fence finds under way. -/
def markPosted (s : State) (waits : Posted → Bool) (mark : Posted → Posted) : State :=
  { s with hart := { s.hart with
    posted := s.hart.posted.map fun p => if sameAgent p.slab (replicaOf s) && waits p then mark p else p } }

/-- Later accesses, scalar or vector ones, wait for the vector accesses that have issued; a fence that holds nothing back any more is
dropped. -/
def addFence (s : State) (scalar : Bool) : State :=
  { s with hart := { s.hart with
    vecFences := s.hart.vecFences.filter (VecFence.holds { s with hart := { s.hart with par := none } }) ++
      [{ scalar := scalar, upTo := s.nextId, slab := replicaOf s }] } }

/-- `fence.sv` holds back the vector accesses behind it for the scalar ones before it, `fence.vs` and `fence.vv` the scalar, respectively
the vector accesses behind them for the vector ones before them; none of them holds back others (R123, R396). -/
def execFenceSv (scope : FenceScope) (s : State) : Out :=
  fence s scope fun t => markPosted t (fun p => !p.vec && fenceWaits scope p) fun p => { p with beforeVector := true }
def execFenceVs (scope : FenceScope) (s : State) : Out :=
  fence s scope fun t => addFence (markPosted t (·.vec) fun p => { p with beforeScalar := true }) true
def execFenceVv (scope : FenceScope) (s : State) : Out :=
  fence s scope fun t => addFence (markPosted t (·.vec) fun p => { p with beforeVector := true }) false

/-- `fence.all` orders everything: it waits for every earlier access at its scope. -/
def execFenceAll (scope : FenceScope) (s : State) : Out :=
  if (ownPosted s).any (fun p => !p.vec && fenceWaits scope p) || !vectorQuiet s then stall s else fence s scope id

/-! ### Slots, tags and leases (R69, R71, R110, R111) -/

/-- A slot operand names a record (R69, R75). -/
def slotNumOk (n : BitVec 8) : Bool := n != 0 && n != 255

/-- The address of record `n` of a table (R68). -/
def recordAddr (table : Word) (n : BitVec 8) : Nat := (table + BitVec.ofNat 64 (32 * n.toNat)).toNat

/-- The read of a record by `lslot`: R72's checks, the watchpoint (R353), the hart's own window (R190), then the far side and
poison (R69). -/
def lslotRecord (s : State) (n : BitVec 8) : Except Exc Record := do
  checkPlain s .load (recordAddr s.hart.csr.slotbase n) 32
  checkWatch s .load (recordAddr s.hart.csr.slotbase n) 32
  checkWindow s (recordAddr s.hart.csr.slotbase n) 32
  readRecord s n

def execLslot (d : Reg) (n : BitVec 8) (s : State) : Out :=
  if !slotNumOk n then raise s { code := 1, tval := instrBits (.lslot d n) }
  else if mustWait s false (recordAddr s.hart.csr.slotbase n) 32 then stall s
  else checked s (lslotRecord s n) fun r =>
    let t := { s with hart := { s.hart with genCache := s.hart.genCache.set n.toNat r.gen } }
    finish t 4 d { val := BitVec.ofNat 64 r.base, tag := n, lease := {} }

def execLtag (d a : Reg) (s : State) : Out := finish s 4 d (result ((baseTag s a).zeroExtend 64) (gpr s a).lease)
def execLclr (d : Reg) (s : State) : Out := .next (advance 4 (setGpr s d { gpr s d with lease := {} }))
def execLjoin (d a : Reg) (s : State) : Out :=
  .next (advance 4 (setGpr s d { gpr s d with lease := (gpr s d).lease.union (gpr s a).lease }))
def execVlclr (vd : Reg) (s : State) : Out := .next (advance 4 (setVreg s vd { vreg s vd with lease := {} }))

/-- `safept`: a pending move stop takes effect; the hart goes on after it when it is released (R111). -/
def safePoint (s : State) (len : Nat) : Out := .next (stopNow (advance len s))

def execSafept (s : State) : Out := safePoint s 4

end Sys2Proof.Machine
end

