-- ==== Sys2Proof/Machine/Compressed.lean ====
section
/-!
DEFINITION. The compressed forms (R102): each is its expansion, two bytes long.
-/

namespace Sys2Proof.Machine

/-- The register that a three-bit field names: g8 to g15. -/
def shortReg (r : Reg3) : Reg := BitVec.ofNat 5 (8 + r.toNat)

/-- An unsigned offset field times its scale. -/
def scaledOff (off : BitVec 6) (k : Nat) : Word := BitVec.ofNat 64 (off.toNat * k)

def execCAddi (d : Reg) (imm : BitVec 7) (s : State) : Out := addImm s 2 d d (imm.signExtend 64)
def execCLi (d : Reg) (imm : BitVec 7) (s : State) : Out := addImm s 2 d 0 (imm.signExtend 64)
def execCMv (d a : Reg) (s : State) : Out := addImm s 2 d a 0
def execCAdd (d a : Reg) (s : State) : Out := addRegs s 2 d d a
def execCSub (d a : Reg) (s : State) : Out := subRegs s 2 d d a
def execCAnd (d a : Reg) (s : State) : Out := andRegs s 2 d d a
def execCLdd (d a : Reg3) (off : BitVec 6) (s : State) : Out :=
  scalarLoad s 2 (shortReg d) (shortReg a) (scaledOff off 8) 8 naturalBytes
def execCStd (b a : Reg3) (off : BitVec 6) (s : State) : Out :=
  scalarStore s 2 (shortReg b) (shortReg a) (scaledOff off 8) 8
def execCLdw (d a : Reg3) (off : BitVec 6) (s : State) : Out :=
  scalarLoad s 2 (shortReg d) (shortReg a) (scaledOff off 4) 4 (signedBytes 4)
def execCBeqz (a : Reg3) (off : BitVec 8) (s : State) : Out := branch s 2 (gval s (shortReg a) == 0) (halfwords off)
def execCBnez (a : Reg3) (off : BitVec 8) (s : State) : Out := branch s 2 (gval s (shortReg a) != 0) (halfwords off)
def execCJ (off : BitVec 9) (s : State) : Out := jumpLink s 2 0 (s.hart.pc + halfwords off)
def execCJr (a : Reg) (s : State) : Out := jumpLink s 2 0 (gval s a)
def execCExit (s : State) : Out := exitHart s
def execCVlend (s : State) : Out := loopEnd s 2
def execCSafept (s : State) : Out := safePoint s 2
def execCYield (s : State) : Out := yieldTurn s 2

end Sys2Proof.Machine
end

