-- ==== Sys2Proof/Machine/Sync.lean ====
section
/-!
DEFINITION. Barriers and membership (R183 to R186), waiting on a counter (R182), accumulation windows (R189 to R192),
watermarks (R193 to R196).
-/

namespace Sys2Proof.Machine

/-! ### The barrier -/

/-- Cause 48 with the gang's identity (R354). -/
def brokenExc (s : State) : Exc := { code := 48, tval := BitVec.ofNat 64 (gangIdOf s s.hart) }

/-- The current hart raises cause 48 at the broken generation; when every member has, a fresh one opens (R30). -/
def raiseBroken (s : State) (g : Gang) : Out :=
  let owed := g.barrier.owed.filter (· != s.hart.cid)
  let t := setGang s { g with barrier := ({ g.barrier with owed := owed } : Barrier).healed }
  raise (checkBarrier t g.stack g.num) (brokenExc s)

/-- A parked hart arrives at the barrier; the last arrival completes the generation. -/
def countArrival (s : State) (g : Gang) : State :=
  let b := g.barrier
  checkBarrier (setGang s { g with barrier := { b with arrived := insertNat s.hart.cid b.arrived } }) g.stack g.num

/-- Arrive at the barrier with a wait. -/
def arrive (s : State) (g : Gang) (w : Wait) : State := countArrival (park s w) g

/-- `gbar` and `vsred` at the barrier: the hart parks, and arrives once its earlier accesses have performed (R183, R187). A context
without a gang passes as a gang of one. -/
def atBarrier (s : State) (w : Wait) : Out :=
  if !quiet s then .next (park s w)
  else match gangOf s s.hart.gangStack s.hart.gang with
    | none => .next (gbarDone s.hart |> fun h => { s with hart := h })
    | some g => if g.barrier.owed.contains s.hart.cid then raiseBroken s g else .next (arrive s g w)

/-- A hart is parked in `gbar` or `vsred` and has not arrived: earlier accesses of it have not performed (R183). -/
def comesToBarrier (s : State) (h : Hart) : Bool :=
  (match h.wait with
    | .gbar | .vsred .. => true
    | _ => false) &&
    !(gangOf s h.gangStack h.gang).any fun g => g.barrier.arrived.contains h.cid

/-- The current hart, parked in `gbar` or `vsred`, arrives once its earlier accesses have performed; it raises cause 48 where it owes
it, unless a move has stopped it: then at its release (R183, R30). -/
def reachBarrier (s : State) : State :=
  if s.hart.phase = .parked ∧ comesToBarrier s s.hart ∧ quiet s then
    match gangOf s s.hart.gangStack s.hart.gang with
    | none => { s with hart := gbarDone s.hart }
    | some g => if g.barrier.owed.contains s.hart.cid then unpark s else countArrival s g
  else s

def execGbar (s : State) : Out := atBarrier s .gbar

/-! ### Membership (R184 to R186) -/

/-- The status that turns a `gjoin` away, in the order of R184's table. -/
def joinStatus (s : State) (stack num : Nat) : Option Nat :=
  match gangOf s stack num with
  | some g =>
    if g.size = 256 then some 1
    else if (gangMembers s stack num).isEmpty then some 2
    else if g.partId ≠ s.hart.partId ∨ stackOf s.hart.slot ≠ stack then some 3
    else if 1 < (hartGang s).size then some 4
    else none
  | none => some 2

/-- The hart becomes the last member of a gang, and counts from its next barrier generation on; its own gang of one goes (R184). That
a hart which names its own gang of one stays as it is, with status 0, and that one which has left a gang with `gleave` passes from
that gang's retirement set and reserve to those of the gang that it joins, are DESIGN CHOICES (log 51). -/
def joinGang (s : State) (g : Gang) : State :=
  let h := s.hart
  if h.gangStack = g.stack ∧ h.gang = g.num then s
  else
    let b : Barrier := { g.barrier with late := insertNat h.cid g.barrier.late }
    let t := setGang s { g with size := g.size + 1, barrier := b }
    let t := { t with hart := { h with gangStack := g.stack, gang := g.num, member := g.size, homeGang := g.num } }
    retireGang t h.gangStack h.homeGang

def execGjoin (d a : Reg) (s : State) : Out :=
  let v := gval s a
  let stack := field v 28 4
  let num := field v 16 12
  let answer (t : State) (st : Nat) : Out :=
    .next (advance 4 (scalarResult t d (result (BitVec.ofNat 64 st) (gpr s a).lease)))
  if !quiet s then stall s
  else match joinStatus s stack num, gangOf s stack num with
    | some st, _ => answer s st
    | none, some g => answer (joinGang s g) 0
    | none, none => answer s 2

/-- The hart leaves its gang and becomes a gang of one; it stays in the retirement set of its gang (R185). -/
def leaveGang (s : State) (g : Gang) : State :=
  let h := s.hart
  let num := freeGangNum s g.stack
  let own : Gang :=
    { g with num := num, size := 1, hasReserve := false, owedReserve := false, seq := 0, barrier := {} }
  let t := setGang s { g with size := g.size - 1 }
  let t := mapContexts (fun k =>
    if k.gangStack = g.stack ∧ k.gang = g.num ∧ h.member < k.member then { k with member := k.member - 1 } else k) t
  let t := { t with gangs := t.gangs ++ [own], hart := { h with gang := num, member := 0 } }
  leaveBarrier t g.stack g.num h.cid

def execGleave (s : State) : Out :=
  if !quiet s then stall s
  else match gangOf s s.hart.gangStack s.hart.gang with
    | some g => .next (advance 4 (if g.size ≤ 1 then s else leaveGang s g))
    | none => .next (advance 4 s)

/-! ### Waiting on a counter (R182) -/

/-- Time that the current hart has spent in its `vwait` or its stall while resident and not stopped. -/
def waitedNs (s : State) : Nat := waitSoFar s s.hart

/-- Every earlier vector instruction of the hart has completed, a merge when its last copy is applied, no `cpb` and no fence holds the
read back, and it need not wait for an earlier access (R182, R191, R323, R123). -/
def vwaitReady (s : State) (a : Reg) : Bool :=
  !vectorFenced s && !s.merges.any (·.cid == s.hart.cid) && !gated s (s.nextId + 1) && !mustWait s false (baseAddr s a) 8

/-- The read of a `vwait`: whether the counter has reached the value. -/
def vwaitReached (s : State) (a b : Reg) : Except Exc Bool := do
  let x := baseAddr s a
  checkDram s (baseTag s a) x 8
  match firstPoisoned s x 8 with
  | some p => throw (excAt 31 p)
  | none => pure ()
  return (gval s b).toNat ≤ readNat s x 8

/-- The wait is over. -/
def vwaitDone (s : State) : State :=
  advance 4 (unpark { s with hart := { s.hart with waitNs := 0 } })

/-- The time that the hart has been parked in the `vwait` at `pc` since its dispatch (R182). -/
def queuedWait (s : State) : Nat :=
  match s.hart.queue with
  | q :: _ => if q.pc = s.hart.pc then (q.settled (timeNs s) (!s.hart.stopped)).waitNs else s.hart.waitNs
  | [] => s.hart.waitNs

/-- The hart is parked in the `vwait` at `pc`. -/
def parkVwait (s : State) (a b : Reg) : State := park { s with hart := { s.hart with waitNs := queuedWait s } } (.vwait a b)

/-- `vwait` parks at dispatch; it reads once every earlier vector instruction of the hart has completed, and the hart is not stopped
(R182). -/
def execVwait (a b : Reg) (s : State) : Out :=
  if vwaitReady s a ∧ !s.hart.stopped then
    checked s (vwaitReached s a b) fun ok => .next (if ok then vwaitDone s else parkVwait s a b)
  else .next (parkVwait s a b)

/-- The parked hart reads: the first time, or after a store to the doubleword (R182). -/
def execVwaitWake (h : Nat) (s : State) : Out :=
  asHart s h fun t =>
    match t.hart.wait with
    | .vwait a b =>
      if t.hart.phase = .parked ∧ !t.hart.stopped ∧ vwaitReady t a then
        match vwaitReached t a b with
        | .ok true => .next (vwaitDone t)
        | .ok false => .next t
        | .error e => raise (unpark { t with hart := { t.hart with waitNs := 0 } }) e
      else .next t
    | _ => .next t

/-- The limit of R182. -/
def vwaitLimit : Nat := 2 ^ 30

/-- A `vwait` that has been parked for 2^30 ns while resident raises cause 47 (R182). -/
def execVwaitTimeout (h : Nat) (s : State) : Out :=
  asHart s h fun t =>
    match t.hart.wait with
    | .vwait a _ =>
      if t.hart.phase = .parked ∧ !t.hart.stopped ∧ vwaitLimit ≤ waitedNs t then
        raise (unpark { t with hart := { t.hart with waitNs := 0 } }) (excAt 47 (baseAddr t a))
      else .next t
    | _ => .next t

/-! ### Accumulation windows (R189 to R192) -/

/-- The element types of a window. -/
def windowType : ElemTy → Bool
  | .f32 | .i32 | .n32 | .i64 | .n64 => true
  | _ => false

/-- The open and the merging windows of the module: context, partition, window, slabs. -/
def allWindows (s : State) : List (Nat × Nat × AccWin × Nat) :=
  ((contexts s).filterMap fun h => h.accWin.map fun w => (h.cid, h.partId, w, h.g)) ++
    s.merges.map fun m => (m.cid, m.partId, m.win, ((contextOf s m.cid).map (·.g)).getD 1)

/-- Bytes of copies that a window pins in a vault: 256 for each 256 bytes of the window there, per slab (R189). -/
def pinnedIn (vault : Nat) (w : AccWin) (g : Nat) : Nat :=
  ((List.range (w.size / 256)).filter fun i => vaultOf (w.base + 256 * i) == vault).length * 256 * g

/-- The vaults of a window. -/
def windowVaults (w : AccWin) : List Nat :=
  (List.range (w.size / 256)).foldl (fun l i => insertNat (vaultOf (w.base + 256 * i)) l) []

/-- The home vaults can pin the copies of one more window. -/
def canPin (s : State) (w : AccWin) (g : Nat) : Bool :=
  (windowVaults w).all fun v =>
    (allWindows s).foldl (fun n x => n + pinnedIn v x.2.2.1 x.2.2.2) (pinnedIn v w g) ≤ 65536

/-- The conditions of `awdecl` in the order of R189. -/
def declareWindow (s : State) (a b : Reg) : Except Exc AccWin := do
  let base := baseAddr s a
  let size := (gval s b).toNat
  checkAccess s .store (baseTag s a) base (max size 1) 256
  checkWatch s .store base (max size 1)
  if !(placeOf base).isDram then throw (excAt 26 base)
  let md ← vmode s noSr
  needTy s (windowType md.ty)
  let w : AccWin := { seq := (freshId s).1, base := base, size := size, ty := md.ty, copies := [] }
  let clash (h : Hart) : Bool :=
    h.partId == s.hart.partId && match h.accWin with
      | some v => (v.base != base || v.size != size) &&
          (List.range (size / 256)).any fun i => inSpan v.base v.size (base + 256 * i)
      | none => false
  if size % 256 ≠ 0 ∨ size < 256 ∨ 16384 < size ∨ s.hart.accWin.isSome ∨ (contexts s).any clash ∨
      !canPin s w s.hart.g then
    throw (excAt 44 base)
  return w

def execAwdecl (a b : Reg) (s : State) : Out :=
  checked s (declareWindow s a b) fun w =>
    .next (advance 4 { (freshId s).2 with hart := { s.hart with accWin := some w } })

/-- Two declarations name the same bytes. -/
def AccWin.same (v w : AccWin) : Bool := v.base == w.base && v.size == w.size

/-- The declarations of the same window by contexts that come lower in lane order: those open now (R189, R191). -/
def lowerContributors (s : State) (w : AccWin) : List Nat :=
  (contexts s).filterMap fun h =>
    if h.partId == s.hart.partId && h.member < s.hart.member && h.cid != s.hart.cid then
      (h.accWin.filter w.same).map (·.seq)
    else none

/-- `awmerge` closes the window; its copies are applied in lane order (R191), after the earlier accesses of the hart to its bytes
(R114, R150). Cause 44 names the base of the open window (R354), or ga where none is open: a DESIGN CHOICE (log 60). -/
def execAwmerge (a : Reg) (s : State) : Out :=
  match s.hart.accWin with
  | some w =>
    if w.base ≠ baseAddr s a then raise s (excAt 44 w.base)
    else if mustWait s true w.base w.size then stall s
    else
      let (id, t) := freshId s
      let pendingLower := (s.merges.filter fun m =>
        m.partId == s.hart.partId && m.member < s.hart.member && m.win.same w).map (·.win.seq)
      let m : Merge := { seq := id, cid := s.hart.cid, tag := baseTag s a, partId := s.hart.partId, member := s.hart.member, win := w,
                         sat := vtSat s.hart.csr.vtype, after := lowerContributors s w ++ pendingLower }
      .next (advance 4 { t with hart := { t.hart with accWin := none }, merges := t.merges ++ [m] })
  | none => raise s (excAt 44 (baseAddr s a))

/-- A lower contributor's declaration is neither open nor waits to be merged any more. -/
def contributorDone (s : State) (seq : Nat) : Bool :=
  !(s.merges.any fun m => m.win.seq == seq) && !((contexts s).any fun h => h.accWin.any (·.seq == seq))

/-- The sum of a memory element and a copy element in a window's type, with its flags (R190, R191); an overflow under `sat`
(R211). -/
def windowAdd (sat : Bool) (ty : ElemTy) (x y : Nat) : Nat × Flags :=
  if tyIsInt ty then ((x + y) % 2 ^ tyWidth ty, 0)
  else
    let r := addF32 sat (fmtF32.decode x, 0) (fmtF32.decode y, 0)
    (widenBits fmtF32 r.1, r.2)

/-- Apply the copy of slab `k` of a window to memory. -/
def applyCopy (sat : Bool) (w : AccWin) (k : Nat) (m : Mem × Flags) : Mem × Flags :=
  let n := tyWidth w.ty / 8
  (List.range (w.size / n)).foldl (fun m i =>
    let a := canon (w.base + n * i)
    let r := windowAdd sat w.ty (m.1.readNat a n) (w.copies.readNat (k * 65536 + n * i) n)
    (m.1.writeBytes a (leBytes n r.1), m.2 ||| r.2)) m

/-- The bindings of an exiting context are cleared once every vector instruction of it has completed, its merges among them (R37,
R191). -/
def clearBindings (s : State) (cid : Nat) : State :=
  if s.merges.any (·.cid == cid) then s
  else mapContext cid (fun h => if h.phase = .exiting then { h with csr := { h.csr with wm := Vector.replicate 16 0 } } else h) s

/-- Merge `k` is applied once every lower contributor has been applied or discarded (R191). That poisoned granules under the window
are added to as they stand, raise nothing and stay poisoned, is a DESIGN CHOICE (log 60). -/
def execAwmergeApply (k : Nat) (s : State) : Out :=
  match s.merges.find? (·.seq == k) with
  | none => .next s
  | some m =>
    if m.after.all (contributorDone s) then
      let g := ((contextOf s m.cid).map (·.g)).getD 1
      let r := (List.range g).foldl (fun x i => applyCopy m.sat m.win i x) (s.mem, 0)
      let t := { s with mem := r.1, merges := s.merges.filter (·.seq != k) }
      .next (clearBindings (mapContext m.cid (fun h =>
        { h with csr := { h.csr with vxstat := h.csr.vxstat ||| r.2.zeroExtend 6 } }) t) m.cid)
    else .next s

/-! ### Watermarks (R193 to R195) -/

/-- Raise the published index of an object; a publication never lowers it (R195). -/
def publish (s : State) (key index : Nat) : State :=
  match s.marks.find? key with
  | some m => { s with marks := s.marks.set key { m with index := max m.index index } }
  | none => s

/-- The object that a binding of the current hart names. -/
def boundMark (s : State) (n : BitVec 4) : Option (Nat × Mark) :=
  let v := s.hart.csr.wm.get n.toFin
  if bit v 0 then (s.marks.find? (markKey v.toNat)).map fun m => (markKey v.toNat, m) else none

def execWmset (n : BitVec 4) (a : Reg) (s : State) : Out :=
  if bindingOk s (gval s a) then .next (advance 4 (setWm s n (gval s a)))
  else raise s { code := 4, tval := instrBits (.wmset n a) }

def execWmclr (n : BitVec 4) (s : State) : Out := .next (advance 4 (setWm s n 0))

/-- `wmpub` (R195): a release at the scope of the object's range, clamped as R116 says where that is system scope. -/
def execWmpub (n : BitVec 4) (b : Reg) (s : State) : Out :=
  match boundMark s n with
  | some (key, m) =>
    if m.length < (gval s b).toNat * m.esize then raise s { code := 4, tval := instrBits (.wmpub n b) }
    else if !quiet s then stall s
    else clampScope s (placeOf m.base).isSystem 51 fun t => .next (advance 4 (publish t key (gval s b).toNat))
  | none => raise s { code := 4, tval := instrBits (.wmpub n b) }

end Sys2Proof.Machine
end

