-- ==== Sys2Proof/Machine/Stall.lean ====
section
/-!
DEFINITION. Stalls of reads on watermark bindings with their timeouts (R148, R168, R194, R196), and the delivery of chunks
to an instruction that reads bound registers (R263, R264).
-/

namespace Sys2Proof.Machine

/-- Binding `i` as it holds for the instruction at `pc`: as it was when that issued (R194). -/
def bindingFor (s : State) (i : Nat) : Word := (s.hart.bound.getD s.hart.csr.wm).toList.getD i 0

/-- The instruction at `pc` issues: later writes of the bindings do not apply to it (R194). -/
def keepBindings (s : State) : State := { s with hart := { s.hart with bound := some (s.hart.bound.getD s.hart.csr.wm) } }

/-- Binding `i` of the current hart holds back an access of `n` bytes at `a`: the bytes lie in the bound range, beyond the
published index (R148, R193). -/
def heldBy (s : State) (a n i : Nat) : Bool :=
  let v := bindingFor s i
  bit v 0 && match s.marks.find? (markKey v.toNat) with
    | some m => (pieces a n).any fun p =>
      let x := if (placeOf p.1).isDram ∧ (placeOf m.base).isDram then aliasAs m.base p.1 else p.1
      x < m.base + m.length && m.base < x + p.2 && m.base + m.index * m.esize < min (x + p.2) (m.base + m.length)
    | none => false

/-- The runs of a group that bindings hold back. -/
def heldRuns (s : State) (runs : List (Nat × Nat)) : List (Nat × Nat) :=
  runs.filter fun r => (List.range 16).any (heldBy s r.1 r.2)

/-- The timeout of a binding in nanoseconds (R194, R196); 0: none. -/
def timeoutNs (s : State) (i : Nat) : Nat := field (bindingFor s i) 48 16 * 1000

/-- The stall is over. -/
def endStall (s : State) : State := { s with hart := { s.hart with stalled := [], waitNs := 0 } }

/-- The stalled group of the current hart is held by binding `i`, whose timeout it has reached (R196). -/
def timedOut (s : State) (i : Nat) : Bool :=
  !s.hart.stopped && timeoutNs s i != 0 && timeoutNs s i ≤ waitedNs s && s.hart.stalled.any fun r => heldBy s r.1 r.2 i

/-- A group is held by bindings at these runs of its bytes: the stall begins or goes on, or a timeout raises cause 46 (R196). -/
def holdGroup (s : State) (runs : List (Nat × Nat)) : Except Exc State :=
  if s.hart.stalled.isEmpty then
    .ok { s with hart := { (keepBindings s).hart with stalled := runs, waitNs := 0, waitSince := timeNs s } }
  else
    match (List.range 16).find? (timedOut s) with
    | some i => .error { code := 46, tval := BitVec.ofNat 64 i }
    | none => .ok s

/-! ### Chunks (R261, R263, R264) -/

/-- Why a chunk is not read now: a cause, or a wait, behind an earlier access (no runs) or a publication (the runs held). -/
inductive Halt where
  | exc (e : Exc)
  | wait (runs : List (Nat × Nat))
  deriving DecidableEq, Repr

/-- A failed check halts. -/
def orHalt {α : Type} (x : Except Exc α) : Except Halt α :=
  match x with
  | .ok a => .ok a
  | .error e => .error (.exc e)

/-- Read an untagged control entry of a stream: aligned, else cause 27; checked; after the hart's earlier accesses and the
publications of bound watermarks, as part of the chunk's access (R145, R148); not poisoned (R263, R264). -/
def readEntry (s : State) (a n : Nat) : Except Halt Nat := do
  if a % n ≠ 0 then throw (.exc (excAt 27 a))
  orHalt (checkVector s .load 0 a n 1)
  let x := replicaAddr s a
  if readWaits s x n then throw (.wait [])
  if !(heldRuns s [(x, n)]).isEmpty then throw (.wait [(x, n)])
  match firstPoisoned s x n with
  | some p => throw (.exc (excAt 31 p))
  | none => pure ()
  return readNat s x n

/-- Walk the extents of a list at `a`, `k` of them left, to logical block `j`: its base address (R200, R264). -/
def walkExtents (s : State) (fail : Exc) : Nat → Nat → Nat → Except Halt Word
  | 0, _, _ => .error (.exc fail)
  | k + 1, a, j => do
    let x ← readEntry s a 16
    let len := x / 2 ^ 64 % 2 ^ 32
    if len = 0 then throw (.exc (excAt 27 a))
    if j < len then return BitVec.ofNat 64 (x % 2 ^ 64) + BitVec.ofNat 64 (j * (x / 2 ^ 96))
    walkExtents s fail k (a + 16) (j - len)

/-- The runs of bytes of chunk `c` (R261), in the order in which they are placed. That a walk which runs past the total length of its
extents names the address of the extent list in `tval` (R264) is a DESIGN CHOICE (log 62). -/
def chunkRuns (s : State) (r : List Byte) (c : Nat) : Except Halt (List (Word × Nat)) :=
  let base := BitVec.ofNat 64 (recField r 8 8)
  let w (off n : Nat) : Word := BitVec.ofNat 64 (recField r off n)
  let cw := BitVec.ofNat 64 c
  let cb := chunkBytes r
  match recField r 0 1 with
  | 0 => .ok [(base + cw * w 4 4, min cb (recField r 16 8 - c * cb))]
  | 1 => .ok [(base + cw * w 16 8, cb)]
  | 2 => .ok ((List.range (recField r 36 4)).map fun i =>
      (base + cw * w 24 8 + BitVec.ofNat 64 i * w 16 8, recField r 32 4))
  | 3 => do
    let b ← walkExtents s (excAt 27 base.toNat) (recField r 16 4) base.toNat (recField r 24 4 + c)
    return [(b + w 20 4, cb)]
  | _ => do
    let n := 2 ^ recField r 28 1
    let x ← readEntry s (w 16 8 + cw * BitVec.ofNat 64 n).toNat n
    return [(base + BitVec.ofNat 64 x * w 32 8, cb)]

/-- The next chunk of a binding, if one is left: its runs, checked (R264); it follows the hart's earlier accesses and the
publications of bound watermarks (R145, R148). -/
def nextChunk (s : State) (b : Stream) : Except Halt (List (Word × Nat)) := do
  if chunkCount b.record ≤ b.pos then throw (.exc { code := 28, tval := b.addr })
  let runs ← chunkRuns s b.record b.pos
  orHalt (runs.forM fun x => if x.2 = 0 then pure () else checkVector s .load 0 x.1.toNat x.2 1)
  let at' := runs.map fun x => (replicaAddr s x.1.toNat, x.2)
  if at'.any fun x => readWaits s x.1 x.2 then throw (.wait [])
  if !(heldRuns s at').isEmpty then throw (.wait (heldRuns s at'))
  return runs

/-- Deliver a chunk whose runs are checked: it takes a lease ID, is written from byte 0, and the position moves on (R145,
R261). -/
def deliver (s : State) (v : Reg) (b : Stream) (runs : List (Word × Nat)) : State :=
  let id := s.hart.leaseNext
  let bytes := runs.flatMap fun x => readRun s (replicaAddr s x.1.toNat) x.2
  let t := takeId s
  let base := (vreg t v).win.base.toNat
  let t := writeImage t base 0 bytes
  let rows := rowsOf t base 8 (List.range bytes.length)
  let t := leaseWritten t v true rows (b.lease.withId id)
  { t with hart := { t.hart with
      streams := t.hart.streams.map fun x => if x.reg = v then { x with pos := x.pos + 1 } else x } }

/-- What happens when an instruction asks for its chunks: it goes on, or it waits. -/
inductive Feed where
  | ready (s : State)
  | wait (s : State)
  deriving DecidableEq, Repr

/-- Deliver one chunk to each bound register of a list, or none (R264). Where the chunk of a later register fails, those before it are
undone, with their lease IDs: a DESIGN CHOICE (log 46). -/
def feedAll (s : State) : List (Reg × Stream) → Except Exc Feed
  | [] => .ok (.ready s)
  | (v, b) :: l =>
    match nextChunk s b with
    | .ok runs => feedAll (deliver s v b runs) l
    | .error (.exc e) => .error e
    | .error (.wait []) => .ok (.wait s)
    | .error (.wait runs) => (holdGroup s runs).map .wait

/-- A chunk that fails has taken its ID, unless there was none left to read (R140, R264). -/
def lostChunk (s : State) (e : Exc) : State := if e.code = 28 then endStall s else takeId (endStall s)

/-- The bound registers among the sources of an instruction, each once. -/
def boundSources (s : State) (rs : List Reg) : List (Reg × Stream) :=
  s.hart.streams.filterMap fun b => if rs.contains b.reg then some (b.reg, b) else none

/-- Deliver chunks to the sources of the instruction, unless it has received them, then go on. A failure delivers
nothing and raises its cause with `vstart` unchanged (R264); `own` takes the ID that the instruction itself takes (R140). -/
def withChunks (s : State) (rs : List Reg) (go : State → Out) (own : State → State := id) : Out :=
  match boundSources s rs with
  | [] => go s
  | l =>
    if s.hart.fed then go s
    else match feedAll s l with
      | .error e => raise (own (lostChunk s e)) e
      | .ok (.wait t) => stall { s with hart := { s.hart with
          stalled := t.hart.stalled, bound := t.hart.bound, waitNs := t.hart.waitNs, waitSince := t.hart.waitSince } }
      | .ok (.ready t) => go { (endStall t) with hart := { (endStall t).hart with fed := true } }

/-- The instruction has completed: it goes on behind itself with nothing left over. -/
def complete (s : State) (len : Nat) : State := advance len { s with hart := landed s.hart }

/-- The next chunk of a bound register is delivered (R263). -/
def execChunkDelivery (v : Reg) (s : State) : Out :=
  match bindingOf s v with
  | none => .next s
  | some b =>
    match feedAll s [(v, b)] with
    | .error e => raise (lostChunk s e) e
    | .ok (.ready t) => .next t
    | .ok (.wait t) => .next t

end Sys2Proof.Machine
end

