-- ==== Sys2Proof/Machine/VecOps.lean ====
section
/-!
DEFINITION. The shared course of the vector instructions that touch no memory (R223 to R229): element-wise results in a
window or a mask, and cross-lane results.

An instruction issues its groups in one step, or one group a step (`State.slice`): then it stays at its `pc`, an element-wise one
with `vstart` at the next group, a cross-lane one with the groups counted in `Hart.issued`.
-/

namespace Sys2Proof.Machine

/-! ### Operands -/

/-- The vector register of a second operand, if it is one. -/
def vopReg : VOp → Option Reg
  | .vv r => some r
  | _ => none

/-- The second operand of element `i` at width `w` (R223). -/
def second (s : State) (b : VOp) (w i : Nat) : Nat :=
  match b with
  | .vv r => readElem s (vreg s r).win.base.toNat w i
  | .vs r => (gval s r).toNat % 2 ^ w
  | .vi imm => (imm.signExtend 64).toNat % 2 ^ w

/-- The second operand of a shift: an immediate is read as 0 to 31 (R230). -/
def secondShift (s : State) (b : VOp) (w i : Nat) : Nat :=
  match b with
  | .vi imm => imm.toNat
  | _ => second s b w i

/-- The lease set of a second operand that is no window: a window's set is joined with those of the other windows, after its chunk
has arrived (R145, R227). -/
def secondLease (s : State) : VOp → LeaseSet
  | .vv _ => {}
  | .vs r => (gpr s r).lease
  | .vi _ => {}

/-- The window of a second operand. -/
def secondWin (s : State) (b : VOp) (w : Nat) : List WinOp :=
  match vopReg b with
  | some r => [winOf s r w]
  | none => []

/-- Element `i` of vector register `v` at width `w`. -/
def elem (s : State) (v : Reg) (w i : Nat) : Nat := readElem s (vreg s v).win.base.toNat w i

/-- Union of the lease sets of vector registers. -/
def vecLeases (s : State) (rs : List Reg) : LeaseSet := rs.foldl (fun l r => l.union (vreg s r).lease) {}

/-! ### Checks at issue (R50, R226, R263) -/

/-- A destination bound to a stream raises cause 32 (R263). -/
def checkUnbound (s : State) (v : Reg) : Except Exc Unit :=
  if (bindingOf s v).isSome then .error { code := 32, tval := BitVec.ofNat 64 v.toNat } else .ok ()

/-- The checks of an instruction that writes window `vd` at width `wd` from sources, for `n` elements. -/
def checkDest (s : State) (elementwise : Bool) (vd : Reg) (wd : Nat) (srcs : List WinOp) (n : Nat) : Except Exc Unit := do
  checkUnbound s vd
  checkWins s (winOf s vd wd :: srcs) n
  checkOverlap elementwise (winOf s vd wd) srcs

/-- Registers of a list of window operands. -/
def opRegs (os : List WinOp) : List Reg := os.map fun o => BitVec.ofNat 5 o.num

/-- A source element is poisoned. -/
def anyPoisoned (s : State) (srcs : List WinOp) (i : Nat) : Bool :=
  srcs.any fun o => elemPoisoned s o.win.base.toNat o.width i

/-- No source besides the windows. -/
def noExtra : State → Nat → Bool := fun _ _ => false

/-! ### Element-wise results (R224, R228) -/

/-- The results of a run of elements: index and bits, flags, whether one saturated, the stochastic-rounding register. -/
structure Run where
  elems : List (Nat × Nat)
  flags : Flags
  sat : Bool
  rnd : BitVec 32
  deriving DecidableEq, Repr

/-- Compute elements in ascending order; `draws` takes one sample for each (R215). -/
def runElems (draws : Bool) (op : Nat → Nat → Nat × Flags × Bool) (rnd : BitVec 32) (idxs : List Nat) : Run :=
  let r := idxs.foldl (fun (r : Run) i =>
    let rnd := if draws then lfsr16 r.rnd else r.rnd
    let x := op i (rnd.toNat % 65536)
    { elems := (i, x.1) :: r.elems, flags := r.flags ||| x.2.1, sat := r.sat || x.2.2, rnd := rnd })
    { elems := [], flags := 0, sat := false, rnd := rnd }
  { r with elems := r.elems.reverse }

/-- Where an element-wise instruction ends in this step, at destination width `w`: past `vl`, at the end of a group, or
at a poisoned element. -/
structure Span where
  lo : Nat
  hi : Nat
  /-- the active elements that are committed -/
  idxs : List Nat
  poisoned : Option Nat
  deriving DecidableEq, Repr

/-- The span of this step (R224, R228). -/
def spanFor (s : State) (m : Reg3) (srcs : List WinOp) (w : Nat) (bad : State → Nat → Bool := noExtra) : Span :=
  let lo := vstartOf s
  let hi := stopAt s m w
  let act := activeIdx s m lo hi
  match act.find? fun i => anyPoisoned s srcs i || bad s i with
  | some k => { lo := lo, hi := hi, idxs := act.filter (· < k), poisoned := some k }
  | none => { lo := lo, hi := hi, idxs := act, poisoned := none }

/-- The instruction at `pc` is in flight: it goes on at element `k` in a later step, with the chunks it has. -/
def continueAt (s : State) (k : Nat) : Out :=
  let t := setVstart s k
  .next { t with hart := { t.hart with fed := true, issued := 0, fromZero := s.hart.fromZero || vstartOf s == 0 } }

/-- The instruction began at its first element, in this step or in an earlier one (R52). -/
def beganAtZero (s : State) : Bool := vstartOf s == 0 || s.hart.fromZero

/-- The end of a step of an element-wise instruction: cause 35 at a poisoned element, a further group, or completion. -/
def closeSpan (s : State) (sp : Span) (len : Nat := 4) : Out :=
  match sp.poisoned with
  | some k => raise0 (setVrestart s k) 35
  | none => if sp.hi < vlOf s then continueAt s sp.hi else .next (complete (setVstart s 0) len)

/-- The destination's progress index after a step (R53): groups below the first element not committed. -/
def closeGroups (s : State) (vd : Reg) (w : Nat) (sp : Span) : State :=
  match sp.poisoned with
  | some k => setGroups s vd w k false
  | none => setGroups s vd w sp.hi (sp.hi < vlOf s)

/-- The step completes a whole write: unmasked, from element 0, not ended by poison, up to `vl` (R52). -/
def wholeWrite (s : State) (m : Reg3) (sp : Span) : Bool :=
  m == 0 && beganAtZero s && sp.poisoned.isNone && vlOf s ≤ sp.hi

/-- An element-wise instruction that writes vector register `vd` at width `wd`. `pre` are its own checks, `extra` the
lease sets of other sources, `op` the result of element `i` with a stochastic sample, `bad` whether another source of
element `i` is poisoned. A write that reaches no element joins its set to that of `vd`: a DESIGN CHOICE (log 38). -/
def elementwise (s : State) (pre : Except Exc Unit) (vd : Reg) (wd : Nat) (srcs : List WinOp) (m : Reg3)
    (extra : State → LeaseSet) (draws : Bool) (op : State → Nat → Nat → Nat × Flags × Bool)
    (bad : State → Nat → Bool := noExtra) (len : Nat := 4) : Out :=
  checked s (do pre; checkDest s true vd wd srcs (vlOf s)) fun _ =>
    withChunks s (opRegs srcs) fun s =>
      let sp := spanFor s m srcs wd bad
      let r := runElems draws (op s) s.hart.csr.rndstate sp.idxs
      let base := (vreg s vd).win.base.toNat
      let lease := ((vecLeases s (opRegs srcs)).union (extra s)).union (maskLease s m)
      let t := writeElems s base wd r.elems
      let t := if sp.lo < sp.hi then leaseWritten t vd (wholeWrite s m sp) (rowsOf s base wd sp.idxs) lease else t
      let t := setRnd (addVxstat t r.flags r.sat) r.rnd
      closeSpan (closeGroups t vd wd sp) sp len

/-- An element-wise instruction that writes mask `md`; sources are read at width `w`. -/
def maskwise (s : State) (pre : Except Exc Unit) (md : Reg3) (w : Nat) (srcs : List WinOp) (m : Reg3)
    (extra : State → LeaseSet) (op : State → Nat → Bool × Flags) : Out :=
  checked s (do pre; checkWins s srcs (vlOf s)) fun _ =>
    withChunks s (opRegs srcs) fun s =>
      let sp := spanFor s m srcs w
      let rs := sp.idxs.map fun i => (i, op s i)
      let lease := ((vecLeases s (opRegs srcs)).union (extra s)).union (maskLease s m)
      let old := mreg s md
      let new : MReg :=
        { bits := setBits old.bits (rs.map fun x => (x.1, x.2.1))
          lease := if sp.hi ≤ sp.lo then old.lease
            else if wholeWrite s m sp then lease else old.lease.union lease }
      closeSpan (addVxstat (setMreg s md new) (rs.foldl (fun f x => f ||| x.2.2) 0) false) sp

/-! ### Cross-lane results (R225, R228) -/

/-- The lowest poisoned element that a cross-lane instruction reads. -/
def lowestPoisoned (s : State) (reads : List (WinOp × Nat)) : Option Nat :=
  reads.foldl (fun b x =>
    if elemPoisoned s x.1.win.base.toNat x.1.width x.2 then
      match b with
      | none => some x.2
      | some k => some (min k x.2)
    else b) none

/-- The end of a cross-lane instruction: it ignores `vstart` and sets it to 0. -/
def closeCross (s : State) : Out := .next (complete (setVstart s 0) 4)

/-- Cause 35 of a cross-lane instruction: nothing is written (R228). -/
def crossPoison (s : State) (k : Nat) : Out := raise0 (setVrestart s k) 35

/-- The groups of width `w` that an instruction issues which no mask is scanned for: all below `vl`, at least one (R246, R247). -/
def crossGroups (s : State) (w : Nat) : Nat := max 1 (ceilDiv (vlOf s) (groupElems s w))

/-- A group has issued, more of the `n` groups follow, and only this one is to issue now. -/
def groupOnly (s : State) (n : Nat) : Bool := s.slice && s.hart.issued + 1 < n

/-- The issue beat is over; the instruction stays in flight for its next one. -/
def nextBeat (s : State) : Out := .next { s with hart := { s.hart with issued := s.hart.issued + 1, fed := true } }

/-- A cross-lane instruction that writes elements of `vd`: `reads` lists the source elements that it reads, `elems` the
elements that it writes, group by group. -/
def crossVector (s : State) (pre : Except Exc Unit) (vd : Reg) (w : Nat) (srcs : List WinOp) (m : Reg3)
    (extra : State → LeaseSet) (reads : State → List (WinOp × Nat)) (elems : State → List (Nat × Nat)) : Out :=
  checked s (do pre; checkDest s false vd w srcs (vlOf s)) fun _ =>
    withChunks s (opRegs srcs) fun s =>
      let k := s.hart.issued
      match if k = 0 then lowestPoisoned s (reads s) else none with
      | some i => crossPoison (setIndex s vd 0 false) i
      | none =>
        let base := (vreg s vd).win.base.toNat
        let lease := ((vecLeases s (opRegs srcs)).union (extra s)).union (maskLease s m)
        let put (xs : List (Nat × Nat)) (whole : Bool) : State :=
          leaseWritten (writeElems s base w xs) vd whole (rowsOf s base w (xs.map (·.1))) lease
        let group (x : Nat × Nat) : Nat := x.1 / groupElems s w
        if groupOnly s (crossGroups s w) then
          nextBeat (setIndex (put ((elems s).filter (group · == k)) false) vd (k + 1) true)
        else
          let t := if vlOf s = 0 then s
            else put ((elems s).filter (k ≤ group ·)) (m == 0 && (elems s).length == vlOf s)
          closeCross (setGroups t vd w (vlOf s) false)

/-- A cross-lane instruction with a scalar result in `d` (R227), from sources of which `n` elements lie below `vl`. -/
def crossScalar (s : State) (pre : Except Exc Unit) (d : Reg) (src : WinOp) (m : Reg3) (extra : State → LeaseSet)
    (n : Nat) (reads : State → List (WinOp × Nat)) (value : State → Word × Flags × Bool) : Out :=
  checked s (do pre; checkWins s [src] n) fun _ =>
    withChunks s (opRegs [src]) fun s =>
      match lowestPoisoned s (reads s) with
      | some k => crossPoison s k
      | none =>
        if groupOnly s (crossGroups s src.width) then nextBeat s
        else
          let v := value s
          let lease := ((vecLeases s (opRegs [src])).union (extra s)).union (maskLease s m)
          closeCross (scalarResult (addVxstat s v.2.1 v.2.2) d (result v.1 lease))

end Sys2Proof.Machine
end

