-- ==== Sys2Proof/Machine/Convert.lean ====
section
/-!
DEFINITION. Conversion: `vcvt`, `vcvti`, `vquant` (R236 to R238).
-/

namespace Sys2Proof.Machine

/-- The format of a value read as type `t` under a scale byte (R204, R209). -/
def floatElem (t : ElemTy) (scale x : Nat) : FVal := if t = .f4b then f4bVal scale x else (tyFmt t).decode x

/-- An element of a conversion (R236); an `f4b` value is exact in `f32` and `bf16` alone (R209): source type, destination mode, stochastic sample, scale byte, bits. -/
def convertElem (src : ElemTy) (md : VMode) (u scale x : Nat) : Nat × Flags × Bool :=
  let out (r : Nat × Flags) : Nat × Flags × Bool := (r.1, r.2, false)
  if tyIsInt src then
    if tyIsInt md.ty then
      let r := fitInt md.sat md.ty (tyInt src x)
      (r.1, 0, r.2)
    else out (roundTo (tyFmt md.ty) md.sat md.rm u (FVal.ofInt (tyInt src x)))
  else
    let v := floatElem src scale x
    let f4bNan := src == .f4b && v.isNan
    if tyIsInt md.ty then
      let r := FVal.toInt md.rm (tyMin md.ty) (tyMax md.ty) v
      (ofSigned (tyWidth md.ty) r.1, r.2, false)
    else if tyWidth src < tyWidth md.ty ∧ (src ≠ .f4b ∨ md.ty = .f32 ∨ md.ty = .bf16) then
      (widenBits (tyFmt md.ty) v, flagIf f4bNan flagNV, false)
    else
      let r := roundTo (tyFmt md.ty) md.sat md.rm u v
      (r.1, r.2 ||| flagIf f4bNan flagNV, false)

/-- The scale byte of block `b` in scale register `k`. -/
def scaleByte (s : State) (k : Reg3) (b : Nat) : Nat := readElem s (kreg s k).win.base.toNat 8 b

/-- A scale byte lies in a poisoned granule. -/
def scalePoisoned (s : State) (k : Reg3) (b : Nat) : Bool := elemPoisoned s (kreg s k).win.base.toNat 8 b

/-- A scale register as a window operand, for the overlap rule alone. -/
def scaleWin (s : State) (k : Reg3) : WinOp := { num := k.toNat, win := (kreg s k).win, width := 8 }

/-- The types of a conversion: an invalid source code or an `f4b` destination raises cause 33 (R94, R236). That this holds for `vcvti`
too, as one of "the same limits" (R237), is a DESIGN CHOICE (log 61). -/
def convertTypes (s : State) (code : BitVec 4) (srOk : ElemTy → Bool) : Except Exc (ElemTy × VMode) := do
  let md ← vmode s srOk
  match ElemTy.ofCode code.toNat with
  | some src => if md.ty = .f4b then throw (vtypeExc s) else return (src, md)
  | none => throw (vtypeExc s)

/-- The checks of an `f4b` source: a block length, and the scale bytes of `vl` elements in k0 (R55, R236). That k0 is checked before vd
and va (log 32), and that it shares no row with any destination, be that 8 bits wide and begin at the same row (R226; log 61), are
DESIGN CHOICES. -/
def checkBlocks (s : State) (vd : Reg) (wd blk : Nat) : Except Exc Unit := do
  needTy s (blk != 0)
  checkScale s 0 (ceilDiv (vlOf s) blk)
  checkOverlap false (winOf s vd wd) [scaleWin s 0]

/-- `vcvt` (R236): of an `f4b` source the block length and k0 are checked first (log 32). -/
def execVcvt (vd va : Reg) (src : BitVec 4) (m : Reg3) (s : State) : Out :=
  checked s (convertTypes s src fun t => srTarget t && t != .f4b) fun x =>
    let md := x.2
    let w := tyWidth md.ty
    let blocks := x.1 == .f4b
    elementwise s (if blocks then checkBlocks s vd w md.blk else .ok ()) vd w [winOf s va (tyWidth x.1)] m
      (fun s => if blocks then (kreg s 0).lease else {}) (md.rm == .sr)
      (fun s i u => convertElem x.1 md u (if blocks then scaleByte s 0 (i / md.blk) else 0) (elem s va (tyWidth x.1) i))
      (fun s i => blocks && scalePoisoned s 0 (i / md.blk))

/-- `vcvti`: the pattern of the source element at the destination's width (R237). -/
def repatternElem (src dst : ElemTy) (x : Nat) : Nat :=
  (if tyIsSigned src ∧ tyWidth src < tyWidth dst then ofSigned (tyWidth dst) (toSigned (tyWidth src) x) else x) % 2 ^ tyWidth dst

/-- `vcvti` (R237). That an `f4b` source needs no block length, since no scale is read, is a DESIGN CHOICE (log 61). -/
def execVcvti (vd va : Reg) (src : BitVec 4) (m : Reg3) (s : State) : Out :=
  checked s (convertTypes s src noSr) fun x =>
    elementwise s (.ok ()) vd (tyWidth x.2.ty) [winOf s va (tyWidth x.1)] m (fun _ => {}) false
      fun s i _ => (repatternElem x.1 x.2.ty (elem s va (tyWidth x.1) i), 0, false)

/-! ### `vquant` (R238, R216) -/

/-- The active elements of block `b` of length `n`. -/
def blockIdx (s : State) (m : Reg3) (n b : Nat) : List Nat := activeIdx s m (b * n) (b * n + n)

/-- One block: its samples are drawn by its active elements in ascending order, its scale byte and then its codes written
(R238, R215). -/
def quantOne (va vd : Reg) (kb m : Reg3) (md : VMode) (s : State) (b : Nat) : State :=
  let n := md.blk
  let act := blockIdx s m n b
  if act.isEmpty then s
  else
    let draws := md.rm == .sr
    let step (x : BitVec 32 × List Nat) (i : Nat) : BitVec 32 × List Nat :=
      if draws ∧ act.contains (b * n + i) then
        let r := lfsr16 x.1
        (r, (r.toNat % 65536) :: x.2)
      else (x.1, 0 :: x.2)
    let samples := (List.range n).foldl step (s.hart.csr.rndstate, [])
    let val (i : Nat) : FVal :=
      if act.contains (b * n + i) then fmtF32.decode (elem s va 32 (b * n + i)) else .fin false 0 0
    let q := quantBlock md.rm samples.2.reverse ((List.range n).map val)
    let codes := act.map fun i => (i, (q.2.1[i - b * n]?).getD 0)
    let t := writeElems s (kreg s kb).win.base.toNat 8 [(b, q.1)]
    let t := writeElems t (vreg s vd).win.base.toNat 4 codes
    setRnd (addVxstat t q.2.2 false) samples.1

/-- The checks of `vquant` (R238, R226). That kb is checked before vd and va is a DESIGN CHOICE (log 32). -/
def checkQuant (s : State) (vd va : Reg) (kb : Reg3) (md : VMode) : Except Exc Unit := do
  needTy s (md.ty == .f4b && vlOf s % md.blk == 0)
  checkScale s kb (vlOf s / md.blk)
  checkDest s true vd 4 [winOf s va 32] (vlOf s)
  checkOverlap false (scaleWin s kb) [winOf s va 32]

/-- The lease set of a scale register that was written (R52). -/
def scaleLease (s : State) (k : Reg3) (whole : Bool) (rows : List Nat) (l : LeaseSet) : State :=
  let x := kreg s k
  spreadLease (setKreg s k { x with lease := if whole then l else x.lease.union l }) none (some k) rows l

def execVquant (vd va : Reg) (kb m : Reg3) (s : State) : Out :=
  checked s (vmode s srTarget) fun md =>
    checked s (checkQuant s vd va kb md) fun _ =>
      withChunks s [va] fun s =>
        let n := md.blk
        let b0 := vstartOf s / n
        let hi := stopAt s m 32
        let bs := (indexes b0 (vlOf s / n)).filter fun b => b * n < max hi (vstartOf s + 1)
        let bad := bs.find? fun b => (blockIdx s m n b).any fun i => anyPoisoned s [winOf s va 32] i
        let done := match bad with
          | some k => bs.filter (· < k)
          | none => bs
        let lease := (vreg s va).lease.union (maskLease s m)
        let fin := (b0 + bs.length) * n
        let whole := m == 0 && beganAtZero s && bad.isNone && vlOf s ≤ fin
        let idxs := done.flatMap (blockIdx s m n)
        let t := done.foldl (quantOne va vd kb m md) s
        let t := if done.isEmpty then t
          else scaleLease (leaseWritten t vd whole (rowsOf s (vreg s vd).win.base.toNat 4 idxs) lease) kb whole
            (rowsOf s (kreg s kb).win.base.toNat 8 done) lease
        match bad with
        | some k => raise0 (setVrestart (setGroups t vd 4 (k * n) false) (k * n)) 35
        | none =>
          if fin < vlOf s then continueAt (setGroups t vd 4 fin true) fin
          else .next (complete (setVstart (setGroups t vd 4 (vlOf s) false) 0) 4)

end Sys2Proof.Machine
end

