-- ==== Sys2Proof/Machine/VMem.lean ====
section
/-!
DEFINITION. Vector loads and stores (R159 to R170, R74, R152) and vector atomics (R181), with stores into an accumulation
window (R190).

A transfer checks its elements before the first of them performs, and issues its element groups in order.  A group that must wait,
or the end of the group that this step may issue, leaves the instruction in flight at its `pc` with `vstart` at the next group.
-/

namespace Sys2Proof.Machine

/-! ### Formats (R160, R161) -/

/-- Half of a width. -/
def halfTy : ElemTy → Option ElemTy
  | .i16 => some .i8
  | .i32 => some .i16
  | .i64 => some .i32
  | .n16 => some .n8
  | .n32 => some .n16
  | .n64 => some .n32
  | .f32 => some .bf16
  | .bf16 => some .e4m3
  | .f16 => some .e5m2
  | _ => none

/-- A quarter of a width. -/
def quarterTy : ElemTy → Option ElemTy
  | .i32 => some .i8
  | .i64 => some .i16
  | .n32 => some .n8
  | .n64 => some .n16
  | .f32 => some .e4m3
  | _ => none

/-- The memory format of a type and a memory width (R160). -/
def memTy (t : ElemTy) : MemW → Option ElemTy
  | .x1 => some t
  | .x2 => halfTy t
  | .x4 => quarterTy t

/-- A memory element at the register's width: exact (R160). -/
def widenElem (mt t : ElemTy) (x : Nat) : Nat :=
  if mt = t then x
  else if tyIsInt t then wrapInt t (tyInt mt x)
  else widenBits (tyFmt t) ((tyFmt mt).decode x)

/-- A register element in the memory format (R161): bits, flags, whether it was clamped. -/
def narrowElem (t mt : ElemTy) (md : VMode) (u x : Nat) : Nat × Flags × Bool :=
  if mt = t then (x, 0, false)
  else if tyIsInt t then
    let r := fitInt md.sat mt (tyInt t x)
    (r.1, 0, r.2)
  else
    let r := roundTo (tyFmt mt) md.sat md.rm u ((tyFmt t).decode x)
    (r.1, r.2, false)

/-! ### A transfer -/

/-- How a transfer forms its addresses (R162). -/
inductive XKind where
  | unit
  | strided (b : Reg)
  | indexed (vb : Reg)
  | segment
  deriving DecidableEq, Repr

/-- A transfer: its kind, its access, its field registers, base, mask, mode and memory format. -/
structure Xfer where
  kind : XKind
  acc : Acc
  regs : List Reg
  base : Reg
  mask : Reg3
  md : VMode
  mt : ElemTy
  deriving DecidableEq, Repr

/-- The register element width. -/
def Xfer.w (x : Xfer) : Nat := tyWidth x.md.ty
/-- The bytes that one element's access touches; an `f4b` element lies in a byte. -/
def Xfer.mb (x : Xfer) : Nat := if x.mt = .f4b then 1 else tyWidth x.mt / 8

/-- The windows that a transfer reads or writes (R165). -/
def Xfer.wins (s : State) (x : Xfer) : List WinOp :=
  x.regs.map (winOf s · x.w) ++
    match x.kind with
    | .indexed vb => [winOf s vb x.w]
    | _ => []

/-- The offset of element `i` of an indexed transfer: as it was read, where the results overwrite the offsets (R163). -/
def Xfer.offset (s : State) (x : Xfer) (vb : Reg) (i : Nat) : Nat :=
  match s.hart.offsets[i]? with
  | some o => o.1
  | none => elem s vb x.w i

/-- The addresses of element `i`, one for each field (R162). -/
def Xfer.addrs (s : State) (x : Xfer) (i : Nat) : List Nat :=
  let ga := gval s x.base
  let at' (o : Word) : Nat := (ga + o).toNat
  match x.kind with
  | .unit => [at' (BitVec.ofNat 64 (if x.mt = .f4b then i / 2 else i * x.mb))]
  | .strided b => [at' (BitVec.ofNat 64 i * gval s b)]
  | .indexed vb => [at' (sextNat x.w (x.offset s vb i))]
  | .segment =>
    let n := x.regs.length
    (List.range n).map fun f => at' (BitVec.ofNat 64 ((i * n + f) * x.mb))

/-- The addresses as the access reaches them, in a replica its own slab's scratchpad. -/
def Xfer.reached (s : State) (x : Xfer) (i : Nat) : List Nat := (x.addrs s i).map (replicaAddr s)

/-- The read of the slot record that a tag names fails: its own cause, with which no element performs (R72, R399). -/
def recordExc (s : State) (tag : BitVec 8) : Option Exc :=
  if tag = 0 ∨ tag = 255 then none
  else match readRecord s tag with
    | .error e => some e
    | .ok _ => none

/-- The cause of one address of a transfer: R72 (for an indexed one, the probe's cause 25 of R74), the watchpoint, the hart's own
window unless the access adds to it (R190). -/
def Xfer.addrExc (s : State) (x : Xfer) (adds : Bool) (a : Nat) : Option Exc :=
  let indexed := match x.kind with
    | .indexed _ => true
    | _ => false
  match recordExc s (baseTag s x.base), checkVectorAccess s x.acc (baseTag s x.base) a x.mb x.mb with
  | some e, _ => some e
  | none, .error e => some (if indexed then excAt 25 (e.code * 2 ^ 58 + a % 2 ^ 52) else e)
  | none, .ok _ =>
    match checkVectorOwn s x.acc adds a x.mb with
    | .error e => some e
    | .ok _ => none

/-- The cause of element `i`: that of its first failing field (R165). -/
def Xfer.exc (s : State) (x : Xfer) (adds : Bool) (i : Nat) : Option Exc := (x.addrs s i).findSome? (x.addrExc s adds)

/-- The error that the far side returns for element `i` when it performs. -/
def Xfer.farExc (s : State) (x : Xfer) (i : Nat) : Option Exc := (x.addrs s i).findSome? (farErrorIn s x.acc · x.mb)

/-- The offset of element `i` is poisoned. -/
def Xfer.badOffset (s : State) (x : Xfer) (i : Nat) : Bool :=
  match x.kind with
  | .indexed vb =>
    match s.hart.offsets[i]? with
    | some o => o.2
    | none => elemPoisoned s (vreg s vb).win.base.toNat x.w i
  | _ => false

/-- The register data of element `i` is poisoned. -/
def Xfer.badData (s : State) (x : Xfer) (i : Nat) : Bool :=
  x.regs.any fun v => elemPoisoned s (vreg s v).win.base.toNat x.w i

/-! ### Waiting (R168, R150) -/

/-- Element `i` waits for an earlier access. -/
def Xfer.waits (s : State) (x : Xfer) (i : Nat) : Bool :=
  (x.reached s i).any fun a => if x.acc.writes then mustWait s true a x.mb else readWaits s a x.mb

/-- The bytes of element `i` that watermark bindings hold back; stores are never held. -/
def Xfer.held (s : State) (x : Xfer) (i : Nat) : List (Nat × Nat) :=
  if x.acc = .store then [] else heldRuns s ((x.reached s i).map (·, x.mb))

/-- The destination shares rows with the offsets: every offset is read before any element is written (R163). -/
def Xfer.overOffsets (s : State) (x : Xfer) : Bool :=
  match x.kind with
  | .indexed vb => x.acc != .store && x.regs.any fun v => (vreg s v).win.shares (vreg s vb).win
  | _ => false

/-- How far a transfer gets in this step: the active elements that perform, the first element that does not, and why. -/
inductive Stop where
  /-- no further than this step's share, or the end -/
  | share
  /-- a check failed at the element -/
  | fails (e : Exc)
  /-- the group waits, held back at these bytes by bindings (none: by an earlier access) -/
  | waits (runs : List (Nat × Nat))
  deriving DecidableEq, Repr

structure Reach where
  lo : Nat
  hi : Nat
  idxs : List Nat
  stop : Stop
  deriving DecidableEq, Repr

/-- A check has failed. -/
def Reach.failed (r : Reach) : Bool :=
  match r.stop with
  | .fails _ => true
  | _ => false

/-- The first element from `vstart` on whose check fails, with its cause. That a poisoned offset is checked with the value that it
holds, so that cause 25 comes before cause 35 (R165), is a DESIGN CHOICE (log 59). -/
def Xfer.firstBad (s : State) (x : Xfer) (adds : Bool) : Option (Nat × Exc) :=
  (activeIdx s x.mask (vstartOf s) (vlOf s)).findSome? fun i => (x.exc s adds i).map fun e => (i, e)

/-- A transfer begins: every offset is read, where the results overwrite them (R163), and every element from `vstart` to `vl` − 1 is
checked, before any element performs (R74, R165). One in flight has been checked, and keeps that over a pre-emption (log 53); after a
move it is checked again, with the offsets that it has read. -/
def Xfer.probe (s : State) (x : Xfer) (adds : Bool) : State :=
  if s.hart.probed.isSome then s
  else
    let offs := match x.kind with
      | .indexed vb =>
        if !s.hart.offsets.isEmpty then s.hart.offsets
        else if x.overOffsets s then (List.range (vlOf s)).map fun i => (elem s vb x.w i, x.badOffset s i) else []
      | _ => []
    { s with hart := { s.hart with
        offsets := offs
        probed := some ((x.firstBad s adds).map fun p => (p.1, { code := p.2.code, tval := p.2.tval })) } }

/-- What the check of a transfer has found. -/
def probedBad (s : State) : Option (Nat × Exc) :=
  match s.hart.probed with
  | some (some p) => some (p.1, { code := p.2.code, tval := p.2.tval })
  | _ => none

/-- The elements of this step, below `last` (R163 to R168). -/
def Xfer.reach (s : State) (x : Xfer) (last : Nat) : Reach :=
  let lo := vstartOf s
  let act := activeIdx s x.mask lo last
  let bad := match (probedBad s).filter (·.1 < last) with
    | some b =>
      match (act.filter (· < b.1)).findSome? fun i => (x.farExc s i).map fun e => (i, e) with
      | some f => some f
      | none => some b
    | none => act.findSome? fun i => (x.farExc s i).map fun e => (i, e)
  let ok := match bad with
    | some (k, _) => act.filter (· < k)
    | none => act
  let ge := groupElems s x.w
  match ok.find? fun i => x.waits s i || !(x.held s i).isEmpty with
  | some i =>
    let g := max lo (i / ge * ge)
    let group := ok.filter fun j => g ≤ j && j < (i / ge + 1) * ge
    { lo := lo, hi := g, idxs := ok.filter (· < g), stop := .waits (group.flatMap (x.held s)) }
  | none =>
    match bad with
    | some (k, e) => { lo := lo, hi := k, idxs := ok, stop := .fails e }
    | none => { lo := lo, hi := last, idxs := ok, stop := .share }

/-- The end of a step of a transfer. A record that is poisoned changes nothing (R399). -/
def closeXfer (s : State) (r : Reach) : Out :=
  match r.stop with
  | .fails e => raise (if e.code = 31 then endStall s else setVstart (endStall s) r.hi) e
  | .share => if r.hi < vlOf s then continueAt (endStall s) r.hi else .next (complete (setVstart (endStall s) 0) 4)
  | .waits runs =>
    if r.lo < r.hi then continueAt (endStall s) r.hi
    else if runs.isEmpty then stall s
    else match holdGroup s runs with
      | .error e => raise (endStall s) e
      | .ok t => stall t

/-! ### The lease ID (R130, R140, R168) -/

/-- The ID of the load at `pc`, taken once as it issues (R130): an instruction that is in flight keeps it, and the bindings of that
moment (R194). -/
def issueId (s : State) : BitVec 4 × State :=
  match s.hart.inProgress with
  | some id => (id, s)
  | none =>
    let t := keepBindings (takeId s)
    (s.hart.leaseNext, { t with hart := { t.hart with inProgress := some s.hart.leaseNext } })

/-- A stall has timed out (R196): a chunk that was to be read has taken its ID, and with it the load that waits for it (R140). -/
def timedOutStall (s : State) (e : Exc) : State :=
  if s.hart.inProgress.isSome then endStall s
  else match s.hart.current.map (·.2) with
    | some (Instr.vldx ..) | some (Instr.vamoAdd ..) | some (Instr.vamoSwap ..) | some (Instr.vamoMin ..) | some (Instr.vamoMax ..)
    | some (Instr.vamoAnd ..) | some (Instr.vamoOr ..) | some (Instr.vamoXor ..) => (issueId (lostChunk s e)).2
    | _ => lostChunk s e

/-- A group of context `h` that has stalled on binding `n` past its timeout raises cause 46 (R196). -/
def execWatermarkTimeout (h : Nat) (n : BitVec 4) (s : State) : Out :=
  asHart s h fun t =>
    if t.hart.phase = .launched ∧ !t.hart.stopped ∧ timedOut t n.toNat then
      let e : Exc := { code := 46, tval := n.zeroExtend 64 }
      raise (timedOutStall t e) e
    else .next t

/-- A cause at issue of an instruction that takes an ID. -/
def raiseTaken (s : State) (e : Exc) : Out := raise (issueId s).2 e

/-- The lease set of the address operands (R163). -/
def Xfer.lease (s : State) (x : Xfer) : LeaseSet :=
  let l := (gpr s x.base).lease
  match x.kind with
  | .strided b => l.union (gpr s b).lease
  | .indexed vb => l.union (vreg s vb).lease
  | _ => l

/-! ### Checks at issue (R160, R165) -/

/-- Field registers whose windows share a row raise cause 32 (R165). -/
def checkFields (s : State) : List Reg → Except Exc Unit
  | [] => .ok ()
  | v :: l =>
    if l.any fun u => (vreg s v).win.shares (vreg s u).win then .error { code := 32, tval := BitVec.ofNat 64 v.toNat }
    else checkFields s l

/-- The mode and the memory format (R160, R161, R162). -/
def xferMode (s : State) (store : Bool) (kind : XKind) (mw : MemW) : Except Exc (VMode × ElemTy) := do
  let md ← vmode s fun t => store && mw != .x1 && tyIsAnyFloat t
  match memTy md.ty mw with
  | some mt => if mt = .f4b ∧ kind ≠ .unit then throw (vtypeExc s) else return (md, mt)
  | none => throw (vtypeExc s)

/-- The registers of a transfer (R165, R263). -/
def Xfer.check (s : State) (x : Xfer) : Except Exc Unit := do
  checkWins s (x.wins s) (vlOf s)
  checkFields s x.regs
  if x.acc ≠ .store then x.regs.forM (checkUnbound s)

/-- An access of the transfer reaches a device register that the spec does not describe. -/
def Xfer.undescribed (s : State) (x : Xfer) (idxs : List Nat) : Option Nat :=
  (idxs.flatMap (x.addrs s)).find? fun a => Machine.undescribed x.acc.writes a x.mb

/-! ### Loads (R163) -/

/-- The memory value of element `i` at an address. -/
def memElem (s : State) (x : Xfer) (i a : Nat) : Nat :=
  if x.mt = .f4b then
    let b := (readByte s a).toNat
    if i % 2 = 0 then b % 16 else b / 16
  else readNat s a x.mb

/-- Write the values of a list of elements into the field registers, with the lease sets. A load of which no element performs leaves
them: a DESIGN CHOICE (log 38). -/
def Xfer.deliver (s : State) (x : Xfer) (whole : Bool) (idxs : List Nat) (lease : LeaseSet) (vals : Nat → List Nat) : State :=
  (x.regs.zip (List.range x.regs.length)).foldl (fun t p =>
    let base := (vreg s p.1).win.base.toNat
    let xs := idxs.map fun i => (i, ((vals i)[p.2]?).getD 0)
    let t := writeElems t base x.w xs
    if idxs.isEmpty then t else leaseWritten t p.1 whole (rowsOf s base x.w idxs) lease) s

/-- The destinations' progress indexes (R53). -/
def Xfer.groups (s : State) (x : Xfer) (n : Nat) (busy : Bool) : State :=
  x.regs.foldl (fun t v => setGroups t v x.w n busy) s

/-- The end of a step of a load or a vector atomic: its destinations' indexes, which a poisoned slot record leaves too (R399), then as
for every transfer. -/
def Xfer.close (s : State) (x : Xfer) (r : Reach) (failed : Bool) : Out :=
  let kept := match r.stop with
    | .fails e => e.code == 31
    | _ => false
  closeXfer (if kept then s else x.groups s r.hi (!failed && r.hi < vlOf s)) r

/-- The poisoned address of element `i`'s memory, if there is one. -/
def Xfer.poison (s : State) (x : Xfer) (i : Nat) : Option Nat :=
  ((x.addrs s i).zip (x.reached s i)).findSome? fun p => if (firstPoisoned s p.2 x.mb).isSome then some p.1 else none

/-- A vector load. -/
def runLoad (s : State) (x : Xfer) : Out :=
  match x.check s with
  | .error e => raiseTaken s e
  | .ok _ =>
    withChunks s (match x.kind with | .indexed vb => [vb] | _ => []) (own := fun s => (issueId s).2) fun s =>
      let (id, t) := issueId (x.probe s false)
      let r := x.reach t (stopAt t x.mask x.w)
      match x.undescribed t r.idxs with
      | some a => .fault (.undescribedRegister a)
      | none =>
        let bad := r.idxs.find? fun i => x.badOffset t i || (x.poison t i).isSome
        let idxs := match bad with
          | some k => r.idxs.filter (· < k)
          | none => r.idxs
        let stopped := bad.isSome || r.failed
        let whole := x.mask == 0 && beganAtZero t && !stopped && vlOf s ≤ r.hi
        let vals (i : Nat) : List Nat := (x.reached t i).map fun a => widenElem x.mt x.md.ty (memElem t x i a)
        let u := x.deliver t whole idxs ((x.lease t).withId id) vals
        match bad with
        | some k =>
          let a := if x.badOffset t k then (x.addrs t k).headD 0 else (x.poison t k).getD 0
          let tval := BitVec.ofNat 64 a
          raise (setVrestart (endStall (x.groups u k false)) k) { code := 35, tval := tval }
        | none => x.close u r stopped

/-! ### Stores (R164, R190) -/

/-- The bytes that a store of element `i` with bits `v` writes at `a`. -/
def storeImage (s : State) (x : Xfer) (i a v : Nat) : List Byte :=
  if x.mt = .f4b then
    let b := (readByte s a).toNat
    [BitVec.ofNat 8 (if i % 2 = 0 then b / 16 * 16 + v % 16 else v % 16 * 16 + b % 16)]
  else leBytes x.mb v

/-- The slab whose lane produces element `i` (R189). -/
def elemSlab (s : State) (w i : Nat) : Nat := slab0 s + i * w / 8 % rowBytes s / 256

/-- Add element `i` with bits `v` into the copy of its slab (R190), an overflow under `sat` (R211). -/
def addToWindow (sat : Bool) (s : State) (aw : AccWin) (w i a v : Nat) : State :=
  match s.hart.accWin with
  | none => s
  | some cur =>
    let k := elemSlab s w i * 65536 + (aliasAs aw.base a - aw.base)
    let n := tyWidth aw.ty / 8
    let r := windowAdd sat aw.ty (cur.copies.readNat k n) v
    let t := { s with hart := { s.hart with accWin := some { cur with copies := cur.copies.writeBytes k (leBytes n r.1) } } }
    addVxstat t r.2 false

/-- The window that every active element of the store adds into, if the store is such a one (R190). -/
def Xfer.addsTo (s : State) (x : Xfer) : Option AccWin :=
  match s.hart.accWin with
  | none => none
  | some aw =>
    let all := activeIdx s x.mask 0 (vlOf s)
    if x.mt = x.md.ty ∧ x.md.ty = aw.ty ∧
        all.all (fun i => (x.addrs s i).all fun a => inSpan aw.base aw.size a && inSpan aw.base aw.size (a + x.mb - 1)) then
      some aw
    else none

/-- Store one field of element `i`: one stochastic sample if it is drawn, the flags, the bytes. That a segment store draws one for each
field of an element is a DESIGN CHOICE (log 49). -/
def storeField (x : Xfer) (aw : Option AccWin) (i : Nat) (s : State) (p : Reg × Nat) : State :=
  let draws := x.md.rm == .sr
  let s := if draws then setRnd s (lfsr16 s.hart.csr.rndstate) else s
  let r := narrowElem x.md.ty x.mt x.md (s.hart.csr.rndstate.toNat % 65536) (elem s p.1 x.w i)
  let t := addVxstat s r.2.1 r.2.2
  match aw with
  | some w => addToWindow x.md.sat t w x.w i p.2 r.1
  | none => storeBytes t p.2 (storeImage t x i p.2 r.1)

/-- Store element `i`. -/
def storeElem (x : Xfer) (aw : Option AccWin) (s : State) (i : Nat) : State :=
  (x.regs.zip (x.reached s i)).foldl (storeField x aw i) s

/-- The bytes that a store of a list of elements writes whole: of `f4b` those that both of their elements write. -/
def Xfer.written (s : State) (x : Xfer) (idxs : List Nat) : List (Nat × Nat) :=
  (if x.mt = .f4b then idxs.filter fun i => i % 2 == 0 && idxs.contains (i + 1) else idxs).flatMap fun i =>
    (x.reached s i).map (·, x.mb)

/-- Eight bytes from key `8 * g` up all lie in the runs. -/
def covered (runs : List (Nat × Nat)) (g : Nat) : Bool :=
  (List.range 8).all fun j => runs.any fun r => r.1 ≤ 8 * g + j && 8 * g + j < r.1 + r.2

/-- The granules that the elements of one store cover together, in all its groups, lose their poison (R355). -/
def clearCovered (s : State) (runs : List (Nat × Nat)) : State :=
  let id := feOf s.hart.slot
  let f := frontEnd s id
  let sys := runs.filterMap fun r => if (placeOf r.1).isLocal then none else some (canon r.1, r.2)
  let pad := runs.filterMap fun r => match placeOf r.1 with
    | .scratch j => some (j * 0x100000 + (r.1 - localBase) % 0x100000, r.2)
    | _ => none
  let t := if s.poison.isEmpty then s else { s with poison := s.poison.filter fun g => !covered sys g }
  if f.scratchPoison.isEmpty then t
  else setFrontEnd t id { f with scratchPoison := f.scratchPoison.filter fun g => !covered pad g }

/-- The vector registers that a store reads. -/
def Xfer.sources (x : Xfer) : List Reg :=
  x.regs ++ match x.kind with
    | .indexed vb => [vb]
    | _ => []

/-- A store of the elements gives a device register a value that it does not take (R8). -/
def Xfer.refused (s : State) (x : Xfer) (idxs : List Nat) : Bool :=
  idxs.any fun i => (x.regs.zip (x.reached s i)).any fun p =>
    badDevice s p.2 (storeImage s x i p.2 (narrowElem x.md.ty x.mt x.md 0 (elem s p.1 x.w i)).1)

/-- A vector store. -/
def runStore (s : State) (x : Xfer) : Out :=
  checked s (x.check s) fun _ =>
    withChunks s x.sources fun s =>
      let aw := x.addsTo s
      let s := x.probe s aw.isSome
      let r := x.reach s (stopAt s x.mask x.w)
      match x.undescribed s r.idxs with
      | some a => .fault (.undescribedRegister a)
      | none =>
        let bad := r.idxs.find? fun i => x.badOffset s i || x.badData s i
        let idxs := match bad with
          | some k => r.idxs.filter (· < k)
          | none => r.idxs
        if x.refused s idxs then raise0 s 1
        else
          let t := idxs.foldl (storeElem x aw) s
          let runs := s.hart.wrote ++ x.written s idxs
          let t := if aw.isSome then t else clearCovered { t with hart := { t.hart with wrote := runs } } runs
          match bad with
          | some k => raise0 (setVrestart (endStall t) k) 35
          | none => closeXfer t r

/-! ### The instructions -/

/-- A load of a kind and memory width. -/
def vecLoad (s : State) (kind : XKind) (regs : List Reg) (a : Reg) (m : Reg3) (mw : MemW) : Out :=
  match xferMode s false kind mw with
  | .error e => raiseTaken s e
  | .ok (md, mt) => runLoad s { kind := kind, acc := .load, regs := regs, base := a, mask := m, md := md, mt := mt }

/-- A store of a kind and memory width. -/
def vecStore (s : State) (kind : XKind) (regs : List Reg) (a : Reg) (m : Reg3) (mw : MemW) : Out :=
  checked s (xferMode s true kind mw) fun x =>
    runStore s { kind := kind, acc := .store, regs := regs, base := a, mask := m, md := x.1, mt := x.2 }

/-- The operand limits of a segment instruction (R159). -/
def segmentOk (vd : Reg) (nf : Reg3) : Bool := nf != 0 && decide (vd.toNat + nf.toNat ≤ 31)

def execVld (vd a : Reg) (m : Reg3) (w : MemW) (s : State) : Out := vecLoad s .unit [vd] a m w
def execVlds (vd a b : Reg) (m : Reg3) (w : MemW) (s : State) : Out := vecLoad s (.strided b) [vd] a m w
def execVldx (vd a b : Reg) (m : Reg3) (w : MemW) (s : State) : Out := vecLoad s (.indexed b) [vd] a m w
def execVlseg (vd a : Reg) (nf m : Reg3) (w : MemW) (s : State) : Out :=
  if segmentOk vd nf then vecLoad s .segment (fieldRegs vd nf) a m w
  else raise s { code := 1, tval := instrBits (.vlseg vd a nf m w) }
def execVst (vd a : Reg) (m : Reg3) (w : MemW) (s : State) : Out := vecStore s .unit [vd] a m w
def execVsts (vd a b : Reg) (m : Reg3) (w : MemW) (s : State) : Out := vecStore s (.strided b) [vd] a m w
def execVstx (vd a b : Reg) (m : Reg3) (w : MemW) (s : State) : Out := vecStore s (.indexed b) [vd] a m w
def execVsseg (vd a : Reg) (nf m : Reg3) (w : MemW) (s : State) : Out :=
  if segmentOk vd nf then vecStore s .segment (fieldRegs vd nf) a m w
  else raise s { code := 1, tval := instrBits (.vsseg vd a nf m w) }

/-! ### Vector atomics (R181) -/

/-- The types of `vamo`. -/
def vamoType : ElemTy → Bool
  | .i32 | .n32 | .i64 | .n64 => true
  | _ => false

/-- The checks of `vamo` on its mode. -/
def vamoMode (s : State) : Except Exc VMode := do
  let md ← vmode s noSr
  needTy s (vamoType md.ty)
  return md

/-- One element at an address: one atomic access; the old value goes to vd. `new` computes from the type, the old value
and the operand. -/
def amoElem (x : Xfer) (new : ElemTy → Nat → Nat → Nat) (s : State) (vd : Reg) (i a : Nat) : State :=
  let old := readNat s a x.mb
  let t := storeBytes s a (leBytes x.mb (new x.md.ty old (elem s vd x.w i)))
  writeElems t (vreg s vd).win.base.toNat x.w [(i, old)]

/-- Perform elements, each with its address, in ascending order until one's offset, memory value or operand is poisoned. -/
def amoRun (x : Xfer) (new : ElemTy → Nat → Nat → Nat) (vd : Reg) (s : State) : List (Nat × Nat × Bool) → State × Option Nat
  | [] => (s, none)
  | (i, a, bad) :: l =>
    if bad || x.badData s i || (firstPoisoned s a x.mb).isSome then (s, some i)
    else amoRun x new vd (amoElem x new s vd i a) l

/-- A vector atomic. -/
def vecAmo (s : State) (vd a vb : Reg) (m : Reg3) (new : ElemTy → Nat → Nat → Nat) : Out :=
  match vamoMode s with
  | .error e => raiseTaken s e
  | .ok md =>
    let x : Xfer := { kind := .indexed vb, acc := .atomic, regs := [vd], base := a, mask := m, md := md, mt := md.ty }
    match x.check s with
    | .error e => raiseTaken s e
    | .ok _ =>
      withChunks s [vb] (own := fun s => (issueId s).2) fun s =>
        let (id, t) := issueId (x.probe s false)
        let r := x.reach t (stopAt t x.mask x.w)
        -- every offset is read before any element of vd is written (R163)
        let items := r.idxs.flatMap fun i => (x.reached t i).map fun a => (i, a, x.badOffset t i)
        let u := amoRun x new vd t items
        let done := match u.2 with
          | some k => r.idxs.filter (· < k)
          | none => r.idxs
        let lease := ((x.lease t).union (vreg t vd).lease).withId id
        let base := (vreg t vd).win.base.toNat
        let v := if done.isEmpty then u.1 else leaseWritten u.1 vd false (rowsOf t base x.w done) lease
        match u.2 with
        | some k => raise0 (setVrestart (endStall (x.groups v k false)) k) 35
        | none => x.close v r r.failed

def execVamoAdd (vd a vb : Reg) (m : Reg3) (s : State) : Out := vecAmo s vd a vb m fun _ old y => old + y
def execVamoSwap (vd a vb : Reg) (m : Reg3) (s : State) : Out := vecAmo s vd a vb m fun _ _ y => y
def execVamoMin (vd a vb : Reg) (m : Reg3) (s : State) : Out :=
  vecAmo s vd a vb m fun t old y => if tyInt t y < tyInt t old then y else old
def execVamoMax (vd a vb : Reg) (m : Reg3) (s : State) : Out :=
  vecAmo s vd a vb m fun t old y => if tyInt t old < tyInt t y then y else old
def execVamoAnd (vd a vb : Reg) (m : Reg3) (s : State) : Out := vecAmo s vd a vb m fun _ old y => old &&& y
def execVamoOr (vd a vb : Reg) (m : Reg3) (s : State) : Out := vecAmo s vd a vb m fun _ old y => old ||| y
def execVamoXor (vd a vb : Reg) (m : Reg3) (s : State) : Out := vecAmo s vd a vb m fun _ old y => old ^^^ y

end Sys2Proof.Machine
end

