-- ==== Sys2Proof/Machine/Spill.lean ====
section
/-!
DEFINITION. Spills and fills of vector and general registers (R172 to R175).
-/

namespace Sys2Proof.Machine

/-- The window of a spill or fill: R50 without cause 34 (R173). -/
def checkSpillWin (s : State) (v : Reg) : Except Exc Unit := do
  if (vreg s v).win.len = 0 then throw { code := 32, tval := BitVec.ofNat 64 v.toNat }
  checkRows s (vreg s v).win

/-- The address of row `r` of an image (R172). -/
def imageRow (s : State) (a : Reg) (r : Nat) : Nat := (gval s a + BitVec.ofNat 64 (64 + r * rowBytes s)).toNat

/-- The header of the image of a window (R172). -/
def spillHeader (s : State) (v : Reg) : List Byte :=
  leBytes 2 1 ++ leBytes 2 (vreg s v).win.len.toNat ++ leBytes 1 (slabs s) ++ List.replicate 59 0

/-- The key of byte `b` of row `r` of a register's window. -/
def windowKey (s : State) (v : Reg) (r b : Nat) : Nat := imageKey s ((vreg s v).win.base.toNat + r) b

/-- Store 64 bytes of row `r` from byte `b` on, with their poison. -/
def spillPiece (s : State) (v : Reg) (r b a : Nat) : State :=
  let t := storeBytes s a (s.hart.rows.readBytes (windowKey s v r b) 64)
  (List.range 8).foldl (fun t j =>
    if s.hart.rowPoison.contains (windowKey s v r b / 8 + j) then poisonBytes t (a + 8 * j) 8 else t) t

/-- Row `r` would give a device register a value that it does not take (R8). -/
def rowRefused (s : State) (v a : Reg) (r : Nat) : Bool :=
  (List.range (rowBytes s / 64)).any fun j =>
    badDevice s (imageRow s a r + 64 * j) (s.hart.rows.readBytes (windowKey s v r (64 * j)) 64)

/-- Store row `r`. -/
def spillRow (v a : Reg) (s : State) (r : Nat) : State :=
  (List.range (rowBytes s / 64)).foldl (fun t j => spillPiece t v r (64 * j) (replicaAddr s (imageRow s a r + 64 * j))) s

/-- How far the rows of an image get: the rows from `vstart`, the first row that stops them, and why. -/
def rowsReach (s : State) (k : Acc) (v a : Reg) : Reach :=
  let n := (vreg s v).win.len.toNat
  let lo := vstartOf s
  let last := if s.slice then min n (lo + 1) else n
  let rows := indexes lo last
  let fails (r : Nat) : Option (Nat × Exc) :=
    match checkVector s k (baseTag s a) (imageRow s a r) (rowBytes s) 1 with
    | .ok _ => none
    | .error e => some (r, e)
  let at' (r : Nat) : Nat := replicaAddr s (imageRow s a r)
  let held (r : Nat) : List (Nat × Nat) := if k.writes then [] else heldRuns s [(at' r, rowBytes s)]
  let waits (r : Nat) : Bool := if k.writes then mustWait s true (at' r) (rowBytes s) else readWaits s (at' r) (rowBytes s)
  let bad := rows.findSome? fails
  let ok := match bad with
    | some (j, _) => rows.filter (· < j)
    | none => rows
  match ok.find? fun r => waits r || !(held r).isEmpty with
  | some r => { lo := lo, hi := r, idxs := ok.filter (· < r), stop := .waits (held r) }
  | none =>
    match bad with
    | some (j, e) => { lo := lo, hi := j, idxs := ok, stop := .fails e }
    | none => { lo := lo, hi := last, idxs := ok, stop := .share }

/-- The end of a step of a spill or fill of `n` rows: one whose next row waits stays in flight, its header done. -/
def closeRows (s : State) (n : Nat) (r : Reach) : Out :=
  match r.stop with
  | .fails e => raise (if e.code = 31 then endStall s else setVstart (endStall s) r.hi) e
  | .share => if r.hi < n then continueAt (endStall s) r.hi else .next (complete (setVstart (endStall s) 0) 4)
  | .waits bs =>
    if r.lo < r.hi then continueAt (endStall s) r.hi
    else if bs.isEmpty then continueAt s r.lo
    else match holdGroup s bs with
      | .error e => raise (endStall s) e
      | .ok t => continueAt t r.lo

/-- The header's checks (R174). -/
def checkHeader (s : State) (k : Acc) (a : Reg) : Except Exc Unit := checkVector s k (baseTag s a) (baseAddr s a) 64 64

/-- A fault in the header sets `vstart` to 0 (R174); a poisoned slot record changes nothing (R399). -/
def headerFault (s : State) (e : Exc) : State := if e.code = 31 then s else setVstart s 0

/-- The header has been written or checked. -/
def headerDone (s : State) : State := { s with hart := { s.hart with headed := true } }

/-- `vspill`: the header, then the rows (R173). -/
def execVspill (v a : Reg) (s : State) : Out :=
  checked s (checkSpillWin s v) fun _ =>
    let x := baseAddr s a
    if s.hart.headed then rows s
    else match checkHeader s .store a with
      | .error e => raise (headerFault s e) e
      | .ok _ =>
        if mustWait s true (replicaAddr s x) 64 then stall s
        else if undescribed true x 64 then .fault (.undescribedRegister x)
        else if badDevice s x (spillHeader s v) then raise0 s 1
        else rows (headerDone (storeBytes s (replicaAddr s x) (spillHeader s v)))
where
  /-- The rows of this step. -/
  rows (s : State) : Out :=
    let r := rowsReach s .store v a
    match r.idxs.find? fun i => undescribed true (imageRow s a i) (rowBytes s) with
    | some i => .fault (.undescribedRegister (imageRow s a i))
    | none =>
      if r.idxs.any (rowRefused s v a) then raise0 s 1
      else closeRows (r.idxs.foldl (spillRow v a) s) (vreg s v).win.len.toNat r

/-- An image header matches the register (R173). -/
def headerMatches (s : State) (v a : Reg) : Bool :=
  readBytes s (replicaAddr s (baseAddr s a)) 64 == spillHeader s v

/-- Fill row `r`, with its poison. -/
def fillRow (v a : Reg) (s : State) (r : Nat) : State :=
  let bs := (List.range (rowBytes s / 64)).flatMap fun j => readRun s (replicaAddr s (imageRow s a r + 64 * j)) 64
  writeImage s ((vreg s v).win.base.toNat + r) 0 bs

/-- `vfill`: the header, then the rows; in the end its ID and the leases of ga are the lease set of the register (R173). -/
def execVfill (v a : Reg) (s : State) : Out :=
  match (do checkUnbound s v; checkSpillWin s v : Except Exc Unit) with
  | .error e => raiseTaken s e
  | .ok _ =>
    let x := baseAddr s a
    let (id, t) := issueId s
    if s.hart.headed then rows id t
    else match checkHeader t .load a with
      | .error e => raise (if e.code = 31 then t else headerFault (setIndex t v 0 false) e) e
      | .ok _ =>
        if readWaits t (replicaAddr t x) 64 then stall (setIndex t v 0 true)
        else if undescribed false x 64 then .fault (.undescribedRegister x)
        else match firstPoisoned t (replicaAddr t x) 64 with
          | some p => raise t (excAt 31 p)
          | none =>
            if headerMatches t v a then rows id (headerDone t)
            else raise (setVstart (setIndex t v 0 false) 0) (excAt 43 x)
where
  /-- The rows of this step, with the lease sets of the rows that are written. -/
  rows (id : BitVec 4) (s : State) : Out :=
    let r := rowsReach s .load v a
    let n := (vreg s v).win.len.toNat
    match r.idxs.find? fun i => undescribed false (imageRow s a i) (rowBytes s) with
    | some i => .fault (.undescribedRegister (imageRow s a i))
    | none =>
      let t := r.idxs.foldl (fillRow v a) s
      let whole := r.stop == .share && n ≤ r.hi
      let keys := r.idxs.map ((vreg s v).win.base.toNat + ·)
      let t := if r.idxs.isEmpty ∧ !whole then t else leaseWritten t v whole keys ((gpr s a).lease.withId id)
      closeRows (setIndex t v (min r.hi n) (r.hi < n && !r.failed)) n r

/-! ### General registers (R175) -/

/-- The image of a general register. -/
def gspillImage (v : GReg) : List Byte := leBytes 8 v.val.toNat ++ leBytes 1 v.tag.toNat ++ List.replicate 7 0

/-- That `gspill` and `gfill`, as scalar accesses, may reach the rows and the scalar data memory is a DESIGN CHOICE (log 50). -/
def execGspill (b a : Reg) (imm : BitVec 12) (s : State) : Out :=
  let x := effAddr s a (sext12 imm)
  checked s (checkStore s (baseTag s a) x 16 16) fun _ =>
    if mustWait s true x 16 then stall s
    else if undescribed true x 16 then .fault (.undescribedRegister x)
    else if badDevice s x (gspillImage (gpr s b)) then raise0 s 1
    else issueStore s 4 x (gspillImage (gpr s b)) [baseTag s a, baseTag s b] (mayPost s x)

def execGfill (d a : Reg) (imm : BitVec 12) (s : State) : Out :=
  let x := effAddr s a (sext12 imm)
  let t := takeId s
  match checkFull s .load (baseTag s a) x 16 16 with
  | .error e => raise t e
  | .ok _ =>
    if mustWait s false x 16 then stall s
    else if undescribed false x 16 then .fault (.undescribedRegister x)
    else match firstPoisoned s x 16 with
      | some p => raise t (excAt 31 p)
      | none =>
        if readNat s (x + 9) 7 ≠ 0 then raise t (excAt 43 x)
        else
          let v : GReg := { val := BitVec.ofNat 64 (readNat s x 8), tag := BitVec.ofNat 8 (readNat s (x + 8) 1),
                            lease := (gpr t a).lease.withId s.hart.leaseNext }
          finish t 4 d v

end Sys2Proof.Machine
end

