-- ==== Sys2Proof/Machine/Copy.lean ====
section
/-!
DEFINITION. The copy engine (R315 to R325, R310, R312).

A copy is accepted when it is dispatched (R315); its chunks perform one at a time in later steps, once it has left the queue.
-/

namespace Sys2Proof.Machine

/-- The checks of one side at dispatch: R72, then the watchpoint and the hart's own window with their own causes. -/
def checkCopySide (s : State) (k : Acc) (tag : BitVec 8) (a n : Nat) : Except Exc Unit := do
  checkCopyR72 s k tag (replicaOf s) a n
  checkWatch s k a n
  checkWindow s a n

/-- A region discards the copy (R250): it has been dispatched, and withdraws what that took (R315). -/
def discarded (s : State) : Bool := s.hart.regions.any (·.skip)

/-- A copy waits for an earlier access of the hart to bytes of one of its sides (R114); entries of earlier copies alone do not hold it
back: its own joins them (R317). -/
def copyFollows (s : State) (write : Bool) (a n : Nat) : Bool :=
  let me := s.hart.cid
  let span (r : Nat × Nat) : Bool := meets a n r.1 (r.2 - r.1)
  (ownPosted s).any (fun p => meets a n p.addr p.data.length) ||
    s.copies.any (fun c => c.cid == me && (span c.dstSpan || (write && span c.srcSpan))) ||
    s.merges.any (fun m => m.cid == me && meets a n m.win.base m.win.size) ||
    s.engines.any fun e => e.cid == me && e.meets write a n

/-- Accept a copy whose operands have been checked: it waits for earlier accesses to its bytes, for interlock entries unless it joins
held ones, and for room, then counts on its barrier (R317, R318). In a skipped body nothing of it is left (R315). -/
def acceptCopy (s : State) (c : Copy) : Out :=
  let (id, t) := freshId s
  let c := { c with seq := id }
  let src := c.srcSpan
  let dst := c.dstSpan
  if discarded s then .next (advance 4 s)
  else if copyFollows s false src.1 (src.2 - src.1) || copyFollows s true dst.1 (dst.2 - dst.1) ||
      32 < (takeEntries (entriesHere s) c).length || copiesFull s then stall s
  else
    .next (advance 4 { (countUp t c.bar c.total) with copies := t.copies ++ [c], entries := takeEntries t.entries c })

/-- The copy at `pc` that has been dispatched ahead of its turn (R22, R315). -/
def queuedCopy (s : State) : Option Nat :=
  match s.hart.queue with
  | q :: _ => if q.pc = s.hart.pc then q.copy else none
  | [] => none

/-- A dispatched copy leaves the queue: the engine may start it, or a region discards it (R315, R250). -/
def leaveQueue (s : State) (k : Nat) : State :=
  match s.copies.find? (·.seq == k) with
  | none => s
  | some c =>
    if discarded s then withdrawCopy s c
    else { s with copies := s.copies.map fun x => if x.seq = k then { x with queued := false } else x }

/-- A copy that was dispatched ahead waits at its turn for a store that has been issued before it and has not performed (R114). -/
def turnWaits (s : State) (k : Nat) : Bool :=
  match s.copies.find? (·.seq == k) with
  | none => false
  | some c => (ownPosted s).any fun p => [c.srcSpan, c.dstSpan].any fun r => meets p.addr p.data.length r.1 (r.2 - r.1)

/-- A copy at its turn: it leaves the queue, or is dispatched now. -/
def copyTurn (s : State) (dispatch : Out) : Out :=
  match queuedCopy s with
  | some k => if turnWaits s k then stall s else .next (advance 4 (leaveQueue s k))
  | none => dispatch

/-- The dispatch of a `cpy` (R321). -/
def dispatchCpy (d a b : Reg) (m : Reg3) (s : State) : Out :=
  let n := (gval s b).toNat
  let dst := baseAddr s d
  let src := baseAddr s a
  if n = 0 then .next (advance 4 s)
  else if 2 ^ 32 < n then raise s (excAt 29 n)
  else if src < dst + n ∧ dst < src + n then raise s (excAt 29 dst)
  else
    checked s (do checkCopySide s .load (baseTag s a) src n; checkCopySide s .store (baseTag s d) dst n) fun _ =>
      acceptCopy s
        { seq := 0, cid := s.hart.cid, bar := m, dst := gval s d, src := gval s a, dstTag := baseTag s d,
          srcTag := baseTag s a, rowBytes := n, rows := 1, dstPitch := 0, srcPitch := 0, done := 0, slab := replicaOf s,
          logged := false }

def execCpy (d a b : Reg) (m : Reg3) (s : State) : Out := copyTurn s (dispatchCpy d a b m s)

/-- The pattern of a `cpyx` descriptor behind an operand with slot tag `tag` (R322), with its destination rows in ascending order
(R310). -/
def patternOf (s : State) (tag : BitVec 8) (r : List Byte) (m : Reg3) : Copy :=
  let w (off n : Nat) : Word := BitVec.ofNat 64 (recField r off n)
  let c : Copy :=
    { seq := 0, cid := s.hart.cid, bar := m, dst := w 8 8, src := w 16 8, dstTag := 0, srcTag := 0,
      rowBytes := recField r 4 4, rows := recField r 40 4, dstPitch := w 24 8, srcPitch := w 32 8, done := 0,
      slab := replicaOf s, logged := false, tag := tag }
  if c.dstPitch.toInt < 0 then
    let k := BitVec.ofNat 64 (c.rows - 1)
    { c with dst := c.dst + k * c.dstPitch, src := c.src + k * c.srcPitch, dstPitch := -c.dstPitch, srcPitch := -c.srcPitch }
  else c

/-- The conditions of R322 on a descriptor. -/
def descriptorOk (r : List Byte) : Bool :=
  let rb := recField r 4 4
  let rows := recField r 40 4
  let pitch (off : Nat) : Int := toSigned 64 (recField r off 8)
  let w (off : Nat) : Word := BitVec.ofNat 64 (recField r off 8)
  let d := spanOf (w 8) (w 24) rows rb
  let q := spanOf (w 16) (w 32) rows rb
  recField r 0 1 == 1 && recZero r 1 4 && recZero r 44 64 && rb * rows != 0 && rb * rows ≤ 2 ^ 32 && rows ≤ 2 ^ 20 &&
    (rows ≤ 1 || rb ≤ (pitch 24).natAbs) && !(d.1 < q.2 && q.1 < d.2)

/-- R72 for every row of one side of a pattern. -/
def checkRowsOf (s : State) (k : Acc) (base pitch : Word) (len : Nat) : Nat → Except Exc Unit
  | 0 => .ok ()
  | n + 1 => do
    checkCopySide s k 0 base.toNat len
    checkRowsOf s k (base + pitch) pitch len n

/-- The dispatch of a `cpyx` (R322). -/
def dispatchCpyx (a : Reg) (m : Reg3) (s : State) : Out :=
  let x := baseAddr s a
  checked s (checkFull s .load (baseTag s a) x 64 64) fun _ =>
    if mustWait s false x 64 then stall s
    else if undescribed false x 64 then .fault (.undescribedRegister x)
    else match firstPoisoned s x 64 with
      | some p => raise s (excAt 31 p)
      | none =>
        let r := readBytes s x 64
        if !descriptorOk r then raise s (excAt 29 x)
        else
          let c := patternOf s (baseTag s a) r m
          checked s (do
              checkRowsOf s .load (BitVec.ofNat 64 (recField r 16 8)) (BitVec.ofNat 64 (recField r 32 8)) c.rowBytes c.rows
              checkRowsOf s .store (BitVec.ofNat 64 (recField r 8 8)) (BitVec.ofNat 64 (recField r 24 8)) c.rowBytes c.rows)
            fun _ =>
              acceptCopy s c

def execCpyx (a : Reg) (m : Reg3) (s : State) : Out := copyTurn s (dispatchCpyx a m s)

/-- The number of the last copy that stands before the instruction at `pc`: those that have been dispatched ahead follow it. -/
def lastCopy (s : State) : Nat :=
  match s.hart.queue.findSome? (·.copy) with
  | some k => k - 1
  | none => s.nextId

/-- `cpb` (R323): the hart goes on; its later vector accesses wait while too many bytes of its earlier copies on the barrier are
left. A `cpb` that holds nothing back any more is dropped. -/
def execCpb (m : Reg3) (b : Reg) (s : State) : Out :=
  .next (advance 4 { s with hart := { s.hart with
    gates := openGates s ++ [{ bar := m, limit := (gval s b).toNat, upTo := lastCopy s }] } })

/-- The end of a `cpwait` whose count is 0 (R325). -/
def cpwaitEnd (s : State) (m : Reg3) : Out :=
  let w := cpbOf s m
  if bit w 63 then
    raise (setCpb s m (withPending 0 (cpbPending w))) (excAt 29 (field w 50 6 * 2 ^ 58 + m.toNat))
  else .next (advance 4 s)

/-- `cpwait` waits first for the queued instructions before it: a `cpb` holds back the copies behind it (R325, R323). -/
def execCpwait (m : Reg3) (s : State) : Out :=
  if gated s (s.nextId + 1) then stall s
  else if cpbPending (cpbOf s m) = 0 then cpwaitEnd s m else .next (park s (.cpwait m))

/-- The count of a parked `cpwait` has reached 0 (R325). -/
def execCpwaitComplete (h : Nat) (s : State) : Out :=
  asHart s h fun t =>
    match t.hart.wait with
    | .cpwait m =>
      if t.hart.phase = .parked ∧ !t.hart.stopped ∧ cpbPending (cpbOf t m) = 0 then cpwaitEnd (unpark t) m else .next t
    | _ => .next t

/-! ### Chunks (R310, R324) -/

/-- Write bytes with their poison. -/
def storeRun (s : State) (a : Nat) (bs : List (Byte × Bool)) : State :=
  ((List.range bs.length).zip bs).foldl (fun t x => if x.2.2 then poisonBytes t (a + x.1) 1 else t)
    (storeBytes s a (bs.map (·.1)))

/-- The bytes of a copy from byte `o` of it to the end of the pattern row or of the 256-byte row that they are written to:
destination, source, length. -/
def Copy.piece (c : Copy) (o : Nat) : Nat × Nat × Nat :=
  let r := BitVec.ofNat 64 (o / c.rowBytes)
  let k := o % c.rowBytes
  let d := onSlab (c.slab.getD 0) (c.dst + r * c.dstPitch + BitVec.ofNat 64 k).toNat
  let q := onSlab (c.slab.getD 0) (c.src + r * c.srcPitch + BitVec.ofNat 64 k).toNat
  (d, q, min (c.rowBytes - k) (256 - d % 256))

/-- The pieces of a copy from byte `o` on that are written to one 256-byte row. -/
def Copy.pieces (c : Copy) (row : Nat) : Nat → Nat → List (Nat × Nat × Nat)
  | 0, _ => []
  | fuel + 1, o =>
    if c.total ≤ o ∨ (c.piece o).1 / 256 ≠ row then []
    else c.piece o :: Copy.pieces c row fuel (o + (c.piece o).2.2)

/-- The next chunk of a copy: the bytes of one 256-byte row of its destination, in pieces (R310). -/
def Copy.chunk (c : Copy) : List (Nat × Nat × Nat) := c.pieces ((c.piece c.done).1 / 256) 256 c.done

/-- The cause that a copy records for an error of the far side: 30 for the cold tier, 59 for a link, a peer or the host
(R324, R384, R386). -/
def farCode (e : Exc) : Nat := if e.code = 30 then 30 else 59

/-- What the far side of a piece answers. -/
def pieceError (s : State) (x : Nat × Nat × Nat) : Option Nat :=
  match farErrorIn s .load x.2.1 x.2.2, farErrorIn s .store x.1 x.2.2 with
  | some e, _ => some (farCode e)
  | none, some e => some (farCode e)
  | none, none => none

/-- The byte at `a` has been written by the first `done` bytes of a copy. -/
def Copy.landed (c : Copy) (done a : Nat) : Bool :=
  let d := onSlab (c.slab.getD 0) c.dst.toNat
  let r := if c.rows ≤ 1 then 0 else (a - d) / c.dstPitch.toNat
  let o := a - d - r * c.dstPitch.toNat
  d ≤ a && r < c.rows && o < c.rowBytes && r * c.rowBytes + o < done

/-- The granules that a chunk touches, by the address of their first byte. -/
def chunkGranules (l : List (Nat × Nat × Nat)) : List Nat :=
  l.foldl (fun gs x => (List.range ((x.1 + x.2.2 + 7) / 8 - x.1 / 8)).foldl (fun gs i => insertNat (x.1 / 8 + i) gs) gs) []

/-- A granule that a copy has written whole and clean loses its poison, in however many pieces it was written (R355). -/
def cleanGranule (c : Copy) (done : Nat) (tainted : List Nat) (s : State) (g : Nat) : State :=
  if bytePoisoned s (8 * g) && !tainted.contains g && (List.range 8).all fun i => c.landed done (8 * g + i) then
    storeBytes s (8 * g) (readBytes s (8 * g) 8)
  else s

/-- The next chunk of a copy performs, or fails whole. The current hart is the copy's. -/
def runChunk (s : State) (c : Copy) : State :=
  match c.chunk.findSome? (pieceError s) with
  | some code => failCopy s c code
  | none =>
    let n := (c.chunk.map (·.2.2)).foldl (· + ·) 0
    let bad := c.chunk.foldl (fun l x =>
      ((List.range x.2.2).filter fun i => bytePoisoned s (x.2.1 + i)).foldl (fun l i => insertNat ((x.1 + i) / 8) l) l) c.tainted
    let t := c.chunk.foldl (fun t x => storeRun t x.1 (readRun t x.2.1 x.2.2)) s
    let t := (chunkGranules c.chunk).foldl (cleanGranule c (c.done + n) bad) t
    setCopy (countDown t c.bar n) { c with done := c.done + n, tainted := bad }

/-- A chunk of copy `k` runs, unless the copy is logged (R310) or has not left the queue (R315, R323). -/
def execCopyChunk (k : Nat) (s : State) : Out :=
  match s.copies.find? (·.seq == k) with
  | none => .next s
  | some c => if c.logged then .next s else asHart s c.cid fun t => .next (if c.inQueue t then t else runChunk t c)

end Sys2Proof.Machine
end

