-- ==== Sys2Proof/Machine/Engines.lean ====
section
/-!
DEFINITION. The swap and transfer engines (R268 to R281).

A command is accepted when its instruction executes; `swpout` runs in one later step, `swpin` a block at a time, `xfer` a
layer at a time.  A command belongs to its partition and goes on while its hart is pre-empted.
-/

namespace Sys2Proof.Machine

/-! ### Reading and writing system memory at a home -/

/-- A little-endian number of system memory under a DRAM address. -/
def homeNat (s : State) (a n : Nat) : Nat := s.mem.readNat (canon a) n

/-- Write bytes of system memory under a DRAM address. -/
def homeStore (s : State) (a : Nat) (bs : List Byte) : State :=
  { s with mem := s.mem.writeBytes (canon a) bs, poison := clearPoison s.poison (canon a) bs.length }

/-! ### The session directory (R270 to R272) -/

/-- The address of a directory entry. -/
def entryAddr (s : State) (p i : Nat) : Nat := (part s p).sessBase + 64 * i

/-- A field of a directory entry: its offset and size. -/
def entryField (s : State) (p i off n : Nat) : Nat := homeNat s (entryAddr s p i + off) n

/-- Write a field of a directory entry. -/
def setEntry (s : State) (p i off n v : Nat) : State := homeStore s (entryAddr s p i + off) (leBytes n v)

/-- The types of a session (R268). -/
def sessionType : ElemTy → Bool
  | .f32 | .f16 | .bf16 | .e4m3 | .e5m2 | .f4b => true
  | _ => false

/-- The block bytes and the type of a session are valid (R268). -/
def blockOk (ty b : Nat) : Bool :=
  b % 64 == 0 && 64 ≤ b && b ≤ 2 ^ 20 &&
    match ElemTy.ofCode ty with
    | some t => sessionType t && (t == .f4b || b * 8 / tyWidth t % 32 == 0)
    | none => false

/-- An extent list is valid for blocks of `b` bytes and a block count (R269). -/
def extentsOk (l : List Extent) (b blocks : Nat) : Bool :=
  1 ≤ l.length && l.length ≤ 16 &&
    l.all (fun x => (List.range 21).any (fun i => x.len == 2 ^ i) && x.base % 64 == 0 && b ≤ x.stride && x.stride % 64 == 0) &&
    blocks ≤ (l.map (·.len)).foldl (· + ·) 0

/-! ### Descriptors (R276) -/

/-- A watermark reference of a descriptor whose reserved bits are zero. -/
def markRefOk (v : Nat) : Bool := v / 2 ^ 20 == 0 && v / 2 % 8 == 0

/-- A watermark reference that is valid names an object of the partition. -/
def markOwned (s : State) (v : Nat) : Bool :=
  v % 2 == 0 ||
    match s.marks.find? (markKey v) with
    | some m => m.owner == s.hart.partId
    | none => false

/-- An address of the cold tier. -/
def inCold (a : Nat) : Bool :=
  match placeOf a with
  | .cold _ => true
  | _ => false

/-- The fields of a descriptor of a kind are within their limits (R275, R276). -/
def engineDescOk (s : State) (k : EngineKind) (r : List Byte) : Bool :=
  let kind := match k with
    | .swpout => 0
    | .swpin => 1
    | .xfer => 2
  recField r 0 1 == kind && recZero r 2 4 && recField r 7 1 == 0 && recField r 8 8 % 8 == 0 &&
    match k with
    | .swpout => recZero r 1 2 && recField r 16 8 % 64 == 0 && inCold (recField r 16 8) && recZero r 28 64
    | .swpin => recField r 1 1 / 2 == 0 && recZero r 16 24 && markRefOk (recField r 24 4) && markOwned s (recField r 24 4) &&
        recZero r 28 64
    | .xfer => recZero r 1 2 && (placeOf (recField r 16 8)).isDram && recField r 24 1 ≤ 63 && 1 ≤ recField r 25 1 && recField r 25 1 ≤ 16 &&
        1 ≤ recField r 26 2 && 1 ≤ recField r 28 4 && markRefOk (recField r 32 4) && markOwned s (recField r 32 4) &&
        markRefOk (recField r 36 4) && recZero r 44 64

/-! ### Acceptance (R272, R275) -/

/-- A read of control data at acceptance: R72's checks 4 to 6, the hart's own window (R190), the far side, poison (R277, R399). -/
def checkControl (s : State) (a n : Nat) : Except Exc Unit := do
  checkPlain s .load a n
  checkWindow s a n
  match farErrorIn s .load a n with
  | some e => throw e
  | none => pure ()
  match firstPoisoned s a n with
  | some x => throw (excAt 31 x)
  | none => pure ()

/-- The extents of a list of `n` entries (R199). -/
def readExtents (s : State) (a n : Nat) : List Extent :=
  (List.range n).map fun i =>
    { base := readNat s (a + 16 * i) 8, len := readNat s (a + 16 * i + 8) 4, stride := readNat s (a + 16 * i + 12) 4 }

/-- The command that a descriptor behind an operand with slot tag `tag` asks for, from the entry as it stands. -/
def readCommand (s : State) (k : EngineKind) (tag : BitVec 8) (r : List Byte) : EngineCmd :=
  let p := s.hart.partId
  let i := recField r 4 3
  let tokens := entryField s p i 4 4
  { seq := 0, kind := k, cid := s.hart.cid, partId := p, modeD := mode s == modeD, slot := s.hart.slot, session := i,
    statusAddr := recField r 8 8, cold := if k = .swpout then recField r 16 8 else entryField s p i 16 8,
    capacity := recField r 24 4, keep := recField r 1 1 % 2 == 1,
    tokens := tokens, tag := tag,
    mark := if k = .xfer then recField r 32 4 else recField r 24 4, peer := recField r 24 1, peerMark := recField r 36 4,
    first := recField r 40 4, layers := recField r 26 2, bpl := recField r 28 4, ty := entryField s p i 1 1,
    blockBytes := entryField s p i 24 4, blocks := ceilDiv tokens 16,
    extents := readExtents s (entryField s p i 8 8) (entryField s p i 2 1),
    dstExtents := if k = .xfer then readExtents s (recField r 16 8) (recField r 25 1) else [],
    units := 0, flags := 0, code := 0, cause := 0 }

/-- Whether R272's table lets a command begin. -/
def mayBegin (k : EngineKind) (state xfers : Nat) : Bool :=
  match k with
  | .swpout => state == 1 && xfers == 0
  | .swpin => state == 3
  | .xfer => state == 1 && xfers != 255

/-- The entry after the transition of R272. -/
def beginEntry (s : State) (c : EngineCmd) : State :=
  let put := setEntry s c.partId c.session
  match c.kind with
  | .swpout => put 0 1 2
  | .swpin => setEntry (put 0 1 4) c.partId c.session 32 8 0
  | .xfer => put 3 1 (entryField s c.partId c.session 3 1 + 1)

/-- The command's own lists and types are valid (R268, R269, R280). -/
def commandOk (c : EngineCmd) : Bool :=
  blockOk c.ty c.blockBytes && extentsOk c.extents c.blockBytes c.blocks &&
    (c.kind != .xfer ||
      (extentsOk c.dstExtents c.blockBytes c.blocks && c.dstExtents.all fun x => placeOf x.base == .peer c.peer))

/-- The runs of control data that acceptance reads behind a descriptor: the entry's bytes that hardware reads, and the extent lists. -/
def controlRuns (s : State) (k : EngineKind) (r : List Byte) : List (Nat × Nat) :=
  let p := s.hart.partId
  let i := recField r 4 3
  [(entryAddr s p i, 48), (entryField s p i 8 8, 16 * entryField s p i 2 1)] ++
    if k = .xfer then [(recField r 16 8, 16 * recField r 25 1)] else []

/-- A byte that a command accesses lies in the hart's own accumulation window (R190). -/
def checkCommandWindow (s : State) (c : EngineCmd) : Except Exc Unit :=
  (c.reads ++ c.writes).forM fun r => checkWindow s r.1 r.2

/-- What acceptance finds: a status, or a command that begins (R272, R275). The entry is checked like every address that it reads (R72);
reserved bytes of it, +40 to +47, that are not zero raise cause 1 (R271, R8), after the entry's other causes and before its state is
looked at: a DESIGN CHOICE (log 45). Its software bytes are not read. -/
def decideCommand (s : State) (k : EngineKind) (tag : BitVec 8) (r : List Byte) : Except Exc (Sum Nat EngineCmd) := do
  let p := s.hart.partId
  let i := recField r 4 3
  if 64 ≤ (s.engines.filter (·.partId == p)).length then return .inl 1
  if (part s p).sessCount ≤ i then return .inl 3
  checkControl s (entryAddr s p i) 48
  if entryField s p i 40 8 ≠ 0 then throw { code := 1, tval := 0 }
  if !mayBegin k (entryField s p i 0 1) (entryField s p i 3 1) then return .inl 2
  let n := entryField s p i 2 1
  if n = 0 ∨ 16 < n then return .inl 4
  checkControl s (entryField s p i 8 8) (16 * n)
  if k = .xfer then checkControl s (recField r 16 8) (16 * recField r 25 1)
  let c := readCommand s k tag r
  if !commandOk c then return .inl 4
  checkCommandWindow s c
  return .inr c

/-- The checks before acceptance: the descriptor's limits, the status address (R275). -/
def checkCommand (s : State) (k : EngineKind) (x : Nat) : Except Exc (List Byte) := do
  match firstPoisoned s x 64 with
  | some p => throw (excAt 31 p)
  | none => pure ()
  let r := readBytes s x 64
  if !engineDescOk s k r then throw (excAt 29 x)
  checkIssue s .store 0 (recField r 8 8) 8 8
  return r

/-- An earlier access of the hart to bytes that a command accesses has not performed (R281, R114); among its earlier commands the
engine keeps the order (`engineBlocked`). -/
def commandFollows (s : State) (c : EngineCmd) : Bool :=
  c.reads.any (fun r => followsStores s false r.1 r.2) || c.writes.any fun r => followsStores s true r.1 r.2

/-- An engine instruction (R275). -/
def engineCommand (s : State) (k : EngineKind) (d a : Reg) (raw : Instr) : Out :=
  let x := baseAddr s a
  if mode s = modeU then raise s { code := 3, tval := instrBits raw }
  else checked s (checkFull s .load (baseTag s a) x 64 64) fun _ =>
    if mustWait s false x 64 then stall s
    else if undescribed false x 64 then .fault (.undescribedRegister x)
    else checked s (checkCommand s k x) fun r =>
      if (controlRuns s k r).any fun q => mustFollow s false q.1 q.2 then stall s
      else checked s (decideCommand s k (baseTag s a) r) fun c =>
        let answer (t : State) (st : Nat) : Out :=
          .next (advance 4 (scalarResult t d (result (BitVec.ofNat 64 st) (gpr s a).lease)))
        match c with
        | .inl st => answer s st
        | .inr c =>
          if commandFollows s c then stall s
          else
          let (id, t) := freshId s
          answer { (beginEntry t c) with engines := t.engines ++ [{ c with seq := id }] } 0

def execSwpout (d a : Reg) (s : State) : Out := engineCommand s .swpout d a (.swpout d a)
def execSwpin (d a : Reg) (s : State) : Out := engineCommand s .swpin d a (.swpin d a)
def execXfer (d a : Reg) (s : State) : Out := engineCommand s .xfer d a (.xfer d a)

/-! ### Running a command (R277) -/

/-- The machine as the command sees it: its hart's slot, partition and mode at acceptance. -/
def engineView (s : State) (c : EngineCmd) : State :=
  let h := (contextOf s c.cid).getD {}
  { s with hart := { h with slot := c.slot, partId := c.partId, par := none,
                            csr := { h.csr with status := if c.modeD then 0x40 else 0x20 } } }

/-- An earlier command of the hart has not finished with bytes that this one accesses (R281, R114). -/
def engineBlocked (s : State) (c : EngineCmd) : Bool :=
  s.engines.any fun e => e.cid == c.cid && e.seq < c.seq &&
    (c.writes.any (fun r => e.meets true r.1 r.2) || c.reads.any fun r => e.meets false r.1 r.2)

/-- R72's checks 4 to 6 and the far side for data of a command, whose blocks are aligned (R268, R269): the status code and cause of
a failure (R277). -/
def engineCheck (s : State) (c : EngineCmd) (k : Acc) (a n : Nat) : Option (Nat × Nat) :=
  let v := engineView s c
  match checkPlain v k a n with
    | .error e => some (3, e.code)
    | .ok _ =>
      match farErrorIn v k a n with
      | some e => some (if e.code = 30 then (4, 0) else if e.code = 59 then (6, 0) else (3, e.code))
      | none => none

/-- Bytes with their poison as the command reads them. -/
def engineRead (s : State) (c : EngineCmd) (a n : Nat) : List (Byte × Bool) := readRun (engineView s c) a n

/-- Write bytes in runs of 64, which no 4 KiB chunk boundary cuts. -/
def storePieces (s : State) (a : Nat) : Nat → List (Byte × Bool) → State
  | 0, _ => s
  | k + 1, bs => storePieces (storeRun s a (bs.take 64)) (a + 64) k (bs.drop 64)

/-- Write bytes with their poison as the command writes them; its hart's rows go with the hart. -/
def engineWrite (s : State) (c : EngineCmd) (a : Nat) (bs : List (Byte × Bool)) : State :=
  let v := storePieces (engineView s c) a (ceilDiv bs.length 64) bs
  let t := { v with hart := s.hart }
  if placeOf a = .rows then
    mapContext c.cid (fun h => { h with rows := v.hart.rows, rowPoison := v.hart.rowPoison }) t
  else t

/-- Replace a command's record. -/
def setEngine (s : State) (c : EngineCmd) : State :=
  { s with engines := s.engines.map fun x => if x.seq = c.seq then c else x }

/-- The status doubleword of R277. -/
def statusWord (c : EngineCmd) (code : Nat) : Nat :=
  c.units * 2 ^ 32 + c.flags.toNat * 2 ^ 16 + (if code = 3 then c.cause else 0) * 2 ^ 8 + code

/-- The command ends: its last transition is a compare at the home, then the status is written, unless the far side refuses it
(R272, R277). -/
def endCommand (s : State) (c : EngineCmd) (done : State → State) : State :=
  let p := c.partId
  let i := c.session
  let held := match c.kind with
    | .swpout => 2
    | .swpin => 4
    | .xfer => 1
  let same := entryField s p i 0 1 == held
  let t := if !same then s
    else if c.kind = .xfer then setEntry s p i 3 1 ((entryField s p i 3 1 + 255) % 256)
    else if c.code ≠ 0 then setEntry s p i 0 1 (if c.kind = .swpout then 1 else 3)
    else done s
  let code := if same then c.code else 7
  let t := if (farErrorIn (engineView t c) .store c.statusAddr 8).isSome then t
    else engineWrite t c c.statusAddr ((leBytes 8 (statusWord c code)).map (·, false))
  { t with engines := t.engines.filter (·.seq != c.seq) }

/-- The command fails with a code and a cause. -/
def failCommand (c : EngineCmd) (f : Nat × Nat) : EngineCmd := { c with code := f.1, cause := f.2 }

/-! ### Compression (R273, R274) -/

/-- The 32 elements of group `g` of a block image, as values. -/
def groupValues (t : ElemTy) (bs : List (Byte × Bool)) (g : Nat) : List FVal :=
  let n := tyWidth t / 8
  (List.range 32).map fun i => (tyFmt t).decode (leNat (((bs.drop ((32 * g + i) * n)).take n).map (·.1)))

/-- A group's sixteen code bytes from its 32 codes. -/
def packCodes : List Nat → List Byte
  | x :: y :: l => BitVec.ofNat 8 (x % 16 + y % 16 * 16) :: packCodes l
  | [x] => [BitVec.ofNat 8 (x % 16)]
  | [] => []

/-- A block compressed: its bytes with their poison, and its flags (R273, R274). -/
def compressBlock (ty : Nat) (bs : List (Byte × Bool)) : List (Byte × Bool) × Flags :=
  match ElemTy.ofCode ty with
  | some .f4b | none => (bs, 0)
  | some t =>
    let e := blockElems ty bs.length
    let n := 32 * (tyWidth t / 8)
    let gs := (List.range (e / 32)).map fun g =>
      (quantBlock .rne (List.replicate 32 0) (groupValues t bs g), ((bs.drop (n * g)).take n).any (·.2))
    let codes := gs.flatMap fun g => (packCodes g.1.2.1).map (·, g.2)
    let scales := gs.map fun g => (BitVec.ofNat 8 g.1.1, g.2)
    let pad := List.replicate (compressedBytes ty bs.length - codes.length - scales.length) ((0 : Byte), false)
    (codes ++ scales ++ pad, gs.foldl (fun f g => f ||| g.1.2.2) 0)

/-- A compressed block of `e` elements widened to `e4m3`: its bytes with their poison, and its flags (R274). -/
def widenBlock (e : Nat) (bs : List (Byte × Bool)) : List (Byte × Bool) × Flags :=
  let at' (i : Nat) : Byte × Bool := (bs[i]?).getD (0, false)
  let xs := (List.range e).map fun i =>
    let b := at' (i / 2)
    let sc := at' (e / 2 + i / 32)
    let c := if i % 2 = 0 then b.1.toNat % 16 else b.1.toNat / 16
    let r := roundTo fmtE4m3 true .rne 0 (f4bVal sc.1.toNat c)
    ((BitVec.ofNat 8 r.1, b.2 || sc.2), r.2)
  (xs.map (·.1), xs.foldl (fun f x => f ||| x.2) 0)

/-- The header of a compressed context (R273). -/
def contextHeader (ty tokens blocks bytes cb : Nat) : List Byte :=
  leBytes 2 2 ++ leBytes 1 ty ++ leBytes 1 2 ++ leBytes 4 tokens ++ leBytes 4 blocks ++ leBytes 4 bytes ++ leBytes 4 cb ++
    List.replicate 44 0

/-- Check one block on both sides, then move it: `f` turns the bytes read into the bytes written. -/
def moveBlock (s : State) (c : EngineCmd) (src dst : Option Nat) (n m : Nat)
    (f : List (Byte × Bool) → List (Byte × Bool) × Flags) : Except (Nat × Nat) (State × Flags) :=
  match src, dst with
  | some a, some b =>
    match engineCheck s c .load a n, engineCheck s c .store b m with
    | some e, _ => .error e
    | none, some e => .error e
    | none, none =>
      let r := f (engineRead s c a n)
      .ok (engineWrite s c b r.1, r.2)
  | _, _ => .error (3, 16)

/-! ### `swpout` (R278) -/

/-- Blocks `j` to `n − 1` are compressed, `k` of them left. -/
def swpoutBlocks (s : State) (c : EngineCmd) : Nat → State × EngineCmd
  | 0 => (s, c)
  | k + 1 =>
    let cb := compressedBytes c.ty c.blockBytes
    let dst := c.cold + 64 + c.units * cb
    match moveBlock s c (extentBlock c.extents c.units) (some dst) c.blockBytes cb (compressBlock c.ty) with
    | .error e => (s, failCommand c e)
    | .ok (t, f) => swpoutBlocks t { c with units := c.units + 1, flags := c.flags ||| f } k

/-- The whole of `swpout`, but for its end. -/
def runSwpout (s : State) (c : EngineCmd) : State × EngineCmd :=
  let cb := compressedBytes c.ty c.blockBytes
  if c.capacity < 64 + c.blocks * cb then (s, failCommand c (5, 0))
  else
    let r := swpoutBlocks s c c.blocks
    if r.2.code ≠ 0 then r
    else match engineCheck r.1 r.2 .store c.cold 64 with
      | some e => (r.1, failCommand r.2 e)
      | none => (engineWrite r.1 c c.cold ((contextHeader c.ty c.tokens c.blocks c.blockBytes cb).map (·, false)), r.2)

def execSwpoutComplete (k : Nat) (s : State) : Out :=
  match s.engines.find? (·.seq == k) with
  | none => .next s
  | some c =>
    if c.kind ≠ .swpout ∨ engineBlocked s c then .next s
    else
      let r := runSwpout s c
      let size := 64 + c.blocks * compressedBytes c.ty c.blockBytes
      .next (endCommand r.1 r.2 fun t =>
        setEntry (setEntry (setEntry t c.partId c.session 16 8 c.cold) c.partId c.session 28 4 size) c.partId c.session 0 1 3)

/-! ### `swpin` (R279) -/

/-- The header in the cold tier agrees with the entry: no failure, or its code and cause. -/
def swpinHeader (s : State) (c : EngineCmd) : Option (Nat × Nat) :=
  match (if c.cold % 64 = 0 then engineCheck s c .load c.cold 64 else some (3, 18)) with
  | some e => some e
  | none =>
    let r := (engineRead s c c.cold 64).map (·.1)
    if recField r 0 2 == 2 && recField r 8 4 == c.blocks && recField r 12 4 == c.blockBytes &&
        recField r 16 4 == compressedBytes c.ty c.blockBytes then none
    else some (3, 43)

/-- The next block of a `swpin` lands: `landed` and the watermark follow (R279). -/
def landBlock (s : State) (c : EngineCmd) : State :=
  match (if c.units = 0 then swpinHeader s c else none) with
  | some e => setEngine s (failCommand c e)
  | none =>
    if c.blocks ≤ c.units then s
    else
      let cb := compressedBytes c.ty c.blockBytes
      let f (bs : List (Byte × Bool)) := if c.keep then (bs, (0 : Flags)) else widenBlock (c.elems) bs
      match moveBlock s c (some (c.cold + 64 + c.units * cb)) (extentBlock c.extents c.units) cb (c.bytes) f with
      | .error e => setEngine s (failCommand c e)
      | .ok (t, fl) =>
        let n := c.units + 1
        let t := setEntry t c.partId c.session 32 8 n
        let t := if c.mark % 2 = 1 then publish t (markKey c.mark) n else t
        setEngine t { c with units := n, flags := c.flags ||| fl }

/-- A command that has failed starts nothing more. -/
def execSwpinBlockLanded (k : Nat) (s : State) : Out :=
  match s.engines.find? (·.seq == k) with
  | none => .next s
  | some c => if c.kind ≠ .swpin ∨ c.code ≠ 0 ∨ engineBlocked s c then .next s else .next (landBlock s c)

/-- A `swpin` ends when every block has landed, or at a failure. A session without blocks still has its header read. -/
def execSwpinComplete (k : Nat) (s : State) : Out :=
  match s.engines.find? (·.seq == k) with
  | none => .next s
  | some c =>
    if c.kind ≠ .swpin ∨ (c.code = 0 ∧ c.units < c.blocks) ∨ engineBlocked s c then .next s
    else
      let c := match (if c.blocks = 0 ∧ c.code = 0 then swpinHeader s c else none) with
        | some e => failCommand c e
        | none => c
      .next (endCommand s c fun t =>
        let t := setEntry t c.partId c.session 1 1 (if c.keep then 13 else 11)
        setEntry (setEntry t c.partId c.session 24 4 (c.bytes)) c.partId c.session 0 1 1)

/-! ### `xfer` (R280) -/

/-- The local watermark lets the next layer go. -/
def layerReady (s : State) (c : EngineCmd) : Bool :=
  c.mark % 2 == 0 || match s.marks.find? (markKey c.mark) with
    | some m => c.units + 1 ≤ m.index
    | none => false

/-- The blocks of a layer are copied, `k` of them left, from block `j` on. -/
def xferBlocks (s : State) (c : EngineCmd) (j : Nat) : Nat → State × EngineCmd
  | 0 => (s, { c with units := c.units + 1 })
  | k + 1 =>
    match moveBlock s c (extentBlock c.extents j) (extentBlock c.dstExtents j) c.blockBytes c.blockBytes (·, 0) with
    | .error e => (s, failCommand c e)
    | .ok (t, _) => xferBlocks t c (j + 1) k

/-- The peer's allocation refuses the publication of a layer (R276). -/
def markRefused (s : State) (c : EngineCmd) : Bool := c.peerMark % 2 == 1 && s.markDeny.contains (c.peer, markKey c.peerMark)

/-- The next layer of an `xfer` (R280). The publication takes effect on the peer device, outside the module; refused there it
ends the command with code 6 (R276). -/
def execXferLayer (k : Nat) (s : State) : Out :=
  match s.engines.find? (·.seq == k) with
  | none => .next s
  | some c =>
    if c.kind ≠ .xfer ∨ c.code ≠ 0 ∨ c.layers ≤ c.units ∨ !layerReady s c ∨ engineBlocked s c then .next s
    else
      let r := xferBlocks s c (c.units * c.bpl) c.bpl
      .next (setEngine r.1 (if r.2.code = 0 ∧ markRefused s c then failCommand { r.2 with units := c.units } (6, 0) else r.2))

def execXferComplete (k : Nat) (s : State) : Out :=
  match s.engines.find? (·.seq == k) with
  | none => .next s
  | some c => if c.kind ≠ .xfer ∨ (c.code = 0 ∧ c.units < c.layers) then .next s else .next (endCommand s c id)

end Sys2Proof.Machine
end

