-- ==== Sys2Proof/Machine/Matrix.lean ====
section
/-!
DEFINITION. The matrix array (R289 to R308): the accumulator grant, multiply, extract and insert.

A matrix step is one element group: a step is committed whole, or the instruction stops below it.
-/

namespace Sys2Proof.Machine

/-- Bytes of a matrix instruction: the 64-bit form (R293). -/
def matrixLen : Nat := 8

/-- Go on after a matrix instruction. -/
def matrixDone (s : State) : Out := .next (complete s matrixLen)

/-! ### The grant (R290, R291, R294, R295) -/

/-- The pool's free rows as they stand for the current hart: 64 less the grants of the other contexts on its front end. -/
def freeRows (s : State) : Nat :=
  let others := s.others.filter fun h => feOf h.slot == feOf s.hart.slot
  64 - (others.map (·.grant)).foldl (· + ·) 0 - s.hart.grant

/-- Keep the accumulator rows below `n`; rows that leave are cleared (R291). -/
def keepRows (h : Hart) (n : Nat) : Hart :=
  { h with
    grant := n
    acc := h.acc.filter fun c => c.1 < n * 512 * 4
    accPoison := h.accPoison.filter (· < n * 512) }

/-- `mattach`: as many rows as there are, up to the request (R294). -/
def attachRows (s : State) (rows : Nat) : State :=
  { s with hart := keepRows s.hart (min rows (s.hart.grant + freeRows s)) }

def execMattach (rows : BitVec 7) (s : State) : Out :=
  if rows = 16 ∨ rows = 32 ∨ rows = 48 ∨ rows = 64 then
    if s.hart.par.isSome then raise0 s 1 else matrixDone (attachRows s rows.toNat)
  else raise0 s 1

/-- Replace the accumulator lease set. -/
def setAccLease (s : State) (l : LeaseSet) : State := { s with hart := { s.hart with accLease := l } }

def execMdetach (s : State) : Out :=
  if s.hart.par.isSome then raise0 s 1 else matrixDone (setAccLease { s with hart := keepRows s.hart 0 } {})

/-- The number of columns that the instruction sees. -/
def columns (s : State) : Nat := 128 * slabs s

/-- The word of accumulator row `row`, column `j` of what the instruction sees (R289, R292). -/
def accWord (s : State) (row j : Nat) : Nat := row * 512 + slab0 s * 128 + j

/-- A word belongs to the columns that the instruction sees. -/
def ownColumn (s : State) (word : Nat) : Bool := slab0 s * 128 ≤ word % 512 && word % 512 < slab0 s * 128 + columns s

def execMzero (s : State) : Out :=
  if s.hart.grant = 0 then raise0 s 37
  else
    let h := s.hart
    matrixDone (setAccLease { s with hart := { h with
      acc := h.acc.filter fun c => !ownColumn s (c.1 / 4)
      accPoison := h.accPoison.filter fun w => !ownColumn s w } } {})

/-- An accumulator word's FP32 bits. -/
def accRead (s : State) (w : Nat) : Nat := s.hart.acc.readNat (4 * w) 4

/-- Write accumulator words; a written word is clean (R289). -/
def accWrite (s : State) (xs : List (Nat × Nat)) : State :=
  let written (w : Nat) : Bool := xs.any fun x => x.1 == w
  { s with hart := { s.hart with
      acc := xs.foldl (fun m x => m.writeBytes (4 * x.1) (leBytes 4 x.2)) s.hart.acc
      accPoison := if s.hart.accPoison.isEmpty then [] else s.hart.accPoison.filter fun w => !written w } }

/-! ### The multiply (R296 to R299) -/

/-- A multiply: its type, first accumulator row, operands, tile height, scale registers of `vmmas`, mask. -/
structure Mma where
  ty : ElemTy
  acc : Nat
  va : Reg
  vb : Reg
  rows : Nat
  scales : Option (Reg3 × Reg3)
  blk : Nat
  mask : Reg3
  deriving DecidableEq, Repr

def Mma.w (x : Mma) : Nat := tyWidth x.ty
/-- K slices of a slot (R296). -/
def Mma.p (x : Mma) : Nat := 16 / x.w
/-- Steps and K. -/
def Mma.steps (s : State) (x : Mma) : Nat := vlOf s / groupElems s x.w
def Mma.k (s : State) (x : Mma) : Nat := 8 * x.steps s * x.p
/-- B register `r`. -/
def Mma.bReg (x : Mma) (r : Nat) : Reg := x.vb + BitVec.ofNat 5 r

/-- The K indexes of step `t` with their B register and slice (R298). -/
def Mma.slices (x : Mma) : List (Nat × Nat) := (List.range 8).flatMap fun r => (List.range x.p).map fun q => (r, q)

/-- Element of A for row `i`, step `t`, register `r`, slice `q`. -/
def Mma.aIdx (s : State) (x : Mma) (i t r q : Nat) : Nat := i * x.k s + (8 * t + r) * x.p + q

/-- Element of B register `r` for step `t`, column `j`, slice `q` (R297). -/
def Mma.bIdx (s : State) (x : Mma) (t j q : Nat) : Nat :=
  t * groupElems s x.w + j / 4 * (4 * x.p) + j % 4 * x.p + q

/-- The scale bytes of an A and a B element: register and byte (R299). -/
def Mma.aScale (x : Mma) (e : Nat) : Option (Reg3 × Nat) := x.scales.map fun k => (k.1, e / x.blk)
def Mma.bScale (s : State) (x : Mma) (r e : Nat) : Option (Reg3 × Nat) :=
  x.scales.map fun k => (k.2, r * (vlOf s / x.blk) + e / x.blk)

/-- The product of two elements, exact: integers as integers (R298). -/
def Mma.product (x : Mma) (ea eb sa sb : Nat) : FVal :=
  if tyIsInt x.ty then FVal.ofInt (tyInt x.ty ea * tyInt x.ty eb)
  else (FVal.mul (floatElem x.ty sa ea) (floatElem x.ty sb eb)).1

/-- The scale byte of an element, if it has one. -/
def scaleOf (s : State) (k : Option (Reg3 × Nat)) : Nat :=
  match k with
  | some (r, b) => scaleByte s r b
  | none => 0

/-- The products of one accumulator element in step `t`. -/
def Mma.products (s : State) (x : Mma) (t i j : Nat) : List FVal :=
  x.slices.map fun p =>
    let ia := x.aIdx s i t p.1 p.2
    let ib := x.bIdx s t j p.2
    x.product (elem s x.va x.w ia) (elem s (x.bReg p.1) x.w ib) (scaleOf s (x.aScale ia)) (scaleOf s (x.bScale s p.1 ib))

/-- The active columns. -/
def Mma.cols (s : State) (x : Mma) : List Nat := activeIdx s x.mask 0 (columns s)

/-- Step `t` reads something poisoned for an active column (R307). -/
def Mma.poisoned (s : State) (x : Mma) (t : Nat) : Bool :=
  let bad (v : Reg) (i : Nat) : Bool := elemPoisoned s (vreg s v).win.base.toNat x.w i
  let badScale (k : Option (Reg3 × Nat)) : Bool :=
    match k with
    | some (r, b) => scalePoisoned s r b
    | none => false
  let cols := x.cols s
  !(s.hart.rowPoison.isEmpty && s.hart.accPoison.isEmpty) && !cols.isEmpty &&
    ((List.range x.rows).any (fun i =>
        cols.any (fun j => s.hart.accPoison.contains (accWord s (x.acc + i) j)) ||
          x.slices.any fun p => bad x.va (x.aIdx s i t p.1 p.2) || badScale (x.aScale (x.aIdx s i t p.1 p.2))) ||
      cols.any fun j => x.slices.any fun p =>
        bad (x.bReg p.1) (x.bIdx s t j p.2) || badScale (x.bScale s p.1 (x.bIdx s t j p.2)))

/-- Step `t` whole. -/
def Mma.step (s : State) (x : Mma) (t : Nat) : State :=
  accWrite s ((List.range x.rows).flatMap fun i => (x.cols s).map fun j =>
    let w := accWord s (x.acc + i) j
    (w, matrixStep (accRead s w) (x.products s t i j)))

/-- How a run of steps ends. -/
inductive MmaEnd where
  | done
  | more (t : Nat)
  | beat
  | poison (t : Nat)
  | replay (t : Nat)
  deriving DecidableEq, Repr

/-- The issue beats that the `n` beats of a step take with their repeats, whether one fails past the limit, and the repeats that are
then left to come (R300, R305). -/
def stepBeats (limit : Nat) : Nat → List Nat → Nat × Bool × List Nat
  | 0, l => (0, false, l)
  | n + 1, l =>
    let k := l.headD 0
    if limit < k then (limit + 1, true, l.tail)
    else
      let r := stepBeats limit n l.tail
      (k + 1 + r.1, r.2)

/-- Run `k` steps from step `t` on; one beat of one step only, when one group is to issue: four rows of A, or a repeat (R300,
R305). -/
def Mma.run (x : Mma) (limit : Nat) (s : State) (t : Nat) : Nat → State × MmaEnd
  | 0 => (s, .done)
  | k + 1 =>
    if x.poisoned s t then (s, .poison t)
    else
      let b := stepBeats limit (ceilDiv x.rows 4) s.residue
      if s.slice ∧ s.hart.issued + 1 < b.1 then (s, .beat)
      else if b.2.1 then ({ s with residue := b.2.2 }, .replay t)
      else
        let v := x.step { s with residue := b.2.2 } t
        if s.slice ∧ k ≠ 0 then (v, .more (t + 1)) else x.run limit v (t + 1) k

/-- The registers of the multiply. -/
def Mma.regs (x : Mma) : List Reg := x.va :: (List.range 8).map x.bReg

/-- The lease sets that join the accumulator's (R56, R299). -/
def Mma.lease (s : State) (x : Mma) : LeaseSet :=
  let l := (vecLeases s x.regs).union (maskLease s x.mask)
  match x.scales with
  | some (ka, kb) => (l.union (kreg s ka).lease).union (kreg s kb).lease
  | none => l

/-- R304's checks 1 to 5. -/
def Mma.check (s : State) (x : Mma) : Except Exc Unit := do
  if s.hart.grant = 0 then throw { code := 37, tval := 0 }
  let md ← vmode s noSr
  if x.scales.isSome ∧ md.blk = 0 then throw (vtypeExc s)
  if s.hart.grant < x.acc + x.rows then throw { code := 38, tval := 0 }
  checkWin s (winOf s x.va x.w) (x.rows * x.k s)
  checkWins s ((List.range 8).map fun r => winOf s (x.bReg r) x.w) (vlOf s)
  match x.scales with
  | some (ka, kb) =>
    checkScale s ka (ceilDiv (x.rows * x.k s) md.blk)
    checkScale s kb (8 * (vlOf s / md.blk))
  | none => pure ()

/-- The end of a run of steps (R298, R306, R307). -/
def Mma.close (s : State) (x : Mma) (e : MmaEnd) : Out :=
  match e with
  | .done => matrixDone (setVstart s 0)
  | .more t => continueAt s (t * groupElems s x.w)
  | .beat => nextBeat s
  | .poison t => raise0 (setVrestart s (t * groupElems s x.w)) 35
  | .replay t => raise (setVstart s (t * groupElems s x.w)) { code := 39, tval := BitVec.ofNat 64 t }

/-- The repeat limit of the matrix instruction at `pc`, as it was when that issued (R306). -/
def retryLimit (s : State) : BitVec 4 := s.hart.retry.getD s.hart.csr.mretry

/-- A multiply whose operands are well formed. -/
def runMma (s : State) (x : Mma) : Out :=
  checked s (x.check s) fun _ =>
    withChunks s x.regs fun s =>
      let s := { s with hart := { s.hart with retry := some (retryLimit s) } }
      let s0 := vstartOf s / groupElems s x.w
      let r := x.run (retryLimit s).toNat s s0 (x.steps s - s0)
      let joined := setAccLease r.1 (r.1.hart.accLease.union (x.lease s))
      x.close (if r.2 = .beat then r.1 else joined) r.2

/-- A tile height and a B base that R293 accepts. -/
def tileOk (vb : Reg) (rows : BitVec 7) : Bool := vb.toNat % 8 == 0 && 1 ≤ rows.toNat && rows.toNat ≤ 64

/-- The types of `vmma` (R296). -/
def mmaType : ElemTy → Bool
  | .bf16 | .f16 | .e4m3 | .e5m2 | .i8 | .n8 => true
  | _ => false

def execVmma (ty : ElemTy) (acc : BitVec 6) (va vb : Reg) (rows : BitVec 7) (m : Reg3) (s : State) : Out :=
  if mmaType ty ∧ tileOk vb rows then
    runMma s { ty := ty, acc := acc.toNat, va := va, vb := vb, rows := rows.toNat, scales := none, blk := 1, mask := m }
  else raise0 s 1

def execVmmas (acc : BitVec 6) (va vb : Reg) (rows : BitVec 7) (ka kb m : Reg3) (s : State) : Out :=
  if tileOk vb rows then
    runMma s { ty := .f4b, acc := acc.toNat, va := va, vb := vb, rows := rows.toNat, scales := some (ka, kb),
               blk := blkLen (vtBlk s.hart.csr.vtype), mask := m }
  else raise0 s 1

/-! ### Extract and insert (R302, R303) -/

/-- The types of `mext` and `mins`. -/
def extType : ElemTy → Bool
  | .f32 | .f16 | .bf16 | .e4m3 | .e5m2 | .i8 | .i16 | .i32 | .n8 | .n16 | .n32 => true
  | _ => false

/-- R304's checks 1 to 3 for one row. -/
def checkAccRow (s : State) (row : Nat) (srOk : Bool) : Except Exc VMode := do
  if s.hart.grant = 0 then throw { code := 37, tval := 0 }
  let md ← vmode s fun _ => srOk
  if s.hart.grant ≤ row then throw { code := 38, tval := 0 }
  return md

/-- `vl` above the number of columns raises cause 34 (R304). -/
def checkColumns (s : State) (v : Reg) : Except Exc Unit :=
  if columns s < vlOf s then .error { code := 34, tval := BitVec.ofNat 64 v.toNat } else .ok ()

/-- An accumulator word in type `t` (R302). -/
def extractElem (t : ElemTy) (md : VMode) (u x : Nat) : Nat × Flags × Bool :=
  let v := fmtF32.decode x
  if tyIsInt t then
    let r := FVal.toInt md.rm (tyMin t) (tyMax t) v
    (ofSigned (tyWidth t) r.1, r.2, false)
  else
    let r := roundTo (tyFmt t) md.sat md.rm u v
    (r.1, r.2, false)

def execMext (vd : Reg) (row : BitVec 6) (ty : ElemTy) (m : Reg3) (s : State) : Out :=
  if !extType ty then raise0 s 1
  else checked s (checkAccRow s row.toNat (srTarget ty)) fun md =>
    let w := tyWidth ty
    elementwise s (do checkDest s true vd w [] (vlOf s); checkColumns s vd) vd w [] m (fun s => s.hart.accLease) (md.rm == .sr)
      (fun s i u => extractElem ty md u (accRead s (accWord s row.toNat i)))
      (fun s i => s.hart.accPoison.contains (accWord s row.toNat i)) matrixLen

/-- An element of type `t` as FP32 bits (R303). -/
def insertElem (t : ElemTy) (md : VMode) (x : Nat) : Nat × Flags :=
  if tyIsInt t then roundTo fmtF32 md.sat md.rm 0 (FVal.ofInt (tyInt t x)) else (widenBits fmtF32 ((tyFmt t).decode x), 0)

def execMins (row : BitVec 6) (va : Reg) (ty : ElemTy) (m : Reg3) (s : State) : Out :=
  if !extType ty then raise0 s 1
  else checked s (checkAccRow s row.toNat false) fun md =>
    let w := tyWidth ty
    let srcs := [winOf s va w]
    checked s (do checkWins s srcs (vlOf s); checkColumns s va) fun _ =>
      withChunks s [va] fun s =>
        let sp := spanFor s m srcs w
        let rs := sp.idxs.map fun i => (i, insertElem ty md (elem s va w i))
        let t := accWrite s (rs.map fun x => (accWord s row.toNat x.1, x.2.1))
        let lease := (s.hart.accLease.union (vreg s va).lease).union (maskLease s m)
        closeSpan (addVxstat (setAccLease t lease) (rs.foldl (fun f x => f ||| x.2.2) 0) false) sp matrixLen

end Sys2Proof.Machine
end

