-- ==== Sys2Proof/Machine/Launch.lean ====
section
/-!
DEFINITION. Launch records, queues, the pending-launch pool, and `launch` (R127, R327 to R337).

The scheduling region of a partition stands in memory; the sync unit reads and writes it at its home.
-/

namespace Sys2Proof.Machine

/-! ### The scheduling region (R330, R331, R337) -/

/-- The address of queue `q`'s table entry. -/
def queueAddr (s : State) (p q : Nat) : Nat := (part s p).notifybm.toNat + 0x200 + 32 * q

/-- A field of a queue's entry: offset and size. -/
def queueField (s : State) (p q off n : Nat) : Nat := homeNat s (queueAddr s p q + off) n

/-- Write a field of a queue's entry. -/
def setQueueField (s : State) (p q off n v : Nat) : State := homeStore s (queueAddr s p q + off) (leBytes n v)

/-- The fields of a queue's entry that the scheduler reads. -/
def queuePriority (s : State) (p q : Nat) : Nat := queueField s p q 20 1 % 8
def queuePinned (s : State) (p q : Nat) : Bool := queueField s p q 21 1 % 2 == 1
def queueVdev (s : State) (p q : Nat) : Nat := queueField s p q 22 1 % 64
def queueQuantum (s : State) (p q : Nat) : Nat := queueField s p q 24 2
def queueDeficit (s : State) (p q : Nat) : Nat := queueField s p q 26 2

/-- Head and tail differ: a record waits in the ring. -/
def ringWaiting (s : State) (p q : Nat) : Bool := queueField s p q 12 4 != queueField s p q 16 4

/-- Weight and scope limit of a virtual device (R337). -/
def deviceWeight (s : State) (p v : Nat) : Nat := regionNat s p (0x20200 + 16 * v) 1
def deviceLimited (s : State) (p v : Nat) : Bool := regionNat s p (0x20201 + 16 * v) 1 == 1

/-- Bit `q` of the bitmap. -/
def notifyBit (s : State) (p q : Nat) : Bool := regionNat s p (q / 8) 1 / 2 ^ (q % 8) % 2 == 1

/-- Set or clear bit `q` of the bitmap. -/
def setNotifyBit (s : State) (p q : Nat) (on : Bool) : State :=
  let old := regionNat s p (q / 8) 1
  let new := if notifyBit s p q = on then old else if on then old + 2 ^ (q % 8) else old - 2 ^ (q % 8)
  homeStore s ((part s p).notifybm.toNat + q / 8) (leBytes 1 new)

/-- The software queues (R327). -/
def queueCount : Nat := 4096

/-! ### Hardware queue slots (R332) -/

/-- A queue holds a hardware slot. -/
def mappedQueue (s : State) (p q : Nat) : Bool := (part s p).hwSlots.any (·.2 == q)

/-- Queue `q` takes hardware slot `k`; its bit is cleared. -/
def mapQueue (s : State) (p q k : Nat) : State :=
  let t := setNotifyBit s p q false
  let t := setPart t p { part t p with hwSlots := (part t p).hwSlots.set k q }
  setQueueField t p q 23 1 k

/-- Hardware slot `k` loses queue `q`. -/
def unmapQueue (s : State) (p q k : Nat) : State :=
  setQueueField (setPart s p { part s p with hwSlots := (part s p).hwSlots.erase k }) p q 23 1 0xFF

/-- A pre-emption is due for every resident member of a gang (R339); an `exit` that has begun completes (R126). -/
def dueGang (s : State) (g : Gang) : State :=
  mapContexts (fun h =>
    if h.gangStack = g.stack ∧ h.gang = g.num ∧ (h.phase = .launched ∨ h.phase = .parked) then { h with due := true }
    else h) s

/-- The gangs of a queue; one that a hart made by leaving its gang is a gang of the same queue (R185, R332). -/
def queueGangs (s : State) (p q : Nat) : List Gang := s.gangs.filter fun g => g.partId == p && g.queue == q

/-- The queue that queue `q` may evict: a pre-emptible one of the lowest priority below its own, the highest number first;
with its slot. -/
def evictable (s : State) (p q : Nat) : Option (Nat × Nat) :=
  ((part s p).hwSlots.filter fun x => !queuePinned s p x.2 && queuePriority s p x.2 < queuePriority s p q).foldl
    (fun b x =>
      match b with
      | none => some x
      | some y =>
        let px := queuePriority s p x.2
        let py := queuePriority s p y.2
        if px < py ∨ (px = py ∧ y.2 < x.2) then some x else some y) none

/-- A notify write for queue `q` (R332). -/
def notifyQueue (s : State) (p q : Nat) : State :=
  if mappedQueue s p q then s
  else
    match (List.range Config.queueSlots).find? fun k => ((part s p).hwSlots.find? k).isNone with
    | some k => mapQueue s p q k
    | none =>
      match evictable s p q with
      | some (k, v) =>
        let t := (queueGangs s p v).foldl dueGang s
        mapQueue (setNotifyBit (unmapQueue t p v k) p v true) p q k
      | none =>
        let t := setNotifyBit s p q true
        if (part s p).hwSlots.all fun x => queuePinned s p x.2 then postAsync t p 56 (BitVec.ofNat 64 q) else t

/-- The set bit that a freed slot goes to: the highest priority, the lowest queue first. -/
def waitingQueue (s : State) (p : Nat) : Option Nat :=
  ((List.range queueCount).filter (notifyBit s p)).foldl
    (fun b q =>
      match b with
      | none => some q
      | some r => if queuePriority s p r < queuePriority s p q then some q else some r) none

/-- A mapped queue has no pending launch, no running gang and an empty ring. -/
def queueIdle (s : State) (p q : Nat) : Bool :=
  !ringWaiting s p q && (queueGangs s p q).isEmpty && !s.pool.any fun x => x.partId == p && x.record.queue == q

/-- Free hardware slot `k` of queue `q`, and pass it on. -/
def freeQueueSlot (p : Nat) (s : State) (x : Nat × Nat) : State :=
  if queueIdle s p x.2 then
    let t := unmapQueue s p x.2 x.1
    match waitingQueue t p with
    | some r => mapQueue t p r x.1
    | none => t
  else s

/-! ### Launch records (R327, R328) -/

/-- A launch record as its 64 bytes name it. -/
def parseRecord (r : List Byte) : LaunchRec :=
  let w (off : Nat) : Word := BitVec.ofNat 64 (recField r off 8)
  { overlap := recField r 1 1 % 2 == 1, wait := recField r 1 1 / 2 % 2 == 1, members := recField r 2 2,
    stack := recField r 4 1, density := recField r 5 1, slabs := recField r 6 1, mode := recField r 7 1, entry := w 8,
    table := w 16, mark := recField r 24 4, threshold := recField r 28 4, queue := recField r 32 2,
    target := recField r 34 1, tvec := w 40 }

/-- Where a record comes from. -/
inductive Origin where
  /-- the ring of a queue -/
  | ring (q : Nat)
  /-- `launch` in a mode -/
  | program (mode : Nat)
  /-- PF0's dlaunch register -/
  | pf0
  deriving DecidableEq, Repr

/-- `launch` in mode D with mode 0 or 1: the record names its partition in target. -/
def aimed (o : Origin) (r : LaunchRec) : Bool := o == .program modeD && r.mode ≤ 1

/-- The partition that a record is for, issued by partition `p`. -/
def recordPart (o : Origin) (p : Nat) (r : LaunchRec) : Nat :=
  if r.mode = 2 then Config.devicePartition else if aimed o r then r.target else p

/-- The limits of R327 and the reserved bits of a record, with the fields' own rules of R328. -/
def recordFieldsOk (o : Origin) (b : List Byte) (r : LaunchRec) : Bool :=
  let fromU := o == .program modeU
  recField b 0 1 == 1 && recField b 1 1 / 4 == 0 && (1 ≤ r.members && r.members ≤ 256) &&
    (r.stack ≤ 15 || r.stack == 0xFF) && (1 ≤ r.density && r.density ≤ 4) && (1 ≤ r.slabs && r.slabs ≤ 4) &&
    r.mode ≤ 2 && markRefOk r.mark && r.queue < queueCount && recZero b 35 40 && recZero b 48 64 && !bit r.entry 0 &&
    (field r.table 0 5 == 0 && field r.table 52 12 == 0) &&
    (fromU || (field r.tvec 0 2 == 0 && field r.tvec 52 12 == 0)) &&
    (r.target == 0 || (aimed o r && r.target < 12))

/-- The mode of a record suits its origin, and a ring's record names its queue. -/
def recordModeOk (o : Origin) (r : LaunchRec) : Bool :=
  match o with
  | .ring q => r.mode ≤ 1 && r.queue == q
  | .program md => if r.mode = 1 then md != modeU else r.mode != 2 || md == modeD
  | .pf0 => r.mode == 2

/-- The watermark of a record that waits is valid and allocated to the partition. -/
def recordMarkOk (s : State) (p : Nat) (r : LaunchRec) : Bool :=
  !r.wait || (r.mark % 2 == 1 &&
    match s.marks.find? (markKey r.mark) with
    | some m => m.owner == p
    | none => false)

/-- A slot of a partition on a front end with `g` slabs that is in service. -/
def slotOf (s : State) (p g slot : Nat) : Bool :=
  field (slotCfg s slot).part 0 4 == p && harnessSlabs (frontEnd s (feOf slot)).harness == g &&
    !(frontEnd s (feOf slot)).outOfService

/-- The slots of a stack that a partition's gangs with `g` slabs may use. -/
def slotsFor (s : State) (p stack g : Nat) : List Nat :=
  ((List.range 768).map (stack * 768 + ·)).filter (slotOf s p g)

/-- The bytes that the largest context on a list of slots needs, with a grant of 64 (R345). -/
def needBytes (s : State) (g : Nat) (slots : List Nat) : Nat :=
  (slots.map fun x => areaBytes 64 g (rowLength (slotCfg s x).rowrange) (spLen (slotCfg s x).part)).foldl max 0

/-- The configuration of a partition can host a record's gang in a stack (R328). -/
def canHost (s : State) (p : Nat) (r : LaunchRec) (stack : Nat) : Bool :=
  let slots := slotsFor s p stack r.slabs
  r.members ≤ slots.length && needBytes s r.slabs slots ≤ (contextRegion s p).2.2

/-- The stacks that can host a record. -/
def hostStacks (s : State) (p : Nat) (r : LaunchRec) : List Nat :=
  (if r.stack = 0xFF then List.range Config.stackCount else [r.stack]).filter (canHost s p r)

/-- A gang of the device partition starts in mode D (R336, R383). -/
def deviceModeOk (p : Nat) (r : LaunchRec) : Bool := p != Config.devicePartition || r.mode == 2

/-- A record is valid (R328). -/
def launchOk (s : State) (o : Origin) (p : Nat) (b : List Byte) : Bool :=
  let r := parseRecord b
  deviceModeOk (recordPart o p r) r && recordFieldsOk o b r && recordModeOk o r && recordMarkOk s (recordPart o p r) r &&
    !(hostStacks s (recordPart o p r) r).isEmpty

/-! ### The pool (R334) -/

/-- A stack's pool has an entry that no running gang is owed ahead of a launch. -/
def poolOpen (s : State) (stack : Nat) : Bool :=
  poolUsed s stack + (s.gangs.filter fun g => g.stack == stack && g.owedReserve).length < Config.poolEntries

/-- The gang whose reserve the launches of a hart draw on: one that has left its gang draws on that gang's (R185). -/
def issuerOf (s : State) (h : Hart) : Option Gang := gangOf s h.gangStack h.homeGang

/-- The stack in which a record finds an entry, and whether it takes the reserve of the issuing gang. -/
def findEntry (s : State) (p : Nat) (r : LaunchRec) (issuer : Option Gang) : Option (Nat × Bool) :=
  let hosts := hostStacks s p r
  match hosts.find? (poolOpen s) with
  | some k => some (k, false)
  | none =>
    match issuer with
    | some g => if g.hasReserve && hosts.contains g.stack then some (g.stack, true) else none
    | none => none

/-- A launch takes its entry. -/
def enterPool (s : State) (p : Nat) (r : LaunchRec) (stack : Nat) : State :=
  let (id, t) := freshId s
  { t with pool := t.pool ++ [{ seq := id, partId := p, stack := stack, record := r }] }

/-- The issuing gang gives up its reserve to a launch of its own. -/
def spendReserve (s : State) (spent : Bool) : State :=
  match spent, issuerOf s s.hart with
  | true, some g => setGang s { g with hasReserve := false, owedReserve := true }
  | _, _ => s

/-! ### `launch` (R127) -/

/-- The record that the current hart's `launch` names, with the partition it is for and the record's `tvec`. -/
def ownRecord (s : State) (b : List Byte) : Nat × LaunchRec :=
  let r := parseRecord b
  let o := Origin.program (mode s)
  (recordPart o s.hart.partId r, if mode s = modeU then { r with tvec := s.hart.csr.tvec } else r)

/-- A valid launch is queued: an unmapped queue is notified. -/
def queueLaunch (s : State) (p : Nat) (r : LaunchRec) (e : Nat × Bool) : State :=
  let t := enterPool (spendReserve s e.2) p r e.1
  if p = Config.devicePartition then t else notifyQueue t p r.queue

/-- `launch` and `launch.nb`: checks, the record, and what a full pool does. -/
def launchRecord (s : State) (d a : Reg) (blocks : Bool) : Out :=
  let x := baseAddr s a
  let answer (t : State) (st : Nat) : Out :=
    .next (advance 4 (scalarResult t d (result (BitVec.ofNat 64 st) (gpr s a).lease)))
  checked s (checkFull s .load (baseTag s a) x 64 64) fun _ =>
    if !fenceQuiet s || mustWait s false x 64 then stall s
    else if undescribed false x 64 then .fault (.undescribedRegister x)
    else match firstPoisoned s x 64 with
      | some p => raise s (excAt 31 p)
      | none =>
        let b := readBytes s x 64
        if !launchOk s (.program (mode s)) s.hart.partId b then raise s { code := 49, tval := gval s a }
        else
          let r := ownRecord s b
          match findEntry s r.1 r.2 (issuerOf s s.hart) with
          | some e => answer (queueLaunch s r.1 r.2 e) 0
          | none => if blocks then .next (park s (.launch d a)) else answer s 1

def execLaunch (d a : Reg) (s : State) : Out := launchRecord s d a true
def execLaunchNb (d a : Reg) (s : State) : Out := launchRecord s d a false

/-! ### Fetching a ring's records (R331) -/

/-- Move the head of a queue past a record. -/
def advanceHead (s : State) (p q : Nat) : State := setQueueField s p q 12 4 ((queueField s p q 12 4 + 1) % 2 ^ 32)

/-- The address of the record at a queue's head. -/
def headRecord (s : State) (p q : Nat) : Nat :=
  queueField s p q 0 8 + 64 * (queueField s p q 12 4 % queueField s p q 8 4)

/-- A ring's record that is not valid is consumed: the err flag, and cause 49 to the event hart (R328). -/
def rejectRecord (s : State) (p q : Nat) : State :=
  let flags := queueField s p q 21 1
  let t := setQueueField s p q 21 1 (if flags / 2 % 2 = 1 then flags else flags + 2)
  postAsync (advanceHead t p q) p 49 (BitVec.ofNat 64 (headRecord s p q))

/-- The bytes of the record at the head, if none of them is poisoned. -/
def headBytes (s : State) (p q : Nat) : Option (List Byte) :=
  match firstPoisoned s (headRecord s p q) 64 with
  | some _ => none
  | none => some (readBytes s (headRecord s p q) 64)

/-- The next record of queue `q` is fetched, if the queue is mapped and an entry is free (R331, R334). -/
def fetchRecord (s : State) (p q : Nat) : State :=
  if mappedQueue s p q && ringWaiting s p q then
    match headBytes s p q with
    | none => rejectRecord s p q
    | some b =>
      if launchOk s (.ring q) p b then
        match findEntry s p (parseRecord b) none with
        | some e => advanceHead (enterPool s p (parseRecord b) e.1) p q
        | none => s
      else rejectRecord s p q
  else s

def execRingFetch (p q : Nat) (s : State) : Out := .next (fetchRecord s p q)

end Sys2Proof.Machine
end

