-- ==== Sys2Proof/Machine/Sched.lean ====
section
/-!
DEFINITION. The scheduler of a partition: starting launches, slices, pre-emption, saving and restoring contexts (R329, R333,
R338 to R345).

`LAUNCH_START` and `RESTORE` check what the rules demand of a placement; which placement is tried next is decided by
`nextPlacement`, which ranks a partition's work under R338.
-/

namespace Sys2Proof.Machine

/-! ### Placement (R329, R342) -/

/-- A list of slots in ascending order. -/
def ascending : List Nat → Bool
  | x :: y :: l => x < y && ascending (y :: l)
  | _ => true

/-- Every front end used holds exactly `d` of the slots, but for that of the highest one, which may hold fewer (R329). -/
def densityOk (slots : List Nat) (d : Nat) : Bool :=
  slots.all fun x =>
    let n := (slots.filter fun y => feOf y == feOf x).length
    n == d || (n ≤ d && feOf x == feOf (slots.getLastD 0))

/-- A slot of a partition that a context with `g` slabs may take now; `gone` are contexts taken to have left. -/
def slotFree (s : State) (gone : List Nat) (p g slot : Nat) : Bool :=
  slotOf s p g slot && !(slotCfg s slot).held &&
    match slotHolder s slot with
    | some h => gone.contains h.cid
    | none => true

/-- Slots for `n` members at density `d` among the front ends of a list, in ascending order; `ok` says which slots may be
taken. -/
def pickSlots (ok : Nat → Bool) (d : Nat) : List Nat → Nat → Option (List Nat)
  | _, 0 => some []
  | [], _ + 1 => none
  | fe :: l, n + 1 =>
    let free := (slotsOf fe).filter ok
    let k := min d (n + 1)
    if k ≤ free.length then (pickSlots ok d l (n + 1 - k)).map (free.take k ++ ·) else pickSlots ok d l (n + 1)

/-- The front ends of a stack. -/
def stackFes (stack : Nat) : List Nat := (List.range Config.frontEndsPerStack).map (stack * Config.frontEndsPerStack + ·)

/-! ### Starting a launch (R329, R62) -/

/-- The save areas of a partition that no context holds and that are not fenced (R359), up to `n` of them. -/
def freeAreas (s : State) (p n : Nat) : List Nat :=
  let held := ((contexts s).filter (·.partId == p)).map (·.saveArea) ++ (part s p).fencedAreas
  ((List.range (min (contextRegion s p).2.1 (held.length + n))).filter fun i => !held.contains i).take n

/-- The previous launch of the queue has retired, or overlap is allowed (R333). -/
def overlapOk (s : State) (x : Pending) : Bool :=
  x.record.overlap ||
    match (part s x.partId).lastStarted.find? x.record.queue with
    | some k => !s.gangs.any (·.seq == k)
    | none => true

/-- No earlier launch of the same queue is pending; the device partition starts its records in the order of submission. -/
def firstInQueue (s : State) (x : Pending) : Bool :=
  !s.pool.any fun y => y.partId == x.partId && y.seq < x.seq &&
    (x.partId == Config.devicePartition || y.record.queue == x.record.queue)

/-- The watermark of a record that waits has reached the threshold. -/
def thresholdMet (s : State) (r : LaunchRec) : Bool :=
  !r.wait ||
    match s.marks.find? (markKey r.mark) with
    | some m => r.threshold ≤ m.index
    | none => false

/-- A pending launch needs nothing but hart slots in order to start now (R329, R338, R76, R360). -/
def readyToStart (s : State) (x : Pending) : Bool :=
  firstInQueue s x && thresholdMet s x.record && !(part s x.partId).quarantined &&
    !(s.moves.any fun m => m.table == x.record.table && (m.everyPart || m.partId == x.partId)) &&
    (freeAreas s x.partId x.record.members).length == x.record.members &&
    (x.partId == Config.devicePartition ||
      (mappedQueue s x.partId x.record.queue && overlapOk s x && deviceWeight s x.partId (queueVdev s x.partId x.record.queue) != 0))

/-- The slots suit a pending launch (R329). -/
def slotsSuit (s : State) (x : Pending) (slots : List Nat) : Bool :=
  slots.length == x.record.members && ascending slots && slots.all (fun y => stackOf y == x.stack) &&
    slots.all (slotFree s [] x.partId x.record.slabs) && densityOk slots x.record.density

/-- The queue's virtual device has the slice; the device partition has none. -/
def inSlice (s : State) (p q : Nat) : Bool :=
  p == Config.devicePartition || ((part s p).slicesLeft != 0 && queueVdev s p q == (part s p).vdev)

/-- A member as R62 and R57 leave it before its first instruction. -/
def freshMember (s : State) (x : Pending) (num j slot area cid : Nat) : Hart :=
  { cid := cid, phase := .launched, slot := slot, partId := x.partId, gangStack := x.stack, gang := num, member := j,
    homeGang := num, g := x.record.slabs, depth := rowLength (slotCfg s slot).rowrange, pc := x.record.entry,
    csr := { slotbase := x.record.table, tvec := x.record.tvec, rndstate := BitVec.ofNat 32 (j + 1),
             status := BitVec.ofNat 12 (x.record.mode * 32 + (if x.record.mode = 0 then 0 else 2)) },
    lag := Config.lags cid, saveArea := area }

/-- The gang that a launch makes. -/
def freshGang (s : State) (x : Pending) (num : Nat) : Gang :=
  let q := x.record.queue
  let dev := x.partId == Config.devicePartition
  { stack := x.stack, num := num, partId := x.partId, size := x.record.members, queue := if dev then 0 else q,
    vdev := if dev then 0 else queueVdev s x.partId q,
    clamped := !dev && deviceLimited s x.partId (queueVdev s x.partId q), density := x.record.density,
    slabs := x.record.slabs, hasReserve := true, owedReserve := false, startedAt := timeNs s, seq := x.seq }

/-- Place the members of a launch on slots. -/
def placeMembers (s : State) (x : Pending) (slots : List Nat) : State :=
  let num := freeGangNum s x.stack
  let areas := freeAreas s x.partId x.record.members
  let hs := (List.range slots.length).map fun j =>
    freshMember s x num j (slots.getD j 0) (areas.getD j 0) (s.nextId + 1 + j)
  { s with
    others := s.others ++ hs, gangs := s.gangs ++ [freshGang s x num], pool := s.pool.filter (·.seq != x.seq),
    nextId := s.nextId + slots.length }

/-! ### Deficit round robin (R338) -/

/-- A gang that is pre-empted has a member that is ready to run (R339). One in `gbar` or `vsred` that has still to arrive counts as such:
DEDUCED, its copies go on after a restore only (R312; log 15). -/
def memberReady (s : State) (h : Hart) : Bool :=
  let t := { s with hart := h }
  match h.wait with
  | .none | .cpwait _ => true
  | .waitw sz _ _ b a =>
    let n := if sz = .w then 4 else 8
    readNat t (baseAddr t a) n != (gval t b).toNat % 2 ^ (8 * n)
  | .vwait a b => (gval t b).toNat ≤ readNat t (baseAddr t a) 8
  | .ecall => h.reply.isSome
  | .launch _ a =>
    let r := ownRecord t (readBytes t (baseAddr t a) 64)
    (findEntry s r.1 r.2 (issuerOf s h)).isSome
  | .gbar | .vsred _ _ _ => comesToBarrier s h

/-- The pre-empted members of a gang, in ascending member index. In a quarantined partition only the event hart counts
(R360). -/
def savedMembers (s : State) (g : Gang) : List Hart :=
  let x := part s g.partId
  (s.saved.filter fun h => h.gangStack == g.stack && h.gang == g.num && h.phase == .preempted &&
    (!x.quarantined || x.eventHart == some h.cid)).foldl (fun l h => insertMember h l) []

/-- A gang has pre-empted members that could be restored: no move of their table is open (R36), and one is ready, or an
asynchronous cause waits for one whose wait it ends (R352). -/
def gangReady (s : State) (g : Gang) : Bool :=
  let hs := savedMembers s g
  let wakes (h : Hart) : Bool :=
    match h.wait with
    | .gbar | .vsred _ _ _ | .ecall => false
    | _ => asyncOpen h && !(pendingOf s h).isEmpty
  !hs.isEmpty && hs.any (fun h => memberReady s h || wakes h) && !s.moves.any fun m => hs.any (usesTable m)

/-- An item of work of a partition. -/
inductive Work where
  | start (x : Pending)
  | restore (g : Gang)
  deriving DecidableEq, Repr

/-- The queue of an item. -/
def Work.queue : Work → Nat
  | .start x => x.record.queue
  | .restore g => g.queue

/-- The work of a queue: its ready pre-empted gangs, then its first pending launch. -/
def queueWork (s : State) (p q : Nat) : List Work :=
  ((s.gangs.filter fun g => g.partId == p && g.queue == q && gangReady s g).map .restore) ++
    ((s.pool.filter fun x => x.partId == p && x.record.queue == q && readyToStart s x).map .start)

/-- The queues of a partition that have work for device `v`, ascending. -/
def workQueues (s : State) (p v : Nat) : List Nat :=
  let all := ((s.gangs.filter fun g => g.partId == p).map (·.queue)) ++ ((s.pool.filter (·.partId == p)).map (·.record.queue))
  (all.foldl (fun l q => insertNat q l) []).filter fun q => queueVdev s p q == v && !(queueWork s p q).isEmpty

/-- The queues of one priority that round robin serves now, in ascending order: those with a deficit above 0, or all of them
when none has one. -/
def drrOrder (s : State) (p : Nat) (qs : List Nat) : List Nat :=
  match qs.filter fun q => queueDeficit s p q != 0 with
  | [] => qs
  | l => l

/-- The queues of one priority in the order of their rank: those that round robin serves now, then the others. -/
def drrRank (s : State) (p : Nat) (qs : List Nat) : List Nat :=
  let now := drrOrder s p qs
  now ++ qs.filter fun q => !now.contains q

/-- The ranked work of device `v` of a partition (R338). The device partition's records start in their order. -/
def rankedWork (s : State) (p v : Nat) : List Work :=
  if p = Config.devicePartition then
    ((s.gangs.filter fun g => g.partId == p && gangReady s g).map .restore) ++
      ((s.pool.filter fun x => x.partId == p && readyToStart s x).map .start)
  else
    let qs := workQueues s p v
    ((List.range 8).map (7 - ·)).flatMap fun pr =>
      (drrRank s p (qs.filter fun q => queuePriority s p q == pr)).flatMap (queueWork s p)

/-- The queues of the priority and the device of queue `q` that have work. -/
def drrPeers (s : State) (p q : Nat) : List Nat :=
  (workQueues s p (queueVdev s p q)).filter fun r => queuePriority s p r == queuePriority s p q

/-- Round robin serves queue `q` now (R338). -/
def mayServe (s : State) (p q : Nat) : Bool :=
  p == Config.devicePartition || (drrOrder s p (drrPeers s p q)).contains q

/-- Queue `q` is served: when no queue of its priority with work has a deficit left each receives its quantum, then its
own falls by one. -/
def serveQueue (s : State) (p q : Nat) : State :=
  if p = Config.devicePartition then s
  else
    let peers := drrPeers s p q
    let t := if peers.all fun r => queueDeficit s p r == 0 then
        peers.foldl (fun t r => setQueueField t p r 26 2 (queueQuantum t p r)) s
      else s
    setQueueField t p q 26 2 (queueDeficit t p q - 1)

/-- Launch `k` starts on the given slots (R329). -/
def execLaunchStart (k : Nat) (slots : List Nat) (s : State) : Out :=
  match s.pool.find? (·.seq == k) with
  | none => .next s
  | some x =>
    let p := x.partId
    let q := x.record.queue
    if readyToStart s x && inSlice s p q && mayServe s p q && slotsSuit s x slots then
      let t := placeMembers (serveQueue s p q) x slots
      let t := setPart t p { part t p with lastStarted := (part t p).lastStarted.set q k }
      .next (if p = Config.devicePartition ∧ t.pf0.dseq = k then { t with pf0 := { t.pf0 with dstatus := 0 } } else t)
    else .next s

/-! ### Saving a context (R340, R341) -/

/-- Key `x` of a scratchpad lies in the range that a `part` register gives. -/
def inSpRange (w : Word) (x : Nat) : Bool := spBase w ≤ x % 0x100000 && x % 0x100000 < spBase w + spLen w

/-- The scratchpad range of a slot as it stands, with its poisoned granules (R311). -/
def takeScratch (s : State) (slot : Nat) : Mem × List Nat :=
  let w := (slotCfg s slot).part
  let f := frontEnd s (feOf slot)
  (f.scratch.filter fun c => inSpRange w c.1, f.scratchPoison.filter fun q => inSpRange w (8 * q))

/-- A context for which a pre-emption is due can leave its slot: its issued stores have performed, and no move is about to stop
it or has stopped it (R128). -/
def saveReady (h : Hart) : Bool :=
  h.due && (h.phase == .launched || h.phase == .parked) && !h.stopped && !h.stopPending && h.posted.isEmpty

/-- The contexts that leave together with a context: the members of its gang for which a pre-emption is due (R340). -/
def leavers (s : State) (h : Hart) : List Hart := (gangMembers s h.gangStack h.gang).filter (·.due)

/-- A gang halts and is saved as a unit: every leaver is ready. -/
def unitReady (s : State) (h : Hart) : Bool := h.due && (leavers s h).all saveReady

/-- The front ends whose shadow storage holds the context of a hart: its own, and those whose sites supply halves of its slabs
(R341). -/
def shadowsOf (s : State) (h : Hart) : List Nat :=
  let fe := feOf h.slot
  let v := (frontEnd s fe).harness
  (((List.range (min h.g 4)).filter (entryValid v)).flatMap fun j => [halfOf fe v j false / 2, halfOf fe v j true / 2]).foldl
    (fun l x => insertNat x l) [fe]

/-- The context as it goes to shadow storage, or to its save area at once where that storage is fenced (R341, R359); time in a
`vwait` or a stall counts up to now (R182, R196). -/
def savedHart (s : State) : Hart :=
  let h := settled s s.hart
  let sp := takeScratch s h.slot
  { h with
    phase := .preempted, due := false
    areaWritten := Config.savesToArea s.draws || (shadowsOf s h).any fun f => (frontEnd s f).shadowFenced
    savedPart := (slotCfg s h.slot).part, savedScratch := sp.1, savedPoison := sp.2 }

/-- Context `cid` is saved; its copies with bytes left are logged (R310). -/
def saveContext (s : State) (cid : Nat) : State :=
  match asHart s cid fun t =>
      let k := savedHart t
      let u := logCopies { t with hart := {}, saved := t.saved ++ [k], draws := t.draws + 1 } cid
      .next (if k.areaWritten then writeArea u k else u) with
  | .next t => t
  | .fault _ | .refused _ => s

/-- Context `h` halts and is saved, and the gang with it (R340). -/
def execContextSave (h : Nat) (s : State) : Out :=
  match contextOf s h with
  | none => .next s
  | some k => .next (if unitReady s k then ((leavers s k).map (·.cid)).foldl saveContext s else s)

/-! ### Restoring (R342) -/

/-- A context fits a free slot, but for its accumulator rows (R342): the ranges are those under which it was saved. -/
def fits (s : State) (gone : List Nat) (h : Hart) (slot : Nat) : Bool :=
  let c := slotCfg s slot
  slotFree s gone h.partId h.g slot && rowLength c.rowrange == h.depth && spBase c.part == spBase h.savedPart &&
    spLen c.part == spLen h.savedPart

/-- Members fit slots one by one. -/
def allFit (s : State) (gone : List Nat) : List Hart → List Nat → Bool
  | [], [] => true
  | h :: hs, x :: xs => fits s gone h x && allFit s gone hs xs
  | _, _ => false

/-- The rows granted to the members fit the pools of their front ends (R291, R342). -/
def grantsFit (s : State) (gone : List Nat) (hs : List Hart) (slots : List Nat) : Bool :=
  slots.all fun x =>
    let held := ((s.hart :: s.others).filter fun k =>
      k.phase != .free && feOf k.slot == feOf x && !gone.contains k.cid).map (·.grant)
    let new := ((hs.zip slots).filter fun y => feOf y.2 == feOf x).map (·.1.grant)
    (held ++ new).foldl (· + ·) 0 ≤ 64

/-- A context on its new slot. -/
def resumed (s : State) (h : Hart) (slot : Nat) : Hart :=
  { (resumedHart s h) with slot := slot, areaWritten := false, savedScratch := [], savedPoison := [] }

/-- Put the saved scratchpad range into a front end's scratchpads. -/
def putScratch (s : State) (h : Hart) (slot : Nat) : State :=
  let w := h.savedPart
  let f := frontEnd s (feOf slot)
  setFrontEnd s (feOf slot) { f with
    scratch := h.savedScratch.foldl (fun m c => m.write c.1 c.2) (f.scratch.filter fun c => !inSpRange w c.1)
    scratchPoison := h.savedPoison.foldl (fun l q => insertNat q l) (f.scratchPoison.filter fun q => !inSpRange w (8 * q)) }

/-- Restore one context onto a slot. A context that leaves its front end has been written to its save area (R341). -/
def restoreHart (s : State) (x : Hart × Nat) : State :=
  let h := x.1
  let s := if !h.areaWritten ∧ feOf x.2 ≠ feOf h.slot then writeArea s h else s
  let s := putScratch { s with saved := s.saved.filter (·.cid != h.cid) } h x.2
  let s := { s with others := s.others ++ [resumed s h x.2] }
  match asHart s h.cid fun t => .next (reissueAll t) with
  | .next t => t
  | .fault _ | .refused _ => s

/-- The gang that a restore names is ready, and its pre-empted members fit the slots (R342). -/
def restoreOk (s : State) (g : Gang) (slots : List Nat) : Bool :=
  let hs := savedMembers s g
  gangReady s g && ascending slots && allFit s [] hs slots && grantsFit s [] hs slots &&
    slots.all (fun x => stackOf x == stackOf (slots.headD 0)) && densityOk slots g.density &&
    ((inSlice s g.partId g.queue && mayServe s g.partId g.queue) || (part s g.partId).quarantined)

/-- Restore the pre-empted members of a gang onto slots. -/
def execRestore (gangStack gang : Nat) (slots : List Nat) (s : State) : Out :=
  match gangOf s gangStack gang with
  | none => .next s
  | some g =>
    if restoreOk s g slots then
      let hs := savedMembers s g
      let t := setGang (serveQueue s g.partId g.queue) { g with startedAt := timeNs s }
      .next ((hs.zip slots).foldl restoreHart t)
    else .next s

/-! ### What is placed next, and who is pre-empted for it (R338, R339) -/

/-- Slots of a list in ascending order for members one by one: the first that fits each. -/
def pickFor (fit : Hart → Nat → Bool) : List Nat → List Hart → Option (List Nat)
  | _, [] => some []
  | [], _ :: _ => none
  | x :: xs, h :: hs => if fit h x then (pickFor fit xs hs).map (x :: ·) else pickFor fit xs (h :: hs)

/-- Slots for members at density `d` among the front ends of a list, in ascending order: each front end takes the next `d` members,
if they fit it together, or none (R329, R342). -/
def pickMembers (fit : Hart → Nat → Bool) (room : List Hart → List Nat → Bool) (d : Nat) :
    List Nat → List Hart → Option (List Nat)
  | _, [] => some []
  | [], _ :: _ => none
  | fe :: l, hs =>
    match (pickFor fit (slotsOf fe) (hs.take d)).filter (room (hs.take d)) with
    | some xs => (pickMembers fit room d l (hs.drop d)).map (xs ++ ·)
    | none => pickMembers fit room d l hs

/-- Slots for an item outside `taken`, if the contexts of `gone` leave theirs: which of the eligible slots is not defined; the
lowest are taken (log 26). -/
def findSlots (s : State) (taken gone : List Nat) : Work → Option (List Nat)
  | .start x =>
    pickSlots (fun y => !taken.contains y && slotFree s gone x.partId x.record.slabs y) x.record.density (stackFes x.stack)
      x.record.members
  | .restore g =>
    let hs := savedMembers s g
    (List.range Config.stackCount).findSome? fun k =>
      pickMembers (fun h y => !taken.contains y && fits s gone h y) (grantsFit s gone) g.density (stackFes k) hs

/-- The resident contexts of a gang. -/
def residents (s : State) (g : Gang) : List Hart :=
  ((s.hart :: s.others).filter fun h => (h.phase == .launched || h.phase == .parked) && h.gangStack == g.stack && h.gang == g.num)

/-- Every member of a gang is parked; one that has dispatched a `vwait` is (R182). -/
def wholeParked (s : State) (g : Gang) : Bool :=
  let hs := residents s g
  !hs.isEmpty && hs.all fun h => (h.phase == .parked && h.wait != .none) || h.queuedWait

/-- A gang may be pre-empted for an item: at a slice end a gang of another device, at any time one of lower priority, or
one that is parked as a whole (R339). -/
def victimOf (s : State) (p : Nat) (sliceEnds : Bool) (w : Work) (g : Gang) : Bool :=
  g.partId == p && !(residents s g).isEmpty && p != Config.devicePartition &&
    ((!queuePinned s p g.queue &&
        (queuePriority s p g.queue < queuePriority s p w.queue ||
          (sliceEnds && queueVdev s p g.queue != queueVdev s p w.queue))) ||
      wholeParked s g)

/-- Insert a victim: lowest queue priority first, then the gang that started or was last restored latest. -/
def insertVictim (s : State) (g : Gang) : List Gang → List Gang
  | [] => [g]
  | k :: l =>
    let pg := queuePriority s g.partId g.queue
    let pk := queuePriority s k.partId k.queue
    if pg < pk ∨ (pg = pk ∧ k.startedAt < g.startedAt) then g :: k :: l else k :: insertVictim s g l

/-- Of a list of victims those that are spared when the others suffice, the last of the order first. -/
def sparing (ok : List Gang → Bool) : List Gang → List Gang
  | [] => []
  | g :: l =>
    let kept := sparing (fun k => ok (g :: k)) l
    if ok kept then kept else g :: kept

/-- The victims that have to leave for an item besides `gone`, among the gangs that may, and the slots that it then finds outside
`taken`: of the shortest prefix of the order with which it finds any, those without which it would find none (R339). -/
def victimsFor (s : State) (may : Gang → Bool) (taken : List Nat) (gone : List Gang) (w : Work) : Option (List Gang × List Nat) :=
  let gs := (s.gangs.filter fun g => may g && !gone.contains g).foldl (fun l g => insertVictim s g l) []
  let slots (out : List Gang) : Option (List Nat) :=
    findSlots s taken ((gone ++ out).flatMap fun g => (residents s g).map (·.cid)) w
  (List.range (gs.length + 1)).findSome? fun n =>
    if (slots (gs.take n)).isSome then
      let out := sparing (fun k => (slots k).isSome) (gs.take n)
      (slots out).map (out, ·)
    else none

/-- The gangs of other devices that leave at the start of a slice: those whose slots its ranked work needs, item by item
(R339). -/
def sliceVictims (s : State) (p : Nat) : List Work → List Nat → List Gang → List Gang
  | [], _, gone => gone
  | w :: l, taken, gone =>
    match victimsFor s (victimOf s p true w) taken gone w with
    | some x => sliceVictims s p l (taken ++ x.2) (gone ++ x.1)
    | none => sliceVictims s p l taken gone

/-- What the ranked work of a partition asks for: nothing, a placement, or victims. -/
inductive Demand where
  | nothing
  | place (w : Work) (slots : List Nat)
  | evict (gs : List Gang)
  deriving DecidableEq, Repr

/-- The first item that finds slots is placed; one that victims would make room for has them leave first; one that nothing
makes room for is passed over (log 26). -/
def demandOf (s : State) (p : Nat) : List Work → Demand
  | [] => .nothing
  | w :: l =>
    match victimsFor s (victimOf s p false w) [] [] w with
    | some ([], slots) => .place w slots
    | some (gs, _) => .evict gs
    | none => demandOf s p l

/-- The work that a partition may place now: what round robin serves. -/
def currentWork (s : State) (p : Nat) : List Work :=
  let x := part s p
  if x.quarantined then (s.gangs.filter fun g => g.partId == p && gangReady s g).map .restore
  else if p = Config.devicePartition ∨ x.slicesLeft ≠ 0 then (rankedWork s p x.vdev).filter fun w => mayServe s p w.queue
  else []

/-- Nothing is pending and nothing is pre-empted in a partition. -/
def noWork (s : State) (p : Nat) : Bool :=
  !s.pool.any (·.partId == p) && !s.saved.any (·.partId == p)

/-- The next placement of a partition, if it has one. -/
def nextPlacement (s : State) (p : Nat) : Option (Work × List Nat) :=
  if noWork s p then none
  else match demandOf s p (currentWork s p) with
    | .place w slots => some (w, slots)
    | .nothing | .evict _ => none

/-- The gangs, parked as a whole, that yield to a ready gang of the partition, whichever its device (R339). -/
def yielding (s : State) (p : Nat) : List Gang :=
  let ready := s.gangs.filter fun g => g.partId == p && p != Config.devicePartition && gangReady s g
  (ready.findSome? fun g =>
    (victimsFor s (fun k => k.partId == p && wholeParked s k) [] [] (.restore g)).bind fun x =>
      if x.1.isEmpty then none else some x.1).getD []

/-- Mark the victims of a partition's work. -/
def markVictims (s : State) (p : Nat) : State :=
  if noWork s p then s
  else match demandOf s p (currentWork s p) with
    | .evict gs => gs.foldl dueGang s
    | .nothing | .place _ _ => (yielding s p).foldl dueGang s

/-! ### Slices (R338) -/

/-- A device is enabled and has work: it could start a launch or restore a gang. -/
def hasWork (s : State) (p v : Nat) : Bool := deviceWeight s p v != 0 && !(workQueues s p v).isEmpty

/-- The device that follows `v` in the round and has work. -/
def nextDevice (s : State) (p v : Nat) : Option Nat :=
  ((List.range 64).map fun i => (v + 1 + i) % 64).find? (hasWork s p)

/-- A device has neither work nor a resident gang: the rest of its slices is passed over (R338, log 29). -/
def deviceIdle (s : State) (p v : Nat) : Bool :=
  !hasWork s p v && !s.gangs.any fun g => g.partId == p && g.vdev == v && !(residents s g).isEmpty

/-- The end of the partition's slice in time. -/
def sliceEndNs (s : State) (p : Nat) : Nat := (part s p).sliceStart + regionNat s p 0x20600 4 * 1000

/-- A slice of the partition is over: its time has passed, or its device is idle. -/
def sliceOver (s : State) (p : Nat) : Bool :=
  let x := part s p
  x.slicesLeft == 0 || sliceEndNs s p ≤ timeNs s || deviceIdle s p x.vdev

/-- Something follows the end of a slice: a slice of the partition is under way, or a device has work for the next one. -/
def sliceDue (s : State) (p : Nat) : Bool :=
  sliceOver s p && ((part s p).slicesLeft != 0 || (nextDevice s p (part s p).vdev).isSome)

/-- The scheduler passes to the next slice: the same device while it has slices left and is not idle, else the next device with work,
which receives its weight. It begins where the last one ended (R338). Gangs of other devices whose slots its work needs are pre-empted
(R339). -/
def endSlice (s : State) (p : Nat) : State :=
  let x := part s p
  let start := if x.slicesLeft ≠ 0 ∧ sliceEndNs s p ≤ timeNs s ∧ !deviceIdle s p x.vdev then sliceEndNs s p else timeNs s
  let begin' (v n : Nat) : State :=
    let t := setPart s p { x with vdev := v, slicesLeft := n, sliceStart := start }
    (sliceVictims t p (rankedWork t p v) [] []).foldl dueGang t
  if 1 < x.slicesLeft ∧ !deviceIdle s p x.vdev then begin' x.vdev (x.slicesLeft - 1)
  else match nextDevice s p x.vdev with
    | some v => begin' v (deviceWeight s p v)
    | none => setPart s p { x with slicesLeft := 0 }

def execSliceEnd (p : Nat) (s : State) : Out :=
  .next (if p = Config.devicePartition ∨ !sliceOver s p then s else endSlice s p)

end Sys2Proof.Machine
end

