-- ==== Sys2Proof/Machine/Events.lean ====
section
/-!
DEFINITION. Errors and their containment (R355, R358 to R362), the partition timer (R360), the cold tier's errors (R385), power
and heat (R394).

These events come from outside the program: the machine says what each of them does when it happens.
-/

namespace Sys2Proof.Machine

/-! ### Reports -/

/-- Write a log entry and raise an asynchronous cause whose `tval` is its index (R354, R360). -/
def report (s : State) (p cause kind : Nat) (addr : Word) : State :=
  postAsync (logEntry s p cause kind addr {}) p cause (logIndex s p)

/-- The partitions that hold a hart slot that satisfies a condition; hart slot 0 is the device partition's unless it has been
assigned anew (R395). -/
def partsWith (s : State) (ok : Nat → Bool) : List Nat :=
  let keys := insertNat 0 (s.slots.map (·.1))
  (keys.filter ok).foldl (fun l x =>
    let p := field (slotCfg s x).part 0 4
    if p = Config.noPartition then l else insertNat p l) []

/-- Every partition that holds a hart slot. -/
def partsInUse (s : State) : List Nat := partsWith s fun _ => true

/-! ### Terminating gangs and partitions (R360) -/

/-- The hart of a context is gone. -/
def dropContext (s : State) (cid : Nat) : State :=
  match asHart s cid fun t => .next (dropHart t) with
  | .next t => t
  | .fault _ | .refused _ => s

/-- Terminate every member of a gang: one log entry of kind 1. -/
def terminateGang (s : State) (g : Gang) (cause : Nat) : State :=
  let hs := gangMembers s g.stack g.num
  let t := logEntry s g.partId cause 1 (BitVec.ofNat 64 g.num) (hs.headD {})
  (hs.map (·.cid)).foldl dropContext t

/-- Hold every slot of a partition until it is assigned again; slot 0 is held also where nothing has written it yet. -/
def holdSlots (s : State) (p : Nat) : State :=
  let t := if (s.slots.find? 0).isNone then setSlotCfg s 0 (slotCfg s 0) else s
  { t with slots := t.slots.map fun x => if field x.2.part 0 4 = p then (x.1, { x.2 with held := true }) else x }

/-- Unmap every queue of a partition. -/
def unmapAll (s : State) (p : Nat) : State :=
  (part s p).hwSlots.foldl (fun t x => unmapQueue t p x.2 x.1) s

/-- Terminate a partition: every gang, every pending launch; its queues are unmapped, its slots held. One log entry of
kind 2. -/
def terminatePartition (s : State) (p cause : Nat) (addr : Word) : State :=
  let t := logEntry s p cause 2 addr {}
  let t := (((contexts t).filter fun h => h.partId == p && h.phase.live).map (·.cid)).foldl dropContext t
  let t := { t with pool := t.pool.filter (·.partId != p) }
  let t := (List.range Config.stackCount).foldl settleReserves t
  holdSlots (unmapAll t p) p

/-- Quarantine a partition: every gang is pre-empted and launches are held until its register is written (R359, R360). Nothing but a
harness change or a re-pairing pre-empts a gang of the device partition (R383). -/
def quarantine (s : State) (p : Nat) : State :=
  let t := setPart s p { part s p with quarantined := true }
  let t := if p = Config.devicePartition then t else (t.gangs.filter (·.partId == p)).foldl dueGang t
  report t p 62 5 0

/-! ### Lane-shift repair (R358) -/

/-- The halves of logical slab `j` of a front end that are fenced. -/
def faultyHalves (s : State) (fe j : Nat) (half : HalfSel) : List Nat :=
  let v := (frontEnd s fe).harness
  match half with
  | .a => [halfOf fe v j false]
  | .b => [halfOf fe v j true]
  | .both => [halfOf fe v j false, halfOf fe v j true]

/-- A harness with entry `j` replaced. -/
def setHarnessEntry (v : Word) (j : Nat) (e : BitVec 16) : Word :=
  BitVec.ofNat 64 (v.toNat - field v (16 * j) 16 * 2 ^ (16 * j) + e.toNat * 2 ^ (16 * j))

/-- No spare half is within reach: the gangs of the front end's harts leave their slots, the slots leave service, and cause
36 goes to their partitions. -/
def retireFrontEnd (s : State) (fe : Nat) : State :=
  let here := hartsOn s fe
  let gs := s.gangs.filter fun g => here.any fun h => h.gangStack == g.stack && h.gang == g.num
  let t := setFrontEnd s fe { frontEnd s fe with outOfService := true }
  (ownersOn s fe).foldl (fun t p => report t p 36 3 (BitVec.ofNat 64 fe)) (gs.foldl dueGang t)

/-- A repeated mismatch in slab `entry` of a front end: the bad half is fenced, and the harness is paired again with the
entry that the hardware found, if there is one and it passes R25's checks. -/
def execLaneShiftRepair (fe : Nat) (entry : BitVec 2) (half : HalfSel) (repair : Option (BitVec 16)) (s : State) : Out :=
  let bad := faultyHalves s fe entry.toNat half
  let t := { s with fencedHalves := bad.foldl (fun l x => insertNat x l) s.fencedHalves }
  .next (match repair with
    | some e =>
      let v := setHarnessEntry (frontEnd s fe).harness entry.toNat e
      if harnessOk t fe v then rebind t fe v else retireFrontEnd t fe
    | none => retireFrontEnd t fe)

/-! ### The timer (R360) -/

/-- The partition's timer has reached `time`. -/
def timerDue (s : State) (p : Nat) : Bool := (part s p).timer != 0 && (part s p).timer.toNat ≤ timeNs s

def execTimerExpire (p : Nat) (s : State) : Out :=
  .next (if timerDue s p then
      postAsync (setPart s p { part s p with timer := 0 }) p 58 (BitVec.ofNat 64 (timeNs s))
    else s)

/-! ### Uncorrectable errors (R359) -/

/-- Poison granules of system memory. -/
def poisonGranules (s : State) (gs : List Nat) : State := { s with poison := gs.foldl (fun l g => insertNat g l) s.poison }

/-- Change a context's own state. -/
def markRow (h key : Nat) (s : State) : State :=
  mapContext h (fun k => { k with rowPoison := insertNat (key / 8) k.rowPoison }) s

def markAcc (h word : Nat) (s : State) : State :=
  mapContext h (fun k => { k with accPoison := insertNat word k.accPoison }) s

/-- A link leaves service: cause 59 to every partition with a peer window over it (R362). -/
def linkDown (s : State) (l : Nat) : State :=
  let users := (s.parts.filter fun x => x.2.peers.any fun e => bit e.2 63 && bit e.2 l).map (·.1)
  users.foldl (fun t p => report t p 59 3 (BitVec.ofNat 64 l)) { s with links := s.links.set l 0x100 }

/-- A save area is fenced: no context receives it any more. -/
def fenceArea (s : State) (p area : Nat) : State :=
  setPart s p { part s p with fencedAreas := insertNat area (part s p).fencedAreas }

/-- The shadow storage of a front end is fenced: it holds no context any more (R359). -/
def fenceShadow (s : State) (fe : Nat) : State := setFrontEnd s fe { frontEnd s fe with shadowFenced := true }

/-- A saved context is lost: its gang is terminated, cause 63 reports it, and what held it is fenced: its save area, or the shadow
storage if it has not been written there (R341, R359). -/
def loseContext (s : State) (cid : Nat) : State :=
  match contextOf s cid with
  | none => s
  | some h =>
    let t := match gangOf s h.gangStack h.gang with
      | some g => terminateGang s g 63
      | none => dropContext s cid
    report (if h.areaWritten then fenceArea t h.partId h.saveArea else (shadowsOf s h).foldl fenceShadow t) h.partId 63 3 (BitVec.ofNat 64 h.saveArea)

/-- A vault is fenced: its granules read poisoned, cause 63 to every partition. -/
def fenceVault (s : State) (v : Nat) : State :=
  (partsInUse s).foldl (fun t p => report t p 63 3 (BitVec.ofNat 64 v))
    { s with vaults := s.vaults.set v { vaultCtl s v with fenced := true } }

/-- The service is fenced until it restarts (R359). -/
def fenceService (s : State) : State := { s with svc := { s.svc with fenced := true } }

/-- The table of R359. A clean line is refetched. -/
def contain (s : State) : ErrorSite → State
  | .cleanLine => s
  | .dirtyUser gs => poisonGranules s gs
  | .dirtyPrivileged p => terminatePartition s p 63 0
  | .dram g => poisonGranules s [g]
  | .farLine l => poisonGranules s ((List.range 8).map (8 * l + ·))
  | .scratchpad fe key =>
    let f := frontEnd s fe
    setFrontEnd s fe { f with scratchPoison := insertNat (key / 8) f.scratchPoison }
  | .rowStore h key => markRow h key s
  | .accumulator h word => markAcc h word s
  | .savedContext h => loseContext s h
  | .syncEntry p => terminatePartition s p 63 0
  | .firmware => fenceService (logEntry s Config.devicePartition 63 3 0 {})
  | .vault v => fenceVault s v
  | .link l => linkDown s l

def execUncorrectableError (site : ErrorSite) (s : State) : Out := .next (contain s site)

/-- A security alarm (R359): the key store by policy, then quarantine, of partitions 0 to 11 at a tamper or glitch. -/
def execSecurityAlarm (a : Alarm) (s : State) : Out :=
  let t := if Config.zeroisePolicy then { s with svc := { s.svc with keysZeroised := true } } else s
  .next (match a with
    | .tamper => (List.range Config.devicePartition).foldl quarantine t
    | .authentication p => quarantine t p)

/-! ### Links, expanders, heat and power (R362, R385, R394) -/

/-- A lane fails: the link goes on with the lanes that remain, or goes down with the last. -/
def execLinkLaneFailure (l : Nat) (lane : BitVec 3) (s : State) : Out :=
  let good := linkReg s l &&& 0xFF &&& ~~~(1#9 <<< lane.toNat)
  .next (if bit (linkReg s l) 8 then s else if good = 0 then linkDown s l else { s with links := s.links.set l good })

/-- An expander fails: accesses to its region are refused until PF0 writes valid again. -/
def execColdTierExpanderError (r : Nat) (s : State) : Out :=
  .next { s with cold := s.cold.set r { coldRegion s r with failed := true } }

/-- The partitions that hold a slot of a stack. -/
def partsOfStack (s : State) (stack : Nat) : List Nat := partsWith s fun x => stackOf x == stack

/-- Issue is throttled, which changes timing only; cause 61 to the partitions concerned. -/
def throttle (s : State) (stack : Nat) (ps : List Nat) : State :=
  ps.foldl (fun t p => report t p 61 3 (BitVec.ofNat 64 stack)) { s with throttled := true }

def execThermalNotice (stack : Nat) (s : State) : Out := .next (throttle s stack (partsOfStack s stack))

def execPowerNotice (s : State) : Out := .next (throttle s 0 (partsInUse s))

/-- 105 °C: the stack's partitions are terminated. -/
def execStackShutdown (stack : Nat) (s : State) : Out :=
  .next ((partsOfStack s stack).foldl (fun t p => terminatePartition t p 61 (BitVec.ofNat 64 stack)) s)

end Sys2Proof.Machine
end

