-- ==== Sys2Proof/Machine/Move.lean ====
section
/-!
DEFINITION. Moves of slots (R75 to R79): stopping the harts of a table, what in flight touches the slot, the commit.
-/

namespace Sys2Proof.Machine

/-! ### What a dispatched instruction accesses (R77) -/

/-- An instruction that makes an access of the vector agent (R135), other than a copy: a `cpb` before it holds it back
(R323). -/
def vectorAccess : Instr → Bool
  | .vld .. | .vlds .. | .vldx .. | .vlseg .. | .vst .. | .vsts .. | .vstx .. | .vsseg .. | .vspill .. | .vfill ..
  | .vamoAdd .. | .vamoSwap .. | .vamoMin .. | .vamoMax .. | .vamoAnd .. | .vamoOr ..
  | .vamoXor .. | .vwait .. | .awdecl .. | .awmerge .. | .wmpub .. | .vsbind .. | .swpout .. | .swpin .. | .xfer ..
  | .launch .. | .launchNb .. => true
  | _ => false

/-- The fields of an instruction of the 32-bit layouts that may name a register. -/
def namesReg (w : Nat) (d : Reg) : Bool :=
  [w / 2 ^ 22, w / 2 ^ 17, w / 2 ^ 12, w / 2 ^ 7].any fun x => x % 32 == d.toNat

/-- The general register of a second operand, if it is one. -/
def vopGeneral : VOp → List Reg
  | .vs r => [r]
  | _ => []

/-- The general registers that a dispatched instruction reads as addresses or data. -/
def generalSources : Instr → List Reg
  | .vadd _ _ b _ | .vsub _ _ b _ | .vmul _ _ b _ | .vmulh _ _ b _ | .vand _ _ b _ | .vor _ _ b _ | .vxor _ _ b _
  | .vsll _ _ b _ | .vsrl _ _ b _ | .vsra _ _ b _ | .vmin _ _ b _ | .vmax _ _ b _ | .vminn _ _ b _ | .vmaxn _ _ b _
  | .vsadd _ _ b _ | .vssub _ _ b _ | .vfadd _ _ b _ | .vfsub _ _ b _ | .vfmul _ _ b _ | .vfmadd _ _ b _
  | .vfnmsub _ _ b _ | .vfdiv _ _ b _ | .vfmin _ _ b _ | .vfmax _ _ b _ | .vfscale _ _ b _ | .vfsgnj _ _ b _
  | .vcmpEq _ _ b _ | .vcmpNe _ _ b _ | .vcmpLt _ _ b _ | .vcmpLe _ _ b _ | .vcmpGt _ _ b _ | .vcmpGe _ _ b _
  | .vcmpLtn _ _ b _ | .vcmpLen _ _ b _ | .vcmpGtn _ _ b _ | .vcmpGen _ _ b _ | .vfcmpEq _ _ b _ | .vfcmpNe _ _ b _
  | .vfcmpLt _ _ b _ | .vfcmpLe _ _ b _ | .vfcmpGt _ _ b _ | .vfcmpGe _ _ b _ | .vslideup _ _ b _ | .vslidedn _ _ b _
  | .vmerge _ _ b _ | .vext _ _ b => vopGeneral b
  | .vbcast _ b _ | .vmvsx _ b | .vredsum _ _ b _ | .vredmax _ _ b _ | .vredmin _ _ b _ | .vfredsum _ _ b _
  | .vfredosum _ _ b _ | .vfredmax _ _ b _ | .wmpub _ b | .cpb _ b => [b]
  | .vsetvl _ a b | .vwin _ a b | .vlds _ a b _ _ | .vsts _ a b _ _ | .vwait a b | .awdecl a b => [a, b]
  | .vld _ a _ _ | .vst _ a _ _ | .vlseg _ a _ _ _ | .vsseg _ a _ _ _ | .vldx _ a _ _ _ | .vstx _ a _ _ _
  | .vamoAdd _ a _ _ | .vamoSwap _ a _ _ | .vamoMin _ a _ _ | .vamoMax _ a _ _ | .vamoAnd _ a _ _ | .vamoOr _ a _ _
  | .vamoXor _ a _ _ | .awmerge a | .wmset _ a | .gjoin _ a | .vsbind _ a | .vspill _ a | .vfill _ a | .cpyx a _
  | .swpout _ a | .swpin _ a | .xfer _ a | .launch _ a | .launchNb _ a => [a]
  | .cpy d a b _ => [d, a, b]
  | _ => []

/-- The transfer that an instruction is under the `vtype` of the current hart. -/
def transferOf (s : State) : Instr → Option Xfer
  | .vld v a m w => plain .load .unit [v] a m w
  | .vlds v a b m w => plain .load (.strided b) [v] a m w
  | .vldx v a b m w => plain .load (.indexed b) [v] a m w
  | .vlseg v a nf m w => plain .load .segment (fieldRegs v nf) a m w
  | .vst v a m w => plain .store .unit [v] a m w
  | .vsts v a b m w => plain .store (.strided b) [v] a m w
  | .vstx v a b m w => plain .store (.indexed b) [v] a m w
  | .vsseg v a nf m w => plain .store .segment (fieldRegs v nf) a m w
  | .vamoAdd v a b m | .vamoSwap v a b m | .vamoMin v a b m | .vamoMax v a b m | .vamoAnd v a b m | .vamoOr v a b m
  | .vamoXor v a b m => plain .atomic (.indexed b) [v] a m .x1
  | _ => none
where
  /-- A transfer of a kind and memory width, if `vtype` serves it. -/
  plain (acc : Acc) (kind : XKind) (regs : List Reg) (a : Reg) (m : Reg3) (w : MemW) : Option Xfer :=
    match xferMode s (acc == .store) kind w with
    | .ok (md, mt) => some { kind := kind, acc := acc, regs := regs, base := a, mask := m, md := md, mt := mt }
    | .error _ => none

/-- The runs of bytes that an instruction of the current hart accesses besides the chunks of its streams; of a transfer those of
the elements left, or of all elements when its mask is not known yet. -/
def accessRuns (s : State) (known : Bool) (i : Instr) : List (Nat × Nat) :=
  match transferOf s i, i with
  | some x, _ =>
    (activeIdx s (if known then x.mask else 0) (vstartOf s) (vlOf s)).flatMap fun j => (x.reached s j).map (·, x.mb)
  | none, .vspill v a | none, .vfill v a =>
    (replicaAddr s (baseAddr s a), 64) ::
      (List.range (vreg s v).win.len.toNat).map fun r => (replicaAddr s (imageRow s a r), rowBytes s)
  | none, .vsbind _ a | none, .cpyx a _ | none, .swpout _ a | none, .swpin _ a | none, .xfer _ a | none, .launch _ a
  | none, .launchNb _ a => [(baseAddr s a, 64)]
  | none, .vwait a _ => [(baseAddr s a, 8)]
  | none, .awmerge _ =>
    match s.hart.accWin with
    | some w => [(w.base, w.size)]
    | none => []
  | none, _ => []

/-- An instruction reads a vector register. -/
def readsVector (v : Reg) (i : Instr) : Bool := (rolesOf i).vr.contains v

/-- The runs of bytes of chunk `c` of a binding, with the entries that it reads to find them (R264). -/
def chunkBytesOf (s : State) (r : List Byte) (c : Nat) : List (Nat × Nat) :=
  let base := recField r 8 8
  let entries : List (Nat × Nat) := match recField r 0 1 with
    | 3 => [(base, 16 * recField r 16 4)]
    | 4 =>
      let n := 2 ^ recField r 28 1
      [((BitVec.ofNat 64 (recField r 16 8) + BitVec.ofNat 64 c * BitVec.ofNat 64 n : Word).toNat, n)]
    | _ => []
  (entries ++ match chunkRuns s r c with
    | .ok l => l.map fun x => (x.1.toNat, x.2)
    | .error _ => []).map fun x => (replicaAddr s x.1, x.2)

/-- A run of bytes shares one with the moved slot. -/
def inSlot (m : Move) (r : Nat × Nat) : Bool := overlaps r.1 r.2 m.oldBase.toNat m.oldSize.toNat

/-- What an instruction of the current hart reads of its streams touches the slot; `unfed` are the dispatched instructions before
it that have not received their chunks. -/
def chunksTouch (s : State) (m : Move) (unfed : List Instr) (i : Instr) : Bool :=
  !s.hart.fed && s.hart.streams.any fun b =>
    let k := b.pos + (unfed.filter (readsVector b.reg)).length
    readsVector b.reg i && k < chunkCount b.record && (b.tag == m.slot || (chunkBytesOf s b.record k).any (inSlot m))

/-- What an instruction accesses is decided by what comes before it: the vector length, the windows, the offsets. Until that has
executed it is taken to touch the slot. -/
def undecided (before : List Instr) (i : Instr) : Bool :=
  before.any (fun
    | .vsetvl .. | .vsetvli .. | .vwin .. => true
    | _ => false) ||
    (!before.isEmpty && match i with
      | .vldx .. | .vstx .. | .vamoAdd .. | .vamoSwap .. | .vamoMin .. | .vamoMax .. | .vamoAnd .. | .vamoOr ..
      | .vamoXor .. => true
      | _ => false)

/-- An accepted engine command touches the slot: by the tag of its operand, or by a byte that it still accesses, its directory entry
among them (R77, R281). -/
def engineTouches (s : State) (m : Move) (e : EngineCmd) : Bool :=
  e.tag == m.slot || inSlot m (entryAddr s e.partId e.session, 64) || e.reads.any (inSlot m) || e.writes.any (inSlot m)

/-- The kind of an engine instruction, and its operand. -/
def engineOf : Instr → Option (EngineKind × Reg)
  | .swpout _ a => some (.swpout, a)
  | .swpin _ a => some (.swpin, a)
  | .xfer _ a => some (.xfer, a)
  | _ => none

/-- An instruction writes memory, as far as the hart's later accesses are concerned. -/
def writesMemory : Instr → Bool
  | .vst .. | .vsts .. | .vstx .. | .vsseg .. | .vspill .. | .vamoAdd .. | .vamoSwap .. | .vamoMin .. | .vamoMax .. | .vamoAnd ..
  | .vamoOr .. | .vamoXor .. | .awmerge .. | .cpy .. | .cpyx .. | .swpout .. | .swpin .. | .xfer .. => true
  | _ => false

/-- The command that an engine instruction of the queue would be accepted as touches the slot: its entry, its lists, its blocks, its
status (R77). Behind an instruction that writes memory it is not known yet what it will read: then it is taken to touch the slot. -/
def commandTouches (s : State) (m : Move) (before : List Instr) (i : Instr) : Bool :=
  match engineOf i with
  | none => false
  | some (k, a) =>
    before.any writesMemory ||
      match checkCommand s k (replicaAddr s (baseAddr s a)) with
      | .error _ => false
      | .ok r =>
        (controlRuns s k r).any (inSlot m) ||
          match decideCommand s k (baseTag s a) r with
          | .ok (.inr c) => engineTouches s m c
          | _ => false

/-- A dispatched instruction of the current hart touches the slot: a copy is looked at as such. -/
def instrTouches (s : State) (m : Move) (before unfed : List Instr) (i : Instr) : Bool :=
  (generalSources i).any (fun r => baseTag s r == m.slot) || chunksTouch s m unfed i || commandTouches s m before i ||
    if undecided before i then vectorAccess i else (accessRuns s before.isEmpty i).any (inSlot m)

/-- The dispatched instructions of a list touch the slot, each with the registers that its dispatch captured; those behind the first
begin at their first element. -/
def queueTouches (s : State) (m : Move) : List Instr → List Instr → List QEntry → Bool
  | _, _, [] => false
  | before, unfed, q :: l =>
    instrTouches { s with hart := { s.hart with regs := q.regs } } m before unfed q.instr ||
      queueTouches (setVstart { s with hart := { s.hart with fed := false } } 0) m (before ++ [q.instr])
        (if s.hart.fed then unfed else unfed ++ [q.instr]) l

/-- The instructions that the running loop context of the current hart has dispatched touch the slot. -/
def dispatchTouches (s : State) (m : Move) : Bool :=
  if !s.hart.queue.isEmpty then queueTouches s m [] [] s.hart.queue
  else s.hart.inFlight && s.hart.current.any fun x => instrTouches s m [] [] x.2

/-- The same, of a context and its replicas. -/
def contextTouches (s : State) (m : Move) (h : Hart) : Bool :=
  let t := { s with hart := h }
  dispatchTouches t m || h.par.any fun p => p.rest.any fun r => dispatchTouches (runReplica t p r) m

/-! ### Other things in flight (R77) -/

/-- A copy of an affected context touches the slot of a move and is in flight (R77). -/
def copyTouches (m : Move) (c : Copy) : Bool :=
  let row (i : Nat) : Bool :=
    inSlot m (onSlab (c.slab.getD 0) (c.dst + BitVec.ofNat 64 i * c.dstPitch).toNat, c.rowBytes) ||
      inSlot m (onSlab (c.slab.getD 0) (c.src + BitVec.ofNat 64 i * c.srcPitch).toNat, c.rowBytes)
  !c.logged && (c.dstTag == m.slot || c.srcTag == m.slot || c.tag == m.slot || (List.range c.rows).any row)

/-- Something in flight of a context touches the slot of a move (R77). What stands in the queue of a pre-empted context is rebased
with it (R78). -/
def inFlightTouches (s : State) (m : Move) (h : Hart) : Bool :=
  (h.phase != .preempted &&
    (s.copies.any (fun c => c.cid == h.cid && copyTouches m c) || contextTouches s m h)) ||
    h.posted.any (fun p => p.tags.contains m.slot || inSlot m (p.addr, p.data.length)) ||
    s.merges.any (fun x => x.cid == h.cid && (x.tag == m.slot || inSlot m (x.win.base, x.win.size))) ||
    s.engines.any (fun e => e.cid == h.cid && engineTouches s m e)

/-! ### `mvreq` (R75 to R77, R79) -/

/-- Record `n` of another table: the 32 bytes at ga + 32 n, read through its address register under R72. That these bytes are
what is checked of the table, and that they are read before R79's rows, is a DESIGN CHOICE (log 36). -/
def readTable (s : State) (a : Reg) (n : BitVec 8) : Except Exc Record := do
  let x := recordAddr (gval s a) n
  checkSlot s .load (baseTag s a) x 32
  if field (gval s a) 0 5 ≠ 0 then throw (excAt 18 (baseAddr s a))
  checkPlain s .load x 32
  checkWindow s x 32
  checkedRecord s x

/-- The harts of a move have stopped and what touches the slot has performed. -/
def moveQuiet (s : State) (m : Move) : Bool :=
  ((contexts s).filter (usesTable m)).all fun h =>
    (h.phase == .preempted || h.phase == .exiting || h.stopped) && !inFlightTouches s m h

/-- The contexts that a move stops, for its count. -/
def moveCount (s : State) (m : Move) : Word :=
  BitVec.ofNat 64 ((contexts s).filter fun h => usesTable m h && h.phase != .exiting).length

/-- The open move of the current hart. -/
def ownMove (s : State) : Option Move := s.moves.find? (·.manager == s.hart.cid)

/-- Stop the harts of a move: a parked one stops in place, a running one at its next stop point (R76). -/
def requestStops (s : State) (m : Move) : State :=
  mapContexts (fun h =>
    if usesTable m h then
      if h.phase = .parked ∨ h.queuedWait then { (settled s h) with stopped := true }
      else if h.phase = .launched then { h with stopPending := !h.stopped }
      else h
    else h) s

/-- `mvreq` completes once its harts have stopped (R77); until then it is executed again. -/
def finishMove (s : State) (m : Move) : Out :=
  if moveQuiet s m then
    let n := moveCount s m
    let t := { s with moves := s.moves.map fun x => if x.manager = m.manager then { x with done := true } else x }
    finish t 4 m.d (result n m.lease)
  else stall s

/-- The rows of R79 that turn a new `mvreq` away: a cause, or a wait for another move of the table or for a
load that reads it (R380). -/
def moveClash (s : State) (table : Word) (r : Record) : Except Exc Bool :=
  let e54 : Exc := { code := 54, tval := table }
  let every := mode s == modeD
  let probe : Move := { manager := s.hart.cid, table := table, slot := 0, oldBase := 0, oldSize := 0, everyPart := every,
                        partId := s.hart.partId, done := false, pc := 0, d := 0, lease := {} }
  if (ownMove s).isSome then .error { code := 1, tval := 0 }
  else if s.hart.csr.slotbase = table then .error e54
  else if s.moves.any (·.table == table) || s.svc.calls.any (fun c => c.fn == 1 && c.args[3] == table) then .ok true
  else if (contexts s).any fun h => usesTable probe h && s.moves.any (·.manager == h.cid) then .error e54
  else if (contexts s).any fun h =>
      (every || h.partId == s.hart.partId) &&
        match h.accWin with
        | some w => overlaps w.base w.size r.base r.size
        | none => false
  then .error e54
  else .ok false

/-- A first or repeated execution of `mvreq`: the move that waits at this instruction goes on. -/
def moveRequest (s : State) (d a : Reg) (n : BitVec 8) : Out :=
  let table := gval s a
  checked s (readTable s a n) fun r =>
    if (placeOf r.base).isLocal then raise s (excAt 23 r.base)
    else match (ownMove s).filter fun m => m.table == table && m.slot == n && !m.done && m.pc == s.hart.pc with
      | some m => finishMove s m
      | none =>
        checked s (moveClash s table r) fun wait =>
          if wait then stall s
          else
            let m : Move :=
              { manager := s.hart.cid, table := table, slot := n, oldBase := BitVec.ofNat 64 r.base,
                oldSize := BitVec.ofNat 64 r.size, everyPart := mode s == modeD, partId := s.hart.partId,
                done := false, pc := s.hart.pc, d := d, lease := (gpr s a).lease }
            finishMove (requestStops { s with moves := s.moves ++ [m] } m) m

def execMvreq (d a : Reg) (n : BitVec 8) (s : State) : Out :=
  if mode s = modeU then raise s { code := 3, tval := instrBits (.mvreq d a n) }
  else if !slotNumOk n then raise s { code := 1, tval := instrBits (.mvreq d a n) }
  else if mustWait s false (recordAddr (gval s a) n) 32 then stall s
  else moveRequest s d a n

/-- The move of context `h` completes its `mvreq` (R77), unless a trap has led the hart away from it. -/
def execMvreqComplete (h : Nat) (s : State) : Out :=
  asHart s h fun t =>
    match (ownMove t).filter fun m => !m.done && m.pc == t.hart.pc && t.hart.phase == .launched with
    | some m => finishMove t m
    | none => .next t

/-! ### `mvcommit` (R78) -/

/-- A register tagged with the moved slot is rebased; tag and leases are kept (R78). -/
def rebaseReg (n : BitVec 8) (delta : Word) (x : GReg) : GReg := if x.tag = n then { x with val := x.val + delta } else x

/-- The machine as a context reads its own memory: a pre-empted one has its scratchpad range in its context (R342). -/
def contextView (s : State) (h : Hart) : State :=
  let t := { s with hart := h }
  if h.phase = .preempted then
    setFrontEnd t (feOf h.slot) { frontEnd t (feOf h.slot) with scratch := h.savedScratch, scratchPoison := h.savedPoison }
  else t

/-- The record address of a binding after the move. -/
def Stream.moved (n : BitVec 8) (delta : Word) (b : Stream) : Word := if b.tag = n then b.addr + delta else b.addr

/-- Every binding of a released context reads its record again, from an address that is rebased if it carries the moved slot's
tag (R267, R80, R78; log 43). -/
def rebaseStream (s : State) (n : BitVec 8) (delta : Word) (b : Stream) : Stream :=
  let a := b.moved n delta
  { b with addr := a, record := readBytes s a.toNat 64 }

/-- The first poisoned byte of the records that the contexts of a move read again (R399; log 52). -/
def poisonedRecord (s : State) (m : Move) (delta : Word) : Option Nat :=
  ((contexts s).filter (usesTable m)).findSome? fun h =>
    h.streams.findSome? fun b => firstPoisoned (contextView s h) (b.moved m.slot delta).toNat 64

/-- The captured registers of a queued instruction, and of the scalar side, with those of the moved slot rebased (R78). -/
def QEntry.rebase (n : BitVec 8) (delta : Word) (q : QEntry) : QEntry := { q with regs := q.regs.map (rebaseReg n delta) }

/-- A scalar instruction that has run ahead has executed before the move: what it wrote is rebased like a register (R78). -/
def Ran.rebase (n : BitVec 8) (delta : Word) (x : Ran) : Ran :=
  { x with dest := x.dest.map fun d => (d.1, rebaseReg n delta d.2), moved := true }
def Front.rebase (n : BitVec 8) (delta : Word) (f : Front) : Front :=
  { f with regs := f.regs.map (rebaseReg n delta), ran := f.ran.map (Ran.rebase n delta) }

/-- The registers of a replica, rebased (R35); a transfer that it has in flight is checked again. -/
def Replica.rebase (n : BitVec 8) (delta : Word) (r : Replica) : Replica :=
  { r with
    regs := r.regs.map (rebaseReg n delta)
    flight := { r.flight with
      probed := none
      queue := r.flight.queue.map (QEntry.rebase n delta)
      front := r.flight.front.map (Front.rebase n delta) } }

/-- `mvcommit` in one context (R78, R35). -/
def rebaseHart (s : State) (n : BitVec 8) (delta : Word) (gen : BitVec 32) (h : Hart) : Hart :=
  { (released s h) with
    regs := h.regs.map (rebaseReg n delta)
    probed := none
    par := (settled s h).par.map fun p =>
      { p with rest := p.rest.map (Replica.rebase n delta), ended := p.ended.map (Replica.rebase n delta) }
    streams := h.streams.map (rebaseStream (contextView s h) n delta)
    queue := h.queue.map (QEntry.rebase n delta)
    front := h.front.map (Front.rebase n delta)
    genCache := h.genCache.set n.toNat gen }

/-- Addresses of a copy that is logged, or stands in the queue of a pre-empted context, that carry the tag (R78, R312). -/
def rebaseCopy (n : BitVec 8) (delta : Word) (c : Copy) : Copy :=
  { c with
    dst := if c.dstTag = n then c.dst + delta else c.dst
    src := if c.srcTag = n then c.src + delta else c.src }

/-- A move commits to both copies of a pre-empted context: the save areas that hold one are written anew (R341). -/
def refreshAreas (s : State) (m : Move) : State :=
  (s.saved.filter fun h => h.areaWritten && usesTable m h).foldl writeArea s

/-- The commit of an open move whose record now reads `r`. -/
def commitMove (s : State) (d : Reg) (m : Move) (r : Record) (l : LeaseSet) : Out :=
  let delta := BitVec.ofNat 64 r.base - m.oldBase
  let hs := (contexts s).filter (usesTable m)
  let count := moveCount s m
  match poisonedRecord s m delta with
  | some x => raise s (excAt 31 x)
  | none =>
    let t := mapContexts (fun h => if usesTable m h then rebaseHart s m.slot delta r.gen h else h) s
    let t := { t with
      moves := t.moves.filter (·.manager != m.manager)
      copies := t.copies.map fun c => if hs.any (fun h => h.cid == c.cid) then rebaseCopy m.slot delta c else c }
    finish (refreshAreas t m) 4 d (result count l)

/-- `mvcommit` (R78), once every store that the manager has issued is visible (R15). That a record which cannot be read raises its
cause before cause 1 for a move that is not open, and that a move whose `mvreq` has not completed is not open to it (its manager is in
a handler then), are DESIGN CHOICES (log 37). -/
def execMvcommit (d a : Reg) (n : BitVec 8) (s : State) : Out :=
  if mode s = modeU then raise s { code := 3, tval := instrBits (.mvcommit d a n) }
  else if !slotNumOk n then raise s { code := 1, tval := instrBits (.mvcommit d a n) }
  else if mustWait s false (recordAddr (gval s a) n) 32 || !scalarQuiet s then stall s
  else checked s (readTable s a n) fun r =>
    match (ownMove s).filter fun m => m.table == gval s a && m.slot == n && m.done with
    | some m => commitMove s d m r (gpr s a).lease
    | none => raise0 s 1

end Sys2Proof.Machine
end

