-- ==== Sys2Proof/Machine/Fetch.lean ====
section
/-!
DEFINITION. Fetching an instruction (R84 to R86), the classes of instructions that dispatch distinguishes (R22, R249), issue
beats (R39 to R41), and the causes that a hart takes between instructions (R350, R352, R353).
-/

namespace Sys2Proof.Machine

/-! ### Fetch (R84, R85) -/

/-- The halfword at `a`, as the current hart fetches it: checked, not poisoned; `n` tells this fetch from others. A halfword
that was stored to since the last `flushi` is seen as it was then or as it is (log 6); a refusal from the far side of a window
is its own cause (log 35). A device register that the spec does not describe reads zeros here (log 34). -/
def fetchHalf (s : State) (n a : Nat) : Except Exc Nat :=
  match checkPlain s .fetch a 2, farError s .fetch a, firstPoisoned s a 2 with
  | .error e, _, _ => .error { e with tval := BitVec.ofNat 64 a }
  | .ok _, some e, _ => .error { e with tval := BitVec.ofNat 64 a }
  | .ok _, none, some _ => .error (excAt 11 a)
  | .ok _, none, none =>
    let new := readNat s a 2
    let old := (frontEnd s (feOf s.hart.slot)).imem.readNat (canon a) 2
    .ok (if new = old ∨ placeOf a = .device then new else if Config.staleFetch n then old else new)

/-- Halfwords `i` to `n − 1` of the instruction at `pc`. -/
def fetchRest (s : State) (pc : Word) (n : Nat) : Nat → Except Exc (List Byte)
  | 0 => .ok []
  | k + 1 =>
    match fetchHalf s (s.draws + (n - (k + 1))) (pc + BitVec.ofNat 64 (2 * (n - (k + 1)))).toNat with
    | .error e => .error e
    | .ok x =>
      match fetchRest s pc n k with
      | .error e => .error e
      | .ok l => .ok (leBytes 2 x ++ l)

/-- The bytes of the current hart's next instruction (R84). -/
def fetchBytes (s : State) : Except Exc (List Byte) :=
  let pc := s.hart.pc
  if bit pc 0 then .error { code := 7, tval := pc }
  else match fetchHalf s s.draws pc.toNat with
    | .error e => .error e
    | .ok x =>
      let n := lengthBits x / 16
      match fetchRest s pc n (n - 1) with
      | .error e => .error e
      | .ok l => .ok (leBytes 2 x ++ l)

/-- What the front end finds at a hart's program counter. -/
inductive Fetched where
  | fault (e : Exc)
  | bad (e : DecodeError) (raw : Word)
  | instr (i : Instr)
  deriving DecidableEq, Repr

/-- The instruction address is the enabled breakpoint, in mode U (R353). -/
def atBreakpoint (s : State) : Bool :=
  let w := (slotCfg s s.hart.slot).breakpoint
  bit w 0 && mode s == modeU && w &&& ~~~1 == s.hart.pc

/-- Fetch and decode at the current hart's program counter; a breakpoint comes after the fetch checks. -/
noncomputable def fetch (s : State) : Fetched :=
  match fetchBytes s with
  | .error e => .fault e
  | .ok bs =>
    if atBreakpoint s then .fault { code := 8, tval := s.hart.pc }
    else match decode bs with
      | .ok (i, _) => .instr i
      | .error e => .bad e (BitVec.ofNat 64 (leNat bs))

/-- A pattern that is not an instruction (R86). -/
def execIllegalEncoding (e : DecodeError) (raw : Word) (s : State) : Out := raise s { code := e.cause, tval := raw }

/-! ### Classes (R22, R76, R249) -/

/-- How an instruction is dispatched. -/
inductive DispatchClass where
  /-- by the scalar pipeline alone -/
  | scalar
  /-- a branch or jump, a back-edge: it completes wherever it goes -/
  | jump
  /-- through the decoupling queue; a region discards copies among these after their dispatch (R315) -/
  | queued
  /-- through the queue, and discarded in the body of a region whose mask is empty -/
  | skippable
  /-- the same, for a load -/
  | skippableLoad
  deriving DecidableEq, Repr

/-- The class of an instruction. -/
def dispatchClass : Instr → DispatchClass
  | .vadd .. | .vsub .. | .vmul .. | .vmulh .. | .vand .. | .vor .. | .vxor .. | .vsll .. | .vsrl .. | .vsra ..
  | .vmin .. | .vmax .. | .vminn .. | .vmaxn .. | .vsadd .. | .vssub .. | .vfadd .. | .vfsub .. | .vfmul ..
  | .vfmadd .. | .vfnmsub .. | .vfdiv .. | .vfmin .. | .vfmax .. | .vfscale .. | .vfsgnj .. | .vfsqrt .. | .vfrecip ..
  | .vfrsqrt .. | .vfround .. | .vcmpEq .. | .vcmpNe .. | .vcmpLt .. | .vcmpLe .. | .vcmpGt .. | .vcmpGe ..
  | .vcmpLtn .. | .vcmpLen .. | .vcmpGtn .. | .vcmpGen .. | .vfcmpEq .. | .vfcmpNe .. | .vfcmpLt .. | .vfcmpLe ..
  | .vfcmpGt .. | .vfcmpGe .. | .mand .. | .mor .. | .mxor .. | .mandn .. | .mnot .. | .mmv .. | .mpop .. | .mfirst ..
  | .mset .. | .vslideup .. | .vslidedn .. | .vgather .. | .vcompress .. | .vbcast .. | .vid .. | .vmerge .. | .vmv ..
  | .vmvsx .. | .vmvxs .. | .vext .. | .vcvt .. | .vcvti .. | .vquant .. | .vredsum .. | .vredmax .. | .vredmin ..
  | .vfredsum .. | .vfredosum .. | .vfredmax .. | .vst .. | .vsts .. | .vstx .. | .vsseg .. | .vspill ..
  | .mattach .. | .mdetach | .mzero | .vmma .. | .vmmas .. | .mext .. | .mins .. => .skippable
  | .vld .. | .vlds .. | .vldx .. | .vlseg .. | .vfill .. => .skippableLoad
  | .vsetvli .. | .vsetvl .. | .vwin .. | .vamoAdd .. | .vamoSwap .. | .vamoMin .. | .vamoMax .. | .vamoAnd ..
  | .vamoOr .. | .vamoXor .. | .vwait .. | .vsred .. | .awdecl .. | .awmerge .. | .wmpub .. | .wmset .. | .wmclr ..
  | .gbar | .gjoin .. | .gleave | .vregion .. | .vrend | .vsbind .. | .vsunbind .. | .cpy .. | .cpyx .. | .cpb .. | .cpwait .. | .swpout ..
  | .swpin .. | .xfer .. | .launch .. | .launchNb .. => .queued
  | .beq .. | .bne .. | .blt .. | .bge .. | .bltn .. | .bgen .. | .jal .. | .jalr .. | .vloop .. | .vloopP .. | .bany ..
  | .ball .. | .bnone .. | .bsend .. | .vlend | .cBeqz .. | .cBnez .. | .cJ .. | .cJr .. | .cVlend => .jump
  | _ => .scalar

/-- The length of an instruction that a region can discard. -/
def skipLength : Instr → Nat
  | .mattach .. | .mdetach | .mzero | .vmma .. | .vmmas .. | .mext .. | .mins .. => 8
  | _ => 4

/-- Dispatch goes through the decoupling queue. -/
def DispatchClass.isQueued : DispatchClass → Bool
  | .queued | .skippable | .skippableLoad => true
  | .scalar | .jump => false

/-- A `cpb` holds the instruction back: it accesses memory, or it may read a register bound to a stream. A `vwait` waits parked
(R182). -/
def heldByCpb (s : State) (i : Instr) : Bool :=
  let waits := match i with
    | .vwait .. => true
    | _ => false
  !waits && gated s (s.nextId + 1) && (vectorAccess i || (!s.hart.streams.isEmpty && (dispatchClass i).isQueued))

/-- An instruction changes what all replicas of a parallel loop have in common while another one is part-way (R32): it waits. -/
def waitsForReplicas (s : State) (i : Instr) : Bool :=
  (s.hart.par.any fun p => p.rest.any (·.flight.part)) && match i with
    | .vsetvl .. | .vsetvli .. | .vwin .. => true
    | _ => false

/-- An access of the vector agent (R123, R135): of memory, by a copy, or of a stream's chunks. A `vwait` waits parked. -/
def vectorSide (s : State) (i : Instr) : Bool :=
  match i with
  | .vwait .. => false
  | .cpy .. | .cpyx .. => true
  | _ => vectorAccess i || !(boundSources s (rolesOf i).vr).isEmpty

/-- An access of the scalar agent (R123, R135). -/
def scalarAccess : Instr → Bool
  | .ldb .. | .ldh .. | .ldw .. | .ldd .. | .ldbn .. | .ldhn .. | .ldwn .. | .ldbAcq .. | .ldhAcq .. | .ldwAcq .. | .lddAcq ..
  | .ldbnAcq .. | .ldhnAcq .. | .ldwnAcq .. | .stb .. | .sth .. | .stw .. | .std .. | .stbRel .. | .sthRel .. | .stwRel ..
  | .stdRel .. | .amoadd .. | .amoswap .. | .amocas .. | .amomin .. | .amomax .. | .amoand .. | .amoor .. | .amoxor ..
  | .waitw .. | .gspill .. | .gfill .. | .lslot .. | .mvreq .. | .mvcommit .. | .cLdd .. | .cLdw .. | .cStd .. => true
  | _ => false

/-- An earlier fence of the hart holds the access back (R123). -/
def fenced (s : State) (i : Instr) : Bool := (vectorFenced s && vectorSide s i) || (scalarFenced s && scalarAccess i)

/-- An instruction that takes a lease ID of its own (R140). -/
def takesLease : Instr → Bool
  | .ldb .. | .ldh .. | .ldw .. | .ldd .. | .ldbn .. | .ldhn .. | .ldwn .. | .ldbAcq .. | .ldhAcq .. | .ldwAcq .. | .lddAcq ..
  | .ldbnAcq .. | .ldhnAcq .. | .ldwnAcq .. | .amoadd .. | .amoswap .. | .amocas .. | .amomin .. | .amomax .. | .amoand ..
  | .amoor .. | .amoxor .. | .waitw .. | .gfill .. | .cLdd .. | .cLdw .. | .vld .. | .vlds .. | .vldx .. | .vlseg .. | .vfill ..
  | .vamoAdd .. | .vamoSwap .. | .vamoMin .. | .vamoMax .. | .vamoAnd .. | .vamoOr .. | .vamoXor .. => true
  | _ => false

/-- An ID that the instruction is to take is held by a load of another replica that has not performed (R130): it waits. -/
def leaseHeld (s : State) (i : Instr) : Bool :=
  match s.hart.par with
  | none => false
  | some p =>
    let own := if takesLease i ∧ s.hart.inProgress.isNone then 1 else 0
    let chunks := if s.hart.fed then 0 else (boundSources s (rolesOf i).vr).length
    let next := (List.range (own + chunks)).map fun k => s.hart.leaseNext + BitVec.ofNat 4 k
    p.rest.any fun r => r.flight.inProgress.any next.contains

/-- A store of the hart to its rows has not performed: an instruction of the vector side waits for it (R67). -/
def rowsPosted (s : State) : Bool := (ownPosted s).any fun p => placeOf p.addr == .rows

/-- What happens to an instruction before it executes: a pending move stop takes effect at its dispatch (R76), dispatch stalls on a
full queue (R22), it is discarded by a region (R250), or it is held back (R323); `none` if it executes. -/
def beforeExec (s : State) (i : Instr) : Option State :=
  let c := dispatchClass i
  if c.isQueued ∧ s.hart.stopPending ∧ !s.hart.underWay then some (stopNow s)
  else if c.isQueued ∧ !s.hart.underWay ∧ queueFull s then some s
  else if leaseHeld s i then some s
  else if c = .skippable ∧ skipping s then some (advance (skipLength i) s)
  else if c = .skippableLoad ∧ skipping s then some (advance (skipLength i) (takeId s))
  else if heldByCpb s i || waitsForReplicas s i || fenced s i || (c.isQueued && rowsPosted s) then some s
  else none

/-! ### Between instructions -/

/-- The current hart stands at a boundary: no instruction of its is part-way done. -/
def atBoundary (s : State) : Bool := !s.hart.inFlight

/-- What the current hart takes at a boundary before it fetches: a cold-tier error of an earlier store (R350), or cause 12
(R353), for which the instruction must have passed its horizon; asynchronous causes come after them (R352). -/
def boundaryCause (s : State) : Option State :=
  match s.hart.coldErrors, s.hart.owes12 with
  | a :: l, _ => some (trap { s with hart := { s.hart with coldErrors := l } } (excAt 30 a))
  | [], some pc =>
    if beforeHorizon s then none
    else some (trap { s with hart := { s.hart with owes12 := none } } { code := 12, tval := pc })
  | [], none => none

/-- An asynchronous cause ends this wait (R352). -/
def Wait.endsByAsync : Wait → Bool
  | .waitw .. | .vwait .. | .cpwait .. | .launch .. => true
  | .none | .gbar | .vsred .. | .ecall => false

/-- The current hart may take a pending asynchronous cause now: a cause 12 that it is owed comes first (R352, R353). -/
def asyncReady (s : State) : Bool :=
  let h := s.hart
  asyncOpen h && !h.stopped && !(pendingOf s h).isEmpty && atBoundary s && h.owes12.isNone &&
    (h.phase == .launched || (h.phase == .parked && h.wait.endsByAsync))

/-- Context `h` takes its pending asynchronous cause of the highest code (R347, R352); a parked one at its wait. -/
def execTrapEntry (h : Nat) (s : State) : Out :=
  asHart s h fun t => .next (if asyncReady t then takeAsync t else t)

/-! ### What a hart does next -/

/-- What the current hart does in its turn. -/
inductive Plan where
  /-- a waiting scalar result is written -/
  | reply
  /-- a cause of the boundary is taken -/
  | boundary (t : State)
  /-- nothing: a copy to a far home has not passed its horizon (R350) -/
  | hold
  /-- an asynchronous cause is taken -/
  | async
  | fault (e : Exc)
  | bad (e : DecodeError) (raw : Word)
  /-- the instruction does not execute: it is discarded, or waits -/
  | skip (i : Instr) (t : State)
  | instr (i : Instr)
  deriving DecidableEq, Repr

/-- The majors of the instructions that take all their general registers from the fields of the 32-bit layouts: plain scalar ones
and those of the vector groups. -/
def plainMajor (w : Nat) : Bool := w % 4 == 1 && w / 2 ^ 27 ≤ 9
def vectorMajor (w : Nat) : Bool := w % 4 == 1 && 0x0E ≤ w / 2 ^ 27 && w / 2 ^ 27 ≤ 0x14

/-- An instruction whose scalar result takes one of the hart's eight reply slots at dispatch (R227). -/
def hasReply : Instr → Bool
  | .mpop .. | .mfirst .. | .vmvxs .. | .vext .. | .vredsum .. | .vredmax .. | .vredmin .. | .vfredsum .. | .vfredosum ..
  | .vfredmax .. | .launch .. | .launchNb .. | .swpout .. | .swpin .. | .xfer .. | .gjoin .. => true
  | _ => false

/-- An instruction need not wait for the scalar results that are due: it names none of their registers, and a reply slot is free
(R22, R227). Any other instruction lets them be written first. -/
def passesReplies (s : State) (i : Instr) : Bool :=
  let w := encode i
  (plainMajor w || vectorMajor w) && (!hasReply i || s.hart.replies.length < 8) && s.hart.replies.all fun r => !namesReg w r.d

/-- The instruction at `pc`, if it has been fetched and has not completed: in flight, dispatched, or run ahead. It is not fetched
again (R85). -/
def fetchedBefore (s : State) : Option Instr :=
  let here (x : Word × Instr) : Option Instr := if x.1 = s.hart.pc then some x.2 else none
  match s.hart.current.bind here, (s.hart.queue.head?).bind fun q => here (q.pc, q.instr) with
  | some i, _ => some i
  | none, some i => some i
  | none, none => (s.hart.front.bind (·.ran.head?)).bind fun x => here (x.pc, x.instr)

/-- What the front end has for the current hart's program counter. -/
noncomputable def nextInstr (s : State) : Fetched :=
  match fetchedBefore s with
  | some i => .instr i
  | none => fetch s

/-- A `cpwait`, which may execute and park while copies of the hart have not passed their horizon (R325), unless a cause 12 waits for
that (R353). -/
def Fetched.isCpwait : Fetched → Bool
  | .instr (.cpwait _) => true
  | _ => false

/-- A held fault of the current hart or replica: it is delivered at the release (R77). -/
def deliverHeld (s : State) (x : Async) : Plan :=
  if s.hart.stopped then .hold
  else if !s.hart.replies.isEmpty then .reply
  else .boundary (trap { s with hart := { s.hart with heldFault := none } } { code := x.code, tval := x.tval })

/-- What the current hart does next, when nothing comes before its instruction. -/
noncomputable def planNext (s : State) : Plan :=
  match nextInstr s with
  | .fault e => if s.hart.replies.isEmpty then .fault e else .reply
  | .bad e raw => if s.hart.replies.isEmpty then .bad e raw else .reply
  | .instr i =>
    if !s.hart.replies.isEmpty ∧ !passesReplies s i then .reply
    else match beforeExec s i with
      | some t => .skip i t
      | none => .instr i

/-- Copies wait to be issued again after a restore: no later access of the hart goes before them (R312). -/
def reissues (s : State) : Bool := s.copies.any (·.cid == s.hart.cid) && !(toReissue s).isEmpty

/-- What the current hart does next. A stopped one does no more than finish what it has dispatched (R36). -/
noncomputable def planOf (s : State) : Plan :=
  match s.hart.heldFault, if atBoundary s ∧ !s.hart.stopped then boundaryCause s else none with
  | some x, _ => deliverHeld s x
  | none, some t => .boundary t
  | none, none =>
    if s.hart.stopped ∧ !s.hart.underWay then .hold
    else if atBoundary s ∧ asyncReady s then .async
    else if reissues s then .boundary (reissueAll s)
    else if beforeHorizon s ∧ !((nextInstr s).isCpwait && s.hart.owes12.isNone) then .hold
    else planNext s

/-! ### What may issue beside the oldest instruction (R42, R43, R51) -/

/-- An instruction whose groups may issue before its turn: it works on windows, masks, accumulator rows or memory alone (R42, R350). -/
def issuesAhead : Instr → Bool
  | .vamoAdd .. | .vamoSwap .. | .vamoMin .. | .vamoMax .. | .vamoAnd .. | .vamoOr .. | .vamoXor .. => true
  | i => dispatchClass i == .skippable || dispatchClass i == .skippableLoad

/-- What every later instruction does depends on this one: on the vector length, the windows, the bindings, the regions. -/
def decidesLater : Instr → Bool
  | .vsetvl .. | .vsetvli .. | .vwin .. | .vregion .. | .vrend | .vsbind .. | .vsunbind .. => true
  | _ => false

/-- Later accesses of the hart have their place behind this one (R114, R190, R194, R281, R323). -/
def ordersAccesses : Instr → Bool
  | .cpy .. | .cpyx .. | .cpb .. | .awdecl .. | .awmerge .. | .wmset .. | .wmclr .. | .swpout .. | .swpin .. | .xfer .. => true
  | _ => false

/-- A cross-lane instruction never chains as a consumer (R225), nor does a spill (R173). -/
def neverChains : Instr → Bool
  | .vslideup .. | .vslidedn .. | .vgather .. | .vcompress .. | .vredsum .. | .vredmax .. | .vredmin .. | .vfredsum ..
  | .vfredosum .. | .vfredmax .. | .vmvxs .. | .vext .. | .mpop .. | .mfirst .. | .vspill .. => true
  | _ => false

/-- A matrix multiply, which chains on its B registers alone (R301). -/
def isMultiply : Instr → Bool
  | .vmma .. | .vmmas .. => true
  | _ => false

/-- A spill or a fill, which conflicts with whatever shares its rows (R173). -/
def isSpill : Instr → Bool
  | .vspill .. | .vfill .. => true
  | _ => false

/-- The windows that an instruction reads and writes, under the numbers of their registers; those of scale registers count from 32. A
source that is bound to a stream is written by its chunk (R51). -/
def windowsOf (s : State) (i : Instr) : List (Nat × Window × Bool) :=
  let x := rolesOf i
  (x.vr.map fun v => (v.toNat, (vreg s v).win, (bindingOf s v).isSome)) ++ (x.vw.map fun v => (v.toNat, (vreg s v).win, true)) ++
    (x.kr.map fun k => (32 + k.toNat, (kreg s k).win, false)) ++ x.kw.map fun k => (32 + k.toNat, (kreg s k).win, true)

/-- A later instruction conflicts with an earlier one: their windows share rows under different names, and one of them writes there
(R51). -/
def conflicts (s : State) (later earlier : Instr) : Bool :=
  let named := isSpill later || isSpill earlier
  (windowsOf s later).any fun a => (windowsOf s earlier).any fun b =>
    (named || a.1 != b.1) && (a.2.2 || b.2.2) && a.2.1.shares b.2.1

/-- Two matrix instructions act on an accumulator row, and one of them writes it: they keep their order as whole instructions
(R287, R301). -/
def rowsMeet (later earlier : Instr) : Bool :=
  match accRows later, accRows earlier with
  | some a, some b => (a.2.2 || b.2.2) && a.1 < b.2.1 && b.1 < a.2.1
  | _, _ => false

/-- Both access memory, one of them writes, and they may meet (R150). -/
def accessesMeet (s : State) (later earlier : QEntry) : Bool :=
  let runs (q : QEntry) := accessRuns (setVstart { s with hart := { s.hart with regs := q.regs } } 0) false q.instr
  (writesMemory later.instr || writesMemory earlier.instr) &&
    (runs later).any fun a => (runs earlier).any fun b => meets a.1 a.2 b.1 b.2

/-- The vector registers in which an earlier instruction is a producer for a later one; and whether it is one in a mask or a scale
register (R43). -/
def feeds (earlier later : Instr) : List Reg := (rolesOf earlier).vw.filter (rolesOf later).vr.contains
def feedsBits (earlier later : Instr) : Bool :=
  (rolesOf earlier).mw.any (rolesOf later).mr.contains || (rolesOf earlier).kw.any (rolesOf later).kr.contains

/-- The groups of a register that its producer at `pc` has written. -/
def written (s : State) (v : Reg) : Nat := if (vreg s v).busy then (vreg s v).groups.toNat else 0

/-- A mask logical instruction, which works on mask groups (R234). -/
def isMaskLogic : Instr → Bool
  | .mand .. | .mor .. | .mxor .. | .mandn .. | .mnot .. | .mmv .. | .mset .. => true
  | _ => false

/-- The bits of a mask, or the elements whose scale bytes, the instruction at `pc` has written (R226, R238). -/
def bitsWritten (s : State) (i : Instr) : Nat := if isMaskLogic i then s.hart.issued * maskGroup s else vstartOf s

/-- The width of the elements in `vtype`, and that at which an instruction reads its sources. -/
def typeWidth (s : State) : Nat := ((ElemTy.ofCode (vtTy s.hart.csr.vtype)).map tyWidth).getD 8
def readWidth (s : State) : Instr → Nat
  | .vcvt _ _ src _ | .vcvti _ _ src _ => ((ElemTy.ofCode src.toNat).map tyWidth).getD (typeWidth s)
  | .vmma ty _ _ _ _ _ | .mins _ _ ty _ => tyWidth ty
  | .vmmas .. => 4
  | _ => typeWidth s

/-- How a queued instruction behind earlier ones stands to them: it cannot issue, it needs no chain, or it chains on these vector
registers of the oldest one, and on a mask or scale register of it or not (R43, R51). A younger instruction has written nothing that
another could chain on: its groups advance no index before its turn (R350). -/
inductive Link where
  | blocked
  | free
  | chain (rs : List Reg) (bits : Bool)
  deriving DecidableEq, Repr

def linkOf (s : State) (q : QEntry) : List QEntry → Link
  | [] => .free
  | e :: l =>
    let fed (x : QEntry) : Bool := !(feeds x.instr q.instr).isEmpty || feedsBits x.instr q.instr
    let bad (x : QEntry) : Bool :=
      decidesLater x.instr || (ordersAccesses x.instr && vectorAccess q.instr) || conflicts s q.instr x.instr ||
        rowsMeet q.instr x.instr || accessesMeet s q x
    if !issuesAhead q.instr || (rolesOf q.instr).vr.any (fun v => (bindingOf s v).isSome) || (e :: l).any bad || l.any fed then
      .blocked
    else if !fed e then .free
    else if neverChains q.instr || (isMultiply q.instr && feedsBits e.instr q.instr) then .blocked
    else .chain (feeds e.instr q.instr) (feedsBits e.instr q.instr)

/-- The oldest instruction of the hart. -/
def headInstr (s : State) : Option Instr := s.hart.queue.head?.map (·.instr)

/-- Every producer of a chain has written its first group; one of them has written more than that (R43). -/
def chainBegun (s : State) (rs : List Reg) (bits : Bool) : Bool :=
  rs.all (fun r => 1 ≤ written s r) && (!bits || (headInstr s).any fun i => 1 ≤ bitsWritten s i)
def chainPassed (s : State) (rs : List Reg) (bits : Bool) : Bool :=
  rs.any (fun r => 2 ≤ written s r) ||
    (bits && (headInstr s).any fun i => (if isMaskLogic i then maskGroup s else groupElems s (typeWidth s)) < bitsWritten s i)

/-- The next beat of the hart is the chain slot of a queued instruction: every producer has written its first group. -/
def atSlot (s : State) (q : QEntry) : Link → Bool
  | .chain rs bits => q.chain == .coming && chainBegun s rs bits
  | _ => false

/-- A queued instruction may issue groups, as far as its chain goes (R43). -/
def chainOpen (s : State) (q : QEntry) (l : Link) : Bool :=
  match l with
  | .blocked => false
  | .free => true
  | .chain _ _ => q.chain == .chained || atSlot s q l

/-- The end of the group that a queued instruction issues, in elements: `t` is the machine in which it issues, `u` the one after
it; `stays` if it has more. -/
def groupEnd (i : Instr) (t u : State) (stays : Bool) : Nat :=
  if !stays then vlOf t
  else if isMaskLogic i then u.hart.issued * maskGroup t
  else if vstartOf t < vstartOf u then vstartOf u
  else (vstartOf t / groupElems t (readWidth t i) + 1) * groupElems t (readWidth t i)

/-- The rows of source `v` that a group of an instruction reads which ends at element `hi`; of the A register of a multiply those of
the whole tile (R43, R301). -/
def rowsRead (s : State) (i : Instr) (v : Reg) (hi : Nat) : Nat :=
  let rows (n w : Nat) : Nat := ceilDiv (n * w) (8 * rowBytes s)
  let w := readWidth s i
  let tile (va vb : Reg) (n : Nat) : Nat :=
    max (if v = va then rows (n * (8 * (vlOf s / groupElems s w) * (16 / w))) w else 0)
      (if (bRegs vb).contains v then rows (min hi (vlOf s)) w else 0)
  match i with
  | .vmma _ _ va vb n _ | .vmmas _ va vb n _ _ _ => tile va vb n.toNat
  | _ => rows (min hi (vlOf s)) w

/-- The producers of a chained instruction have written what its next group reads (R43, R226). -/
def sourcesWritten (s : State) (i : Instr) (l : Link) (hi : Nat) : Bool :=
  match l with
  | .blocked => false
  | .free => true
  | .chain rs bits =>
    rs.all (fun r => rowsRead s i r hi ≤ written s r) &&
      (!bits || (headInstr s).any fun h => min hi (vlOf s) ≤ bitsWritten s h)

/-! ### Issue beats (R39 to R41) -/

/-- A gang is pre-empted as a unit, and a member that a move stops only after `mvcommit` (R128, R340): until then the members for
which a pre-emption is due go on. -/
def unitStopped (s : State) (h : Hart) : Bool :=
  (gangMembers s h.gangStack h.gang).any fun k => k.due && (k.stopped || k.stopPending)

/-- A hart may run; a stopped one goes on with what it has dispatched (R36). -/
def runnable (s : State) (h : Hart) : Bool := h.phase == .launched && (!h.stopped || h.drains) && (!h.due || unitStopped s h)

/-- The sequencer issues the instruction (R22, R36): `vregion` and `vrend` take no issue beat (R250). -/
def takesBeat : Instr → Bool
  | .vregion .. | .vrend => false
  | i => (dispatchClass i).isQueued

/-- The instruction takes issue beats of the current hart: a copy that a region discards takes none (R250). -/
def beatOf (s : State) (i : Instr) : Bool :=
  let copy := match i with
    | .cpy .. | .cpyx .. => true
    | _ => false
  takesBeat i && !(copy && skipping s)

/-- A fetched pattern is one that the sequencer issues, by its length and its major (R88, R100): the matrix class and majors 0x0D
to 0x1A without 0x16 and without `gspill` and `gfill`, which the scalar agent executes (R175). -/
def issuedPattern (bs : List Byte) : Bool :=
  let w := leNat (bs.take 4)
  let major := w / 2 ^ 27 % 32
  w % 4 == 3 || (w % 4 == 1 && 0x0D ≤ major && major ≤ 0x1A && major != 0x16 && (major != 0x18 || w / 2 ^ 15 % 4 == 0))

/-- A hart has an element group ready: its next instruction is one that the sequencer issues, and no stall holds the next group of
it, or of one behind it. -/
def groupReady (s : State) (h : Hart) : Bool :=
  runnable s h && !h.held &&
    match fetchedBefore { s with hart := h }, fetchBytes { s with hart := h } with
    | some i, _ => takesBeat i
    | none, .ok bs => issuedPattern bs
    | none, .error _ => false

/-- The ready hart of the highest age; ties go to the lowest hart number, which comes first in the list. -/
def oldest : List Hart → Option Hart
  | [] => none
  | h :: l =>
    match oldest l with
    | some k => if h.age < k.age then some k else some h
    | none => some h

/-- The hart that issues (R41). -/
def pickIssuer (ready : List Hart) (last : Option Nat) : Option Hart :=
  match oldest ready with
  | none => none
  | some h =>
    if 60 ≤ h.age.toNat then some h
    else match ready.find? fun k => some k.cid == last with
      | some k => some k
      | none => some h

/-- Bring a context onto the scalar pipeline. -/
def makeCurrent (s : State) (cid : Nat) : State :=
  if s.hart.cid = cid then s
  else match s.others.find? (·.cid == cid) with
    | none => s
    | some h =>
      let back := if s.hart.phase = .free then [] else [s.hart]
      { s with hart := h, others := s.others.filter (·.cid != cid) ++ back }

/-- The beat after `n` beats of a front end; at the end of the frame a written beat assignment takes effect (R40). -/
def passBeats (f : FrontEnd) (n : Nat) : FrontEnd :=
  if f.beat + n < 16 then { f with beat := f.beat + n }
  else { f with beat := f.beat + n - 16, beatmap := f.beatPending.getD f.beatmap, beatPending := none }

/-- The harts of a partition on a front end that have an element group ready. -/
def readyHarts (s : State) (fe p : Nat) : List Hart := (hartsOn s fe).filter fun h => h.partId == p && groupReady s h

/-- One issue beat of a front end: among the harts of the beat's owner that have a group ready one issues; the next turn runs
one group of its instruction. A beat whose owner has none stays idle. -/
def execIssueBeat (fe : Nat) (s : State) : Out :=
  let f := frontEnd s fe
  let owner := beatOwner f.beatmap f.beat
  let ready := readyHarts s fe owner
  match pickIssuer ready (f.lastIssued.find? owner) with
  | none => .next (setFrontEnd s fe { passBeats f 1 with lastIssued := f.lastIssued.erase owner })
  | some h =>
    let aged (k : Hart) : Hart :=
      if k.cid = h.cid then { k with age := 0 }
      else if ready.any (·.cid == k.cid) then { k with age := k.age + 1 } else k
    let t := mapContexts aged (setFrontEnd s fe { passBeats f 1 with lastIssued := f.lastIssued.set owner h.cid })
    .next { (makeCurrent t h.cid) with slice := true }

/-- The end of the frame (R40): the beats that are left of it pass, if all of them are idle, and a written beat assignment takes
effect. -/
def execFrameBoundary (fe : Nat) (s : State) : Out :=
  let f := frontEnd s fe
  let owners := (List.range (16 - f.beat)).map fun i => beatOwner f.beatmap (f.beat + i)
  .next (if owners.all fun p => (readyHarts s fe p).isEmpty then
      setFrontEnd s fe { passBeats f (16 - f.beat) with lastIssued := owners.foldl (fun l p => l.erase p) f.lastIssued }
    else s)

end Sys2Proof.Machine
end

