-- ==== Sys2Proof/Machine/Ecdsa.lean ====
section
/-!
DEFINITION. ECDSA over brainpoolP384r1 (R391): the curve, signing and verification of a digest. The numbers of the curve are those of
RFC 5639 (PRESUMED: the spec names the curve and does not print them; log 44).

Numbers of 384 bits are little-endian in memory (R3).
-/

namespace Sys2Proof.Machine

/-! ### The curve y² = x³ + A·x + B over the integers modulo a prime, its base point and the order of that point -/

def curveP : Nat := 0x8CB91E82A3386D280F5D6F7E50E641DF152F7109ED5456B412B1DA197FB71123ACD3A729901D1A71874700133107EC53
def curveA : Nat := 0x7BC382C63D8C150C3C72080ACE05AFA0C2BEA28E4FB22787139165EFBA91F90F8AA5814A503AD4EB04A8C7DD22CE2826
def curveB : Nat := 0x04A8C7DD22CE28268B39B55416F0447C2FB77DE107DCD2A62E880EA53EEB62D57CB4390295DBC9943AB78696FA504C11
def curveX : Nat := 0x1D1C64F068CF45FFA2A63A81B7C13F6B8847A3E77EF14FE3DB7FCAFE0CBD10E8E826E03436D646AAEF87B2E247D4AF1E
def curveY : Nat := 0x8ABE1D7520F9C2A45CB1EB8E95CFD55262B70B29FEEC5864E19C054FF99129280E4646217791811142820341263C5315
def curveN : Nat := 0x8CB91E82A3386D280F5D6F7E50E641DF152F7109ED5456B31F166E6CAC0425A7CF3AB6AF6B7FC3103B883202E9046565

/-- The bits of a number below 2^384, the highest first. -/
def bits384 (e : Nat) : List Bool := (List.range 384).map fun i => e.testBit (383 - i)

/-- b^e modulo m. -/
def powMod (m b e : Nat) : Nat := (bits384 e).foldl (fun x on => if on then x * x % m * b % m else x * x % m) 1

/-- The inverse modulo a prime. -/
def invMod (m x : Nat) : Nat := powMod m (x % m) (m - 2)

/-- x − y modulo p. -/
def subP (x y : Nat) : Nat := (x + (curveP - y % curveP)) % curveP

/-- A point: (X / Z², Y / Z³), or the point at infinity where Z is 0. -/
structure Point where
  x : Nat
  y : Nat
  z : Nat
  deriving DecidableEq, Repr

def pointInf : Point := { x := 1, y := 1, z := 0 }

/-- A point added to itself. -/
def Point.double (p : Point) : Point :=
  let yy := p.y * p.y % curveP
  let s := 4 * p.x * yy % curveP
  let zz := p.z * p.z % curveP
  let m := (3 * p.x * p.x + curveA * (zz * zz % curveP)) % curveP
  let x := subP (m * m) (2 * s)
  if p.y % curveP = 0 then pointInf
  else { x := x, y := subP (m * subP s x) (8 * yy * yy), z := 2 * p.y * p.z % curveP }

/-- The sum of two points. -/
def Point.add (p q : Point) : Point :=
  if p.z = 0 then q
  else if q.z = 0 then p
  else
    let pz := p.z * p.z % curveP
    let qz := q.z * q.z % curveP
    let u := p.x * qz % curveP
    let v := q.x * pz % curveP
    let s := p.y * (qz * q.z % curveP) % curveP
    let t := q.y * (pz * p.z % curveP) % curveP
    if u = v then if s = t then p.double else pointInf
    else
      let h := subP v u
      let r := subP t s
      let hh := h * h % curveP
      let hhh := hh * h % curveP
      let x := subP (r * r) (hhh + 2 * u * hh)
      { x := x, y := subP (r * subP (u * hh) x) (s * hhh), z := h * (p.z * q.z % curveP) % curveP }

/-- k times a point. -/
def Point.mul (k : Nat) (p : Point) : Point :=
  (bits384 k).foldl (fun q on => if on then q.double.add p else q.double) pointInf

/-- The x coordinate of a point that is not at infinity. -/
def Point.affineX (p : Point) : Nat := p.x * invMod curveP (p.z * p.z) % curveP

def basePoint : Point := { x := curveX, y := curveY, z := 1 }

/-- A public key is a point of the curve. -/
def onCurve (x y : Nat) : Bool :=
  x < curveP && y < curveP && (y * y) % curveP == (x * x * x + curveA * x + curveB) % curveP

/-- A signature (r, s) of a digest `e` by private key `d` with the number `k`. -/
def ecdsaSign (d k e : Nat) : Nat × Nat :=
  let r := (basePoint.mul (k % curveN)).affineX % curveN
  (r, invMod curveN k * (e + r * d) % curveN)

/-- (r, s) signs the digest `e` under the public key (x, y). -/
def ecdsaVerify (x y e : Nat) (sig : Nat × Nat) : Bool :=
  let w := invMod curveN sig.2
  let v := (basePoint.mul (e * w % curveN)).add (Point.mul (sig.1 * w % curveN) { x := x, y := y, z := 1 })
  onCurve x y && (1 ≤ sig.1 && sig.1 < curveN) && (1 ≤ sig.2 && sig.2 < curveN) && v.z != 0 &&
    v.affineX % curveN == sig.1

end Sys2Proof.Machine
end

