-- ==== Sys2Proof/Machine/Host.lean ====
section
/-!
DEFINITION. The world outside: bring-up (R392, R395), the host port (R381 to R383), peers (R386), firmware switches (R389).

Host accesses have no effect before bring-up has finished (R395).
-/

namespace Sys2Proof.Machine

/-! ### Selvedge windows of a partition (R73) -/

/-- The windows of a partition: those of its hart slots. -/
def partWindows (s : State) (p : Nat) : List Word :=
  (s.slots.filter fun x => field x.2.part 0 4 == p).flatMap fun x => x.2.selvedge.toList

/-- Every byte from `a` to `z − 1` lies in one of the windows. -/
def coveredBy (ws : List (Nat × Nat)) : Nat → Nat → Nat → Bool
  | 0, a, z => z ≤ a
  | fuel + 1, a, z =>
    if z ≤ a then true
    else
      let next := (ws.filter fun w => w.1 ≤ a).foldl (fun m w => max m w.2) a
      if next = a then false else coveredBy ws fuel next z

/-- Each of `n` bytes at `a` lies in an enabled window of the partition with the permission. -/
def windowsAllow (s : State) (p : Nat) (k : Acc) (a n : Nat) : Bool :=
  let ws := (partWindows s p).filterMap (windowOf k)
  coveredBy ws (ws.length + 1) a (a + n)

/-- One window of the partition holds all of `n` bytes at `a` and gives the permission (R73). -/
def oneWindow (s : State) (p : Nat) (k : Acc) (a n : Nat) : Bool := (selvedgeFail (partWindows s p) k a n).isNone

/-- The access that a direction needs. -/
def accessKind : ExtAccess → Acc
  | .read _ => .load
  | .write _ => .store
  | .atomic _ _ _ => .atomic

/-- Its length in bytes. -/
def accessSize : ExtAccess → Nat
  | .read n => n
  | .write l => l.length
  | .atomic sz _ _ => amoBytes sz

/-- An access from outside to vault-linear bytes of a partition: admitted, a write or an atomic changes memory (R178); refused,
or an atomic on poison (R177), nothing changes. -/
def outsideAccess (s : State) (p off : Nat) (acc : ExtAccess) : State :=
  let n := accessSize acc
  let gone := (checkPoints off n).any fun x => ((s.vaults.find? (vaultOf x)).map (·.retired)).getD false
  if n = 0 ∨ dramBytes < off + n ∨ gone ∨ !oneWindow s p (accessKind acc) off n then s
  else match acc with
    | .read _ => s
    | .write bs => homeStore s off bs
    | .atomic sz op v =>
      if (firstPoisoned s off n).isSome then s
      else match amoNew op (8 * amoBytes sz) (homeNat s off (amoBytes sz)) (field v 0 (8 * amoBytes sz)) with
        | some x => homeStore s off (leBytes (amoBytes sz) x)
        | none => s

/-! ### The host port (R381 to R383) -/

/-- The functions of partitions and the device links can be reached: bring-up has finished, and the service chiplets are not in
recovery, where PF0 alone is (R392, R395). -/
def reachable (s : State) : Bool := s.up && !s.svc.recovery

/-- Partition `p` of the twelve has the function: its PF, or a VF below 64 while SR-IOV is enabled. -/
def hasFunction (s : State) (p : Nat) (vf : Option Nat) : Bool :=
  p < Config.devicePartition && match vf with
    | none => true
    | some v => s.sriov.contains p && v < 64

/-- A doorbell write is counted as ignored by its function. -/
def countIgnored (s : State) (p : Nat) (vf : Option Nat) : State :=
  let fn := match vf with
    | none => 0
    | some v => 1 + v
  let x := part s p
  setPart s p { x with barErrors := x.barErrors.set fn (x.barErrors.get 0 fn + 1) }

/-- A write of a function's notify doorbell. -/
def execNotifyWrite (p : Nat) (vf : Option Nat) (v : BitVec 32) (s : State) : Out :=
  let q := field v 0 12
  let foreign : Bool := match vf with
    | none => false
    | some d => decide (queueVdev s p q ≠ d)
  .next (if !reachable s ∨ !hasFunction s p vf then s else if field v 12 20 ≠ 0 ∨ foreign then countIgnored s p vf else notifyQueue s p q)

/-- A write of a function's interrupt doorbell: `tval` is the function number. -/
def execHostInterrupt (p : Nat) (vf : Option Nat) (s : State) : Out :=
  let fn := match vf with
    | none => 0
    | some v => 1 + v
  .next (if reachable s ∧ hasFunction s p vf then postAsync s p 57 (BitVec.ofNat 64 fn) else s)

/-- A host access through BAR2 of a function: the windows of R73 are the partition's, whichever of its functions is used
(log 33). -/
def execHostApertureAccess (fn : BarFunction) (off : Nat) (acc : ExtAccess) (s : State) : Out :=
  .next (if reachable s ∧ hasFunction s fn.part fn.vf then outsideAccess s fn.part off acc else s)

/-- The 64 bytes of a submitted record, if they may be read. -/
def dlaunchBytes (s : State) (a : Nat) : Option (List Byte) :=
  if a % 64 ≠ 0 ∨ !(placeOf a).isDram ∨ (firstPoisoned s a 64).isSome then none else some (readBytes s a 64)

/-- A valid record of PF0 takes a pool entry, or waits for one. -/
def enterDevice (s : State) (b : List Byte) : State :=
  match findEntry s Config.devicePartition (parseRecord b) none with
  | some e =>
    let t := enterPool s Config.devicePartition (parseRecord b) e.1
    { t with pf0 := { t.pf0 with dstatus := 1, dseq := t.nextId, dwait := none } }
  | none => { s with pf0 := { s.pf0 with dstatus := 1, dwait := some b } }

/-- A record submitted through PF0: it is queued, or dstatus reads 49. -/
def submitDevice (s : State) (a : Nat) : State :=
  match (dlaunchBytes s a).filter (launchOk s .pf0 Config.devicePartition) with
  | some b => enterDevice s b
  | none => { s with pf0 := { s.pf0 with dstatus := 49 } }

/-- A write of dlaunch; ignored while a submitted record has not started. -/
def execDlaunch (addr : Word) (s : State) : Out :=
  .next (if !s.up ∨ s.pf0.dstatus = 1 then s else submitDevice s addr.toNat)

/-! ### Peers (R386, R276) -/

/-- Partition `remote` holds a valid entry that names a sending device and partition. -/
def peerAdmits (s : State) (remote : Nat) (device : BitVec 16) (sender : BitVec 4) : Bool :=
  (part s remote).peers.any fun e => bit e.2 63 && field e.2 32 16 == device.toNat && field e.2 48 4 == sender.toNat

def execPeerAccess (device : BitVec 16) (sender remote : BitVec 4) (off : Nat) (acc : ExtAccess) (s : State) : Out :=
  .next (if reachable s && peerAdmits s remote.toNat device sender then outsideAccess s remote.toNat off acc else s)

/-- A watermark publication of a peer's `xfer`: the object must be allocated to the partition that the peer's window
reaches. -/
def execPeerWatermarkPublication (device : BitVec 16) (sender remote : BitVec 4) (obj : BitVec 16) (index : Nat)
    (s : State) : Out :=
  let owned : Bool := match s.marks.find? obj.toNat with
    | some m => m.owner == remote.toNat
    | none => false
  .next (if reachable s && peerAdmits s remote.toNat device sender && owned then publish s obj.toNat index else s)

/-! ### Firmware (R389, R391, R392) -/

/-- The digest that a signature covers, as a number (R391). -/
def digestNat (bs : List Byte) : Nat := leNat (sha384 bs).reverse

/-- A firmware bank's key is the fused one, its signature over header and body holds, and its security version is not rolled back
(R391, R392). -/
def bankAuthentic (b : Bool) (n : Nat) : Bool :=
  let key := Config.bankKey b n
  sha384 key == Config.rootKeyHash &&
    ecdsaVerify (leNat (key.take 48)) (leNat (key.drop 48)) (digestNat (Config.bankImage b n)) (Config.bankSignature b n) &&
    decide (Config.rollbackFuses ≤ Config.bankField b n 2)

/-- A bank as it stands after a writing, authenticated. -/
def readBank (b : Bool) (n : Nat) : Bank :=
  { abi := Config.bankField b n 0, version := Config.bankField b n 1, securityVersion := Config.bankField b n 2,
    authentic := bankAuthentic b n, hash := sha384 (Config.bankImage b n) }

/-- The state in which a service runs an authenticated bank. -/
def runBank (v : Service) (b : Bool) (k : Bank) : Service :=
  let w : Service := { v with activeB := b, m1 := extendMeasure v.m1 k.hash }
  if b then { w with bankB := k } else { w with bankA := k }

/-- An authentication failure counts toward the fused threshold; past it the key store is zeroised by policy (R359, R392). -/
def noteFailure (v : Service) : Service :=
  { v with
    authFailures := v.authFailures + 1
    keysZeroised := v.keysZeroised || (Config.zeroisePolicy && decide (Config.alarmThreshold < v.authFailures + 1)) }

/-- Secure boot: bank A, else bank B, else recovery (R392). -/
def secureBoot (v : Service) : Service :=
  let a := readBank false 0
  let b := readBank true 0
  let w : Service := { v with bankA := a, bankB := b, m0 := extendMeasure v.m0 Config.bootDigest }
  if a.authentic then runBank w false a
  else if b.authentic then runBank (noteFailure w) true b
  else { (noteFailure (noteFailure w)) with recovery := true }

/-- Bring-up, as far as hardware does it (R395): secure boot, vault tests, the fuse loader. The fuse loader's values are what
slots and front ends hold that nothing has written since (`fusedSlot`, `fusedFrontEnd`). -/
def execBringUp (s : State) : Out :=
  if s.up then .next s
  else
    let bad := (List.range (Config.stackCount * Config.vaultsPerStack)).filter Config.vaultFails
    .next { s with
      up := true, svc := { secureBoot s.svc with windows := (List.range 8).map Config.serviceWindow }
      vaults := bad.map fun v => (v, { asked := true, retired := true, fenced := false }) }

/-- PF0 has written the inactive bank and asks for a switch: the bank is authenticated; calls accepted before stay with the
old one (R389). PF0 is retried before bring-up has finished (R395). -/
def execFirmwareSwitch (s : State) : Out :=
  if !s.up then .next s else
  let b := !s.svc.activeB
  let k := readBank b (s.draws + 1)
  let t := { s with draws := s.draws + 1 }
  .next { t with svc := if k.authentic then { (runBank s.svc b k) with recovery := false } else noteFailure s.svc }

/-- PF0 returns the certificate chain of the identity key, which changes nothing (R393). -/
def execCertificateChain (s : State) : Out := .next s

end Sys2Proof.Machine
end

