-- ==== Sys2Proof/Machine/Service.lean ====
section
/-!
DEFINITION. The service functions (R387, R388, R390, R393) but for the loader: what an accepted call answers and changes.

Each is an event of its own that names the call; calls with one token are served in the order accepted (R124).
-/

namespace Sys2Proof.Machine

/-- What a call answers: g10 to g13. -/
abbrev Answer := Vector Word 4

/-- A status alone. -/
def answerStatus (n : Nat) : Answer := #v[BitVec.ofNat 64 n, 0, 0, 0]

/-- A call may be served now: no earlier call of its partition has its token, and no earlier load precedes a load (R380). -/
def servable (s : State) (c : Call) : Bool :=
  !s.svc.recovery && !s.svc.fenced && !c.faulted && !s.svc.calls.any fun d =>
    d.partId == c.partId && d.seq < c.seq && (d.token == c.token || (d.fn == 1 && c.fn == 1))

/-- A fenced service restarts on its active bank: its accepted calls are served again (R359, R389). -/
def restartService (s : State) : State :=
  if s.svc.fenced then
    { s with svc := { s.svc with fenced := false, calls := s.svc.calls.map fun c => { c with faulted := false } } }
  else s

/-- Every byte of a list of runs lies in a window of the service cores (R390). -/
def coresReach (s : State) (runs : List (Nat × Nat)) : Bool :=
  runs.all fun r => coveredBy s.svc.windows (s.svc.windows.length + 1) r.1 (r.1 + r.2)

/-- Serve call `k` of function `fn`, which touches the bytes that `touches` lists. A call whose hart is gone is dropped; one that
would have a service core access memory outside its windows faults there, with no effect for the call (R390, log 39). -/
def serve (s : State) (k fn : Nat) (f : State → Call → Hart → State × Answer)
    (touches : State → Call → Hart → List (Nat × Nat) := fun _ _ _ => []) : Out :=
  match s.svc.calls.find? (·.seq == k) with
  | none => .next s
  | some c =>
    if c.fn ≠ fn ∨ !servable s c then .next s
    else
      let t : State := { s with svc := { s.svc with calls := s.svc.calls.filter (·.seq != k) } }
      match contextOf s c.cid with
      | none => .next t
      | some h =>
        if !coresReach s (touches t c h) then
          .next { s with svc := { s.svc with
            calls := s.svc.calls.map fun d => if d.seq = k then { d with faulted := true } else d } }
        else
          let r := f t c h
          .next (mapContext c.cid (fun h => { h with reply := some r.2 }) r.1)

/-- Argument `i` of a call: register g12 + i. -/
def arg (c : Call) (i : Nat) : Nat := (c.args.toList.getD i 0).toNat

/-- Memory as the service sees it for a call: the caller's own, wherever its context is. -/
def callView (s : State) (h : Hart) : State :=
  let t := contextView s h
  { t with hart := { t.hart with par := none } }

/-- The machine after a service has written `t`, a later state of the caller's view: what it wrote to the caller's rows, and to the
scratchpad range of a pre-empted caller, goes to the caller's context (R342). -/
def callBack (s t : State) (h : Hart) : State :=
  let id := feOf h.slot
  let away := h.phase == .preempted
  let f := frontEnd t id
  let u := { t with hart := s.hart }
  let u := if away then
      setFrontEnd u id { f with scratch := (frontEnd s id).scratch, scratchPoison := (frontEnd s id).scratchPoison }
    else u
  mapContext h.cid (fun k => { k with
    rows := t.hart.rows, rowPoison := t.hart.rowPoison
    savedScratch := if away then f.scratch else k.savedScratch
    savedPoison := if away then f.scratchPoison else k.savedPoison }) u

/-- Each of `n` bytes at `a` exists for the caller (R72, check 5). -/
def serviceMap (s : State) (h : Hart) (k : Acc) (a n : Nat) : Bool :=
  n == 0 || match checkMap (callView s h) k a n with
    | .ok _ => true
    | .error _ => false

/-- The partition of a call could access `n` bytes at `a` under R72's checks 5 and 6: they exist, and lie in the local window of the
caller or in windows with the permission. -/
def serviceMay (s : State) (p : Nat) (h : Hart) (k : Acc) (a n : Nat) : Bool :=
  serviceMap s h k a n && ((placeOf a).isLocal || windowsAllow s p k a n)

/-- Write bytes block of 64 by block, so that a granule written whole loses its poison (R355). -/
def storeBlocks (s : State) : Nat → Nat → List Byte → State
  | 0, _, _ => s
  | k + 1, a, bs =>
    if bs.isEmpty then s else storeBlocks (storeBytes s a (bs.take (64 - a % 64))) k (a + (64 - a % 64)) (bs.drop (64 - a % 64))

/-- Write bytes for a call. -/
def serviceWrite (s : State) (a : Nat) (bs : List Byte) : State := storeBlocks s (bs.length / 64 + 2) a bs

/-! ### Version and images -/

/-- Function 0: of the firmware that accepted the call (R389). -/
def serveVersion (s : State) (c : Call) (_ : Hart) : State × Answer :=
  (s, #v[0, BitVec.ofNat 64 c.abi, BitVec.ofNat 64 c.version, boolWord c.bankB])

def execVersion (k : Nat) (s : State) : Out := serve s k 0 serveVersion

/-- Function 2: the area leaves the list of resident images (R400). -/
def serveUnload (s : State) (c : Call) (_ : Hart) : State × Answer :=
  let x := part s c.partId
  if x.images.any (·.area == arg c 0) then
    (setPart s c.partId { x with images := x.images.filter (·.area != arg c 0) }, answerStatus 0)
  else (s, answerStatus 1)

def execUnloadImage (k : Nat) (s : State) : Out := serve s k 2 serveUnload

/-! ### Watermarks (R193) -/

/-- The lowest free object of a stack. -/
def freeMark (s : State) (stack : Nat) : Option Nat :=
  (List.range Config.marksPerStack).find? fun n => (s.marks.find? (stack * 4096 + n)).isNone

/-- Function 16. -/
def serveAllocate (s : State) (c : Call) (_ : Hart) : State × Answer :=
  let stack := arg c 0
  let base := arg c 1
  let len := arg c 2
  if 16 ≤ stack ∨ 2 ^ 52 ≤ base ∨ len = 0 ∨ 2 ^ 48 < len ∨ 16 < arg c 3 then (s, answerStatus 1)
  else if !windowsAllow s c.partId .load base len then (s, answerStatus 2)
  else match freeMark s stack with
    | none => (s, answerStatus 3)
    | some n =>
      let m : Mark := { owner := c.partId, base := base, length := len, esize := 2 ^ arg c 3, index := 0 }
      ({ s with marks := s.marks.set (stack * 4096 + n) m }, #v[0, BitVec.ofNat 64 n, 0, 0])

def execAllocateWatermark (k : Nat) (s : State) : Out := serve s k 16 serveAllocate

/-- A binding of a partition, or an unfinished command, names an object. -/
def markInUse (s : State) (p key : Nat) : Bool :=
  (contexts s).any (fun h => h.partId == p && h.csr.wm.toList.any fun v => bit v 0 && markKey v.toNat == key) ||
    s.engines.any fun e => e.mark % 2 == 1 && markKey e.mark == key

/-- Function 17. -/
def serveFree (s : State) (c : Call) (_ : Hart) : State × Answer :=
  let key := arg c 0 * 4096 + arg c 1
  if 16 ≤ arg c 0 ∨ 4096 ≤ arg c 1 then (s, answerStatus 1)
  else match s.marks.find? key with
    | none => (s, answerStatus 1)
    | some m =>
      if m.owner ≠ c.partId ∨ markInUse s c.partId key then (s, answerStatus 2)
      else ({ s with marks := s.marks.erase key }, answerStatus 0)

def execFreeWatermark (k : Nat) (s : State) : Out := serve s k 17 serveFree

/-! ### The session directory (R270) -/

/-- Function 18: the directory needs windows with r and w. -/
def serveDirectory (s : State) (c : Call) (_ : Hart) : State × Answer :=
  let base := arg c 0
  let n := arg c 1
  if base % 4096 ≠ 0 ∨ n = 0 ∨ 2 ^ 24 < n ∨ !(placeOf base).isDram ∨ placeOf (base + 64 * n - 1) ≠ placeOf base then
    (s, answerStatus 1)
  else if !windowsAllow s c.partId .atomic base (64 * n) then
    (s, answerStatus 2)
  else if s.engines.any (·.partId == c.partId) then (s, answerStatus 3)
  else (setPart s c.partId { part s c.partId with sessBase := base, sessCount := n }, answerStatus 0)

def execSetSessionDirectory (k : Nat) (s : State) : Out := serve s k 18 serveDirectory

/-! ### The event block (R360) -/

/-- A field of the event block by its offset. -/
def eventField (s : State) (p off : Nat) : Option Word :=
  let x := part s p
  match off with
  | 0x00 => some x.timer
  | 0x08 => some x.logBase
  | 0x10 => some (x.logEntries.zeroExtend 64)
  | 0x14 => some (x.logHead.zeroExtend 64)
  | 0x18 => some (x.logConsumed.zeroExtend 64)
  | 0x1C => some (x.logOverflow.zeroExtend 64)
  | 0x20 => some (boolWord x.quarantined)
  | 0x28 => some (devValue s (.eventHart p))
  | _ => none

/-- Function 32. -/
def serveReadEvent (s : State) (c : Call) (_ : Hart) : State × Answer :=
  match eventField s c.partId (arg c 0) with
  | some v => (s, #v[0, v, 0, 0])
  | none => (s, answerStatus 1)

def execReadEventBlock (k : Nat) (s : State) : Out := serve s k 32 serveReadEvent

/-- Function 33: the status and the new partition. What hardware alone writes names nothing to write. -/
def writeEvent (x : Part) (off : Nat) (v : Word) : Nat × Part :=
  let n := v.toNat
  match off with
  | 0x00 => (0, { x with timer := v })
  | 0x08 => if n % 4096 = 0 ∧ (placeOf n).isDram then (0, { x with logBase := v }) else (1, x)
  | 0x10 =>
    if (List.range 17).any fun i => 6 ≤ i && n == 2 ^ i then (0, { x with logEntries := v.truncate 32 }) else (1, x)
  | 0x18 => if n < 2 ^ 32 then (0, { x with logConsumed := v.truncate 32 }) else (1, x)
  | 0x20 => (2, x)
  | _ => (1, x)

def serveWriteEvent (s : State) (c : Call) (_ : Hart) : State × Answer :=
  let r := writeEvent (part s c.partId) (arg c 0) (BitVec.ofNat 64 (arg c 1))
  (setPart s c.partId r.2, answerStatus r.1)

def execWriteEventBlock (k : Nat) (s : State) : Out := serve s k 33 serveWriteEvent

/-! ### Termination (R360) -/

/-- A cause of six bits for the log entry of a termination by call. -/
def callCause : Nat := Config.terminateCause % 64

/-- Function 34. -/
def serveTerminate (s : State) (c : Call) (_ : Hart) : State × Answer :=
  let id := arg c 1
  match arg c 0 with
  | 0 =>
    match (slotOfId id).bind (slotHolder s) with
    | none => (s, answerStatus 1)
    | some h =>
      if !h.phase.live then (s, answerStatus 1)
      else if h.partId ≠ c.partId then (s, answerStatus 2)
      else
        match asHart s h.cid fun t => .next (terminateHart t callCause) with
        | .next t => (t, answerStatus 0)
        | .fault _ | .refused _ => (s, answerStatus 1)
  | 1 =>
    match if id < 2 ^ 32 then gangOf s (id / 2 ^ 28) (id / 2 ^ 16 % 2 ^ 12) else none with
    | none => (s, answerStatus 1)
    | some g => if g.partId ≠ c.partId then (s, answerStatus 2) else (terminateGang s g callCause, answerStatus 0)
  | _ => (s, answerStatus 1)

def execTerminate (k : Nat) (s : State) : Out := serve s k 34 serveTerminate

/-! ### Attestation (R393) -/

/-- The signed part of a quote. -/
def quoteBody (s : State) (p : Nat) (nonce : List Byte) : List Byte :=
  leBytes 4 1 ++ leBytes 4 p ++ nonce ++ s.svc.m0 ++ s.svc.m1 ++ (part s p).m2 ++ (part s p).m3

/-- The status of function 48 (R387): misaligned, denied, out of range. -/
def quoteStatus (s : State) (c : Call) (h : Hart) : Nat :=
  let nonce := arg c 0
  let out := arg c 1
  if out % 64 ≠ 0 then 1
  else if !windowsAllow s c.partId .load nonce 48 ∨ !windowsAllow s c.partId .store out 384 then 2
  else if (placeOf nonce).isLocal ∨ (placeOf out).isLocal ∨ !serviceMap s h .load nonce 48 ∨ !serviceMap s h .store out 384 then 1
  else 0

/-- The device identity key as the key store holds it: zero once the store has been zeroised (R359). -/
def identityKeyOf (s : State) : Nat := if s.svc.keysZeroised then 0 else Config.identityKey

/-- The signature of a quote by the device identity key: r, s (R393). -/
def quoteSignature (key n : Nat) (body : List Byte) : List Byte :=
  let sig := ecdsaSign key (Config.quoteNumber n) (digestNat body)
  leBytes 48 sig.1 ++ leBytes 48 sig.2

/-- M2 of a partition, extended if its configuration has been measured anew (R392): when that is, and what is measured, is free
(log 10). -/
def measuredM2 (s : State) (p : Nat) : List Byte :=
  if Config.configMeasured s.draws then extendMeasure (part s p).m2 ((List.range 48).map (Config.configMeasure s.draws))
  else (part s p).m2

/-- Function 48. -/
def serveQuote (s : State) (c : Call) (h : Hart) : State × Answer :=
  let st := quoteStatus s c h
  if st ≠ 0 then (s, answerStatus st)
  else
    let t := setPart { s with draws := s.draws + 1 } c.partId { part s c.partId with m2 := measuredM2 s c.partId }
    let body := quoteBody t c.partId (readBytes (callView s h) (arg c 0) 48)
    (serviceWrite t (arg c 1) (body ++ quoteSignature (identityKeyOf s) s.draws body ++ List.replicate 40 0), answerStatus 0)

/-- The bytes that function 48 touches. -/
def quoteTouches (s : State) (c : Call) (h : Hart) : List (Nat × Nat) :=
  if quoteStatus s c h = 0 then [(arg c 0, 48), (arg c 1, 384)] else []

def execAttestationQuote (k : Nat) (s : State) : Out := serve s k 48 serveQuote quoteTouches

end Sys2Proof.Machine
end

