-- ==== Sys2Proof/Machine/Loader.lean ====
section
/-!
DEFINITION. The load service: image files, their checks in order, relocation, the resident-record area (R364, R365, R367, R368,
R374 to R380, R400).
-/

namespace Sys2Proof.Machine

/-! ### The file (R374 to R377) -/

/-- What a load is about: the bytes that it reads, and its five arguments. -/
structure LoadJob where
  view : State
  partId : Nat
  hart : Hart
  file : Nat
  length : Nat
  base : Nat
  table : Nat
  area : Nat

/-- A little-endian field of the file. -/
def LoadJob.nat (j : LoadJob) (off n : Nat) : Nat := readNat j.view (j.file + off) n

def LoadJob.align (j : LoadJob) : Nat := 2 ^ j.nat 6 1
def LoadJob.msize (j : LoadJob) : Nat := j.nat 16 4
def LoadJob.sections (j : LoadJob) : Nat := j.nat 28 2
def LoadJob.entries (j : LoadJob) : Nat := j.nat 30 2
def LoadJob.slotCount (j : LoadJob) : Nat := j.nat 40 2
def LoadJob.relocs (j : LoadJob) : Nat := if j.length < 64 then 0 else j.nat 48 4

/-- A section of the image. -/
structure Section where
  kind : Nat
  perm : Nat
  reserved : Nat
  foff : Nat
  moff : Nat
  fbytes : Nat
  mbytes : Nat

def LoadJob.sect (j : LoadJob) (i : Nat) : Section :=
  let o := j.nat 24 4 + 24 * i
  { kind := j.nat o 1, perm := j.nat (o + 1) 1, reserved := j.nat (o + 2) 2 + j.nat (o + 20) 4, foff := j.nat (o + 4) 4,
    moff := j.nat (o + 8) 4, fbytes := j.nat (o + 12) 4, mbytes := j.nat (o + 16) 4 }

/-- The sections of the image. -/
def LoadJob.sects (j : LoadJob) : List Section := (List.range j.sections).map j.sect

/-- Byte `m` of the image before relocation; what no section holds is zero (R375). -/
def LoadJob.content (j : LoadJob) (m : Nat) : Byte :=
  match j.sects.find? fun x => x.moff ≤ m && m < x.moff + x.mbytes with
  | some x => if m - x.moff < x.fbytes then readByte j.view (j.file + x.foff + (m - x.moff)) else 0
  | none => 0

/-- A slot entry. -/
structure SlotEntry where
  n : Nat
  placed : Bool
  ok : Bool
  ro : Bool
  moff : Nat
  size : Nat

def LoadJob.slot (j : LoadJob) (i : Nat) : SlotEntry :=
  let o := j.nat 36 4 + 16 * i
  let flags := j.nat (o + 2) 2
  let how := j.nat (o + 1) 1
  { n := j.nat o 1, placed := how == 1, ok := how ≤ 1 && (flags == 0 || flags == 2) && (how == 1 || j.nat (o + 4) 4 == 0),
    ro := flags == 2, moff := j.nat (o + 4) 4, size := j.nat (o + 8) 8 }

/-- The slot entries of the image. -/
def LoadJob.slots (j : LoadJob) : List SlotEntry := (List.range j.slotCount).map j.slot

/-- A relocation record. -/
structure Reloc where
  offset : Nat
  ty : Nat
  target : Nat
  reserved : Nat
  symbol : Nat
  addend : Int

def LoadJob.reloc (j : LoadJob) (i : Nat) : Reloc :=
  let o := j.nat 44 4 + 16 * i
  { offset := j.nat o 4, ty := j.nat (o + 4) 1, target := j.nat (o + 5) 1, reserved := j.nat (o + 6) 2,
    symbol := j.nat (o + 8) 4, addend := toSigned 32 (j.nat (o + 12) 4) }

/-! ### The checks (R378), each the failing index where it fails -/

/-- The resident-record area obeys R400: each of its bytes lies in a window with r and w, and it shares no byte of DRAM, under
either name, with the image or the file. -/
def LoadJob.areaOk (j : LoadJob) : Bool :=
  let n := 64 + 16 * j.relocs
  j.area % 64 == 0 && (placeOf j.area).isDram && placeOf (j.area + n - 1) == placeOf j.area &&
    windowsAllow j.view j.partId .atomic j.area n && !overlaps j.area n j.base j.msize && !overlaps j.area n j.file j.length

/-- Status 8. -/
def LoadJob.argsOk (j : LoadJob) : Bool :=
  serviceMay j.view j.partId j.hart .load j.file j.length && serviceMay j.view j.partId j.hart .load j.table 8160 &&
    (firstPoisoned j.view j.file j.length).isNone && j.areaOk

/-- Status 1. -/
def LoadJob.headerOk (j : LoadJob) : Bool :=
  let fsize := j.nat 20 4
  let within (off n : Nat) : Bool := off + n ≤ fsize
  64 ≤ j.length && fsize == j.length && j.nat 0 4 == 0x524F5250 && j.nat 4 2 == 1 && (12 ≤ j.nat 6 1 && j.nat 6 1 ≤ 20) &&
    j.nat 7 1 == 0 && j.nat 42 2 == 0 && j.nat 52 12 == 0 && (1 ≤ j.sections && j.sections ≤ 4) && j.entries ≤ 256 &&
    j.slotCount ≤ 254 && j.nat 48 4 ≤ 2 ^ 24 && within (j.nat 24 4) (24 * j.sections) &&
    within (j.nat 32 4) (16 * j.entries) && within (j.nat 36 4) (16 * j.slotCount) && within (j.nat 44 4) (16 * j.nat 48 4) &&
    j.sects.all fun x => within x.foff x.fbytes

/-- Status 2 for one section. -/
def LoadJob.sectionOk (j : LoadJob) (i : Nat) : Bool :=
  let x := j.sect i
  let perm := if x.kind = 1 then 1 else if x.kind = 2 then 0 else 2
  (1 ≤ x.kind && x.kind ≤ 4) && x.perm == perm && x.reserved == 0 && x.fbytes ≤ x.mbytes && x.moff % j.align == 0 &&
    x.moff + x.mbytes ≤ j.msize &&
    (j.sects.take i).all fun y => x.mbytes == 0 || y.mbytes == 0 || x.moff + x.mbytes ≤ y.moff || y.moff + y.mbytes ≤ x.moff

/-- Status 7 for one entry. -/
def LoadJob.entryOk (j : LoadJob) (i : Nat) : Bool :=
  let off := j.nat (j.nat 32 4 + 16 * i) 4
  off % 2 == 0 && j.sects.any fun x => x.kind == 1 && x.moff ≤ off && off < x.moff + x.mbytes

/-- Status 3. -/
def LoadJob.destOk (j : LoadJob) : Bool :=
  let n := j.msize
  j.base % j.align == 0 && j.base + n ≤ 2 ^ 52 && windowsAllow j.view j.partId .store j.base n &&
    j.sects.all (fun x => x.kind != 1 || windowsAllow j.view j.partId .fetch (j.base + x.moff) x.mbytes) &&
    (part j.view j.partId).images.all fun y => !overlaps j.base n y.base y.size

/-- A field of record `n` of the slot table. -/
def LoadJob.tableNat (j : LoadJob) (n off k : Nat) : Nat := readNat j.view (j.table + 32 * n + off) k

/-- Status 4 for one slot entry. -/
def LoadJob.slotOk (j : LoadJob) (i : Nat) : Bool :=
  let x := j.slot i
  let flags := j.tableNat x.n 16 4
  x.ok && (1 ≤ x.n && x.n ≤ 254) && !((j.slots.take i).any (·.n == x.n)) &&
    if x.placed then flags % 2 == 1 && x.moff + x.size ≤ j.msize
    else flags % 2 == 0 && x.size ≤ j.tableNat x.n 8 8 && (flags / 2 % 2 == 1) == x.ro

/-- The base of a slot as relocation sees it: a placed slot's base is L + moff. -/
def LoadJob.slotBase (j : LoadJob) (n : Nat) : Nat :=
  match j.slots.find? (·.n == n) with
  | some x => if x.placed then j.base + x.moff else j.tableNat n 0 8
  | none => 0

/-- v := S + A (R364, R377). -/
def LoadJob.value (j : LoadJob) (r : Reloc) : Int :=
  ((if r.target = 0 then j.base + r.symbol else j.slotBase r.symbol : Nat) : Int) + r.addend

/-- hi of R364. -/
def relocHi (v : Int) : Int := (v + 0x800) / 4096

/-- The four bytes of the image at an offset. -/
def LoadJob.word (j : LoadJob) (off : Nat) : Nat := leNat ((List.range 4).map fun i => j.content (off + i))

/-- An instruction that LO12 may patch. -/
def lo12Ok (w : Nat) : Bool :=
  let major := w / 2 ^ 27 % 32
  w % 4 == 1 && ([2, 4, 5, 8].contains major || (major == 0x0A && w / 2 ^ 14 % 8 ≤ 6))

/-- Status 5 for a record. -/
def LoadJob.relocOk (j : LoadJob) (r : Reloc) : Bool :=
  (1 ≤ r.ty && r.ty ≤ 4) && r.target ≤ 1 && r.reserved == 0 && (r.target == 0 || j.slots.any (·.n == r.symbol)) &&
    match r.ty with
    | 1 => r.offset % 2 == 0 && r.offset + 4 ≤ j.msize && j.word r.offset % 4 == 1 && j.word r.offset / 2 ^ 27 % 32 == 0
    | 2 => r.offset % 2 == 0 && r.offset + 4 ≤ j.msize && lo12Ok (j.word r.offset)
    | 3 => r.offset % 8 == 0 && r.offset + 8 ≤ j.msize
    | _ => r.offset % 4 == 0 && r.offset + 4 ≤ j.msize

/-- Status 6 for a record: it overflows. -/
def LoadJob.overflows (j : LoadJob) (r : Reloc) : Bool :=
  let v := j.value r
  match r.ty with
  | 1 => relocHi v < -524288 || 524287 < relocHi v
  | 4 => v < 0 || 2 ^ 32 ≤ v
  | _ => false

/-- The first index below `n` at which a check fails. -/
def firstFail (n : Nat) (ok : Nat → Bool) : Option Nat := (List.range n).find? fun i => !ok i

/-- The first failure of an image: status and index, in the order of R378. -/
def LoadJob.failure (j : LoadJob) : Option (Nat × Nat) :=
  if !j.argsOk then some (8, 0)
  else if !j.headerOk then some (1, 0)
  else match firstFail j.sections j.sectionOk with
    | some i => some (2, i)
    | none =>
      match firstFail j.entries j.entryOk with
      | some i => some (7, i)
      | none =>
        if !j.destOk then some (3, 0)
        else match firstFail j.slotCount j.slotOk with
          | some i => some (4, i)
          | none =>
            match firstFail j.relocs fun i => j.relocOk (j.reloc i) with
            | some i => some (5, i)
            | none => (firstFail j.relocs fun i => !j.overflows (j.reloc i)).map fun i => (6, i)

/-! ### Loading (R379) -/

/-- A number with `n` bits from bit `lo` on replaced. -/
def putBits (w lo n v : Nat) : Nat := w / 2 ^ (lo + n) * 2 ^ (lo + n) + v % 2 ^ n * 2 ^ lo + w % 2 ^ lo

/-- Apply a record (R364, R367, R377). -/
def LoadJob.apply (j : LoadJob) (s : State) (r : Reloc) : State :=
  let a := j.base + r.offset
  let v := j.value r
  let old := readNat s a 4
  match r.ty with
  | 1 => serviceWrite s a (leBytes 4 (putBits old 2 20 (ofSigned 20 (relocHi v))))
  | 2 => serviceWrite s a (leBytes 4 (putBits old 2 12 (ofSigned 12 v)))
  | 3 => serviceWrite s a (leBytes 8 (ofSigned 64 v))
  | _ => serviceWrite s a (leBytes 4 (ofSigned 32 v))

/-- Write a placed slot's record: base, size, flags, generation 1. -/
def LoadJob.placeSlot (j : LoadJob) (s : State) (x : SlotEntry) : State :=
  if x.placed then
    serviceWrite s (j.table + 32 * x.n)
      (leBytes 8 (j.base + x.moff) ++ leBytes 8 x.size ++ leBytes 4 (if x.ro then 2 else 0) ++ leBytes 4 1 ++ leBytes 8 0)
  else s

/-- The resident-record area (R400). -/
def LoadJob.areaData (j : LoadJob) : List Byte :=
  leBytes 2 1 ++ leBytes 2 0 ++ leBytes 4 j.relocs ++ leBytes 8 j.base ++ leBytes 8 j.table ++ leBytes 4 j.msize ++
    leBytes 36 0 ++ readBytes j.view (j.file + j.nat 44 4) (16 * j.relocs)

/-- Write an image that has passed every check; the partition's M3 is extended by the digest of the file (R392). -/
def LoadJob.load (j : LoadJob) : State :=
  let t := storePieces j.view j.base (ceilDiv j.msize 64) ((List.range j.msize).map fun m => (j.content m, false))
  let t := j.slots.foldl j.placeSlot t
  let t := ((List.range j.relocs).map j.reloc).foldl j.apply t
  let t := serviceWrite t j.area j.areaData
  let x := part t j.partId
  let t := setPart t j.partId { x with
    images := x.images ++ [{ area := j.area, base := j.base, size := j.msize }]
    m3 := extendMeasure x.m3 (sha384 (readBytes j.view j.file j.length)) }
  discardLines t (insertNat (feOf j.hart.slot) (frontEndsOf t j.partId))

/-- The job of a call. -/
def loadJob (s : State) (c : Call) (h : Hart) : LoadJob :=
  { view := callView s h, partId := c.partId, hart := h, file := arg c 0, length := arg c 1, base := arg c 2,
    table := arg c 3, area := arg c 4 }

/-- The bytes that a load touches: the file and the table once its arguments hold, the image and the area once every check
passes. -/
def loadTouches (s : State) (c : Call) (h : Hart) : List (Nat × Nat) :=
  let j := loadJob s c h
  (if j.argsOk then [(j.file, j.length), (j.table, 8160)] else []) ++
    (if j.failure.isNone then [(j.base, j.msize), (j.area, 64 + 16 * j.relocs)] else [])

/-- Function 1. A slot record in the caller's own rows or scratchpads is written there. -/
def serveLoad (s : State) (c : Call) (h : Hart) : State × Answer :=
  let j := loadJob s c h
  match j.failure with
  | some (st, i) => (s, #v[BitVec.ofNat 64 st, BitVec.ofNat 64 i, 0, 0])
  | none =>
    (callBack s j.load h, #v[0, 0, BitVec.ofNat 64 j.area, 0])

/-- Function 1; it waits while a move of its table is open (R380). -/
def execLoadImage (k : Nat) (s : State) : Out :=
  match s.svc.calls.find? (·.seq == k) with
  | none => .next s
  | some c => if s.moves.any fun m => m.table.toNat == arg c 3 then .next s else serve s k 1 serveLoad loadTouches

end Sys2Proof.Machine
end

