-- ==== Sys2Proof/Machine/Permute.lean ====
section
/-!
DEFINITION. Slides, gathers, broadcasts and moves (R240 to R243).
-/

namespace Sys2Proof.Machine

/-- Every valid code serves (class "any" of R223). -/
def vecAny (s : State) (go : VMode → Out) : Out := checked s (vmode s noSr) go

/-! ### Cross-lane permutes (R240, R241) -/

/-- The offset of a slide or the index of `vext`: gb as a natural number, or imm5. -/
def slideOff (s : State) (b : VOp) : Nat :=
  match b with
  | .vi imm => imm.toNat
  | .vs r => (gval s r).toNat
  | .vv _ => 0

/-- A negative immediate is no offset (R86 check 7). -/
def negativeImm : VOp → Bool
  | .vi imm => bit imm 4
  | _ => false

/-- The active elements of a cross-lane instruction: it ignores `vstart` (R225). -/
def crossIdx (s : State) (m : Reg3) : List Nat := activeIdx s m 0 (vlOf s)

/-- The source element that a slide takes for element `i`: `none` where nothing is written, `some none` for zero. -/
def slideSource (up : Bool) (vl off i : Nat) : Option (Option Nat) :=
  if up then (if off ≤ i then some (some (i - off)) else none)
  else if i + off < vl then some (some (i + off)) else some none

/-- A slide. -/
def slide (s : State) (up : Bool) (vd va : Reg) (b : VOp) (m : Reg3) (raw : Instr) : Out :=
  if negativeImm b then raise s { code := 1, tval := instrBits raw }
  else vecAny s fun md =>
    let w := tyWidth md.ty
    let src (s : State) (i : Nat) := slideSource up (vlOf s) (slideOff s b) i
    crossVector s (.ok ()) vd w [winOf s va w] m (secondLease · b)
      (fun s => (crossIdx s m).filterMap fun i =>
        match src s i with
        | some (some j) => some (winOf s va w, j)
        | _ => none)
      (fun s => (crossIdx s m).filterMap fun i =>
        match src s i with
        | some (some j) => some (i, elem s va w j)
        | some none => some (i, 0)
        | none => none)

def execVslideup (vd va : Reg) (b : VOp) (m : Reg3) (s : State) : Out := slide s true vd va b m (.vslideup vd va b m)
def execVslidedn (vd va : Reg) (b : VOp) (m : Reg3) (s : State) : Out := slide s false vd va b m (.vslidedn vd va b m)

def execVgather (vd va vb : Reg) (m : Reg3) (s : State) : Out :=
  vecAny s fun md =>
    let w := tyWidth md.ty
    crossVector s (.ok ()) vd w [winOf s va w, winOf s vb w] m (fun _ => {})
      (fun s => (crossIdx s m).flatMap fun i =>
        let j := elem s vb w i
        (winOf s vb w, i) :: if j < vlOf s then [(winOf s va w, j)] else [])
      (fun s => (crossIdx s m).map fun i =>
        let j := elem s vb w i
        (i, if j < vlOf s then elem s va w j else 0))

def execVcompress (vd va : Reg) (m : Reg3) (s : State) : Out :=
  vecAny s fun md =>
    let w := tyWidth md.ty
    crossVector s (.ok ()) vd w [winOf s va w] m (fun _ => {})
      (fun s => (crossIdx s m).map fun i => (winOf s va w, i))
      (fun s => (List.range (crossIdx s m).length).zip ((crossIdx s m).map (elem s va w)))

/-! ### Element-wise moves (R242) -/

def execVbcast (vd b : Reg) (m : Reg3) (s : State) : Out :=
  vecAny s fun md =>
    let w := tyWidth md.ty
    elementwise s (.ok ()) vd w [] m (fun s => (gpr s b).lease) false fun s _ _ => ((gval s b).toNat % 2 ^ w, 0, false)

def execVid (vd : Reg) (m : Reg3) (s : State) : Out :=
  vecAny s fun md =>
    elementwise s (needTy s (tyIsInt md.ty)) vd (tyWidth md.ty) [] m (fun _ => {}) false fun _ i _ => (i % 2 ^ tyWidth md.ty, 0, false)

def execVmv (vd va : Reg) (m : Reg3) (s : State) : Out :=
  vecAny s fun md =>
    let w := tyWidth md.ty
    elementwise s (.ok ()) vd w [winOf s va w] m (fun _ => {}) false fun s i _ => (elem s va w i, 0, false)

/-- `vmerge`: the mask selects and leaves no element out; a source element counts as read where it is selected. -/
def execVmerge (vd va : Reg) (b : VOp) (m : Reg3) (s : State) : Out :=
  vecAny s fun md =>
    let w := tyWidth md.ty
    let srcs := winOf s va w :: secondWin s b w
    checked s (checkDest s true vd w srcs (vlOf s)) fun _ =>
      withChunks s (opRegs srcs) fun s =>
        let read (i : Nat) : List WinOp := if maskBit s m i then secondWin s b w else [winOf s va w]
        let lo := vstartOf s
        let hi := stopAt s 0 w
        let all := indexes lo hi
        let bad := all.find? fun i => anyPoisoned s (read i) i
        let idxs := match bad with
          | some k => all.filter (· < k)
          | none => all
        let sp : Span := { lo := lo, hi := hi, idxs := idxs, poisoned := bad }
        let xs := idxs.map fun i => (i, if maskBit s m i then second s b w i else elem s va w i)
        let base := (vreg s vd).win.base.toNat
        let lease := ((vecLeases s (opRegs srcs)).union (secondLease s b)).union (maskLease s m)
        let t := writeElems s base w xs
        let t := if lo < hi then leaseWritten t vd (wholeWrite s 0 sp) (rowsOf s base w idxs) lease else t
        closeSpan (closeGroups t vd w sp) sp

/-! ### Moves between a vector and a general register (R243) -/

/-- An element extended to 64 bits: signed for `i` types, else with zeros. -/
def extElem (t : ElemTy) (x : Nat) : Word := if tyIsSigned t then sextNat (tyWidth t) x else BitVec.ofNat 64 x

/-- Element 0 is written if `vl` is at least 1 and `vstart` is 0. -/
def execVmvsx (vd b : Reg) (s : State) : Out :=
  vecAny s fun md =>
    let w := tyWidth md.ty
    checked s (checkDest s true vd w [] (vlOf s)) fun _ =>
      if 1 ≤ vlOf s ∧ vstartOf s = 0 then
        let base := (vreg s vd).win.base.toNat
        let t := writeElems s base w [(0, (gval s b).toNat % 2 ^ w)]
        let t := leaseWritten t vd (vlOf s == 1) (rowsOf s base w [0]) (gpr s b).lease
        .next (complete (setVstart (setGroups t vd w (vlOf s) false) 0) 4)
      else .next (complete (setVstart (setGroups s vd w (vlOf s) false) 0) 4)

/-- Element 0 is read whatever `vl` is. -/
def execVmvxs (d va : Reg) (s : State) : Out :=
  vecAny s fun md =>
    let w := tyWidth md.ty
    crossScalar s (.ok ()) d (winOf s va w) 0 (fun _ => {}) (max 1 (vlOf s)) (fun s => [(winOf s va w, 0)])
      fun s => (extElem md.ty (elem s va w 0), 0, false)

def execVext (d va : Reg) (b : VOp) (s : State) : Out :=
  if negativeImm b then raise s { code := 1, tval := instrBits (.vext d va b) }
  else vecAny s fun md =>
    let w := tyWidth md.ty
    crossScalar s (.ok ()) d (winOf s va w) 0 (secondLease · b) (vlOf s)
      (fun s => if slideOff s b < vlOf s then [(winOf s va w, slideOff s b)] else [])
      fun s => (if slideOff s b < vlOf s then extElem md.ty (elem s va w (slideOff s b)) else 0, 0, false)

end Sys2Proof.Machine
end

