-- ==== Sys2Proof/Machine/Reduce.lean ====
section
/-!
DEFINITION. Reductions (R239, R217 to R219) and the gang reduction `vsred` (R187).
-/

namespace Sys2Proof.Machine

/-- The leaves of the tree of R217: one position for each element below `vl`, empty where the element is not active. -/
def leaves (s : State) (m : Reg3) (f : Nat → Nat) : List (Option Nat) :=
  (List.range (vlOf s)).map fun i => if maskBit s m i then some (f i) else none

/-- Combine two positions: an empty one gives way. -/
def combine {α : Type} (f : α → α → α) : Option α → Option α → Option α
  | some x, some y => some (f x y)
  | none, y => y
  | x, none => x

/-- The tree over positions that may be empty. -/
def leafTree {α : Type} (f : α → α → α) (xs : List (Option α)) : Option α :=
  ((tree (combine f) (xs.length + 1) xs).head?).getD none

/-- A reduction: `gb` gives the initial value, `value` the result from the leaves. -/
def reduce (s : State) (d va b : Reg) (m : Reg3) (ok : ElemTy → Bool)
    (value : VMode → Nat → List (Option Nat) → Word × Flags × Bool) : Out :=
  checked s (vmode s noSr) fun md =>
    let w := tyWidth md.ty
    crossScalar s (needTy s (ok md.ty)) d (winOf s va w) m (fun s => (gpr s b).lease) (vlOf s)
      (fun s => (activeIdx s m 0 (vlOf s)).map fun i => (winOf s va w, i))
      fun s => value md (gval s b).toNat (leaves s m (elem s va w))

/-- The active elements as integers of the type. -/
def intLeaves (md : VMode) (xs : List (Option Nat)) : List Int := xs.filterMap fun x => x.map (tyInt md.ty)

/-- The initial value of an integer reduction: gb at 64 bits, signed or natural by type. -/
def intInit (md : VMode) (x : Nat) : Int := if tyIsSigned md.ty then toSigned 64 x else (x : Int)

/-- The 64-bit type of the result. -/
def wideTy (md : VMode) : ElemTy := if tyIsSigned md.ty then .i64 else .n64

/-- `vredsum`: the exact sum, wrapped or clamped to 64 bits. -/
def sumInts (md : VMode) (init : Nat) (xs : List (Option Nat)) : Word × Flags × Bool :=
  let r := fitInt md.sat (wideTy md) ((intLeaves md xs).foldl (· + ·) (intInit md init))
  (BitVec.ofNat 64 r.1, 0, r.2)

/-- `vredmax` and `vredmin`. -/
def pickInts (big : Bool) (md : VMode) (init : Nat) (xs : List (Option Nat)) : Word × Flags × Bool :=
  let r := (intLeaves md xs).foldl (fun a x => if big then max a x else min a x) (intInit md init)
  (BitVec.ofNat 64 (ofSigned 64 r), 0, false)

/-- A float leaf, widened to FP32; a signalling NaN that is read sets NV (R205). -/
def floatLeaf (md : VMode) (x : Nat) : FVal × Flags :=
  let v := (tyFmt md.ty).decode x
  (fmtF32.decode (widenBits fmtF32 v), snanFlag [v])

/-- One FP32 addition under a rounding mode, with the flags of both sides (R217). -/
def addMode (md : VMode) (x y : FVal × Flags) : FVal × Flags :=
  let r := FVal.add md.rm x.1 y.1
  let b := roundTo fmtF32 md.sat md.rm 0 r.1
  (fmtF32.decode b.1, x.2 ||| y.2 ||| r.2 ||| b.2)

/-- A float result in a general register: a NaN is canonical. -/
def floatResult (r : FVal × Flags) : Word × Flags × Bool := (BitVec.ofNat 64 (widenBits fmtF32 r.1), r.2, false)

/-- The initial value of a float reduction: gb[31:0]. -/
def floatInit (x : Nat) : FVal × Flags := (fmtF32.decode (x % 2 ^ 32), snanFlag [fmtF32.decode (x % 2 ^ 32)])

/-- `vfredsum`: the fixed tree, then the initial value. -/
def sumTree (md : VMode) (init : Nat) (xs : List (Option Nat)) : Word × Flags × Bool :=
  match leafTree (addMode md) (xs.map fun x => x.map (floatLeaf md)) with
  | some t => floatResult (addMode md (floatInit init) t)
  | none => floatResult (floatInit init)

/-- `vfredosum`: strictly in element order. -/
def sumOrdered (md : VMode) (init : Nat) (xs : List (Option Nat)) : Word × Flags × Bool :=
  floatResult ((xs.filterMap fun x => x.map (floatLeaf md)).foldl (addMode md) (floatInit init))

/-- `vfredmax`: the greatest value that is no NaN. -/
def pickFloats (md : VMode) (init : Nat) (xs : List (Option Nat)) : Word × Flags × Bool :=
  let vs := (xs.filterMap fun x => x.map (floatLeaf md))
  floatResult (vs.foldl (fun a x => (FVal.minMax true a.1 x.1, a.2 ||| x.2)) (floatInit init))

def execVredsum (d va b : Reg) (m : Reg3) (s : State) : Out := reduce s d va b m tyIsInt sumInts
def execVredmax (d va b : Reg) (m : Reg3) (s : State) : Out := reduce s d va b m tyIsInt (pickInts true)
def execVredmin (d va b : Reg) (m : Reg3) (s : State) : Out := reduce s d va b m tyIsInt (pickInts false)
def execVfredsum (d va b : Reg) (m : Reg3) (s : State) : Out := reduce s d va b m tyIsAnyFloat sumTree
def execVfredosum (d va b : Reg) (m : Reg3) (s : State) : Out := reduce s d va b m tyIsAnyFloat sumOrdered
def execVfredmax (d va b : Reg) (m : Reg3) (s : State) : Out := reduce s d va b m tyIsAnyFloat pickFloats

/-! ### The gang reduction (R187) -/

/-- The types of `vsred`. -/
def vsredType : ElemTy → Bool
  | .f32 | .bf16 | .i32 | .n32 | .i64 | .n64 => true
  | _ => false

/-- `vsred`: the checks of a vector instruction, its groups (R246), then the barrier; the last arrival gives every member its result. -/
def execVsred (vd va : Reg) (m : Reg3) (s : State) : Out :=
  checked s (vmode s noSr) fun md =>
    let w := tyWidth md.ty
    let srcs := [winOf s va w]
    checked s (do needTy s (vsredType md.ty); checkDest s true vd w srcs (vlOf s)) fun _ =>
      withChunks s [va] fun s =>
        match lowestPoisoned s ((activeIdx s m 0 (vlOf s)).map fun i => (winOf s va w, i)) with
        | some k => crossPoison (setIndex s vd 0 false) k
        | none =>
          let t := setIndex s vd 0 true
          if groupOnly s (crossGroups s w) then nextBeat t else atBarrier t (.vsred vd va m)

end Sys2Proof.Machine
end

