-- ==== Sys2Proof/Machine/ScalarFp.lean ====
section
/-!
DEFINITION. Scalar floating point (R47, R117, R118).
-/

namespace Sys2Proof.Machine

/-- The FP32 value in bits 31:0 of a register (R47). -/
def fpVal (s : State) (r : Reg) : FVal := fmtF32.decode (field (gval s r) 0 32)

/-- Write an FP32 or integer result, join its flags into `fstat`. -/
def fpFinish (s : State) (d : Reg) (x : Word) (l : LeaseSet) (f : Flags) : Out := finish (addFstat s f) 4 d (result x l)

/-- Round a value to FP32 under `fstat`.rm and write it. -/
def fpRound (s : State) (d : Reg) (v : FVal × Flags) (l : LeaseSet) : Out :=
  let r := roundTo fmtF32 false (scalarRm s) 0 v.1
  fpFinish s d (BitVec.ofNat 64 r.1) l (v.2 ||| r.2)

def execFadd (d a b : Reg) (s : State) : Out := fpRound s d (FVal.add (scalarRm s) (fpVal s a) (fpVal s b)) (leases2 s a b)
def execFsub (d a b : Reg) (s : State) : Out :=
  fpRound s d (FVal.add (scalarRm s) (fpVal s a) (fpVal s b).negate) (leases2 s a b)
def execFmul (d a b : Reg) (s : State) : Out := fpRound s d (FVal.mul (fpVal s a) (fpVal s b)) (leases2 s a b)
def execFdiv (d a b : Reg) (s : State) : Out := fpRound s d (FVal.div (fpVal s a) (fpVal s b)) (leases2 s a b)
def execFmadd (d a b : Reg) (s : State) : Out :=
  fpRound s d (FVal.fma (scalarRm s) (fpVal s a) (fpVal s b) (fpVal s d)) ((leases2 s a b).union (gpr s d).lease)
def execFsqrt (d a : Reg) (s : State) : Out := fpRound s d (FVal.sqrt (fpVal s a)) (gpr s a).lease

/-- `fmin` and `fmax`: −0 lies below +0, a NaN operand gives the other operand. -/
def fpMinMax (s : State) (wantMax : Bool) (d a b : Reg) : Out :=
  let x := fpVal s a
  let y := fpVal s b
  fpFinish s d (BitVec.ofNat 64 (widenBits fmtF32 (FVal.minMax wantMax x y))) (leases2 s a b) (snanFlag [x, y])

def execFmin (d a b : Reg) (s : State) : Out := fpMinMax s false d a b
def execFmax (d a b : Reg) (s : State) : Out := fpMinMax s true d a b

/-- A comparison: false with a NaN; `quietNan` comparisons raise NV for a signalling NaN only. -/
def fpCompare (s : State) (quietNan : Bool) (ok : Ordering → Bool) (d a b : Reg) : Out :=
  let x := fpVal s a
  let y := fpVal s b
  let nan := x.isNan || y.isNan
  let f := if quietNan then snanFlag [x, y] else flagIf nan flagNV
  fpFinish s d (boolWord (!nan && ok (FVal.cmp x y))) (leases2 s a b) f

def execFeq (d a b : Reg) (s : State) : Out := fpCompare s true (· == .eq) d a b
def execFlt (d a b : Reg) (s : State) : Out := fpCompare s false (· == .lt) d a b
def execFle (d a b : Reg) (s : State) : Out := fpCompare s false (· != .gt) d a b

def execFclass (d a : Reg) (s : State) : Out :=
  finish s 4 d (result (BitVec.ofNat 64 (2 ^ fclassBit (field (gval s a) 0 32))) (gpr s a).lease)

/-! ### Conversions (R118) -/

/-- An integer to FP32. -/
def fpFromInt (s : State) (d a : Reg) (x : Int) : Out := fpRound s d (FVal.ofInt x, 0) (gpr s a).lease

def execFcvtF32I32 (d a : Reg) (s : State) : Out := fpFromInt s d a (toSigned 32 (gval s a).toNat)
def execFcvtF32N32 (d a : Reg) (s : State) : Out := fpFromInt s d a (field (gval s a) 0 32 : Nat)
def execFcvtF32I64 (d a : Reg) (s : State) : Out := fpFromInt s d a (gval s a).toInt
def execFcvtF32N64 (d a : Reg) (s : State) : Out := fpFromInt s d a ((gval s a).toNat : Nat)

/-- FP32 to an integer of a range, saturating with NV (R118). -/
def fpToInt (s : State) (d a : Reg) (lo hi : Int) : Out :=
  let r := FVal.toInt (scalarRm s) lo hi (fpVal s a)
  fpFinish s d (BitVec.ofInt 64 r.1) (gpr s a).lease r.2

def execFcvtI32F32 (d a : Reg) (s : State) : Out := fpToInt s d a (-(2 ^ 31)) (2 ^ 31 - 1)
def execFcvtN32F32 (d a : Reg) (s : State) : Out := fpToInt s d a 0 (2 ^ 32 - 1)
def execFcvtI64F32 (d a : Reg) (s : State) : Out := fpToInt s d a (-(2 ^ 63)) (2 ^ 63 - 1)
def execFcvtN64F32 (d a : Reg) (s : State) : Out := fpToInt s d a 0 (2 ^ 64 - 1)

end Sys2Proof.Machine
end

