-- ==== Sys2Proof/Machine/VConfig.lean ====
section
/-!
DEFINITION. Setting the vector length and type (R157) and placing windows (R158).
-/

namespace Sys2Proof.Machine

/-- A 64-bit value that `vtype` accepts (R157). -/
def vtypeOk (t : Word) : Bool :=
  field t 10 54 == 0 && field t 0 4 < 14 && field t 6 3 < 5 && !(field t 0 4 == 13 && field t 4 2 == 0)

/-- The capacity that bounds `vl`, in bits: the gang's, or in a replica the hart's with one slab (R29, R32, R157). -/
def vlCapacity (s : State) : Nat :=
  if s.hart.par.isSome then s.hart.depth * 2048 else gangCapacity s s.hart.gangStack s.hart.gang

/-- The length granted for a request under a valid type (R157). -/
def grantedLen (capacity req : Nat) (t : Word) : Nat :=
  let w := match ElemTy.ofCode (field t 0 4) with
    | some ty => tyWidth ty
    | none => 4
  let n := min req (capacity / w)
  let b := blkLen (field t 4 2)
  if b = 0 then n else n - n % b

/-- `vsetvl` and `vsetvli` (R157). -/
def setLength (s : State) (d : Reg) (req : Nat) (t : Word) (lease : LeaseSet) : Out :=
  if !vtypeOk t then raise s { code := 33, tval := t }
  else
    let n := grantedLen (vlCapacity s) req t
    let u := setCsrs s fun c => { c with vl := BitVec.ofNat 64 n, vtype := t.truncate 10, vstart := 0 }
    finish u 4 d (result (BitVec.ofNat 64 n) lease)

/-- The request of `vsetvli`: c × 2^e, or as much as there is. -/
def immRequest (e : BitVec 3) (c : BitVec 6) : Nat :=
  if e = 7 ∧ c = 63 then 2 ^ 64 - 1 else c.toNat * 2 ^ e.toNat

def execVsetvli (d : Reg) (e : BitVec 3) (c : BitVec 6) (vt : BitVec 10) (s : State) : Out :=
  setLength s d (immRequest e c) (vt.zeroExtend 64) {}

def execVsetvl (d a b : Reg) (s : State) : Out := setLength s d (gval s a).toNat (gval s b) (leases2 s a b)

/-- The union of the lease sets of every vector register other than `v` and every scale register whose window shares a
row with a window (R158). -/
def sharedLeases (s : State) (v : Reg) (w : Window) : LeaseSet :=
  let vs := (List.range 32).filter fun i => i != v.toNat && w.shares (vreg s (BitVec.ofNat 5 i)).win
  let ks := (List.range 8).filter fun i => w.shares (kreg s (BitVec.ofNat 3 i)).win
  ks.foldl (fun l i => l.union (kreg s (BitVec.ofNat 3 i)).lease)
    (vs.foldl (fun l i => l.union (vreg s (BitVec.ofNat 5 i)).lease) {})

def execVwin (vd a b : Reg) (s : State) : Out :=
  let base := (gval s a).toNat
  let len := (gval s b).toNat
  if 2047 < base ∨ 2048 < len ∨ (bindingOf s vd).isSome then raise s { code := 32, tval := BitVec.ofNat 64 vd.toNat }
  else
    let w : Window := { base := BitVec.ofNat 11 base, len := BitVec.ofNat 12 len }
    .next (advance 4 (setVreg s vd { win := w, busy := false, groups := 0, lease := sharedLeases s vd w }))

end Sys2Proof.Machine
end

