-- ==== Sys2Proof/Machine/VFp.lean ====
section
/-!
DEFINITION. Vector floating point (R231, R232).
-/

namespace Sys2Proof.Machine

/-- A floating-point instruction with a second operand; `f` computes the bits and flags of a result element from the mode,
va[i], the second operand and vd[i]; `addend` says whether vd is a source. -/
def vecFp (s : State) (vd va : Reg) (b : VOp) (m : Reg3) (addend : Bool)
    (f : VMode → Nat → Nat → Nat → Nat × Flags) : Out :=
  checked s (vmode s noSr) fun md =>
    let w := tyWidth md.ty
    let srcs := winOf s va w :: secondWin s b w ++ if addend then [winOf s vd w] else []
    elementwise s (needTy s (tyIsFloat md.ty)) vd w srcs m (secondLease · b) false
      fun s i _ =>
        let r := f md (elem s va w i) (second s b w i) (elem s vd w i)
        (r.1, r.2, false)

/-- The value of an element in the mode's format. -/
def fpElem (md : VMode) (x : Nat) : FVal := (tyFmt md.ty).decode x

/-- Round a value with flags to the mode's format (R231). -/
def fpDeliver (md : VMode) (v : FVal × Flags) : Nat × Flags :=
  let r := roundTo (tyFmt md.ty) md.sat md.rm 0 v.1
  (r.1, v.2 ||| r.2)

/-- A result of two values. -/
def fpBinary (f : VMode → FVal → FVal → FVal × Flags) (md : VMode) (x y _z : Nat) : Nat × Flags :=
  fpDeliver md (f md (fpElem md x) (fpElem md y))

/-- `vfmin` and `vfmax` (R117). -/
def fpPick (big : Bool) (md : VMode) (x y _z : Nat) : Nat × Flags :=
  (widenBits (tyFmt md.ty) (FVal.minMax big (fpElem md x) (fpElem md y)), snanFlag [fpElem md x, fpElem md y])

/-- The fused forms: x × y + z and z − x × y, one rounding. -/
def fpFused (minus : Bool) (md : VMode) (x y z : Nat) : Nat × Flags :=
  let p := fpElem md x
  fpDeliver md (FVal.fma md.rm (if minus then p.negate else p) (fpElem md y) (fpElem md z))

/-- x with the sign bit of y. -/
def fpSign (md : VMode) (x y _z : Nat) : Nat × Flags :=
  let h := 2 ^ (tyWidth md.ty - 1)
  (x % h + y / h % 2 * h, 0)

def execVfadd (vd va : Reg) (b : VOp) (m : Reg3) (s : State) : Out :=
  vecFp s vd va b m false (fpBinary fun md x y => FVal.add md.rm x y)
def execVfsub (vd va : Reg) (b : VOp) (m : Reg3) (s : State) : Out :=
  vecFp s vd va b m false (fpBinary fun md x y => FVal.add md.rm x y.negate)
def execVfmul (vd va : Reg) (b : VOp) (m : Reg3) (s : State) : Out :=
  vecFp s vd va b m false (fpBinary fun _ x y => FVal.mul x y)
def execVfdiv (vd va : Reg) (b : VOp) (m : Reg3) (s : State) : Out :=
  vecFp s vd va b m false (fpBinary fun _ x y => FVal.div x y)
def execVfmadd (vd va : Reg) (b : VOp) (m : Reg3) (s : State) : Out := vecFp s vd va b m true (fpFused false)
def execVfnmsub (vd va : Reg) (b : VOp) (m : Reg3) (s : State) : Out := vecFp s vd va b m true (fpFused true)
def execVfmin (vd va : Reg) (b : VOp) (m : Reg3) (s : State) : Out := vecFp s vd va b m false (fpPick false)
def execVfmax (vd va : Reg) (b : VOp) (m : Reg3) (s : State) : Out := vecFp s vd va b m false (fpPick true)
def execVfsgnj (vd va : Reg) (b : VOp) (m : Reg3) (s : State) : Out := vecFp s vd va b m false fpSign

/-- The exponent n of `vfscale` for element `i` (R231). -/
def scaleExp (s : State) (b : VOp) (w i : Nat) : Int :=
  match b with
  | .vv r => toSigned w (elem s r w i)
  | .vs r => (gval s r).toInt
  | .vi imm => imm.toInt

/-- An exponent beyond every format's reach counts as one at the edge of it: the rounded result is the same. -/
def boundExp (n : Int) : Int := max (-4096) (min 4096 n)

/-- x × 2^n. -/
def scaleVal (x : FVal) (n : Int) : FVal :=
  match x with
  | .fin neg man e => .fin neg man (e + boundExp n)
  | v => v

def execVfscale (vd va : Reg) (b : VOp) (m : Reg3) (s : State) : Out :=
  checked s (vmode s noSr) fun md =>
    let w := tyWidth md.ty
    elementwise s (needTy s (tyIsFloat md.ty)) vd w (winOf s va w :: secondWin s b w) m (secondLease · b) false
      fun s i _ =>
        let r := fpDeliver md (scaleVal (fpElem md (elem s va w i)) (scaleExp s b w i), 0)
        (r.1, r.2, false)

/-- A unary form (R232). -/
def vecFpUnary (s : State) (vd va : Reg) (m : Reg3) (f : VMode → FVal → FVal × Flags) : Out :=
  checked s (vmode s noSr) fun md =>
    let w := tyWidth md.ty
    elementwise s (needTy s (tyIsFloat md.ty)) vd w [winOf s va w] m (fun _ => {}) false
      fun s i _ =>
        let r := fpDeliver md (f md (fpElem md (elem s va w i)))
        (r.1, r.2, false)

/-- The integral value of x, its sign kept; NX if it changed. -/
def roundIntegral (md : VMode) (x : FVal) : FVal × Flags :=
  match x with
  | .fin neg man exp =>
    let r := roundMag md.rm neg man exp 0 0
    (.fin neg r.1 0, flagIf r.2 flagNX)
  | v => (v, 0)

/-- 1. -/
def fpOne : FVal := .fin false 1 0

def execVfsqrt (vd va : Reg) (m : Reg3) (s : State) : Out := vecFpUnary s vd va m fun _ x => FVal.sqrt x
def execVfrecip (vd va : Reg) (m : Reg3) (s : State) : Out := vecFpUnary s vd va m fun _ x => FVal.div fpOne x
def execVfrsqrt (vd va : Reg) (m : Reg3) (s : State) : Out := vecFpUnary s vd va m fun _ x => FVal.rsqrt x
def execVfround (vd va : Reg) (m : Reg3) (s : State) : Out := vecFpUnary s vd va m roundIntegral

end Sys2Proof.Machine
end

