-- ==== Sys2Proof/Machine/VInt.lean ====
section
/-!
DEFINITION. Vector integer arithmetic (R230).
-/

namespace Sys2Proof.Machine

/-- An integer instruction: `f` computes a result element from va[i] and the second operand, with its saturation. -/
def vecInt (s : State) (vd va : Reg) (b : VOp) (m : Reg3) (f : VMode → Nat → Nat → Nat × Bool) : Out :=
  checked s (vmode s noSr) fun md =>
    let w := tyWidth md.ty
    elementwise s (needTy s (tyIsInt md.ty)) vd w (winOf s va w :: secondWin s b w) m (secondLease · b) false
      fun s i _ =>
        let r := f md (elem s va w i) (second s b w i)
        (r.1, 0, r.2)

/-- A shift: y mod w places, an immediate read as 0 to 31. -/
def vecShift (s : State) (vd va : Reg) (b : VOp) (m : Reg3) (f : Nat → Nat → Nat → Nat) : Out :=
  checked s (vmode s noSr) fun md =>
    let w := tyWidth md.ty
    elementwise s (needTy s (tyIsInt md.ty)) vd w (winOf s va w :: secondWin s b w) m (secondLease · b) false
      fun s i _ => (f w (elem s va w i) (secondShift s b w i % w), 0, false)

/-- `fit` of an exact result, by the type's sign (R230, R202). -/
def fitOp (f : Int → Int → Int) (md : VMode) (x y : Nat) : Nat × Bool :=
  fitInt md.sat md.ty (f (tyInt md.ty x) (tyInt md.ty y))

/-- `sat_int` of an exact result. -/
def satOp (f : Int → Int → Int) (md : VMode) (x y : Nat) : Nat × Bool := satInt md.ty (f (tyInt md.ty x) (tyInt md.ty y))

/-- A result of the bit patterns alone. -/
def bitOp (f : Nat → Nat → Nat) (_md : VMode) (x y : Nat) : Nat × Bool := (f x y, false)

/-- The high half of the exact product, signed by type. -/
def mulHighElem (md : VMode) (x y : Nat) : Nat × Bool :=
  let w := tyWidth md.ty
  (ofSigned w (tyInt md.ty x * tyInt md.ty y / (2 ^ w : Nat)), false)

/-- The lesser or greater of two elements, read as signed whatever the type. -/
def signedPick (big : Bool) (md : VMode) (x y : Nat) : Nat × Bool :=
  let w := tyWidth md.ty
  (if (toSigned w x < toSigned w y) = !big then x else y, false)

/-- The lesser or greater, natural. -/
def naturalPick (big : Bool) (_md : VMode) (x y : Nat) : Nat × Bool := (if big then max x y else min x y, false)

def execVadd (vd va : Reg) (b : VOp) (m : Reg3) (s : State) : Out := vecInt s vd va b m (fitOp (· + ·))
def execVsub (vd va : Reg) (b : VOp) (m : Reg3) (s : State) : Out := vecInt s vd va b m (fitOp (· - ·))
def execVmul (vd va : Reg) (b : VOp) (m : Reg3) (s : State) : Out := vecInt s vd va b m (fitOp (· * ·))
def execVmulh (vd va : Reg) (b : VOp) (m : Reg3) (s : State) : Out := vecInt s vd va b m mulHighElem
def execVand (vd va : Reg) (b : VOp) (m : Reg3) (s : State) : Out := vecInt s vd va b m (bitOp (· &&& ·))
def execVor (vd va : Reg) (b : VOp) (m : Reg3) (s : State) : Out := vecInt s vd va b m (bitOp (· ||| ·))
def execVxor (vd va : Reg) (b : VOp) (m : Reg3) (s : State) : Out := vecInt s vd va b m (bitOp (· ^^^ ·))
def execVsll (vd va : Reg) (b : VOp) (m : Reg3) (s : State) : Out :=
  vecShift s vd va b m fun w x n => x * 2 ^ n % 2 ^ w
def execVsrl (vd va : Reg) (b : VOp) (m : Reg3) (s : State) : Out := vecShift s vd va b m fun _ x n => x / 2 ^ n
def execVsra (vd va : Reg) (b : VOp) (m : Reg3) (s : State) : Out :=
  vecShift s vd va b m fun w x n => ofSigned w (toSigned w x / (2 ^ n : Nat))
def execVmin (vd va : Reg) (b : VOp) (m : Reg3) (s : State) : Out := vecInt s vd va b m (signedPick false)
def execVmax (vd va : Reg) (b : VOp) (m : Reg3) (s : State) : Out := vecInt s vd va b m (signedPick true)
def execVminn (vd va : Reg) (b : VOp) (m : Reg3) (s : State) : Out := vecInt s vd va b m (naturalPick false)
def execVmaxn (vd va : Reg) (b : VOp) (m : Reg3) (s : State) : Out := vecInt s vd va b m (naturalPick true)
def execVsadd (vd va : Reg) (b : VOp) (m : Reg3) (s : State) : Out := vecInt s vd va b m (satOp (· + ·))
def execVssub (vd va : Reg) (b : VOp) (m : Reg3) (s : State) : Out := vecInt s vd va b m (satOp (· - ·))

end Sys2Proof.Machine
end

