-- ==== Sys2Proof/Machine/VMask.lean ====
section
/-!
DEFINITION. Compares into masks (R233), the mask group and the scalar results of masks (R234, R235).
-/

namespace Sys2Proof.Machine

/-! ### Compares (R233) -/

/-- An integer compare; `rd` reads an element at width `w`. -/
def vecCmp (s : State) (md : Reg3) (va : Reg) (b : VOp) (m : Reg3) (natural : Bool) (ok : Ordering → Bool) : Out :=
  checked s (vmode s noSr) fun v =>
    let w := tyWidth v.ty
    let rd (x : Nat) : Int := if natural then (x % 2 ^ w : Nat) else toSigned w x
    maskwise s (needTy s (tyIsInt v.ty)) md w (winOf s va w :: secondWin s b w) m (secondLease · b)
      fun s i => (ok (compare (rd (elem s va w i)) (rd (second s b w i))), 0)

def execVcmpEq (md : Reg3) (va : Reg) (b : VOp) (m : Reg3) (s : State) : Out := vecCmp s md va b m false (· == .eq)
def execVcmpNe (md : Reg3) (va : Reg) (b : VOp) (m : Reg3) (s : State) : Out := vecCmp s md va b m false (· != .eq)
def execVcmpLt (md : Reg3) (va : Reg) (b : VOp) (m : Reg3) (s : State) : Out := vecCmp s md va b m false (· == .lt)
def execVcmpLe (md : Reg3) (va : Reg) (b : VOp) (m : Reg3) (s : State) : Out := vecCmp s md va b m false (· != .gt)
def execVcmpGt (md : Reg3) (va : Reg) (b : VOp) (m : Reg3) (s : State) : Out := vecCmp s md va b m false (· == .gt)
def execVcmpGe (md : Reg3) (va : Reg) (b : VOp) (m : Reg3) (s : State) : Out := vecCmp s md va b m false (· != .lt)
def execVcmpLtn (md : Reg3) (va : Reg) (b : VOp) (m : Reg3) (s : State) : Out := vecCmp s md va b m true (· == .lt)
def execVcmpLen (md : Reg3) (va : Reg) (b : VOp) (m : Reg3) (s : State) : Out := vecCmp s md va b m true (· != .gt)
def execVcmpGtn (md : Reg3) (va : Reg) (b : VOp) (m : Reg3) (s : State) : Out := vecCmp s md va b m true (· == .gt)
def execVcmpGen (md : Reg3) (va : Reg) (b : VOp) (m : Reg3) (s : State) : Out := vecCmp s md va b m true (· != .lt)

/-- A floating-point compare: a NaN gives `nan`; `quietNan` compares set NV for a signalling NaN only. -/
def vecFcmp (s : State) (md : Reg3) (va : Reg) (b : VOp) (m : Reg3) (quietNan nan : Bool) (ok : Ordering → Bool) : Out :=
  checked s (vmode s noSr) fun v =>
    let w := tyWidth v.ty
    maskwise s (needTy s (tyIsFloat v.ty)) md w (winOf s va w :: secondWin s b w) m (secondLease · b)
      fun s i =>
        let x := (tyFmt v.ty).decode (elem s va w i)
        let y := (tyFmt v.ty).decode (second s b w i)
        let isNan := x.isNan || y.isNan
        (if isNan then nan else ok (FVal.cmp x y), if quietNan then snanFlag [x, y] else flagIf isNan flagNV)

def execVfcmpEq (md : Reg3) (va : Reg) (b : VOp) (m : Reg3) (s : State) : Out :=
  vecFcmp s md va b m true false (· == .eq)
def execVfcmpNe (md : Reg3) (va : Reg) (b : VOp) (m : Reg3) (s : State) : Out :=
  vecFcmp s md va b m true true (· != .eq)
def execVfcmpLt (md : Reg3) (va : Reg) (b : VOp) (m : Reg3) (s : State) : Out :=
  vecFcmp s md va b m false false (· == .lt)
def execVfcmpLe (md : Reg3) (va : Reg) (b : VOp) (m : Reg3) (s : State) : Out :=
  vecFcmp s md va b m false false (· != .gt)
def execVfcmpGt (md : Reg3) (va : Reg) (b : VOp) (m : Reg3) (s : State) : Out :=
  vecFcmp s md va b m false false (· == .gt)
def execVfcmpGe (md : Reg3) (va : Reg) (b : VOp) (m : Reg3) (s : State) : Out :=
  vecFcmp s md va b m false false (· != .lt)

/-! ### The mask group (R234) -/

/-- `vl` exceeds the capacity of a mask: cause 34, with the mask's number (R157, R54). -/
def checkMaskLen (s : State) (m : Reg3) : Except Exc Unit :=
  if maskBits s < vlOf s then .error { code := 34, tval := m.zeroExtend 64 } else .ok ()

/-- The bits of a mask below `n`; m0 reads all ones. -/
def lowBits (s : State) (m : Reg3) (n : Nat) : Nat := if m = 0 then 2 ^ n - 1 else (mreg s m).bits % 2 ^ n

/-- The mask groups that hold a bit below `vl`, at least one (R234). -/
def maskGroups (s : State) : Nat := max 1 (ceilDiv (vlOf s) (maskGroup s))

/-- A mask with the bits from `lo` to `hi − 1` replaced. -/
def spliceBits (old lo hi new : Nat) : Nat := old / 2 ^ hi * 2 ^ hi + new / 2 ^ lo % 2 ^ (hi - lo) * 2 ^ lo + old % 2 ^ lo

/-- Write the bits below `vl` of `md`, group by group, leave the others (R234). The lease set is replaced at `vl` = 0 as well, where an
element-wise write leaves that of its destination: a DESIGN CHOICE (log 38). -/
def maskOp (s : State) (md : Reg3) (srcs : List Reg3) (bits : Nat → Nat) : Out :=
  checked s (checkMaskLen s md) fun _ =>
    let n := vlOf s
    let lo := min n (s.hart.issued * maskGroup s)
    let old := mreg s md
    let lease := srcs.foldl (fun l r => l.union (maskLease s r)) {}
    if groupOnly s (maskGroups s) then
      nextBeat (setMreg s md { bits := spliceBits old.bits lo (lo + maskGroup s) (bits n), lease := old.lease.union lease })
    else closeCross (setMreg s md { bits := spliceBits old.bits lo n (bits n), lease := lease })

def execMand (md ma mb : Reg3) (s : State) : Out := maskOp s md [ma, mb] fun n => lowBits s ma n &&& lowBits s mb n
def execMor (md ma mb : Reg3) (s : State) : Out := maskOp s md [ma, mb] fun n => lowBits s ma n ||| lowBits s mb n
def execMxor (md ma mb : Reg3) (s : State) : Out := maskOp s md [ma, mb] fun n => lowBits s ma n ^^^ lowBits s mb n
def execMandn (md ma mb : Reg3) (s : State) : Out :=
  maskOp s md [ma, mb] fun n => lowBits s ma n &&& (2 ^ n - 1 - lowBits s mb n)
def execMnot (md ma : Reg3) (s : State) : Out := maskOp s md [ma] fun n => 2 ^ n - 1 - lowBits s ma n
def execMmv (md ma : Reg3) (s : State) : Out := maskOp s md [ma] fun n => lowBits s ma n
def execMset (md : Reg3) (s : State) : Out := maskOp s md [] fun n => 2 ^ n - 1

/-! ### Scalar results of a mask (R235) -/

/-- The number of set bits among the low `n` of a number. -/
def countBits (x : Nat) : Nat → Nat
  | 0 => 0
  | n + 1 => countBits x n + b2n (x.testBit n)

/-- A scalar result of a mask. -/
def maskScalar (s : State) (d : Reg) (m : Reg3) (f : Nat → Nat → Word) : Out :=
  checked s (checkMaskLen s m) fun _ =>
    if groupOnly s (maskGroups s) then nextBeat s
    else closeCross (scalarResult s d (result (f (lowBits s m (vlOf s)) (vlOf s)) (maskLease s m)))

def execMpop (d : Reg) (ma : Reg3) (s : State) : Out := maskScalar s d ma fun x n => BitVec.ofNat 64 (countBits x n)
def execMfirst (d : Reg) (ma : Reg3) (s : State) : Out :=
  maskScalar s d ma fun x n =>
    match (List.range n).find? x.testBit with
    | some i => BitVec.ofNat 64 i
    | none => -1

end Sys2Proof.Machine
end

