-- ==== Sys2Proof/Machine/Dispatch.lean ====
section
/-!
DEFINITION. The one dispatch of the machine: every constructor of `Instr` to its meaning.
-/

namespace Sys2Proof.Machine

def exec (i : Instr) (s : State) : Host.Outcome State Fault Refusal :=
  match i with
  | .lhi d imm => Sys2Proof.Machine.execLhi d imm s
  | .aupc d imm => Sys2Proof.Machine.execAupc d imm s
  | .addi d a imm => Sys2Proof.Machine.execAddi d a imm s
  | .andi d a imm => Sys2Proof.Machine.execAndi d a imm s
  | .ori d a imm => Sys2Proof.Machine.execOri d a imm s
  | .xori d a imm => Sys2Proof.Machine.execXori d a imm s
  | .slti d a imm => Sys2Proof.Machine.execSlti d a imm s
  | .sltni d a imm => Sys2Proof.Machine.execSltni d a imm s
  | .slli d a sh => Sys2Proof.Machine.execSlli d a sh s
  | .srli d a sh => Sys2Proof.Machine.execSrli d a sh s
  | .srai d a sh => Sys2Proof.Machine.execSrai d a sh s
  | .add d a b => Sys2Proof.Machine.execAdd d a b s
  | .sub d a b => Sys2Proof.Machine.execSub d a b s
  | .and d a b => Sys2Proof.Machine.execAnd d a b s
  | .or d a b => Sys2Proof.Machine.execOr d a b s
  | .xor d a b => Sys2Proof.Machine.execXor d a b s
  | .sll d a b => Sys2Proof.Machine.execSll d a b s
  | .srl d a b => Sys2Proof.Machine.execSrl d a b s
  | .sra d a b => Sys2Proof.Machine.execSra d a b s
  | .slt d a b => Sys2Proof.Machine.execSlt d a b s
  | .sltn d a b => Sys2Proof.Machine.execSltn d a b s
  | .mul d a b => Sys2Proof.Machine.execMul d a b s
  | .mulh d a b => Sys2Proof.Machine.execMulh d a b s
  | .mulhn d a b => Sys2Proof.Machine.execMulhn d a b s
  | .div d a b => Sys2Proof.Machine.execDiv d a b s
  | .divn d a b => Sys2Proof.Machine.execDivn d a b s
  | .rem d a b => Sys2Proof.Machine.execRem d a b s
  | .remn d a b => Sys2Proof.Machine.execRemn d a b s
  | .min d a b => Sys2Proof.Machine.execMin d a b s
  | .max d a b => Sys2Proof.Machine.execMax d a b s
  | .minn d a b => Sys2Proof.Machine.execMinn d a b s
  | .maxn d a b => Sys2Proof.Machine.execMaxn d a b s
  | .ldb d a imm => Sys2Proof.Machine.execLdb d a imm s
  | .ldh d a imm => Sys2Proof.Machine.execLdh d a imm s
  | .ldw d a imm => Sys2Proof.Machine.execLdw d a imm s
  | .ldd d a imm => Sys2Proof.Machine.execLdd d a imm s
  | .ldbn d a imm => Sys2Proof.Machine.execLdbn d a imm s
  | .ldhn d a imm => Sys2Proof.Machine.execLdhn d a imm s
  | .ldwn d a imm => Sys2Proof.Machine.execLdwn d a imm s
  | .ldbAcq d a imm => Sys2Proof.Machine.execLdbAcq d a imm s
  | .ldhAcq d a imm => Sys2Proof.Machine.execLdhAcq d a imm s
  | .ldwAcq d a imm => Sys2Proof.Machine.execLdwAcq d a imm s
  | .lddAcq d a imm => Sys2Proof.Machine.execLddAcq d a imm s
  | .ldbnAcq d a imm => Sys2Proof.Machine.execLdbnAcq d a imm s
  | .ldhnAcq d a imm => Sys2Proof.Machine.execLdhnAcq d a imm s
  | .ldwnAcq d a imm => Sys2Proof.Machine.execLdwnAcq d a imm s
  | .stb b a imm => Sys2Proof.Machine.execStb b a imm s
  | .sth b a imm => Sys2Proof.Machine.execSth b a imm s
  | .stw b a imm => Sys2Proof.Machine.execStw b a imm s
  | .std b a imm => Sys2Proof.Machine.execStd b a imm s
  | .stbRel b a imm => Sys2Proof.Machine.execStbRel b a imm s
  | .sthRel b a imm => Sys2Proof.Machine.execSthRel b a imm s
  | .stwRel b a imm => Sys2Proof.Machine.execStwRel b a imm s
  | .stdRel b a imm => Sys2Proof.Machine.execStdRel b a imm s
  | .beq a b off => Sys2Proof.Machine.execBeq a b off s
  | .bne a b off => Sys2Proof.Machine.execBne a b off s
  | .blt a b off => Sys2Proof.Machine.execBlt a b off s
  | .bge a b off => Sys2Proof.Machine.execBge a b off s
  | .bltn a b off => Sys2Proof.Machine.execBltn a b off s
  | .bgen a b off => Sys2Proof.Machine.execBgen a b off s
  | .jal d off => Sys2Proof.Machine.execJal d off s
  | .jalr d a imm => Sys2Proof.Machine.execJalr d a imm s
  | .fadd d a b => Sys2Proof.Machine.execFadd d a b s
  | .fsub d a b => Sys2Proof.Machine.execFsub d a b s
  | .fmul d a b => Sys2Proof.Machine.execFmul d a b s
  | .fdiv d a b => Sys2Proof.Machine.execFdiv d a b s
  | .fmin d a b => Sys2Proof.Machine.execFmin d a b s
  | .fmax d a b => Sys2Proof.Machine.execFmax d a b s
  | .feq d a b => Sys2Proof.Machine.execFeq d a b s
  | .flt d a b => Sys2Proof.Machine.execFlt d a b s
  | .fle d a b => Sys2Proof.Machine.execFle d a b s
  | .fmadd d a b => Sys2Proof.Machine.execFmadd d a b s
  | .fsqrt d a => Sys2Proof.Machine.execFsqrt d a s
  | .fclass d a => Sys2Proof.Machine.execFclass d a s
  | .fcvtF32I32 d a => Sys2Proof.Machine.execFcvtF32I32 d a s
  | .fcvtF32N32 d a => Sys2Proof.Machine.execFcvtF32N32 d a s
  | .fcvtF32I64 d a => Sys2Proof.Machine.execFcvtF32I64 d a s
  | .fcvtF32N64 d a => Sys2Proof.Machine.execFcvtF32N64 d a s
  | .fcvtI32F32 d a => Sys2Proof.Machine.execFcvtI32F32 d a s
  | .fcvtN32F32 d a => Sys2Proof.Machine.execFcvtN32F32 d a s
  | .fcvtI64F32 d a => Sys2Proof.Machine.execFcvtI64F32 d a s
  | .fcvtN64F32 d a => Sys2Proof.Machine.execFcvtN64F32 d a s
  | .amoadd sz aq rl d b a => Sys2Proof.Machine.execAmoadd sz aq rl d b a s
  | .amoswap sz aq rl d b a => Sys2Proof.Machine.execAmoswap sz aq rl d b a s
  | .amocas sz aq rl d b a => Sys2Proof.Machine.execAmocas sz aq rl d b a s
  | .amomin sz aq rl d b a => Sys2Proof.Machine.execAmomin sz aq rl d b a s
  | .amomax sz aq rl d b a => Sys2Proof.Machine.execAmomax sz aq rl d b a s
  | .amoand sz aq rl d b a => Sys2Proof.Machine.execAmoand sz aq rl d b a s
  | .amoor sz aq rl d b a => Sys2Proof.Machine.execAmoor sz aq rl d b a s
  | .amoxor sz aq rl d b a => Sys2Proof.Machine.execAmoxor sz aq rl d b a s
  | .waitw sz aq d b a => Sys2Proof.Machine.execWaitw sz aq d b a s
  | .ecall => Sys2Proof.Machine.execEcall s
  | .trap => Sys2Proof.Machine.execTrap s
  | .eret => Sys2Proof.Machine.execEret s
  | .exit => Sys2Proof.Machine.execExit s
  | .yield => Sys2Proof.Machine.execYield s
  | .flushi => Sys2Proof.Machine.execFlushi s
  | .csrrd d csr => Sys2Proof.Machine.execCsrrd d csr s
  | .csrwr csr a => Sys2Proof.Machine.execCsrwr csr a s
  | .csrset csr a => Sys2Proof.Machine.execCsrset csr a s
  | .csrclr csr a => Sys2Proof.Machine.execCsrclr csr a s
  | .fenceSv scope => Sys2Proof.Machine.execFenceSv scope s
  | .fenceVs scope => Sys2Proof.Machine.execFenceVs scope s
  | .fenceVv scope => Sys2Proof.Machine.execFenceVv scope s
  | .fenceAll scope => Sys2Proof.Machine.execFenceAll scope s
  | .lslot d n => Sys2Proof.Machine.execLslot d n s
  | .mvreq d a n => Sys2Proof.Machine.execMvreq d a n s
  | .mvcommit d a n => Sys2Proof.Machine.execMvcommit d a n s
  | .ltag d a => Sys2Proof.Machine.execLtag d a s
  | .ljoin d a => Sys2Proof.Machine.execLjoin d a s
  | .lclr d => Sys2Proof.Machine.execLclr d s
  | .safept => Sys2Proof.Machine.execSafept s
  | .vlclr vd => Sys2Proof.Machine.execVlclr vd s
  | .vsetvli d e c vt => Sys2Proof.Machine.execVsetvli d e c vt s
  | .vsetvl d a b => Sys2Proof.Machine.execVsetvl d a b s
  | .vwin vd a b => Sys2Proof.Machine.execVwin vd a b s
  | .vadd vd va b m => Sys2Proof.Machine.execVadd vd va b m s
  | .vsub vd va b m => Sys2Proof.Machine.execVsub vd va b m s
  | .vmul vd va b m => Sys2Proof.Machine.execVmul vd va b m s
  | .vmulh vd va b m => Sys2Proof.Machine.execVmulh vd va b m s
  | .vand vd va b m => Sys2Proof.Machine.execVand vd va b m s
  | .vor vd va b m => Sys2Proof.Machine.execVor vd va b m s
  | .vxor vd va b m => Sys2Proof.Machine.execVxor vd va b m s
  | .vsll vd va b m => Sys2Proof.Machine.execVsll vd va b m s
  | .vsrl vd va b m => Sys2Proof.Machine.execVsrl vd va b m s
  | .vsra vd va b m => Sys2Proof.Machine.execVsra vd va b m s
  | .vmin vd va b m => Sys2Proof.Machine.execVmin vd va b m s
  | .vmax vd va b m => Sys2Proof.Machine.execVmax vd va b m s
  | .vminn vd va b m => Sys2Proof.Machine.execVminn vd va b m s
  | .vmaxn vd va b m => Sys2Proof.Machine.execVmaxn vd va b m s
  | .vsadd vd va b m => Sys2Proof.Machine.execVsadd vd va b m s
  | .vssub vd va b m => Sys2Proof.Machine.execVssub vd va b m s
  | .vfadd vd va b m => Sys2Proof.Machine.execVfadd vd va b m s
  | .vfsub vd va b m => Sys2Proof.Machine.execVfsub vd va b m s
  | .vfmul vd va b m => Sys2Proof.Machine.execVfmul vd va b m s
  | .vfmadd vd va b m => Sys2Proof.Machine.execVfmadd vd va b m s
  | .vfnmsub vd va b m => Sys2Proof.Machine.execVfnmsub vd va b m s
  | .vfdiv vd va b m => Sys2Proof.Machine.execVfdiv vd va b m s
  | .vfmin vd va b m => Sys2Proof.Machine.execVfmin vd va b m s
  | .vfmax vd va b m => Sys2Proof.Machine.execVfmax vd va b m s
  | .vfscale vd va b m => Sys2Proof.Machine.execVfscale vd va b m s
  | .vfsgnj vd va b m => Sys2Proof.Machine.execVfsgnj vd va b m s
  | .vfsqrt vd va m => Sys2Proof.Machine.execVfsqrt vd va m s
  | .vfrecip vd va m => Sys2Proof.Machine.execVfrecip vd va m s
  | .vfrsqrt vd va m => Sys2Proof.Machine.execVfrsqrt vd va m s
  | .vfround vd va m => Sys2Proof.Machine.execVfround vd va m s
  | .vcmpEq md va b m => Sys2Proof.Machine.execVcmpEq md va b m s
  | .vcmpNe md va b m => Sys2Proof.Machine.execVcmpNe md va b m s
  | .vcmpLt md va b m => Sys2Proof.Machine.execVcmpLt md va b m s
  | .vcmpLe md va b m => Sys2Proof.Machine.execVcmpLe md va b m s
  | .vcmpGt md va b m => Sys2Proof.Machine.execVcmpGt md va b m s
  | .vcmpGe md va b m => Sys2Proof.Machine.execVcmpGe md va b m s
  | .vcmpLtn md va b m => Sys2Proof.Machine.execVcmpLtn md va b m s
  | .vcmpLen md va b m => Sys2Proof.Machine.execVcmpLen md va b m s
  | .vcmpGtn md va b m => Sys2Proof.Machine.execVcmpGtn md va b m s
  | .vcmpGen md va b m => Sys2Proof.Machine.execVcmpGen md va b m s
  | .vfcmpEq md va b m => Sys2Proof.Machine.execVfcmpEq md va b m s
  | .vfcmpNe md va b m => Sys2Proof.Machine.execVfcmpNe md va b m s
  | .vfcmpLt md va b m => Sys2Proof.Machine.execVfcmpLt md va b m s
  | .vfcmpLe md va b m => Sys2Proof.Machine.execVfcmpLe md va b m s
  | .vfcmpGt md va b m => Sys2Proof.Machine.execVfcmpGt md va b m s
  | .vfcmpGe md va b m => Sys2Proof.Machine.execVfcmpGe md va b m s
  | .mand md ma mb => Sys2Proof.Machine.execMand md ma mb s
  | .mor md ma mb => Sys2Proof.Machine.execMor md ma mb s
  | .mxor md ma mb => Sys2Proof.Machine.execMxor md ma mb s
  | .mandn md ma mb => Sys2Proof.Machine.execMandn md ma mb s
  | .mnot md ma => Sys2Proof.Machine.execMnot md ma s
  | .mmv md ma => Sys2Proof.Machine.execMmv md ma s
  | .mpop d ma => Sys2Proof.Machine.execMpop d ma s
  | .mfirst d ma => Sys2Proof.Machine.execMfirst d ma s
  | .mset md => Sys2Proof.Machine.execMset md s
  | .vslideup vd va b m => Sys2Proof.Machine.execVslideup vd va b m s
  | .vslidedn vd va b m => Sys2Proof.Machine.execVslidedn vd va b m s
  | .vgather vd va vb m => Sys2Proof.Machine.execVgather vd va vb m s
  | .vcompress vd va m => Sys2Proof.Machine.execVcompress vd va m s
  | .vbcast vd b m => Sys2Proof.Machine.execVbcast vd b m s
  | .vid vd m => Sys2Proof.Machine.execVid vd m s
  | .vmerge vd va b m => Sys2Proof.Machine.execVmerge vd va b m s
  | .vmv vd va m => Sys2Proof.Machine.execVmv vd va m s
  | .vmvsx vd b => Sys2Proof.Machine.execVmvsx vd b s
  | .vmvxs d va => Sys2Proof.Machine.execVmvxs d va s
  | .vext d va b => Sys2Proof.Machine.execVext d va b s
  | .vcvt vd va src m => Sys2Proof.Machine.execVcvt vd va src m s
  | .vcvti vd va src m => Sys2Proof.Machine.execVcvti vd va src m s
  | .vquant vd va kb m => Sys2Proof.Machine.execVquant vd va kb m s
  | .vredsum d va b m => Sys2Proof.Machine.execVredsum d va b m s
  | .vredmax d va b m => Sys2Proof.Machine.execVredmax d va b m s
  | .vredmin d va b m => Sys2Proof.Machine.execVredmin d va b m s
  | .vfredsum d va b m => Sys2Proof.Machine.execVfredsum d va b m s
  | .vfredosum d va b m => Sys2Proof.Machine.execVfredosum d va b m s
  | .vfredmax d va b m => Sys2Proof.Machine.execVfredmax d va b m s
  | .vld vd a m w => Sys2Proof.Machine.execVld vd a m w s
  | .vst vd a m w => Sys2Proof.Machine.execVst vd a m w s
  | .vlds vd a b m w => Sys2Proof.Machine.execVlds vd a b m w s
  | .vldx vd a b m w => Sys2Proof.Machine.execVldx vd a b m w s
  | .vsts vd a b m w => Sys2Proof.Machine.execVsts vd a b m w s
  | .vstx vd a b m w => Sys2Proof.Machine.execVstx vd a b m w s
  | .vlseg vd a nf m w => Sys2Proof.Machine.execVlseg vd a nf m w s
  | .vsseg vd a nf m w => Sys2Proof.Machine.execVsseg vd a nf m w s
  | .vamoAdd vd a vb m => Sys2Proof.Machine.execVamoAdd vd a vb m s
  | .vamoSwap vd a vb m => Sys2Proof.Machine.execVamoSwap vd a vb m s
  | .vamoMin vd a vb m => Sys2Proof.Machine.execVamoMin vd a vb m s
  | .vamoMax vd a vb m => Sys2Proof.Machine.execVamoMax vd a vb m s
  | .vamoAnd vd a vb m => Sys2Proof.Machine.execVamoAnd vd a vb m s
  | .vamoOr vd a vb m => Sys2Proof.Machine.execVamoOr vd a vb m s
  | .vamoXor vd a vb m => Sys2Proof.Machine.execVamoXor vd a vb m s
  | .vwait a b => Sys2Proof.Machine.execVwait a b s
  | .vsred vd va m => Sys2Proof.Machine.execVsred vd va m s
  | .awdecl a b => Sys2Proof.Machine.execAwdecl a b s
  | .awmerge a => Sys2Proof.Machine.execAwmerge a s
  | .wmpub n b => Sys2Proof.Machine.execWmpub n b s
  | .wmset n a => Sys2Proof.Machine.execWmset n a s
  | .wmclr n => Sys2Proof.Machine.execWmclr n s
  | .gbar => Sys2Proof.Machine.execGbar s
  | .gjoin d a => Sys2Proof.Machine.execGjoin d a s
  | .gleave => Sys2Proof.Machine.execGleave s
  | .vregion ma off => Sys2Proof.Machine.execVregion ma off s
  | .vloop a off => Sys2Proof.Machine.execVloop a off s
  | .vloopP a off => Sys2Proof.Machine.execVloopP a off s
  | .bany ma off => Sys2Proof.Machine.execBany ma off s
  | .ball ma off => Sys2Proof.Machine.execBall ma off s
  | .bnone ma off => Sys2Proof.Machine.execBnone ma off s
  | .bsend va off => Sys2Proof.Machine.execBsend va off s
  | .vlend => Sys2Proof.Machine.execVlend s
  | .vrend => Sys2Proof.Machine.execVrend s
  | .vsbind vd a => Sys2Proof.Machine.execVsbind vd a s
  | .vsunbind vd => Sys2Proof.Machine.execVsunbind vd s
  | .vspill vd a => Sys2Proof.Machine.execVspill vd a s
  | .vfill vd a => Sys2Proof.Machine.execVfill vd a s
  | .gspill b a imm => Sys2Proof.Machine.execGspill b a imm s
  | .gfill d a imm => Sys2Proof.Machine.execGfill d a imm s
  | .cpy d a b m => Sys2Proof.Machine.execCpy d a b m s
  | .cpyx a m => Sys2Proof.Machine.execCpyx a m s
  | .cpb m b => Sys2Proof.Machine.execCpb m b s
  | .cpwait m => Sys2Proof.Machine.execCpwait m s
  | .swpout d a => Sys2Proof.Machine.execSwpout d a s
  | .swpin d a => Sys2Proof.Machine.execSwpin d a s
  | .xfer d a => Sys2Proof.Machine.execXfer d a s
  | .launch d a => Sys2Proof.Machine.execLaunch d a s
  | .launchNb d a => Sys2Proof.Machine.execLaunchNb d a s
  | .mattach rows => Sys2Proof.Machine.execMattach rows s
  | .mdetach => Sys2Proof.Machine.execMdetach s
  | .mzero => Sys2Proof.Machine.execMzero s
  | .vmma ty acc va vb rows m => Sys2Proof.Machine.execVmma ty acc va vb rows m s
  | .vmmas acc va vb rows ka kb m => Sys2Proof.Machine.execVmmas acc va vb rows ka kb m s
  | .mext vd row ty m => Sys2Proof.Machine.execMext vd row ty m s
  | .mins row va ty m => Sys2Proof.Machine.execMins row va ty m s
  | .cAddi d imm => Sys2Proof.Machine.execCAddi d imm s
  | .cLi d imm => Sys2Proof.Machine.execCLi d imm s
  | .cMv d a => Sys2Proof.Machine.execCMv d a s
  | .cAdd d a => Sys2Proof.Machine.execCAdd d a s
  | .cSub d a => Sys2Proof.Machine.execCSub d a s
  | .cAnd d a => Sys2Proof.Machine.execCAnd d a s
  | .cLdd d a off => Sys2Proof.Machine.execCLdd d a off s
  | .cStd b a off => Sys2Proof.Machine.execCStd b a off s
  | .cLdw d a off => Sys2Proof.Machine.execCLdw d a off s
  | .cBeqz a off => Sys2Proof.Machine.execCBeqz a off s
  | .cBnez a off => Sys2Proof.Machine.execCBnez a off s
  | .cJ off => Sys2Proof.Machine.execCJ off s
  | .cJr a => Sys2Proof.Machine.execCJr a s
  | .cExit => Sys2Proof.Machine.execCExit s
  | .cVlend => Sys2Proof.Machine.execCVlend s
  | .cSafept => Sys2Proof.Machine.execCSafept s
  | .cYield => Sys2Proof.Machine.execCYield s
  | .waitwWake h => Sys2Proof.Machine.execWaitwWake h s
  | .ecallReply h => Sys2Proof.Machine.execEcallReply h s
  | .exitComplete h => Sys2Proof.Machine.execExitComplete h s
  | .mvreqComplete h => Sys2Proof.Machine.execMvreqComplete h s
  | .vwaitWake h => Sys2Proof.Machine.execVwaitWake h s
  | .vwaitTimeout h => Sys2Proof.Machine.execVwaitTimeout h s
  | .awmergeApply k => Sys2Proof.Machine.execAwmergeApply k s
  | .chunkDelivery v => Sys2Proof.Machine.execChunkDelivery v s
  | .cpwaitComplete h => Sys2Proof.Machine.execCpwaitComplete h s
  | .copyChunk k => Sys2Proof.Machine.execCopyChunk k s
  | .swpoutComplete k => Sys2Proof.Machine.execSwpoutComplete k s
  | .swpinBlockLanded k => Sys2Proof.Machine.execSwpinBlockLanded k s
  | .swpinComplete k => Sys2Proof.Machine.execSwpinComplete k s
  | .xferLayer k => Sys2Proof.Machine.execXferLayer k s
  | .xferComplete k => Sys2Proof.Machine.execXferComplete k s
  | .illegalEncoding e raw => Sys2Proof.Machine.execIllegalEncoding e raw s
  | .issueBeat fe => Sys2Proof.Machine.execIssueBeat fe s
  | .laneShiftRepair fe entry half repair => Sys2Proof.Machine.execLaneShiftRepair fe entry half repair s
  | .frameBoundary fe => Sys2Proof.Machine.execFrameBoundary fe s
  | .accessPerform h k => Sys2Proof.Machine.execAccessPerform h k s
  | .replyWrite h k => Sys2Proof.Machine.execReplyWrite h k s
  | .coldTierStoreError h k => Sys2Proof.Machine.execColdTierStoreError h k s
  | .watermarkTimeout h n => Sys2Proof.Machine.execWatermarkTimeout h n s
  | .trapEntry h => Sys2Proof.Machine.execTrapEntry h s
  | .launchStart k slots => Sys2Proof.Machine.execLaunchStart k slots s
  | .ringFetch p q => Sys2Proof.Machine.execRingFetch p q s
  | .notifyWrite p vf v => Sys2Proof.Machine.execNotifyWrite p vf v s
  | .hostInterrupt p vf => Sys2Proof.Machine.execHostInterrupt p vf s
  | .hostApertureAccess p off acc => Sys2Proof.Machine.execHostApertureAccess p off acc s
  | .dlaunch addr => Sys2Proof.Machine.execDlaunch addr s
  | .peerAccess device sender remote off acc => Sys2Proof.Machine.execPeerAccess device sender remote off acc s
  | .sliceEnd p => Sys2Proof.Machine.execSliceEnd p s
  | .contextSave h => Sys2Proof.Machine.execContextSave h s
  | .restore gangStack gang slots => Sys2Proof.Machine.execRestore gangStack gang slots s
  | .slotbaseWrite v => Sys2Proof.Machine.execSlotbaseWrite v s
  | .harnessWrite fe v => Sys2Proof.Machine.execHarnessWrite fe v s
  | .beatmapWrite fe v => Sys2Proof.Machine.execBeatmapWrite fe v s
  | .rowrangeWrite slot v => Sys2Proof.Machine.execRowrangeWrite slot v s
  | .partWrite slot v => Sys2Proof.Machine.execPartWrite slot v s
  | .selvedgeWrite slot k v => Sys2Proof.Machine.execSelvedgeWrite slot k v s
  | .notifybmWrite v => Sys2Proof.Machine.execNotifybmWrite v s
  | .wmCsrWrite n v => Sys2Proof.Machine.execWmCsrWrite n v s
  | .cpbCsrWrite m v => Sys2Proof.Machine.execCpbCsrWrite m v s
  | .loopRegisterWrite r v => Sys2Proof.Machine.execLoopRegisterWrite r v s
  | .stripWrite v => Sys2Proof.Machine.execStripWrite v s
  | .vlCsrWrite v => Sys2Proof.Machine.execVlCsrWrite v s
  | .vstartWrite v => Sys2Proof.Machine.execVstartWrite v s
  | .registerWrite dest v => Sys2Proof.Machine.execRegisterWrite dest v s
  | .timerExpire p => Sys2Proof.Machine.execTimerExpire p s
  | .uncorrectableError site => Sys2Proof.Machine.execUncorrectableError site s
  | .securityAlarm a => Sys2Proof.Machine.execSecurityAlarm a s
  | .quarantineRelease p => Sys2Proof.Machine.execQuarantineRelease p s
  | .vaultControlWrite v w => Sys2Proof.Machine.execVaultControlWrite v w s
  | .linkLaneFailure l lane => Sys2Proof.Machine.execLinkLaneFailure l lane s
  | .coldTierExpanderError r => Sys2Proof.Machine.execColdTierExpanderError r s
  | .thermalNotice stack => Sys2Proof.Machine.execThermalNotice stack s
  | .stackShutdown stack => Sys2Proof.Machine.execStackShutdown stack s
  | .powerNotice => Sys2Proof.Machine.execPowerNotice s
  | .bringUp => Sys2Proof.Machine.execBringUp s
  | .firmwareSwitch => Sys2Proof.Machine.execFirmwareSwitch s
  | .certificateChain => Sys2Proof.Machine.execCertificateChain s
  | .version k => Sys2Proof.Machine.execVersion k s
  | .loadImage k => Sys2Proof.Machine.execLoadImage k s
  | .unloadImage k => Sys2Proof.Machine.execUnloadImage k s
  | .allocateWatermark k => Sys2Proof.Machine.execAllocateWatermark k s
  | .freeWatermark k => Sys2Proof.Machine.execFreeWatermark k s
  | .setSessionDirectory k => Sys2Proof.Machine.execSetSessionDirectory k s
  | .readEventBlock k => Sys2Proof.Machine.execReadEventBlock k s
  | .writeEventBlock k => Sys2Proof.Machine.execWriteEventBlock k s
  | .terminate k => Sys2Proof.Machine.execTerminate k s
  | .attestationQuote k => Sys2Proof.Machine.execAttestationQuote k s
  | .peerWatermarkPublication device sender remote obj index => Sys2Proof.Machine.execPeerWatermarkPublication device sender remote obj index s
  | .vaultRetirement v => Sys2Proof.Machine.execVaultRetirement v s

end Sys2Proof.Machine
end

