-- ==== Sys2Proof/Machine/Race.lean ====
section
/-!
DEFINITION. Accesses of different replicas of a parallel strip loop are unordered (R34): byte by byte, a read may return what the
byte held before a write of another replica, and of two writes either may be the last.

The steps of a loop happen one after the other, but what a store of a replica writes may reach memory after its step: free choices
leave bytes of it as they were and post them (`Hart.posted`). The later accesses of the replica itself wait for them, as for every
earlier store of a hart, so that its own order holds; those of the other replicas do not (log 54).
-/

namespace Sys2Proof.Machine

/-- A plain scalar store: the address and the bytes that it stores to, and its two operands. -/
def scalarStoreRun (s : State) : Instr → Option ((Nat × Nat) × List Reg)
  | .stb b a imm => some ((effAddr s a (sext12 imm), 1), [a, b])
  | .sth b a imm => some ((effAddr s a (sext12 imm), 2), [a, b])
  | .stw b a imm => some ((effAddr s a (sext12 imm), 4), [a, b])
  | .std b a imm => some ((effAddr s a (sext12 imm), 8), [a, b])
  | .gspill b a imm => some ((effAddr s a (sext12 imm), 16), [a, b])
  | .cStd b a off => some ((effAddr s (shortReg a) (scaledOff off 8), 8), [shortReg a, shortReg b])
  | _ => none

/-- The runs of bytes that a vector store has written in the step from `s` to `t`, in which it has reached element or row `hi`; none if
it adds to an accumulation window. -/
def vectorStoreRuns (s : State) (hi : Nat) (i : Instr) : List (Nat × Nat) :=
  match i, transferOf s i with
  | .vspill v a, _ =>
    (if s.hart.headed then [] else [(replicaAddr s (baseAddr s a), 64)]) ++
      (indexes (vstartOf s) (min hi (vreg s v).win.len.toNat)).map fun r => (replicaAddr s (imageRow s a r), rowBytes s)
  | .vst .., some x | .vsts .., some x | .vstx .., some x | .vsseg .., some x =>
    if (x.addsTo s).isSome then []
    else (activeIdx s x.mask (vstartOf s) (min hi (vlOf s))).flatMap fun j => (x.reached s j).map (·, x.mb)
  | _, _ => []

/-- A byte of a store may perform after its step: it is not a device register's, and no poison of its granule is at stake; a vector
store to a window of system scope completes at its home first (R350). -/
def mayLag (s t : State) (vec : Bool) (a : Nat) : Bool :=
  placeOf a != .device && !(vec && (placeOf a).isSystem) && !bytePoisoned s a && !bytePoisoned t a

/-- Byte `a` of a store, which step `s` to `t` has written, is posted: memory holds it as before. -/
def lagByte (s : State) (e : Posted) (t : State) (a : Nat) : State :=
  let late := { e with addr := a, data := [readByte t a] }
  let u := storeBytes t a [readByte s a]
  { u with hart := { u.hart with posted := u.hart.posted ++ [late] } }

/-- The bytes of a run of a store that lag. -/
def lagRun (s : State) (e : Posted) (t : State) (r : Nat × Nat) : State :=
  (((List.range r.2).map (r.1 + ·)).filter fun a => mayLag s t e.vec a && Config.storeLags s.draws a).foldl
    (lagByte s { e with part := some r.1 }) t

/-- The bytes of a posted store perform one by one. -/
def splitPosted (p : Posted) : List Posted :=
  (List.range p.data.length).map fun i =>
    { p with addr := p.addr + i, data := [p.data.getD i 0], part := some (p.part.getD p.addr) }

/-- What a step of a replica from `s` to `t` at instruction `i` stored, as the others see it. -/
def lagStores (s : State) (i : Instr) (t : State) : State :=
  let before := s.hart.posted.length
  let wentOn := t.hart.cid == s.hart.cid && t.hart.aside.length == s.hart.aside.length &&
    t.hart.coldErrors.length == s.hart.coldErrors.length
  let entry (vec : Bool) (rs : List Reg) : Posted :=
    { addr := 0, data := [], tags := rs.map (baseTag s), slab := replicaOf s, vec := vec }
  let hi := if t.hart.pc = s.hart.pc then vstartOf t else max (vlOf s) 2048
  if !wentOn then t
  else if before < t.hart.posted.length then
    { t with hart := { t.hart with posted := t.hart.posted.take before ++ (t.hart.posted.drop before).flatMap splitPosted } }
  else match scalarStoreRun s i with
    | some x => if t.hart.pc = s.hart.pc then t else lagRun s (entry false x.2) t x.1
    | none => (vectorStoreRuns s hi i).foldl (lagRun s (entry true (generalSources i))) t

/-- An instruction of the current hart, or of a replica among others with which it is unordered. -/
noncomputable def unordered (ex : Instr → State → Out) (s : State) (i : Instr) : Out :=
  match s.hart.par, ex i s with
  | some _, .next t => .next (lagStores s i t)
  | _, x => x

end Sys2Proof.Machine
end

