-- ==== Sys2Proof/Machine/Issue.lean ====
section
/-!
DEFINITION. The decoupling queue (R22, R350) and the choice of the instruction that issues in a beat (R42, R43).

What an instruction changes becomes visible in program order: until every earlier instruction has passed its horizon, a later one
is provisional (R350). The registers of `Hart` and its pc are what has become visible.  `Hart.queue` and `Hart.front` are the
scalar side as it runs ahead of that: which instructions it has dispatched, and where it stands (log 23).  A later instruction may
issue its groups; they are counted, and commit at its turn.
-/

namespace Sys2Proof.Machine

/-- Continue with a state, or stop. -/
def thenNext (x : Out) (f : State → State) : Out :=
  match x with
  | .next t => .next (f t)
  | .fault e => .fault e
  | .refused e => .refused e

/-! ### The scalar side runs ahead (R22, R350) -/

/-- The scalar side of the current hart: ahead, or at the instruction at `pc`. -/
def frontOf (s : State) : Front := s.hart.front.getD { pc := s.hart.pc, regs := s.hart.regs, fstat := s.hart.csr.fstat }

/-- The machine as the scalar side of the current hart sees it: the copies in the queue come before it. -/
def frontView (s : State) : State :=
  let f := frontOf s
  { s with
    copies := s.copies.map fun c => if c.cid = s.hart.cid then { c with queued := false } else c
    hart := { s.hart with pc := f.pc, regs := f.regs, csr := { s.hart.csr with fstat := f.fstat } } }

/-- The scalar side may run ahead: nothing of the hart but instructions in their order is under way, no copy waits to be issued again
(R312), and the hart is not parked in a `vwait` (R182). -/
def mayRunAhead (s : State) : Bool :=
  runnable s s.hart && !s.hart.stopped && s.hart.replies.isEmpty && s.hart.coldErrors.isEmpty && s.hart.heldFault.isNone &&
    !bit s.hart.csr.status 10 && !reissues s && !s.hart.queuedWait

/-- The instruction parks the hart at its turn, and is dispatched then. A `vwait` parks it at its dispatch (R182). -/
def parks : Instr → Bool
  | .cpwait .. | .launch .. | .gbar | .vsred .. => true
  | _ => false

/-- A queued instruction that has missed its chain slot as it reaches the sequencer: its producer has written more than its first group
already (R43). -/
def chainAtDispatch (s : State) (q : QEntry) : Chain :=
  match linkOf s q s.hart.queue with
  | .chain rs bits => if chainPassed s rs bits then .missed else .coming
  | _ => .coming

/-- The scalar side dispatches an instruction into the queue. -/
def putQueue (s : State) (i : Instr) (copy : Option Nat) : State :=
  let f := frontOf s
  let q : QEntry := { pc := f.pc, instr := i, regs := f.regs, copy := copy, waitSince := timeNs s }
  { s with hart := { s.hart with
    queue := s.hart.queue ++ [{ q with chain := chainAtDispatch s q }]
    front := some { f with pc := f.pc + BitVec.ofNat 64 (encodedBits i / 8) } } }

/-- What a copy does as it is dispatched does not come before an instruction in the queue that writes its descriptor (R322, R114), nor
before a fence (R123). -/
def copyHeld (s : State) (i : Instr) : Bool :=
  fenced s i || match i with
    | .cpyx .. => s.hart.queue.any fun q => writesMemory q.instr
    | _ => false

/-- A copy is accepted as it is dispatched (R315); dispatch waits if the copy has to, or if it raises a cause, which comes at its
turn. -/
noncomputable def putCopy (ex : Instr → State → Out) (s : State) (i : Instr) : State :=
  let v := frontView { s with hart := { s.hart with regions := [] } }
  let v := { v with hart := dropAhead v.hart }
  if copyHeld s i then s
  else match ex i v with
  | .next t =>
    if t.hart.pc ≠ v.hart.pc + 4 ∨ t.hart.aside.length ≠ v.hart.aside.length then s
    else if t.nextId = s.nextId ∨ t.copies.length = s.copies.length then putQueue s i none
    else
      putQueue { (setCsrs s fun c => { c with cpb := t.hart.csr.cpb }) with
        copies := s.copies ++ (t.copies.filter (·.seq == t.nextId)).map fun c => { c with queued := true }
        entries := t.entries
        nextId := t.nextId } i (some t.nextId)
  | _ => s

/-- The scalar side comes to an instruction that goes through the queue. It stops there for a move (R76); dispatch stalls while the
queue is full, or while none of the eight reply slots is free for its scalar result. -/
noncomputable def enqueue (ex : Instr → State → Out) (s : State) (i : Instr) : State :=
  let slots := (s.hart.queue.filter fun q => hasReply q.instr).length
  if s.hart.stopPending ∧ s.hart.underWay then stopNow s
  else if s.hart.stopPending ∨ parks i ∨ queueFull s ∨ (hasReply i ∧ 8 ≤ slots) then s
  else match i with
    | .cpy .. | .cpyx .. => putCopy ex s i
    | _ => putQueue s i none

/-- A state as it is after a scalar instruction that has run ahead, from the same state before it and after it: a `safept` may have
stopped the hart. -/
def aheadTo (s t : State) : State :=
  { s with hart := { s.hart with
    pc := t.hart.pc, regs := t.hart.regs, stopPending := t.hart.stopPending, stopped := t.hart.stopped, waitNs := t.hart.waitNs
    waitSince := t.hart.waitSince, queue := t.hart.queue, par := t.hart.par
    csr := { s.hart.csr with fstat := t.hart.csr.fstat } } }

/-- The scalar side executes a plain scalar instruction that touches registers only and names none that a queued instruction may
write, or a `safept`. -/
noncomputable def scalarAhead (ex : Instr → State → Out) (s : State) (i : Instr) : State :=
  let w := encode i
  let v := frontView s
  let free := s.hart.queue.all fun q => !namesReg w (BitVec.ofNat 5 (encode q.instr / 2 ^ 22))
  if (plainMajor w ∧ free) ∨ i = .safept then
    match ex i v with
    | .next t =>
      let d := BitVec.ofNat 5 (w / 2 ^ 22)
      let x : Ran := { pc := v.hart.pc, instr := i, next := t.hart.pc, fstat := t.hart.csr.fstat,
                       dest := if i = .safept then none else some (d, gpr t d) }
      let f : Front := { pc := t.hart.pc, regs := t.hart.regs, fstat := t.hart.csr.fstat, ran := (frontOf s).ran ++ [x] }
      if t = aheadTo v t then
        let u := aheadTo s t
        { u with hart := { u.hart with pc := s.hart.pc, regs := s.hart.regs, csr := s.hart.csr, front := some f } }
      else s
    | _ => s
  else s

/-- The scalar side of the current hart runs one instruction ahead, behind at least one queued instruction. -/
noncomputable def runAhead (ex : Instr → State → Out) (s : State) : State :=
  match mayRunAhead s, fetch (frontView s) with
  | true, .instr i =>
    if takesBeat i then enqueue ex s i
    else if s.hart.queue.isEmpty then s
    else scalarAhead ex s i
  | _, _ => s

/-! ### A turn at an instruction -/

/-- What a context is after a turn but for the account of its stall. -/
def sameButStall (old new : Hart) : Bool :=
  old == { new with
    stalled := old.stalled, bound := old.bound, waitNs := old.waitNs, waitSince := old.waitSince, current := old.current }

/-- A context stands where it stood before its turn at an instruction, which has not completed. -/
def staysAt (old : Hart) (i : Instr) (h : Hart) : Bool :=
  h.phase == .launched && h.pc == old.pc && h.aside.length == old.aside.length && h.mode == old.mode && dispatchClass i != .jump

/-- The running replica is another one. -/
def otherReplica (old h : Hart) : Bool := h.par.map (·.active) != old.par.map (·.active)

/-- A group of the oldest instruction has committed that had issued in advance. -/
def spendGroup (pc : Word) : List QEntry → List QEntry
  | [] => []
  | q :: l => if q.pc = pc then { q with issued := q.issued - 1 } :: l else q :: l

/-- A scalar instruction that had run ahead when a move was committed completes with the result that it had, rebased (R78); its lease set
is what its execution has given. -/
def Ran.settle (x : Ran) (h : Hart) : Hart :=
  if !x.moved then h
  else
    { h with
      pc := x.next
      csr := { h.csr with fstat := x.fstat }
      regs := match x.dest with
        | some (d, v) => if d = 0 then h.regs else h.regs.set d.toNat { v with lease := h.regs[d.toNat].lease } d.isLt
        | none => h.regs }

/-- What has run ahead without its first instruction, which stands at `pc`, if that is the one. -/
def takeRan (pc : Word) (i : Instr) (f : Front) : Option (Ran × Front) :=
  match f.ran with
  | x :: l => if x.pc = pc ∧ x.instr = i then some (x, { f with ran := l }) else none
  | [] => none

/-- The instruction at `pc` has completed: it leaves the queue if it is its head, or the list of what has run ahead; anything else
that should stand there drops what has run ahead. -/
def leaveAhead (pc : Word) (i : Instr) (h : Hart) : Hart :=
  match h.queue, h.front with
  | q :: l, some f =>
    if q.pc = pc ∧ q.instr = i then
      if l.isEmpty ∧ f.ran.isEmpty then dropAhead h else { h with queue := l, lastSlot := h.lastSlot - 1 }
    else match takeRan pc i f with
      | some (x, g) => { (x.settle h) with front := some g }
      | none => dropAhead h
  | [], some f =>
    match takeRan pc i f with
    | some (x, g) => if g.ran.isEmpty then dropAhead (x.settle h) else { (x.settle h) with front := some g }
    | none => dropAhead h
  | _, none => dropAhead h

/-- The context is parked in a barrier instruction at which it stands (R183, R187). -/
def inBarrier (h : Hart) : Bool :=
  h.phase == .parked && match h.wait with
    | .gbar | .vsred .. => true
    | _ => false

/-- The end of a turn of context `old` at instruction `i`: one that has not completed is not fetched again (R85). -/
def dequeue (old : Hart) (i : Instr) (t : State) : State :=
  mapContext old.cid (fun h =>
    if otherReplica old h then h
    else if staysAt old i h then
      { h with
        current := some (old.pc, i)
        queue := if sameButStall old h then h.queue else spendGroup old.pc h.queue }
    else { (leaveAhead old.pc i h) with current := if inBarrier h && h.pc == old.pc then some (old.pc, i) else none }) t

/-- The current hart carries out its plan. -/
noncomputable def runPlan (ex : Instr → State → Out) (s : State) : Plan → Out
  | .reply => ex (.replyWrite s.hart.cid 0) s
  | .boundary t => .next t
  | .hold => .next s
  | .async => ex (.trapEntry s.hart.cid) s
  | .fault e => raise s e
  | .bad e raw => ex (.illegalEncoding e raw) s
  | .skip i t => .next (dequeue s.hart i t)
  | .instr i => thenNext (unordered ex s i) (dequeue s.hart i)

/-- The next thing that the current hart does: a waiting scalar result, a cause of the boundary, an asynchronous cause, or its
next instruction, which is fetched, dispatched and executed. -/
noncomputable def runHart (ex : Instr → State → Out) (s : State) : Out := runPlan ex s (planOf s)

/-! ### Which instruction of a hart issues in a beat (R42, R43) -/

/-- A turn of a context at instruction `i` has issued a group: the instruction has completed, and not in a handler, or it has had a beat,
or has passed an active element; one that has only been checked, or has passed inactive groups, has issued none (R246, R247). -/
def hasIssued (i : Instr) (s t : State) (cid : Nat) : Bool :=
  match contextOf s cid, contextOf t cid with
  | some old, some new =>
    let v := { s with hart := old }
    let passed := match transferOf v i with
      | some x => !(activeIdx v x.mask old.csr.vstart.toNat new.csr.vstart.toNat).isEmpty
      | none => old.csr.vstart != new.csr.vstart
    if old.aside.length < new.aside.length then false
    else if staysAt old i new then new.issued != old.issued || passed
    else !sameButStall old new
  | _, _ => false

/-- What the oldest instruction of the current hart would do in a beat: nothing, because a stall holds it; issue a group; or what
needs no beat, as to commit a group that has issued in advance. -/
inductive Oldest where
  | stalls
  | issues
  | acts
  deriving DecidableEq, Repr

/-- The head of the queue is the instruction at `pc`, and groups of it that have issued in advance have not committed. -/
def hasCredit (s : State) : Bool :=
  match s.hart.queue with
  | q :: _ => q.pc == s.hart.pc && q.issued != 0
  | [] => false

noncomputable def oldestDoes (ex : Instr → State → Out) (s : State) : Oldest :=
  match planOf s with
  | .hold => .stalls
  | .skip _ t => if t = s then .stalls else .acts
  | .instr i =>
    if !beatOf s i ∨ hasCredit s then .acts
    else match runPlan ex { s with slice := true } (.instr i) with
      | .next t =>
        if hasIssued i s t s.hart.cid then .issues
        else if (contextOf t s.hart.cid).any (sameButStall s.hart) then .stalls
        else .acts
      | _ => .issues
  | _ => .acts

/-- The machine in which a queued instruction issues its first group before its turn: nothing of it commits (R350). -/
def aheadView (s : State) (q : QEntry) : State :=
  let h := landed (dropAhead s.hart)
  { s with
    slice := true
    hart := { h with pc := q.pc, regs := q.regs, stopPending := false, stopped := false, csr := { h.csr with vstart := 0 } } }

/-- The same after `n` of its groups, if it has more. -/
noncomputable def issuedView (ex : Instr → State → Out) (q : QEntry) (s : State) : Nat → Option State
  | 0 => some s
  | n + 1 =>
    match issuedView ex q s n with
    | some t =>
      match ex q.instr t with
      | .next u => if staysAt t.hart q.instr u.hart then some { u with slice := true } else none
      | _ => none
    | none => none

/-- The next group of a queued instruction is ready: it has one, no stall holds it, and its producers have written what it reads
(R42, R43). -/
noncomputable def groupGoes (ex : Instr → State → Out) (s : State) (q : QEntry) (l : Link) : Bool :=
  match issuedView ex q (aheadView s q) q.issued with
  | some t =>
    (beforeExec t q.instr).isNone && match ex q.instr t with
      | .next u =>
        hasIssued q.instr t u t.hart.cid &&
          sourcesWritten s q.instr l (groupEnd q.instr t u (staysAt t.hart q.instr u.hart))
      | _ => false
  | none => false

/-- The places in the queue, behind the oldest, whose next group is ready, from place `k` on; `before` are the entries before it. -/
noncomputable def readyBehind (ex : Instr → State → Out) (s : State) : Nat → List QEntry → List QEntry → List Nat
  | _, _, [] => []
  | k, before, q :: l =>
    let rest := readyBehind ex s (k + 1) (before ++ [q]) l
    let link := linkOf s q before
    if !before.isEmpty ∧ chainOpen s q link ∧ groupGoes ex s q link then k :: rest else rest

/-- The place of the instruction that issues if a beat is given to the current hart (R42): one whose chain slot it is, else the next
in round-robin order. Behind the oldest instruction others issue only while it stands at its turn. -/
noncomputable def servedPlace (ex : Instr → State → Out) (s : State) : Option Nat :=
  let oldest := oldestDoes ex s
  let l := s.hart.queue
  let behind := if oldest = .acts ∨ (l.head?).any (·.pc != s.hart.pc) then [] else readyBehind ex s 0 [] l
  let slot (k : Nat) : Bool := (l[k]?).any fun q => atSlot s q (linkOf s q (l.take k))
  match behind.find? slot with
  | some k => some k
  | none =>
    let all := (if oldest = .issues then [0] else []) ++ behind
    match all.find? (s.hart.lastSlot ≤ ·) with
    | some k => some k
    | none => all.head?

/-- The beat of a hart is over in which place `k` issues: chain slots that it was are used or missed (R43). -/
noncomputable def noteBeat (ex : Instr → State → Out) (s : State) (k : Nat) : State :=
  let l := s.hart.queue
  let ready := readyBehind ex s 0 [] l
  let mark (j : Nat) (q : QEntry) : QEntry :=
    if j = k ∧ j ≠ 0 then { q with issued := q.issued + 1, chain := if q.chain = .coming then .chained else q.chain }
    else if atSlot s q (linkOf s q (l.take j)) && !ready.contains j then { q with chain := .missed }
    else q
  { s with hart := { s.hart with
    lastSlot := k + 1
    queue := ((List.range l.length).zip l).map fun x => mark x.1 x.2 } }

end Sys2Proof.Machine
end

