-- ==== Sys2Proof/Machine/Turn.lean ====
section
/-!
DEFINITION. What the machine may do between instructions: the internal events that are due, the choice among them, and the
order in which harts run (R21, R44).

Every event that is due is a candidate; which of them comes next is a free value, `Config.pick` (log 20).
-/

namespace Sys2Proof.Machine

/-! ### Events of one context -/

/-- The numbers below a bound. -/
def upTo (n : Nat) : List Nat := List.range n

/-- The wait of the parked current hart is over. -/
noncomputable def waitEvents (s : State) : List Instr :=
  let h := s.hart
  if h.phase ≠ .parked ∨ h.stopped then []
  else
    (match h.wait with
      | .waitw _ _ _ _ _ => if memberReady s h then [.waitwWake h.cid] else []
      | .vwait a b =>
        (match vwaitReady s a, vwaitReached s a b with
          | false, _ | true, .ok false => []
          | true, _ => [.vwaitWake h.cid]) ++ (if vwaitLimit ≤ waitedNs s then [.vwaitTimeout h.cid] else [])
      | .cpwait m => if cpbPending (cpbOf s m) = 0 then [.cpwaitComplete h.cid] else []
      | .ecall => if h.reply.isSome then [.ecallReply h.cid] else []
      | .none | .launch _ _ | .gbar | .vsred _ _ _ => []) ++
      (if asyncReady s then [.trapEntry h.cid] else [])

/-- A binding on which the current hart's group has stalled past its timeout (R196). -/
noncomputable def timeoutEvents (s : State) : List Instr :=
  if s.hart.phase = .launched ∧ !s.hart.stopped then
    ((upTo 16).filter (timedOut s)).map fun i => .watermarkTimeout s.hart.cid (BitVec.ofNat 4 i)
  else []

/-- The events of a resident context. -/
noncomputable def hartEvents (s : State) (h : Hart) : List Instr :=
  let v := { s with hart := h }
  (upTo h.replies.length).map (.replyWrite h.cid) ++
    ((upTo h.posted.length).filter fun k => (postedReady h.posted k).isSome).map (.accessPerform h.cid) ++
    (if unitReady s h then [.contextSave h.cid] else []) ++
    waitEvents v ++ timeoutEvents v ++
    (if h.phase = .exiting ∧ exitReady v then [.exitComplete h.cid] else []) ++
    (match ownMove v with
      | some m => if !m.done ∧ h.phase = .launched ∧ h.pc = m.pc ∧ moveQuiet s m then [.mvreqComplete h.cid] else []
      | none => [])

/-! ### Events of the rest of the module -/

/-- An engine command's next step (R278 to R280). -/
noncomputable def engineEvents (s : State) (c : EngineCmd) : List Instr :=
  match c.kind with
  | .swpout => [.swpoutComplete c.seq]
  | .swpin => if c.code = 0 ∧ c.units < c.blocks then [.swpinBlockLanded c.seq] else [.swpinComplete c.seq]
  | .xfer =>
    if c.code ≠ 0 ∨ c.layers ≤ c.units then [.xferComplete c.seq] else if layerReady s c then [.xferLayer c.seq] else []

/-- The event that serves a call. -/
noncomputable def callEvents (s : State) (c : Call) : List Instr :=
  if !servable s c then []
  else match c.fn with
    | 0 => [.version c.seq]
    | 1 => [.loadImage c.seq]
    | 2 => [.unloadImage c.seq]
    | 16 => [.allocateWatermark c.seq]
    | 17 => [.freeWatermark c.seq]
    | 18 => [.setSessionDirectory c.seq]
    | 32 => [.readEventBlock c.seq]
    | 33 => [.writeEventBlock c.seq]
    | 34 => [.terminate c.seq]
    | 48 => [.attestationQuote c.seq]
    | _ => []

/-- The partitions that the sync units have something to do for. -/
def activeParts (s : State) : List Nat :=
  ((s.parts.map (·.1)) ++ (s.pool.map (·.partId)) ++ (s.saved.map (·.partId))).foldl (fun l p => insertNat p l) []

/-- The event that places an item of work. -/
noncomputable def Work.event (w : Work) (slots : List Nat) : Instr :=
  match w with
  | .start x => .launchStart x.seq slots
  | .restore g => .restore g.stack g.num slots

/-- The events of a partition: placements, ring records, slice ends, the timer. -/
noncomputable def partEvents (s : State) (p : Nat) : List Instr :=
  (match nextPlacement s p with
    | some (w, slots) => [w.event slots]
    | none => []) ++
    (((part s p).hwSlots.filter fun x => ringWaiting s p x.2).map fun x => .ringFetch p x.2) ++
    (if p ≠ Config.devicePartition ∧ sliceDue s p then [.sliceEnd p] else []) ++
    (if timerDue s p then [.timerExpire p] else [])

/-- A copy that is not logged and has left its hart's queue moves on (R310, R315). -/
def mayMove (s : State) (c : Copy) : Bool :=
  !c.logged && (contextOf s c.cid).any fun h => !c.inQueue { s with hart := h }

/-- Every internal event that is due. -/
noncomputable def internalEvents (s : State) : List Instr :=
  (contexts s).flatMap (fun h => if h.phase = .preempted then [] else hartEvents s h) ++
    ((s.copies.filter (mayMove s)).map fun c => .copyChunk c.seq) ++
    s.engines.flatMap (engineEvents s) ++
    ((s.merges.filter fun m => m.after.all (contributorDone s)).map fun m => .awmergeApply m.seq) ++
    s.svc.calls.flatMap (callEvents s) ++
    (activeParts s).flatMap (partEvents s) ++
    ((s.fes.filter fun x => x.2.beatPending.isSome).map fun x => .frameBoundary x.1) ++
    ((s.vaults.filter fun x => x.2.asked && !x.2.retired).map fun x => .vaultRetirement x.1)

/-- The internal event that comes next, if one is due. -/
noncomputable def nextInternal (s : State) : Option Instr :=
  match internalEvents s with
  | [] => none
  | i :: l => some ((i :: l).getD (Config.pick s.draws % (l.length + 1)) i)

/-! ### What follows by itself -/

/-- A hart parked in `launch` whose launch finds an entry executes it again (R127). -/
def wakeLaunch (s : State) (h : Hart) : Hart :=
  match h.wait with
  | .launch _ _ =>
    if h.phase = .parked ∧ !h.stopped ∧ memberReady s h then { h with phase := .launched, wait := .none } else h
  | _ => h

/-- The logged copies of parked contexts are issued again as entries become free (R312). -/
def resumeCopies (s : State) : State :=
  ((s.copies.filter (·.logged)).map (·.cid)).foldl (fun s c =>
    match asHart s c fun t => .next (if t.hart.phase = .parked then reissueAll t else t) with
    | .next t => t
    | _ => s) s

/-- The contexts that are parked in a barrier instruction arrive, once their earlier accesses have performed (R183). -/
def reachBarriers (s : State) : State :=
  ((s.hart :: s.others).filter fun h => h.phase == .parked && comesToBarrier s h).foldl (fun t h =>
    match asHart t h.cid fun u => .next (reachBarrier u) with
    | .next u => u
    | _ => t) s

/-- A fenced service restarts, copies are issued again, harts arrive at their barriers, queue slots are freed and passed on, victims
are marked, launches that find an entry go on (R359, R183, R332, R339, R127, R383). -/
def settle (s : State) : State :=
  let s := reachBarriers (resumeCopies (restartService s))
  let s := (activeParts s).foldl (fun s p => markVictims ((part s p).hwSlots.foldl (freeQueueSlot p) s) p) s
  let s := mapContexts (wakeLaunch s) s
  match s.pf0.dwait with
  | some b => enterDevice s b
  | none => s

/-! ### Turns (R21, R125, R353) -/

/-- A context that was stepped completes an instruction: its pc has moved, and it has not entered a handler. -/
def stepDone (old new : Hart) (jumped : Bool) : Bool :=
  old.mode == modeU && bit old.csr.status 10 && old.phase.live && new.phase.live && new.aside.length == old.aside.length &&
    (new.pc != old.pc || jumped)

/-- Cause 12 is owed to each context that completed an instruction under single step (R353). `jumper` has executed a jump. -/
def noteSteps (s t : State) (jumper : Option Nat) : State :=
  if (contexts s).any fun h => bit h.csr.status 10 then
    mapContexts (fun h =>
      match contextOf s h.cid with
      | some k => if stepDone k h (jumper == some h.cid) then { h with owes12 := some k.pc } else h
      | none => h) t
  else t

/-- The contexts in the order of their turns, from the one that comes next, split at the next one that may run. One that has
yielded is passed over once if another of its front end may run (R125). -/
def nextTurn (s : State) (all : List Hart) : List Hart → Option (List Hart × Hart × List Hart)
  | [] => none
  | h :: l =>
    let passed := h.yielded && all.any fun k => k.cid != h.cid && feOf k.slot == feOf h.slot && runnable s k
    if runnable s h ∧ !passed then some ([], { h with yielded := false }, l)
    else (nextTurn s all l).map fun x => ({ h with yielded := false } :: x.1, x.2)

/-- The next hart in turn runs next (R21). -/
def rotate (s : State) : State :=
  let all := s.others ++ (if s.hart.phase = .free then [] else [s.hart])
  match nextTurn s all all with
  | some (before, h, after) => { s with hart := h, others := after ++ before }
  | none =>
    let rested := all.map fun h => { h with yielded := false }
    match nextTurn s rested rested with
    | some (before, h, after) => { s with hart := h, others := after ++ before }
    | none => s

/-- The end of a step: time passes (log 7), the numbers of fetches are used up. -/
def tick (s : State) : State := { s with cycle := s.cycle + Config.cyclesTaken s.cycle, draws := s.draws + 4 }

/-- The current hart's number if an instruction is a jump, which completes wherever it goes. -/
def jumperOf (s : State) (i : Instr) : Option Nat := if dispatchClass i = .jump then some s.hart.cid else none

/-! ### A pre-emption and a cause on one instruction (R128) -/

/-- The instruction at which a due context stands raises a cause or begins its `exit`: that comes first. `old` is the context
before its attempt, `t` the machine after it. -/
def comesFirst (old : Hart) (t : State) : Bool :=
  match contextOf t old.cid with
  | none => true
  | some h => old.aside.length < h.aside.length || h.phase == .exiting || h.phase == .exited

/-- A context that is to be saved, or goes on after a harness change, tries its instruction first. -/
noncomputable def tryFirst (ex : Instr → State → Out) (s : State) (h : Hart) : State :=
  match asHart s h.cid fun t => if t.hart.phase = .launched then runHart ex (drainReplies t) else .next t with
  | .next t => if comesFirst h t then t else s
  | _ => s

/-- Contexts that a harness change has rebound in the step from `s` to `t` try their instruction before they take the cause 55 that they
are owed since (R25, R128); a cause of it comes first, and the 55 is taken in the handler. -/
noncomputable def afterRebind (ex : Instr → State → Out) (s t : State) : State :=
  let newly := (contexts t).filter fun h => h.owes55 && h.phase == .launched &&
    (contextOf s h.cid).any fun k => !k.owes55 && k.phase == .launched
  newly.foldl (fun t h =>
    let owes (b : Bool) := mapContext h.cid fun k => { k with owes55 := b }
    owes true (tryFirst ex (owes false t) h)) t

/-! ### A step, over the meanings of the instructions -/

/-- The current hart, if a plan is to execute a jump. -/
def planJumper (s : State) : Plan → Option Nat
  | .instr i => jumperOf s i
  | _ => none

/-- The replica that runs next without being chosen: the one with the fault that the lowest slab holds, and while a move stops the
hart one that has something to finish (R35, R36, R77). -/
def focusPlace (h : Hart) : Option Nat :=
  match h.par with
  | none => none
  | some p =>
    let find (ok : Replica → Bool) : Option Nat := p.rest.findIdx? ok
    if h.stopped then if h.heldFault.isNone ∧ h.underWay then none else find (·.flight.drains)
    else
      let slabs := (p.rest.filter (·.flight.heldFault.isSome)).map (·.slab)
      match slabs.min? with
      | some k => if h.heldFault.isSome ∧ p.active ≤ k then none else find (·.slab == k)
      | none => none

/-- That replica runs. -/
def focus (s : State) : State :=
  match focusPlace s.hart with
  | some k => rotateReplicas s k
  | none => s

/-- A replica that can go no further lets the next one run, unless the hart is stepped (R353). -/
def passReplica (s t : State) : State :=
  if t.hart.par.isSome ∧ !bit t.hart.csr.status 10 ∧ t.hart.cid = s.hart.cid ∧ sameButStall s.hart t.hart then rotateReplicas t 0 else t

/-- The end of an instruction turn that began in `s`. -/
def endTurn (s : State) (jumper : Option Nat) (t : State) : State :=
  rotate { (tick (passReplica s (noteSteps s t jumper))) with slice := false, tock := true }

/-- The end of an event that began in `s`. -/
def endEvent (s t : State) : State := tick (noteSteps s t none)

/-- The end of an instruction turn that began in `s`. -/
noncomputable def turnEnds (ex : Instr → State → Out) (s : State) (p : Plan) (x : Out) : Out :=
  thenNext (thenNext x (afterRebind ex s)) (endTurn s (planJumper s p))

/-- Context `cid` would issue a group in its next turn (R42). -/
noncomputable def wouldIssue (ex : Instr → State → Out) (s : State) (cid : Nat) : Bool :=
  (servedPlace ex (focus (makeCurrent s cid))).isSome

/-- Note which harts of a front end have no group ready. -/
noncomputable def refreshHeld (ex : Instr → State → Out) (s : State) (fe : Nat) : State :=
  (hartsOn s fe).foldl (fun t h => mapContext h.cid (fun k => { k with held := !wouldIssue ex s h.cid }) t) s

/-- The turn of the current hart in a beat that has been given to it: its oldest instruction issues a group, or one behind it; then
the stall of the oldest goes on. -/
noncomputable def issueTurn (ex : Instr → State → Out) (s : State) : Out :=
  if s.hart.queue.isEmpty then turnEnds ex s (planOf s) (runHart ex s)
  else match servedPlace ex s with
    | some (k + 1) =>
      match oldestDoes ex s, runHart ex s with
      | .stalls, .next t => .next (endTurn s none { (noteBeat ex s (k + 1)) with hart := { (noteBeat ex s (k + 1)).hart with
          stalled := t.hart.stalled, bound := t.hart.bound, waitNs := t.hart.waitNs, waitSince := t.hart.waitSince } })
      | _, _ => .next (endTurn s none (noteBeat ex s (k + 1)))
    | some 0 => turnEnds ex s (planOf s) (runPlan ex (noteBeat ex s 0) (planOf s))
    | none => turnEnds ex s (planOf s) (runHart ex s)

/-- A beat of the current hart's front end, and one group of the hart that it lets issue (R39, R41). -/
noncomputable def beatTurn (ex : Instr → State → Out) (s : State) : Out :=
  let fe := feOf s.hart.slot
  match ex (.issueBeat fe) (refreshHeld ex s fe) with
  | .next t => if t.slice then issueTurn ex (focus t) else .next (endTurn s none t)
  | x => x

/-- A turn of the current hart. What the scalar pipeline does, it does at once; a group issues in a beat of the hart's partition,
or at once if a beat has just been given (`slice`), or commits at once if it has issued in advance. An instruction that waits keeps
the account of its stall. An issue beat passes when no hart may run. -/
noncomputable def hartTurn (ex : Instr → State → Out) (s : State) : Out :=
  if runnable s s.hart then
    if hasCredit s then turnEnds ex s (planOf s) (runPlan ex { s with slice := true } (planOf s))
    else if s.slice then issueTurn ex s
    else if (servedPlace ex s).isSome then beatTurn ex s
    else turnEnds ex s (planOf s) (runHart ex s)
  else thenNext (ex (.issueBeat 0) s) (endTurn s none)

/-- A turn of the current hart, with the replica that has to run. -/
noncomputable def instrTurn (ex : Instr → State → Out) (s : State) : Out := hartTurn ex (focus s)

/-! ### Steps -/

/-- A gang is saved: its members that raise a cause or begin their `exit` at their instruction do so first, and the pre-emption is
taken at the handler's first boundary (R128). -/
noncomputable def saveTurn (ex : Instr → State → Out) (cid : Nat) (s : State) : Out :=
  match contextOf s cid with
  | none => .next (tick s)
  | some h =>
    let t := (leavers s h).foldl (tryFirst ex) s
    match leavers t h with
    | k :: _ => thenNext (ex (.contextSave k.cid) t) (endEvent s)
    | [] => .next (endEvent s t)

/-- The scalar side of the current hart runs ahead, or another replica of its loop runs on: what these steps do is free (log 23,
log 22). While a move waits for the hart to stop, the scalar side goes on to its stop point (R76). A hart that is stepped keeps its
replica (R353). -/
noncomputable def freeTurn (ex : Instr → State → Out) (s : State) : Option State :=
  let ahead := runAhead ex s
  if s.hart.stopPending ∧ s.hart.underWay ∧ ahead ≠ s then some ahead
  else if Config.runsAhead s.draws then some ahead
  else match s.hart.par with
    | some p =>
      if Config.switches s.draws ∧ !bit s.hart.csr.status 10 then
        some (rotateReplicas s (Config.pick s.draws % (p.rest.length + 1)))
      else none
    | none => none

/-- An internal event, or what the current hart does freely, or its turn. -/
noncomputable def eventTurn (ex : Instr → State → Out) (s : State) : Out :=
  match nextInternal s with
  | some (.contextSave cid) => saveTurn ex cid s
  | some i => thenNext (thenNext (ex i s) (afterRebind ex s)) (endEvent s)
  | none =>
    match freeTurn ex s with
    | some t => .next (tick t)
    | none => instrTurn ex s

/-- One step: the bring-up, an event that has arrived from outside, or in turn an internal event and an instruction. What arrives
before the bring-up has finished is retried (R395). -/
noncomputable def stepWith (ex : Instr → State → Out) (s : State) : Out :=
  if !s.up then thenNext (ex .bringUp s) (endEvent s)
  else match s.agenda with
    | i :: l => thenNext (thenNext (ex i { s with agenda := l }) (afterRebind ex s)) (endEvent s)
    | [] => if s.tock then eventTurn ex { (settle s) with tock := false } else instrTurn ex s

/-! ### Placing an instruction for the next step -/

/-- The machine as a first launch on slot 0 of front end 0 leaves it, for a state in which no hart runs: in mode D, with one
slab, the whole of DRAM and nothing else in the way. -/
def firstLaunch (s : State) : State :=
  { s with
    up := true
    hart := { cid := s.nextId + 1, phase := .launched, partId := Config.devicePartition, depth := 512,
              csr := { status := 0x042 } }
    fes := s.fes.set 0 { harness := 0x8080, beatmap := 0xCCCCCCCCCCCCCCCC }
    slots := s.slots.set 0 (fusedSlot 0)
    nextId := s.nextId + 1
    agenda := []
    tock := false }

/-- Store an instruction's bytes where the current hart fetches: in memory and as the instruction cache of its front end sees it.
The beat in which it may issue has been given, and nothing else has been fetched. -/
def putInstr (s : State) (bs : List Byte) : State :=
  let a := canon s.hart.pc.toNat
  let fe := feOf s.hart.slot
  let f := frontEnd s fe
  setFrontEnd { s with mem := s.mem.writeBytes a bs, slice := true, hart := { (dropAhead s.hart) with current := none } } fe
    { f with imem := f.imem.writeBytes a bs }

/-- The bytes of an instruction of the opcode table: the bits above `nbits` are zero, up to the longest instruction. -/
def tableBytes (nbits w : Nat) : List Byte := leBytes 8 (w % 2 ^ nbits)

end Sys2Proof.Machine
end

