-- ==== Sys2Proof/Machine/Step.lean ====
section
/-!
DEFINITION. The step of the machine, and how a single instruction is placed for the next step.
-/

namespace Sys2Proof.Machine

/-- One step of the machine (`stepWith` over the meanings of `exec`). -/
noncomputable def step : State → Host.Outcome State Fault Refusal := stepWith exec

/-- `s` with one instruction stored where the next step fetches. If no hart is launched, the state first stands for a
bring-up and a launch (log 28). -/
def State.withFetchWord (s : State) (nbits w : Nat) : State :=
  putInstr (if s.hart.phase = .launched then { s with agenda := [], tock := false } else firstLaunch s) (tableBytes nbits w)

end Sys2Proof.Machine
end

