-- ==== Sys2Proof/Safety.lean ====
section
/-!
DEFINITION. What counts as a safe run: every step answers a next state; and the terms in which claims are made: what an
instruction leaves unchanged, what taking a trap leaves, when an access is admitted.
-/

namespace Sys2Proof.Machine

/-- A run of `k` steps that neither faults nor is refused. -/
def SafeFor : Nat → State → Prop
  | 0, _ => True
  | k + 1, s => ∃ t, step s = .next t ∧ SafeFor k t

/-! ### Frames -/

/-- Every byte that the current hart can name reads as before. -/
def SameMemory (s t : State) : Prop := ∀ a, readByte t a = readByte s a

/-- Every byte reads as before except the `n` bytes from `x` up. -/
def SameMemoryBut (s t : State) (x n : Nat) : Prop := ∀ a, (a < x ∨ x + n ≤ a) → readByte t a = readByte s a

/-- Every byte outside the register-store rows of the local window (which are the vector registers' own storage) reads as
before. -/
def SameMemoryOffRows (s t : State) : Prop := ∀ a, placeOf a ≠ .rows → readByte t a = readByte s a

/-- `t` is `s` after an instruction of `len` bytes that writes `v` to general register `d` and nothing else; g0 takes no
write (R46). -/
structure Wrote (s t : State) (len : Nat) (d : Reg) (v : GReg) : Prop where
  dest : gpr t d = if d = 0 then {} else v
  regs : ∀ r, r ≠ d → gpr t r = gpr s r
  pc : t.hart.pc = s.hart.pc + BitVec.ofNat 64 len
  rest : t = { s with hart := { s.hart with regs := t.hart.regs, pc := t.hart.pc } }
  memory : SameMemory s t

/-- `t` is `s` moved on by `len` bytes, and nothing else. -/
def Moved (s t : State) (len : Nat) : Prop := t = advance len s ∧ SameMemory s t

/-- `t` is `s` after a trap entry (R347): the saved registers, the mode and the pc, the open regions set aside; every
register and every byte of memory as before. -/
structure Entered (s t : State) (async : Bool) (code : Nat) (tval at' : Word) : Prop where
  /-- reserved bits of `epc` read zero (R346) -/
  epc : t.hart.csr.epc = at' &&& 0x000FFFFFFFFFFFFE
  cause : t.hart.csr.cause = BitVec.ofNat 64 ((if async then 2 ^ 63 else 0) + code)
  tval : t.hart.csr.tval = tval
  pc : t.hart.pc = s.hart.csr.tvec
  /-- pm holds the old mode, paie the old aie -/
  pm : field t.hart.csr.status 3 2 = mode s
  paie : bit t.hart.csr.status 2 = bit s.hart.csr.status 1
  aie : bit t.hart.csr.status 1 = false
  h : bit t.hart.csr.status 0 = true
  /-- mode U becomes S; S and D stay -/
  mode : mode t = if mode s = modeU then modeS else mode s
  high : field t.hart.csr.status 9 3 = field s.hart.csr.status 9 3
  regs : t.hart.regs = s.hart.regs
  regions : t.hart.regions = []
  aside : t.hart.aside =
    { regions := s.hart.regions, depth := s.hart.loops.depth, fed := if s.hart.fed then some at' else none } :: s.hart.aside
  memory : SameMemory s t

/-! ### Conditions on the state and the operands -/

/-- A scalar read of `n` bytes at `x` through base register `a` is admitted: R72's checks pass, the far side answers, nothing
earlier of the hart overlaps it, the bytes are described and not poisoned. -/
structure Readable (s : State) (a : Reg) (x n : Nat) : Prop where
  checks : checkFull s .load (baseTag s a) x n n = .ok ()
  ready : mustWait s false x n = false
  described : undescribed false x n = false
  clean : firstPoisoned s x n = none

/-- A scalar store of the `n` bytes `bs` at `x` through base register `a` is admitted and performs at once: R72's checks pass, the far
side answers, nothing earlier of the hart overlaps it, and a device register takes the value. -/
structure Storable (s : State) (a : Reg) (x n : Nat) (bs : List Byte) : Prop where
  checks : checkFull s .store (baseTag s a) x n n = .ok ()
  atOnce : s.hart.lag = false
  ready : mustWait s true x n = false
  described : undescribed true x n = false
  taken : badDevice s x bs = false

end Sys2Proof.Machine
end

