-- ==== Sys2Proof/Certificates/Slice0/Obligations.lean ====
section
/-!
DEFINITION. The statements for the provers, from the numbered rules of the spec.
-/

namespace Sys2Proof.Claims
end Sys2Proof.Claims

open Sys2Proof Sys2Proof.Machine Sys2Proof.Claims

/-! ### Integer instructions (R103 to R108) -/

namespace Sys2Proof.Claims

/-- The current hart is there, no move has stopped it, and it is in no handler: a cause that it raises is taken as a trap. -/
abbrev Awake (s : State) : Prop := s.hart.phase ≠ .free ∧ s.hart.stopped = false ∧ bit s.hart.csr.status 0 = false

/-- The tag of `add` and `and` (R71). -/
def tagOfSum (a b : BitVec 8) : BitVec 8 := if a = 0 then b else if b = 0 then a else 255

/-- The tag of `sub` (R71). -/
def tagOfDifference (a b : BitVec 8) : BitVec 8 :=
  if a ≠ 0 ∧ b ≠ 0 then (if a = b ∧ a ≠ 255 then 0 else 255) else if a = 0 then b else a

/-- Untagged (R71). -/
def untagged (_ _ : BitVec 8) : BitVec 8 := 0

/-- The instructions of R105 with the value that each writes, x being ga and y being gb, and the tag of R71. -/
def registerForms : List ((Reg → Reg → Reg → Instr) × (Word → Word → Word) × (BitVec 8 → BitVec 8 → BitVec 8)) :=
  [(.add, fun x y => x + y, tagOfSum), (.sub, fun x y => x - y, tagOfDifference), (.and, fun x y => x &&& y, tagOfSum),
    (.or, fun x y => x ||| y, untagged), (.xor, fun x y => x ^^^ y, untagged),
    (.sll, fun x y => x <<< (y.toNat % 64), untagged), (.srl, fun x y => x >>> (y.toNat % 64), untagged),
    (.sra, fun x y => x.sshiftRight (y.toNat % 64), untagged),
    (.slt, fun x y => if x.toInt < y.toInt then 1 else 0, untagged),
    (.sltn, fun x y => if x.toNat < y.toNat then 1 else 0, untagged),
    (.mul, fun x y => x * y, untagged),
    (.mulh, fun x y => ((x.signExtend 128 * y.signExtend 128) >>> 64).truncate 64, untagged),
    (.mulhn, fun x y => ((x.zeroExtend 128 * y.zeroExtend 128) >>> 64).truncate 64, untagged),
    (.div, fun x y => if y = 0 then 0xFFFFFFFFFFFFFFFF else x.sdiv y, untagged),
    (.divn, fun x y => if y = 0 then 0xFFFFFFFFFFFFFFFF else x / y, untagged),
    (.rem, fun x y => if y = 0 then x else x - y * x.sdiv y, untagged),
    (.remn, fun x y => if y = 0 then x else x - y * (x / y), untagged),
    (.min, fun x y => if x.toInt ≤ y.toInt then x else y, untagged),
    (.max, fun x y => if x.toInt ≤ y.toInt then y else x, untagged),
    (.minn, fun x y => if x.toNat ≤ y.toNat then x else y, untagged),
    (.maxn, fun x y => if x.toNat ≤ y.toNat then y else x, untagged)]

/-- The instructions of R107 with an immediate of 12 bits: the value, i being the sign-extended immediate, and whether the tag
of ga is kept (R71). -/
def immediateForms : List ((Reg → Reg → BitVec 12 → Instr) × (Word → Word → Word) × Bool) :=
  [(.addi, fun x i => x + i, true), (.andi, fun x i => x &&& i, true), (.ori, fun x i => x ||| i, false),
    (.xori, fun x i => x ^^^ i, false), (.slti, fun x i => if x.toInt < i.toInt then 1 else 0, false),
    (.sltni, fun x i => if x.toNat < i.toNat then 1 else 0, false)]

/-- The shifts of R107 by s places. -/
def shiftForms : List ((Reg → Reg → BitVec 6 → Instr) × (Word → Nat → Word)) :=
  [(.slli, fun x n => x <<< n), (.srli, fun x n => x >>> n), (.srai, fun x n => x.sshiftRight n)]

/-- The union of two lease sets with their S bits (R103). -/
def bothLeases (l m : LeaseSet) : LeaseSet := { ids := l.ids ||| m.ids, sat := l.sat || m.sat }

end Sys2Proof.Claims

/-- R105 and R106, with R71's tags and R103's lease sets: every integer register instruction answers a next state, in every
state and for every choice of registers, in which gd holds the value of the table, g0 discards it, and nothing else but the pc
has changed. -/
def Obligations.RegisterForms : Prop :=
  ∀ p ∈ registerForms, ∀ (s : State) (d a b : Reg),
    ∃ t, exec (p.1 d a b) s = .next t ∧
      Wrote s t 4 d
        { val := p.2.1 (gval s a) (gval s b), tag := p.2.2 (gpr s a).tag (gpr s b).tag
          lease := bothLeases (gpr s a).lease (gpr s b).lease }

/-- R107 and R108: the integer immediate instructions, shifts and upper immediates, as `RegisterForms`; the result of an upper
immediate is untagged with an empty lease set. -/
def Obligations.ImmediateForms : Prop :=
  (∀ p ∈ immediateForms, ∀ (s : State) (d a : Reg) (imm : BitVec 12),
    ∃ t, exec (p.1 d a imm) s = .next t ∧
      Wrote s t 4 d
        { val := p.2.1 (gval s a) (imm.signExtend 64), tag := if p.2.2 then (gpr s a).tag else 0
          lease := (gpr s a).lease }) ∧
  (∀ p ∈ shiftForms, ∀ (s : State) (d a : Reg) (n : BitVec 6),
    ∃ t, exec (p.1 d a n) s = .next t ∧
      Wrote s t 4 d { val := p.2 (gval s a) n.toNat, tag := 0, lease := (gpr s a).lease }) ∧
  ∀ (s : State) (d : Reg) (imm : BitVec 20),
    (∃ t, exec (.lhi d imm) s = .next t ∧
      Wrote s t 4 d { val := ((imm.zeroExtend 32) <<< 12).signExtend 64, tag := 0, lease := {} }) ∧
    ∃ t, exec (.aupc d imm) s = .next t ∧
      Wrote s t 4 d { val := s.hart.pc + ((imm.zeroExtend 32) <<< 12).signExtend 64, tag := 0, lease := {} }

/-! ### Scalar floating point (R117, R118) -/

namespace Sys2Proof.Claims

/-- The FP32 operand of a register: bits 31:0 (R47). -/
def operand (s : State) (r : Reg) : FVal := fmtF32.decode ((gval s r).toNat % 2 ^ 32)

/-- The rounding mode of `fstat`. -/
def scalarMode (s : State) : Rm := (Rm.ofCode (field s.hart.csr.fstat 5 3)).getD .rne

/-- A value rounded once to FP32, with the flags of the operation and of the rounding. -/
def roundedOnce (s : State) (v : FVal × Flags) : Nat × Flags :=
  let r := roundTo fmtF32 false (scalarMode s) 0 v.1
  (r.1, v.2 ||| r.2)

/-- The arithmetic of R117 with two sources: the exact operation, before its one rounding. -/
def fpForms : List ((Reg → Reg → Reg → Instr) × (Rm → FVal → FVal → FVal × Flags)) :=
  [(.fadd, fun m x y => FVal.add m x y), (.fsub, fun m x y => FVal.add m x y.negate), (.fmul, fun _ x y => FVal.mul x y),
    (.fdiv, fun _ x y => FVal.div x y)]

/-- The comparisons of R117: which outcome of comparing two numbers gives 1, and whether a quiet NaN sets NV. -/
def fpCompares : List ((Reg → Reg → Reg → Instr) × (Ordering → Bool) × Bool) :=
  [(.feq, fun o => o == .eq, false), (.flt, fun o => o == .lt, true), (.fle, fun o => o != .gt, true)]

/-- The integer that a conversion of R118 reads. -/
def fromIntForms : List ((Reg → Reg → Instr) × (Word → Int)) :=
  [(.fcvtF32I32, fun x => (x.truncate 32 : BitVec 32).toInt), (.fcvtF32N32, fun x => ((x.toNat % 2 ^ 32 : Nat) : Int)),
    (.fcvtF32I64, fun x => x.toInt), (.fcvtF32N64, fun x => (x.toNat : Int))]

/-- The range of a conversion to an integer (R118). -/
def toIntForms : List ((Reg → Reg → Instr) × Int × Int) :=
  [(.fcvtI32F32, -2147483648, 2147483647), (.fcvtN32F32, 0, 4294967295),
    (.fcvtI64F32, -9223372036854775808, 9223372036854775807), (.fcvtN64F32, 0, 18446744073709551615)]

/-- `t` is `s` after an FP instruction: gd holds a value of 64 bits, untagged, with a lease set; `fstat` has gained flags; the
pc has moved on; nothing else has changed. -/
def FpWrote (s t : State) (d : Reg) (x : Nat) (l : LeaseSet) (f : Flags) : Prop :=
  Wrote (setCsrs s fun c => { c with fstat := c.fstat ||| f.zeroExtend 8 }) t 4 d
    { val := BitVec.ofNat 64 x, tag := 0, lease := l } ∧ SameMemory s t

end Sys2Proof.Claims

namespace Sys2Proof.Claims

/-- R117: `fadd`, `fsub`, `fmul`, `fdiv`, `fmadd` and `fsqrt` deliver the exact operation on the FP32 operands rounded once
under `fstat`.rm, join the flags of the operation and of the rounding into `fstat`, and complete in every state. -/
def FpResults : Prop :=
  (∀ p ∈ fpForms, ∀ (s : State) (d a b : Reg),
    let r := roundedOnce s (p.2 (scalarMode s) (operand s a) (operand s b))
    ∃ t, exec (p.1 d a b) s = .next t ∧ FpWrote s t d r.1 (bothLeases (gpr s a).lease (gpr s b).lease) r.2) ∧
  (∀ (s : State) (d a b : Reg),
    let r := roundedOnce s (FVal.fma (scalarMode s) (operand s a) (operand s b) (operand s d))
    ∃ t, exec (.fmadd d a b) s = .next t ∧
      FpWrote s t d r.1 (bothLeases (bothLeases (gpr s a).lease (gpr s b).lease) (gpr s d).lease) r.2) ∧
  ∀ (s : State) (d a : Reg),
    let r := roundedOnce s (FVal.sqrt (operand s a))
    ∃ t, exec (.fsqrt d a) s = .next t ∧ FpWrote s t d r.1 (gpr s a).lease r.2

end Sys2Proof.Claims

namespace Sys2Proof.Claims

/-- R117: the comparisons and `fclass` write a 64-bit integer, `fmin` and `fmax` the lesser or greater operand; a comparison
with a NaN gives 0; every form completes in every state. -/
def FpCompares : Prop :=
  (∀ p ∈ fpCompares, ∀ (s : State) (d a b : Reg),
    let x := operand s a
    let y := operand s b
    let nan := x.isNan || y.isNan
    ∃ t, exec (p.1 d a b) s = .next t ∧
      FpWrote s t d (if nan then 0 else if p.2.1 (FVal.cmp x y) then 1 else 0)
        (bothLeases (gpr s a).lease (gpr s b).lease)
        (if p.2.2 then (if nan then flagNV else 0) else snanFlag [x, y])) ∧
  (∀ (s : State) (d a b : Reg),
    let x := operand s a
    let y := operand s b
    (∃ t, exec (.fmin d a b) s = .next t ∧
      FpWrote s t d (widenBits fmtF32 (FVal.minMax false x y)) (bothLeases (gpr s a).lease (gpr s b).lease)
        (snanFlag [x, y])) ∧
    ∃ t, exec (.fmax d a b) s = .next t ∧
      FpWrote s t d (widenBits fmtF32 (FVal.minMax true x y)) (bothLeases (gpr s a).lease (gpr s b).lease)
        (snanFlag [x, y])) ∧
  ∀ (s : State) (d a : Reg),
    ∃ t, exec (.fclass d a) s = .next t ∧ FpWrote s t d (2 ^ fclassBit ((gval s a).toNat % 2 ^ 32)) (gpr s a).lease 0

end Sys2Proof.Claims

namespace Sys2Proof.Claims

/-- R118: the conversions read and write what the table says: an integer rounded to FP32, or FP32 rounded under rm to an
integer of the range, saturated with NV; every form completes in every state. -/
def FpConverts : Prop :=
  (∀ p ∈ fromIntForms, ∀ (s : State) (d a : Reg),
    let r := roundedOnce s (FVal.ofInt (p.2 (gval s a)), 0)
    ∃ t, exec (p.1 d a) s = .next t ∧ FpWrote s t d r.1 (gpr s a).lease r.2) ∧
  ∀ p ∈ toIntForms, ∀ (s : State) (d a : Reg),
    let r := FVal.toInt (scalarMode s) p.2.1 p.2.2 (operand s a)
    ∃ t, exec (p.1 d a) s = .next t ∧ FpWrote s t d (BitVec.ofInt 64 r.1).toNat (gpr s a).lease r.2

end Sys2Proof.Claims

namespace Sys2Proof.Claims

/-- R117: division by zero, the invalid operations and the canonical NaN. `x` and `y` are the FP32 bits of ga and gb. -/
def FpSpecials : Prop :=
  ∀ (s : State) (d a b : Reg), d ≠ 0 →
    let x := (gval s a).toNat % 2 ^ 32
    let y := (gval s b).toNat % 2 ^ 32
    let inf := 0x7F800000
    (x % 2 ^ 31 ≠ 0 → x % 2 ^ 31 < inf → y % 2 ^ 31 = 0 →
      ∃ t, exec (.fdiv d a b) s = .next t ∧
        gval t d = BitVec.ofNat 64 ((x / 2 ^ 31 + y / 2 ^ 31) % 2 * 2 ^ 31 + inf) ∧ bit t.hart.csr.fstat 3 = true) ∧
    ((x % 2 ^ 31 = 0 ∧ y % 2 ^ 31 = 0 ∨ x % 2 ^ 31 = inf ∧ y % 2 ^ 31 = inf) →
      ∃ t, exec (.fdiv d a b) s = .next t ∧ gval t d = 0x7FC00000 ∧ bit t.hart.csr.fstat 4 = true) ∧
    ((x % 2 ^ 31 = inf ∧ y % 2 ^ 31 = 0 ∨ x % 2 ^ 31 = 0 ∧ y % 2 ^ 31 = inf) →
      ∃ t, exec (.fmul d a b) s = .next t ∧ gval t d = 0x7FC00000 ∧ bit t.hart.csr.fstat 4 = true) ∧
    (x % 2 ^ 31 = inf ∧ y = x →
      ∃ t, exec (.fsub d a b) s = .next t ∧ gval t d = 0x7FC00000 ∧ bit t.hart.csr.fstat 4 = true) ∧
    (2 ^ 31 < x ∧ x ≤ 2 ^ 31 + inf →
      ∃ t, exec (.fsqrt d a) s = .next t ∧ gval t d = 0x7FC00000 ∧ bit t.hart.csr.fstat 4 = true) ∧
    (x = 2 ^ 31 → ∃ t, exec (.fsqrt d a) s = .next t ∧ gval t d = 0x80000000) ∧
    ∀ p ∈ fpForms, ∃ t, exec (p.1 d a b) s = .next t ∧ ((operand t d).isNan = true → gval t d = 0x7FC00000)


end Sys2Proof.Claims

/-- R117: the arithmetic of FP32 delivers the exact operation rounded once under `fstat`.rm with its flags (the sign of an
exactly zero sum under RDN is log 42, read from R210), and the special values of the rule. -/
def Obligations.FpArithmetic : Prop := FpResults ∧ FpSpecials

/-- R117 and R118: comparisons, `fclass`, `fmin`, `fmax` and the conversions complete in every state with the values of the
rules. -/
def Obligations.FpComparisonsAndConversions : Prop := FpCompares ∧ FpConverts

/-! ### Scalar loads and stores (R112 to R116, R72) -/

namespace Sys2Proof.Claims

/-- The loads of R112 with an immediate of 12 bits: size, and whether the form is natural. `ldd` fills all 64 bits. -/
def loadForms : List ((Reg → Reg → BitVec 12 → Instr) × Nat × Bool) :=
  [(.ldb, 1, false), (.ldh, 2, false), (.ldw, 4, false), (.ldd, 8, true), (.ldbn, 1, true), (.ldhn, 2, true),
    (.ldwn, 4, true), (.ldbAcq, 1, false), (.ldhAcq, 2, false), (.ldwAcq, 4, false), (.lddAcq, 8, true),
    (.ldbnAcq, 1, true), (.ldhnAcq, 2, true), (.ldwnAcq, 4, true)]

/-- The stores of R112: size, and whether the form is a release. -/
def storeForms : List ((Reg → Reg → BitVec 12 → Instr) × Nat × Bool) :=
  [(.stb, 1, false), (.sth, 2, false), (.stw, 4, false), (.std, 8, false), (.stbRel, 1, true), (.sthRel, 2, true),
    (.stwRel, 4, true), (.stdRel, 8, true)]

/-- The effective address ga + sext(imm12). -/
def loadAddr (s : State) (a : Reg) (imm : BitVec 12) : Nat := (gval s a + imm.signExtend 64).toNat

/-- The value of `sz` little-endian bytes at an address, extended to 64 bits. -/
def loadedValue (s : State) (x sz : Nat) (natural : Bool) : Word :=
  let v := ((List.range sz).map fun i => (readByte s (x + i)).toNat * 256 ^ i).foldl (· + ·) 0
  if natural then BitVec.ofNat 64 v else BitVec.ofInt 64 (if v < 2 ^ (8 * sz - 1) then (v : Int) else v - 2 ^ (8 * sz))

/-- The lease set of a load's destination: the fresh ID with the set of the address register, in which an older load of the
same ID has become the S bit (R130). -/
def loadLease (s : State) (a : Reg) : LeaseSet :=
  let id := s.hart.leaseNext
  let l := (gpr s a).lease
  let kept : LeaseSet := if l.ids.getLsbD id.toNat then { ids := l.ids &&& ~~~(1#16 <<< id.toNat), sat := true } else l
  { kept with ids := kept.ids ||| (1#16 <<< id.toNat) }

/-- `t` is `s` after a load: gd holds a value, untagged, with the lease set of the load; every other general register keeps
its value and its tag; the next lease ID is the following one; no byte of memory, no control register, no vector window and no
other part of the machine has changed. -/
structure Loaded (s t : State) (len : Nat) (d : Reg) (v : Word) (tag : BitVec 8) (l : LeaseSet) : Prop where
  dest : gpr t d = if d = 0 then {} else { val := v, tag := tag, lease := l }
  regs : ∀ r, r ≠ d → gval t r = gval s r ∧ (gpr t r).tag = (gpr s r).tag
  pc : t.hart.pc = s.hart.pc + BitVec.ofNat 64 len
  id : t.hart.leaseNext = s.hart.leaseNext + 1
  windows : ∀ v, (vreg t v).win = (vreg s v).win
  masks : ∀ m, (mreg t m).bits = (mreg s m).bits
  scales : ∀ k, (kreg t k).win = (kreg s k).win
  rest : t = { s with hart := { s.hart with
    regs := t.hart.regs, vregs := t.hart.vregs, mregs := t.hart.mregs, kregs := t.hart.kregs
    accLease := t.hart.accLease, par := t.hart.par, front := t.hart.front, replies := t.hart.replies, leaseNext := t.hart.leaseNext, pc := t.hart.pc } }
  memory : SameMemory s t

/-- The 64-bit word of little-endian bytes. -/
def leWord (bs : List Byte) : Word :=
  BitVec.ofNat 64 (((List.range bs.length).map fun i => (bs.getD i 0).toNat * 256 ^ i).foldl (· + ·) 0)

/-- What a load of 8 bytes reads at an offset of the device range: the event block of partition p, its host window and its peer
windows, the cold regions, the vault controls, the debug registers of a slot, the links (R360, R384, R386, R385, R361, R353, R362). -/
structure DeviceReads (s : State) (o : Nat) (v : Word) : Prop where
  timer : ∀ p < 13, o = 0x1000 * p → v = (part s p).timer
  logBase : ∀ p < 13, o = 0x1000 * p + 0x08 → v = (part s p).logBase
  logSize : ∀ p < 13, o = 0x1000 * p + 0x10 → v = (part s p).logHead ++ (part s p).logEntries
  logCount : ∀ p < 13, o = 0x1000 * p + 0x18 → v = (part s p).logOverflow ++ (part s p).logConsumed
  quarantine : ∀ p < 13, o = 0x1000 * p + 0x20 → v = if (part s p).quarantined then 1 else 0
  hostWin : ∀ p < 13, o = 0x30000 + 16 * p → v = (part s p).hostWin
  peer : ∀ p < 13, ∀ n < 64, o = 0x40000 + 0x200 * p + 8 * n → v = (part s p).peers.get 0 n
  cold : ∀ r < 14, (o = 0x50000 + 16 * r → v = (coldRegion s r).reg) ∧ (o = 0x50008 + 16 * r → v = (coldRegion s r).capacity)
  vault : ∀ x < 3072, o = 0x100000 + 8 * x →
    bit v 0 = (vaultCtl s x).asked ∧ bit v 1 = (vaultCtl s x).retired ∧ bit v 2 = (vaultCtl s x).fenced ∧ v.toNat < 8
  debug : ∀ x < 12288, (o = 0x200000 + 16 * hartIdOf x → v = (slotCfg s x).breakpoint) ∧
    (o = 0x200008 + 16 * hartIdOf x → v = (slotCfg s x).watchpoint)
  link : ∀ l < 32, o = 0x400000 + 8 * l → v = (linkReg s l).zeroExtend 64

/-- What a store of 8 bytes that the register takes leaves there. -/
structure DeviceTakes (s t : State) (o : Nat) (v : Word) : Prop where
  timer : ∀ p < 13, o = 0x1000 * p → (part t p).timer = v
  logBase : ∀ p < 13, o = 0x1000 * p + 0x08 → (part t p).logBase = v
  logSize : ∀ p < 13, o = 0x1000 * p + 0x10 →
    (part t p).logEntries = v.truncate 32 ∧ (part t p).logHead = (part s p).logHead
  logCount : ∀ p < 13, o = 0x1000 * p + 0x18 →
    (part t p).logConsumed = v.truncate 32 ∧ (part t p).logOverflow = (part s p).logOverflow
  /-- a write of 0 ends the quarantine; software does not begin one (R360) -/
  quarantine : ∀ p < 13, o = 0x1000 * p + 0x20 → (part t p).quarantined = ((part s p).quarantined && bit v 0)
  eventHart : ∀ p < 13, o = 0x1000 * p + 0x28 → part t p = part s p
  hostWin : ∀ p < 13, o = 0x30000 + 16 * p → (part t p).hostWin = v
  peer : ∀ p < 13, ∀ n < 64, o = 0x40000 + 0x200 * p + 8 * n → (part t p).peers.get 0 n = v
  cold : ∀ r < 14,
    (o = 0x50000 + 16 * r → (coldRegion t r).reg = v ∧ (coldRegion t r).capacity = (coldRegion s r).capacity) ∧
    (o = 0x50008 + 16 * r → (coldRegion t r).capacity = v ∧ (coldRegion t r).reg = (coldRegion s r).reg)
  vault : ∀ x < 3072, o = 0x100000 + 8 * x → vaultCtl t x = { vaultCtl s x with asked := bit v 0 }
  debug : ∀ x < 12288, (o = 0x200000 + 16 * hartIdOf x → (slotCfg t x).breakpoint = v) ∧
    (o = 0x200008 + 16 * hartIdOf x → (slotCfg t x).watchpoint = v)
  /-- no memory and no other hart is touched -/
  memory : t.mem = s.mem ∧ t.fes = s.fes ∧ t.others = s.others ∧ t.saved = s.saved

/-- `t` is `s` after a store of bytes at `x`: the bytes read as stored, every byte that shares no storage with them reads as
before, and nothing else but the pc has changed. Device registers take the store as their own rules say. -/
structure Stored (s t : State) (len x : Nat) (bs : List Byte) : Prop where
  pc : t.hart.pc = s.hart.pc + BitVec.ofNat 64 len
  bytes : placeOf x ≠ .device → ∀ i (h : i < bs.length), readByte t (x + i) = bs[i]
  memory : placeOf x ≠ .device → ∀ y, (∀ i, i < bs.length → canon y ≠ canon (x + i)) → readByte t y = readByte s y
  rest : placeOf x ≠ .device → t = { s with
    hart := { s.hart with pc := t.hart.pc, rows := t.hart.rows, rowPoison := t.hart.rowPoison }
    mem := t.mem, poison := t.poison, fes := t.fes }
  device : placeOf x = .device → t = advance len (deviceStore s (x - deviceBase) bs)
  registers : placeOf x = .device → bs.length = 8 → DeviceTakes s t (x - deviceBase) (leWord bs)

/-- The low `sz` bytes of a register, the least significant first. -/
def lowBytes (v : Word) (sz : Nat) : List Byte := (List.range sz).map fun i => BitVec.ofNat 8 (v.toNat / 256 ^ i)

/-- Nothing holds a release back: every earlier access has performed, and its scope is not clamped (R116). -/
def ReleaseFree (s : State) (x : Nat) : Prop :=
  quiet s = true ∧ (scopeLimited s = false ∨ (placeOf x).isSystem = false)

end Sys2Proof.Claims

/-- R112: an admitted load completes with the value of its bytes, sign- or zero-extended, in gd. What the bytes of a device
register are, the table of R64's range says: the registers of R353, R360, R361, R362, R384, R385 and R386. It rests on the
model's choices of log 21. -/
def Obligations.ScalarLoads : Prop :=
  (∀ (s : State) (x : Nat), placeOf x = .device → x % 8 = 0 → DeviceReads s (x - deviceBase) (loadedValue s x 8 true)) ∧
  ∀ p ∈ loadForms, ∀ (s : State) (d a : Reg) (imm : BitVec 12), Readable s a (loadAddr s a imm) p.2.1 →
    ∃ t, exec (p.1 d a imm) s = .next t ∧
      Loaded s t 4 d (loadedValue s (loadAddr s a imm) p.2.1 p.2.2) 0 (loadLease s a)

/-- R112: an admitted store completes, and stores the low bytes of gb at ga + sext(imm12) and nowhere else. A store of 8 bytes
to a device register leaves it as R353, R360, R361, R384, R385 or R386 says. It rests on the model's choices of log 20. -/
def Obligations.ScalarStores : Prop :=
  ∀ p ∈ storeForms, ∀ (s : State) (b a : Reg) (imm : BitVec 12), Storable s a (loadAddr s a imm) p.2.1 (lowBytes (gval s b) p.2.1) →
    (p.2.2 = true → ReleaseFree s (loadAddr s a imm)) →
    ∃ t, exec (p.1 b a imm) s = .next t ∧ Stored s t 4 (loadAddr s a imm) (lowBytes (gval s b) p.2.1)

namespace Sys2Proof.Claims

/-- R72, check 4 with R112: a load through an untagged register at an address that is no multiple of its size raises cause 18,
a store cause 19; the address is in `tval`, gd is not written, nothing is stored. -/
def MisalignedTraps : Prop :=
  (∀ p ∈ loadForms, ∀ (s : State) (d a : Reg) (imm : BitVec 12), Awake s →
    (gpr s a).tag = 0 → loadAddr s a imm % p.2.1 ≠ 0 →
    ∃ t, exec (p.1 d a imm) s = .next t ∧
      Entered (takeId s) t false 18 (BitVec.ofNat 64 (loadAddr s a imm)) s.hart.pc) ∧
  ∀ p ∈ storeForms, ∀ (s : State) (b a : Reg) (imm : BitVec 12), Awake s →
    (gpr s a).tag = 0 → loadAddr s a imm % p.2.1 ≠ 0 →
    ∃ t, exec (p.1 b a imm) s = .next t ∧
      Entered s t false 19 (BitVec.ofNat 64 (loadAddr s a imm)) s.hart.pc

end Sys2Proof.Claims

namespace Sys2Proof.Claims

/-- R72, checks 1 and 5 with R64: an access through a register with the conflict tag 255 raises cause 20, whatever its
alignment and its address; an untagged aligned access to a hole of the map, an address that belongs to no range, raises cause 16
for a load and 17 for a store, in every mode. -/
def AddressesTrap : Prop :=
  (∀ p ∈ loadForms, ∀ (s : State) (d a : Reg) (imm : BitVec 12), Awake s →
    ((gpr s a).tag = 255 →
      ∃ t, exec (p.1 d a imm) s = .next t ∧
        Entered (takeId s) t false 20 (BitVec.ofNat 64 (loadAddr s a imm)) s.hart.pc) ∧
    ((gpr s a).tag = 0 → loadAddr s a imm % p.2.1 = 0 → placeOf (loadAddr s a imm) = .hole →
      ∃ t, exec (p.1 d a imm) s = .next t ∧
        Entered (takeId s) t false 16 (BitVec.ofNat 64 (loadAddr s a imm)) s.hart.pc)) ∧
  ∀ p ∈ storeForms, ∀ (s : State) (b a : Reg) (imm : BitVec 12), Awake s →
    ((gpr s a).tag = 255 →
      ∃ t, exec (p.1 b a imm) s = .next t ∧
        Entered s t false 20 (BitVec.ofNat 64 (loadAddr s a imm)) s.hart.pc) ∧
    ((gpr s a).tag = 0 → loadAddr s a imm % p.2.1 = 0 → placeOf (loadAddr s a imm) = .hole →
      ∃ t, exec (p.1 b a imm) s = .next t ∧
        Entered s t false 17 (BitVec.ofNat 64 (loadAddr s a imm)) s.hart.pc)


end Sys2Proof.Claims

/-- R72, checks 1, 4 and 5, with R64 and R112: a misaligned scalar access, one through a register with the conflict tag, and
one to a hole of the map raise their causes with the address in `tval`, and do nothing else. -/
def Obligations.AccessTraps : Prop := MisalignedTraps ∧ AddressesTrap

/-! ### Atomics and `waitw` (R177 to R179) -/

namespace Sys2Proof.Claims

/-- The bytes of a size code. -/
def opBytes : AmoSz → Nat
  | .w => 4
  | .d => 8

/-- The lesser of two numbers of `w` bits read as signed, as a bit pattern; the greater. -/
def signedLesser (w x y : Nat) : Nat := if toSigned w y < toSigned w x then y else x
def signedGreater (w x y : Nat) : Nat := if toSigned w x < toSigned w y then y else x

/-- What each atomic of R177 writes: from the width in bits, the old value, gb's low bits and gd's low bits; `none` writes
nothing. -/
def atomicForms : List ((AmoSz → Bool → Bool → Reg → Reg → Reg → Instr) × (Nat → Nat → Nat → Nat → Option Nat)) :=
  [(.amoadd, fun w o x _ => some ((o + x) % 2 ^ w)), (.amoswap, fun _ _ x _ => some x),
    (.amocas, fun _ o x e => if o = e then some x else none), (.amomin, fun w o x _ => some (signedLesser w o x)),
    (.amomax, fun w o x _ => some (signedGreater w o x)), (.amoand, fun _ o x _ => some (o &&& x)),
    (.amoor, fun _ o x _ => some (o ||| x)), (.amoxor, fun _ o x _ => some (o ^^^ x))]

/-- An atomic of `n` bytes at `x` through base register `a` is admitted: R72 and R178, nothing earlier overlaps it, its bytes
are not poisoned, and a release has nothing to wait for. -/
structure AtomicReady (s : State) (a : Reg) (rl : Bool) (x n : Nat) : Prop where
  checks : checkFull s .atomic (baseTag s a) x n n = .ok ()
  ready : mustWait s true x n = false
  clean : firstPoisoned s x n = none
  release : rl = true → ReleaseFree s x

/-- The low `w` bits of a register. -/
def gprLow (v : Word) (w : Nat) : Nat := v.toNat % 2 ^ w

/-- The little-endian number of `n` bytes at an address. -/
def numberAt (s : State) (x n : Nat) : Nat := ((List.range n).map fun i => (readByte s (x + i)).toNat * 256 ^ i).foldl (· + ·) 0

/-- `t` is `s` after an atomic of `n` bytes at `x` that found `old` and wrote `new`. -/
structure AtomicDone (s t : State) (d a : Reg) (x n old : Nat) (new : Option Nat) : Prop where
  dest : gpr t d = if d = 0 then {} else
    { val := BitVec.ofInt 64 (toSigned (8 * n) old), tag := 0, lease := loadLease s a }
  regs : ∀ r, r ≠ d → gval t r = gval s r ∧ (gpr t r).tag = (gpr s r).tag
  pc : t.hart.pc = s.hart.pc + 4
  id : t.hart.leaseNext = s.hart.leaseNext + 1
  written : ∀ v, new = some v → ∀ i, i < n → readByte t (x + i) = BitVec.ofNat 8 (v / 256 ^ i)
  kept : new = none → SameMemory s t
  memory : ∀ y, (∀ i, i < n → canon y ≠ canon (x + i)) → readByte t y = readByte s y
  csr : t.hart.csr = s.hart.csr
  windows : ∀ v, (vreg t v).win = (vreg s v).win
  masks : ∀ m, (mreg t m).bits = (mreg s m).bits
  scales : ∀ k, (kreg t k).win = (kreg s k).win
  rest : t = { s with
    hart := { s.hart with
      regs := t.hart.regs, vregs := t.hart.vregs, mregs := t.hart.mregs, kregs := t.hart.kregs, accLease := t.hart.accLease
      par := t.hart.par, front := t.hart.front, replies := t.hart.replies, leaseNext := t.hart.leaseNext, pc := t.hart.pc
      rows := t.hart.rows, rowPoison := t.hart.rowPoison }
    mem := t.mem, poison := t.poison, fes := t.fes }

/-- The read of a `waitw` or `vwait` is admitted at `x`: R72 as a load, bonded DRAM, nothing earlier overlaps it, no poison. -/
structure WaitReady (s : State) (a : Reg) (x n : Nat) : Prop where
  checks : checkIssue s .load (baseTag s a) x n n = .ok ()
  place : (placeOf x).isDram = true
  ready : mustWait s false x n = false
  clean : firstPoisoned s x n = none

end Sys2Proof.Claims

/-- R177 and R178: an admitted atomic completes: gd receives the old value sign-extended, memory the new value, nothing else
changes. An atomic through an untagged register, aligned, on a register-store row, in the cold tier or, in mode D, on a device
register raises cause 26 with the address, and writes nothing. Every address of the cold tier counts, installed or not (log
41). It rests on the model's choices of log 20 and log 21. -/
def Obligations.Atomics : Prop :=
  (∀ p ∈ atomicForms, ∀ (s : State) (sz : AmoSz) (aq rl : Bool) (d b a : Reg),
    let n := opBytes sz
    let x := (gval s a).toNat
    AtomicReady s a rl x n →
    ∃ t, exec (p.1 sz aq rl d b a) s = .next t ∧
      AtomicDone s t d a x n (numberAt s x n)
        (p.2 (8 * n) (numberAt s x n) (gprLow (gval s b) (8 * n)) (gprLow (gval s d) (8 * n)))) ∧
  ∀ p ∈ atomicForms, ∀ (s : State) (sz : AmoSz) (aq rl : Bool) (d b a : Reg),
    let x := (gval s a).toNat
    Awake s → (gpr s a).tag = 0 → x % opBytes sz = 0 →
    (placeOf x = .rows ∨ (∃ r, placeOf x = .cold r) ∨ (placeOf x = .device ∧ mode s = modeD)) →
    ∃ t, exec (p.1 sz aq rl d b a) s = .next t ∧ Entered (takeId s) t false 26 (BitVec.ofNat 64 x) s.hart.pc

/-- R179: an admitted `waitw` completes when the word differs from gb, and gd receives it with one new lease ID; it parks when
it is equal; a parked one that is woken reads again and completes on a different word. Outside bonded DRAM it raises cause 26.
It rests on the model's choices of log 16. -/
def Obligations.WaitOnWord : Prop :=
  ∀ (s : State) (sz : AmoSz) (aq : Bool) (d b a : Reg),
    let n := opBytes sz
    let x := (gval s a).toNat
    (checkIssue s .load (baseTag s a) x n n = .ok () → (placeOf x).isDram = false → Awake s →
      ∃ t, exec (.waitw sz aq d b a) s = .next t ∧ Entered (takeId s) t false 26 (BitVec.ofNat 64 x) s.hart.pc) ∧
    (s.hart.phase = .launched → WaitReady s a x n →
    (numberAt s x n ≠ gprLow (gval s b) (8 * n) →
      (∃ t, exec (.waitw sz aq d b a) s = .next t ∧
        Loaded s t 4 d (BitVec.ofInt 64 (toSigned (8 * n) (numberAt s x n))) 0 (loadLease s a)) ∧
      ∀ u : State, u = { s with hart := { s.hart with phase := .parked, wait := .waitw sz aq d b a, stopped := false } } →
        ∃ t, exec (.waitwWake s.hart.cid) u = .next t ∧ gval t d = (if d = 0 then 0 else
            BitVec.ofInt 64 (toSigned (8 * n) (numberAt s x n))) ∧
          t.hart.pc = s.hart.pc + 4 ∧ t.hart.phase = .launched ∧ t.hart.wait = .none) ∧
    (numberAt s x n = gprLow (gval s b) (8 * n) →
      ∃ t, exec (.waitw sz aq d b a) s = .next t ∧ t.hart.phase = .parked ∧ t.hart.wait = .waitw sz aq d b a ∧
        t.hart.pc = s.hart.pc ∧ t.hart.regs = s.hart.regs ∧ SameMemory s t))

/-! ### Branches and jumps (R119, R120, R252, R266) -/

namespace Sys2Proof.Claims

/-- The conditions of R119's branches, on the values of ga and gb. -/
def branchForms : List ((Reg → Reg → BitVec 12 → Instr) × (Word → Word → Bool)) :=
  [(.beq, fun x y => x == y), (.bne, fun x y => x != y), (.blt, fun x y => decide (x.toInt < y.toInt)),
    (.bge, fun x y => decide (y.toInt ≤ x.toInt)), (.bltn, fun x y => decide (x.toNat < y.toNat)),
    (.bgen, fun x y => decide (y.toNat ≤ x.toNat))]

/-- `t` is `s` after a branch or a jump to `target` (not taken: to the next instruction): only the pc has changed, and a taken
one whose target lies at or below its own address takes a pending move stop (R76), with the accounts of the hart's waits brought up
to now (R182). -/
structure Went (s t : State) (taken : Bool) (target next : Word) : Prop where
  pc : t.hart.pc = if taken then target else next
  stop : t.hart.stopped = (s.hart.stopped || (taken && decide (target ≤ s.hart.pc) && s.hart.stopPending))
  pending : t.hart.stopPending = (s.hart.stopPending && !(taken && decide (target ≤ s.hart.pc)))
  rest : t = { s with hart := { s.hart with
    pc := t.hart.pc, stopped := t.hart.stopped, stopPending := t.hart.stopPending, waitNs := t.hart.waitNs
    waitSince := t.hart.waitSince, queue := t.hart.queue, par := t.hart.par } }
  accounts : t.hart.stopPending = s.hart.stopPending → t.hart.waitNs = s.hart.waitNs ∧ t.hart.waitSince = s.hart.waitSince ∧
    t.hart.queue = s.hart.queue ∧ t.hart.par = s.hart.par
  queued : t.hart.queue = s.hart.queue ∨ t.hart.queue = (settled s s.hart).queue
  replicas : t.hart.par = s.hart.par ∨ t.hart.par = (settled s s.hart).par
  memory : SameMemory s t

/-- The target of a branch: PC + sext(off) × 2. -/
def branchTarget {n : Nat} (s : State) (off : BitVec n) : Word := s.hart.pc + off.signExtend 64 * 2

/-- The bits of a mask below `vl`: m0 reads all ones, a mask holds no bit at or above its capacity (R54). -/
def maskBitAt (s : State) (m : Reg3) (i : Nat) : Bool := m == 0 || (decide (i < maskBits s) && (mreg s m).bits.testBit i)

end Sys2Proof.Claims

/-- R119: every branch completes in every state: to its target if the condition on the values holds, else to the next
instruction; nothing else changes but a move stop taken by a backward branch. -/
def Obligations.Branches : Prop :=
  (∀ p ∈ branchForms, ∀ (s : State) (a b : Reg) (off : BitVec 12),
    ∃ t, exec (p.1 a b off) s = .next t ∧
      Went s t (p.2 (gval s a) (gval s b)) (branchTarget s off) (s.hart.pc + 4)) ∧
  ∀ (s : State) (r : Reg3) (off : BitVec 8),
    let a : Reg := BitVec.ofNat 5 (8 + r.toNat)
    (∃ t, exec (.cBeqz r off) s = .next t ∧ Went s t (gval s a == 0) (branchTarget s off) (s.hart.pc + 2)) ∧
    ∃ t, exec (.cBnez r off) s = .next t ∧ Went s t (gval s a != 0) (branchTarget s off) (s.hart.pc + 2)

/-- R252: the mask branches over the bits below `vl`, and R266: `bsend` on a bound register is taken when every chunk has been
delivered; an unbound register raises cause 27 with `tval` 0. -/
def Obligations.MaskBranches : Prop :=
  (∀ (s : State) (m : Reg3) (off : BitVec 12),
    (∀ c : Bool, (c = true ↔ ∃ i, i < s.hart.csr.vl.toNat ∧ maskBitAt s m i = true) →
      (∃ t, exec (.bany m off) s = .next t ∧ Went s t c (branchTarget s off) (s.hart.pc + 4)) ∧
      ∃ t, exec (.bnone m off) s = .next t ∧ Went s t (!c) (branchTarget s off) (s.hart.pc + 4)) ∧
    ∀ c : Bool, (c = true ↔ ∀ i, i < s.hart.csr.vl.toNat → maskBitAt s m i = true) →
      ∃ t, exec (.ball m off) s = .next t ∧ Went s t c (branchTarget s off) (s.hart.pc + 4)) ∧
  ∀ (s : State) (v : Reg) (off : BitVec 12),
    (∀ b, bindingOf s v = some b →
      ∃ t, exec (.bsend v off) s = .next t ∧
        Went s t (b.pos == chunkCount b.record) (branchTarget s off) (s.hart.pc + 4)) ∧
    (bindingOf s v = none → Awake s →
      ∃ t, exec (.bsend v off) s = .next t ∧ Entered s t false 27 0 s.hart.pc)

/-- R120, R102: a jump to an even target links PC + 4 (a compressed one links nothing) and goes there; an odd target raises
cause 7 with the target in `tval` and leaves gd, in the compressed jumps too. -/
def Obligations.Jumps : Prop :=
  (∀ (s : State) (d : Reg) (off : BitVec 20),
    (bit (branchTarget s off) 0 = false →
      ∃ t u, exec (.jal d off) s = .next t ∧ Wrote s u 0 d { val := s.hart.pc + 4, tag := 0, lease := {} } ∧
        Went u t true (branchTarget s off) 0) ∧
    (bit (branchTarget s off) 0 = true → Awake s →
      ∃ t, exec (.jal d off) s = .next t ∧ Entered s t false 7 (branchTarget s off) s.hart.pc)) ∧
  (∀ (s : State) (d a : Reg) (imm : BitVec 12),
    let target := gval s a + imm.signExtend 64
    (bit target 0 = false →
      ∃ t u, exec (.jalr d a imm) s = .next t ∧ Wrote s u 0 d { val := s.hart.pc + 4, tag := 0, lease := {} } ∧
        Went u t true target 0) ∧
    (bit target 0 = true → Awake s →
      ∃ t, exec (.jalr d a imm) s = .next t ∧ Entered s t false 7 target s.hart.pc)) ∧
  (∀ (s : State) (off : BitVec 9), bit (branchTarget s off) 0 = false →
    ∃ t, exec (.cJ off) s = .next t ∧ Went s t true (branchTarget s off) 0) ∧
  (∀ (s : State) (a : Reg), bit (gval s a) 0 = false → ∃ t, exec (.cJr a) s = .next t ∧ Went s t true (gval s a) 0) ∧
  ∀ s : State, Awake s →
    (∀ off : BitVec 9, bit (branchTarget s off) 0 = true →
      ∃ t, exec (.cJ off) s = .next t ∧ Entered s t false 7 (branchTarget s off) s.hart.pc) ∧
    ∀ a : Reg, bit (gval s a) 0 = true →
      ∃ t, exec (.cJr a) s = .next t ∧ Entered s t false 7 (gval s a) s.hart.pc

/-! ### Compressed forms (R102) -/

/-- R102: the compressed arithmetic, load and store forms have the effects of their expansions, and go on two bytes behind
themselves. It rests on the model's choices of log 20 and log 21. -/
def Obligations.CompressedForms : Prop :=
  (∀ (s : State) (d a : Reg) (imm : BitVec 7),
    (∃ t, exec (.cAddi d imm) s = .next t ∧
      Wrote s t 2 d { val := gval s d + imm.signExtend 64, tag := (gpr s d).tag, lease := (gpr s d).lease }) ∧
    (∃ t, exec (.cLi d imm) s = .next t ∧ Wrote s t 2 d { val := imm.signExtend 64, tag := 0, lease := {} }) ∧
    (∃ t, exec (.cMv d a) s = .next t ∧ Wrote s t 2 d (gpr s a)) ∧
    (∃ t, exec (.cAdd d a) s = .next t ∧
      Wrote s t 2 d { val := gval s d + gval s a, tag := tagOfSum (gpr s d).tag (gpr s a).tag
                      lease := bothLeases (gpr s d).lease (gpr s a).lease }) ∧
    (∃ t, exec (.cSub d a) s = .next t ∧
      Wrote s t 2 d { val := gval s d - gval s a, tag := tagOfDifference (gpr s d).tag (gpr s a).tag
                      lease := bothLeases (gpr s d).lease (gpr s a).lease }) ∧
    ∃ t, exec (.cAnd d a) s = .next t ∧
      Wrote s t 2 d { val := gval s d &&& gval s a, tag := tagOfSum (gpr s d).tag (gpr s a).tag
                      lease := bothLeases (gpr s d).lease (gpr s a).lease }) ∧
  ∀ (s : State) (x y : Reg3) (off : BitVec 6),
    let d : Reg := BitVec.ofNat 5 (8 + x.toNat)
    let a : Reg := BitVec.ofNat 5 (8 + y.toNat)
    let at8 := (gval s a + BitVec.ofNat 64 (off.toNat * 8)).toNat
    let at4 := (gval s a + BitVec.ofNat 64 (off.toNat * 4)).toNat
    (Readable s a at8 8 →
      ∃ t, exec (.cLdd x y off) s = .next t ∧ Loaded s t 2 d (loadedValue s at8 8 true) 0 (loadLease s a)) ∧
    (Readable s a at4 4 →
      ∃ t, exec (.cLdw x y off) s = .next t ∧ Loaded s t 2 d (loadedValue s at4 4 false) 0 (loadLease s a)) ∧
    (Storable s a at8 8 (lowBytes (gval s d) 8) →
      ∃ t, exec (.cStd x y off) s = .next t ∧ Stored s t 2 at8 (lowBytes (gval s d) 8))

/-! ### Traps (R347 to R349, R352) -/

namespace Sys2Proof.Claims

/-- What a trap entry leaves alone (R347): registers, masks, windows, lease sets, loops, rows, accumulators, streams, and every
control register but the four that it writes; the barriers too, unless a copy stands in the decoupling queue, which withdraws what it
has counted (R315). No vector instruction is in flight any more (R53), and no later one is under way (R350). -/
structure Undisturbed (s t : State) : Prop where
  vregs : ∀ v, vreg t v = { vreg s v with busy := false }
  csr : t.hart.csr = { s.hart.csr with
    epc := t.hart.csr.epc, cause := t.hart.csr.cause, tval := t.hart.csr.tval, status := t.hart.csr.status
    cpb := t.hart.csr.cpb }
  barriers : (∀ q ∈ s.hart.queue, q.copy = none) → t.hart.csr.cpb = s.hart.csr.cpb
  hart : t.hart = { s.hart with
    phase := t.hart.phase, wait := t.hart.wait, inProgress := none, fed := false, fromZero := false, held := false
    current := none, issued := 0, headed := false, probed := none, offsets := [], wrote := []
    queue := [], front := none, lastSlot := 0, stalled := [], bound := none, retry := none, waitNs := 0, owes12 := none, vregs := t.hart.vregs, pc := t.hart.pc
    regions := t.hart.regions, aside := t.hart.aside, csr := t.hart.csr, owes55 := t.hart.owes55 }

/-- `t` is `s` after a trap entry that leaves the rest of the hart alone. -/
def Trapped (s t : State) (async : Bool) (code : Nat) (tval : Word) : Prop :=
  Entered s t async code tval s.hart.pc ∧ Undisturbed s t

end Sys2Proof.Claims

/-- R347: a trap entry saves the pc, the cause and its value, the mode and aie, closes the handler, sets the open regions
aside, goes to `tvec`, and leaves registers, vector state, masks, loops and lease sets alone. Every synchronous cause is taken
so outside a handler (`raise` is the operation by which instructions take one), among them those of `trap`, of `ecall` and
`eret` in mode U and of a pattern that is no instruction; of the asynchronous ones the pending cause of the highest code. In a
hart that a move has stopped, a cause of what it still finishes is held: it stands with its `tval` for the release, and no
trap is taken (R77). -/
def Obligations.TrapEntry : Prop :=
  ∀ s : State, s.hart.phase ≠ .free →
    (s.hart.stopped = false → bit s.hart.csr.status 0 = false →
      (∀ e : Exc, ∃ t, raise s e = .next t ∧ Trapped s t false e.code e.tval) ∧
      (∃ t, exec .trap s = .next t ∧ Trapped s t false 9 0) ∧
      (mode s = modeU → ∃ t, exec .ecall s = .next t ∧ Trapped s t false 10 0) ∧
      (mode s = modeU → ∃ t, exec .eret s = .next t ∧ Trapped s t false 3 0x58000009) ∧
      ∀ (e : DecodeError) (raw : Word),
        ∃ t, exec (.illegalEncoding e raw) s = .next t ∧ Trapped s t false e.cause raw) ∧
    (s.hart.stopped = true → ∀ e : Exc, ∃ t, raise s e = .next t ∧
      t.hart.heldFault = some { code := e.code, tval := e.tval } ∧ t.hart.pc = s.hart.pc ∧ t.hart.regs = s.hart.regs ∧
      t.hart.aside = s.hart.aside ∧ t.hart.csr.status = s.hart.csr.status ∧ t.hart.stopped = true ∧ t.mem = s.mem) ∧
    (asyncReady s = true →
      ∃ x ∈ pendingOf s s.hart, (∀ y ∈ pendingOf s s.hart, y.code ≤ x.code) ∧
        ∃ t, exec (.trapEntry s.hart.cid) s = .next t ∧ Trapped s t true x.code (if x.code = 55 then 0 else x.tval))

/-- R348: every synchronous cause in a handler, of a hart that no move has stopped, terminates the hart, and the log of its
partition receives an entry with the new cause at its head, or counts an overflow if it is full: said of a hart all of whose
stores have performed, since one that has not performs then and may change any byte. -/
def Obligations.DoubleTrap : Prop :=
  ∀ s : State, s.hart.phase ≠ .free → s.hart.stopped = false → bit s.hart.csr.status 0 = true →
    ∀ out c, ((∃ e : Exc, out = raise s e ∧ c = e.code) ∨ (out = exec .trap s ∧ c = 9) ∨
      (mode s = modeU ∧ (out = exec .ecall s ∧ c = 10 ∨ out = exec .eret s ∧ c = 3)) ∨
      ∃ (e : DecodeError) (raw : Word), out = exec (.illegalEncoding e raw) s ∧ c = e.cause) →
    ∃ t, out = .next t ∧ t.hart.phase = .free ∧
      (∀ m ∈ t.moves, m.manager ≠ s.hart.cid) ∧ (∀ m ∈ t.copies, m.cid ≠ s.hart.cid) ∧
      (∀ m ∈ t.engines, m.cid ≠ s.hart.cid) ∧ (∀ m ∈ t.merges, m.cid ≠ s.hart.cid) ∧
      (∀ m ∈ t.entries, m.cid ≠ s.hart.cid) ∧
      (s.hart.posted = [] →
      let p := part s s.hart.partId
      let q := part t s.hart.partId
      if p.logHead - p.logConsumed = p.logEntries then
        q.logHead = p.logHead ∧ q.logOverflow = p.logOverflow + 1 ∧ t.mem = s.mem
      else
        q.logHead = p.logHead + 1 ∧ q.logOverflow = p.logOverflow ∧
          ∀ x, x = canon (p.logBase.toNat + 32 * (p.logHead.toNat % p.logEntries.toNat)) →
            t.mem.read x = BitVec.ofNat 8 c ∧ t.mem.read (x + 1) = 0 ∧ t.mem.readNat (x + 16) 8 = s.hart.pc.toNat ∧
              ∀ y, (y < x ∨ x + 32 ≤ y) → t.mem.read y = s.mem.read y)

/-- R349: `eret` in mode S or D, at the loop depth of the entry, restores the mode and aie, leaves the handler, opens the
regions set aside again and goes to `epc`, where an instruction that had its stream chunks has them still; at another depth it
raises cause 1 (R256). It rests on the model's choices of log 16. -/
def Obligations.TrapReturn : Prop :=
  ∀ s : State, mode s ≠ modeU →
    ((∀ x ∈ s.hart.aside.head?, x.depth = s.hart.loops.depth) →
      ∃ t, exec .eret s = .next t ∧ mode t = field s.hart.csr.status 3 2 ∧
        bit t.hart.csr.status 1 = bit s.hart.csr.status 2 ∧ bit t.hart.csr.status 0 = false ∧
        field t.hart.csr.status 9 3 = field s.hart.csr.status 9 3 ∧ t.hart.pc = s.hart.csr.epc ∧
        t.hart.regions = (s.hart.aside.head?.map (·.regions)).getD s.hart.regions ∧
        t.hart.aside = s.hart.aside.tail ∧
        t = { s with hart := { s.hart with
          pc := t.hart.pc, regions := t.hart.regions, aside := t.hart.aside, queue := [], front := none, lastSlot := 0
          fed := (s.hart.aside.head?.bind (·.fed)) == some s.hart.csr.epc
          csr := { s.hart.csr with status := t.hart.csr.status } } } ∧
        SameMemory s t) ∧
    ((∃ x ∈ s.hart.aside.head?, x.depth ≠ s.hart.loops.depth) → Awake s →
      ∃ t, exec .eret s = .next t ∧ Trapped s t false 1 0)

/-! ### Control and status registers (R57, R122, R346) -/

namespace Sys2Proof.Claims

/-- R57's table: the first and the last number of a row, the least mode that may read and the least that may write (0 U, 1 S,
2 D, 3 none). -/
def csrRows : List (Nat × Nat × Nat × Nat) :=
  [(0x010, 0x011, 0, 1), (0x012, 0x012, 0, 0), (0x013, 0x013, 0, 1), (0x014, 0x016, 0, 0), (0x018, 0x018, 0, 3),
    (0x019, 0x019, 0, 0), (0x020, 0x020, 0, 1), (0x021, 0x023, 0, 0), (0x030, 0x030, 0, 1), (0x031, 0x031, 0, 3),
    (0x040, 0x04F, 0, 1), (0x050, 0x057, 0, 1), (0x060, 0x09F, 0, 0), (0x0A0, 0x0BF, 0, 1), (0x0C0, 0x0C1, 0, 3),
    (0x0C8, 0x0C9, 0, 3), (0x0D0, 0x0DF, 0, 0), (0x100, 0x105, 1, 1), (0x108, 0x108, 1, 1), (0x110, 0x110, 1, 1),
    (0x200, 0x200, 1, 2), (0x201, 0x201, 2, 2), (0x202, 0x202, 1, 2), (0x210, 0x21F, 1, 2), (0x220, 0x220, 1, 2)]

/-- A CSR that holds a plain value: its number, the least mode that may write it, which values it takes, how it is read and
written. -/
structure PlainCsr where
  num : CsrNum
  write : Nat
  ok : Word → Bool
  get : Csrs → Word
  set : Word → Csrs → Csrs

/-- The CSRs whose write does nothing but store the value. -/
def plainCsrs : List PlainCsr :=
  [⟨0x010, 1, fun _ => true, (·.vl), fun v c => { c with vl := v }⟩,
    ⟨0x011, 1, fun v => v.toNat < 2 ^ 10, fun c => c.vtype.zeroExtend 64, fun v c => { c with vtype := v.truncate 10 }⟩,
    ⟨0x012, 0, fun _ => true, (·.vstart), fun v c => { c with vstart := v }⟩,
    ⟨0x013, 1, fun _ => true, (·.vrestart), fun v c => { c with vrestart := v }⟩,
    ⟨0x014, 0, fun v => v.toNat < 2 ^ 6, fun c => c.vxstat.zeroExtend 64, fun v c => { c with vxstat := v.truncate 6 }⟩,
    ⟨0x015, 0, fun v => v.toNat < 2 ^ 32 && v != 0, fun c => c.rndstate.zeroExtend 64,
      fun v c => { c with rndstate := v.truncate 32 }⟩,
    ⟨0x016, 0, fun v => v.toNat < 2 ^ 7, fun c => c.fstat.zeroExtend 64, fun v c => { c with fstat := v.truncate 8 }⟩,
    ⟨0x019, 0, fun v => v.toNat < 2 ^ 4, fun c => c.mretry.zeroExtend 64, fun v c => { c with mretry := v.truncate 4 }⟩,
    ⟨0x101, 1, fun v => v.toNat < 2 ^ 52 && v.toNat % 4 == 0, (·.tvec), fun v c => { c with tvec := v }⟩,
    ⟨0x102, 1, fun v => v.toNat < 2 ^ 52 && v.toNat % 2 == 0, (·.epc), fun v c => { c with epc := v }⟩,
    ⟨0x103, 1, fun v => v.toNat % 2 ^ 63 < 2 ^ 6, (·.cause), fun v c => { c with cause := v }⟩,
    ⟨0x104, 1, fun _ => true, (·.tval), fun v c => { c with tval := v }⟩,
    ⟨0x105, 1, fun _ => true, (·.scratch), fun v c => { c with scratch := v }⟩,
    ⟨0x108, 1, fun v => v.toNat < 2, fun c => if c.scopepol then 1 else 0, fun v c => { c with scopepol := bit v 0 }⟩]

/-- The three writing instructions, with the value that each stores: from the old value and ga (R122). -/
def csrWriters : List ((CsrNum → Reg → Instr) × (Word → Word → Word)) :=
  [(.csrwr, fun _ x => x), (.csrset, fun o x => o ||| x), (.csrclr, fun o x => o &&& ~~~x)]

/-- No `awmerge` of the hart is under way. -/
abbrev MergesDone (s : State) : Prop := ∀ m ∈ s.merges, m.cid ≠ s.hart.cid

/-- `t` is `s` after a write of a CSR that holds a plain value. -/
def CsrStored (s t : State) (f : Csrs → Csrs) : Prop :=
  t = advance 4 { s with hart := { s.hart with csr := f s.hart.csr } } ∧ SameMemory s t

end Sys2Proof.Claims

/-- R57: a CSR number that is in no row of the table raises cause 5 in every mode, an access that the mode does not have
raises cause 4; `tval` holds the number; no register changes. -/
def Obligations.CsrPermissions : Prop :=
  ∀ (s : State) (csr : CsrNum) (a : Reg), Awake s →
    ((∀ r ∈ csrRows, ¬ (r.1 ≤ csr.toNat ∧ csr.toNat ≤ r.2.1)) →
      (∃ t, exec (.csrrd a csr) s = .next t ∧ Trapped s t false 5 (csr.zeroExtend 64)) ∧
      ∀ p ∈ csrWriters, ∃ t, exec (p.1 csr a) s = .next t ∧ Trapped s t false 5 (csr.zeroExtend 64)) ∧
    ∀ r ∈ csrRows, r.1 ≤ csr.toNat → csr.toNat ≤ r.2.1 →
      (mode s < r.2.2.1 → ∃ t, exec (.csrrd a csr) s = .next t ∧ Trapped s t false 4 (csr.zeroExtend 64)) ∧
      (mode s < r.2.2.2 → mode s < 3 →
        ∀ p ∈ csrWriters, ∃ t, exec (p.1 csr a) s = .next t ∧ Trapped s t false 4 (csr.zeroExtend 64))

/-- R122: `csrrd` of a register that the mode may read completes (of `vxstat` once the hart's merges have, R60, R191): gd
holds the register's value, untagged, with an empty lease set, and nothing else changes; the registers that hold plain values
read as last written. -/
def Obligations.CsrReads : Prop :=
  ∀ (s : State) (csr : CsrNum) (d : Reg),
    (∀ r ∈ csrRows, r.1 ≤ csr.toNat → csr.toNat ≤ r.2.1 → r.2.2.1 ≤ mode s →
      (csr ≠ 0x014 ∨ MergesDone s →
        ∃ t, exec (.csrrd d csr) s = .next t ∧ Wrote s t 4 d { val := csrValue s csr.toNat, tag := 0, lease := {} }) ∧
      (csr = 0x014 → ¬ MergesDone s → exec (.csrrd d csr) s = .next s)) ∧
    (∀ r ∈ plainCsrs, csrValue s r.num.toNat = r.get s.hart.csr ∧
      ∀ v, r.ok v = true → r.get (r.set v s.hart.csr) = v) ∧
    (∀ i : Fin 16, csrValue s (0x040 + i) = s.hart.csr.wm[i]) ∧ (∀ i : Fin 8, csrValue s (0x050 + i) = s.hart.csr.cpb[i]) ∧
    (∀ v : Reg, csrValue s (0x060 + v.toNat) = (vreg s v).win.base.zeroExtend 64 ∧
      csrValue s (0x080 + v.toNat) = (vreg s v).win.len.zeroExtend 64) ∧
    (∀ k : Reg3, csrValue s (0x0D0 + k.toNat) = (kreg s k).win.base.zeroExtend 64 ∧
      csrValue s (0x0D8 + k.toNat) = (kreg s k).win.len.zeroExtend 64) ∧
    csrValue s 0x018 = BitVec.ofNat 64 s.hart.grant ∧ csrValue s 0x030 = s.hart.csr.slotbase ∧
    csrValue s 0x100 = s.hart.csr.status.zeroExtend 64 ∧ csrValue s 0x0C8 = BitVec.ofNat 64 s.cycle ∧
    csrValue s 0x202 = (slotCfg s s.hart.slot).rowrange ∧ csrValue s 0x220 = (slotCfg s s.hart.slot).part

/-- R122 with R57: `csrwr`, `csrset` and `csrclr` in a mode that may write complete with the value of ga, with its bits set in
the old value, with its bits cleared; a value that the register rejects raises cause 4 and changes no register. (An access of
`vxstat` waits for the hart's merges, R60.) A write of `status` does not change the mode (R346). -/
def Obligations.CsrWrites : Prop :=
  (∀ p ∈ csrWriters, ∀ r ∈ plainCsrs, ∀ (s : State) (a : Reg), r.write ≤ mode s → (r.num = 0x014 → MergesDone s) →
    let v := p.2 (r.get s.hart.csr) (gval s a)
    (r.ok v = true → ∃ t, exec (p.1 r.num a) s = .next t ∧ CsrStored s t (r.set v)) ∧
    (r.ok v = false → Awake s →
      ∃ t, exec (p.1 r.num a) s = .next t ∧ Trapped s t false 4 (r.num.zeroExtend 64))) ∧
  ∀ p ∈ csrWriters, ∀ (s : State) (a : Reg), 1 ≤ mode s →
    let v := p.2 (s.hart.csr.status.zeroExtend 64) (gval s a)
    (v.toNat < 2 ^ 12 → field v 7 2 = 0 → field v 3 2 < 3 → (field v 3 2 = 2 → mode s ≠ modeS) →
      ∃ t st, exec (p.1 0x100 a) s = .next t ∧ CsrStored s t (fun c => { c with status := st }) ∧
        field st 5 2 = mode s ∧ field st 0 5 = field v 0 5 ∧ field st 7 5 = field v 7 5) ∧
    ((2 ^ 12 ≤ v.toNat ∨ field v 7 2 ≠ 0 ∨ field v 3 2 = 3 ∨ (field v 3 2 = 2 ∧ mode s = modeS)) → Awake s →
      ∃ t, exec (p.1 0x100 a) s = .next t ∧ Trapped s t false 4 0x100)

namespace Sys2Proof.Claims

/-- A write of a CSR that does more than store a plain value: the event, its number, the least mode, which values it takes,
and the state that it leaves. -/
structure CsrEvent where
  event : Word → Instr
  num : Nat
  write : Nat
  ok : State → Word → Bool
  after : State → Word → State

/-- The loop registers at depth 0 are written at once, at a depth from the next back-edge on (R255). -/
def loopWritten (r : LoopReg) (s : State) (v : Word) : State :=
  let l := s.hart.loops
  let l' : Loops :=
    match r, l.depth with
    | .lpstart, 0 => { l with cur := { l.cur with lpstart := v } }
    | .lpend, 0 => { l with cur := { l.cur with lpend := v } }
    | .lpcount, 0 => { l with cur := { l.cur with lpcount := v } }
    | .lpstart, _ => { l with pendStart := some v }
    | .lpend, _ => { l with pendEnd := some v }
    | .lpcount, _ => { l with pendCount := some v }
  { s with hart := { s.hart with loops := l' } }

/-- A binding of `wm` is 0 or names an object of the hart's partition, in the form of R194. -/
def wmOk (s : State) (v : Word) : Bool :=
  v == 0 || (bit v 0 && field v 1 3 == 0 && field v 20 28 == 0 &&
    ((s.marks.find? (markKey v.toNat)).map (·.owner) == some s.hart.partId))

/-- The rows of R57's table that a program writes with such an effect. -/
noncomputable def csrEvents : List CsrEvent :=
  [⟨.vlCsrWrite, 0x010, 1, fun _ _ => true, fun s v => setCsrs s fun c => { c with vl := v }⟩,
    ⟨.vstartWrite, 0x012, 0, fun _ _ => true, fun s v => setCsrs s fun c => { c with vstart := v }⟩,
    ⟨.stripWrite, 0x020, 1, fun _ _ => true, fun s v =>
      { s with hart := { s.hart with loops := { s.hart.loops with cur := { s.hart.loops.cur with strip := v } } } }⟩,
    ⟨.loopRegisterWrite .lpcount, 0x023, 0, fun _ _ => true, loopWritten .lpcount⟩,
    ⟨.slotbaseWrite, 0x030, 1, fun _ v => v.toNat < 2 ^ 52 && v.toNat % 32 == 0, fun s v =>
      { s with hart := { s.hart with
        csr := { s.hart.csr with slotbase := v }, genCache := [], stopPending := false
        stopped := s.hart.stopped ||
          s.moves.any fun m => s.hart.phase.live && v == m.table && (m.everyPart || s.hart.partId == m.partId) } }⟩,
    ⟨.notifybmWrite, 0x110, 1,
      fun _ v => v.toNat % 4096 == 0 && (placeOf v.toNat).isDram && placeOf (v.toNat + 0x2063F) == placeOf v.toNat,
      fun s v => setPart s s.hart.partId { part s s.hart.partId with notifybm := v, eventHart := some s.hart.cid }⟩] ++
  (List.ofFn fun n : Fin 16 => ⟨.wmCsrWrite (BitVec.ofFin n), 0x040 + n, 1, wmOk,
    fun s v => setCsrs s fun c => { c with wm := c.wm.set n v }⟩) ++
  (List.ofFn fun n : Fin 8 => ⟨.cpbCsrWrite (BitVec.ofFin n), 0x050 + n, 1,
    fun _ v => field v 48 2 == 0 && field v 56 7 == 0, fun s v => setCsrs s fun c => { c with cpb := c.cpb.set n v }⟩) ++
  (List.ofFn fun n : Fin 32 => ⟨.registerWrite (.csr (0x060 + BitVec.ofNat 12 n)), 0x060 + n, 0,
    fun _ v => v.toNat < 2 ^ 11, fun s v =>
      let r : Reg := BitVec.ofFin n
      setVreg s r { vreg s r with win := { (vreg s r).win with base := v.truncate 11 } }⟩) ++
  (List.ofFn fun n : Fin 32 => ⟨.registerWrite (.csr (0x080 + BitVec.ofNat 12 n)), 0x080 + n, 0,
    fun _ v => v.toNat ≤ 2048, fun s v =>
      let r : Reg := BitVec.ofFin n
      setVreg s r { vreg s r with win := { (vreg s r).win with len := v.truncate 12 } }⟩) ++
  (List.ofFn fun n : Fin 8 => ⟨.registerWrite (.csr (0x0D0 + BitVec.ofNat 12 n)), 0x0D0 + n, 0,
    fun _ v => v.toNat < 2 ^ 11, fun s v =>
      let r : Reg3 := BitVec.ofFin n
      setKreg s r { kreg s r with win := { (kreg s r).win with base := v.truncate 11 } }⟩) ++
  List.ofFn fun n : Fin 8 => ⟨.registerWrite (.csr (0x0D8 + BitVec.ofNat 12 n)), 0x0D8 + n, 0,
    fun _ v => v.toNat ≤ 2048, fun s v =>
      let r : Reg3 := BitVec.ofFin n
      setKreg s r { kreg s r with win := { (kreg s r).win with len := v.truncate 12 } }⟩

end Sys2Proof.Claims

/-- R50, R55, R57 to R61, R76, R194, R255, R316, R332: a write of a CSR with an effect of its own, as an event, as the write
of its number and by `csrwr`, completes in a mode that may write for a value that the register takes (a write of `slotbase`
once the hart's vector side is quiet), and leaves exactly the state of the table. `lpstart` and `lpend` are written so outside
the replicas of a parallel loop, and raise cause 1 in one, at every depth (R257). -/
def Obligations.CsrWriteEvents : Prop :=
  (∀ r ∈ csrEvents, ∀ (s : State) (v : Word), s.hart.phase ≠ .free → r.write ≤ mode s →
    (r.num = 0x030 → vectorQuiet s = true) →
    (r.ok s v = true →
      exec (r.event v) s = .next (r.after s v) ∧
      exec (.registerWrite (.csr (BitVec.ofNat 12 r.num)) v) s = .next (r.after s v) ∧
      ∀ a, gval s a = v → exec (.csrwr (BitVec.ofNat 12 r.num) a) s = .next (advance 4 (r.after s v))) ∧
    (r.ok s v = false → Awake s →
      ∃ t, exec (r.event v) s = .next t ∧ Trapped s t false 4 (BitVec.ofNat 64 r.num))) ∧
  ∀ r : LoopReg, r ≠ .lpcount → ∀ (s : State) (v : Word),
    (s.hart.par = none → s.hart.phase ≠ .free →
      exec (.loopRegisterWrite r v) s = .next (loopWritten r s v)) ∧
    (s.hart.par ≠ none → Awake s →
      ∃ t, exec (.loopRegisterWrite r v) s = .next t ∧ Trapped s t false 1 0)

namespace Sys2Proof.Claims

/-- The hart slots of a front end. -/
def slotsAt (fe : Nat) : List Nat := (List.range 4).map (4 * fe + ·)

end Sys2Proof.Claims

/-- R23, R25, R40, R73, R336: configuration writes to a slot or a front end that are accepted complete with the register
holding the value (a beat map from the next frame boundary on: after the frame's last beat, or, which is an event of the
model, log 23, once no beat that is left of the frame has an issuer); bytes of a scratchpad that another partition held last
are cleared (R63: that hardware notes the last holder of each 4 KiB is the model's choice, log 26); a rejected one from a
program in mode D raises cause 4. -/
def Obligations.ConfigurationWrites : Prop :=
  (∀ (s : State) (fe : Nat) (v : Word), harnessOk s fe v = true →
    ∃ t, exec (.harnessWrite fe v) s = .next t ∧ (frontEnd t fe).harness = v ∧ t.slots = s.slots ∧
      ∀ f, f ≠ fe → frontEnd t f = frontEnd s f) ∧
  (∀ (s : State) (fe : Nat) (v : Word),
    (∀ b < 16, field v (4 * b) 4 ≠ 13 ∧ field v (4 * b) 4 ≠ 14) →
    (∀ x ∈ slotsAt fe, field (slotCfg s x).part 0 4 = 15 ∨ ∃ b < 16, field v (4 * b) 4 = field (slotCfg s x).part 0 4) →
    ∃ t, exec (.beatmapWrite fe v) s = .next t ∧
      t = setFrontEnd s fe { frontEnd s fe with beatPending := some v } ∧
      ∃ u, exec (.frameBoundary fe) t = .next u ∧
        ((∀ b, (frontEnd s fe).beat ≤ b → b < 16 → readyHarts t fe (field (frontEnd s fe).beatmap (4 * b) 4) = []) →
          (frontEnd s fe).beat < 16 →
          u = setFrontEnd t fe { frontEnd s fe with
            beat := 0, beatmap := v, beatPending := none, lastIssued := (frontEnd u fe).lastIssued }) ∧
        ((∃ b, (frontEnd s fe).beat ≤ b ∧ b < 16 ∧ readyHarts t fe (field (frontEnd s fe).beatmap (4 * b) 4) ≠ []) →
          u = t)) ∧
  (∀ (s : State) (fe : Nat), (frontEnd s fe).beat = 15 →
    ∃ t, exec (.issueBeat fe) s = .next t ∧ (frontEnd t fe).beat = 0 ∧ (frontEnd t fe).beatPending = none ∧
      (frontEnd t fe).beatmap = (frontEnd s fe).beatPending.getD (frontEnd s fe).beatmap) ∧
  (∀ (s : State) (slot : Nat) (v : Word), slotLive s slot = false → v.toNat < 2 ^ 28 → field v 11 5 = 0 →
    0 < field v 16 12 → field v 0 11 + field v 16 12 ≤ 2048 →
    (∀ x ∈ slotsAt (slot / 4), x ≠ slot →
      field v 0 11 + field v 16 12 ≤ field (slotCfg s x).rowrange 0 11 ∨
        field (slotCfg s x).rowrange 0 11 + field (slotCfg s x).rowrange 16 12 ≤ field v 0 11) →
    exec (.rowrangeWrite slot v) s = .next (setSlotCfg s slot { slotCfg s slot with rowrange := v })) ∧
  (∀ (s : State) (slot : Nat) (v : Word), slotLive s slot = false → v.toNat < 2 ^ 56 → field v 4 22 = 0 →
    field v 0 4 ≠ 13 → field v 0 4 ≠ 14 → spBase v + spLen v ≤ 0x100000 → sdBase v + sdLen v ≤ 0x10000 →
    ∃ t, exec (.partWrite slot v) s = .next t ∧ slotCfg t slot = { slotCfg s slot with part := v, held := false } ∧
      (∀ x, x ≠ slot → slotCfg t x = slotCfg s x) ∧
      (field v 0 4 = 15 → t.fes = s.fes) ∧
      (field v 0 4 ≠ 15 → ∀ k a, spBase v ≤ a → a < spBase v + spLen v →
        (frontEnd t (slot / 4)).scratch.read (k * 0x100000 + a) =
          if ownerOf (frontEnd s (slot / 4)).scratchOwner (a / 4096) = field v 0 4 then
            (frontEnd s (slot / 4)).scratch.read (k * 0x100000 + a)
          else 0)) ∧
  (∀ (s : State) (slot : Nat) (i : BitVec 4) (v : Word), slotLive s slot = false → v.toNat < 2 ^ 52 → field v 6 1 = 0 →
    field v 10 2 = 0 → (field v 0 6 = 0 ∨ 12 ≤ field v 0 6 ∧ field v 0 6 ≤ 52 ∧ v.toNat / 4096 * 4096 % 2 ^ field v 0 6 = 0) →
    ∃ t, exec (.selvedgeWrite slot i v) s = .next t ∧ (slotCfg t slot).selvedge.toList.getD i.toNat 0 = v ∧
      (∀ j : BitVec 4, j ≠ i → (slotCfg t slot).selvedge.toList.getD j.toNat 0 = (slotCfg s slot).selvedge.toList.getD j.toNat 0) ∧
      ∀ x, x ≠ slot → slotCfg t x = slotCfg s x) ∧
  ∀ (s : State) (slot : Nat) (i : BitVec 4) (v : Word), slotLive s slot = true → s.hart.phase = .launched → mode s = modeD →
    Awake s →
    (∃ t, exec (.rowrangeWrite slot v) s = .next t ∧ Trapped s t false 4 0x202) ∧
    (∃ t, exec (.partWrite slot v) s = .next t ∧ Trapped s t false 4 0x220) ∧
    ∃ t, exec (.selvedgeWrite slot i v) s = .next t ∧ Trapped s t false 4 (BitVec.ofNat 64 (0x210 + i.toNat))

/-! ### Fences, yields, safe points, exits, service calls (R37, R38, R111, R123 to R126, R387) -/

namespace Sys2Proof.Claims

/-- The fences of R123 between two agents: whether the accesses before it are the vector ones, and whether those behind it are. -/
def fenceForms : List ((FenceScope → Instr) × Bool × Bool) :=
  [(.fenceSv, false, true), (.fenceVs, true, false), (.fenceVv, true, true)]

/-- Scalar accesses that have issued and that a fence of a scope orders have not performed: at hart scope there are none, since both
agents of the hart see them already, and below system scope those to bonded DRAM count (R123, R136). -/
def ScalarUnderWay (s : State) (scope : FenceScope) : Prop :=
  ∃ p ∈ ownPosted s, p.vec = false ∧ scope ≠ .hart ∧ (scope = .system ∨ (placeOf p.addr).isDram = true)

/-- Vector accesses that have issued have not performed: stores, copies, merges, `swpout` commands (R147, R281). -/
def VectorUnderWay (s : State) : Prop :=
  (∃ p ∈ ownPosted s, p.vec = true) ∨ (∃ c ∈ s.copies, c.cid = s.hart.cid ∧ c.seq ≤ s.nextId) ∨
    (∃ m ∈ s.merges, m.cid = s.hart.cid ∧ m.seq ≤ s.nextId) ∨
    ∃ e ∈ s.engines, e.cid = s.hart.cid ∧ e.kind = .swpout ∧ e.seq ≤ s.nextId

/-- `t` is `s` behind a fence: it holds back the later accesses of one agent while earlier ones of one agent are under way, and changes
nothing else; clamped at system scope, `status` says so (R136). -/
structure Fenced (s t : State) (scope : FenceScope) (fromVector toVector : Bool) : Prop where
  vector : vectorFenced t = true ↔ vectorFenced s = true ∨
    toVector = true ∧ if fromVector then VectorUnderWay s else ScalarUnderWay s scope
  scalar : scalarFenced t = true ↔ scalarFenced s = true ∨
    toVector = false ∧ if fromVector then VectorUnderWay s else ScalarUnderWay s scope
  stores : t.hart.posted.map (fun p => (p.addr, p.data)) = s.hart.posted.map fun p => (p.addr, p.data)
  rest : t = advance 4 { s with hart := { s.hart with
    posted := t.hart.posted, vecFences := t.hart.vecFences
    csr := if scope = .system ∧ scopeLimited s = true then { s.hart.csr with status := s.hart.csr.status ||| 0x200 }
      else s.hart.csr } }
  memory : SameMemory s t

/-- `t` is `s` after a `flushi`: the front ends of the hart and of its partition's slots (slot 0, which the fuses assign, among them) fetch memory as it is now; no other front
end, no byte of memory and nothing else but the pc has changed. -/
structure Flushed (s t : State) : Prop where
  lines : ∀ fe, (fe = feOf s.hart.slot ∨
      ∃ x ∈ 0 :: s.slots.map (·.1), field (slotCfg s x).part 0 4 = s.hart.partId ∧ feOf x = fe) →
    frontEnd t fe = { frontEnd s fe with imem := s.mem }
  others : ∀ fe, fe ≠ feOf s.hart.slot →
    (∀ x ∈ 0 :: s.slots.map (·.1), field (slotCfg s x).part 0 4 = s.hart.partId → feOf x ≠ fe) →
    frontEnd t fe = frontEnd s fe
  rest : t = advance 4 { s with fes := t.fes }
  memory : SameMemory s t

end Sys2Proof.Claims

/-- R111, R123, R125: `yield` resets the age and marks the hart as passed over, `safept` takes a pending move stop and is
otherwise without effect; a fence between two agents goes on, and holds the accesses of its second set back from then on while
one of its first set is under way, and no others; `fence.all` goes on once every earlier access at its scope has performed
(both are clamped at system scope, or raise cause 50 under the trap policy); `flushi` makes every store visible to the fetches
of its partition once they have performed; nothing else changes. A `fence.all` or `flushi` that has to wait leaves the state
as it is. -/
def Obligations.FencesAndYields : Prop :=
  ∀ s : State,
    (∀ p ∈ [(Instr.yield, 4), (Instr.cYield, 2)], ∃ t, exec p.1 s = .next t ∧
      t = advance p.2 { s with hart := { s.hart with age := 0, yielded := true } } ∧ SameMemory s t) ∧
    (∀ p ∈ [(Instr.safept, 4), (Instr.cSafept, 2)], ∃ t, exec p.1 s = .next t ∧ SameMemory s t ∧
      t = advance p.2 { s with hart := { s.hart with
        stopped := s.hart.stopped || s.hart.stopPending, stopPending := false, waitNs := t.hart.waitNs
        waitSince := t.hart.waitSince, queue := t.hart.queue, par := t.hart.par } } ∧
      (s.hart.stopPending = false → t.hart.waitNs = s.hart.waitNs ∧ t.hart.waitSince = s.hart.waitSince) ∧
      (t.hart.queue = s.hart.queue ∨ t.hart.queue = (settled s s.hart).queue) ∧
      (t.hart.par = s.hart.par ∨ t.hart.par = (settled s s.hart).par)) ∧
    (∀ p ∈ fenceForms, ∀ scope : FenceScope,
      (scope ≠ .system ∨ scopeLimited s = false ∨ s.hart.csr.scopepol = false →
        ∃ t, exec (p.1 scope) s = .next t ∧ Fenced s t scope p.2.1 p.2.2) ∧
      (scope = .system → scopeLimited s = true → s.hart.csr.scopepol = true → Awake s →
        ∃ t, exec (p.1 scope) s = .next t ∧ Trapped s t false 50 0)) ∧
    (∀ i, (vectorFenced s = true ∧ vectorSide s i = true ∨ scalarFenced s = true ∧ scalarAccess i = true) →
      beforeExec s i ≠ none) ∧
    (∀ scope : FenceScope,
      (¬ ScalarUnderWay s scope → vectorQuiet s = true →
        ((scope ≠ .system ∨ scopeLimited s = false) → ∃ t, exec (.fenceAll scope) s = .next t ∧ Moved s t 4) ∧
        (scope = .system → scopeLimited s = true →
          (s.hart.csr.scopepol = false → ∃ t, exec (.fenceAll scope) s = .next t ∧
            CsrStored s t fun c => { c with status := c.status ||| 0x200 }) ∧
          (s.hart.csr.scopepol = true → Awake s → ∃ t, exec (.fenceAll scope) s = .next t ∧ Trapped s t false 50 0))) ∧
      (ScalarUnderWay s scope ∨ vectorQuiet s = false → exec (.fenceAll scope) s = .next s)) ∧
    (quiet s = true → ∃ t, exec .flushi s = .next t ∧ Flushed s t) ∧
    (quiet s = false → exec .flushi s = .next s)

namespace Sys2Proof.Claims

/-- What `exit` waits for (R37): the hart's accesses, copies and commands have performed and its replies have drained. -/
def ExitFree (s : State) : Prop := quiet s = true ∧ s.hart.replies = []

/-- A context of the retirement set of the current hart's gang. -/
abbrev WithMe (s : State) (h : Hart) : Prop := h.gangStack = s.hart.gangStack ∧ h.homeGang = s.hart.homeGang

/-- The context of a hart whose `exit` has begun: it holds no accumulator rows, and no binding unless a merge of it is under way. -/
def exitBegun (s : State) : Hart :=
  { s.hart with
    phase := .exiting, regions := [], aside := [], due := false, grant := 0, acc := [], accPoison := [], accLease := {}
    csr := { s.hart.csr with
      wm := if s.merges.any (·.cid == s.hart.cid) then s.hart.csr.wm else Vector.replicate 16 0 } }

/-- `t` is `s` after the completion of the current hart's exit: while another member of the retirement set lives, its context
waits for retirement, without grant and bindings; after the last it is gone with all of them. -/
structure ExitDone (s t : State) : Prop where
  waits : (∃ h ∈ s.others ++ s.saved, h.phase.live = true ∧ WithMe s h) →
    t.hart.phase = .exited ∧ t.hart.cid = s.hart.cid ∧ t.hart.grant = 0 ∧ t.hart.acc = [] ∧
      t.hart.csr.wm = Vector.replicate 16 0
  last : (∀ h ∈ s.others ++ s.saved, h.phase.live = true → ¬ WithMe s h) →
    t.hart.phase = .free ∧ ∀ h ∈ t.others ++ t.saved, h.phase ≠ .free → ¬ WithMe s h
  memory : t.mem = s.mem ∧ t.fes = s.fes ∧ t.parts = s.parts ∧ t.slots = s.slots

end Sys2Proof.Claims

/-- R37, R38 and R126: `exit` completes at once when nothing of the hart is outstanding, and otherwise begins, giving up its
accumulator rows and its bindings, and completes later; in a replica of a parallel loop and with an open move it raises cause
1, with an open accumulation window cause 45. It rests on the model's choices of log 15. -/
def Obligations.ExitAndRetirement : Prop :=
  ∀ s : State, s.hart.phase = .launched →
    (∀ i ∈ [Instr.exit, Instr.cExit],
      (s.hart.par = none → (∀ m ∈ s.moves, m.manager ≠ s.hart.cid) →
        (s.hart.accWin = none →
          (ExitFree s → ∃ t, exec i s = .next t ∧ ExitDone s t) ∧
          (¬ ExitFree s → ∃ t, exec i s = .next t ∧ t.hart.phase = .exiting ∧ SameMemory s t ∧
            t = { s with hart := exitBegun s })) ∧
        (s.hart.accWin ≠ none → Awake s → ∃ t, exec i s = .next t ∧ Trapped s t false 45 0)) ∧
      ((s.hart.par ≠ none ∨ ∃ m ∈ s.moves, m.manager = s.hart.cid) → Awake s →
        ∃ t, exec i s = .next t ∧ Trapped s t false 1 0)) ∧
    ∀ u : State, u = { s with hart := exitBegun s } → ExitFree s →
      ∃ t, exec (.exitComplete s.hart.cid) u = .next t ∧ ExitDone s t

namespace Sys2Proof.Claims

/-- `t` is `s` after a service call's reply: g10 to g13 hold its values, untagged, with empty lease sets. -/
structure Replied (s t : State) (r : Vector Word 4) : Prop where
  values : ∀ i : Fin 4, gpr t (BitVec.ofNat 5 (10 + i)) = { val := r[i], tag := 0, lease := {} }
  regs : ∀ r : Reg, (r.toNat < 10 ∨ 13 < r.toNat) → gpr t r = gpr s r
  pc : t.hart.pc = s.hart.pc + 4
  csr : t.hart.csr = s.hart.csr
  memory : SameMemory s t

/-- The functions of R387's table. -/
def serviceFns : List Nat := [0, 1, 2, 16, 17, 18, 32, 33, 34, 48]

/-- The status with which a call is turned away at once (R387), with its condition; the first row that holds decides. -/
def refusals (s : State) : List (Nat × Bool) :=
  let w := gval s 11
  let bank := if s.svc.activeB then s.svc.bankB else s.svc.bankA
  [(255, field w 32 32 != 0), (53, field w 0 16 != 0 && field w 16 16 != bank.abi), (255, !serviceFns.contains (field w 0 16)),
    (52, 256 ≤ (s.svc.calls.filter (·.partId == s.hart.partId)).length)]

end Sys2Proof.Claims

/-- R124 and R387: in mode S or D an `ecall` whose hart is quiet is turned away at once with a status in g10, or accepted: the
call joins the queue with its token, function and arguments, and the hart parks; its reply, when it arrives, is written to g10
to g13 and the hart goes on. -/
def Obligations.ServiceCalls : Prop :=
  ∀ s : State, mode s ≠ modeU → quiet s = true → s.hart.phase = .launched →
    (s.svc.recovery = false →
      (∀ r, (refusals s).find? (·.2) = some r →
        ∃ t, exec .ecall s = .next t ∧ Replied s t #v[BitVec.ofNat 64 r.1, 0, 0, 0]) ∧
      ((refusals s).find? (·.2) = none →
        ∃ t c, exec .ecall s = .next t ∧ t.svc.calls = s.svc.calls ++ [c] ∧ c.cid = s.hart.cid ∧
          c.partId = s.hart.partId ∧ c.token = gval s 10 ∧ c.fn = field (gval s 11) 0 16 ∧
          c.abi = (if s.svc.activeB then s.svc.bankB else s.svc.bankA).abi ∧ c.faulted = false ∧
          c.args = #v[gval s 12, gval s 13, gval s 14, gval s 15, gval s 16, gval s 17] ∧
          t.hart.call = some c.seq ∧ t.hart.reply = none ∧ t.hart.phase = .parked ∧ t.hart.wait = .ecall ∧
          t.hart.pc = s.hart.pc ∧ t.hart.regs = s.hart.regs ∧ SameMemory s t)) ∧
    ∀ (r : Vector Word 4) (u : State),
      u = { s with hart := { s.hart with phase := .parked, wait := .ecall, stopped := false, reply := some r } } →
      ∃ t, exec (.ecallReply s.hart.cid) u = .next t ∧ Replied s t r ∧ t.hart.phase = .launched ∧ t.hart.wait = .none ∧
        t.hart.call = none ∧ t.hart.reply = none

/-! ### Slots, leases, moves (R69, R75 to R79, R109, R110) -/

namespace Sys2Proof.Claims

/-- A slot number that names a record. -/
abbrev NamesRecord (n : BitVec 8) : Prop := n ≠ 0 ∧ n ≠ 255

/-- The record of 32 bytes at `x` may be read: R72's checks 5 and 6 pass, it is not watched (R353), it lies outside the hart's own
window (R190), the far side answers, nothing earlier overlaps it and nothing of it is poisoned (R69). -/
structure RecordRead (s : State) (x : Nat) : Prop where
  checks : checkPlain s .load x 32 = .ok ()
  far : farError s .load x = none
  clean : firstPoisoned s x 32 = none
  ready : mustWait s false x 32 = false
  unwatched : checkWatch s .load x 32 = .ok ()
  outside : checkWindow s x 32 = .ok ()

/-- The reserved bits of the record at `x`, those of its flags and its bytes +24 to +31, are zero (R68). -/
abbrev ReservedClear (s : State) (x : Nat) : Prop := numberAt s (x + 16) 4 < 4 ∧ numberAt s (x + 24) 8 = 0

/-- The record may be read, and is well formed. -/
abbrev RecordReadable (s : State) (x : Nat) : Prop := RecordRead s x ∧ ReservedClear s x

/-- The fields of the record at `x` (R68). -/
def recordAt (s : State) (x : Nat) : Record :=
  { base := numberAt s x 8, size := numberAt s (x + 8) 8, ro := numberAt s (x + 16) 4 / 2 % 2 = 1
    isVoid := numberAt s (x + 16) 4 % 2 = 1, gen := BitVec.ofNat 32 (numberAt s (x + 20) 4) }

/-- The address of record `n` of the table at `w`. -/
def slotAddr (w : Word) (n : BitVec 8) : Nat := (w + BitVec.ofNat 64 (32 * n.toNat)).toNat

end Sys2Proof.Claims

/-- R69: `lslot` writes the base of record n with tag n and an empty lease set, and caches the record's generation; n 0 or 255
raises cause 1, and so does a record with a reserved bit set (R8, R68; in which order the causes of a record come is log 45).
R109, R110: `ltag` reads a tag; `lclr`, `ljoin` and `vlclr` change lease sets alone. -/
def Obligations.SlotsAndLeases : Prop :=
  (∀ (s : State) (d : Reg) (n : BitVec 8),
    (NamesRecord n → RecordReadable s (slotAddr s.hart.csr.slotbase n) →
      ∃ t u, exec (.lslot d n) s = .next t ∧ SameMemory s t ∧
        u = { s with hart := { s.hart with
          genCache := s.hart.genCache.set n.toNat (recordAt s (slotAddr s.hart.csr.slotbase n)).gen } } ∧
        Wrote u t 4 d
          { val := BitVec.ofNat 64 (recordAt s (slotAddr s.hart.csr.slotbase n)).base, tag := n, lease := {} }) ∧
    (NamesRecord n → RecordRead s (slotAddr s.hart.csr.slotbase n) → ¬ ReservedClear s (slotAddr s.hart.csr.slotbase n) → Awake s →
      ∃ t, exec (.lslot d n) s = .next t ∧ Trapped s t false 1 0) ∧
    (¬ NamesRecord n → Awake s → ∃ t, exec (.lslot d n) s = .next t ∧ Trapped s t false 1 (instrBits (.lslot d n)))) ∧
  (∀ (s : State) (d a : Reg),
    (∃ t, exec (.ltag d a) s = .next t ∧
      Wrote s t 4 d { val := (gpr s a).tag.zeroExtend 64, tag := 0, lease := (gpr s a).lease }) ∧
    (∃ t, exec (.lclr d) s = .next t ∧ Wrote s t 4 d { gpr s d with lease := {} }) ∧
    ∃ t, exec (.ljoin d a) s = .next t ∧
      Wrote s t 4 d { gpr s d with lease := bothLeases (gpr s d).lease (gpr s a).lease }) ∧
  ∀ (s : State) (v : Reg),
    ∃ t, exec (.vlclr v) s = .next t ∧ vreg t v = { vreg s v with lease := {} } ∧
      (∀ w, w ≠ v → vreg t w = vreg s w) ∧ SameMemory s t ∧
      t = advance 4 { s with hart := { s.hart with vregs := t.hart.vregs } }

namespace Sys2Proof.Claims

/-- A live context whose slot table is `table`, of the manager's partition, or of any in mode D (R75, R76). -/
abbrev OnTable (s : State) (table : Word) (h : Hart) : Prop :=
  h.phase.live = true ∧ h.csr.slotbase = table ∧ (mode s = modeD ∨ h.partId = s.hart.partId)

/-- How many contexts a move of the table stops: those on it that are not on their way out. -/
def movedCount (s : State) (table : Word) : Nat :=
  ((contexts s).filter fun h => h.phase.live && h.csr.slotbase == table &&
    (mode s == modeD || h.partId == s.hart.partId) && h.phase != .exiting).length

/-- The record of slot `n` of the table at ga may be read through ga (R72), in a table aligned to 32 bytes. -/
structure TableReadable (s : State) (a : Reg) (n : BitVec 8) : Prop where
  slot : checkSlot s .load (gpr s a).tag (slotAddr (gval s a) n) 32 = .ok ()
  aligned : (gval s a).toNat % 32 = 0
  record : RecordReadable s (slotAddr (gval s a) n)

/-- Nothing of R79 turns a new move of slot `n` of the table at ga away or makes it wait. -/
structure MoveFree (s : State) (a : Reg) (n : BitVec 8) : Prop where
  own : ∀ m ∈ s.moves, m.manager ≠ s.hart.cid ∧ m.table ≠ gval s a
  elsewhere : s.hart.csr.slotbase ≠ gval s a
  loads : ∀ c ∈ s.svc.calls, ¬ (c.fn = 1 ∧ c.args[3] = gval s a)
  managers : ∀ h ∈ contexts s, OnTable s (gval s a) h → ∀ m ∈ s.moves, m.manager ≠ h.cid
  windows : ∀ h ∈ contexts s, ∀ w ∈ h.accWin,
    overlaps w.base w.size (recordAt s (slotAddr (gval s a) n)).base (recordAt s (slotAddr (gval s a) n)).size = false
  dram : (placeOf (recordAt s (slotAddr (gval s a) n)).base).isLocal = false

/-- The open move that `mvreq` makes. -/
def newMove (s : State) (d a : Reg) (n : BitVec 8) : Move :=
  let r := recordAt s (slotAddr (gval s a) n)
  { manager := s.hart.cid, table := gval s a, slot := n, oldBase := BitVec.ofNat 64 r.base
    oldSize := BitVec.ofNat 64 r.size, everyPart := decide (mode s = modeD), partId := s.hart.partId, done := true
    pc := s.hart.pc, d := d, lease := (gpr s a).lease }

/-- A register that carries the tag moves by the distance (R78). -/
def shifted (n : BitVec 8) (delta : Word) (x : GReg) : GReg := if x.tag = n then { x with val := x.val + delta } else x

/-- The general registers of a replica, with those that the dispatch of its queued instructions has captured. -/
def replicaRegs (r : Replica) : List (Vector GReg 32) :=
  r.regs :: (r.flight.queue.map (·.regs) ++ (r.flight.front.map (·.regs)).toList)

/-- Every copy of the general registers that a context holds: its own, those captured by dispatch, those of its replicas. -/
def contextRegs (h : Hart) : List (Vector GReg 32) :=
  h.regs :: (h.queue.map (·.regs) ++ (h.front.map (·.regs)).toList ++
    (h.par.map fun p => (p.rest ++ p.ended).flatMap replicaRegs).getD [])

/-- The registers of a context after the commit of a move (R78, R35). -/
def committedRegs (m : Move) (delta : Word) (h : Hart) : List (Vector GReg 32) :=
  if usesTable m h then (contextRegs h).map (·.map (shifted m.slot delta)) else contextRegs h

end Sys2Proof.Claims

/-- R75 to R78: a move that nothing turns away, all of whose contexts stand still with nothing in flight over the slot, opens
at once with their count in gd, the parked ones stopped; one that has been waiting completes when they do. `mvcommit` shifts
every register that carries the slot's tag in every such context, resident or pre-empted, and in its replicas, by the distance
between the records, releases the contexts and answers their count, once every store that the manager has issued has performed
(R15). Poison in the record of a stream that is to be read again raises cause 31 (R399; that nothing is committed then is log
52). Outside mode S and D both raise cause 3. It rests on the model's choices of log 16 and log 36. -/
def Obligations.Moves : Prop :=
  (∀ (s : State) (d a : Reg) (n : BitVec 8), s.hart.phase ≠ .free → mode s ≠ modeU → NamesRecord n →
    TableReadable s a n → MoveFree s a n →
    (∀ h ∈ contexts s, OnTable s (gval s a) h →
      (h.phase = .preempted ∨ h.phase = .exiting ∨ h.phase = .parked ∨ h.stopped = true) ∧
        inFlightTouches s (newMove s d a n) h = false) →
    ∃ t, exec (.mvreq d a n) s = .next t ∧ SameMemory s t ∧ t.moves = s.moves ++ [newMove s d a n] ∧
      gpr t d = (if d = 0 then {} else
        { val := BitVec.ofNat 64 (movedCount s (gval s a)), tag := 0, lease := (gpr s a).lease }) ∧
      (∀ r, r ≠ d → gpr t r = gpr s r) ∧ t.hart.pc = s.hart.pc + 4 ∧
      ∀ h ∈ t.others, OnTable s (gval s a) h → h.phase = .parked → h.stopped = true) ∧
  (∀ (s : State) (m : Move), s.hart.phase ≠ .free → s.moves.find? (·.manager == s.hart.cid) = some m → m.done = false →
    m.pc = s.hart.pc → s.hart.phase = .launched → moveQuiet s m = true →
    ∃ t, exec (.mvreqComplete s.hart.cid) s = .next t ∧ SameMemory s t ∧
      t.moves = (s.moves.map fun x => if x.manager = s.hart.cid then { x with done := true } else x) ∧
      (m.d ≠ 0 → (gpr t m.d).lease = m.lease) ∧ (∀ r, r ≠ m.d → gpr t r = gpr s r) ∧ t.hart.pc = s.hart.pc + 4) ∧
  (∀ (s : State) (d a : Reg) (n : BitVec 8) (m : Move), s.hart.phase ≠ .free → mode s ≠ modeU → NamesRecord n →
    TableReadable s a n → s.moves.find? (·.manager == s.hart.cid) = some m → m.table = gval s a → m.slot = n →
    m.done = true → (m.everyPart = true ↔ mode s = modeD) → m.partId = s.hart.partId →
    s.hart.csr.slotbase ≠ gval s a → s.hart.posted = [] →
    let delta := BitVec.ofNat 64 (recordAt s (slotAddr (gval s a) n)).base - m.oldBase
    (poisonedRecord s m delta = none →
      ∃ t, exec (.mvcommit d a n) s = .next t ∧ t.moves = s.moves.filter (·.manager != s.hart.cid) ∧
        (t.others.map fun h => (h.cid, contextRegs h)) = (s.others.map fun h => (h.cid, committedRegs m delta h)) ∧
        (t.saved.map fun h => (h.cid, contextRegs h)) = (s.saved.map fun h => (h.cid, committedRegs m delta h)) ∧
        (∀ h ∈ t.others ++ t.saved, usesTable m h = true → h.stopped = false ∧ h.stopPending = false) ∧
        gpr t d = (if d = 0 then {} else
          { val := BitVec.ofNat 64 (movedCount s (gval s a)), tag := 0, lease := (gpr s a).lease }) ∧
        (∀ r, r ≠ d → gpr t r = gpr s r) ∧ t.hart.pc = s.hart.pc + 4 ∧ (s.saved = [] → SameMemory s t)) ∧
    ∀ x, poisonedRecord s m delta = some x → Awake s →
      ∃ t, exec (.mvcommit d a n) s = .next t ∧ Trapped s t false 31 (BitVec.ofNat 64 x)) ∧
  (∀ (s : State) (d a : Reg) (n : BitVec 8), mode s ≠ modeU → NamesRecord n → s.hart.posted ≠ [] →
    exec (.mvcommit d a n) s = .next s) ∧
  ∀ (s : State) (d a : Reg) (n : BitVec 8), Awake s → mode s = modeU →
    (∃ t, exec (.mvreq d a n) s = .next t ∧ Trapped s t false 3 (instrBits (.mvreq d a n))) ∧
    ∃ t, exec (.mvcommit d a n) s = .next t ∧ Trapped s t false 3 (instrBits (.mvcommit d a n))

/-! ### Vector length, types and windows (R29, R32, R157, R158) -/

namespace Sys2Proof.Claims

/-- A value that `vtype` accepts: nothing reserved, a type, a rounding mode, a block length for `f4b`. -/
abbrev ValidType (t : Word) : Prop :=
  t.toNat < 2 ^ 10 ∧ field t 0 4 ≤ 13 ∧ field t 6 3 ≤ 4 ∧ (field t 0 4 = 13 → field t 4 2 ≠ 0)

/-- The width in bits of the type of code c, and the block length of code b. -/
def widthOfCode (c : Nat) : Nat := [8, 16, 32, 64, 8, 16, 32, 64, 32, 16, 16, 8, 8, 4].getD c 4
def blockOfCode (b : Nat) : Nat := [1, 16, 32, 64].getD b 1

/-- The capacity that bounds `vl`, in bits: the least among the members of the gang; in a replica that of one slab. -/
def IsCapacity (s : State) (c : Nat) : Prop :=
  let mine (h : Hart) : Prop := h.gangStack = s.hart.gangStack ∧ h.gang = s.hart.gang ∧ h.phase.live = true
  (s.hart.par ≠ none → c = s.hart.depth * 2048) ∧
    (s.hart.par = none →
      (∀ h ∈ contexts s, mine h → c ≤ h.depth * 2048 * h.g) ∧
        ((∃ h ∈ contexts s, mine h ∧ c = h.depth * 2048 * h.g) ∨ (c = 0 ∧ ∀ h ∈ contexts s, ¬ mine h)))

/-- The length granted for a request: bounded by the capacity, and a whole number of blocks. -/
def granted (c req : Nat) (t : Word) : Nat :=
  let n := min req (c / widthOfCode (field t 0 4))
  n - n % blockOfCode (field t 4 2)

/-- Two windows share a row; one without rows shares none. -/
abbrev SharesRow (a b : Window) : Prop :=
  a.len ≠ 0 ∧ b.len ≠ 0 ∧ a.base.toNat < b.base.toNat + b.len.toNat ∧ b.base.toNat < a.base.toNat + a.len.toNat

/-- The state with a new vector length and type. -/
def lengthSet (s : State) (n : Nat) (t : Word) : State :=
  { s with hart := { s.hart with
    csr := { s.hart.csr with vl := BitVec.ofNat 64 n, vtype := t.truncate 10, vstart := 0 } } }

/-- What `vsetvl` and `vsetvli` do with a request and a type. -/
def SetsLength (s : State) (i : Instr) (d : Reg) (req : Nat) (vt : Word) (l : LeaseSet) : Prop :=
  (∀ c, ValidType vt → IsCapacity s c →
    ∃ t, exec i s = .next t ∧ Wrote (lengthSet s (granted c req vt) vt) t 4 d
      { val := BitVec.ofNat 64 (granted c req vt), tag := 0, lease := l } ∧ SameMemory s t) ∧
  (¬ ValidType vt → Awake s → ∃ t, exec i s = .next t ∧ Trapped s t false 33 vt)

end Sys2Proof.Claims

/-- R157: `vsetvli` and `vsetvl` with a valid type grant the lesser of the request and what the capacity of the gang (in a
replica, of one slab) holds, in whole blocks; they write it to `vl` and gd, set `vtype`, and clear `vstart`; an invalid type
raises cause 33. R158: `vwin` places a window; the register receives the lease sets of the registers that share its rows;
values out of range and a bound register raise cause 32. It rests on the model's choices of log 15. -/
def Obligations.VectorLength : Prop :=
  (∀ (s : State) (d : Reg) (e : BitVec 3) (c : BitVec 6) (vt : BitVec 10),
    SetsLength s (.vsetvli d e c vt) d (if e = 7 ∧ c = 63 then 2 ^ 64 - 1 else c.toNat * 2 ^ e.toNat) (vt.zeroExtend 64) {}) ∧
  (∀ (s : State) (d a b : Reg),
    SetsLength s (.vsetvl d a b) d (gval s a).toNat (gval s b) (bothLeases (gpr s a).lease (gpr s b).lease)) ∧
  ∀ (s : State) (v a b : Reg),
    ((gval s a).toNat ≤ 2047 → (gval s b).toNat ≤ 2048 → (∀ x ∈ s.hart.streams, x.reg ≠ v) →
      ∃ t, exec (.vwin v a b) s = .next t ∧ SameMemory s t ∧
        (vreg t v).win = { base := (gval s a).truncate 11, len := (gval s b).truncate 12 } ∧ (vreg t v).groups = 0 ∧
        (∀ i, i < 16 → ((vreg t v).lease.ids.getLsbD i = true ↔
          (∃ w, w ≠ v ∧ SharesRow (vreg t v).win (vreg s w).win ∧ (vreg s w).lease.ids.getLsbD i = true) ∨
            ∃ k, SharesRow (vreg t v).win (kreg s k).win ∧ (kreg s k).lease.ids.getLsbD i = true)) ∧
        ((vreg t v).lease.sat = true ↔
          (∃ w, w ≠ v ∧ SharesRow (vreg t v).win (vreg s w).win ∧ (vreg s w).lease.sat = true) ∨
            ∃ k, SharesRow (vreg t v).win (kreg s k).win ∧ (kreg s k).lease.sat = true) ∧
        (∀ w, w ≠ v → vreg t w = vreg s w) ∧
        t = advance 4 { s with hart := { s.hart with vregs := t.hart.vregs } }) ∧
    ((2047 < (gval s a).toNat ∨ 2048 < (gval s b).toNat ∨ ∃ x ∈ s.hart.streams, x.reg = v) → Awake s →
      ∃ t, exec (.vwin v a b) s = .next t ∧ Trapped s t false 32 (v.zeroExtend 64))

/-! ### Element-wise vector instructions (R18, R50, R52, R58, R223, R224, R229 to R233) -/

namespace Sys2Proof.Claims

/-- `vtype` holds this type and this rounding mode, and is valid. -/
structure TypeIs (s : State) (ty : ElemTy) (rm : Rm) : Prop where
  type : ElemTy.ofCode (field s.hart.csr.vtype 0 4) = some ty
  mode : Rm.ofCode (field s.hart.csr.vtype 6 3) = some rm
  block : ty = .f4b → field s.hart.csr.vtype 4 2 ≠ 0

/-- `vtype`.sat. -/
def satOf (s : State) : Bool := bit s.hart.csr.vtype 9

/-- `vl` and `vstart`. -/
def vlen (s : State) : Nat := s.hart.csr.vl.toNat
def vfirst (s : State) : Nat := s.hart.csr.vstart.toNat

/-- A window is placed in the hart's rows and holds `n` elements of `w` bits (R50). -/
abbrev Fits (s : State) (win : Window) (w n : Nat) : Prop :=
  win.len ≠ 0 ∧ win.base.toNat + win.len.toNat ≤ depthRows s ∧ n * w ≤ win.len.toNat * (8 * rowBytes s)

/-- Two windows share no row. -/
abbrev RowsApart (a b : Window) : Prop :=
  a.base.toNat + a.len.toNat ≤ b.base.toNat ∨ b.base.toNat + b.len.toNat ≤ a.base.toNat

/-- The instruction at the pc runs in one step, and nothing of it has been issued before. -/
abbrev AtOnce (s : State) : Prop := s.slice = false ∧ s.hart.issued = 0

/-- The window operands of an instruction that writes `vd` at width `wd` and reads each of `srcs` at its width pass the checks
at issue, nothing that is read is poisoned, no operand is bound, and the instruction runs in one step. -/
structure Operands (s : State) (vd : Reg) (wd : Nat) (srcs : List (Reg × Nat)) (elementwise : Bool) : Prop where
  oneStep : AtOnce s
  dest : Fits s (vreg s vd).win wd (vlen s)
  sources : ∀ o ∈ srcs, Fits s (vreg s o.1).win o.2 (vlen s)
  apart : ∀ o ∈ srcs, RowsApart (vreg s vd).win (vreg s o.1).win ∨
    (elementwise = true ∧ (vreg s vd).win.base = (vreg s o.1).win.base ∧ wd = o.2)
  unbound : ∀ b ∈ s.hart.streams, b.reg ≠ vd ∧ ∀ o ∈ srcs, b.reg ≠ o.1
  clean : ∀ o ∈ srcs, ∀ i, i < vlen s → elemPoisoned s (vreg s o.1).win.base.toNat o.2 i = false

/-- Element `i` is active: at or above `vstart`, below `vl`, its mask bit set. -/
def isActive (s : State) (m : Reg3) (i : Nat) : Bool := decide (vfirst s ≤ i) && decide (i < vlen s) && maskBit s m i

/-- The active elements in ascending order. -/
def activeOf (s : State) (m : Reg3) : List Nat := (List.range (vlen s)).filter (isActive s m)

/-- Flags and saturation of the active elements, in the places of `vxstat`. -/
def flagsOf (s : State) (m : Reg3) (r : Nat → Flags × Bool) : BitVec 6 :=
  ((activeOf s m).foldl (fun f i => f ||| (r i).1) 0).zeroExtend 6 |||
    if (activeOf s m).any fun i => (r i).2 then 32 else 0

/-- The control registers after a vector instruction has completed. -/
def finished (s : State) (flags : BitVec 6) : Csrs :=
  { s.hart.csr with vstart := 0, vxstat := s.hart.csr.vxstat ||| flags }

/-- The instruction at the pc writes its destination whole: it is unmasked, and it begins, or was begun by an earlier step, at its
first element (R52). -/
abbrev Whole (s : State) (m : Reg3) : Prop := m = 0 ∧ (vfirst s = 0 ∨ s.hart.fromZero = true)

/-- The lease set of a destination whose old set is `old`, from the sources' union `l`: replaced by a whole unmasked write, else
joined; unchanged when nothing is issued (R52). -/
def joinedLease (s : State) (m : Reg3) (old l : LeaseSet) : LeaseSet :=
  if vlen s ≤ vfirst s then old else if Whole s m then l else bothLeases old l

/-- What an instruction of the vector side may change of its hart besides general registers: rows, windows' lease sets and
progress, masks, control registers, the pc. It leaves nothing part-way done. -/
def VectorFrame (s t : State) (len : Nat) : Prop :=
  t = { s with hart := { s.hart with
    rows := t.hart.rows, rowPoison := t.hart.rowPoison, vregs := t.hart.vregs, kregs := t.hart.kregs
    mregs := t.hart.mregs, regs := t.hart.regs, replies := t.hart.replies, csr := t.hart.csr
    fed := false, stalled := [], bound := none, retry := none, waitNs := 0, inProgress := none, fromZero := false, held := false
    current := none, issued := 0, headed := false, probed := none, offsets := [], wrote := []
    pc := s.hart.pc + BitVec.ofNat 64 len } }

/-- A window holds a row in which one of the elements lies that are written from row `base` on at width `w` (R52). -/
def HoldsWritten (s : State) (base w : Nat) (f : Nat → Option Nat) (win : Window) : Prop :=
  ∃ i, i < vlen s ∧ (f i).isSome = true ∧ win.base.toNat ≤ base + i * w / (8 * rowBytes s) ∧
    base + i * w / (8 * rowBytes s) < win.base.toNat + win.len.toNat

/-- `t` is `s` after an instruction that wrote some elements of `vd` at width `w`: element i holds `f i` where it is written and
is undisturbed elsewhere; no other byte of the rows has changed, no register, mask or window, and no byte of memory outside the
rows. The destination has the set `lease`; the set `l` of the result joins that of every other vector or scale register whose window
holds a written row, and no other set changes (R52). -/
structure Lanes (s t : State) (len : Nat) (vd : Reg) (w : Nat) (f : Nat → Option Nat) (lease l : LeaseSet) (csr : Csrs) :
    Prop where
  elems : ∀ i, i < vlen s → elem t vd w i = (f i).getD (elem s vd w i)
  outside : ∀ k, (∀ i, i < vlen s → (f i).isSome = true → ∀ j, j < (w + 7) / 8 →
    k ≠ imageKey s (vreg s vd).win.base.toNat (i * w / 8 + j)) → t.hart.rows.read k = s.hart.rows.read k
  lease : (vreg t vd).lease = lease
  spread : ∀ v, v ≠ vd →
    (HoldsWritten s (vreg s vd).win.base.toNat w f (vreg s v).win → (vreg t v).lease = bothLeases (vreg s v).lease l) ∧
    (¬ HoldsWritten s (vreg s vd).win.base.toNat w f (vreg s v).win → (vreg t v).lease = (vreg s v).lease)
  spreadScales : ∀ k,
    (HoldsWritten s (vreg s vd).win.base.toNat w f (kreg s k).win → (kreg t k).lease = bothLeases (kreg s k).lease l) ∧
    (¬ HoldsWritten s (vreg s vd).win.base.toNat w f (kreg s k).win → (kreg t k).lease = (kreg s k).lease)
  progress : ∀ v, v ≠ vd → (vreg t v).busy = (vreg s v).busy ∧ (vreg t v).groups = (vreg s v).groups
  windows : ∀ v, (vreg t v).win = (vreg s v).win
  scales : ∀ k, (kreg t k).win = (kreg s k).win
  masks : t.hart.mregs = s.hart.mregs
  regs : t.hart.regs = s.hart.regs ∧ t.hart.replies = s.hart.replies
  csr : t.hart.csr = csr
  frame : VectorFrame s t len
  memory : SameMemoryOffRows s t

/-- The register of a second operand with its width, if it is one; its lease set; its value for element i (an immediate is
sign-extended, or taken as 0 to 31 by a shift). -/
def secondReg (b : VOp) (w : Nat) : List (Reg × Nat) :=
  match b with
  | .vv r => [(r, w)]
  | .vs _ | .vi _ => []
def leaseOfSecond (s : State) (b : VOp) : LeaseSet :=
  match b with
  | .vv r => (vreg s r).lease
  | .vs r => (gpr s r).lease
  | .vi _ => {}
def secondAt (s : State) (b : VOp) (w i : Nat) (places : Bool) : Nat :=
  match b with
  | .vv r => elem s r w i
  | .vs r => (gval s r).toNat % 2 ^ w
  | .vi imm => if places then imm.toNat else (imm.signExtend 64).toNat % 2 ^ w

/-- The lease set of a mask operand. -/
def leaseOfMask (s : State) (m : Reg3) : LeaseSet := if m = 0 then {} else (mreg s m).lease

/-- The range of an integer type, and an exact result fitted to it: clamped, with the saturation bit, or wrapped (R202). -/
def lowest (ty : ElemTy) : Int := if tyIsSigned ty then -(2 ^ (tyWidth ty - 1)) else 0
def highest (ty : ElemTy) : Int := if tyIsSigned ty then 2 ^ (tyWidth ty - 1) - 1 else 2 ^ tyWidth ty - 1
def fitted (clamp : Bool) (ty : ElemTy) (x : Int) : Nat × Bool :=
  let y := if clamp then max (lowest ty) (min (highest ty) x) else x
  ((y % 2 ^ tyWidth ty).toNat, clamp && decide (x ≠ max (lowest ty) (min (highest ty) x)))

/-- An element as an integer: signed by type. -/
def byType (ty : ElemTy) (x : Nat) : Int := if tyIsSigned ty then toSigned (tyWidth ty) x else x

/-- R230: the instruction, whether it shifts, and its result from the type, `vtype`.sat and the two operands' bits, with
whether it saturated. -/
def intForms : List ((Reg → Reg → VOp → Reg3 → Instr) × Bool × (ElemTy → Bool → Nat → Nat → Nat × Bool)) :=
  [(.vadd, false, fun t c x y => fitted c t (byType t x + byType t y)),
    (.vsub, false, fun t c x y => fitted c t (byType t x - byType t y)),
    (.vmul, false, fun t c x y => fitted c t (byType t x * byType t y)),
    (.vmulh, false, fun t _ x y => ((byType t x * byType t y / 2 ^ tyWidth t % 2 ^ tyWidth t).toNat, false)),
    (.vand, false, fun _ _ x y => (x &&& y, false)), (.vor, false, fun _ _ x y => (x ||| y, false)),
    (.vxor, false, fun _ _ x y => (x ^^^ y, false)),
    (.vsll, true, fun t _ x y => (x * 2 ^ (y % tyWidth t) % 2 ^ tyWidth t, false)),
    (.vsrl, true, fun t _ x y => (x / 2 ^ (y % tyWidth t), false)),
    (.vsra, true, fun t _ x y => ((toSigned (tyWidth t) x / 2 ^ (y % tyWidth t) % 2 ^ tyWidth t).toNat, false)),
    (.vmin, false, fun t _ x y => (if toSigned (tyWidth t) x < toSigned (tyWidth t) y then x else y, false)),
    (.vmax, false, fun t _ x y => (if toSigned (tyWidth t) x < toSigned (tyWidth t) y then y else x, false)),
    (.vminn, false, fun _ _ x y => (min x y, false)), (.vmaxn, false, fun _ _ x y => (max x y, false)),
    (.vsadd, false, fun t _ x y => fitted true t (byType t x + byType t y)),
    (.vssub, false, fun t _ x y => fitted true t (byType t x - byType t y))]

end Sys2Proof.Claims

/-- R223, R224, R229 and R230: the integer instructions in every form, under every integer type: active elements hold the
result of the table, the others are undisturbed, `vxstat`.sat gains the saturation of the active elements, `vstart` is
cleared, the lease set of the result reaches every register whose window holds a written row (R52; that a masked write of no
element joins the set too is log 38), and nothing else changes; a type of another class, or rounding mode SR, raises cause 33.
-/
def Obligations.VectorIntegers : Prop :=
  ∀ p ∈ intForms, ∀ (s : State) (vd va : Reg) (b : VOp) (m : Reg3) (ty : ElemTy) (rm : Rm), TypeIs s ty rm →
    let w := tyWidth ty
    let r (i : Nat) := p.2.2 ty (satOf s) (elem s va w i) (secondAt s b w i p.2.1)
    (rm ≠ .sr → tyIsInt ty = true → Operands s vd w ((va, w) :: secondReg b w) true →
      ∃ t, exec (p.1 vd va b m) s = .next t ∧
        Lanes s t 4 vd w (fun i => if isActive s m i then some (r i).1 else none)
          (joinedLease s m (vreg s vd).lease
            (bothLeases (bothLeases (vreg s va).lease (leaseOfSecond s b)) (leaseOfMask s m)))
          (bothLeases (bothLeases (vreg s va).lease (leaseOfSecond s b)) (leaseOfMask s m))
          (finished s (flagsOf s m fun i => (0, (r i).2)))) ∧
    ((rm = .sr ∨ tyIsInt ty = false) → Awake s →
      ∃ t, exec (p.1 vd va b m) s = .next t ∧ Trapped s t false 33 (s.hart.csr.vtype.zeroExtend 64))

namespace Sys2Proof.Claims

/-- Round an exact result to the format of a type under `vtype`, with all its flags (R231). -/
def delivered (s : State) (ty : ElemTy) (rm : Rm) (v : FVal × Flags) : Nat × Flags :=
  let r := roundTo (tyFmt ty) (satOf s) rm 0 v.1
  (r.1, v.2 ||| r.2)

/-- R231: the instruction, whether it reads vd as an addend, and its exact result from the rounding mode and the values of va[i],
the second operand and vd[i]. -/
def floatForms : List ((Reg → Reg → VOp → Reg3 → Instr) × Bool × (Rm → FVal → FVal → FVal → FVal × Flags)) :=
  [(.vfadd, false, fun m x y _ => FVal.add m x y), (.vfsub, false, fun m x y _ => FVal.add m x y.negate),
    (.vfmul, false, fun _ x y _ => FVal.mul x y), (.vfdiv, false, fun _ x y _ => FVal.div x y),
    (.vfmadd, true, fun m x y z => FVal.fma m x y z), (.vfnmsub, true, fun m x y z => FVal.fma m x.negate y z)]

/-- R232: the unary forms; `vfround` gives the integral value with NX where it differs. -/
def floatUnary : List ((Reg → Reg → Reg3 → Instr) × (Rm → FVal → FVal × Flags)) :=
  [(.vfsqrt, fun _ x => FVal.sqrt x), (.vfrecip, fun _ x => FVal.div (.fin false 1 0) x),
    (.vfrsqrt, fun _ x => FVal.rsqrt x),
    (.vfround, fun m x => match x with
      | .fin neg man exp =>
        let r := roundMag m neg man exp 0 0
        (.fin neg r.1 0, if r.2 then flagNX else 0)
      | v => (v, 0))]

/-- x × 2^n. -/
def timesPower (x : FVal) (n : Int) : FVal :=
  match x with
  | .fin neg man e => .fin neg man (e + n)
  | v => v

/-- The exponent of `vfscale`: an element as a signed number, all of gb, or the immediate. One beyond ±4096 counts as ±4096:
no format reaches so far, and the rounded result is the same. -/
def powerAt (s : State) (b : VOp) (w i : Nat) : Int :=
  let n : Int := match b with
    | .vv r => toSigned w (elem s r w i)
    | .vs r => (gval s r).toInt
    | .vi imm => imm.toInt
  max (-4096) (min 4096 n)

/-- What a floating-point instruction leaves: results with flags for the active elements. -/
def FloatLanes (s t : State) (vd : Reg) (m : Reg3) (w : Nat) (l : LeaseSet) (r : Nat → Nat × Flags) : Prop :=
  Lanes s t 4 vd w (fun i => if isActive s m i then some (r i).1 else none)
    (joinedLease s m (vreg s vd).lease (bothLeases l (leaseOfMask s m))) (bothLeases l (leaseOfMask s m)) (finished s (flagsOf s m fun i => ((r i).2, false)))

end Sys2Proof.Claims

/-- R231 and R232: the floating-point instructions under every float type, as `VectorIntegers`: the exact result of the table
rounded once, with its flags (the sign of an exactly zero sum under RDN is log 42); `vfmin`, `vfmax`, `vfsgnj`, `vfscale` as
the rule says; another type raises cause 33. -/
def Obligations.VectorFloats : Prop :=
  ∀ (s : State) (vd va : Reg) (b : VOp) (m : Reg3) (ty : ElemTy) (rm : Rm), TypeIs s ty rm → rm ≠ .sr →
    let w := tyWidth ty
    let x (i : Nat) := (tyFmt ty).decode (elem s va w i)
    let y (i : Nat) := (tyFmt ty).decode (secondAt s b w i false)
    let z (i : Nat) := (tyFmt ty).decode (elem s vd w i)
    let l2 := bothLeases (vreg s va).lease (leaseOfSecond s b)
    let l3 := bothLeases (bothLeases (vreg s va).lease (vreg s vd).lease) (leaseOfSecond s b)
    (tyIsFloat ty = true →
      (∀ p ∈ floatForms, Operands s vd w ((va, w) :: secondReg b w ++ if p.2.1 then [(vd, w)] else []) true →
        ∃ t, exec (p.1 vd va b m) s = .next t ∧
          FloatLanes s t vd m w (if p.2.1 then l3 else l2) fun i => delivered s ty rm (p.2.2 rm (x i) (y i) (z i))) ∧
      (Operands s vd w ((va, w) :: secondReg b w) true →
        (∀ p ∈ [(Instr.vfmin vd va b m, false), (Instr.vfmax vd va b m, true)], ∃ t, exec p.1 s = .next t ∧
          FloatLanes s t vd m w l2 fun i => (widenBits (tyFmt ty) (FVal.minMax p.2 (x i) (y i)), snanFlag [x i, y i])) ∧
        (∃ t, exec (.vfsgnj vd va b m) s = .next t ∧
          FloatLanes s t vd m w l2 fun i => (elem s va w i % 2 ^ (w - 1) +
            secondAt s b w i false / 2 ^ (w - 1) % 2 * 2 ^ (w - 1), 0)) ∧
        ∃ t, exec (.vfscale vd va b m) s = .next t ∧
          FloatLanes s t vd m w l2 fun i => delivered s ty rm (timesPower (x i) (powerAt s b w i), 0)) ∧
      ∀ p ∈ floatUnary, Operands s vd w [(va, w)] true → ∃ t, exec (p.1 vd va m) s = .next t ∧
        FloatLanes s t vd m w (vreg s va).lease fun i => delivered s ty rm (p.2 rm (x i))) ∧
    (tyIsFloat ty = false → Awake s →
      (∀ p ∈ floatForms, ∃ t, exec (p.1 vd va b m) s = .next t ∧
        Trapped s t false 33 (s.hart.csr.vtype.zeroExtend 64)) ∧
      ∀ p ∈ floatUnary, ∃ t, exec (p.1 vd va m) s = .next t ∧
        Trapped s t false 33 (s.hart.csr.vtype.zeroExtend 64))

namespace Sys2Proof.Claims

/-- `t` is `s` after an instruction that wrote some bits of mask `md`; m0 takes no write. -/
structure MaskWrote (s t : State) (md : Reg3) (f : Nat → Option Bool) (lease : LeaseSet) (csr : Csrs) : Prop where
  bits : md ≠ 0 → ∀ i, (mreg t md).bits.testBit i = (f i).getD ((mreg s md).bits.testBit i)
  lease : md ≠ 0 → (mreg t md).lease = lease
  masks : ∀ m, m ≠ md ∨ md = 0 → mreg t m = mreg s m
  rest : t.hart.rows = s.hart.rows ∧ t.hart.vregs = s.hart.vregs ∧ t.hart.kregs = s.hart.kregs ∧
    t.hart.rowPoison = s.hart.rowPoison ∧ t.hart.regs = s.hart.regs ∧ t.hart.replies = s.hart.replies
  csr : t.hart.csr = csr
  frame : VectorFrame s t 4
  memory : SameMemory s t

/-- The sources of a compare pass the checks at issue. -/
structure Sources (s : State) (srcs : List (Reg × Nat)) : Prop where
  oneStep : AtOnce s
  sources : ∀ o ∈ srcs, Fits s (vreg s o.1).win o.2 (vlen s)
  unbound : ∀ b ∈ s.hart.streams, ∀ o ∈ srcs, b.reg ≠ o.1
  clean : ∀ o ∈ srcs, ∀ i, i < vlen s → elemPoisoned s (vreg s o.1).win.base.toNat o.2 i = false

/-- R233: the integer compares: whether they read naturals, and the relation. -/
def intCompares : List ((Reg3 → Reg → VOp → Reg3 → Instr) × Bool × (Int → Int → Bool)) :=
  [(.vcmpEq, false, fun x y => decide (x = y)), (.vcmpNe, false, fun x y => decide (x ≠ y)),
    (.vcmpLt, false, fun x y => decide (x < y)), (.vcmpLe, false, fun x y => decide (x ≤ y)),
    (.vcmpGt, false, fun x y => decide (y < x)), (.vcmpGe, false, fun x y => decide (y ≤ x)),
    (.vcmpLtn, true, fun x y => decide (x < y)), (.vcmpLen, true, fun x y => decide (x ≤ y)),
    (.vcmpGtn, true, fun x y => decide (y < x)), (.vcmpGen, true, fun x y => decide (y ≤ x))]

/-- The floating-point compares: what a NaN gives, whether a quiet NaN sets NV, and the outcomes of comparing two numbers that
give 1. -/
def floatCompares : List ((Reg3 → Reg → VOp → Reg3 → Instr) × Bool × Bool × List Ordering) :=
  [(.vfcmpEq, false, false, [.eq]), (.vfcmpNe, true, false, [.lt, .gt]), (.vfcmpLt, false, true, [.lt]),
    (.vfcmpLe, false, true, [.lt, .eq]), (.vfcmpGt, false, true, [.gt]), (.vfcmpGe, false, true, [.gt, .eq])]

end Sys2Proof.Claims

/-- R233: the compares write the bits of the active elements of md and leave every other bit; a NaN makes every relation but ≠
false; another type class raises cause 33. -/
def Obligations.VectorCompares : Prop :=
  ∀ (s : State) (md : Reg3) (va : Reg) (b : VOp) (m : Reg3) (ty : ElemTy) (rm : Rm), TypeIs s ty rm → rm ≠ .sr →
    let w := tyWidth ty
    let lease := joinedLease s m (mreg s md).lease
      (bothLeases (bothLeases (vreg s va).lease (leaseOfSecond s b)) (leaseOfMask s m))
    (Sources s ((va, w) :: secondReg b w) →
      (tyIsInt ty = true → ∀ p ∈ intCompares,
        let rd (x : Nat) : Int := if p.2.1 then x else toSigned w x
        ∃ t, exec (p.1 md va b m) s = .next t ∧
          MaskWrote s t md
            (fun i => if isActive s m i then some (p.2.2 (rd (elem s va w i)) (rd (secondAt s b w i false))) else none)
            lease (finished s 0)) ∧
      (tyIsFloat ty = true → ∀ p ∈ floatCompares,
        let x (i : Nat) := (tyFmt ty).decode (elem s va w i)
        let y (i : Nat) := (tyFmt ty).decode (secondAt s b w i false)
        let nan (i : Nat) := (x i).isNan || (y i).isNan
        ∃ t, exec (p.1 md va b m) s = .next t ∧
          MaskWrote s t md
            (fun i => if isActive s m i then some (if nan i then p.2.1 else p.2.2.2.contains (FVal.cmp (x i) (y i)))
              else none) lease
            (finished s (flagsOf s m fun i =>
              (if p.2.2.1 then (if nan i then flagNV else 0) else snanFlag [x i, y i], false))))) ∧
    (Awake s →
      (tyIsInt ty = false → ∀ p ∈ intCompares, ∃ t, exec (p.1 md va b m) s = .next t ∧
        Trapped s t false 33 (s.hart.csr.vtype.zeroExtend 64)) ∧
      (tyIsFloat ty = false → ∀ p ∈ floatCompares, ∃ t, exec (p.1 md va b m) s = .next t ∧
        Trapped s t false 33 (s.hart.csr.vtype.zeroExtend 64)))

/-! ### Masks (R54, R234, R235) -/

namespace Sys2Proof.Claims

/-- R234: bit i of the result from the bits of the two sources. -/
def maskBinary : List ((Reg3 → Reg3 → Reg3 → Instr) × (Bool → Bool → Bool)) :=
  [(.mand, fun x y => x && y), (.mor, fun x y => x || y), (.mxor, fun x y => x != y), (.mandn, fun x y => x && !y)]
def maskUnary : List ((Reg3 → Reg3 → Instr) × (Bool → Bool)) := [(.mnot, fun x => !x), (.mmv, fun x => x)]

/-- `t` is `s` after a scalar result of the vector side: gd receives it, or a reply slot holds it for gd when results lag
(R227). -/
structure ScalarResult (s t : State) (d : Reg) (v : GReg) (csr : Csrs) : Prop where
  written : s.hart.lag = false → t.hart.replies = s.hart.replies ∧ gpr t d = (if d = 0 then {} else v) ∧
    ∀ r, r ≠ d → gpr t r = gpr s r
  held : s.hart.lag = true → t.hart.regs = s.hart.regs ∧ t.hart.replies = s.hart.replies ++ [{ d := d, val := v }]
  rest : t.hart.rows = s.hart.rows ∧ t.hart.vregs = s.hart.vregs ∧ t.hart.kregs = s.hart.kregs ∧
    t.hart.rowPoison = s.hart.rowPoison ∧ t.hart.mregs = s.hart.mregs
  csr : t.hart.csr = csr
  frame : VectorFrame s t 4
  memory : SameMemory s t

end Sys2Proof.Claims

/-- R234 and R235: the mask group works on the bits below `vl` and leaves the others; `mpop` counts the set bits, `mfirst`
gives the lowest or −1 (that `md` receives its sources' lease set at `vl` = 0 too is the model's choice, log 38); a `vl`
beyond a mask's capacity raises cause 34. -/
def Obligations.MaskGroup : Prop :=
  ∀ (s : State) (d : Reg) (md ma mb : Reg3),
    (vlen s ≤ maskBits s → AtOnce s →
      (∀ p ∈ maskBinary, ∃ t, exec (p.1 md ma mb) s = .next t ∧
        MaskWrote s t md (fun i => if i < vlen s then some (p.2 (maskBit s ma i) (maskBit s mb i)) else none)
          (bothLeases (leaseOfMask s ma) (leaseOfMask s mb)) (finished s 0)) ∧
      (∀ p ∈ maskUnary, ∃ t, exec (p.1 md ma) s = .next t ∧
        MaskWrote s t md (fun i => if i < vlen s then some (p.2 (maskBit s ma i)) else none) (leaseOfMask s ma)
          (finished s 0)) ∧
      (∃ t, exec (.mset md) s = .next t ∧
        MaskWrote s t md (fun i => if i < vlen s then some true else none) {} (finished s 0)) ∧
      (∃ t, exec (.mpop d ma) s = .next t ∧
        ScalarResult s t d
          { val := BitVec.ofNat 64 ((List.range (vlen s)).filter (maskBit s ma)).length, tag := 0, lease := leaseOfMask s ma }
          (finished s 0)) ∧
      ∀ v : Word, ((∀ i, i < vlen s → maskBit s ma i = false) → v = -1) →
        (∀ i, i < vlen s → maskBit s ma i = true → (∀ j, j < i → maskBit s ma j = false) → v = BitVec.ofNat 64 i) →
        ∃ t, exec (.mfirst d ma) s = .next t ∧
          ScalarResult s t d { val := v, tag := 0, lease := leaseOfMask s ma } (finished s 0)) ∧
    (maskBits s < vlen s → Awake s →
      (∀ p ∈ maskBinary, ∃ t, exec (p.1 md ma mb) s = .next t ∧ Trapped s t false 34 (md.zeroExtend 64)) ∧
      ∃ t, exec (.mpop d ma) s = .next t ∧ Trapped s t false 34 (ma.zeroExtend 64))

/-! ### Permutes, moves, conversions, reductions (R217 to R219, R225, R236 to R243) -/

namespace Sys2Proof.Claims

/-- The lease set of the destination of a cross-lane instruction: replaced when every element below `vl` is written (R52). -/
def crossLease (s : State) (whole : Bool) (old l : LeaseSet) : LeaseSet :=
  if vlen s = 0 then old else if whole then l else bothLeases old l

/-- The elements below `vl` whose mask bit is set, in ascending order. -/
def maskedOf (s : State) (m : Reg3) : List Nat := (List.range (vlen s)).filter (maskBit s m)

/-- The offset of a slide or the index of `vext`: gb as a natural number, or the immediate. -/
def offsetOf (s : State) (b : VOp) : Nat :=
  match b with
  | .vv _ => 0
  | .vs r => (gval s r).toNat
  | .vi imm => imm.toNat

/-- What a cross-lane instruction leaves: element i holds `f i` where it is written. -/
def CrossLanes (s t : State) (vd : Reg) (w : Nat) (f : Nat → Option Nat) (l : LeaseSet) (whole : Bool) : Prop :=
  Lanes s t 4 vd w f (crossLease s whole (vreg s vd).lease l) l (finished s 0)

/-- An element extended to 64 bits: signed for `i` types (R243). -/
def extended (ty : ElemTy) (x : Nat) : Word :=
  if tyIsSigned ty then BitVec.ofInt 64 (toSigned (tyWidth ty) x) else BitVec.ofNat 64 x

end Sys2Proof.Claims

/-- R240, R241 and R243: slides, gather and compress write the elements that the mask selects from the source as it stands;
`vext` and `vmvxs` bring one element to a general register, and `vext` beyond `vl` gives 0. `vstart` is ignored and cleared.
-/
def Obligations.CrossLanePermutes : Prop :=
  ∀ (s : State) (d vd va vb : Reg) (b : VOp) (m : Reg3) (ty : ElemTy) (rm : Rm), TypeIs s ty rm → rm ≠ .sr →
    let w := tyWidth ty
    let off := offsetOf s b
    let slideLease := bothLeases (bothLeases (vreg s va).lease (leaseOfSecond s b)) (leaseOfMask s m)
    (b.isScalar = true → b.notNegative = true → Operands s vd w [(va, w)] false →
      (∃ t, exec (.vslideup vd va b m) s = .next t ∧
        CrossLanes s t vd w (fun i => if maskBit s m i = true ∧ off ≤ i then some (elem s va w (i - off)) else none)
          slideLease (m == 0 && (off == 0 || vlen s == 0))) ∧
      ∃ t, exec (.vslidedn vd va b m) s = .next t ∧
        CrossLanes s t vd w
          (fun i => if maskBit s m i then some (if i + off < vlen s then elem s va w (i + off) else 0) else none)
          slideLease (m == 0)) ∧
    (Operands s vd w [(va, w), (vb, w)] false →
      ∃ t, exec (.vgather vd va vb m) s = .next t ∧
        CrossLanes s t vd w
          (fun i => if maskBit s m i then some (if elem s vb w i < vlen s then elem s va w (elem s vb w i) else 0) else none)
          (bothLeases (bothLeases (vreg s va).lease (vreg s vb).lease) (leaseOfMask s m)) (m == 0)) ∧
    (Operands s vd w [(va, w)] false →
      ∃ t, exec (.vcompress vd va m) s = .next t ∧
        CrossLanes s t vd w (fun i => ((maskedOf s m)[i]?).map (elem s va w))
          (bothLeases (vreg s va).lease (leaseOfMask s m)) (m == 0)) ∧
    (b.isScalar = true → b.notNegative = true → Sources s [(va, w)] →
      ∃ t, exec (.vext d va b) s = .next t ∧
        ScalarResult s t d
          { val := if off < vlen s then extended ty (elem s va w off) else 0, tag := 0
            lease := bothLeases (vreg s va).lease (leaseOfSecond s b) } (finished s 0)) ∧
    (AtOnce s → Fits s (vreg s va).win w (max 1 (vlen s)) → (∀ x ∈ s.hart.streams, x.reg ≠ va) →
      elemPoisoned s (vreg s va).win.base.toNat w 0 = false →
      ∃ t, exec (.vmvxs d va) s = .next t ∧
        ScalarResult s t d { val := extended ty (elem s va w 0), tag := 0, lease := (vreg s va).lease } (finished s 0))

/-- R242 and R243: `vbcast`, `vid` (integer types), `vmv` and `vmerge` write the elements from `vstart` to `vl` − 1 that the
rule names (`vmerge` all of them); `vmvsx` writes element 0 if `vl` is at least 1 and `vstart` is 0, and nothing otherwise. -/
def Obligations.VectorMoves : Prop :=
  ∀ (s : State) (vd va g : Reg) (b : VOp) (m : Reg3) (ty : ElemTy) (rm : Rm), TypeIs s ty rm → rm ≠ .sr →
    let w := tyWidth ty
    let old := (vreg s vd).lease
    (Operands s vd w [] true →
      (∃ t, exec (.vbcast vd g m) s = .next t ∧
        Lanes s t 4 vd w (fun i => if isActive s m i then some ((gval s g).toNat % 2 ^ w) else none)
          (joinedLease s m old (bothLeases (gpr s g).lease (leaseOfMask s m)))
          (bothLeases (gpr s g).lease (leaseOfMask s m)) (finished s 0)) ∧
      (tyIsInt ty = true → ∃ t, exec (.vid vd m) s = .next t ∧
        Lanes s t 4 vd w (fun i => if isActive s m i then some (i % 2 ^ w) else none)
          (joinedLease s m old (leaseOfMask s m)) (leaseOfMask s m) (finished s 0)) ∧
      (tyIsInt ty = false → Awake s → ∃ t, exec (.vid vd m) s = .next t ∧
        Trapped s t false 33 (s.hart.csr.vtype.zeroExtend 64)) ∧
      (0 < vlen s → vfirst s = 0 → ∃ t, exec (.vmvsx vd g) s = .next t ∧
        Lanes s t 4 vd w (fun i => if i = 0 then some ((gval s g).toNat % 2 ^ w) else none)
          (if vlen s = 1 then (gpr s g).lease else bothLeases old (gpr s g).lease) (gpr s g).lease (finished s 0)) ∧
      ((vlen s = 0 ∨ vfirst s ≠ 0) → ∃ t, exec (.vmvsx vd g) s = .next t ∧
        Lanes s t 4 vd w (fun _ => none) old {} (finished s 0))) ∧
    (Operands s vd w [(va, w)] true →
      ∃ t, exec (.vmv vd va m) s = .next t ∧
        Lanes s t 4 vd w (fun i => if isActive s m i then some (elem s va w i) else none)
          (joinedLease s m old (bothLeases (vreg s va).lease (leaseOfMask s m)))
          (bothLeases (vreg s va).lease (leaseOfMask s m)) (finished s 0)) ∧
    (Operands s vd w ((va, w) :: secondReg b w) true →
      ∃ t, exec (.vmerge vd va b m) s = .next t ∧
        Lanes s t 4 vd w
          (fun i => if vfirst s ≤ i then some (if maskBit s m i then secondAt s b w i false else elem s va w i) else none)
          (joinedLease s 0 old (bothLeases (bothLeases (vreg s va).lease (leaseOfSecond s b)) (leaseOfMask s m)))
          (bothLeases (bothLeases (vreg s va).lease (leaseOfSecond s b)) (leaseOfMask s m)) (finished s 0))

namespace Sys2Proof.Claims

/-- The stochastic-rounding register after `n` samples (R215). -/
def lfsrAfter (r : BitVec 32) : Nat → BitVec 32
  | 0 => r
  | n + 1 => lfsr16 (lfsrAfter r n)

/-- The sample of the element that has `k` active elements before it: drawn under SR, else none. -/
def sampleAt (s : State) (rm : Rm) (k : Nat) : Nat :=
  if rm = .sr then (lfsrAfter s.hart.csr.rndstate (k + 1)).toNat % 65536 else 0

/-- The stochastic-rounding register after `n` active elements. -/
def rndAfter (s : State) (rm : Rm) (n : Nat) : BitVec 32 :=
  if rm = .sr then lfsrAfter s.hart.csr.rndstate n else s.hart.csr.rndstate

/-- The number of active elements before element `i`. -/
def activeBefore (s : State) (m : Reg3) (i : Nat) : Nat := ((activeOf s m).filter (· < i)).length

/-- The value of an element of a floating-point type or, under its block's scale byte, of `f4b` (R204, R209). -/
def valueOf (ty : ElemTy) (scale x : Nat) : FVal := if ty = .f4b then f4bVal scale x else (tyFmt ty).decode x

/-- R236: an element of type `src` as type `dst`: bits, flags, saturation. A wider float holds the value exactly; of the types wider
than `f4b` only `f32` and `bf16` do (R209), the others round. -/
def convertedTo (src dst : ElemTy) (clamp : Bool) (rm : Rm) (u scale x : Nat) : Nat × Flags × Bool :=
  if tyIsInt src = true ∧ tyIsInt dst = true then
    ((fitted clamp dst (byType src x)).1, 0, (fitted clamp dst (byType src x)).2)
  else if tyIsInt src then
    let r := roundTo (tyFmt dst) clamp rm u (FVal.ofInt (byType src x))
    (r.1, r.2, false)
  else if tyIsInt dst then
    let r := FVal.toInt rm (lowest dst) (highest dst) (valueOf src scale x)
    ((r.1 % 2 ^ tyWidth dst).toNat, r.2, false)
  else
    let nv : Flags := if src = .f4b ∧ (valueOf src scale x).isNan = true then flagNV else 0
    if tyWidth src < tyWidth dst ∧ (src = .f4b → dst = .f32 ∨ dst = .bf16) then
      (widenBits (tyFmt dst) (valueOf src scale x), nv, false)
    else
      let r := roundTo (tyFmt dst) clamp rm u (valueOf src scale x)
      (r.1, r.2 ||| nv, false)

/-- The block length of `vtype`. -/
def blockLen (s : State) : Nat := blockOfCode (field s.hart.csr.vtype 4 2)

/-- The scale byte of block `b` in scale register `k`. -/
def scaleAt (s : State) (k : Reg3) (b : Nat) : Nat := readElem s (kreg s k).win.base.toNat 8 b

/-- A scale register holds `n` bytes that are not poisoned (R55). -/
structure ScaleFits (s : State) (k : Reg3) (n : Nat) : Prop where
  fits : Fits s (kreg s k).win 8 n
  clean : ∀ b, b < n → elemPoisoned s (kreg s k).win.base.toNat 8 b = false

/-- R237: the pattern of an element of type `src` at the width of `dst`. -/
def repatterned (src dst : ElemTy) (x : Nat) : Nat :=
  (if tyIsSigned src = true ∧ tyWidth src < tyWidth dst then (toSigned (tyWidth src) x % 2 ^ tyWidth dst).toNat else x)
    % 2 ^ tyWidth dst

/-- The elements of block `b` that are active (R238). -/
def blockActive (s : State) (m : Reg3) (b : Nat) : List Nat :=
  ((List.range (blockLen s)).map (b * blockLen s + ·)).filter (maskBit s m)

/-- What block `b` of `vquant` becomes: the scale byte, the codes, the flags; `k` active elements of earlier blocks have drawn
their samples. -/
def quantised (s : State) (va : Reg) (m : Reg3) (rm : Rm) (b k : Nat) : Nat × List Nat × Flags :=
  let n := blockLen s
  let act := blockActive s m b
  let idx (j : Nat) := b * n + j
  quantBlock rm
    ((List.range n).map fun j =>
      if act.contains (idx j) then sampleAt s rm (k + (act.filter (· < idx j)).length) else 0)
    ((List.range n).map fun j => if act.contains (idx j) then fmtF32.decode (elem s va 32 (idx j)) else .fin false 0 0)

/-- The active elements of blocks `lo` to `hi` − 1. -/
def activeBlocks (s : State) (m : Reg3) (lo hi : Nat) : List Nat :=
  ((List.range (hi - lo)).map (lo + ·)).flatMap (blockActive s m)

end Sys2Proof.Claims

/-- R236 to R238: `vcvt` converts by value with one rounding, `vcvti` by pattern, `vquant` block by block with one scale byte
a block; SR draws one sample for each active element in ascending order; an `f4b` source takes its scale bytes from k0. A
source code above 13 and an `f4b` destination raise cause 33. It rests on the model's choices of log 4 and log 61. -/
def Obligations.VectorConversions : Prop :=
  (∀ (s : State) (vd va : Reg) (code : BitVec 4) (m : Reg3) (src dst : ElemTy) (rm : Rm),
    TypeIs s dst rm → dst ≠ .f4b → ElemTy.ofCode code.toNat = some src →
    Operands s vd (tyWidth dst) [(va, tyWidth src)] true →
    let rest := joinedLease s m (vreg s vd).lease
    ((rm = .sr → dst = .bf16 ∨ dst = .e4m3 ∨ dst = .e5m2) →
      (src = .f4b → field s.hart.csr.vtype 4 2 ≠ 0 ∧ ScaleFits s 0 ((vlen s + blockLen s - 1) / blockLen s) ∧
        RowsApart (vreg s vd).win (kreg s 0).win) →
      let r (i : Nat) := convertedTo src dst (satOf s) rm (sampleAt s rm (activeBefore s m i))
        (if src = .f4b then scaleAt s 0 (i / blockLen s) else 0) (elem s va (tyWidth src) i)
      ∃ t, exec (.vcvt vd va code m) s = .next t ∧
        Lanes s t 4 vd (tyWidth dst) (fun i => if isActive s m i then some (r i).1 else none)
          (rest (bothLeases (bothLeases (vreg s va).lease (if src = .f4b then (kreg s 0).lease else {})) (leaseOfMask s m)))
          (bothLeases (bothLeases (vreg s va).lease (if src = .f4b then (kreg s 0).lease else {})) (leaseOfMask s m))
          { finished s (flagsOf s m fun i => (r i).2) with rndstate := rndAfter s rm (activeOf s m).length }) ∧
    (rm ≠ .sr → ∃ t, exec (.vcvti vd va code m) s = .next t ∧
      Lanes s t 4 vd (tyWidth dst)
        (fun i => if isActive s m i then some (repatterned src dst (elem s va (tyWidth src) i)) else none)
        (rest (bothLeases (vreg s va).lease (leaseOfMask s m))) (bothLeases (vreg s va).lease (leaseOfMask s m))
        (finished s 0))) ∧
  (∀ (s : State) (vd va : Reg) (code : BitVec 4) (m : Reg3) (dst : ElemTy) (rm : Rm), TypeIs s dst rm → Awake s →
    (13 < code.toNat ∨ dst = .f4b) →
    (∃ t, exec (.vcvt vd va code m) s = .next t ∧ Trapped s t false 33 (s.hart.csr.vtype.zeroExtend 64)) ∧
    ∃ t, exec (.vcvti vd va code m) s = .next t ∧ Trapped s t false 33 (s.hart.csr.vtype.zeroExtend 64)) ∧
  ∀ (s : State) (vd va : Reg) (k m : Reg3) (rm : Rm), TypeIs s .f4b rm → vlen s % blockLen s = 0 →
    Operands s vd 4 [(va, 32)] true → Fits s (kreg s k).win 8 (vlen s / blockLen s) →
    RowsApart (kreg s k).win (vreg s va).win → RowsApart (kreg s k).win (vreg s vd).win →
    let n := blockLen s
    let b0 := vfirst s / n
    let q (b : Nat) := quantised s va m rm b (activeBlocks s m b0 b).length
    ∃ t, exec (.vquant vd va k m) s = .next t ∧
      (∀ i, i < vlen s → elem t vd 4 i =
        if b0 ≤ i / n ∧ maskBit s m i = true then ((q (i / n)).2.1)[i % n]?.getD 0 else elem s vd 4 i) ∧
      (∀ b, b < vlen s / n → scaleAt t k b = if b0 ≤ b ∧ blockActive s m b ≠ [] then (q b).1 else scaleAt s k b) ∧
      t.hart.csr = { s.hart.csr with
        vstart := 0
        vxstat := s.hart.csr.vxstat |||
          ((((List.range (vlen s / n)).filter fun b => decide (b0 ≤ b) && !(blockActive s m b).isEmpty).foldl
            (fun f b => f ||| (q b).2.2) 0).zeroExtend 6)
        rndstate := rndAfter s rm (activeBlocks s m b0 (vlen s / n)).length } ∧
      (∀ v, (vreg t v).win = (vreg s v).win) ∧ t.hart.regs = s.hart.regs ∧ t.hart.replies = s.hart.replies ∧
      t.hart.mregs = s.hart.mregs ∧ VectorFrame s t 4 ∧ SameMemoryOffRows s t

namespace Sys2Proof.Claims

/-- The active elements of a reduction as integers. -/
def reducedInts (s : State) (va : Reg) (m : Reg3) (ty : ElemTy) : List Int :=
  (maskedOf s m).map fun i => byType ty (elem s va (tyWidth ty) i)

/-- gb as the initial value of an integer reduction: 64 bits, signed by type. -/
def initialInt (s : State) (b : Reg) (ty : ElemTy) : Int :=
  if tyIsSigned ty then (gval s b).toInt else (gval s b).toNat

/-- A float element widened to FP32, with NV for a signalling NaN. -/
def widened (ty : ElemTy) (x : Nat) : FVal × Flags :=
  let v := (tyFmt ty).decode x
  (fmtF32.decode (widenBits fmtF32 v), snanFlag [v])

/-- One addition in FP32 under `vtype`'s rounding. -/
def added (s : State) (rm : Rm) (x y : FVal × Flags) : FVal × Flags :=
  let r := FVal.add rm x.1 y.1
  let b := roundTo fmtF32 (satOf s) rm 0 r.1
  (fmtF32.decode b.1, x.2 ||| y.2 ||| r.2 ||| b.2)

/-- The result of a float reduction: FP32 bits, and its flags. -/
def FloatReduced (s t : State) (d : Reg) (r : FVal × Flags) (l : LeaseSet) : Prop :=
  ScalarResult s t d { val := BitVec.ofNat 64 (widenBits fmtF32 r.1), tag := 0, lease := l } (finished s (r.2.zeroExtend 6))

end Sys2Proof.Claims

/-- R217 to R219 and R239: the reductions of the elements that the mask selects with the initial value of gb: the integer sum,
greatest and least at 64 bits; the float sum by the fixed tree and in element order (the sign of an exactly zero sum under RDN
is log 42), the greatest value. Another type class raises cause 33. -/
def Obligations.Reductions : Prop :=
  ∀ (s : State) (d va b : Reg) (m : Reg3) (ty : ElemTy) (rm : Rm), TypeIs s ty rm → rm ≠ .sr →
    let w := tyWidth ty
    let l := bothLeases (bothLeases (vreg s va).lease (gpr s b).lease) (leaseOfMask s m)
    let wide := if tyIsSigned ty then ElemTy.i64 else .n64
    let xs := reducedInts s va m ty
    let init := initialInt s b ty
    (Sources s [(va, w)] →
      (tyIsInt ty = true →
        (let r := fitted (satOf s) wide (xs.foldl (· + ·) init)
          ∃ t, exec (.vredsum d va b m) s = .next t ∧
            ScalarResult s t d { val := BitVec.ofNat 64 r.1, tag := 0, lease := l } (finished s (if r.2 then 32 else 0))) ∧
        (∃ t, exec (.vredmax d va b m) s = .next t ∧
          ScalarResult s t d { val := BitVec.ofInt 64 (xs.foldl max init), tag := 0, lease := l } (finished s 0)) ∧
        ∃ t, exec (.vredmin d va b m) s = .next t ∧
          ScalarResult s t d { val := BitVec.ofInt 64 (xs.foldl min init), tag := 0, lease := l } (finished s 0)) ∧
      (tyIsAnyFloat ty = true →
        let fs := (maskedOf s m).map fun i => widened ty (elem s va w i)
        let x0 := fmtF32.decode ((gval s b).toNat % 2 ^ 32)
        let start := (x0, snanFlag [x0])
        (∃ t, exec (.vfredosum d va b m) s = .next t ∧ FloatReduced s t d (fs.foldl (added s rm) start) l) ∧
        (∃ t, exec (.vfredmax d va b m) s = .next t ∧
          FloatReduced s t d (fs.foldl (fun a x => (FVal.minMax true a.1 x.1, a.2 ||| x.2)) start) l) ∧
        ∀ r, r = leafTree (added s rm)
            ((List.range (vlen s)).map fun i => if maskBit s m i then some (widened ty (elem s va w i)) else none) →
          ∃ t, exec (.vfredsum d va b m) s = .next t ∧
            FloatReduced s t d (match r with | some x => added s rm start x | none => start) l)) ∧
    (Awake s →
      (tyIsInt ty = false → ∀ i ∈ [Instr.vredsum d va b m, .vredmax d va b m, .vredmin d va b m],
        ∃ t, exec i s = .next t ∧ Trapped s t false 33 (s.hart.csr.vtype.zeroExtend 64)) ∧
      (tyIsAnyFloat ty = false → ∀ i ∈ [Instr.vfredsum d va b m, .vfredosum d va b m, .vfredmax d va b m],
        ∃ t, exec i s = .next t ∧ Trapped s t false 33 (s.hart.csr.vtype.zeroExtend 64)))

/-! ### Vector loads, stores and atomics (R74, R130, R159 to R166, R181) -/

namespace Sys2Proof.Claims

/-- R160: the memory format of a type under a memory width. -/
def memFormat (ty : ElemTy) (mw : MemW) : Option ElemTy :=
  match mw, ty with
  | .x1, _ => some ty
  | .x2, .i16 => some .i8 | .x2, .i32 => some .i16 | .x2, .i64 => some .i32
  | .x2, .n16 => some .n8 | .x2, .n32 => some .n16 | .x2, .n64 => some .n32
  | .x2, .f32 => some .bf16 | .x2, .bf16 => some .e4m3 | .x2, .f16 => some .e5m2
  | .x4, .i32 => some .i8 | .x4, .i64 => some .i16 | .x4, .n32 => some .n8 | .x4, .n64 => some .n16
  | .x4, .f32 => some .e4m3
  | _, _ => none

/-- Bytes of a memory element: an `f4b` element lies in a byte. -/
def memBytes (mt : ElemTy) : Nat := if mt = .f4b then 1 else tyWidth mt / 8

/-- R162: the address of field `f` of element `i`, of `n` fields. In a replica the access reaches `replicaAddr` of it (R167). -/
def elementAddr (s : State) (k : XKind) (a : Reg) (mt : ElemTy) (w n i f : Nat) : Nat :=
  let off : Word := match k with
    | .unit => BitVec.ofNat 64 (if mt = .f4b then i / 2 else i * memBytes mt)
    | .strided b => BitVec.ofNat 64 i * gval s b
    | .indexed vb => BitVec.ofInt 64 (toSigned w (elem s vb w i))
    | .segment => BitVec.ofNat 64 ((i * n + f) * memBytes mt)
  (gval s a + off).toNat

/-- The field registers: vd, or vd to vd + nf of a segment instruction. -/
def fieldsFrom (vd : Reg) (n : Nat) : List Reg := (List.range n).map fun f => vd + BitVec.ofNat 5 f

/-- The transfers with an address form and their number of fields: loads, and stores. -/
def loadsOf (vd a b : Reg) (nf m : Reg3) (mw : MemW) : List (Instr × XKind × Nat) :=
  [(.vld vd a m mw, .unit, 1), (.vlds vd a b m mw, .strided b, 1), (.vldx vd a b m mw, .indexed b, 1),
    (.vlseg vd a nf m mw, .segment, nf.toNat + 1)]
def storesOf (vd a b : Reg) (nf m : Reg3) (mw : MemW) : List (Instr × XKind × Nat) :=
  [(.vst vd a m mw, .unit, 1), (.vsts vd a b m mw, .strided b, 1), (.vstx vd a b m mw, .indexed b, 1),
    (.vsseg vd a nf m mw, .segment, nf.toNat + 1)]

/-- The register that holds the offsets of an indexed transfer. -/
def offsetReg (k : XKind) : List Reg :=
  match k with
  | .indexed vb => [vb]
  | .unit | .strided _ | .segment => []

/-- The registers of a transfer of `n` fields pass the checks at issue; offsets are not poisoned; it runs in one step and has
not begun. -/
structure XferRegs (s : State) (k : XKind) (vd : Reg) (n w : Nat) : Prop where
  oneStep : AtOnce s
  fresh : s.hart.inProgress = none ∧ s.hart.fromZero = false ∧ s.hart.probed = none ∧ s.hart.offsets = [] ∧ s.hart.wrote = []
  fields : 1 ≤ n ∧ vd.toNat + n ≤ 32 ∧ (k = .segment → 2 ≤ n ∧ n ≤ 8)
  fits : ∀ v ∈ fieldsFrom vd n ++ offsetReg k, Fits s (vreg s v).win w (vlen s)
  apart : ∀ f g, f < g → g < n →
    RowsApart (vreg s (vd + BitVec.ofNat 5 f)).win (vreg s (vd + BitVec.ofNat 5 g)).win
  unbound : ∀ b ∈ s.hart.streams, b.reg ∉ fieldsFrom vd n ++ offsetReg k
  offsets : ∀ v ∈ offsetReg k, ∀ i, i < vlen s → elemPoisoned s (vreg s v).win.base.toNat w i = false

/-- An element's access of `n` bytes at `x` is admitted: R72 with the local rule of R167, what follows it, nothing to wait for,
described. -/
structure ElementReady (s : State) (k : Acc) (a : Reg) (x n : Nat) : Prop where
  checks : checkVector s k (gpr s a).tag x n n = .ok ()
  ready : (if k.writes then mustWait s true (replicaAddr s x) n else readWaits s (replicaAddr s x) n) = false
  watermarks : k ≠ .store → ∀ i, i < 16 → heldBy s (replicaAddr s x) n i = false
  described : undescribed k.writes x n = false

/-- R160: a memory element at the register's width. -/
def widenedElem (mt ty : ElemTy) (x : Nat) : Nat :=
  if mt = ty then x
  else if tyIsInt ty then (byType mt x % 2 ^ tyWidth ty).toNat
  else widenBits (tyFmt ty) ((tyFmt mt).decode x)

/-- The memory element of index `i` at `x`. -/
def memoryElem (s : State) (mt : ElemTy) (i x : Nat) : Nat :=
  if mt = .f4b then (readByte s x).toNat / 16 ^ (i % 2) % 16 else numberAt s x (memBytes mt)

/-- A lease set when the next load takes its ID (R130). -/
def reusedLease (s : State) (l : LeaseSet) : LeaseSet :=
  let id := s.hart.leaseNext.toNat
  if l.ids.getLsbD id then { ids := l.ids &&& ~~~(1#16 <<< id), sat := true } else l

/-- The lease sets of a transfer's address operands. -/
def addressLease (s : State) (k : XKind) (a : Reg) : LeaseSet :=
  let l := reusedLease s (gpr s a).lease
  match k with
  | .strided b => bothLeases l (reusedLease s (gpr s b).lease)
  | .indexed vb => bothLeases l (reusedLease s (vreg s vb).lease)
  | .unit | .segment => l

/-- A set with the ID of the hart's next load. -/
def withNextId (s : State) (l : LeaseSet) : LeaseSet := { l with ids := l.ids ||| (1#16 <<< s.hart.leaseNext.toNat) }

/-- What a load leaves besides its destinations: values and tags of the general registers, the bits of the masks, the windows,
the next ID, everything else of the hart and of the machine. -/
structure LoadFrame (s t : State) (csr : Csrs) : Prop where
  regs : ∀ r, gval t r = gval s r ∧ (gpr t r).tag = (gpr s r).tag
  windows : ∀ v, (vreg t v).win = (vreg s v).win
  scales : ∀ k, (kreg t k).win = (kreg s k).win
  masks : ∀ m, (mreg t m).bits = (mreg s m).bits
  id : t.hart.leaseNext = s.hart.leaseNext + 1
  csr : t.hart.csr = csr
  frame : t = { s with hart := { s.hart with
    regs := t.hart.regs, rows := t.hart.rows, rowPoison := t.hart.rowPoison, vregs := t.hart.vregs, kregs := t.hart.kregs
    mregs := t.hart.mregs, accLease := t.hart.accLease, par := t.hart.par, front := t.hart.front, replies := t.hart.replies
    leaseNext := t.hart.leaseNext, csr := t.hart.csr, fed := false, stalled := [], bound := none, retry := none, waitNs := 0
    inProgress := none, fromZero := false, held := false, current := none, issued := 0, headed := false, probed := none, offsets := [], wrote := []
    pc := s.hart.pc + 4 } }
  memory : SameMemoryOffRows s t

end Sys2Proof.Claims

/-- R130, R160, R162, R163: every vector load whose active elements are admitted completes: each field register holds the
widened memory elements at its active indexes and is undisturbed elsewhere; it takes one lease ID, which reaches the other
registers whose windows hold a written row (R52; that a load of no element leaves the sets is log 38); memory is unchanged. A
type and width without a format raises cause 33, a unit-stride load whose first element fails a check the cause of that check
with `vstart` at the element. It rests on the model's choices of log 21 and log 23. -/
def Obligations.VectorLoads : Prop :=
  (∀ (s : State) (vd a b : Reg) (nf m : Reg3) (mw : MemW) (ty mt : ElemTy) (rm : Rm), TypeIs s ty rm → rm ≠ .sr →
    memFormat ty mw = some mt →
    ∀ p ∈ loadsOf vd a b nf m mw, (mt = .f4b → p.2.1 = .unit) →
      let w := tyWidth ty
      let n := p.2.2
      let x (i f : Nat) := elementAddr s p.2.1 a mt w n i f
      XferRegs s p.2.1 vd n w →
      (∀ i, isActive s m i = true → ∀ f, f < n → ElementReady s .load a (x i f) (memBytes mt) ∧
        firstPoisoned s (replicaAddr s (x i f)) (memBytes mt) = none) →
      ∃ t, exec p.1 s = .next t ∧ LoadFrame s t (finished s 0) ∧
        (∀ f, f < n →
          let v := vd + BitVec.ofNat 5 f
          (∀ i, i < vlen s → elem t v w i =
            if isActive s m i then widenedElem mt ty (memoryElem s mt i (replicaAddr s (x i f))) else elem s v w i) ∧
          (vreg t v).lease =
            if activeOf s m = [] then reusedLease s (vreg s v).lease
            else if m = 0 ∧ vfirst s = 0 then withNextId s (addressLease s p.2.1 a)
            else bothLeases (reusedLease s (vreg s v).lease) (withNextId s (addressLease s p.2.1 a))) ∧
        (let shares (win : Window) : Prop := ∃ f, f < n ∧
            HoldsWritten s (vreg s (vd + BitVec.ofNat 5 f)).win.base.toNat w
              (fun i => if isActive s m i then some 0 else none) win
          let joined (l : LeaseSet) : LeaseSet := bothLeases (reusedLease s l) (withNextId s (addressLease s p.2.1 a))
          (∀ v ∉ fieldsFrom vd n,
            (shares (vreg s v).win → (vreg t v).lease = joined (vreg s v).lease) ∧
            (¬ shares (vreg s v).win → (vreg t v).lease = reusedLease s (vreg s v).lease)) ∧
          ∀ k : Reg3, (shares (kreg s k).win → (kreg t k).lease = joined (kreg s k).lease) ∧
            (¬ shares (kreg s k).win → (kreg t k).lease = reusedLease s (kreg s k).lease)) ∧
        ∀ k, (∀ f, f < n → ∀ i, isActive s m i = true → ∀ j, j < (w + 7) / 8 →
          k ≠ imageKey s (vreg s (vd + BitVec.ofNat 5 f)).win.base.toNat (i * w / 8 + j)) →
          t.hart.rows.read k = s.hart.rows.read k) ∧
  (∀ (s : State) (vd a b : Reg) (nf m : Reg3) (mw : MemW) (ty : ElemTy) (rm : Rm), TypeIs s ty rm → Awake s →
    nf ≠ 0 → vd.toNat + nf.toNat ≤ 31 → s.hart.inProgress = none →
    (memFormat ty mw = none ∨ rm = .sr) →
    ∀ p ∈ loadsOf vd a b nf m mw, ∃ t, exec p.1 s = .next t ∧
      Entered (takeId s) t false 33 (s.hart.csr.vtype.zeroExtend 64) s.hart.pc) ∧
  ∀ (s : State) (vd a : Reg) (m : Reg3) (ty : ElemTy) (rm : Rm) (e : Exc), TypeIs s ty rm → rm ≠ .sr → Awake s →
    XferRegs s .unit vd 1 (tyWidth ty) → vfirst s < vlen s → maskBit s m (vfirst s) = true →
    checkVector s .load (gpr s a).tag (elementAddr s .unit a ty (tyWidth ty) 1 (vfirst s) 0) (memBytes ty) (memBytes ty) =
      .error e →
    ∃ t, exec (.vld vd a m .x1) s = .next t ∧ Entered (takeId s) t false e.code e.tval s.hart.pc ∧
      t.hart.csr.vstart = s.hart.csr.vstart ∧ t.hart.rows = s.hart.rows

namespace Sys2Proof.Claims

/-- R161: a register element in the memory format: bits, flags, saturation. -/
def narrowedElem (s : State) (ty mt : ElemTy) (rm : Rm) (u x : Nat) : Nat × Flags × Bool :=
  if mt = ty then (x, 0, false)
  else if tyIsInt ty then ((fitted (satOf s) mt (byType ty x)).1, 0, (fitted (satOf s) mt (byType ty x)).2)
  else
    let r := roundTo (tyFmt mt) (satOf s) rm u ((tyFmt ty).decode x)
    (r.1, r.2, false)

/-- The active elements with their fields in the order in which they are stored. -/
def storesInOrder (s : State) (m : Reg3) (n : Nat) : List (Nat × Nat) :=
  (activeOf s m).flatMap fun i => (List.range n).map fun f => (i, f)

/-- The last store of a list that covers address `y`, with the byte of it that does. -/
def lastCover (addr : Nat → Nat → Nat) (bytes y : Nat) (l : List (Nat × Nat)) : Option (Nat × Nat × Nat) :=
  l.foldl (fun c p =>
    match (List.range bytes).find? fun j => canon y == canon (addr p.1 p.2 + j) with
    | some j => some (p.1, p.2, j)
    | none => c) none

/-- What a store leaves: no register, row, mask or window has changed. -/
structure StoreFrame (s t : State) (csr : Csrs) : Prop where
  csr : t.hart.csr = csr
  rows : t.hart.rows = s.hart.rows
  frame : t = { s with
    hart := { s.hart with csr := t.hart.csr, fed := false, stalled := [], bound := none, retry := none, waitNs := 0
                          inProgress := none, fromZero := false, held := false, current := none, issued := 0, headed := false, probed := none
                          offsets := [], wrote := [], pc := s.hart.pc + 4 }
    mem := t.mem, poison := t.poison, fes := t.fes }

end Sys2Proof.Claims

/-- R161, R162, R164, R166: every vector store whose active elements are admitted and go to memory completes: each byte that
an active element's field covers holds that of the last of them, narrowed; every other byte reads as before; an `f4b` element
changes its half of its byte alone. A type and width without a format raises cause 33. It rests on the model's choices of log
20, log 23 and log 49. -/
def Obligations.VectorStores : Prop :=
  (∀ (s : State) (vd a b : Reg) (nf m : Reg3) (mw : MemW) (ty mt : ElemTy) (rm : Rm), TypeIs s ty rm →
    memFormat ty mw = some mt → (rm = .sr → mw ≠ .x1 ∧ tyIsInt ty = false) →
    ∀ p ∈ storesOf vd a b nf m mw, (mt = .f4b → p.2.1 = .unit) →
      let w := tyWidth ty
      let n := p.2.2
      let x (i f : Nat) := replicaAddr s (elementAddr s p.2.1 a mt w n i f)
      let v (i f : Nat) := narrowedElem s ty mt rm (sampleAt s rm (activeBefore s m i * n + f))
        (elem s (vd + BitVec.ofNat 5 f) w i)
      let all := storesInOrder s m n
      XferRegs s p.2.1 vd n w →
      (∀ i, isActive s m i = true → ∀ f, f < n →
        ElementReady s .store a (elementAddr s p.2.1 a mt w n i f) (memBytes mt) ∧ placeOf (x i f) ≠ .device ∧
          elemPoisoned s (vreg s (vd + BitVec.ofNat 5 f)).win.base.toNat w i = false) →
      ∃ t, exec p.1 s = .next t ∧
        StoreFrame s t { s.hart.csr with
          vstart := 0
          vxstat := s.hart.csr.vxstat ||| (all.foldl (fun g q => g ||| (v q.1 q.2).2.1) 0).zeroExtend 6 |||
            if all.any fun q => (v q.1 q.2).2.2 then 32 else 0
          rndstate := rndAfter s rm all.length } ∧
        (mt ≠ .f4b → ∀ y, readByte t y =
          match lastCover x (memBytes mt) y all with
          | some (i, f, j) => BitVec.ofNat 8 ((v i f).1 / 256 ^ j)
          | none => readByte s y) ∧
        (mt = .f4b →
          (∀ i, i < vlen s → (readByte t (x i 0)).toNat / 16 ^ (i % 2) % 16 =
            if isActive s m i then elem s vd w i else (readByte s (x i 0)).toNat / 16 ^ (i % 2) % 16) ∧
          ∀ y, (∀ i, isActive s m i = true → canon y ≠ canon (x i 0)) → readByte t y = readByte s y)) ∧
  ∀ (s : State) (vd a b : Reg) (nf m : Reg3) (mw : MemW) (ty : ElemTy) (rm : Rm), TypeIs s ty rm → Awake s →
    nf ≠ 0 → vd.toNat + nf.toNat ≤ 31 →
    (memFormat ty mw = none ∨ (rm = .sr ∧ (mw = .x1 ∨ tyIsInt ty = true))) →
    ∀ p ∈ storesOf vd a b nf m mw, ∃ t, exec p.1 s = .next t ∧
      Trapped s t false 33 (s.hart.csr.vtype.zeroExtend 64)

namespace Sys2Proof.Claims

/-- R181: the new value from the type, the old value and the operand. -/
def vamoForms : List ((Reg → Reg → Reg → Reg3 → Instr) × (ElemTy → Nat → Nat → Nat)) :=
  [(.vamoAdd, fun t o y => (o + y) % 2 ^ tyWidth t), (.vamoSwap, fun _ _ y => y),
    (.vamoMin, fun t o y => if byType t y < byType t o then y else o),
    (.vamoMax, fun t o y => if byType t o < byType t y then y else o),
    (.vamoAnd, fun _ o y => o &&& y), (.vamoOr, fun _ o y => o ||| y), (.vamoXor, fun _ o y => o ^^^ y)]

/-- The value of the word at `x` when the elements of a list, each at its address, have been applied to it in their order. -/
def afterElements (s : State) (n : Nat) (addr : Nat → Nat) (new : Nat → Nat → Nat) (operand : Nat → Nat) (x : Nat)
    (l : List Nat) : Nat :=
  l.foldl (fun v j => if canon (addr j) = canon x then new v (operand j) else v) (numberAt s x n)

end Sys2Proof.Claims

/-- R181: a vector atomic over 32- and 64-bit integers whose active elements are admitted completes: each active element of vd
receives the value that its word held when the element was performed, in ascending order, and the word the result; nothing
else of memory changes. Another type raises cause 33. It rests on the model's choices of log 23. -/
def Obligations.VectorAtomics : Prop :=
  (∀ p ∈ vamoForms, ∀ (s : State) (vd a vb : Reg) (m : Reg3) (ty : ElemTy) (rm : Rm), TypeIs s ty rm → rm ≠ .sr →
    (ty = .i32 ∨ ty = .n32 ∨ ty = .i64 ∨ ty = .n64) →
    let w := tyWidth ty
    let n := w / 8
    let raw (i : Nat) := elementAddr s (.indexed vb) a ty w 1 i 0
    let x (i : Nat) := replicaAddr s (raw i)
    XferRegs s (.indexed vb) vd 1 w →
    (∀ i, isActive s m i = true → ElementReady s .atomic a (raw i) n ∧ placeOf (x i) ≠ .device ∧
      firstPoisoned s (x i) n = none ∧ elemPoisoned s (vreg s vd).win.base.toNat w i = false) →
    ∃ t, exec (p.1 vd a vb m) s = .next t ∧ t.hart.csr = finished s 0 ∧ t.hart.pc = s.hart.pc + 4 ∧
      t.hart.leaseNext = s.hart.leaseNext + 1 ∧
      (∀ i, i < vlen s → elem t vd w i =
        if isActive s m i then
          afterElements s n x (p.2 ty) (elem s vd w) (x i) ((activeOf s m).filter (· < i))
        else elem s vd w i) ∧
      (∀ i, isActive s m i = true → numberAt t (x i) n =
        afterElements s n x (p.2 ty) (elem s vd w) (x i) (activeOf s m)) ∧
      (∀ y, placeOf y ≠ .rows → (∀ i, isActive s m i = true → ∀ j, j < n → canon y ≠ canon (x i + j)) →
        readByte t y = readByte s y) ∧
      (∀ r, gval t r = gval s r ∧ (gpr t r).tag = (gpr s r).tag) ∧ (∀ v, (vreg t v).win = (vreg s v).win) ∧
      ∀ k, (mreg t k).bits = (mreg s k).bits) ∧
  ∀ p ∈ vamoForms, ∀ (s : State) (vd a vb : Reg) (m : Reg3) (ty : ElemTy) (rm : Rm), TypeIs s ty rm → Awake s →
    s.hart.inProgress = none → ¬ (ty = .i32 ∨ ty = .n32 ∨ ty = .i64 ∨ ty = .n64) →
    ∃ t, exec (p.1 vd a vb m) s = .next t ∧
      Entered (takeId s) t false 33 (s.hart.csr.vtype.zeroExtend 64) s.hart.pc

/-! ### Gangs, watermarks, accumulation windows (R30, R182 to R196) -/

namespace Sys2Proof.Claims

/-- The live members of a gang. -/
def membersOf (s : State) (g : Gang) : List Nat :=
  ((contexts s).filter fun h => h.gangStack == g.stack && h.gang == g.num && h.phase.live).map (·.cid)

/-- The members that do not count in the open generation yet: those that joined since it opened (R184), unless they are all that is
left: then the next one has opened. -/
def lateNow (s : State) (g : Gang) : List Nat :=
  if (membersOf s g).all g.barrier.late.contains then [] else g.barrier.late

/-- The contexts that count in the open generation of a gang (R184, R186). -/
def generation (s : State) (g : Gang) : List Nat := (membersOf s g).filter fun c => !(lateNow s g).contains c

/-- Every other member that counts has arrived. -/
def LastToArrive (s : State) (g : Gang) : Prop :=
  g.barrier.broken = false ∧ s.hart.cid ∈ generation s g ∧
    ∀ c ∈ generation s g, c ≠ s.hart.cid → c ∈ g.barrier.arrived

/-- The hart `h` as it parks in `s`: its wait is timed from now on, and a pending stop takes effect (R36, R76, R182). -/
def parkedIn (s : State) (h : Hart) (w : Wait) : Hart :=
  { h with
    phase := .parked, wait := w, waitSince := timeNs s, stalled := []
    stopped := h.stopped || h.stopPending, stopPending := false
    queue := if h.stopPending then (settled s h).queue else h.queue
    par := if h.stopPending then (settled s h).par else h.par }

/-- The state in which the destination of an instruction, if it has one, is marked as busy, with no group written (R53). -/
def markedBusy (s : State) : Option Reg → State
  | none => s
  | some d => setVreg s d { vreg s d with busy := true, groups := 0 }

/-- A hart that comes to the barrier too early parks, its destination busy, and its arrival is noted (where only members are left that
count from the next generation on, that one has opened, R184); a hart that belongs to a
broken generation raises cause 48 with its `gangid`, and owes nothing any more. -/
def MeetsBarrier (s : State) (i : Instr) (w : Wait) (v : Option Reg) : Prop :=
  let u := markedBusy s v
  ∀ g, gangOf s s.hart.gangStack s.hart.gang = some g →
    (s.hart.cid ∉ g.barrier.owed →
      (g.barrier.broken = true ∨ ∃ c ∈ generation s g, c ≠ s.hart.cid ∧ c ∉ g.barrier.arrived) →
      ∃ t, exec i s = .next t ∧ SameMemory s t ∧ t.others = s.others ∧ t.saved = s.saved ∧
        t.hart = parkedIn s u.hart w ∧
        ∃ a, gangOf t s.hart.gangStack s.hart.gang = some { g with barrier := { g.barrier with
            arrived := a, late := lateNow s g } } ∧
          ∀ c, c ∈ a ↔ c = s.hart.cid ∨ c ∈ g.barrier.arrived) ∧
    (s.hart.cid ∈ g.barrier.owed → g.barrier.arrived = [] → Awake s →
      ∃ t, exec i s = .next t ∧ Trapped u t false 48 (BitVec.ofNat 64 (gangIdOf s s.hart)) ∧
        ∃ g', gangOf t s.hart.gangStack s.hart.gang = some g' ∧ ∀ c, c ∈ g'.barrier.owed ↔ c ∈ g.barrier.owed ∧ c ≠ s.hart.cid)

/-- A parked member goes on behind its `gbar`. -/
def releasedFrom (h : Hart) : Hart :=
  { h with phase := if h.phase = .parked then .launched else h.phase, wait := .none, current := none, pc := h.pc + 4 }

/-- What a member contributes to element `i` of a gang reduction, if its mask has it. -/
def contribution (s : State) (w i : Nat) (h : Hart) : Option Nat :=
  match h.wait with
  | .vsred _ va m => if maskBit { s with hart := h } m i then some (elem { s with hart := h } va w i) else none
  | _ => none

/-- R187: integers sum exactly and are fitted to the type; floats sum in FP32 in the fixed pairwise tree, masked-off ones as −0,
rounded at the end. -/
def gangSum (s : State) (ty : ElemTy) (rm : Rm) (l : List (Option Nat)) : Nat × Flags × Bool :=
  if tyIsInt ty then
    let r := fitted (satOf s) ty ((l.map fun x => (x.map (byType ty)).getD 0).foldl (· + ·) 0)
    (r.1, 0, r.2)
  else
    let x := treeSum (satOf s) (l.map fun x => (x.map (tyFmt ty).decode).getD (.fin true 0 0))
    let r := roundTo (tyFmt ty) (satOf s) (if ty = .f32 then .rne else rm) 0 x.1
    (r.1, x.2 ||| r.2, false)

/-- The contributions in member order, the current hart's wait being its `vsred`. -/
def contributions (s : State) (g : Gang) (vd va : Reg) (m : Reg3) (w i : Nat) : List (Option Nat) :=
  let u := { s with hart := { s.hart with wait := .vsred vd va m } }
  ((gangMembers u g.stack g.num).filter fun h => (generation s g).contains h.cid).map (contribution u w i)

end Sys2Proof.Claims

/-- R30, R36, R183 and R187: a hart whose earlier accesses have not performed parks, and arrives when they have; the last
member to arrive at `gbar` releases every member of the generation, and it alone is changed by it; the last to arrive at
`vsred`, over equal `vl` and `vtype`, gives each member the sum of all members' elements in its own destination; earlier
arrivals park, with the destination busy; members of a broken generation raise cause 48. A type that `vsred` does not have
raises cause 33. It rests on the model's choices of log 15 and log 16. -/
def Obligations.GangBarriers : Prop :=
  (∀ s : State, quiet s = false →
    (∃ t, exec .gbar s = .next t ∧ t = { s with hart := parkedIn s s.hart .gbar } ∧ SameMemory s t) ∧
    ∀ u : State, u = { s with hart := parkedIn s s.hart .gbar } → reachBarrier u = u) ∧
  (∀ (s u : State) (g : Gang), quiet s = true → gangOf s s.hart.gangStack s.hart.gang = some g →
    s.hart.cid ∉ g.barrier.owed → s.hart.cid ∉ g.barrier.arrived → u = { s with hart := parkedIn s s.hart .gbar } →
    exec .gbar s = .next (reachBarrier u)) ∧
  (∀ s : State, quiet s = true → s.hart.phase = .launched →
    MeetsBarrier s .gbar .gbar none ∧
    (gangOf s s.hart.gangStack s.hart.gang = none →
      ∃ t, exec .gbar s = .next t ∧ t = { s with hart := releasedFrom s.hart } ∧ SameMemory s t) ∧
    ∀ g, gangOf s s.hart.gangStack s.hart.gang = some g → s.hart.cid ∉ g.barrier.owed → LastToArrive s g →
      (∀ h ∈ s.others ++ s.saved, h.cid ∈ generation s g → h.wait = .gbar) →
      ∃ t, exec .gbar s = .next t ∧ SameMemory s t ∧
        t.hart = releasedFrom (parkedIn s s.hart .gbar) ∧
        t.others = (s.others.map fun h => if (generation s g).contains h.cid then releasedFrom h else h) ∧
        t.saved = (s.saved.map fun h => if (generation s g).contains h.cid then releasedFrom h else h) ∧
        (∃ a, gangOf t s.hart.gangStack s.hart.gang = some { g with barrier := { arrived := a } } ∧
          ∀ c, c ∈ a ↔ c ∈ g.barrier.arrived ∧ c ∉ generation s g ∧ c ≠ s.hart.cid) ∧
        t = { s with hart := t.hart, others := t.others, saved := t.saved, gangs := t.gangs }) ∧
  (∀ (s : State) (vd va : Reg) (m : Reg3) (ty : ElemTy) (rm : Rm), TypeIs s ty rm → rm ≠ .sr →
    ty ∈ [ElemTy.f32, .bf16, .i32, .n32, .i64, .n64] → quiet s = true → s.hart.phase = .launched →
    let w := tyWidth ty
    Operands s vd w [(va, w)] true →
    MeetsBarrier s (.vsred vd va m) (.vsred vd va m) (some vd) ∧
    ∀ g, gangOf s s.hart.gangStack s.hart.gang = some g → s.hart.cid ∉ g.barrier.owed → LastToArrive s g →
      (∀ h ∈ s.others ++ s.saved, h.cid ∈ generation s g →
        (∃ a b c, h.wait = .vsred a b c) ∧ h.csr.vl = s.hart.csr.vl ∧ h.csr.vtype = s.hart.csr.vtype) →
      let r (i : Nat) := gangSum s ty rm (contributions s g vd va m w i)
      ∃ t, exec (.vsred vd va m) s = .next t ∧ t.hart.phase = .launched ∧ t.hart.wait = .none ∧
        (∀ i, i < vlen s → elem t vd w i = (r i).1) ∧ t.hart.pc = s.hart.pc + 4 ∧
        t.hart.csr = finished s (((List.range (vlen s)).foldl (fun f i => f ||| (r i).2.1) 0).zeroExtend 6 |||
          if (List.range (vlen s)).any fun i => (r i).2.2 then 32 else 0) ∧
        (vreg t vd).lease = (if vlen s = 0 then (vreg s vd).lease else bothLeases (vreg s va).lease (leaseOfMask s m)) ∧
        t.hart.regs = s.hart.regs ∧ t.hart.mregs = s.hart.mregs ∧ SameMemoryOffRows s t ∧
        ∀ h ∈ s.others, h.cid ∈ generation s g → h.phase = .parked → ∀ a b c, h.wait = .vsred a b c →
          ∃ k ∈ t.others, k.cid = h.cid ∧ k.phase = .launched ∧ k.pc = h.pc + 4 ∧ k.regs = h.regs ∧
            ∀ i, i < vlen s → elem { t with hart := k } a w i = (r i).1) ∧
  ∀ (s : State) (vd va : Reg) (m : Reg3) (ty : ElemTy) (rm : Rm), TypeIs s ty rm → Awake s →
    (rm = .sr ∨ ty ∉ [ElemTy.f32, .bf16, .i32, .n32, .i64, .n64]) →
    ∃ t, exec (.vsred vd va m) s = .next t ∧ Trapped s t false 33 (s.hart.csr.vtype.zeroExtend 64)

namespace Sys2Proof.Claims

/-- The status of `gjoin` for the gang of a number in a stack (R184); the first row that holds decides. -/
def joinRefusals (s : State) (stack num : Nat) : List (Nat × Bool) :=
  match gangOf s stack num with
  | none => [(2, true)]
  | some g =>
    [(1, g.size == 256), (2, (contexts s).all fun h => !(h.gangStack == stack && h.gang == num && h.phase.live)),
      (3, g.partId != s.hart.partId || stackOf s.hart.slot != stack), (4, decide (1 < (hartGang s).size))]

/-- gd receives a status, with the lease set of ga. -/
def statusResult (s : State) (a : Reg) (n : Nat) : GReg :=
  { val := BitVec.ofNat 64 n, tag := 0, lease := (gpr s a).lease }

end Sys2Proof.Claims

/-- R184 to R186: `gjoin` answers a status, or makes the hart the last member of the gang, which counts from the generation on
that opens next (one that names its own gang of one stays as it is, with status 0: log 51); `gleave` makes the hart a gang of
one under a number that no gang of the stack has, in the retirement set of its old gang, whose later members move down by one.
It rests on the model's choices of log 15 and log 31. -/
def Obligations.GangMembership : Prop :=
  (∀ (s : State) (d a : Reg), quiet s = true → s.hart.lag = false →
    let stack := field (gval s a) 28 4
    let num := field (gval s a) 16 12
    (∀ r, (joinRefusals s stack num).find? (·.2) = some r →
      ∃ t, exec (.gjoin d a) s = .next t ∧ Wrote s t 4 d (statusResult s a r.1)) ∧
    ∀ g, (joinRefusals s stack num).find? (·.2) = none → gangOf s stack num = some g → s.hart.phase = .launched →
      (s.hart.gangStack = stack → s.hart.gang ≠ num) →
      ∃ t g', exec (.gjoin d a) s = .next t ∧ t.hart.gangStack = stack ∧ t.hart.gang = num ∧ t.hart.member = g.size ∧ t.hart.homeGang = num ∧
        gangOf t stack num = some g' ∧ g'.size = g.size + 1 ∧
        (∃ l, g'.barrier = { g.barrier with late := l } ∧ ∀ c, c ∈ l ↔ c = s.hart.cid ∨ c ∈ g.barrier.late) ∧
        gpr t d = (if d = 0 then {} else statusResult s a 0) ∧ (∀ r, r ≠ d → gpr t r = gpr s r) ∧
        t.hart.pc = s.hart.pc + 4 ∧ t.hart.csr = s.hart.csr ∧ t.mem = s.mem ∧ t.fes = s.fes ∧ t.hart.rows = s.hart.rows) ∧
  (∀ (s : State) (d a : Reg), quiet s = true → s.hart.lag = false → s.hart.gangStack = field (gval s a) 28 4 →
    s.hart.gang = field (gval s a) 16 12 → (joinRefusals s s.hart.gangStack s.hart.gang).find? (·.2) = none →
    ∃ t, exec (.gjoin d a) s = .next t ∧ Wrote s t 4 d (statusResult s a 0)) ∧
  ∀ s : State, quiet s = true → s.hart.phase = .launched → ∀ g, gangOf s s.hart.gangStack s.hart.gang = some g →
    (g.size ≤ 1 → ∃ t, exec .gleave s = .next t ∧ Moved s t 4) ∧
    (1 < g.size → (∀ h ∈ s.others ++ s.saved, h.cid ≠ s.hart.cid) →
      ∃ t own g', exec .gleave s = .next t ∧ (∀ x ∈ s.gangs, x.stack = g.stack → x.num ≠ t.hart.gang) ∧
        t.hart = { s.hart with gang := t.hart.gang, member := 0, pc := s.hart.pc + 4 } ∧
        gangOf t g.stack t.hart.gang = some own ∧ own.size = 1 ∧ own.barrier = {} ∧
        gangOf t g.stack g.num = some g' ∧ g'.size = g.size - 1 ∧
        (∀ h ∈ s.others, h.gangStack = g.stack → h.gang = g.num →
          ∃ k ∈ t.others, k.cid = h.cid ∧ k.gang = h.gang ∧
            k.member = if s.hart.member < h.member then h.member - 1 else h.member) ∧
        t.mem = s.mem ∧ t.fes = s.fes)

namespace Sys2Proof.Claims

/-- The time that the hart has been parked in the `vwait` at its pc, which a queue that dispatched it has counted (R182). -/
def waitedBefore (s : State) : Nat :=
  match s.hart.queue with
  | q :: _ =>
    if q.pc = s.hart.pc then q.waitNs + (if s.hart.stopped = false ∧ s.hart.phase ≠ .preempted then timeNs s - q.waitSince else 0)
    else s.hart.waitNs
  | [] => s.hart.waitNs

/-- The hart parks in the `vwait` at its pc. -/
def inVwait (s : State) (a b : Reg) : State :=
  { s with hart := parkedIn s { s.hart with waitNs := waitedBefore s } (.vwait a b) }

/-- A load or atomic with offsets in a register. -/
def hasOffsets : Instr → Bool
  | .vldx .. | .vamoAdd .. | .vamoSwap .. | .vamoMin .. | .vamoMax .. | .vamoAnd .. | .vamoOr .. | .vamoXor .. => true
  | _ => false

/-- The state with the lease IDs taken that a group has which a watermark holds back (R140): one that has issued has taken its own;
a chunk that is to be read takes one, and with it the load or atomic takes its own that waits for its offsets. -/
def idsTaken (s : State) : State :=
  if s.hart.inProgress.isSome then s
  else if (s.hart.current.map fun x => hasOffsets x.2) = some true then takeId (takeId s)
  else takeId s

/-- The bindings that hold for the instruction at the pc: those at its issue (R194). -/
def bindingsFor (s : State) : Vector Word 16 := s.hart.bound.getD s.hart.csr.wm

end Sys2Proof.Claims

/-- R182, R193 to R196: `vwait` completes when the counter has reached the value and parks until then, and so it does while a
merge of the hart is still to be applied or a fence holds it back, and while a move has stopped the hart; a parked one
completes when it is woken and has, and raises cause 47 with the address after 2^30 ns; `wmset`, `wmclr` write a binding;
`wmpub` raises the index of the bound object, never lowers it, and is clamped or raises cause 51 where the object lies at
system scope and the virtual device does not reach so far; a group that a binding holds back past that binding's timeout, as
it stood when the group's instruction issued, raises cause 46, and its lease IDs have been taken (R140). It rests on the
model's choices of log 16. -/
def Obligations.WatermarkWaits : Prop :=
  (∀ (s : State) (a b : Reg) (x : Nat), x = (gval s a).toNat → s.hart.phase = .launched → WaitReady s a x 8 →
    gated s (s.nextId + 1) = false →
    (s.hart.stopped = true → ∃ t, exec (.vwait a b) s = .next t ∧ SameMemory s t ∧ t = inVwait s a b) ∧
    (∀ u, u = { s with hart := { s.hart with phase := .parked, wait := .vwait a b, stopped := false } } →
      ((∃ m ∈ s.merges, m.cid = s.hart.cid) ∨ vectorFenced s = true →
        (∃ t, exec (.vwait a b) s = .next t ∧ SameMemory s t ∧ t = inVwait s a b) ∧
        exec (.vwaitWake s.hart.cid) u = .next u) ∧
      ((∀ m ∈ s.merges, m.cid ≠ s.hart.cid) → vectorFenced s = false →
      ((gval s b).toNat ≤ numberAt s x 8 →
        (s.hart.stopped = false → ∃ t, exec (.vwait a b) s = .next t ∧ SameMemory s t ∧
          t = { s with hart := { s.hart with wait := .none, waitNs := 0, pc := s.hart.pc + 4 } }) ∧
        ∃ t, exec (.vwaitWake s.hart.cid) u = .next t ∧ SameMemory u t ∧
          t = { u with hart := { u.hart with phase := .launched, wait := .none, waitNs := 0, pc := u.hart.pc + 4 } }) ∧
      (numberAt s x 8 < (gval s b).toNat →
        (∃ t, exec (.vwait a b) s = .next t ∧ SameMemory s t ∧ t = inVwait s a b) ∧
        exec (.vwaitWake s.hart.cid) u = .next u)))) ∧
  (∀ (s : State) (a b : Reg), s.hart.phase = .parked → s.hart.wait = .vwait a b → s.hart.stopped = false → Awake s →
    2 ^ 30 ≤ s.hart.waitNs + (timeNs s - s.hart.waitSince) →
    ∃ t, exec (.vwaitTimeout s.hart.cid) s = .next t ∧ Entered s t false 47 (gval s a) s.hart.pc) ∧
  (∀ (s : State) (n : BitVec 4) (a : Reg),
    (gval s a ≠ 0 → wmOk s (gval s a) = true →
      ∃ t, exec (.wmset n a) s = .next t ∧ CsrStored s t fun c => { c with wm := c.wm.set n.toNat (gval s a) n.isLt }) ∧
    ((gval s a = 0 ∨ wmOk s (gval s a) = false) → Awake s →
      ∃ t, exec (.wmset n a) s = .next t ∧ Trapped s t false 4 (instrBits (.wmset n a))) ∧
    (∃ t, exec (.wmclr n) s = .next t ∧ CsrStored s t fun c => { c with wm := c.wm.set n.toNat 0 n.isLt }) ∧
    let v := s.hart.csr.wm[n.toNat]
    (∀ m, bit v 0 = true → s.marks.find? (markKey v.toNat) = some m →
      ((gval s a).toNat * m.esize ≤ m.length → quiet s = true →
        ((placeOf m.base).isSystem = false ∨ scopeLimited s = false ∨ s.hart.csr.scopepol = false →
          ∃ t, exec (.wmpub n a) s = .next t ∧ SameMemory s t ∧
            t.marks.find? (markKey v.toNat) = some { m with index := max m.index (gval s a).toNat } ∧
            (∀ k, k ≠ markKey v.toNat → t.marks.find? k = s.marks.find? k) ∧
            t = advance 4 { s with
              marks := t.marks
              hart := if (placeOf m.base).isSystem = true ∧ scopeLimited s = true then
                { s.hart with csr := { s.hart.csr with status := s.hart.csr.status ||| 0x200 } } else s.hart }) ∧
        ((placeOf m.base).isSystem = true → scopeLimited s = true → s.hart.csr.scopepol = true → Awake s →
          ∃ t, exec (.wmpub n a) s = .next t ∧ Trapped s t false 51 0)) ∧
      (m.length < (gval s a).toNat * m.esize → Awake s →
        ∃ t, exec (.wmpub n a) s = .next t ∧ Trapped s t false 4 (instrBits (.wmpub n a)))) ∧
    ((bit v 0 = false ∨ s.marks.find? (markKey v.toNat) = none) → Awake s →
      ∃ t, exec (.wmpub n a) s = .next t ∧ Trapped s t false 4 (instrBits (.wmpub n a)))) ∧
  ∀ (s : State) (n : BitVec 4), s.hart.phase = .launched →
    let limit := field (bindingsFor s)[n.toNat] 48 16 * 1000
    let expired := limit ≠ 0 ∧ limit ≤ s.hart.waitNs + (timeNs s - s.hart.waitSince) ∧
      ∃ r ∈ s.hart.stalled, heldBy s r.1 r.2 n.toNat = true
    (expired → s.hart.stopped = false → Awake s →
      ∃ t, exec (.watermarkTimeout s.hart.cid n) s = .next t ∧ Entered (idsTaken s) t false 46 (n.zeroExtend 64) s.hart.pc) ∧
    (¬ expired → exec (.watermarkTimeout s.hart.cid n) s = .next s)

namespace Sys2Proof.Claims

/-- The sum of a memory element and a copy's in a window's type: integers wrap, floats add in FP32 to nearest even, an overflow
clamped if `clamp` says so (R190, R211). -/
def summed (clamp : Bool) (ty : ElemTy) (x y : Nat) : Nat :=
  if tyIsInt ty then (x + y) % 2 ^ tyWidth ty
  else widenBits fmtF32 (fmtF32.decode (roundTo fmtF32 clamp .rne 0 (FVal.add .rne (fmtF32.decode x) (fmtF32.decode y)).1).1)

/-- The types that a window takes (R189). -/
def windowTypes : List ElemTy := [.f32, .i32, .n32, .i64, .n64]

/-- A window that `awdecl` would open meets an open window of its partition over other bytes (R189). -/
def MeetsOther (s : State) (base size : Nat) : Prop :=
  ∃ h ∈ contexts s, h.partId = s.hart.partId ∧ ∃ w ∈ h.accWin, (w.base ≠ base ∨ w.size ≠ size) ∧
    ∃ i, i < size / 256 ∧ inSpan w.base w.size (base + 256 * i) = true

/-- The window that `awdecl` opens, under the next number. -/
def newWindow (s : State) (base size : Nat) (ty : ElemTy) : AccWin :=
  { seq := s.nextId + 1, base := base, size := size, ty := ty, copies := [] }

/-- The size and the other windows allow a window of a hart that has none (R189). -/
def WindowFits (s : State) (base size : Nat) (ty : ElemTy) : Prop :=
  size % 256 = 0 ∧ 256 ≤ size ∧ size ≤ 16384 ∧ s.hart.accWin = none ∧ ¬ MeetsOther s base size ∧
    canPin s (newWindow s base size ty) s.hart.g = true

end Sys2Proof.Claims

/-- R189 to R191: `awdecl` opens an empty window; a store whose elements lie in it adds them to the copy of the lane's slab
and leaves memory alone; `awmerge`, after the hart's earlier accesses to its bytes, closes it and queues its copies; when the
lower contributors are done each slab's copy is added to memory in order. A window that cannot be opened, and a merge of
another address, raise cause 44 (which names ga where no window is open: log 60). It rests on the model's choices of log 5. -/
def Obligations.AccumulationWindows : Prop :=
  (∀ (s : State) (a b : Reg) (ty : ElemTy) (rm : Rm), TypeIs s ty rm → rm ≠ .sr → ty ∈ windowTypes →
    let base := (gval s a).toNat
    let size := (gval s b).toNat
    checkAccess s .store (gpr s a).tag base (max size 1) 256 = .ok () → checkWatch s .store base (max size 1) = .ok () →
    (placeOf base).isDram = true →
    (WindowFits s base size ty → ∃ t, exec (.awdecl a b) s = .next t ∧ SameMemory s t ∧
      t = advance 4 { s with
        nextId := s.nextId + 1, hart := { s.hart with accWin := some (newWindow s base size ty) } }) ∧
    (¬ WindowFits s base size ty → Awake s →
      ∃ t, exec (.awdecl a b) s = .next t ∧ Trapped s t false 44 (gval s a))) ∧
  (∀ (s : State) (vd a : Reg) (m : Reg3) (aw : AccWin) (rm : Rm), TypeIs s aw.ty rm → rm ≠ .sr → aw.ty ∈ windowTypes →
    s.hart.accWin = some aw → aw.size ≤ 16384 →
    let w := tyWidth aw.ty
    let n := w / 8
    let x (i : Nat) := elementAddr s .unit a aw.ty w 1 i 0
    XferRegs s .unit vd 1 w →
    (∀ i, isActive s m i = true → aw.base ≤ x i ∧ x i + n ≤ aw.base + aw.size ∧ placeOf (x i) = placeOf aw.base ∧
      placeOf (x i + n - 1) = placeOf aw.base ∧
      checkVectorAccess s .store (gpr s a).tag (x i) n n = .ok () ∧ checkVectorRest s .store true (x i) n = .ok () ∧
      mustWait s true (x i) n = false ∧ elemPoisoned s (vreg s vd).win.base.toNat w i = false) →
    vfirst s = 0 → (placeOf aw.base).isDram = true →
    (∃ i, isActive s m i = true) →
    ∃ t c, exec (.vst vd a m .x1) s = .next t ∧ SameMemory s t ∧
      t.hart.accWin = some { aw with copies := c } ∧ t.hart.pc = s.hart.pc + 4 ∧ t.hart.regs = s.hart.regs ∧
      t.hart.rows = s.hart.rows ∧ t.hart.csr = { s.hart.csr with vstart := 0, vxstat := t.hart.csr.vxstat } ∧
      (∀ i, isActive s m i = true →
        let k := (slab0 s + i * w / 8 % rowBytes s / 256) * 65536 + (x i - aw.base)
        c.readNat k n = summed (satOf s) aw.ty (aw.copies.readNat k n) (elem s vd w i)) ∧
      ∀ k, (∀ i, isActive s m i = true → ∀ j, j < n →
        k ≠ (slab0 s + i * w / 8 % rowBytes s / 256) * 65536 + (x i - aw.base) + j) → c.read k = aw.copies.read k) ∧
  (∀ (s : State) (a : Reg),
    (∀ w, s.hart.accWin = some w → w.base = (gval s a).toNat → mustWait s true w.base w.size = true →
      exec (.awmerge a) s = .next s) ∧
    (∀ w, s.hart.accWin = some w → w.base = (gval s a).toNat → mustWait s true w.base w.size = false →
      ∃ t m, exec (.awmerge a) s = .next t ∧ SameMemory s t ∧ t.hart = { s.hart with accWin := none, pc := s.hart.pc + 4 } ∧
        t.merges = s.merges ++ [m] ∧ m.cid = s.hart.cid ∧ m.member = s.hart.member ∧ m.win = w ∧ m.sat = satOf s ∧ m.tag = (gpr s a).tag ∧
        t = { s with hart := t.hart, merges := t.merges, nextId := t.nextId }) ∧
    (∀ w, s.hart.accWin = some w → w.base ≠ (gval s a).toNat → Awake s →
      ∃ t, exec (.awmerge a) s = .next t ∧ Trapped s t false 44 (BitVec.ofNat 64 w.base)) ∧
    (s.hart.accWin = none → Awake s → ∃ t, exec (.awmerge a) s = .next t ∧ Trapped s t false 44 (gval s a))) ∧
  ∀ (s : State) (m : Merge) (g : Nat), s.merges.find? (·.seq == m.seq) = some m →
    (∀ c ∈ m.after, contributorDone s c = true) → g = ((contextOf s m.cid).map (·.g)).getD 1 →
    m.win.ty ∈ windowTypes → m.win.base % 256 = 0 → m.win.size ≤ 16384 →
    (∀ i, i < m.win.size → placeOf (m.win.base + i) = placeOf m.win.base) → (placeOf m.win.base).isDram = true →
    let n := tyWidth m.win.ty / 8
    ∃ t, exec (.awmergeApply m.seq) s = .next t ∧ t.merges = s.merges.filter (·.seq != m.seq) ∧
      t.hart.regs = s.hart.regs ∧ t.hart.pc = s.hart.pc ∧ t.fes = s.fes ∧ t.hart.rows = s.hart.rows ∧
      (∀ i, i < m.win.size / n →
        t.mem.readNat (canon (m.win.base + n * i)) n =
          (List.range g).foldl (fun v k => summed m.sat m.win.ty v (m.win.copies.readNat (k * 65536 + n * i) n))
            (s.mem.readNat (canon (m.win.base + n * i)) n)) ∧
      ∀ y, (∀ i, i < m.win.size → y ≠ canon (m.win.base + i)) → t.mem.read y = s.mem.read y

/-! ### Regions, strip loops, streams (R31 to R33, R248 to R267) -/

namespace Sys2Proof.Claims

/-- R253: the loop registers inside a loop of `n` strips whose `vlend` lies at the branch target; the enclosing loop's are kept
aside; without strips the body is passed over. -/
structure LoopEntered (s t : State) (off : BitVec 12) (n : Word) : Prop where
  cur : t.hart.loops.cur = { lpstart := s.hart.pc + 4, lpend := branchTarget s off, lpcount := n, strip := 0 }
  depth : t.hart.loops.depth = s.hart.loops.depth + 1
  stack : t.hart.loops.stack = if s.hart.loops.depth = 0 then s.hart.loops.stack else s.hart.loops.cur :: s.hart.loops.stack
  pending : t.hart.loops.pendStart = none ∧ t.hart.loops.pendEnd = none ∧ t.hart.loops.pendCount = none
  zero : t.hart.loops.zeroTrip = (n == 0)
  pc : t.hart.pc = if n = 0 then branchTarget s off else s.hart.pc + 4
  rest : t = { s with hart := { s.hart with loops := t.hart.loops, pc := t.hart.pc, par := t.hart.par } }
  memory : SameMemory s t

/-- The loop registers after a back-edge, with the writes that were pending (R254, R255). -/
def atBackEdge (l : Loops) : LoopRegs :=
  { lpstart := l.pendStart.getD l.cur.lpstart, lpend := l.pendEnd.getD l.cur.lpend
    lpcount := l.pendCount.getD (l.cur.lpcount - 1), strip := l.cur.strip + 1 }

/-- `t` is `s` behind the end of its innermost loop: the enclosing loop's registers are back; those of the outermost keep
their last values `c`. -/
structure LoopLeft (s t : State) (c : LoopRegs) (next : Word) : Prop where
  cur : t.hart.loops.cur = if 1 < s.hart.loops.depth then s.hart.loops.stack.headD c else c
  rest : t = { s with hart := { s.hart with
    loops := { cur := t.hart.loops.cur, stack := s.hart.loops.stack.tail, depth := s.hart.loops.depth - 1 }, pc := next } }
  memory : SameMemory s t

/-- The instructions that end a loop, with their lengths. -/
def loopEnds : List (Instr × Nat) := [(.vlend, 4), (.cVlend, 2)]

/-- The strips that a parallel loop runs, as a pending count may have cut them (R257). -/
def stripsLeft (s : State) (p : ParLoop) : Nat :=
  match s.hart.loops.pendCount with
  | some c => min p.count (s.hart.loops.cur.strip.toNat + 1 + c.toNat)
  | none => p.count

/-- The registers of the running replica once the scalar results that it waits for are written (R227). -/
def regsAfterReplies (s : State) : Vector GReg 32 := (s.hart.replies.foldl (fun t r => setGpr t r.d r.val) s).hart.regs

/-- The hart goes on as replica `r`, at the instruction that the replica has part-way done if it has one (R32, R34). -/
def asReplica (h : Hart) (p : ParLoop) (r : Replica) : Hart :=
  let f := r.flight
  { h with
    pc := r.pc, regs := r.regs, loops := r.loops, regions := r.regions, par := some { p with active := r.slab }, replies := []
    current := f.current, issued := f.issued, inProgress := f.inProgress, fed := f.fed, fromZero := f.fromZero
    headed := f.headed, probed := f.probed, offsets := f.offsets, wrote := f.wrote, stalled := f.stalled
    bound := f.bound, retry := f.retry, waitNs := f.waitNs, waitSince := f.waitSince, heldFault := f.heldFault, queue := f.queue, front := f.front
    lastSlot := f.lastSlot
    csr := { h.csr with
      rndstate := r.rnd
      vstart := if f.part then f.vstart else if h.inFlight then 0 else h.csr.vstart } }

/-- A pending stop takes effect at a stop point (R76); the accounts of its waits are made up. -/
def stopTaken (s : State) (h : Hart) : Hart :=
  if h.stopPending then { (settled s h) with stopPending := false, stopped := true } else h

end Sys2Proof.Claims

/-- R248 to R257 and R31 to R33: `vregion` opens a region that skips its body when its mask is empty, `vrend` closes it;
`vloop` enters a loop; `vloop.p` makes one replica for each slab; `vlend` goes back or leaves, and a replica's `vlend` starts
its next strip, takes a pending stop and passes the turn (a stepped hart's goes on), or ends it, and the last one joins them.
The limits raise causes 41, 42 and 1. It rests on the model's choices of log 22 and log 54. -/
def Obligations.RegionsAndLoops : Prop :=
  (∀ (s : State) (m : Reg3) (off : BitVec 12),
    (s.hart.regions.length < 8 → ∀ c : Bool, (c = true ↔ ∃ i, i < vlen s ∧ maskBitAt s m i = true) →
      ∃ t, exec (.vregion m off) s = .next t ∧ SameMemory s t ∧
        t = advance 4 { s with hart := { s.hart with regions := { mask := m, skip := !c } :: s.hart.regions } }) ∧
    (8 ≤ s.hart.regions.length → Awake s → ∃ t, exec (.vregion m off) s = .next t ∧ Trapped s t false 41 0) ∧
    (∀ r l, s.hart.regions = r :: l → ∃ t, exec .vrend s = .next t ∧ SameMemory s t ∧
      t = advance 4 { s with hart := { s.hart with regions := l } }) ∧
    (s.hart.regions = [] → Awake s → ∃ t, exec .vrend s = .next t ∧ Trapped s t false 1 0)) ∧
  (∀ (s : State) (a : Reg) (off : BitVec 12),
    let n := gval s a
    let k := min s.hart.g n.toNat
    (s.hart.loops.depth ≠ 4 →
      (∃ t, exec (.vloop a off) s = .next t ∧ LoopEntered s t off n ∧ t.hart.par = s.hart.par) ∧
      (s.hart.g ≤ 1 ∨ s.hart.par ≠ none ∨ n = 0 →
        ∃ t, exec (.vloopP a off) s = .next t ∧ LoopEntered s t off n ∧ t.hart.par = s.hart.par) ∧
      (1 < s.hart.g → s.hart.par = none → n ≠ 0 →
        ∃ t p, exec (.vloopP a off) s = .next t ∧ LoopEntered s t off n ∧ t.hart.par = some p ∧ p.active = 0 ∧
          p.depth = s.hart.loops.depth + 1 ∧ p.count = n.toNat ∧ p.ended = [] ∧ p.rest.length = k - 1 ∧
          ∀ j r, p.rest[j]? = some r → r.slab = j + 1 ∧ r.pc = s.hart.pc + 4 ∧ r.regs = s.hart.regs ∧ r.flight = ({} : Flight) ∧
            r.regions = s.hart.regions ∧
            r.rnd = s.hart.csr.rndstate ∧ r.loops = { t.hart.loops with
              cur := { t.hart.loops.cur with strip := BitVec.ofNat 64 (j + 1) } })) ∧
    (s.hart.loops.depth = 4 → Awake s →
      (∃ t, exec (.vloop a off) s = .next t ∧ Trapped s t false 42 0) ∧
      ∃ t, exec (.vloopP a off) s = .next t ∧ Trapped s t false 42 0)) ∧
  (∀ e ∈ loopEnds, ∀ s : State, (∀ p, s.hart.par = some p → s.hart.loops.depth ≠ p.depth) →
    let l := s.hart.loops
    let next := s.hart.pc + BitVec.ofNat 64 e.2
    (l.depth = 0 → Awake s → ∃ t, exec e.1 s = .next t ∧ Trapped s t false 1 0) ∧
    (l.depth ≠ 0 →
      (l.zeroTrip = true → ∃ t, exec e.1 s = .next t ∧ LoopLeft s t l.cur next) ∧
      (l.zeroTrip = false →
        (s.hart.pc = (atBackEdge l).lpend → (atBackEdge l).lpcount ≠ 0 →
          ∃ t, exec e.1 s = .next t ∧ SameMemory s t ∧
            t = { s with hart := stopTaken s { s.hart with
              loops := { l with cur := atBackEdge l, pendStart := none, pendEnd := none, pendCount := none }
              pc := (atBackEdge l).lpstart } }) ∧
        (s.hart.pc ≠ (atBackEdge l).lpend ∨ (atBackEdge l).lpcount = 0 →
          ∃ t, exec e.1 s = .next t ∧ LoopLeft s t (atBackEdge l) next)))) ∧
  ∀ e ∈ loopEnds, ∀ (s : State) (p : ParLoop), s.hart.par = some p → s.hart.loops.depth = p.depth →
    let l := { s.hart.loops with pendStart := none, pendEnd := none, pendCount := none }
    let strip := l.cur.strip.toNat + s.hart.g
    let again : Replica :=
      { slab := p.active, pc := l.cur.lpstart, regs := regsAfterReplies s, regions := s.hart.regions
        loops := { l with cur := { l.cur with strip := BitVec.ofNat 64 strip } }, rnd := s.hart.csr.rndstate
        flight := s.hart.flight }
    let past : Replica :=
      { slab := p.active, pc := s.hart.pc + BitVec.ofNat 64 e.2, regs := regsAfterReplies s, regions := s.hart.regions
        loops := l, rnd := s.hart.csr.rndstate, flight := s.hart.flight }
    let n := stripsLeft s p
    (strip < n → s.hart.pc = l.cur.lpend → ∀ r rest,
      (if bit s.hart.csr.status 10 then r = again ∧ rest = p.rest else p.rest ++ [again] = r :: rest) →
      ∃ t, exec e.1 s = .next t ∧ SameMemory s t ∧
        t = { s with hart := stopTaken s (asReplica s.hart { p with count := n, rest := rest } r) }) ∧
    (n ≤ strip ∨ s.hart.pc ≠ l.cur.lpend →
      (∀ r rest, p.rest = r :: rest →
        ∃ t, exec e.1 s = .next t ∧ SameMemory s t ∧
          t = { s with hart := asReplica s.hart { p with count := n, rest := rest, ended := p.ended ++ [past] } r }) ∧
      (p.rest = [] → ∀ r, (p.ended ++ [past]).find? (fun r => r.slab == (n - 1) % s.hart.g) = some r →
        ∃ t, exec e.1 s = .next t ∧ t.hart.par = none ∧ t.hart.pc = r.pc ∧ t.hart.regs = r.regs ∧
          t.hart.regions = r.regions ∧ t.hart.stopPending = s.hart.stopPending ∧
          t.hart.csr = { s.hart.csr with rndstate := r.rnd } ∧ t.hart.loops.depth = r.loops.depth - 1 ∧
          (r.loops.depth = 1 → t.hart.loops.cur.strip = BitVec.ofNat 64 n ∧ t.hart.loops.cur.lpcount = 0) ∧
          t.hart.rows = s.hart.rows ∧ t.mem = s.mem))

namespace Sys2Proof.Claims

/-- The record of 64 bytes that ga addresses may be bound to `v` (R262). -/
structure Bindable (s : State) (v a : Reg) : Prop where
  fits : Fits s (vreg s v).win (match ElemTy.ofCode (field s.hart.csr.vtype 0 4) with | some t => tyWidth t | none => 8) (vlen s)
  checks : checkFull s .load (gpr s a).tag (gval s a).toNat 64 1 = .ok ()
  ready : mustWait s false (gval s a).toNat 64 = false
  clean : firstPoisoned s (gval s a).toNat 64 = none
  record : recordOk (readBytes s (gval s a).toNat 64) (rowBytes s * (vreg s v).win.len.toNat) = true
  room : s.hart.streams.length < 8 ∨ ∃ b ∈ s.hart.streams, b.reg = v

/-- The bytes of a list of runs, in order, as the current hart's vector side reads them. -/
def bytesOf (s : State) (runs : List (Word × Nat)) : List Byte :=
  runs.flatMap fun x => (List.range x.2).map fun i => readByte s (replicaAddr s x.1.toNat + i)

end Sys2Proof.Claims

/-- R259 to R264: `vsbind` binds the record at ga in place of an earlier binding of the register (at which width it checks the
window where `vtype` has no type is log 64), `vsunbind` unbinds; the next chunk of a binding, when its bytes are there, lies
in the window from byte 0 on, takes a lease ID and moves the position on; linear records (type 0) name chunk c at base + c ×
chunk bytes; a chunk that may not be read raises its cause, and has taken its lease ID (R140); past the last chunk cause 28 is
raised, and no ID is taken. It rests on the model's choices of log 16. -/
def Obligations.Streams : Prop :=
  (∀ (s : State) (v a : Reg),
    (Bindable s v a → ∃ t, exec (.vsbind v a) s = .next t ∧ SameMemory s t ∧
      t = advance 4 { s with hart := { s.hart with streams := s.hart.streams.filter (·.reg != v) ++
        [{ reg := v, addr := gval s a, tag := (gpr s a).tag, record := readBytes s (gval s a).toNat 64, pos := 0
           lease := (gpr s a).lease }] } }) ∧
    ∃ t, exec (.vsunbind v) s = .next t ∧ SameMemory s t ∧
      t = advance 4 { s with hart := { s.hart with streams := s.hart.streams.filter (·.reg != v) } }) ∧
  ∀ (s : State) (v : Reg) (b : Stream), bindingOf s v = some b →
    (∀ runs, nextChunk s b = .ok runs →
      (recField b.record 0 1 = 0 → runs =
        [(BitVec.ofNat 64 (recField b.record 8 8 + b.pos * recField b.record 4 4),
          min (recField b.record 4 4) (recField b.record 16 8 - b.pos * recField b.record 4 4))]) ∧
      ∃ t, exec (.chunkDelivery v) s = .next t ∧
        (∀ j x, (bytesOf s runs)[j]? = some x → t.hart.rows.read (imageKey s (vreg s v).win.base.toNat j) = x) ∧
        (∀ k, (∀ j, j < (bytesOf s runs).length → k ≠ imageKey s (vreg s v).win.base.toNat j) →
          t.hart.rows.read k = s.hart.rows.read k) ∧
        t.hart.streams = (s.hart.streams.map fun x => if x.reg = v then { x with pos := x.pos + 1 } else x) ∧
        t.hart.leaseNext = s.hart.leaseNext + 1 ∧ (vreg t v).lease = withNextId s b.lease ∧
        t.hart.pc = s.hart.pc ∧ t.hart.csr = s.hart.csr ∧ SameMemoryOffRows s t) ∧
    (∀ x, nextChunk s b = .error (.exc x) → x.code ≠ 28 → Awake s →
      ∃ t, exec (.chunkDelivery v) s = .next t ∧ Entered (takeId s) t false x.code x.tval s.hart.pc ∧
        t.hart.rows = s.hart.rows ∧ t.hart.streams = s.hart.streams) ∧
    (chunkCount b.record ≤ b.pos → Awake s →
      ∃ t, exec (.chunkDelivery v) s = .next t ∧ Trapped s t false 28 b.addr)

/-! ### Spills and fills (R172 to R175) -/

namespace Sys2Proof.Claims

/-- The 64 bytes of the header of a register's image (R172). -/
def imageHeader (s : State) (v : Reg) (j : Nat) : Byte :=
  let n := (vreg s v).win.len.toNat
  match j with
  | 0 => 1
  | 2 => BitVec.ofNat 8 n
  | 3 => BitVec.ofNat 8 (n / 256)
  | 4 => BitVec.ofNat 8 (slabs s)
  | _ => 0

/-- The address of row `r` of the image at ga. -/
def rowAddr (s : State) (a : Reg) (r : Nat) : Nat := (gval s a + BitVec.ofNat 64 (64 + r * rowBytes s)).toNat

/-- The image of `v` at ga is accessed whole, in one step: the window is placed, the header and every row are admitted. -/
structure ImageReady (s : State) (k : Acc) (v a : Reg) : Prop where
  whole : AtOnce s ∧ s.hart.headed = false ∧ vfirst s = 0 ∧ s.hart.inProgress = none ∧ s.hart.fromZero = false
  placed : (vreg s v).win.len ≠ 0
  rows : (vreg s v).win.base.toNat + (vreg s v).win.len.toNat ≤ depthRows s
  header : checkVector s k (gpr s a).tag (gval s a).toNat 64 64 = .ok ()
  checks : ∀ r, r < (vreg s v).win.len.toNat → checkVector s k (gpr s a).tag (rowAddr s a r) (rowBytes s) 1 = .ok ()
  ready : ∀ x n, (x = (gval s a).toNat ∧ n = 64 ∨
      ∃ r, r < (vreg s v).win.len.toNat ∧ x = rowAddr s a r ∧ n = rowBytes s) →
    (if k.writes then mustWait s true (replicaAddr s x) n else readWaits s (replicaAddr s x) n) = false ∧
      (k.writes = false → ∀ i, i < 16 → heldBy s (replicaAddr s x) n i = false) ∧ placeOf x ≠ .device
  /-- the header that is stored is no part of the slot record through which the rows are checked -/
  record : k.writes = true → ∀ i j, i < 64 → j < 32 →
    canon (replicaAddr s (gval s a).toNat + i) ≠ canon (slotAddr s.hart.csr.slotbase (gpr s a).tag + j)

end Sys2Proof.Claims

/-- R172 to R175: `vspill` writes the header and the rows of the register's window, `vfill` reads them back into it with a
lease ID, and raises cause 43 where the header does not match, each image in one step (log 20, 21, 23; the lease set of a fill
that begins later: log 46); `gspill` writes value and tag of a general register in 16 bytes (of rows and scalar data memory
too: log 50), `gfill` restores both, and raises cause 43 where the rest is not zero. It rests on the model's choices of log 4.
-/
def Obligations.SpillsAndFills : Prop :=
  (∀ (s : State) (v a : Reg),
    let n := (vreg s v).win.len.toNat
    let h := replicaAddr s (gval s a).toNat
    let x (r : Nat) := replicaAddr s (rowAddr s a r)
    let key (r b : Nat) := imageKey s ((vreg s v).win.base.toNat + r) b
    (ImageReady s .store v a → ∃ t, exec (.vspill v a) s = .next t ∧ StoreFrame s t { s.hart.csr with vstart := 0 } ∧
      (∀ j, j < 64 → readByte t (h + j) = imageHeader s v j) ∧
      (∀ r b, r < n → b < rowBytes s → readByte t (x r + b) = s.hart.rows.read (key r b)) ∧
      ∀ y, (∀ j, j < 64 → canon y ≠ canon (h + j)) → (∀ r b, r < n → b < rowBytes s → canon y ≠ canon (x r + b)) →
        readByte t y = readByte s y) ∧
    (ImageReady s .load v a → firstPoisoned s h 64 = none → (∀ b ∈ s.hart.streams, b.reg ≠ v) →
      ((∀ j, j < 64 → readByte s (h + j) = imageHeader s v j) →
        ∃ t, exec (.vfill v a) s = .next t ∧ LoadFrame s t { s.hart.csr with vstart := 0 } ∧
          (∀ r b, r < n → b < rowBytes s → t.hart.rows.read (key r b) = readByte s (x r + b)) ∧
          (∀ k, (∀ r b, r < n → b < rowBytes s → k ≠ key r b) → t.hart.rows.read k = s.hart.rows.read k) ∧
          (vreg t v).lease = withNextId s (reusedLease s (gpr s a).lease)) ∧
      ((∃ j, j < 64 ∧ readByte s (h + j) ≠ imageHeader s v j) → Awake s →
        ∃ t, exec (.vfill v a) s = .next t ∧ Entered (takeId s) t false 43 (gval s a) s.hart.pc ∧
          t.hart.rows = s.hart.rows))) ∧
  ∀ (s : State) (d a : Reg) (imm : BitVec 12),
    let x := loadAddr s a imm
    let bs := lowBytes (gval s d) 8 ++ (gpr s d).tag :: List.replicate 7 0
    (Storable s a x 16 bs → ∃ t, exec (.gspill d a imm) s = .next t ∧ Stored s t 4 x bs) ∧
    (Readable s a x 16 → numberAt s (x + 9) 7 = 0 → ∃ t, exec (.gfill d a imm) s = .next t ∧
      Loaded s t 4 d (BitVec.ofNat 64 (numberAt s x 8)) (readByte s (x + 8)) (loadLease s a)) ∧
    (Readable s a x 16 → numberAt s (x + 9) 7 ≠ 0 → Awake s → ∃ t, exec (.gfill d a imm) s = .next t ∧
      Entered (takeId s) t false 43 (BitVec.ofNat 64 x) s.hart.pc)

/-! ### Copies (R310, R315 to R325) -/

namespace Sys2Proof.Claims

/-- Two runs of bytes of system memory share no byte. -/
abbrev Apart (a n b m : Nat) : Prop := ∀ i < n, ∀ j < m, canon (a + i) ≠ canon (b + j)

/-- The pending count of a barrier, its failure mark and the cause recorded on it (R316). -/
def pendingOn (w : Word) : Nat := w.toNat % 2 ^ 48
def causeOn (w : Word) : Nat := w.toNat / 2 ^ 50 % 64

/-- `t` is `s` after its hart has a further copy of `n` bytes in flight on barrier `m`. -/
structure Dispatched (s t : State) (m : Reg3) (n : Nat) (c : Copy) : Prop where
  copies : t.copies = s.copies ++ [c]
  owner : c.cid = s.hart.cid ∧ c.bar = m ∧ c.done = 0 ∧ c.logged = false ∧ c.queued = false
  counted : pendingOn t.hart.csr.cpb[m.toNat] = (pendingOn s.hart.csr.cpb[m.toNat] + n) % 2 ^ 48
  kept : t.hart.csr.cpb[m.toNat].toNat / 2 ^ 48 = s.hart.csr.cpb[m.toNat].toNat / 2 ^ 48
  others : ∀ k : Fin 8, k.val ≠ m.toNat → t.hart.csr.cpb[k] = s.hart.csr.cpb[k]
  entries : t.entries = takeEntries s.entries c
  rest : t = { s with
    hart := { s.hart with csr := { s.hart.csr with cpb := t.hart.csr.cpb }, pc := s.hart.pc + 4 }
    copies := t.copies, entries := t.entries, nextId := t.nextId }
  memory : SameMemory s t

/-- A dispatched copy has nothing to wait for: earlier accesses to its bytes have performed, the interlock tables, joined entries
counted once, and the copy queue have room (R114, R317, R318). -/
abbrev CopyFree (s : State) (c : Copy) : Prop :=
  copyFollows s false c.srcSpan.1 (c.srcSpan.2 - c.srcSpan.1) = false ∧
    copyFollows s true c.dstSpan.1 (c.dstSpan.2 - c.dstSpan.1) = false ∧
    (takeEntries (entriesHere s) c).length ≤ 32 ∧ (copiesHere s).length < 512

/-- The slab of the replica that runs, if one does. -/
def replicaSlab (s : State) : Option Nat := s.hart.par.map (·.active)

/-- No open region discards copies (R250, R315). -/
abbrev NotSkipped (s : State) : Prop := ∀ r ∈ s.hart.regions, r.skip = false

/-- The copy `k` that the instruction at `pc` has been dispatched as, ahead of its turn (R22, R315). -/
def DispatchedAhead (s : State) (k : Nat) : Prop := ∃ q ∈ s.hart.queue.head?, q.pc = s.hart.pc ∧ q.copy = some k

/-- The last copy before the instruction at `pc`: those that the queue holds follow it. -/
def copyBefore (s : State) : Nat := ((s.hart.queue.findSome? (·.copy)).map (· - 1)).getD s.nextId

/-- Bytes left of the current hart's copies on a barrier that came before number `k`. -/
def bytesLeft (s : State) (m : Reg3) (k : Nat) : Nat :=
  ((s.copies.filter fun c => c.cid == s.hart.cid && c.bar == m && decide (c.seq ≤ k)).map fun c =>
    c.rowBytes * c.rows - c.done).foldl (· + ·) 0

/-- A descriptor's field. -/
def wordOf (r : List Byte) (off : Nat) : Word := BitVec.ofNat 64 (recField r off 8)

end Sys2Proof.Claims

/-- R315 to R323: `cpy` of no bytes does nothing; an admitted copy is in flight, counted on its barrier; one that is too long
or whose runs overlap raises cause 29. `cpyx` does the same with the rows of its descriptor, in ascending destination order; a
descriptor outside its limits raises cause 29; in a skipped body a copy whose operands pass is discarded. A copy that has been
dispatched while it stood in the queue leaves the queue at its turn, behind the hart's earlier stores to its bytes. `cpb` goes
on, and holds back the hart's vector accesses behind it (`gated`) while more bytes than it names are left of the copies before
it. It rests on the model's choices of log 11, log 23 and log 48. -/
def Obligations.CopyDispatch : Prop :=
  (∀ (s : State) (d a b : Reg) (m : Reg3) (k : Nat) (c : Copy), DispatchedAhead s k → NotSkipped s →
    s.copies.find? (·.seq == k) = some c →
    let waits := ∃ p ∈ ownPosted s, ∃ r ∈ [c.srcSpan, c.dstSpan], meets p.addr p.data.length r.1 (r.2 - r.1) = true
    ∀ i ∈ [Instr.cpy d a b m, .cpyx a m],
      (waits → exec i s = .next s) ∧
      (¬ waits → ∃ t, exec i s = .next t ∧ SameMemory s t ∧
        t = advance 4 { s with copies := s.copies.map fun x => if x.seq = k then { x with queued := false } else x })) ∧
  (∀ (s : State) (d a b : Reg) (m : Reg3), (∀ k, ¬ DispatchedAhead s k) →
    let n := (gval s b).toNat
    let dst := (gval s d).toNat
    let src := (gval s a).toNat
    (n = 0 → ∃ t, exec (.cpy d a b m) s = .next t ∧ Moved s t 4) ∧
    (n ≠ 0 → n ≤ 2 ^ 32 → (dst + n ≤ src ∨ src + n ≤ dst) →
      checkCopySide s .load (gpr s a).tag src n = .ok () → checkCopySide s .store (gpr s d).tag dst n = .ok () →
      (NotSkipped s → ∀ c : Copy, c = { seq := s.nextId + 1, cid := s.hart.cid, bar := m, dst := gval s d, src := gval s a
                                        dstTag := (gpr s d).tag, srcTag := (gpr s a).tag, rowBytes := n, rows := 1
                                        dstPitch := 0, srcPitch := 0, done := 0, slab := replicaSlab s, logged := false } →
        CopyFree s c → ∃ t, exec (.cpy d a b m) s = .next t ∧ Dispatched s t m n c) ∧
      (¬ NotSkipped s → ∃ t, exec (.cpy d a b m) s = .next t ∧ Moved s t 4)) ∧
    (Awake s →
      (2 ^ 32 < n → ∃ t, exec (.cpy d a b m) s = .next t ∧ Trapped s t false 29 (gval s b)) ∧
      (n ≤ 2 ^ 32 → src < dst + n → dst < src + n → n ≠ 0 →
        ∃ t, exec (.cpy d a b m) s = .next t ∧ Trapped s t false 29 (gval s d)))) ∧
  (∀ (s : State) (a : Reg) (m : Reg3) (r : List Byte), (∀ k, ¬ DispatchedAhead s k) → Readable s a (gval s a).toNat 64 →
    r = readBytes s (gval s a).toNat 64 →
    let rows := recField r 40 4
    let len := recField r 4 4
    let down := decide ((wordOf r 24).toInt < 0)
    let k : Word := if down then BitVec.ofNat 64 (rows - 1) else 0
    (descriptorOk r = true →
      (∀ j, j < rows → checkCopySide s .load 0 (wordOf r 16 + BitVec.ofNat 64 j * wordOf r 32).toNat len = .ok () ∧
        checkCopySide s .store 0 (wordOf r 8 + BitVec.ofNat 64 j * wordOf r 24).toNat len = .ok ()) →
      (NotSkipped s → ∀ c : Copy, c = { seq := s.nextId + 1, cid := s.hart.cid, bar := m
                                        dst := wordOf r 8 + k * wordOf r 24, src := wordOf r 16 + k * wordOf r 32
                                        dstTag := 0, srcTag := 0, rowBytes := len, rows := rows
                                        dstPitch := if down then -wordOf r 24 else wordOf r 24
                                        srcPitch := if down then -wordOf r 32 else wordOf r 32
                                        done := 0, slab := replicaSlab s, logged := false, tag := (gpr s a).tag } →
        CopyFree s c → ∃ t, exec (.cpyx a m) s = .next t ∧ Dispatched s t m (len * rows) c) ∧
      (¬ NotSkipped s → ∃ t, exec (.cpyx a m) s = .next t ∧ Moved s t 4)) ∧
    (descriptorOk r = false → Awake s → ∃ t, exec (.cpyx a m) s = .next t ∧ Trapped s t false 29 (gval s a))) ∧
  ∀ (s : State) (m : Reg3) (b : Reg), ∃ t, exec (.cpb m b) s = .next t ∧ SameMemory s t ∧
    t = advance 4 { s with hart := { s.hart with gates := t.hart.gates } } ∧
    ∀ n, gated t n = true ↔ gated s n = true ∨ (copyBefore s < n ∧ (gval s b).toNat < bytesLeft s m (copyBefore s))

namespace Sys2Proof.Claims

/-- The pieces of a chunk (destination, source, length) each lie in one place, that of their destination no device register; no
piece's source and no other piece's destination shares a byte with a destination. -/
structure ChunkPlaces (l : List (Nat × Nat × Nat)) : Prop where
  places : ∀ x ∈ l, placeOf x.1 ≠ .device ∧ ∀ i, i < x.2.2 → placeOf (x.1 + i) = placeOf x.1
  sources : ∀ x ∈ l, ∀ y ∈ l, Apart x.2.1 x.2.2 y.1 y.2.2
  once : l.Pairwise fun x y => Apart x.1 x.2.2 y.1 y.2.2

end Sys2Proof.Claims

/-- R310, R323, R324 and R325: a chunk of a copy, the bytes of one 256-byte row of its destination, moves, and no other byte,
and lowers the pending count, once the copy has left the queue and no `cpb` before it holds it back, and gives up its
interlock entries with its last byte; of a copy of one row it is the run up to the end of the destination's row; an error of
the far side ends the copy and is recorded on its barrier. `cpwait` waits while a `cpb` before it holds back the copies behind
it, goes on at a count of 0, raises cause 29 with a recorded cause and clears it, and parks otherwise until the count is 0. It
rests on the model's choices of log 11 and log 23. -/
def Obligations.CopyProgress : Prop :=
  (∀ (s : State) (c : Copy), s.hart.phase ≠ .free → s.hart.cid = c.cid → c.logged = false →
    s.copies.find? (·.seq == c.seq) = some c →
    let w := s.hart.csr.cpb[c.bar.toNat]
    let n := (c.chunk.map (·.2.2)).foldl (· + ·) 0
    (c.queued = true ∨ gated s c.seq = true → exec (.copyChunk c.seq) s = .next s) ∧
    (c.queued = false → gated s c.seq = false → (∀ x ∈ c.chunk, pieceError s x = none) → ChunkPlaces c.chunk →
      ∃ t, exec (.copyChunk c.seq) s = .next t ∧
        (∀ x ∈ c.chunk, ∀ i, i < x.2.2 → readByte t (x.1 + i) = readByte s (x.2.1 + i)) ∧
        (∀ y, (∀ x ∈ c.chunk, ∀ i, i < x.2.2 → canon y ≠ canon (x.1 + i)) → readByte t y = readByte s y) ∧
        t.copies = (if c.rowBytes * c.rows ≤ c.done + n then s.copies.filter (·.seq != c.seq)
          else s.copies.map fun x => if x.seq = c.seq then
            { c with done := c.done + n, tainted := ((t.copies.find? (·.seq == c.seq)).map (·.tainted)).getD [] } else x) ∧
        t.hart.csr.cpb[c.bar.toNat] = BitVec.ofNat 64 (w.toNat / 2 ^ 48 * 2 ^ 48 + (pendingOn w - n)) ∧
        t = { s with
          hart := { s.hart with
            csr := { s.hart.csr with cpb := t.hart.csr.cpb }, rows := t.hart.rows, rowPoison := t.hart.rowPoison }
          copies := t.copies, entries := t.entries, mem := t.mem, poison := t.poison, fes := t.fes } ∧
        (if c.rowBytes * c.rows ≤ c.done + n then ∀ e ∈ t.entries, c.seq ∉ e.copies else t.entries = s.entries)) ∧
    (c.queued = false → gated s c.seq = false → (∃ x ∈ c.chunk, pieceError s x ≠ none) →
      ∃ t code, exec (.copyChunk c.seq) s = .next t ∧ SameMemory s t ∧ (code = 30 ∨ code = 59) ∧
        t.copies = s.copies.filter (·.seq != c.seq) ∧ (∀ e ∈ t.entries, c.seq ∉ e.copies) ∧
        bit t.hart.csr.cpb[c.bar.toNat] 63 = true ∧
        causeOn t.hart.csr.cpb[c.bar.toNat] = (if causeOn w = 0 then code else causeOn w) ∧
        pendingOn t.hart.csr.cpb[c.bar.toNat] = pendingOn w - (c.rowBytes * c.rows - c.done))) ∧
  (∀ c : Copy, c.rows = 1 → c.done < c.rowBytes →
    let at' (x : Word) : Nat := onSlab (c.slab.getD 0) (x + BitVec.ofNat 64 c.done).toNat
    c.chunk = [(at' c.dst, at' c.src, min (c.rowBytes - c.done) (256 - at' c.dst % 256))]) ∧
  ∀ (s : State) (m : Reg3), s.hart.phase = .launched →
    let w := s.hart.csr.cpb[m.toNat]
    (gated s (s.nextId + 1) = true → exec (.cpwait m) s = .next s) ∧
    ∀ u, u = { s with hart := { s.hart with phase := .parked, wait := .cpwait m, stopped := false } } →
    gated s (s.nextId + 1) = false →
    (pendingOn w = 0 →
      (bit w 63 = false →
        (∃ t, exec (.cpwait m) s = .next t ∧ Moved s t 4) ∧
        ∃ t, exec (.cpwaitComplete s.hart.cid) u = .next t ∧ SameMemory u t ∧
          t = { u with hart := { u.hart with phase := .launched, wait := .none, pc := u.hart.pc + 4 } }) ∧
      (bit w 63 = true → Awake s → (∀ q ∈ s.hart.queue, q.copy = none) →
        ∃ t, exec (.cpwait m) s = .next t ∧ Entered s t false 29 (BitVec.ofNat 64 (causeOn w * 2 ^ 58 + m.toNat)) s.hart.pc ∧
          t.hart.csr.cpb = s.hart.csr.cpb.set m.toNat 0 m.isLt)) ∧
    (pendingOn w ≠ 0 →
      (∃ t, exec (.cpwait m) s = .next t ∧ SameMemory s t ∧
        t = { s with hart := parkedIn s s.hart (.cpwait m) }) ∧
      exec (.cpwaitComplete s.hart.cid) u = .next u)

/-! ### The swap and transfer engines (R268 to R281) -/

namespace Sys2Proof.Claims

/-- The three commands. -/
def engineForms : List ((Reg → Reg → Instr) × EngineKind) := [(.swpout, .swpout), (.swpin, .swpin), (.xfer, .xfer)]

/-- A field of entry `i` of a partition's session directory, in system memory (R270). -/
def sessionField (s : State) (p i off n : Nat) : Nat := s.mem.readNat (canon ((part s p).sessBase + 64 * i + off)) n

/-- What acceptance reads behind a descriptor: 48 bytes of the session's entry, and the extent lists (R270, R271, R276). -/
def controlData (s : State) (k : EngineKind) (r : List Byte) : List (Nat × Nat) :=
  let p := s.hart.partId
  let i := recField r 4 3
  [((part s p).sessBase + 64 * i, 48), (sessionField s p i 8 8, 16 * sessionField s p i 2 1)] ++
    if k = .xfer then [(recField r 16 8, 16 * recField r 25 1)] else []

/-- An engine instruction outside mode U whose descriptor `r` at ga is read and is within its limits (R275, R276). -/
structure CommandRead (s : State) (k : EngineKind) (a : Reg) (r : List Byte) : Prop where
  mode : mode s ≠ modeU
  checks : checkFull s .load (gpr s a).tag (gval s a).toNat 64 64 = .ok ()
  ready : mustWait s false (gval s a).toNat 64 = false
  control : ∀ q ∈ controlData s k r, mustFollow s false q.1 q.2 = false
  described : undescribed false (gval s a).toNat 64 = false
  clean : firstPoisoned s (gval s a).toNat 64 = none
  bytes : r = readBytes s (gval s a).toNat 64
  limits : engineDescOk s k r = true
  status : checkIssue s .store 0 (recField r 8 8) 8 8 = .ok ()

/-- R275 with R272: why a command is turned away, before its lists are read; the first row that holds decides. -/
def commandRefusals (s : State) (k : EngineKind) (r : List Byte) : List (Nat × Bool) :=
  let p := s.hart.partId
  let i := recField r 4 3
  let state := sessionField s p i 0 1
  let xfers := sessionField s p i 3 1
  let begins := match k with
    | .swpout => state == 1 && xfers == 0
    | .swpin => state == 3
    | .xfer => state == 1 && xfers != 255
  [(1, decide (64 ≤ (s.engines.filter (·.partId == p)).length)), (3, decide ((part s p).sessCount ≤ i)), (2, !begins),
    (4, sessionField s p i 2 1 == 0 || decide (16 < sessionField s p i 2 1))]

/-- The lists of a command are read (R268, R269, R277, R280). -/
structure ListsRead (s : State) (k : EngineKind) (r : List Byte) : Prop where
  list : checkControl s (sessionField s s.hart.partId (recField r 4 3) 8 8)
    (16 * sessionField s s.hart.partId (recField r 4 3) 2 1) = .ok ()
  second : k = .xfer → checkControl s (recField r 16 8) (16 * recField r 25 1) = .ok ()

end Sys2Proof.Claims

/-- R272, R275 and R276: an engine command that is read outside mode U is turned away with a status, or accepted with status
0: it is queued with what its descriptor names, and its session's entry moves to the state of the command and changes nowhere
else. An entry that may not be read raises its cause, one with a reserved byte set cause 1 (R8; the order of the checks is log
45); a command waits for earlier accesses of its hart to its bytes (R281). In mode U it raises cause 3. It rests on the
model's choices of log 13. -/
def Obligations.EngineCommands : Prop :=
  ∀ p ∈ engineForms, ∀ (s : State) (d a : Reg),
    (∀ r, CommandRead s p.2 a r → s.hart.lag = false →
      let i := recField r 4 3
      let n := (part s s.hart.partId).sessBase + 64 * i
      let whole := checkControl s n 48 = .ok () ∧ sessionField s s.hart.partId i 40 8 = 0
      (whole → ∀ x, (commandRefusals s p.2 r).find? (·.2) = some x →
        ∃ t, exec (p.1 d a) s = .next t ∧ Wrote s t 4 d (statusResult s a x.1)) ∧
      ((s.engines.filter (·.partId == s.hart.partId)).length < 64 → i < (part s s.hart.partId).sessCount → Awake s →
        (∀ e, checkControl s n 48 = .error e → ∃ t, exec (p.1 d a) s = .next t ∧ Trapped s t false e.code e.tval) ∧
        (checkControl s n 48 = .ok () → sessionField s s.hart.partId i 40 8 ≠ 0 →
          ∃ t, exec (p.1 d a) s = .next t ∧ Trapped s t false 1 0)) ∧
      (whole → (commandRefusals s p.2 r).find? (·.2) = none → ListsRead s p.2 r → n % 64 = 0 →
        let cmd := readCommand s p.2 (gpr s a).tag r
        (commandOk cmd = false → ∃ t, exec (p.1 d a) s = .next t ∧ Wrote s t 4 d (statusResult s a 4)) ∧
        (commandOk cmd = true → checkCommandWindow s cmd = .ok () → commandFollows s cmd = true →
          exec (p.1 d a) s = .next s) ∧
        (commandOk cmd = true → checkCommandWindow s cmd = .ok () → commandFollows s cmd = false → ∃ t u c, exec (p.1 d a) s = .next t ∧ Wrote u t 4 d (statusResult s a 0) ∧
          u = { s with engines := s.engines ++ [c], mem := t.mem, poison := t.poison, nextId := t.nextId } ∧
          c.kind = p.2 ∧ c.cid = s.hart.cid ∧ c.partId = s.hart.partId ∧ c.session = i ∧ c.units = 0 ∧ c.code = 0 ∧
          c.tag = (gpr s a).tag ∧ c.tokens = sessionField s s.hart.partId i 4 4 ∧
          c.statusAddr = recField r 8 8 ∧ c.extents = readExtents s (sessionField s s.hart.partId i 8 8)
            (sessionField s s.hart.partId i 2 1) ∧
          c.blocks = (sessionField s s.hart.partId i 4 4 + 15) / 16 ∧
          (match p.2 with
            | .swpout => sessionField t s.hart.partId i 0 1 = 2
            | .swpin => sessionField t s.hart.partId i 0 1 = 4 ∧ sessionField t s.hart.partId i 32 8 = 0
            | .xfer => sessionField t s.hart.partId i 3 1 = sessionField s s.hart.partId i 3 1 + 1) ∧
          ∀ y, (∀ j, j < 64 → y ≠ canon (n + j)) → t.mem.read y = s.mem.read y))) ∧
    (Awake s → mode s = modeU → ∃ t, exec (p.1 d a) s = .next t ∧ Trapped s t false 3 (instrBits (p.1 d a)))

namespace Sys2Proof.Claims

/-- Bytes of system memory with their poison. -/
def systemBytes (s : State) (a n : Nat) : List (Byte × Bool) :=
  (List.range n).map fun i => (s.mem.read (canon (a + i)), bytePoisoned s (a + i))

/-- A run of system memory lies in one place that is neither the local window nor the device registers. -/
abbrev InSystem (a n : Nat) : Prop :=
  (placeOf a).isLocal = false ∧ placeOf a ≠ .device ∧ ∀ i, i < n → placeOf (a + i) = placeOf a

/-- Blocks of `n` bytes go to places of `m` bytes, all admitted for the command (R277); no place meets a block, another place,
the session's entry or the status. -/
structure BlockPlan (s : State) (c : EngineCmd) (n m : Nat) (l : List (Nat × Nat)) : Prop where
  checks : ∀ p ∈ l, engineCheck s c .load p.1 n = none ∧ engineCheck s c .store p.2 m = none
  places : ∀ p ∈ l, InSystem p.1 n ∧ InSystem p.2 m ∧ p.2 % 64 = 0
  apart : ∀ p ∈ l, ∀ q ∈ l, Apart p.1 n q.2 m
  once : l.Pairwise fun p q => Apart p.2 m q.2 m
  entry : ∀ p ∈ l, Apart ((part s c.partId).sessBase + 64 * c.session) 64 p.2 m
  status : ∀ p ∈ l, Apart c.statusAddr 8 p.2 m

/-- The command is the one of its number, and no earlier one of its hart still accesses its bytes (R281); its entry is aligned and
apart from its status. -/
structure Running (s : State) (c : EngineCmd) (k : EngineKind) : Prop where
  found : s.engines.find? (·.seq == c.seq) = some c
  kind : c.kind = k
  good : c.code = 0
  free : engineBlocked s c = false
  entry : ((part s c.partId).sessBase + 64 * c.session) % 64 = 0 ∧ InSystem ((part s c.partId).sessBase + 64 * c.session) 64
  status : c.statusAddr % 8 = 0 ∧ InSystem c.statusAddr 8 ∧ farErrorIn (engineView s c) .store c.statusAddr 8 = none ∧
    Apart c.statusAddr 8 ((part s c.partId).sessBase + 64 * c.session) 64

/-- `t` is `s` after the end of a command that has done `units` units without a failure (R277): it is gone, its status is
written; no hart has changed. -/
structure CommandDone (s t : State) (c : EngineCmd) (units : Nat) (flags : Flags) : Prop where
  gone : t.engines = s.engines.filter (·.seq != c.seq)
  status : t.mem.readNat (canon c.statusAddr) 8 = (units * 2 ^ 32 + flags.toNat * 2 ^ 16) % 2 ^ 64
  rest : t = { s with engines := t.engines, mem := t.mem, poison := t.poison }

end Sys2Proof.Claims

/-- R272 to R274 and R277 to R280: `swpout` writes each block compressed behind a header and leaves the session in state 3
with its cold address and size; `swpin` lands a block at a time, counts it in the entry and on its watermark, and ends in
state 1 with the type that was asked for; `xfer` copies the blocks of a layer at a time, fails with code 6 where the peer
refuses the layer's publication, and lowers the session's count at its end; each end writes a status. It rests on the model's
choices of log 13, log 14 and log 24. -/
def Obligations.EngineProgress : Prop :=
  (∀ (s : State) (c : EngineCmd) (src : Nat → Nat), Running s c .swpout → c.units = 0 → c.flags = 0 →
    let cb := compressedBytes c.ty c.blockBytes
    let f (j : Nat) := compressBlock c.ty (systemBytes s (src j) c.blockBytes)
    64 + c.blocks * cb ≤ c.capacity → c.blockBytes % 64 = 0 → c.cold % 64 = 0 →
    (∀ j, j < c.blocks → extentBlock c.extents j = some (src j) ∧ (f j).1.length = cb) →
    BlockPlan s c c.blockBytes cb ((List.range c.blocks).map fun j => (src j, c.cold + 64 + j * cb)) →
    engineCheck s c .store c.cold 64 = none → InSystem c.cold 64 →
    (∀ j, j < c.blocks → Apart (src j) c.blockBytes c.cold 64 ∧ Apart (c.cold + 64 + j * cb) cb c.cold 64) →
    Apart c.cold 64 ((part s c.partId).sessBase + 64 * c.session) 64 → Apart c.cold 64 c.statusAddr 8 →
    sessionField s c.partId c.session 0 1 = 2 →
    ∃ t, exec (.swpoutComplete c.seq) s = .next t ∧
      CommandDone s t c c.blocks ((List.range c.blocks).foldl (fun g j => g ||| (f j).2) 0) ∧
      (∀ j, j < c.blocks → ∀ i x, (f j).1[i]? = some x → t.mem.read (canon (c.cold + 64 + j * cb + i)) = x.1) ∧
      t.mem.readNat (canon c.cold) 2 = 2 ∧ t.mem.readNat (canon c.cold + 4) 4 = c.tokens % 2 ^ 32 ∧
      t.mem.readNat (canon c.cold + 8) 4 = c.blocks % 2 ^ 32 ∧
      t.mem.readNat (canon c.cold + 12) 4 = c.blockBytes % 2 ^ 32 ∧ t.mem.readNat (canon c.cold + 16) 4 = cb % 2 ^ 32 ∧
      sessionField t c.partId c.session 0 1 = 3 ∧ sessionField t c.partId c.session 16 8 = c.cold % 2 ^ 64 ∧
      sessionField t c.partId c.session 28 4 = (64 + c.blocks * cb) % 2 ^ 32) ∧
  (∀ (s : State) (c : EngineCmd) (dst : Nat), Running s c .swpin → c.units < c.blocks →
    (c.units = 0 → swpinHeader s c = none) → extentBlock c.extents c.units = some dst →
    let cb := compressedBytes c.ty c.blockBytes
    let src := c.cold + 64 + c.units * cb
    let r := if c.keep then (systemBytes s src cb, (0 : Flags)) else widenBlock (c.elems) (systemBytes s src cb)
    r.1.length = c.bytes → BlockPlan s c cb (c.bytes) [(src, dst)] →
    ∃ t, exec (.swpinBlockLanded c.seq) s = .next t ∧
      (∀ i x, r.1[i]? = some x → t.mem.read (canon (dst + i)) = x.1) ∧
      sessionField t c.partId c.session 32 8 = (c.units + 1) % 2 ^ 64 ∧
      t.engines = (s.engines.map fun x =>
        if x.seq = c.seq then { c with units := c.units + 1, flags := c.flags ||| r.2 } else x) ∧
      (c.mark % 2 = 1 → ∀ m, s.marks.find? (markKey c.mark) = some m →
        t.marks.find? (markKey c.mark) = some { m with index := max m.index (c.units + 1) }) ∧
      t = { s with engines := t.engines, mem := t.mem, poison := t.poison, marks := t.marks }) ∧
  (∀ (s : State) (c : EngineCmd), Running s c .swpin → c.units = c.blocks → c.blocks ≠ 0 →
    sessionField s c.partId c.session 0 1 = 4 →
    ∃ t, exec (.swpinComplete c.seq) s = .next t ∧ CommandDone s t c c.units c.flags ∧
      sessionField t c.partId c.session 0 1 = 1 ∧
      sessionField t c.partId c.session 1 1 = (if c.keep then 13 else 11) ∧
      sessionField t c.partId c.session 24 4 = c.bytes % 2 ^ 32) ∧
  (∀ (s : State) (c : EngineCmd) (src dst : Nat → Nat), Running s c .xfer → c.units < c.layers →
    (c.mark % 2 = 1 → ∃ m, s.marks.find? (markKey c.mark) = some m ∧ c.units + 1 ≤ m.index) →
    (∀ j, j < c.bpl → extentBlock c.extents (c.units * c.bpl + j) = some (src j) ∧
      extentBlock c.dstExtents (c.units * c.bpl + j) = some (dst j)) →
    BlockPlan s c c.blockBytes c.blockBytes ((List.range c.bpl).map fun j => (src j, dst j)) →
    ∃ t, exec (.xferLayer c.seq) s = .next t ∧
      (∀ j i, j < c.bpl → i < c.blockBytes → t.mem.read (canon (dst j + i)) = s.mem.read (canon (src j + i))) ∧
      t.engines = (s.engines.map fun x => if x.seq = c.seq then
        (if c.peerMark % 2 = 1 ∧ (c.peer, markKey c.peerMark) ∈ s.markDeny then { c with code := 6, cause := 0 }
          else { c with units := c.units + 1 }) else x) ∧
      t = { s with engines := t.engines, mem := t.mem, poison := t.poison }) ∧
  ∀ (s : State) (c : EngineCmd), Running s c .xfer → c.units = c.layers → sessionField s c.partId c.session 0 1 = 1 →
    ∃ t, exec (.xferComplete c.seq) s = .next t ∧ CommandDone s t c c.units c.flags ∧
      sessionField t c.partId c.session 3 1 = (sessionField s c.partId c.session 3 1 + 255) % 256

/-! ### Launches (R127, R327 to R334) -/

namespace Sys2Proof.Claims

/-- The launch that the record `b` of the current hart asks for: in mode U the new gang's `tvec` is the hart's own (R127). -/
def launchOf (s : State) (b : List Byte) : LaunchRec :=
  if mode s = modeU then { parseRecord b with tvec := s.hart.csr.tvec } else parseRecord b

/-- The partition that it is for: the device partition's for mode 2, the one that a record from mode D names, else its own. -/
def launchPart (s : State) (r : LaunchRec) : Nat :=
  if r.mode = 2 then 12 else if mode s = modeD then r.target else s.hart.partId

/-- A stack's pool has an entry free that no running gang of the stack is owed for the reserve it has spent (R334). -/
def hasRoom (s : State) (k : Nat) : Bool :=
  decide (poolUsed s k + (s.gangs.filter fun g => g.stack == k && g.owedReserve).length < 4096)

/-- `t` is `s` with one more pending launch. -/
structure Pooled (s t : State) (p k : Nat) (r : LaunchRec) : Prop where
  pool : t.pool = s.pool ++ [{ seq := s.nextId + 1, partId := p, stack := k, record := r }]
  next : t.nextId = s.nextId + 1

/-- A field of a queue's entry in the scheduling region (R330). -/
def queueNum (s : State) (p q off n : Nat) : Nat := s.mem.readNat (canon ((part s p).notifybm.toNat + 0x200 + 32 * q + off)) n

/-- The two forms with what they do when no entry is free. -/
def launchForms : List ((Reg → Reg → Instr) × Bool) := [(.launch, true), (.launchNb, false)]

end Sys2Proof.Claims

/-- R127, R328, R331, R332, R334 and R396: a valid launch, once every earlier access of the hart but its `swpin` and `xfer`
commands has performed, takes an entry in the first stack that can host it and has one, answers 0 and, if its queue is
unmapped, maps it; with every pool full the reserve of the gang that the hart was launched with is spent, `launch` parks, or
`launch.nb` answers 1; an invalid record raises cause 49. A start places the members as the record says; a ring's record
enters the pool, or is consumed with cause 49. It rests on the model's choices of log 12, log 26 and log 29. -/
def Obligations.Launches : Prop :=
  (∀ p ∈ launchForms, ∀ (s : State) (d a : Reg) (b : List Byte), Readable s a (gval s a).toNat 64 → fenceQuiet s = true →
    b = readBytes s (gval s a).toNat 64 →
    let r := launchOf s b
    let part := launchPart s r
    let hosts := hostStacks s part (parseRecord b)
    (launchOk s (.program (mode s)) s.hart.partId b = true →
      (∀ k, hosts.find? (hasRoom s) = some k → s.hart.lag = false →
        (part = 12 ∨ mappedQueue s part r.queue = true →
          ∃ t u, exec (p.1 d a) s = .next t ∧ Wrote u t 4 d (statusResult s a 0) ∧ Pooled s u part k r ∧
            u = { s with pool := u.pool, nextId := u.nextId }) ∧
        (part ≠ 12 → mappedQueue s part r.queue = false →
          ∀ j, j < 64 → (Machine.part s part).hwSlots.find? j = none →
            (∀ i, i < j → (Machine.part s part).hwSlots.find? i ≠ none) →
            ∃ t u, exec (p.1 d a) s = .next t ∧ Wrote u t 4 d (statusResult s a 0) ∧ Pooled s u part k r ∧
              u = { s with pool := u.pool, nextId := u.nextId, parts := u.parts, mem := u.mem, poison := u.poison } ∧
              (Machine.part u part).hwSlots.find? j = some r.queue)) ∧
      (hosts.find? (hasRoom s) = none →
        ∀ g, gangOf s s.hart.gangStack s.hart.homeGang = some g →
          (g.hasReserve = true → hosts.contains g.stack = true → (part = 12 ∨ mappedQueue s part r.queue = true) →
            s.hart.lag = false →
            ∃ t u, exec (p.1 d a) s = .next t ∧ Wrote u t 4 d (statusResult s a 0) ∧ Pooled s u part g.stack r ∧
              u = { s with pool := u.pool, nextId := u.nextId, gangs := u.gangs } ∧
              gangOf u s.hart.gangStack s.hart.homeGang = some { g with hasReserve := false, owedReserve := true }) ∧
          (g.hasReserve = false ∨ hosts.contains g.stack = false →
            (p.2 = true → s.hart.phase ≠ .free → ∃ t, exec (p.1 d a) s = .next t ∧ SameMemory s t ∧
              t = { s with hart := parkedIn s s.hart (.launch d a) }) ∧
            (p.2 = false → s.hart.lag = false →
              ∃ t, exec (p.1 d a) s = .next t ∧ Wrote s t 4 d (statusResult s a 1))))) ∧
    (launchOk s (.program (mode s)) s.hart.partId b = false → Awake s →
      ∃ t, exec (p.1 d a) s = .next t ∧ Trapped s t false 49 (gval s a))) ∧
  (∀ (s : State) (x : Pending) (slots : List Nat), s.pool.find? (·.seq == x.seq) = some x → readyToStart s x = true →
    inSlice s x.partId x.record.queue = true → mayServe s x.partId x.record.queue = true → slotsSuit s x slots = true → x.record.mode ≤ 2 →
    ∃ t hs g, exec (.launchStart x.seq slots) s = .next t ∧ t.hart = s.hart ∧ t.others = s.others ++ hs ∧
      t.pool = s.pool.filter (·.seq != x.seq) ∧ t.gangs = s.gangs ++ [g] ∧
      (∀ y ∈ s.gangs, y.stack = x.stack → y.num ≠ g.num) ∧ g.stack = x.stack ∧ g.size = x.record.members ∧
      g.partId = x.partId ∧ g.seq = x.seq ∧ g.density = x.record.density ∧ hs.length = slots.length ∧
      ∀ (j : Nat) (h : Hart), hs[j]? = some h → slots[j]? = some h.slot ∧ h.member = j ∧ h.gangStack = x.stack ∧
        h.gang = g.num ∧ h.partId = x.partId ∧ h.phase = .launched ∧ h.pc = x.record.entry ∧ h.g = x.record.slabs ∧
        h.mode = x.record.mode ∧ bit h.csr.status 0 = false ∧ h.csr.slotbase = x.record.table ∧
        h.csr.tvec = x.record.tvec ∧ h.csr.rndstate = BitVec.ofNat 32 (j + 1) ∧ h.csr.vl = 0 ∧ h.grant = 0 ∧
        h.regs = Vector.replicate 32 {} ∧ h.rows = []) ∧
  ∀ (s : State) (p q : Nat), mappedQueue s p q = true → queueNum s p q 12 4 ≠ queueNum s p q 16 4 →
    (part s p).notifybm.toNat % 4096 = 0 → (∀ i, i < 32 → placeOf ((part s p).notifybm.toNat + 0x200 + 32 * q + i) =
      placeOf ((part s p).notifybm.toNat)) → (placeOf (part s p).notifybm.toNat).isDram = true →
    let x := queueNum s p q 0 8 + 64 * (queueNum s p q 12 4 % queueNum s p q 8 4)
    let b := readBytes s x 64
    (firstPoisoned s x 64 = none → launchOk s (.ring q) p b = true →
      ∀ k, (hostStacks s p (parseRecord b)).find? (hasRoom s) = some k →
        ∃ t, exec (.ringFetch p q) s = .next t ∧ Pooled s t p k (parseRecord b) ∧
          queueNum t p q 12 4 = (queueNum s p q 12 4 + 1) % 2 ^ 32 ∧
          t = { s with pool := t.pool, nextId := t.nextId, mem := t.mem, poison := t.poison }) ∧
    (firstPoisoned s x 64 ≠ none ∨ launchOk s (.ring q) p b = false →
      ∃ t, exec (.ringFetch p q) s = .next t ∧ queueNum t p q 12 4 = (queueNum s p q 12 4 + 1) % 2 ^ 32 ∧
        queueNum t p q 21 1 / 2 % 2 = 1 ∧ t.pool = s.pool ∧ t.hart = s.hart ∧
        (part t p).pending = (part s p).pending ++ [{ code := 49, tval := BitVec.ofNat 64 x }])

/-! ### The matrix array (R289 to R308, R221) -/

namespace Sys2Proof.Claims

/-- The columns that an instruction sees, and the FP32 word of a column of an accumulator row (R289, R292). -/
def columnsOf (s : State) : Nat := 128 * slabs s
def accAt (s : State) (row j : Nat) : Nat := s.hart.acc.readNat (4 * (row * 512 + slab0 s * 128 + j)) 4

/-- `t` is `s` after a matrix instruction: accumulators, grant, the accumulator's lease set, control registers; 8 bytes on. -/
structure MatrixFrame (s t : State) : Prop where
  rest : t = { s with hart := { s.hart with
    grant := t.hart.grant, acc := t.hart.acc, accPoison := t.hart.accPoison, accLease := t.hart.accLease
    csr := t.hart.csr, fed := false, fromZero := false, held := false, stalled := [], bound := none, retry := none, waitNs := 0
    inProgress := none, current := none, issued := 0, headed := false, probed := none, offsets := [], wrote := [], pc := s.hart.pc + 8 } }
  memory : SameMemory s t

/-- The rows that the hart may hold: what the other contexts of its front end leave of 64 (R290). -/
def rowsLeft (s : State) : Nat :=
  64 - ((s.others.filter fun h => feOf h.slot == feOf s.hart.slot).map (·.grant)).foldl (· + ·) 0

/-- A multiply's element type, K slices to a slot, element groups of `vl`, and K (R296). -/
def sliceCount (ty : ElemTy) : Nat := 16 / tyWidth ty
def groupSize (s : State) (ty : ElemTy) : Nat := 8 * rowBytes s / tyWidth ty
def stepCount (s : State) (ty : ElemTy) : Nat := vlen s / groupSize s ty
def innerK (s : State) (ty : ElemTy) : Nat := 8 * stepCount s ty * sliceCount ty

/-- The products of step `t` for accumulator element (i, j), over the eight B registers and their slices (R297 to R299); `sa` and
`sb` give the scale bytes of an A and a B element. -/
def stepProducts (s : State) (ty : ElemTy) (va vb : Reg) (sa : Nat → Nat) (sb : Nat → Nat → Nat) (t i j : Nat) : List FVal :=
  let p := sliceCount ty
  (List.range 8).flatMap fun r => (List.range p).map fun q =>
    let ea := i * innerK s ty + (8 * t + r) * p + q
    let eb := t * groupSize s ty + j / 4 * (4 * p) + j % 4 * p + q
    let x := elem s va (tyWidth ty) ea
    let y := elem s (vb + BitVec.ofNat 5 r) (tyWidth ty) eb
    if tyIsInt ty then FVal.ofInt (byType ty x * byType ty y) else (FVal.mul (valueOf ty (sa ea) x) (valueOf ty (sb r eb) y)).1

/-- A multiply is admitted (R293, R304): operands in form, the rows granted, the windows placed and large enough, nothing
poisoned, no residue mismatch to come, in one step. -/
structure MultiplyReady (s : State) (ty : ElemTy) (acc : BitVec 6) (va vb : Reg) (rows : BitVec 7) : Prop where
  form : vb.toNat % 8 = 0 ∧ 1 ≤ rows.toNat ∧ rows.toNat ≤ 64
  oneStep : AtOnce s
  granted : s.hart.grant ≠ 0 ∧ acc.toNat + rows.toNat ≤ s.hart.grant
  left : Fits s (vreg s va).win (tyWidth ty) (rows.toNat * innerK s ty)
  right : ∀ r, r < 8 → Fits s (vreg s (vb + BitVec.ofNat 5 r)).win (tyWidth ty) (vlen s)
  unbound : ∀ b ∈ s.hart.streams, b.reg ≠ va ∧ ∀ r, r < 8 → b.reg ≠ vb + BitVec.ofNat 5 r
  clean : s.hart.rowPoison = [] ∧ s.hart.accPoison = [] ∧ s.residue = []

/-- `t` is `s` after a multiply: each element in an active column has taken the remaining steps in their order, each one exact
sum rounded once (R221); every other word is as before. -/
structure Multiplied (s t : State) (acc : BitVec 6) (rows : BitVec 7) (m : Reg3) (ty : ElemTy)
    (products : Nat → Nat → Nat → List FVal) : Prop where
  words : ∀ i j, i < rows.toNat → j < columnsOf s → accAt t (acc.toNat + i) j =
    if maskBit s m j then
      (List.range (stepCount s ty - vfirst s / groupSize s ty)).foldl
        (fun v k => matrixStep v (products (vfirst s / groupSize s ty + k) i j)) (accAt s (acc.toNat + i) j)
    else accAt s (acc.toNat + i) j
  others : ∀ k, (∀ i j b, i < rows.toNat → j < columnsOf s → b < 4 →
    k ≠ 4 * ((acc.toNat + i) * 512 + slab0 s * 128 + j) + b) → t.hart.acc.read k = s.hart.acc.read k
  csr : t.hart.csr = { s.hart.csr with vstart := 0 }
  grant : t.hart.grant = s.hart.grant
  frame : MatrixFrame s t

/-- R302: an accumulator word in an element type; R303: an element as a word. -/
def extracted (ty : ElemTy) (clamp : Bool) (rm : Rm) (u x : Nat) : Nat × Flags :=
  if tyIsInt ty then
    let r := FVal.toInt rm (lowest ty) (highest ty) (fmtF32.decode x)
    ((r.1 % 2 ^ tyWidth ty).toNat, r.2)
  else roundTo (tyFmt ty) clamp rm u (fmtF32.decode x)
def inserted (ty : ElemTy) (clamp : Bool) (rm : Rm) (x : Nat) : Nat × Flags :=
  if tyIsInt ty then roundTo fmtF32 clamp rm 0 (FVal.ofInt (byType ty x)) else (widenBits fmtF32 ((tyFmt ty).decode x), 0)

/-- The types that `mext` and `mins` name. -/
def extTypes : List ElemTy := [.f32, .f16, .bf16, .e4m3, .e5m2, .i8, .i16, .i32, .n8, .n16, .n32]

end Sys2Proof.Claims

/-- R290 to R304 and R221: `mattach` grants up to the request what the front end has left, `mdetach` gives all back, `mzero`
clears the columns that the instruction sees; `vmma` and `vmmas` multiply step by step; `mext` and `mins` convert a row to and
from elements. Malformed operands raise cause 1, a missing grant cause 37, rows beyond it cause 38. It rests on the model's
choices of log 17. -/
def Obligations.Matrix : Prop :=
  (∀ (s : State) (rows : BitVec 7),
    ((rows = 16 ∨ rows = 32 ∨ rows = 48 ∨ rows = 64) → s.hart.par = none → s.hart.grant ≤ rowsLeft s →
      ∃ t, exec (.mattach rows) s = .next t ∧ MatrixFrame s t ∧ t.hart.grant = min rows.toNat (rowsLeft s) ∧
        t.hart.accLease = s.hart.accLease ∧ t.hart.csr = s.hart.csr ∧
        ∀ k, t.hart.acc.read k = if k < t.hart.grant * 2048 then s.hart.acc.read k else 0) ∧
    (s.hart.par = none → ∃ t, exec .mdetach s = .next t ∧ MatrixFrame s t ∧ t.hart.grant = 0 ∧ t.hart.accLease = {} ∧
      t.hart.csr = s.hart.csr ∧ ∀ k, t.hart.acc.read k = 0) ∧
    (s.hart.grant ≠ 0 → ∃ t, exec .mzero s = .next t ∧ MatrixFrame s t ∧ t.hart.grant = s.hart.grant ∧
      t.hart.accLease = {} ∧ t.hart.csr = s.hart.csr ∧ ∀ k, t.hart.acc.read k =
        if slab0 s * 128 ≤ k / 4 % 512 ∧ k / 4 % 512 < slab0 s * 128 + columnsOf s then 0 else s.hart.acc.read k) ∧
    (Awake s →
      ((rows ≠ 16 ∧ rows ≠ 32 ∧ rows ≠ 48 ∧ rows ≠ 64) ∨ s.hart.par ≠ none →
        ∃ t, exec (.mattach rows) s = .next t ∧ Trapped s t false 1 0) ∧
      (s.hart.par ≠ none → ∃ t, exec .mdetach s = .next t ∧ Trapped s t false 1 0) ∧
      (s.hart.grant = 0 → ∃ t, exec .mzero s = .next t ∧ Trapped s t false 37 0))) ∧
  (∀ (s : State) (ty cur : ElemTy) (rm : Rm) (acc : BitVec 6) (va vb : Reg) (rows : BitVec 7) (m : Reg3),
    (ty ∈ [ElemTy.bf16, .f16, .e4m3, .e5m2, .i8, .n8] → TypeIs s cur rm → rm ≠ .sr → MultiplyReady s ty acc va vb rows →
      ∃ t, exec (.vmma ty acc va vb rows m) s = .next t ∧
        Multiplied s t acc rows m ty (stepProducts s ty va vb (fun _ => 0) fun _ _ => 0)) ∧
    (Awake s →
      (ty ∉ [ElemTy.bf16, .f16, .e4m3, .e5m2, .i8, .n8] ∨ vb.toNat % 8 ≠ 0 ∨ rows.toNat = 0 ∨ 64 < rows.toNat →
        ∃ t, exec (.vmma ty acc va vb rows m) s = .next t ∧ Trapped s t false 1 0) ∧
      (ty ∈ [ElemTy.bf16, .f16, .e4m3, .e5m2, .i8, .n8] → vb.toNat % 8 = 0 → 1 ≤ rows.toNat → rows.toNat ≤ 64 →
        (s.hart.grant = 0 → ∃ t, exec (.vmma ty acc va vb rows m) s = .next t ∧ Trapped s t false 37 0) ∧
        (TypeIs s cur rm → rm ≠ .sr → s.hart.grant ≠ 0 → s.hart.grant < acc.toNat + rows.toNat →
          ∃ t, exec (.vmma ty acc va vb rows m) s = .next t ∧ Trapped s t false 38 0)))) ∧
  (∀ (s : State) (cur : ElemTy) (rm : Rm) (acc : BitVec 6) (va vb : Reg) (rows : BitVec 7) (ka kb m : Reg3),
    TypeIs s cur rm → rm ≠ .sr → field s.hart.csr.vtype 4 2 ≠ 0 → MultiplyReady s .f4b acc va vb rows →
    let blk := blockLen s
    ScaleFits s ka ((rows.toNat * innerK s .f4b + (blk - 1)) / blk) → ScaleFits s kb (8 * (vlen s / blk)) →
    ∃ t, exec (.vmmas acc va vb rows ka kb m) s = .next t ∧ Multiplied s t acc rows m .f4b
      (stepProducts s .f4b va vb (fun e => scaleAt s ka (e / blk)) fun r e => scaleAt s kb (r * (vlen s / blk) + e / blk))) ∧
  ∀ (s : State) (v : Reg) (row : BitVec 6) (ty cur : ElemTy) (rm : Rm) (m : Reg3), ty ∈ extTypes → TypeIs s cur rm →
    s.hart.accPoison = [] → row.toNat < s.hart.grant → vlen s ≤ columnsOf s →
    let w := tyWidth ty
    ((rm = .sr → ty ∈ [ElemTy.bf16, .e4m3, .e5m2]) → Operands s v w [] true →
      let r (i : Nat) := extracted ty (satOf s) rm (sampleAt s rm (activeBefore s m i)) (accAt s row.toNat i)
      ∃ t, exec (.mext v row ty m) s = .next t ∧
        Lanes s t 8 v w (fun i => if isActive s m i then some (r i).1 else none)
          (joinedLease s m (vreg s v).lease (bothLeases s.hart.accLease (leaseOfMask s m)))
          (bothLeases s.hart.accLease (leaseOfMask s m))
          { finished s (flagsOf s m fun i => ((r i).2, false)) with rndstate := rndAfter s rm (activeOf s m).length }) ∧
    (rm ≠ .sr → Sources s [(v, w)] →
      let r (i : Nat) := inserted ty (satOf s) rm (elem s v w i)
      ∃ t, exec (.mins row v ty m) s = .next t ∧ MatrixFrame s t ∧ t.hart.grant = s.hart.grant ∧
        t.hart.csr = finished s (flagsOf s m fun i => ((r i).2, false)) ∧
        (∀ i, i < columnsOf s → accAt t row.toNat i = if isActive s m i then (r i).1 else accAt s row.toNat i) ∧
        ∀ k, (∀ i b, isActive s m i = true → b < 4 → k ≠ 4 * (row.toNat * 512 + slab0 s * 128 + i) + b) →
          t.hart.acc.read k = s.hart.acc.read k)

/-! ### Scheduling (R39, R41, R112, R136, R227, R338 to R343) -/

namespace Sys2Proof.Claims

/-- No two contexts have one number, and none has the number 0. -/
abbrev Distinct (s : State) : Prop :=
  (s.hart.cid :: (s.others ++ s.saved).map (·.cid)).Nodup ∧ ∀ h ∈ contexts s, h.cid ≠ 0

/-- The partition that owns a front end's beat, and its harts that have an element group ready (R39, R41). -/
def ownerNow (s : State) (fe : Nat) : Nat := field (frontEnd s fe).beatmap (4 * (frontEnd s fe).beat) 4
def readyNow (s : State) (fe : Nat) : List Hart :=
  (hartsOn s fe).filter fun h => h.partId == ownerNow s fe && groupReady s h

/-- The hart that issued last for the owner of the beat. -/
def issuedLast (s : State) (fe : Nat) : Option Nat := (frontEnd s fe).lastIssued.find? (ownerNow s fe)

/-- A front end after a beat; behind beat 15 a beat assignment that was written takes effect (R40). -/
def afterBeat (f : FrontEnd) : FrontEnd :=
  if f.beat < 15 then { f with beat := f.beat + 1 }
  else { f with beat := f.beat - 15, beatmap := f.beatPending.getD f.beatmap, beatPending := none }

/-- R41: the hart that issues: one of age 60 or more that is older than every other, else the one that issued last, else the
oldest. -/
def Issues (s : State) (fe : Nat) (h : Hart) : Prop :=
  h ∈ readyNow s fe ∧
    (((∀ k ∈ readyNow s fe, k.cid ≠ h.cid → k.age < h.age) ∧
        (60 ≤ h.age.toNat ∨ ∀ k ∈ readyNow s fe, issuedLast s fe ≠ some k.cid)) ∨
      (issuedLast s fe = some h.cid ∧ ∀ k ∈ readyNow s fe, k.age.toNat < 60))

/-- `h` leaves its slot together with the current hart: a member of its gang for which a pre-emption is due (R340). -/
abbrev Leaves (s : State) (h : Hart) : Prop :=
  h.gangStack = s.hart.gangStack ∧ h.gang = s.hart.gang ∧ h.phase.live = true ∧ h.due = true

/-- It stands in a slot, no move holds it, and it has no store that has not performed (R128, R340). -/
structure CanLeave (s : State) (h : Hart) : Prop where
  resident : h ∈ s.hart :: s.others
  phase : h.phase = .launched ∨ h.phase = .parked
  noMove : h.stopped = false ∧ h.stopPending = false
  performed : h.posted = []

/-- `k` is context `h` as it goes to shadow storage, with the scratchpad range of its slot (R340, R343); the time that it has spent
in a `vwait` or in a stall is made up (R182, R196). -/
structure SavedAs (s : State) (h k : Hart) : Prop where
  whole : k = { (settled s h) with
    phase := .preempted, due := false, areaWritten := k.areaWritten, savedPart := (slotCfg s h.slot).part
    savedScratch := k.savedScratch, savedPoison := k.savedPoison }
  waited : k.waitNs = h.waitNs +
    if (∃ a b, h.phase = .parked ∧ h.wait = .vwait a b) ∨ (h.phase = .launched ∧ h.stalled ≠ []) then timeNs s - h.waitSince else 0
  scratch : ∀ j x, spBase (slotCfg s h.slot).part ≤ x →
    x < spBase (slotCfg s h.slot).part + spLen (slotCfg s h.slot).part → x < 0x100000 →
    k.savedScratch.read (j * 0x100000 + x) = (frontEnd s (h.slot / 4)).scratch.read (j * 0x100000 + x)

/-- A wait that goes on where it stood when its context is restored (R128). -/
def keepsWaiting (w : Wait) : Bool :=
  match w with
  | .gbar | .vsred _ _ _ | .ecall => true
  | .none | .waitw _ _ _ _ _ | .vwait _ _ | .cpwait _ | .launch _ _ => false

/-- A matrix multiply, whose uncommitted step issues again in full after a restore (R308). -/
def isMultiplyStep : Instr → Bool
  | .vmma .. | .vmmas .. => true
  | _ => false

/-- The queued instructions of a restored context have formed their chains again (R340); a wait among them goes on from now. -/
def chainedAgain (now : Nat) (l : List QEntry) : List QEntry := l.map fun q =>
  { q with chain := .chained, waitSince := now, issued := if isMultiplyStep q.instr then 0 else q.issued }

/-- What has been fetched and is not part-way done is fetched again behind a restore (R85, R125). -/
def fetchedStill (part : Bool) (x : Option (Word × Instr)) : Option (Word × Instr) := if part then x else none

/-- The beats that the instruction at which a restored context stands has had. -/
def beatsStill (x : Option (Word × Instr)) (n : Nat) : Nat := if (x.map fun y => isMultiplyStep y.2) = some true then 0 else n

/-- A replica of a restored context. -/
def replicaAgain (now : Nat) (r : Replica) : Replica :=
  let f := r.flight
  let c := fetchedStill f.part f.current
  { r with flight := { f with
      current := c, issued := beatsStill c f.issued, waitSince := now, queue := chainedAgain now f.queue } }

/-- `k` is context `h` restored onto a slot of `s`: registers, rows, accumulators, loops and the pc as they were saved, with the queue and how
far its instructions and its replicas have got. -/
structure RestoredAs (s : State) (h k : Hart) (slot : Nat) : Prop where
  slot : k.slot = slot ∧ k.cid = h.cid ∧ k.member = h.member ∧ k.gang = h.gang
  phase : k.phase = (if keepsWaiting h.wait then .parked else .launched) ∧ k.wait = (if keepsWaiting h.wait then h.wait else .none)
  pc : k.pc = h.pc
  registers : k.regs = h.regs ∧ k.vregs = h.vregs ∧ k.mregs = h.mregs ∧ k.kregs = h.kregs
  csr : k.csr = { h.csr with cpb := k.csr.cpb }
  stores : k.rows = h.rows ∧ k.acc = h.acc ∧ k.grant = h.grant ∧ k.accLease = h.accLease
  control : k.loops = h.loops ∧ k.regions = h.regions ∧ k.aside = h.aside ∧ k.streams = h.streams ∧
    k.leaseNext = h.leaseNext
  flight : k.inProgress = h.inProgress ∧ k.fed = h.fed ∧ k.headed = h.headed ∧ k.probed = h.probed ∧ k.offsets = h.offsets ∧
    k.bound = h.bound ∧ k.front = h.front ∧ k.gates = h.gates ∧ k.vecFences = h.vecFences
  again : k.current = fetchedStill h.inFlight h.current ∧ k.issued = beatsStill k.current h.issued ∧
    k.queue = chainedAgain (timeNs s) h.queue
  replicas : k.par = h.par.map fun p => { p with rest := p.rest.map (replicaAgain (timeNs s)) }

end Sys2Proof.Claims

/-- R136, R112 and R227: a posted store that no earlier one overlaps performs, or reports an error of the cold tier (of a
store whose bytes perform one by one, once, with the store's address: log 54); a waiting result reaches its register. R39 to
R41: an issue beat passes idle, or lets the hart that R41 names issue one group. R338: a slice that is over passes on, and the
next begins where it ended (that one of an idle device ends early is log 29). R310 and R340 to R343: the members of a gang for
which a pre-emption is due leave their slots together, whole, their copies logged but for those that stand in the queue, and a
gang that fits is restored as it was saved (which instruction keeps its chunks is log 16, its checks log 53; which waits start
over, log 8). It rests on the model's choices of log 20, log 23 and log 26. -/
def Obligations.SchedulingEvents : Prop :=
  (∀ (s : State) (k : Nat) (p : Posted), s.hart.phase ≠ .free → s.hart.posted[k]? = some p →
    (∀ i q, i < k → s.hart.posted[i]? = some q → meets p.addr p.data.length q.addr q.data.length = false) →
    (((placeOf p.addr).isDram = true ∨ (placeOf p.addr).isSystem = true) → p.addr % 4096 + p.data.length ≤ 4096 →
      lateError s .store p.addr = false →
      ∃ t, exec (.accessPerform s.hart.cid k) s = .next t ∧
        (∀ i x, p.data[i]? = some x → readByte t (p.addr + i) = x) ∧
        (∀ y, (∀ i, i < p.data.length → canon y ≠ canon (p.addr + i)) → readByte t y = readByte s y) ∧
        t = { s with hart := { s.hart with posted := s.hart.posted.eraseIdx k }, mem := t.mem, poison := t.poison }) ∧
    let left := (s.hart.posted.eraseIdx k).filter fun q => p.part = none ∨ q.part ≠ p.part
    let reported : Hart := { s.hart with posted := left, coldErrors := s.hart.coldErrors ++ [p.part.getD p.addr] }
    (lateError s .store p.addr = true → ∃ t, exec (.accessPerform s.hart.cid k) s = .next t ∧ SameMemory s t ∧
      t = { s with hart := reported }) ∧
    (∀ r, placeOf p.addr = .cold r →
      ∃ t, exec (.coldTierStoreError s.hart.cid k) s = .next t ∧ SameMemory s t ∧
        t = { s with cold := s.cold.set r { coldRegion s r with failed := true }, hart := reported })) ∧
  (∀ (s : State) (k : Nat) (r : Reply), s.hart.phase ≠ .free → s.hart.replies[k]? = some r →
    ∃ t, exec (.replyWrite s.hart.cid k) s = .next t ∧ gpr t r.d = (if r.d = 0 then {} else r.val) ∧
      (∀ d, d ≠ r.d → gpr t d = gpr s d) ∧ SameMemory s t ∧
      t = { s with hart := { s.hart with regs := t.hart.regs, replies := s.hart.replies.eraseIdx k } }) ∧
  (∀ (s : State) (fe : Nat),
    (readyNow s fe = [] → ∃ t, exec (.issueBeat fe) s = .next t ∧
      t = setFrontEnd s fe { afterBeat (frontEnd s fe) with
        lastIssued := (frontEnd s fe).lastIssued.erase (ownerNow s fe) } ∧ SameMemory s t) ∧
    ∀ h, Distinct s → Issues s fe h → h ∈ s.hart :: s.others →
      ∃ t, exec (.issueBeat fe) s = .next t ∧ t.slice = true ∧ t.hart = { h with age := 0 } ∧
        frontEnd t fe = { afterBeat (frontEnd s fe) with
          lastIssued := (frontEnd s fe).lastIssued.set (ownerNow s fe) h.cid } ∧ t.mem = s.mem ∧
        (∀ k ∈ readyNow s fe, k.cid ≠ h.cid → ∃ x ∈ contexts t, x = { k with age := k.age + 1 })) ∧
  (∀ (s : State) (p : Nat), p ≠ 12 → sliceOver s p = true →
    let x := part s p
    let start := if x.slicesLeft ≠ 0 ∧ sliceEndNs s p ≤ timeNs s ∧ deviceIdle s p x.vdev = false then sliceEndNs s p else timeNs s
    ∃ t, exec (.sliceEnd p) s = .next t ∧ t.hart = { s.hart with due := t.hart.due } ∧ t.mem = s.mem ∧
      (1 < x.slicesLeft → deviceIdle s p x.vdev = false → part t p = { x with
        slicesLeft := x.slicesLeft - 1, sliceStart := start }) ∧
      (x.slicesLeft ≤ 1 ∨ deviceIdle s p x.vdev = true →
        (∀ v, nextDevice s p x.vdev = some v → part t p = { x with
          vdev := v, slicesLeft := deviceWeight s p v, sliceStart := start }) ∧
        (nextDevice s p x.vdev = none → part t p = { x with slicesLeft := 0 }))) ∧
  (∀ s : State, Distinct s → Leaves s s.hart → (∀ h ∈ contexts s, Leaves s h → CanLeave s h) →
    ∃ t, exec (.contextSave s.hart.cid) s = .next t ∧ t.hart = {} ∧ t.fes = s.fes ∧
      (∀ h ∈ contexts s, Leaves s h → ∃ k ∈ t.saved, SavedAs s h k) ∧
      (∀ h ∈ s.others, h.phase ≠ .free → ¬ Leaves s h → h ∈ t.others) ∧
      (∀ h ∈ t.others, h ∈ s.others ∧ ¬ Leaves s h) ∧
      (∀ k ∈ t.saved, k ∈ s.saved ∨ ∃ h ∈ contexts s, Leaves s h ∧ SavedAs s h k) ∧
      (∀ h ∈ contexts s, Leaves s h → ∀ c ∈ t.copies, c.cid = h.cid →
        (c.logged = false ↔ c.queued = true ∨ gated { s with hart := h } c.seq = true)) ∧
      (∀ h ∈ contexts s, Leaves s h → ∀ x ∈ t.entries, x.cid ≠ h.cid) ∧
      ((∀ k ∈ t.saved, k.areaWritten = false) → t.mem = s.mem)) ∧
  ∀ (s : State) (g : Gang) (slots : List Nat), Distinct s → gangOf s g.stack g.num = some g → restoreOk s g slots = true →
    ∃ t, exec (.restore g.stack g.num slots) s = .next t ∧ t.hart = s.hart ∧
      (∀ (j : Nat) (h : Hart) (x : Nat), (savedMembers s g)[j]? = some h → slots[j]? = some x →
        ∃ k ∈ t.others, RestoredAs s h k x) ∧
      (∀ h ∈ savedMembers s g, ∀ k ∈ t.saved, k.cid ≠ h.cid) ∧
      ∀ h ∈ s.others, h.phase ≠ .free → h ∈ t.others

/-! ### Errors and the outside world (R355, R358 to R362, R381 to R386, R389, R392, R394, R395) -/

namespace Sys2Proof.Claims

/-- Partition `p` has a new log entry, or counts an overflow if its log is full, and cause `c` with the entry's index is pending
for its event hart (R352, R360). -/
structure Reported (s t : State) (p c : Nat) : Prop where
  pending : (part t p).pending = (part s p).pending ++ [{ code := c, tval := (part s p).logHead.zeroExtend 64 }]
  head : (part t p).logHead =
    if (part s p).logHead - (part s p).logConsumed = (part s p).logEntries then (part s p).logHead else (part s p).logHead + 1
  overflow : (part t p).logOverflow =
    if (part s p).logHead - (part s p).logConsumed = (part s p).logEntries then (part s p).logOverflow + 1
    else (part s p).logOverflow

/-- The partitions other than none that hold a hart slot, as those whose slots satisfy a condition. -/
abbrev InUse (s : State) (ok : Nat → Prop) (p : Nat) : Prop :=
  p ≠ 15 ∧ ∃ x, ok x ∧ (x = 0 ∨ (s.slots.find? x).isSome = true) ∧ field (slotCfg s x).part 0 4 = p

/-- A partition is terminated (R360): no launch of its is pending, no context of its lives, its slots are held. -/
structure Terminated (s t : State) (p : Nat) : Prop where
  pool : ∀ x ∈ t.pool, x.partId ≠ p ∧ x ∈ s.pool
  gangs : Distinct s → ∀ h ∈ contexts t, h.partId = p → h.phase.live = false
  slots : p ≠ 15 → ∀ x, field (slotCfg t x).part 0 4 = p → (slotCfg t x).held = true

/-- A partition is quarantined (R359, R360): its harts are due, but for those of the device partition, whose gangs nothing but a
harness change or a re-pairing pre-empts (R383); cause 62 is pending. -/
structure Quarantined (s t : State) (p : Nat) : Prop where
  mark : (part t p).quarantined = true
  due : p ≠ 12 → ∀ g ∈ s.gangs, g.partId = p → ∀ h ∈ contexts t, h.gangStack = g.stack → h.gang = g.num →
    (h.phase = .launched ∨ h.phase = .parked) → h.due = true
  cause : Reported s t p 62

/-- A vault's control register, a cold region, a link, as the state has them or as they are when nothing is listed. -/
def vaultAt (s : State) (v : Nat) : VaultCtl := s.vaults.get { asked := false, retired := false, fenced := false } v
def linkAt (s : State) (l : Nat) : BitVec 9 := s.links.get 0xFF l

end Sys2Proof.Claims

/-- R355 and R358 to R362, R385, R394: what each error and notice does: granules read poisoned; a lost context's gang ends and
what held it, its save area or the shadow storages that hold it, is fenced (all of them: log 25); a partition is terminated or
quarantined; a vault is fenced or retired; a link goes on with the lanes it has left, or goes down; a region of the cold tier
refuses accesses; a front end without a repair leaves service; the partitions concerned get their cause with a log entry. It
rests on the model's choices of log 10 and log 30. -/
def Obligations.ErrorEvents : Prop :=
  (∀ (s : State) (p : Nat), (part s p).timer ≠ 0 → (part s p).timer.toNat ≤ timeNs s →
    ∃ t, exec (.timerExpire p) s = .next t ∧ t = { s with parts := t.parts } ∧ part t p = { part s p with
      timer := 0, pending := (part s p).pending ++ [{ code := 58, tval := BitVec.ofNat 64 (timeNs s) }] }) ∧
  (∀ s : State,
    exec (.uncorrectableError .cleanLine) s = .next s ∧
    (∀ g, ∃ t, exec (.uncorrectableError (.dram g)) s = .next t ∧ t = { s with poison := t.poison } ∧
      ∀ x, x ∈ t.poison ↔ x = g ∨ x ∈ s.poison) ∧
    (∀ gs, ∃ t, exec (.uncorrectableError (.dirtyUser gs)) s = .next t ∧ t = { s with poison := t.poison } ∧
      ∀ x, x ∈ t.poison ↔ x ∈ gs ∨ x ∈ s.poison) ∧
    (∀ l, ∃ t, exec (.uncorrectableError (.farLine l)) s = .next t ∧ t = { s with poison := t.poison } ∧
      ∀ x, x ∈ t.poison ↔ (8 * l ≤ x ∧ x < 8 * l + 8) ∨ x ∈ s.poison) ∧
    (∀ h g, contextOf s h.cid = some h → gangOf s h.gangStack h.gang = some g →
      ∃ t, exec (.uncorrectableError (.savedContext h.cid)) s = .next t ∧
        (h.areaWritten = true → h.saveArea ∈ (part t h.partId).fencedAreas) ∧
        (h.areaWritten = false → ∀ f ∈ shadowsOf s h, (frontEnd t f).shadowFenced = true) ∧
        (Distinct s → ∀ k ∈ contexts t, k.gangStack = g.stack → k.gang = g.num → k.phase.live = false)) ∧
    (∃ t, exec (.uncorrectableError .firmware) s = .next t ∧
      t.svc = { s.svc with fenced := true }) ∧
    (∀ fe key, ∃ t, exec (.uncorrectableError (.scratchpad fe key)) s = .next t ∧ t = { s with fes := t.fes } ∧
      ∀ x, x ∈ (frontEnd t fe).scratchPoison ↔ x = key / 8 ∨ x ∈ (frontEnd s fe).scratchPoison) ∧
    (s.hart.phase ≠ .free → ∀ key,
      (∃ t, exec (.uncorrectableError (.rowStore s.hart.cid key)) s = .next t ∧
        t.hart = { s.hart with rowPoison := t.hart.rowPoison } ∧
        ∀ x, x ∈ t.hart.rowPoison ↔ x = key / 8 ∨ x ∈ s.hart.rowPoison) ∧
      ∃ t, exec (.uncorrectableError (.accumulator s.hart.cid key)) s = .next t ∧
        t.hart = { s.hart with accPoison := t.hart.accPoison } ∧
        ∀ x, x ∈ t.hart.accPoison ↔ x = key ∨ x ∈ s.hart.accPoison) ∧
    (∀ v, ∃ t, exec (.uncorrectableError (.vault v)) s = .next t ∧ vaultAt t v = { vaultAt s v with fenced := true } ∧
      ∀ p, InUse s (fun _ => True) p → Reported s t p 63) ∧
    (∀ p, (∃ t, exec (.uncorrectableError (.dirtyPrivileged p)) s = .next t ∧ Terminated s t p) ∧
      ∃ t, exec (.uncorrectableError (.syncEntry p)) s = .next t ∧ Terminated s t p)) ∧
  (∀ s : State,
    (∃ t, exec (.securityAlarm .tamper) s = .next t ∧ (∀ p, p < 12 → Quarantined s t p) ∧
      t.svc.keysZeroised = (s.svc.keysZeroised || Config.zeroisePolicy)) ∧
    (∀ p, ∃ t, exec (.securityAlarm (.authentication p)) s = .next t ∧ Quarantined s t p ∧
      t.svc.keysZeroised = (s.svc.keysZeroised || Config.zeroisePolicy)) ∧
    (∀ p, ∃ t, exec (.quarantineRelease p) s = .next t ∧ t = { s with parts := t.parts } ∧
      part t p = { part s p with quarantined := false }) ∧
    (∀ v w, ∃ t, exec (.vaultControlWrite v w) s = .next t ∧ t = { s with vaults := t.vaults } ∧
      vaultAt t v = { vaultAt s v with asked := bit w 0 }) ∧
    ∀ v, (vaultAt s v).asked = true → ∃ t, exec (.vaultRetirement v) s = .next t ∧ t = { s with vaults := t.vaults } ∧
      vaultAt t v = { vaultAt s v with retired := true }) ∧
  (∀ (s : State) (l : Nat) (lane : BitVec 3),
    let good := linkAt s l &&& 0xFF &&& ~~~(1#9 <<< lane.toNat)
    (bit (linkAt s l) 8 = true → exec (.linkLaneFailure l lane) s = .next s) ∧
    (bit (linkAt s l) 8 = false → good ≠ 0 → ∃ t, exec (.linkLaneFailure l lane) s = .next t ∧
      t = { s with links := t.links } ∧ linkAt t l = good) ∧
    (bit (linkAt s l) 8 = false → good = 0 → ∃ t, exec (.linkLaneFailure l lane) s = .next t ∧ linkAt t l = 0x100 ∧
      ((s.parts.map (·.1)).Nodup → ∀ x ∈ s.parts, x.2.peers.any (fun e => bit e.2 63 && bit e.2 l) = true →
        Reported s t x.1 59))) ∧
  (∀ (s : State) (r stack : Nat),
    (∃ t, exec (.coldTierExpanderError r) s = .next t ∧ t = { s with cold := t.cold } ∧
      (t.cold.find? r).map (·.failed) = some true) ∧
    (∃ t, exec (.thermalNotice stack) s = .next t ∧ t.throttled = true ∧
      ∀ p, InUse s (fun x => stackOf x = stack) p → Reported s t p 61) ∧
    (∃ t, exec .powerNotice s = .next t ∧ t.throttled = true ∧ ∀ p, InUse s (fun _ => True) p → Reported s t p 61) ∧
    ∃ t, exec (.stackShutdown stack) s = .next t ∧
      ∀ p, InUse s (fun x => stackOf x = stack) p → ∀ x ∈ t.pool, x.partId ≠ p ∧ x ∈ s.pool) ∧
  ∀ (s : State) (fe : Nat) (entry : BitVec 2) (half : HalfSel),
    ∃ t, exec (.laneShiftRepair fe entry half none) s = .next t ∧ (frontEnd t fe).outOfService = true ∧
      (frontEnd t fe).harness = (frontEnd s fe).harness ∧
      (∀ x, x ∈ t.fencedHalves ↔ x ∈ s.fencedHalves ∨
        (half ≠ .b ∧ x = halfOf fe (frontEnd s fe).harness entry.toNat false) ∨
        (half ≠ .a ∧ x = halfOf fe (frontEnd s fe).harness entry.toNat true)) ∧
      ∀ h ∈ hartsOn s fe, Reported s t h.partId 36

namespace Sys2Proof.Claims

/-- An access from outside to vault-linear bytes of a partition is admitted: one window of the partition that gives the permission
holds every byte, and no vault of theirs is retired (R65, R73, R382, R386). -/
abbrev Admitted (s : State) (p : Nat) (k : Acc) (off n : Nat) : Prop :=
  n ≠ 0 ∧ off + n ≤ dramBytes ∧ (∃ w ∈ (partWindows s p).filterMap (windowOf k), w.1 ≤ off ∧ off + n ≤ w.2) ∧
    ∀ x ∈ checkPoints off n, (vaultAt s (vaultOf x)).retired = false

/-- What such an access does: an admitted write stores its bytes, an admitted atomic what R177 computes unless a byte is poisoned,
everything else changes nothing. -/
def OutsideDone (s : State) (i : ExtAccess → Instr) (p off : Nat) : Prop :=
  (∀ bs, Admitted s p .store off bs.length →
    ∃ t, exec (i (.write bs)) s = .next t ∧ t = { s with mem := t.mem, poison := t.poison } ∧
      (∀ (j : Nat) (x : Byte), bs[j]? = some x → t.mem.read (off + j) = x) ∧
      ∀ y, (y < off ∨ off + bs.length ≤ y) → t.mem.read y = s.mem.read y) ∧
  (∀ bs, ¬ Admitted s p .store off bs.length → exec (i (.write bs)) s = .next s) ∧
  (∀ sz op v x, Admitted s p .atomic off (amoBytes sz) → firstPoisoned s off (amoBytes sz) = none →
    amoNew op (8 * amoBytes sz) (s.mem.readNat (canon off) (amoBytes sz)) (field v 0 (8 * amoBytes sz)) = some x →
    ∃ t, exec (i (.atomic sz op v)) s = .next t ∧ t = { s with mem := t.mem, poison := t.poison } ∧
      (∀ (j : Nat) (b : Byte), (leBytes (amoBytes sz) x)[j]? = some b → t.mem.read (off + j) = b) ∧
      ∀ y, (y < off ∨ off + amoBytes sz ≤ y) → t.mem.read y = s.mem.read y) ∧
  (∀ sz op v, amoNew op (8 * amoBytes sz) (s.mem.readNat (canon off) (amoBytes sz)) (field v 0 (8 * amoBytes sz)) = none →
    exec (i (.atomic sz op v)) s = .next s) ∧
  (∀ sz op v, ¬ Admitted s p .atomic off (amoBytes sz) ∨ firstPoisoned s off (amoBytes sz) ≠ none →
    exec (i (.atomic sz op v)) s = .next s) ∧
  ∀ n, exec (i (.read n)) s = .next s

/-- The function number of a physical or a virtual function. -/
def functionOf (vf : Option Nat) : Nat :=
  match vf with
  | none => 0
  | some v => v + 1

/-- A partition has a valid window that names a device and a sending partition (R386). -/
abbrev Admits (s : State) (remote device sender : Nat) : Prop :=
  ∃ e ∈ (part s remote).peers, bit e.2 63 = true ∧ field e.2 32 16 = device ∧ field e.2 48 4 = sender

end Sys2Proof.Claims

/-- R332, R352 and R381 to R389, R392, R393, R395: doorbells, the host aperture, PF0's records, peers' accesses and watermark
publications, secure boot at bring-up, a firmware switch and the certificate chain. Before bring-up has finished the host's
accesses have no effect, and in recovery PF0 alone is reached. PF0 writes device registers; a value that one does not take
changes nothing (log 56). It rests on the model's choices of log 10, log 26, log 29 and log 33. -/
def Obligations.HostEvents : Prop :=
  (∀ (s : State) (p : Nat) (vf : Option Nat) (v : BitVec 32), reachable s = true →
    let q := field v 0 12
    (hasFunction s p vf = false → exec (.notifyWrite p vf v) s = .next s ∧ exec (.hostInterrupt p vf) s = .next s) ∧
    (hasFunction s p vf = true → field v 12 20 = 0 → (∀ d, vf = some d → queueVdev s p q = d) →
      (mappedQueue s p q = true → exec (.notifyWrite p vf v) s = .next s) ∧
      (mappedQueue s p q = false → ∀ j, j < 64 → (part s p).hwSlots.find? j = none →
        (∀ i, i < j → (part s p).hwSlots.find? i ≠ none) →
        ∃ t, exec (.notifyWrite p vf v) s = .next t ∧ (part t p).hwSlots.find? j = some q ∧ t.hart = s.hart ∧
          t.pool = s.pool)) ∧
    (hasFunction s p vf = true → (field v 12 20 ≠ 0 ∨ ∃ d, vf = some d ∧ queueVdev s p q ≠ d) →
      ∃ t, exec (.notifyWrite p vf v) s = .next t ∧ t = { s with parts := t.parts } ∧
        (part t p).barErrors.get 0 (functionOf vf) = (part s p).barErrors.get 0 (functionOf vf) + 1 ∧
        (part t p).hwSlots = (part s p).hwSlots) ∧
    (hasFunction s p vf = true → ∃ t, exec (.hostInterrupt p vf) s = .next t ∧ t = { s with parts := t.parts } ∧ part t p = { part s p with
      pending := (part s p).pending ++ [{ code := 57, tval := BitVec.ofNat 64 (functionOf vf) }] })) ∧
  (∀ s : State, (s.up = false ∨ s.svc.recovery = true ↔ reachable s = false) ∧ (reachable s = false →
    (∀ p vf v, exec (.notifyWrite p vf v) s = .next s) ∧ (∀ p vf, exec (.hostInterrupt p vf) s = .next s) ∧
    (∀ fn off a, exec (.hostApertureAccess fn off a) s = .next s) ∧
    (∀ d x p off a, exec (.peerAccess d x p off a) s = .next s) ∧
    ∀ d x p obj n, exec (.peerWatermarkPublication d x p obj n) s = .next s)) ∧
  (∀ (s : State) (p : Nat) (vf : Option Nat), hasFunction s p vf = true ↔
    p < 12 ∧ ∀ v, vf = some v → s.sriov.contains p = true ∧ v < 64) ∧
  (∀ (s : State) (a : Nat) (v : Word), placeOf a = .device → a % 8 = 0 → undescribed true a 8 = false →
    (s.up = true → badDevice s a (leBytes 8 v.toNat) = false →
      ∃ t, exec (.registerWrite (.device a) v) s = .next t ∧ DeviceTakes s t (a - deviceBase) v) ∧
    (s.up = false ∨ badDevice s a (leBytes 8 v.toNat) = true → exec (.registerWrite (.device a) v) s = .next s)) ∧
  (∀ (s : State) (off : Nat) (v : Word) (a : Word), s.up = false →
    exec (.registerWrite (.pf0 off) v) s = .next s ∧ exec (.dlaunch a) s = .next s ∧ exec .firmwareSwitch s = .next s) ∧
  (∀ (s : State) (p off : Nat) (vf : Option Nat), reachable s = true →
    (hasFunction s p vf = true → OutsideDone s (.hostApertureAccess ⟨p, vf⟩ off) p off) ∧
    (hasFunction s p vf = false → ∀ a, exec (.hostApertureAccess ⟨p, vf⟩ off a) s = .next s)) ∧
  (∀ (s : State) (device : BitVec 16) (sender remote : BitVec 4) (off : Nat), reachable s = true →
    (Admits s remote.toNat device.toNat sender.toNat →
      OutsideDone s (.peerAccess device sender remote off) remote.toNat off) ∧
    (¬ Admits s remote.toNat device.toNat sender.toNat → ∀ a, exec (.peerAccess device sender remote off a) s = .next s) ∧
    ∀ (obj : BitVec 16) (index : Nat) (m : Mark), s.marks.find? obj.toNat = some m →
      (Admits s remote.toNat device.toNat sender.toNat → m.owner = remote.toNat →
        ∃ t, exec (.peerWatermarkPublication device sender remote obj index) s = .next t ∧
          t = { s with marks := t.marks } ∧ t.marks.find? obj.toNat = some { m with index := max m.index index }) ∧
      (¬ Admits s remote.toNat device.toNat sender.toNat ∨ m.owner ≠ remote.toNat →
        exec (.peerWatermarkPublication device sender remote obj index) s = .next s)) ∧
  (∀ (s : State) (a : Word), s.up = true →
    (s.pf0.dstatus = 1 → exec (.dlaunch a) s = .next s) ∧
    (s.pf0.dstatus ≠ 1 →
      let b := readBytes s a.toNat 64
      let ready := a.toNat % 64 = 0 ∧ (placeOf a.toNat).isDram = true ∧ firstPoisoned s a.toNat 64 = none ∧
        launchOk s .pf0 12 b = true
      (ready → ∀ k, (hostStacks s 12 (parseRecord b)).find? (hasRoom s) = some k →
        ∃ t, exec (.dlaunch a) s = .next t ∧ Pooled s t 12 k (parseRecord b) ∧ t.pf0.dstatus = 1 ∧
          t.pf0.dseq = s.nextId + 1 ∧ t = { s with pool := t.pool, nextId := t.nextId, pf0 := t.pf0 }) ∧
      (¬ ready → ∃ t, exec (.dlaunch a) s = .next t ∧ t = { s with pf0 := { s.pf0 with dstatus := 49 } }))) ∧
  ∀ s : State,
    exec .certificateChain s = .next s ∧
    (s.up = true → exec .bringUp s = .next s) ∧
    (s.up = false → ∃ t, exec .bringUp s = .next t ∧ t.up = true ∧
      t = { s with up := true, svc := t.svc, vaults := t.vaults } ∧
      t.svc.windows = (List.range 8).map Config.serviceWindow ∧
      (∀ v, v < 16 * 192 → ((vaultAt t v).retired = true ↔ Config.vaultFails v = true)) ∧
      ((readBank false 0).authentic = true → t.svc.activeB = false ∧ t.svc.bankA = readBank false 0 ∧
        t.svc.recovery = s.svc.recovery) ∧
      ((readBank false 0).authentic = false → (readBank true 0).authentic = true →
        t.svc.activeB = true ∧ t.svc.bankB = readBank true 0 ∧ t.svc.recovery = s.svc.recovery) ∧
      ((readBank false 0).authentic = false → (readBank true 0).authentic = false → t.svc.recovery = true)) ∧
    let k := readBank (!s.svc.activeB) (s.draws + 1)
    (s.up = true → ∃ t, exec .firmwareSwitch s = .next t ∧ t = { s with svc := t.svc, draws := s.draws + 1 } ∧
      t.svc.calls = s.svc.calls ∧
      (k.authentic = true → t.svc.activeB = !s.svc.activeB ∧ t.svc.recovery = false ∧
        (if s.svc.activeB then t.svc.bankA = k ∧ t.svc.bankB = s.svc.bankB
          else t.svc.bankB = k ∧ t.svc.bankA = s.svc.bankA)) ∧
      (k.authentic = false → t.svc.activeB = s.svc.activeB ∧ t.svc.authFailures = s.svc.authFailures + 1 ∧
        t.svc.bankA = s.svc.bankA ∧ t.svc.bankB = s.svc.bankB))

/-! ### Service functions (R193, R270, R360, R364, R377 to R380, R387, R393, R400) -/

namespace Sys2Proof.Claims

/-- Call `c` is accepted, no access for it has faulted (R390), the service is neither in recovery nor fenced (R392, R359), the call
names a context that lives, and it is the next with its token to be served (R124). -/
structure Serves (s : State) (c : Call) (fn : Nat) : Prop where
  found : s.svc.calls.find? (·.seq == c.seq) = some c
  function : c.fn = fn
  whole : c.faulted = false
  running : s.svc.recovery = false ∧ s.svc.fenced = false
  token : ∀ d ∈ s.svc.calls, d.partId = c.partId → d.seq < c.seq → d.token ≠ c.token
  load : fn = 1 → ∀ d ∈ s.svc.calls, d.partId = c.partId → d.seq < c.seq → d.fn ≠ 1
  caller : ∃ h, contextOf s c.cid = some h

/-- Call `c` is answered with g10 to g13, and nothing else happens to the contexts and to the service. -/
structure Answered (s t : State) (c : Call) (a : Vector Word 4) : Prop where
  svc : t.svc = { s.svc with calls := s.svc.calls.filter (·.seq != c.seq) }
  contexts : contexts t = (contexts s).map fun h => if h.cid = c.cid then { h with reply := some a } else h

/-- A status with zeros. -/
def status (n : Nat) : Vector Word 4 := #v[BitVec.ofNat 64 n, 0, 0, 0]

/-- An answer that changes nothing but the list of calls and the caller. -/
def OnlyAnswered (s t : State) (c : Call) (a : Vector Word 4) : Prop :=
  Answered s t c a ∧ t = { s with svc := t.svc, hart := t.hart, others := t.others, saved := t.saved }

/-- Arguments of a call: g12 up. -/
def argument (c : Call) (i : Fin 6) : Nat := c.args[i].toNat

/-- A watermark object is bound by a context of a partition, or named by an unfinished command. -/
abbrev Bound (s : State) (p key : Nat) : Prop :=
  (∃ h ∈ contexts s, h.partId = p ∧ ∃ v ∈ h.csr.wm.toList, bit v 0 = true ∧ markKey v.toNat = key) ∨
    ∃ e ∈ s.engines, e.mark % 2 = 1 ∧ markKey e.mark = key

/-- The service cores may access `n` bytes at `a` (R390). -/
abbrev InCores (s : State) (a n : Nat) : Prop := coveredBy s.svc.windows (s.svc.windows.length + 1) a (a + n) = true

/-- An access for call `c` has faulted (R390): the call waits, and nothing else has changed (the model's choice, log 39). -/
def callFaulted (s : State) (c : Call) : State :=
  { s with svc := { s.svc with calls := s.svc.calls.map fun d => if d.seq = c.seq then { d with faulted := true } else d } }

/-- The fields of the event block that function 33 may write, with the values that they take and what they change (R360). -/
def eventWrites (v : Word) : List (Nat × Prop × (Part → Part)) :=
  [(0x00, True, fun x => { x with timer := v }),
   (0x08, v.toNat % 4096 = 0 ∧ (placeOf v.toNat).isDram = true, fun x => { x with logBase := v }),
   (0x10, ∃ i, 6 ≤ i ∧ i ≤ 16 ∧ v.toNat = 2 ^ i, fun x => { x with logEntries := v.truncate 32 }),
   (0x18, v.toNat < 2 ^ 32, fun x => { x with logConsumed := v.truncate 32 })]

/-- What function 32 answers for an offset of the event block. -/
def eventReads (s : State) (p : Nat) : List (Nat × Word) :=
  let x := part s p
  [(0x00, x.timer), (0x08, x.logBase), (0x10, x.logEntries.zeroExtend 64), (0x14, x.logHead.zeroExtend 64),
   (0x18, x.logConsumed.zeroExtend 64), (0x1C, x.logOverflow.zeroExtend 64), (0x20, if x.quarantined then 1 else 0),
   (0x28, devValue s (.eventHart p))]

/-- The load that a call asks for, over memory as its caller's context has it. -/
def jobOf (s : State) (c : Call) (h : Hart) : LoadJob :=
  { view := callView { s with svc := { s.svc with calls := s.svc.calls.filter (·.seq != c.seq) } } h,
    partId := c.partId, hart := h, file := argument c 0, length := argument c 1, base := argument c 2,
    table := argument c 3, area := argument c 4 }

/-- `n` bytes at `a` lie in one of the two ranges of bonded DRAM. -/
abbrev InDram (a n : Nat) : Prop := (placeOf a).isDram = true ∧ ∀ i < n, placeOf (a + i) = placeOf a

/-- Byte `y` of system memory is none of the `n` bytes at address `a`. -/
abbrev Away (y a n : Nat) : Prop := ∀ i < n, canon (a + i) ≠ y

/-- Byte `y` is no part of the resident-record area or of a placed slot's record. -/
abbrev OffRecords (j : LoadJob) (y : Nat) : Prop :=
  Away y j.area (64 + 16 * j.relocs) ∧ ∀ x ∈ j.slots, x.placed = true → Away y (j.table + 32 * x.n) 32

/-- The bytes of the field that a relocation record patches, and what they become (R364, R365, R377): HI20 and LO12 replace a
field of the instruction, ABS64 and ABS32 all of it. -/
def fieldBytes (r : Reloc) : Nat := if r.ty = 3 then 8 else 4
def patched (j : LoadJob) (r : Reloc) : List Byte :=
  let v := j.value r
  let w := j.word r.offset
  if r.ty = 1 then leBytes 4 (w / 2 ^ 22 * 2 ^ 22 + ((v + 0x800) / 4096 % 2 ^ 20).toNat * 4 + w % 4)
  else if r.ty = 2 then leBytes 4 (w / 2 ^ 14 * 2 ^ 14 + (v % 2 ^ 12).toNat * 4 + w % 4)
  else if r.ty = 3 then leBytes 8 (v % 2 ^ 64).toNat
  else leBytes 4 (v % 2 ^ 32).toNat

/-- Byte `m` of the image lies in no patched field but that of record `i`. -/
def PatchedAlone (j : LoadJob) (i : Option Nat) (m : Nat) : Prop :=
  ∀ k < j.relocs, i ≠ some k → m < (j.reloc k).offset ∨ (j.reloc k).offset + fieldBytes (j.reloc k) ≤ m

/-- An image is loaded (R379, R392, R400): the sections' contents and zeros, the placed slots' records, the patched fields, the
resident-record area; fetches see it; the partition lists it and measures it; every other byte is as before. -/
structure ImageLoaded (s t : State) (j : LoadJob) : Prop where
  image : ∀ m < j.msize, OffRecords j (canon (j.base + m)) → PatchedAlone j none m →
    t.mem.read (canon (j.base + m)) = j.content m
  fields : ∀ i < j.relocs, ∀ (k : Nat) (x : Byte), (patched j (j.reloc i))[k]? = some x →
    (∀ n < fieldBytes (j.reloc i), OffRecords j (canon (j.base + (j.reloc i).offset + n)) ∧
      PatchedAlone j (some i) ((j.reloc i).offset + n)) →
    t.mem.read (canon (j.base + (j.reloc i).offset + k)) = x
  slots : ∀ e ∈ j.slots, e.placed = true → ∀ (k : Nat) (x : Byte),
    (leBytes 8 (j.base + e.moff) ++ leBytes 8 e.size ++ leBytes 4 (if e.ro then 2 else 0) ++ leBytes 4 1 ++
      List.replicate 8 0)[k]? = some x →
    Away (canon (j.table + 32 * e.n + k)) j.base j.msize →
    Away (canon (j.table + 32 * e.n + k)) j.area (64 + 16 * j.relocs) →
    t.mem.read (canon (j.table + 32 * e.n + k)) = x
  area : ∀ (k : Nat) (x : Byte),
    (leBytes 2 1 ++ List.replicate 2 0 ++ leBytes 4 j.relocs ++ leBytes 8 j.base ++ leBytes 8 j.table ++ leBytes 4 j.msize ++
      List.replicate 36 0 ++ readBytes j.view (j.file + j.nat 44 4) (16 * j.relocs))[k]? = some x →
    t.mem.read (canon (j.area + k)) = x
  elsewhere : ∀ y, Away y j.base j.msize → OffRecords j y → t.mem.read y = s.mem.read y
  fetches : ∀ fe, (fe = feOf j.hart.slot ∨ fe ∈ frontEndsOf t j.partId) → (frontEnd t fe).imem = t.mem
  listed : part t j.partId = { part s j.partId with
    images := (part s j.partId).images ++ [{ area := j.area, base := j.base, size := j.msize }]
    m3 := sha384 ((part s j.partId).m3 ++ sha384 (readBytes j.view j.file j.length)) }

end Sys2Proof.Claims

/-- R193, R270, R360, R364, R377 to R380, R387, R389, R390, R393, R400: what each service function answers and changes. A call
whose bytes a service core may not access waits (that it has no effect meanwhile is the model's choice, log 39). It rests on
the model's choices of log 10, log 19, log 27 and log 33. -/
def Obligations.Services : Prop :=
  (∀ (s : State) (c : Call), Serves s c 0 → ∃ t, exec (.version c.seq) s = .next t ∧
      OnlyAnswered s t c #v[0, BitVec.ofNat 64 c.abi, BitVec.ofNat 64 c.version, if c.bankB then 1 else 0]) ∧
  (∀ (s : State) (c : Call), Serves s c 2 →
    ((∀ x ∈ (part s c.partId).images, x.area ≠ argument c 0) →
      ∃ t, exec (.unloadImage c.seq) s = .next t ∧ OnlyAnswered s t c (status 1)) ∧
    ((∃ x ∈ (part s c.partId).images, x.area = argument c 0) →
      ∃ t, exec (.unloadImage c.seq) s = .next t ∧ Answered s t c (status 0) ∧ t.mem = s.mem ∧
        part t c.partId = { part s c.partId with
          images := (part s c.partId).images.filter fun x => x.area ≠ argument c 0 })) ∧
  (∀ (s : State) (c : Call), Serves s c 16 →
    let stack := argument c 0
    let ok := stack < 16 ∧ argument c 1 < 2 ^ 52 ∧ 0 < argument c 2 ∧ argument c 2 ≤ 2 ^ 48 ∧ argument c 3 ≤ 16
    let may := windowsAllow s c.partId .load (argument c 1) (argument c 2)
    (¬ ok → ∃ t, exec (.allocateWatermark c.seq) s = .next t ∧ OnlyAnswered s t c (status 1)) ∧
    (ok → may = false → ∃ t, exec (.allocateWatermark c.seq) s = .next t ∧ OnlyAnswered s t c (status 2)) ∧
    (ok → may = true → (∀ n < 4096, s.marks.find? (stack * 4096 + n) ≠ none) →
      ∃ t, exec (.allocateWatermark c.seq) s = .next t ∧ OnlyAnswered s t c (status 3)) ∧
    (ok → may = true → ∀ n < 4096, s.marks.find? (stack * 4096 + n) = none →
      (∀ k < n, s.marks.find? (stack * 4096 + k) ≠ none) →
      ∃ t, exec (.allocateWatermark c.seq) s = .next t ∧ Answered s t c #v[0, BitVec.ofNat 64 n, 0, 0] ∧
        t = { s with svc := t.svc, hart := t.hart, others := t.others, saved := t.saved, marks := t.marks } ∧
        t.marks.find? (stack * 4096 + n) = some
          { owner := c.partId, base := argument c 1, length := argument c 2, esize := 2 ^ argument c 3, index := 0 } ∧
        ∀ key, key ≠ stack * 4096 + n → t.marks.find? key = s.marks.find? key)) ∧
  (∀ (s : State) (c : Call), Serves s c 17 →
    let key := argument c 0 * 4096 + argument c 1
    let named := argument c 0 < 16 ∧ argument c 1 < 4096
    (¬ named ∨ s.marks.find? key = none →
      ∃ t, exec (.freeWatermark c.seq) s = .next t ∧ OnlyAnswered s t c (status 1)) ∧
    (named → ∀ m, s.marks.find? key = some m →
      (m.owner ≠ c.partId ∨ Bound s c.partId key →
        ∃ t, exec (.freeWatermark c.seq) s = .next t ∧ OnlyAnswered s t c (status 2)) ∧
      (m.owner = c.partId → ¬ Bound s c.partId key →
        ∃ t, exec (.freeWatermark c.seq) s = .next t ∧ Answered s t c (status 0) ∧ t.marks.find? key = none ∧
          ∀ k, k ≠ key → t.marks.find? k = s.marks.find? k))) ∧
  (∀ (s : State) (c : Call), Serves s c 18 →
    let base := argument c 0
    let n := argument c 1
    let ok := base % 4096 = 0 ∧ 0 < n ∧ n ≤ 2 ^ 24 ∧ (placeOf base).isDram = true ∧
      placeOf (base + 64 * n - 1) = placeOf base
    let may := windowsAllow s c.partId .atomic base (64 * n) = true
    let busy := ∃ e ∈ s.engines, e.partId = c.partId
    (¬ ok → ∃ t, exec (.setSessionDirectory c.seq) s = .next t ∧ OnlyAnswered s t c (status 1)) ∧
    (ok → ¬ may → ∃ t, exec (.setSessionDirectory c.seq) s = .next t ∧ OnlyAnswered s t c (status 2)) ∧
    (ok → may → busy → ∃ t, exec (.setSessionDirectory c.seq) s = .next t ∧ OnlyAnswered s t c (status 3)) ∧
    (ok → may → ¬ busy → ∃ t, exec (.setSessionDirectory c.seq) s = .next t ∧ Answered s t c (status 0) ∧ t.mem = s.mem ∧
      part t c.partId = { part s c.partId with sessBase := base, sessCount := n })) ∧
  (∀ (s : State) (c : Call), Serves s c 32 →
    (∀ r ∈ eventReads s c.partId, argument c 0 = r.1 →
      ∃ t, exec (.readEventBlock c.seq) s = .next t ∧ OnlyAnswered s t c #v[0, r.2, 0, 0]) ∧
    ((∀ r ∈ eventReads s c.partId, argument c 0 ≠ r.1) →
      ∃ t, exec (.readEventBlock c.seq) s = .next t ∧ OnlyAnswered s t c (status 1))) ∧
  (∀ (s : State) (c : Call), Serves s c 33 →
    (∀ r ∈ eventWrites (c.args[1]), argument c 0 = r.1 →
      (r.2.1 → ∃ t, exec (.writeEventBlock c.seq) s = .next t ∧ Answered s t c (status 0) ∧ t.mem = s.mem ∧
        part t c.partId = r.2.2 (part s c.partId)) ∧
      (¬ r.2.1 → ∃ t, exec (.writeEventBlock c.seq) s = .next t ∧ Answered s t c (status 1) ∧ t.mem = s.mem ∧
        ∀ p, part t p = part s p)) ∧
    (argument c 0 = 0x20 → ∃ t, exec (.writeEventBlock c.seq) s = .next t ∧ Answered s t c (status 2) ∧
      ∀ p, part t p = part s p)) ∧
  (∀ (s : State) (c : Call), Serves s c 34 → Distinct s →
    (argument c 0 = 0 → ∀ n, slotOfId (argument c 1) = some n →
      (slotHolder s n = none → ∃ t, exec (.terminate c.seq) s = .next t ∧ OnlyAnswered s t c (status 1)) ∧
      ∀ v, slotHolder s n = some v → v.phase.live = true →
        (v.partId ≠ c.partId → ∃ t, exec (.terminate c.seq) s = .next t ∧ OnlyAnswered s t c (status 2)) ∧
        (v.partId = c.partId → ∃ t, exec (.terminate c.seq) s = .next t ∧
          (∀ h ∈ contexts t, h.cid ≠ v.cid) ∧ (∀ x ∈ t.copies, x.cid ≠ v.cid) ∧ (∀ x ∈ t.engines, x.cid ≠ v.cid) ∧
          ∀ h, contextOf t c.cid = some h → h.reply = some (status 0))) ∧
    (argument c 0 = 1 → argument c 1 < 2 ^ 32 →
      let g := s.gangs.find? fun g => g.stack == argument c 1 / 2 ^ 28 && g.num == argument c 1 / 2 ^ 16 % 2 ^ 12
      (g = none → ∃ t, exec (.terminate c.seq) s = .next t ∧ OnlyAnswered s t c (status 1)) ∧
      ∀ x, g = some x →
        (x.partId ≠ c.partId → ∃ t, exec (.terminate c.seq) s = .next t ∧ OnlyAnswered s t c (status 2)) ∧
        (x.partId = c.partId → ∃ t, exec (.terminate c.seq) s = .next t ∧
          (∀ h ∈ contexts t, h.gangStack = x.stack → h.gang = x.num → h.phase.live = false) ∧
          ∀ h, contextOf t c.cid = some h → h.reply = some (status 0))) ∧
    (2 ≤ argument c 0 → ∃ t, exec (.terminate c.seq) s = .next t ∧ OnlyAnswered s t c (status 1))) ∧
  (∀ (s : State) (c : Call), Serves s c 48 → ∀ h, contextOf s c.cid = some h →
    let out := argument c 1
    let may := windowsAllow s c.partId .load (argument c 0) 48 = true ∧ windowsAllow s c.partId .store out 384 = true
    let there := serviceMap s h .load (argument c 0) 48 = true ∧ serviceMap s h .store out 384 = true ∧
      (placeOf (argument c 0)).isLocal = false ∧ (placeOf out).isLocal = false
    let reach := InCores s (argument c 0) 48 ∧ InCores s out 384
    (out % 64 ≠ 0 ∨ (may ∧ ¬ there) →
      ∃ t, exec (.attestationQuote c.seq) s = .next t ∧ OnlyAnswered s t c (status 1)) ∧
    (out % 64 = 0 → ¬ may → ∃ t, exec (.attestationQuote c.seq) s = .next t ∧ OnlyAnswered s t c (status 2)) ∧
    (out % 64 = 0 → may → there → ¬ reach → exec (.attestationQuote c.seq) s = .next (callFaulted s c)) ∧
    (out % 64 = 0 → may → there → reach → InDram out 384 → ∃ t, exec (.attestationQuote c.seq) s = .next t ∧ Answered s t c (status 0) ∧
      (part t c.partId).m3 = (part s c.partId).m3 ∧
      (s.svc.m0.length = 48 → s.svc.m1.length = 48 → (part s c.partId).m3.length = 48 →
        (∀ (k : Nat) (x : Byte),
          let body := leBytes 4 1 ++ leBytes 4 c.partId ++ readBytes s (argument c 0) 48 ++
            s.svc.m0 ++ s.svc.m1 ++ (part t c.partId).m2 ++ (part t c.partId).m3
          (body ++ quoteSignature (if s.svc.keysZeroised then 0 else Config.identityKey) s.draws body)[k]? = some x →
          t.mem.read (canon (out + k)) = x) ∧
        (∀ k, 344 ≤ k → k < 384 → t.mem.read (canon (out + k)) = 0) ∧
        ∀ y, Away y out 384 → t.mem.read y = s.mem.read y))) ∧
  ∀ (s : State) (c : Call) (h : Hart), contextOf s c.cid = some h →
    let j := jobOf s c h
    let reads := InCores s j.file j.length ∧ InCores s j.table 8160
    (s.svc.calls.find? (·.seq == c.seq) = some c → (∃ m ∈ s.moves, m.table.toNat = argument c 3) →
      exec (.loadImage c.seq) s = .next s) ∧
    (Serves s c 1 → (∀ m ∈ s.moves, m.table.toNat ≠ argument c 3) →
      (argument c 4 % 64 ≠ 0 → ∃ t, exec (.loadImage c.seq) s = .next t ∧ OnlyAnswered s t c (status 8)) ∧
      (j.argsOk = true → j.nat 0 4 ≠ 0x524F5250 → reads →
        ∃ t, exec (.loadImage c.seq) s = .next t ∧ OnlyAnswered s t c (status 1)) ∧
      (∀ n i, j.failure = some (n, i) → (j.argsOk = true → reads) → ∃ t, exec (.loadImage c.seq) s = .next t ∧
        OnlyAnswered s t c #v[BitVec.ofNat 64 n, BitVec.ofNat 64 i, 0, 0]) ∧
      (j.argsOk = true → ¬ reads → exec (.loadImage c.seq) s = .next (callFaulted s c)) ∧
      (Distinct s → j.failure = none → reads → InCores s j.base j.msize → InCores s j.area (64 + 16 * j.relocs) →
        InDram j.base j.msize → InDram j.table 8160 →
        ∃ t, exec (.loadImage c.seq) s = .next t ∧ Answered s t c #v[0, 0, BitVec.ofNat 64 j.area, 0] ∧ ImageLoaded s t j))

/-! ### The step, decoding, the canonical form of memory, reset (R83 to R87, R23, R395) -/

namespace Sys2Proof.Claims

/-- The halfword at `a` can be fetched, and the instruction cache of the hart's front end holds what memory holds there. -/
structure Fetchable (s : State) (a : Nat) : Prop where
  checks : checkPlain s .fetch a 2 = .ok ()
  near : farError s .fetch a = none
  clean : firstPoisoned s a 2 = none
  fresh : (frontEnd s (feOf s.hart.slot)).imem.readNat (canon a) 2 = readNat s a 2

/-- It is the current hart's turn, and nothing comes before its next instruction: no event, no replica that has to run first, no waiting
scalar result, no held fault, no cause between instructions, no copy to issue again; one that a move has stopped finishes what it has
dispatched. -/
structure Turn (s : State) : Prop where
  up : s.up = true
  inputs : s.agenda = []
  instruction : s.tock = false
  runs : runnable s s.hart = true
  replies : s.hart.replies = []
  boundary : atBoundary s = true → s.hart.stopped = false → s.hart.coldErrors = [] ∧ s.hart.owes12 = none
  async : asyncReady s = false
  replica : focusPlace s.hart = none
  fault : s.hart.heldFault = none
  moving : s.hart.stopped = true → s.hart.underWay = true
  copies : reissues s = false

/-- The bytes at the program counter are instruction `i`, or `i` has been fetched there before and has not completed (R85); it
is past the horizon of the hart's copies to far homes (R350), and dispatch lets it execute. -/
structure Ready (s : State) (i : Instr) : Prop where
  bytes : fetchedBefore s = some i ∨
    (fetchedBefore s = none ∧ atBreakpoint s = false ∧ ∃ bs l, fetchBytes s = .ok bs ∧ decode bs = .ok (i, l))
  horizon : beforeHorizon s = true → s.hart.owes12 = none ∧ ∃ m, i = .cpwait m
  dispatch : beforeExec s i = none

/-- The rest of a turn that began in `s` at instruction `i` and executes it in `u`: what has been dispatched drops it, harts that a
harness change has rebound try their instructions, time passes, the next hart in turn comes up. -/
noncomputable def finishesTurn (s u : State) (i : Instr) : Host.Outcome State Fault Refusal :=
  match unordered exec u i with
  | .next t => .next (endTurn s (jumperOf s i) (afterRebind exec s (dequeue u.hart i t)))
  | .fault e => .fault e
  | .refused e => .refused e

/-- No context is single-stepped, and the hart of `t` is the only one that could run. -/
def Alone (s t : State) : Prop :=
  (∀ h ∈ contexts s, bit h.csr.status 10 = false) ∧ t.others = [] ∧ t.hart.par = none ∧ runnable t t.hart = true ∧ t.hart.yielded = false

end Sys2Proof.Claims

/-- R21, R39, R83 to R85: the bytes at the program counter, in the order of memory, are what is fetched, once; when they
decode to an instruction that dispatch lets execute, a step is the meaning of that instruction (in a replica of a parallel
loop its stores may then perform late, as R34 allows) with what ends a turn around it. A group that the sequencer could issue
waits for a beat of its front end: the step passes one, and goes on as the hart that the beat lets issue; in a beat that has
been given the instruction of the hart that is served is noted (R42, R43); a group that has issued in advance commits without
one. What needs no beat waits for none. It rests on the model's choices of log 7, log 20, log 21, log 22, log 23, log 54 and
log 55. -/
def Obligations.StepRunsDecoded : Prop :=
  (∀ s : State, let pc := s.hart.pc.toNat
    let n := lengthBits (readNat s pc 2) / 8
    pc % 2 = 0 → pc + 8 ≤ 2 ^ 52 → (∀ k, 2 * k < n → Fetchable s (pc + 2 * k)) →
    fetchBytes s = .ok (readBytes s pc n)) ∧
  (∀ (s : State) (i : Instr), Turn s → Ready s i →
    let served := servedPlace exec s
    (hasCredit s = true → step s = finishesTurn s { s with slice := true } i) ∧
    (hasCredit s = false →
      (served = none ∨ (s.slice = true ∧ s.hart.queue = []) → step s = finishesTurn s s i) ∧
      (s.slice = true → s.hart.queue ≠ [] → served = some 0 → step s = finishesTurn s (noteBeat exec s 0) i) ∧
      (s.slice = false → served ≠ none →
        let fe := feOf s.hart.slot
        ∀ t, exec (.issueBeat fe) (refreshHeld exec s fe) = .next t →
          step s = if t.slice then issueTurn exec (focus t) else .next (endTurn s none t)) ∧
      (takesBeat i = false → served = none))) ∧
  (∀ (s : State) (i : Instr), s.hart.par = none → unordered exec s i = exec i s) ∧
  (∀ (old : Hart) (t : State) (i : Instr),
    (∀ h ∈ t.hart :: (t.others ++ t.saved), h.queue = [] ∧ h.front = none ∧ h.lastSlot = 0 ∧ h.current = none ∧
      staysAt old i h = false ∧ (inBarrier h = false ∨ h.pc ≠ old.pc)) → dequeue old i t = t) ∧
  (∀ s t : State, (∀ h ∈ contexts t, h.owes55 = true → h.phase = .launched → ∀ k, contextOf s h.cid = some k →
    k.owes55 = true ∨ k.phase ≠ .launched) → afterRebind exec s t = t) ∧
  (∀ (old : Hart) (t : State) (i : Instr), t.hart.phase ≠ .free → t.hart.cid = old.cid → staysAt old i t.hart = true →
    otherReplica old t.hart = false → (dequeue old i t).hart.current = some (old.pc, i) ∧
      ∀ u, u.hart = (dequeue old i t).hart → fetchedBefore u = some i) ∧
  ∀ (s t : State) (j : Option Nat), Alone s t →
    endTurn s j t = { t with
      cycle := t.cycle + Config.cyclesTaken t.cycle, draws := t.draws + 4, slice := false, tock := true }

/-- R83, R87 and chapter 6's encodings: words written out from the spec decode to the instructions that they stand for. -/
def Obligations.DecodeWords : Prop :=
  decodeTableWord 32 0x11CE3FFD = some (.addi 7 7 (-1)) ∧
  decodeTableWord 32 0x218AC001 = some (.ldd 6 5 0) ∧
  decodeTableWord 32 0x5800000D = some .exit ∧
  decodeTableWord 32 0x58014045 = some (.fenceVs .device) ∧
  decodeTableWord 32 0x70C3E301 = some (.vadd 3 1 (.vi 30) 1) ∧
  decodeTableWord 16 0x05FE = some (.cAddi 5 (-1))

/-- R83 to R101: the decoder reads every encoded, well-formed instruction back from its bytes, with every operand, and leaves
the bytes that follow. -/
def Obligations.DecodeEncode : Prop :=
  ∀ (i : Instr) (l : List Byte), isEncoded i = true → wellFormed i = true → decode (encodeBytes i ++ l) = .ok (i, l)

/-- System memory and what the instruction caches see stay in canonical form: addresses strictly rising, no byte listed that
reads as an unlisted one does. It rests on the model's choices of log 2. -/
def Obligations.MemoryCanonical : Prop :=
  ∀ s t : State, s.mem.wf → (∀ fe, (frontEnd s fe).imem.wf) → step s = .next t → t.mem.wf ∧ ∀ fe, (frontEnd t fe).imem.wf

/-- R23, R40 and R395, with the values that the model names where the spec gives none (log 1, log 2): at reset no hart runs
and nothing is queued; memory lists nothing and is in canonical form; hart slot 0 belongs to the device partition with 256 KiB
of scratchpad, every other slot to none; slots have the default depth range; front end 0's beats belong to the device
partition. -/
def Obligations.ResetState : Prop :=
  let s := State.reset
  s.up = false ∧ s.hart.phase = .free ∧ s.others = [] ∧ s.saved = [] ∧ s.gangs = [] ∧ s.pool = [] ∧ s.svc.calls = [] ∧
  s.mem.wf ∧ (∀ fe, (frontEnd s fe).imem.wf) ∧ (∀ a, s.mem.read a = 0) ∧ s.poison = [] ∧
  (∀ n, field (slotCfg s n).part 0 4 = if n = 0 then 12 else 15) ∧ spLen (slotCfg s 0).part = 0x40000 ∧
  (∀ n, rowLength (slotCfg s n).rowrange = 512 ∧ field (slotCfg s n).rowrange 0 12 = 512 * (n % 4)) ∧
  (∀ fe k, k < 16 → field (frontEnd s fe).beatmap (4 * k) 4 = if fe = 0 then 12 else 15) ∧
  (∀ p, (part s p).logHead = 0 ∧ (part s p).timer = 0 ∧ (part s p).quarantined = false ∧ (part s p).pending = []) ∧
  ∀ k, k < 16 → bit (s.hart.csr.wm.toList.getD k 0) 0 = false
end

