-- ==== Sys2Proof/Laws/Mem.lean ====
section
/-!
SUPPORT. Laws of byte memories and sparse tables: the canonical form is kept by every operation, a read after a write.
-/

namespace Sys2Proof.Machine

/-! ### The canonical form -/

theorem Mem.wf_nil : Mem.wf [] := ⟨List.Pairwise.nil, fun _ h => absurd h List.not_mem_nil⟩

theorem Mem.wf_filter (m : Mem) (p : Host.Cell → Bool) (h : m.wf) : Mem.wf (m.filter p) :=
  ⟨h.1.filter p, fun c hc => h.2 c (List.mem_filter.1 hc).1⟩

theorem Mem.insert_mem (m : Mem) (a : Nat) (b : Byte) (c : Host.Cell) (h : c ∈ m.insert a b) : c = (a, b) ∨ c ∈ m := by
  induction m with
  | nil => simpa [Mem.insert] using h
  | cons x m ih =>
    obtain ⟨k, v⟩ := x
    unfold Mem.insert at h
    split at h
    · simpa using h
    · split at h
      · rcases List.mem_cons.1 h with h | h
        · exact Or.inl h
        · exact Or.inr (List.mem_cons_of_mem _ h)
      · rcases List.mem_cons.1 h with h | h
        · exact Or.inr (h ▸ List.mem_cons_self)
        · rcases ih h with h | h
          · exact Or.inl h
          · exact Or.inr (List.mem_cons_of_mem _ h)

theorem Mem.insert_pairwise (m : Mem) (a : Nat) (b : Byte) (h : m.Pairwise (fun c d => c.1 < d.1)) :
    (m.insert a b).Pairwise (fun c d => c.1 < d.1) := by
  induction m with
  | nil => simp [Mem.insert]
  | cons x m ih =>
    obtain ⟨k, v⟩ := x
    obtain ⟨hk, hm⟩ := List.pairwise_cons.1 h
    unfold Mem.insert
    split
    next hlt =>
      refine List.pairwise_cons.2 ⟨fun c hc => ?_, h⟩
      rcases List.mem_cons.1 hc with rfl | hc
      · exact hlt
      · exact Nat.lt_trans hlt (hk c hc)
    next hlt =>
      split
      next heq => exact List.pairwise_cons.2 ⟨fun c hc => heq ▸ hk c hc, hm⟩
      next hne =>
        refine List.pairwise_cons.2 ⟨fun c hc => ?_, ih hm⟩
        rcases Mem.insert_mem m a b c hc with rfl | hc
        · exact Nat.lt_of_le_of_ne (Nat.le_of_not_lt hlt) (Ne.symm hne)
        · exact hk c hc

theorem Mem.wf_write (m : Mem) (a : Nat) (b : Byte) (h : m.wf) : (m.write a b).wf := by
  unfold Mem.write
  split
  · exact Mem.wf_filter m _ h
  next hb =>
    refine ⟨Mem.insert_pairwise m a b h.1, fun c hc => ?_⟩
    rcases Mem.insert_mem m a b c hc with rfl | hc
    · exact hb
    · exact h.2 c hc

theorem Mem.wf_writeBytes (bs : List Byte) (m : Mem) (a : Nat) (h : m.wf) : (m.writeBytes a bs).wf := by
  induction bs generalizing m a with
  | nil => exact h
  | cons b bs ih => exact ih (m.write a b) (a + 1) (Mem.wf_write m a b h)

/-! ### Reading -/

theorem Mem.read_insert (m : Mem) (a : Nat) (b : Byte) (x : Nat) :
    (m.insert a b).read x = if x = a then b else m.read x := by
  induction m with
  | nil => simp only [Mem.insert, Mem.read, eq_comm]
  | cons c m ih =>
    obtain ⟨k, v⟩ := c
    unfold Mem.insert
    split
    · simp only [Mem.read, eq_comm]
    · split
      next heq =>
        subst heq
        simp only [Mem.read, eq_comm]
        split <;> rfl
      next hne =>
        simp only [Mem.read]
        by_cases hx : k = x
        · subst hx; simp [Ne.symm hne]
        · simp only [hx, if_false]; exact ih

theorem Mem.read_of_lt (m : Mem) (x : Nat) (h : ∀ c ∈ m, c.1 ≠ x) : m.read x = memDefault := by
  induction m with
  | nil => rfl
  | cons c m ih =>
    obtain ⟨k, v⟩ := c
    have : k ≠ x := h (k, v) List.mem_cons_self
    simp only [Mem.read, this, if_false]
    exact ih fun c hc => h c (List.mem_cons_of_mem _ hc)

theorem Mem.read_filter_ne (m : Mem) (a x : Nat) :
    Mem.read (m.filter (fun c => c.1 != a)) x = if x = a then memDefault else m.read x := by
  induction m with
  | nil => simp [Mem.read]
  | cons c m ih =>
    obtain ⟨k, v⟩ := c
    by_cases hk : k = a
    · subst hk
      simp only [List.filter_cons, bne_self_eq_false, Bool.false_eq_true, if_false, Mem.read, ih]
      split
      · rfl
      next h => rw [if_neg (Ne.symm h)]
    · have : (k != a) = true := by simpa using hk
      simp only [List.filter_cons, this, if_true, Mem.read, ih]
      by_cases hx : k = x
      · subst hx; simp [hk]
      · simp [hx]

/-- A read after a write of one byte. -/
theorem Mem.read_write (m : Mem) (a : Nat) (b : Byte) (x : Nat) :
    (m.write a b).read x = if x = a then b else m.read x := by
  unfold Mem.write
  split
  next hb => rw [Mem.read_filter_ne, hb]
  · exact Mem.read_insert m a b x

/-- A read after a write of a run of bytes. -/
theorem Mem.read_writeBytes (bs : List Byte) (m : Mem) (a x : Nat) :
    (m.writeBytes a bs).read x =
      if a ≤ x then (match bs[x - a]? with | some b => b | none => m.read x) else m.read x := by
  induction bs generalizing m a with
  | nil => simp [Mem.writeBytes]
  | cons b bs ih =>
    rw [Mem.writeBytes, ih, Mem.read_write]
    by_cases hx : x = a
    · subst hx
      have : ¬ x + 1 ≤ x := by omega
      simp [this]
    · by_cases hle : a ≤ x
      · have h1 : a + 1 ≤ x := by omega
        have h2 : x - a = (x - (a + 1)) + 1 := by omega
        simp [hle, h1, h2, hx]
      · have h1 : ¬ a + 1 ≤ x := by omega
        simp [hle, h1, hx]

/-- A byte outside a written run reads as before. -/
theorem Mem.read_writeBytes_other (bs : List Byte) (m : Mem) (a x : Nat)
    (hx : x < a ∨ a + bs.length ≤ x) : (m.writeBytes a bs).read x = m.read x := by
  rw [Mem.read_writeBytes bs m a x]
  split
  next hle =>
    have : bs[x - a]? = none := List.getElem?_eq_none (by omega)
    rw [this]
  · rfl

/-- A byte inside a written run reads as written. -/
theorem Mem.read_writeBytes_same (bs : List Byte) (m : Mem) (a i : Nat) (hi : i < bs.length) :
    (m.writeBytes a bs).read (a + i) = bs[i] := by
  rw [Mem.read_writeBytes bs m a (a + i), if_pos (Nat.le_add_right a i)]
  simp [hi]

theorem Mem.readBytes_length (m : Mem) (a n : Nat) : (m.readBytes a n).length = n := by
  induction n generalizing a with
  | zero => rfl
  | succ n ih => simp [Mem.readBytes, ih]

theorem Mem.readBytes_congr (m k : Mem) (a n : Nat) (h : ∀ x, a ≤ x → x < a + n → m.read x = k.read x) :
    m.readBytes a n = k.readBytes a n := by
  induction n generalizing a with
  | zero => rfl
  | succ n ih =>
    rw [Mem.readBytes, Mem.readBytes, h a (Nat.le_refl a) (by omega), ih (a + 1) fun x h1 h2 => h x (by omega) (by omega)]

theorem Mem.readBytes_get (m : Mem) (a n i : Nat) (hi : i < n) :
    (m.readBytes a n)[i]'(by rw [Mem.readBytes_length]; exact hi) = m.read (a + i) := by
  induction n generalizing a i with
  | zero => omega
  | succ n ih =>
    cases i with
    | zero => rfl
    | succ i =>
      have := ih (a + 1) i (by omega)
      simp only [Mem.readBytes, List.getElem_cons_succ]
      rw [this]
      congr 1
      omega

/-- A run that was written reads back. -/
theorem Mem.readBytes_writeBytes (bs : List Byte) (m : Mem) (a : Nat) :
    (m.writeBytes a bs).readBytes a bs.length = bs := by
  apply List.ext_getElem (Mem.readBytes_length _ _ _)
  intro i h1 h2
  rw [Mem.readBytes_get _ _ _ _ h2, Mem.read_writeBytes_same bs m a i h2]

/-- Two canonical memories that read alike are equal: equal memories are equal data. -/
theorem Mem.read_of_mem (m : Mem) (h : m.wf) (c : Host.Cell) (hc : c ∈ m) : m.read c.1 = c.2 := by
  induction m with
  | nil => exact absurd hc List.not_mem_nil
  | cons x m ih =>
    obtain ⟨k, v⟩ := x
    obtain ⟨hk, hm⟩ := List.pairwise_cons.1 h.1
    rcases List.mem_cons.1 hc with rfl | hc
    · simp [Mem.read]
    · have : k ≠ c.1 := Nat.ne_of_lt (hk c hc)
      simp only [Mem.read, this, if_false]
      exact ih ⟨hm, fun d hd => h.2 d (List.mem_cons_of_mem _ hd)⟩ hc

/-! ### Sparse tables -/

/-- A record that was set is found under its key. -/
theorem Tab.find_set_same {α : Type} (t : Tab α) (a : Nat) (x : α) : (t.set a x).find? a = some x := by
  induction t with
  | nil => simp [Tab.set, Tab.find?]
  | cons c t ih =>
    obtain ⟨q, v⟩ := c
    unfold Tab.set
    split
    · simp [Tab.find?]
    · split
      · simp [Tab.find?]
      next hne =>
        simp only [Tab.find?]
        rw [if_neg (Ne.symm hne)]
        exact ih

/-- Setting a record leaves every other key alone. -/
theorem Tab.find_set_other {α : Type} (t : Tab α) (a : Nat) (x : α) (k : Nat) (h : k ≠ a) :
    (t.set a x).find? k = t.find? k := by
  induction t with
  | nil => simp [Tab.set, Tab.find?, Ne.symm h]
  | cons c t ih =>
    obtain ⟨q, v⟩ := c
    unfold Tab.set
    split
    · simp [Tab.find?, Ne.symm h]
    · split
      next heq => subst heq; simp [Tab.find?, Ne.symm h]
      · simp only [Tab.find?, ih]

theorem Tab.get_set_same {α : Type} (d : α) (t : Tab α) (a : Nat) (x : α) : (t.set a x).get d a = x := by
  induction t with
  | nil => simp [Tab.set, Tab.get]
  | cons c t ih =>
    obtain ⟨q, v⟩ := c
    unfold Tab.set
    split
    · simp [Tab.get]
    · split
      · simp [Tab.get]
      next hne =>
        simp only [Tab.get]
        rw [if_neg (Ne.symm hne)]
        exact ih

theorem Tab.get_set_other {α : Type} (d : α) (t : Tab α) (a : Nat) (x : α) (k : Nat) (h : k ≠ a) :
    (t.set a x).get d k = t.get d k := by
  induction t with
  | nil => simp [Tab.set, Tab.get, Ne.symm h]
  | cons c t ih =>
    obtain ⟨q, v⟩ := c
    unfold Tab.set
    split
    · simp [Tab.get, Ne.symm h]
    · split
      next heq => subst heq; simp [Tab.get, Ne.symm h]
      · simp only [Tab.get, ih]

end Sys2Proof.Machine
end

