-- ==== Sys2Proof/Laws/State.lean ====
section
/-!
SUPPORT. One lemma for each field that an update of registers leaves alone: proofs rewrite with them and unfold no record
update.
-/

namespace Sys2Proof.Machine

/-! ### `advance` -/

@[simp] theorem advance_up (n : Nat) (s : State) : (advance n s).up = s.up := rfl
@[simp] theorem advance_others (n : Nat) (s : State) : (advance n s).others = s.others := rfl
@[simp] theorem advance_saved (n : Nat) (s : State) : (advance n s).saved = s.saved := rfl
@[simp] theorem advance_mem (n : Nat) (s : State) : (advance n s).mem = s.mem := rfl
@[simp] theorem advance_poison (n : Nat) (s : State) : (advance n s).poison = s.poison := rfl
@[simp] theorem advance_markDeny (n : Nat) (s : State) : (advance n s).markDeny = s.markDeny := rfl
@[simp] theorem advance_sriov (n : Nat) (s : State) : (advance n s).sriov = s.sriov := rfl
@[simp] theorem advance_slots (n : Nat) (s : State) : (advance n s).slots = s.slots := rfl
@[simp] theorem advance_fes (n : Nat) (s : State) : (advance n s).fes = s.fes := rfl
@[simp] theorem advance_fencedHalves (n : Nat) (s : State) : (advance n s).fencedHalves = s.fencedHalves := rfl
@[simp] theorem advance_parts (n : Nat) (s : State) : (advance n s).parts = s.parts := rfl
@[simp] theorem advance_gangs (n : Nat) (s : State) : (advance n s).gangs = s.gangs := rfl
@[simp] theorem advance_pool (n : Nat) (s : State) : (advance n s).pool = s.pool := rfl
@[simp] theorem advance_moves (n : Nat) (s : State) : (advance n s).moves = s.moves := rfl
@[simp] theorem advance_copies (n : Nat) (s : State) : (advance n s).copies = s.copies := rfl
@[simp] theorem advance_entries (n : Nat) (s : State) : (advance n s).entries = s.entries := rfl
@[simp] theorem advance_engines (n : Nat) (s : State) : (advance n s).engines = s.engines := rfl
@[simp] theorem advance_merges (n : Nat) (s : State) : (advance n s).merges = s.merges := rfl
@[simp] theorem advance_marks (n : Nat) (s : State) : (advance n s).marks = s.marks := rfl
@[simp] theorem advance_links (n : Nat) (s : State) : (advance n s).links = s.links := rfl
@[simp] theorem advance_cold (n : Nat) (s : State) : (advance n s).cold = s.cold := rfl
@[simp] theorem advance_vaults (n : Nat) (s : State) : (advance n s).vaults = s.vaults := rfl
@[simp] theorem advance_svc (n : Nat) (s : State) : (advance n s).svc = s.svc := rfl
@[simp] theorem advance_pf0 (n : Nat) (s : State) : (advance n s).pf0 = s.pf0 := rfl
@[simp] theorem advance_hostDeny (n : Nat) (s : State) : (advance n s).hostDeny = s.hostDeny := rfl
@[simp] theorem advance_peerDeny (n : Nat) (s : State) : (advance n s).peerDeny = s.peerDeny := rfl
@[simp] theorem advance_residue (n : Nat) (s : State) : (advance n s).residue = s.residue := rfl
@[simp] theorem advance_throttled (n : Nat) (s : State) : (advance n s).throttled = s.throttled := rfl
@[simp] theorem advance_cycle (n : Nat) (s : State) : (advance n s).cycle = s.cycle := rfl
@[simp] theorem advance_nextId (n : Nat) (s : State) : (advance n s).nextId = s.nextId := rfl
@[simp] theorem advance_draws (n : Nat) (s : State) : (advance n s).draws = s.draws := rfl
@[simp] theorem advance_tock (n : Nat) (s : State) : (advance n s).tock = s.tock := rfl
@[simp] theorem advance_slice (n : Nat) (s : State) : (advance n s).slice = s.slice := rfl
@[simp] theorem advance_agenda (n : Nat) (s : State) : (advance n s).agenda = s.agenda := rfl
@[simp] theorem advance_hart_cid (n : Nat) (s : State) :
    (advance n s).hart.cid = s.hart.cid := rfl
@[simp] theorem advance_hart_phase (n : Nat) (s : State) :
    (advance n s).hart.phase = s.hart.phase := rfl
@[simp] theorem advance_hart_current (n : Nat) (s : State) :
    (advance n s).hart.current = s.hart.current := rfl
@[simp] theorem advance_hart_issued (n : Nat) (s : State) :
    (advance n s).hart.issued = s.hart.issued := rfl
@[simp] theorem advance_hart_headed (n : Nat) (s : State) :
    (advance n s).hart.headed = s.hart.headed := rfl
@[simp] theorem advance_hart_probed (n : Nat) (s : State) :
    (advance n s).hart.probed = s.hart.probed := rfl
@[simp] theorem advance_hart_offsets (n : Nat) (s : State) :
    (advance n s).hart.offsets = s.hart.offsets := rfl
@[simp] theorem advance_hart_wrote (n : Nat) (s : State) :
    (advance n s).hart.wrote = s.hart.wrote := rfl
@[simp] theorem advance_hart_heldFault (n : Nat) (s : State) :
    (advance n s).hart.heldFault = s.hart.heldFault := rfl
@[simp] theorem advance_hart_lastSlot (n : Nat) (s : State) :
    (advance n s).hart.lastSlot = s.hart.lastSlot := rfl
@[simp] theorem advance_hart_stopPending (n : Nat) (s : State) :
    (advance n s).hart.stopPending = s.hart.stopPending := rfl
@[simp] theorem advance_hart_stopped (n : Nat) (s : State) :
    (advance n s).hart.stopped = s.hart.stopped := rfl
@[simp] theorem advance_hart_due (n : Nat) (s : State) :
    (advance n s).hart.due = s.hart.due := rfl
@[simp] theorem advance_hart_member (n : Nat) (s : State) :
    (advance n s).hart.member = s.hart.member := rfl
@[simp] theorem advance_hart_homeGang (n : Nat) (s : State) :
    (advance n s).hart.homeGang = s.hart.homeGang := rfl
@[simp] theorem advance_hart_leasePending (n : Nat) (s : State) :
    (advance n s).hart.leasePending = s.hart.leasePending := rfl
@[simp] theorem advance_hart_inProgress (n : Nat) (s : State) :
    (advance n s).hart.inProgress = s.hart.inProgress := rfl
@[simp] theorem advance_hart_fromZero (n : Nat) (s : State) :
    (advance n s).hart.fromZero = s.hart.fromZero := rfl
@[simp] theorem advance_hart_held (n : Nat) (s : State) :
    (advance n s).hart.held = s.hart.held := rfl
@[simp] theorem advance_hart_queue (n : Nat) (s : State) :
    (advance n s).hart.queue = s.hart.queue := rfl
@[simp] theorem advance_hart_front (n : Nat) (s : State) :
    (advance n s).hart.front = s.hart.front := rfl
@[simp] theorem advance_hart_gates (n : Nat) (s : State) :
    (advance n s).hart.gates = s.hart.gates := rfl
@[simp] theorem advance_hart_vecFences (n : Nat) (s : State) :
    (advance n s).hart.vecFences = s.hart.vecFences := rfl
@[simp] theorem advance_hart_age (n : Nat) (s : State) :
    (advance n s).hart.age = s.hart.age := rfl
@[simp] theorem advance_hart_yielded (n : Nat) (s : State) :
    (advance n s).hart.yielded = s.hart.yielded := rfl
@[simp] theorem advance_hart_stalled (n : Nat) (s : State) :
    (advance n s).hart.stalled = s.hart.stalled := rfl
@[simp] theorem advance_hart_bound (n : Nat) (s : State) :
    (advance n s).hart.bound = s.hart.bound := rfl
@[simp] theorem advance_hart_retry (n : Nat) (s : State) :
    (advance n s).hart.retry = s.hart.retry := rfl
@[simp] theorem advance_hart_waitNs (n : Nat) (s : State) :
    (advance n s).hart.waitNs = s.hart.waitNs := rfl
@[simp] theorem advance_hart_waitSince (n : Nat) (s : State) :
    (advance n s).hart.waitSince = s.hart.waitSince := rfl
@[simp] theorem advance_hart_call (n : Nat) (s : State) :
    (advance n s).hart.call = s.hart.call := rfl
@[simp] theorem advance_hart_reply (n : Nat) (s : State) :
    (advance n s).hart.reply = s.hart.reply := rfl
@[simp] theorem advance_hart_coldErrors (n : Nat) (s : State) :
    (advance n s).hart.coldErrors = s.hart.coldErrors := rfl
@[simp] theorem advance_hart_owes12 (n : Nat) (s : State) :
    (advance n s).hart.owes12 = s.hart.owes12 := rfl
@[simp] theorem advance_hart_owes55 (n : Nat) (s : State) :
    (advance n s).hart.owes55 = s.hart.owes55 := rfl
@[simp] theorem advance_hart_saveArea (n : Nat) (s : State) :
    (advance n s).hart.saveArea = s.hart.saveArea := rfl
@[simp] theorem advance_hart_areaWritten (n : Nat) (s : State) :
    (advance n s).hart.areaWritten = s.hart.areaWritten := rfl
@[simp] theorem advance_hart_savedPart (n : Nat) (s : State) :
    (advance n s).hart.savedPart = s.hart.savedPart := rfl
@[simp] theorem advance_hart_savedScratch (n : Nat) (s : State) :
    (advance n s).hart.savedScratch = s.hart.savedScratch := rfl
@[simp] theorem advance_hart_savedPoison (n : Nat) (s : State) :
    (advance n s).hart.savedPoison = s.hart.savedPoison := rfl
@[simp] theorem advance_hart_wait (n : Nat) (s : State) :
    (advance n s).hart.wait = s.hart.wait := rfl
@[simp] theorem advance_hart_slot (n : Nat) (s : State) :
    (advance n s).hart.slot = s.hart.slot := rfl
@[simp] theorem advance_hart_partId (n : Nat) (s : State) :
    (advance n s).hart.partId = s.hart.partId := rfl
@[simp] theorem advance_hart_gangStack (n : Nat) (s : State) :
    (advance n s).hart.gangStack = s.hart.gangStack := rfl
@[simp] theorem advance_hart_gang (n : Nat) (s : State) :
    (advance n s).hart.gang = s.hart.gang := rfl
@[simp] theorem advance_hart_g (n : Nat) (s : State) :
    (advance n s).hart.g = s.hart.g := rfl
@[simp] theorem advance_hart_depth (n : Nat) (s : State) :
    (advance n s).hart.depth = s.hart.depth := rfl
@[simp] theorem advance_hart_regs (n : Nat) (s : State) :
    (advance n s).hart.regs = s.hart.regs := rfl
@[simp] theorem advance_hart_vregs (n : Nat) (s : State) :
    (advance n s).hart.vregs = s.hart.vregs := rfl
@[simp] theorem advance_hart_mregs (n : Nat) (s : State) :
    (advance n s).hart.mregs = s.hart.mregs := rfl
@[simp] theorem advance_hart_kregs (n : Nat) (s : State) :
    (advance n s).hart.kregs = s.hart.kregs := rfl
@[simp] theorem advance_hart_csr (n : Nat) (s : State) :
    (advance n s).hart.csr = s.hart.csr := rfl
@[simp] theorem advance_hart_loops (n : Nat) (s : State) :
    (advance n s).hart.loops = s.hart.loops := rfl
@[simp] theorem advance_hart_regions (n : Nat) (s : State) :
    (advance n s).hart.regions = s.hart.regions := rfl
@[simp] theorem advance_hart_aside (n : Nat) (s : State) :
    (advance n s).hart.aside = s.hart.aside := rfl
@[simp] theorem advance_hart_streams (n : Nat) (s : State) :
    (advance n s).hart.streams = s.hart.streams := rfl
@[simp] theorem advance_hart_par (n : Nat) (s : State) :
    (advance n s).hart.par = s.hart.par := rfl
@[simp] theorem advance_hart_accWin (n : Nat) (s : State) :
    (advance n s).hart.accWin = s.hart.accWin := rfl
@[simp] theorem advance_hart_rows (n : Nat) (s : State) :
    (advance n s).hart.rows = s.hart.rows := rfl
@[simp] theorem advance_hart_rowPoison (n : Nat) (s : State) :
    (advance n s).hart.rowPoison = s.hart.rowPoison := rfl
@[simp] theorem advance_hart_grant (n : Nat) (s : State) :
    (advance n s).hart.grant = s.hart.grant := rfl
@[simp] theorem advance_hart_acc (n : Nat) (s : State) :
    (advance n s).hart.acc = s.hart.acc := rfl
@[simp] theorem advance_hart_accPoison (n : Nat) (s : State) :
    (advance n s).hart.accPoison = s.hart.accPoison := rfl
@[simp] theorem advance_hart_accLease (n : Nat) (s : State) :
    (advance n s).hart.accLease = s.hart.accLease := rfl
@[simp] theorem advance_hart_genCache (n : Nat) (s : State) :
    (advance n s).hart.genCache = s.hart.genCache := rfl
@[simp] theorem advance_hart_leaseNext (n : Nat) (s : State) :
    (advance n s).hart.leaseNext = s.hart.leaseNext := rfl
@[simp] theorem advance_hart_fed (n : Nat) (s : State) :
    (advance n s).hart.fed = s.hart.fed := rfl
@[simp] theorem advance_hart_lag (n : Nat) (s : State) :
    (advance n s).hart.lag = s.hart.lag := rfl
@[simp] theorem advance_hart_posted (n : Nat) (s : State) :
    (advance n s).hart.posted = s.hart.posted := rfl
@[simp] theorem advance_hart_replies (n : Nat) (s : State) :
    (advance n s).hart.replies = s.hart.replies := rfl

/-! ### `jumpTo` -/

@[simp] theorem jumpTo_up (s : State) (p : Word) : (jumpTo s p).up = s.up := rfl
@[simp] theorem jumpTo_others (s : State) (p : Word) : (jumpTo s p).others = s.others := rfl
@[simp] theorem jumpTo_saved (s : State) (p : Word) : (jumpTo s p).saved = s.saved := rfl
@[simp] theorem jumpTo_mem (s : State) (p : Word) : (jumpTo s p).mem = s.mem := rfl
@[simp] theorem jumpTo_poison (s : State) (p : Word) : (jumpTo s p).poison = s.poison := rfl
@[simp] theorem jumpTo_markDeny (s : State) (p : Word) : (jumpTo s p).markDeny = s.markDeny := rfl
@[simp] theorem jumpTo_sriov (s : State) (p : Word) : (jumpTo s p).sriov = s.sriov := rfl
@[simp] theorem jumpTo_slots (s : State) (p : Word) : (jumpTo s p).slots = s.slots := rfl
@[simp] theorem jumpTo_fes (s : State) (p : Word) : (jumpTo s p).fes = s.fes := rfl
@[simp] theorem jumpTo_fencedHalves (s : State) (p : Word) : (jumpTo s p).fencedHalves = s.fencedHalves := rfl
@[simp] theorem jumpTo_parts (s : State) (p : Word) : (jumpTo s p).parts = s.parts := rfl
@[simp] theorem jumpTo_gangs (s : State) (p : Word) : (jumpTo s p).gangs = s.gangs := rfl
@[simp] theorem jumpTo_pool (s : State) (p : Word) : (jumpTo s p).pool = s.pool := rfl
@[simp] theorem jumpTo_moves (s : State) (p : Word) : (jumpTo s p).moves = s.moves := rfl
@[simp] theorem jumpTo_copies (s : State) (p : Word) : (jumpTo s p).copies = s.copies := rfl
@[simp] theorem jumpTo_entries (s : State) (p : Word) : (jumpTo s p).entries = s.entries := rfl
@[simp] theorem jumpTo_engines (s : State) (p : Word) : (jumpTo s p).engines = s.engines := rfl
@[simp] theorem jumpTo_merges (s : State) (p : Word) : (jumpTo s p).merges = s.merges := rfl
@[simp] theorem jumpTo_marks (s : State) (p : Word) : (jumpTo s p).marks = s.marks := rfl
@[simp] theorem jumpTo_links (s : State) (p : Word) : (jumpTo s p).links = s.links := rfl
@[simp] theorem jumpTo_cold (s : State) (p : Word) : (jumpTo s p).cold = s.cold := rfl
@[simp] theorem jumpTo_vaults (s : State) (p : Word) : (jumpTo s p).vaults = s.vaults := rfl
@[simp] theorem jumpTo_svc (s : State) (p : Word) : (jumpTo s p).svc = s.svc := rfl
@[simp] theorem jumpTo_pf0 (s : State) (p : Word) : (jumpTo s p).pf0 = s.pf0 := rfl
@[simp] theorem jumpTo_hostDeny (s : State) (p : Word) : (jumpTo s p).hostDeny = s.hostDeny := rfl
@[simp] theorem jumpTo_peerDeny (s : State) (p : Word) : (jumpTo s p).peerDeny = s.peerDeny := rfl
@[simp] theorem jumpTo_residue (s : State) (p : Word) : (jumpTo s p).residue = s.residue := rfl
@[simp] theorem jumpTo_throttled (s : State) (p : Word) : (jumpTo s p).throttled = s.throttled := rfl
@[simp] theorem jumpTo_cycle (s : State) (p : Word) : (jumpTo s p).cycle = s.cycle := rfl
@[simp] theorem jumpTo_nextId (s : State) (p : Word) : (jumpTo s p).nextId = s.nextId := rfl
@[simp] theorem jumpTo_draws (s : State) (p : Word) : (jumpTo s p).draws = s.draws := rfl
@[simp] theorem jumpTo_tock (s : State) (p : Word) : (jumpTo s p).tock = s.tock := rfl
@[simp] theorem jumpTo_slice (s : State) (p : Word) : (jumpTo s p).slice = s.slice := rfl
@[simp] theorem jumpTo_agenda (s : State) (p : Word) : (jumpTo s p).agenda = s.agenda := rfl
@[simp] theorem jumpTo_hart_cid (s : State) (p : Word) :
    (jumpTo s p).hart.cid = s.hart.cid := rfl
@[simp] theorem jumpTo_hart_phase (s : State) (p : Word) :
    (jumpTo s p).hart.phase = s.hart.phase := rfl
@[simp] theorem jumpTo_hart_current (s : State) (p : Word) :
    (jumpTo s p).hart.current = s.hart.current := rfl
@[simp] theorem jumpTo_hart_issued (s : State) (p : Word) :
    (jumpTo s p).hart.issued = s.hart.issued := rfl
@[simp] theorem jumpTo_hart_headed (s : State) (p : Word) :
    (jumpTo s p).hart.headed = s.hart.headed := rfl
@[simp] theorem jumpTo_hart_probed (s : State) (p : Word) :
    (jumpTo s p).hart.probed = s.hart.probed := rfl
@[simp] theorem jumpTo_hart_offsets (s : State) (p : Word) :
    (jumpTo s p).hart.offsets = s.hart.offsets := rfl
@[simp] theorem jumpTo_hart_wrote (s : State) (p : Word) :
    (jumpTo s p).hart.wrote = s.hart.wrote := rfl
@[simp] theorem jumpTo_hart_heldFault (s : State) (p : Word) :
    (jumpTo s p).hart.heldFault = s.hart.heldFault := rfl
@[simp] theorem jumpTo_hart_lastSlot (s : State) (p : Word) :
    (jumpTo s p).hart.lastSlot = s.hart.lastSlot := rfl
@[simp] theorem jumpTo_hart_stopPending (s : State) (p : Word) :
    (jumpTo s p).hart.stopPending = s.hart.stopPending := rfl
@[simp] theorem jumpTo_hart_stopped (s : State) (p : Word) :
    (jumpTo s p).hart.stopped = s.hart.stopped := rfl
@[simp] theorem jumpTo_hart_due (s : State) (p : Word) :
    (jumpTo s p).hart.due = s.hart.due := rfl
@[simp] theorem jumpTo_hart_member (s : State) (p : Word) :
    (jumpTo s p).hart.member = s.hart.member := rfl
@[simp] theorem jumpTo_hart_homeGang (s : State) (p : Word) :
    (jumpTo s p).hart.homeGang = s.hart.homeGang := rfl
@[simp] theorem jumpTo_hart_leasePending (s : State) (p : Word) :
    (jumpTo s p).hart.leasePending = s.hart.leasePending := rfl
@[simp] theorem jumpTo_hart_inProgress (s : State) (p : Word) :
    (jumpTo s p).hart.inProgress = s.hart.inProgress := rfl
@[simp] theorem jumpTo_hart_fromZero (s : State) (p : Word) :
    (jumpTo s p).hart.fromZero = s.hart.fromZero := rfl
@[simp] theorem jumpTo_hart_held (s : State) (p : Word) :
    (jumpTo s p).hart.held = s.hart.held := rfl
@[simp] theorem jumpTo_hart_queue (s : State) (p : Word) :
    (jumpTo s p).hart.queue = s.hart.queue := rfl
@[simp] theorem jumpTo_hart_front (s : State) (p : Word) :
    (jumpTo s p).hart.front = s.hart.front := rfl
@[simp] theorem jumpTo_hart_gates (s : State) (p : Word) :
    (jumpTo s p).hart.gates = s.hart.gates := rfl
@[simp] theorem jumpTo_hart_vecFences (s : State) (p : Word) :
    (jumpTo s p).hart.vecFences = s.hart.vecFences := rfl
@[simp] theorem jumpTo_hart_age (s : State) (p : Word) :
    (jumpTo s p).hart.age = s.hart.age := rfl
@[simp] theorem jumpTo_hart_yielded (s : State) (p : Word) :
    (jumpTo s p).hart.yielded = s.hart.yielded := rfl
@[simp] theorem jumpTo_hart_stalled (s : State) (p : Word) :
    (jumpTo s p).hart.stalled = s.hart.stalled := rfl
@[simp] theorem jumpTo_hart_bound (s : State) (p : Word) :
    (jumpTo s p).hart.bound = s.hart.bound := rfl
@[simp] theorem jumpTo_hart_retry (s : State) (p : Word) :
    (jumpTo s p).hart.retry = s.hart.retry := rfl
@[simp] theorem jumpTo_hart_waitNs (s : State) (p : Word) :
    (jumpTo s p).hart.waitNs = s.hart.waitNs := rfl
@[simp] theorem jumpTo_hart_waitSince (s : State) (p : Word) :
    (jumpTo s p).hart.waitSince = s.hart.waitSince := rfl
@[simp] theorem jumpTo_hart_call (s : State) (p : Word) :
    (jumpTo s p).hart.call = s.hart.call := rfl
@[simp] theorem jumpTo_hart_reply (s : State) (p : Word) :
    (jumpTo s p).hart.reply = s.hart.reply := rfl
@[simp] theorem jumpTo_hart_coldErrors (s : State) (p : Word) :
    (jumpTo s p).hart.coldErrors = s.hart.coldErrors := rfl
@[simp] theorem jumpTo_hart_owes12 (s : State) (p : Word) :
    (jumpTo s p).hart.owes12 = s.hart.owes12 := rfl
@[simp] theorem jumpTo_hart_owes55 (s : State) (p : Word) :
    (jumpTo s p).hart.owes55 = s.hart.owes55 := rfl
@[simp] theorem jumpTo_hart_saveArea (s : State) (p : Word) :
    (jumpTo s p).hart.saveArea = s.hart.saveArea := rfl
@[simp] theorem jumpTo_hart_areaWritten (s : State) (p : Word) :
    (jumpTo s p).hart.areaWritten = s.hart.areaWritten := rfl
@[simp] theorem jumpTo_hart_savedPart (s : State) (p : Word) :
    (jumpTo s p).hart.savedPart = s.hart.savedPart := rfl
@[simp] theorem jumpTo_hart_savedScratch (s : State) (p : Word) :
    (jumpTo s p).hart.savedScratch = s.hart.savedScratch := rfl
@[simp] theorem jumpTo_hart_savedPoison (s : State) (p : Word) :
    (jumpTo s p).hart.savedPoison = s.hart.savedPoison := rfl
@[simp] theorem jumpTo_hart_wait (s : State) (p : Word) :
    (jumpTo s p).hart.wait = s.hart.wait := rfl
@[simp] theorem jumpTo_hart_slot (s : State) (p : Word) :
    (jumpTo s p).hart.slot = s.hart.slot := rfl
@[simp] theorem jumpTo_hart_partId (s : State) (p : Word) :
    (jumpTo s p).hart.partId = s.hart.partId := rfl
@[simp] theorem jumpTo_hart_gangStack (s : State) (p : Word) :
    (jumpTo s p).hart.gangStack = s.hart.gangStack := rfl
@[simp] theorem jumpTo_hart_gang (s : State) (p : Word) :
    (jumpTo s p).hart.gang = s.hart.gang := rfl
@[simp] theorem jumpTo_hart_g (s : State) (p : Word) :
    (jumpTo s p).hart.g = s.hart.g := rfl
@[simp] theorem jumpTo_hart_depth (s : State) (p : Word) :
    (jumpTo s p).hart.depth = s.hart.depth := rfl
@[simp] theorem jumpTo_hart_regs (s : State) (p : Word) :
    (jumpTo s p).hart.regs = s.hart.regs := rfl
@[simp] theorem jumpTo_hart_vregs (s : State) (p : Word) :
    (jumpTo s p).hart.vregs = s.hart.vregs := rfl
@[simp] theorem jumpTo_hart_mregs (s : State) (p : Word) :
    (jumpTo s p).hart.mregs = s.hart.mregs := rfl
@[simp] theorem jumpTo_hart_kregs (s : State) (p : Word) :
    (jumpTo s p).hart.kregs = s.hart.kregs := rfl
@[simp] theorem jumpTo_hart_csr (s : State) (p : Word) :
    (jumpTo s p).hart.csr = s.hart.csr := rfl
@[simp] theorem jumpTo_hart_loops (s : State) (p : Word) :
    (jumpTo s p).hart.loops = s.hart.loops := rfl
@[simp] theorem jumpTo_hart_regions (s : State) (p : Word) :
    (jumpTo s p).hart.regions = s.hart.regions := rfl
@[simp] theorem jumpTo_hart_aside (s : State) (p : Word) :
    (jumpTo s p).hart.aside = s.hart.aside := rfl
@[simp] theorem jumpTo_hart_streams (s : State) (p : Word) :
    (jumpTo s p).hart.streams = s.hart.streams := rfl
@[simp] theorem jumpTo_hart_par (s : State) (p : Word) :
    (jumpTo s p).hart.par = s.hart.par := rfl
@[simp] theorem jumpTo_hart_accWin (s : State) (p : Word) :
    (jumpTo s p).hart.accWin = s.hart.accWin := rfl
@[simp] theorem jumpTo_hart_rows (s : State) (p : Word) :
    (jumpTo s p).hart.rows = s.hart.rows := rfl
@[simp] theorem jumpTo_hart_rowPoison (s : State) (p : Word) :
    (jumpTo s p).hart.rowPoison = s.hart.rowPoison := rfl
@[simp] theorem jumpTo_hart_grant (s : State) (p : Word) :
    (jumpTo s p).hart.grant = s.hart.grant := rfl
@[simp] theorem jumpTo_hart_acc (s : State) (p : Word) :
    (jumpTo s p).hart.acc = s.hart.acc := rfl
@[simp] theorem jumpTo_hart_accPoison (s : State) (p : Word) :
    (jumpTo s p).hart.accPoison = s.hart.accPoison := rfl
@[simp] theorem jumpTo_hart_accLease (s : State) (p : Word) :
    (jumpTo s p).hart.accLease = s.hart.accLease := rfl
@[simp] theorem jumpTo_hart_genCache (s : State) (p : Word) :
    (jumpTo s p).hart.genCache = s.hart.genCache := rfl
@[simp] theorem jumpTo_hart_leaseNext (s : State) (p : Word) :
    (jumpTo s p).hart.leaseNext = s.hart.leaseNext := rfl
@[simp] theorem jumpTo_hart_fed (s : State) (p : Word) :
    (jumpTo s p).hart.fed = s.hart.fed := rfl
@[simp] theorem jumpTo_hart_lag (s : State) (p : Word) :
    (jumpTo s p).hart.lag = s.hart.lag := rfl
@[simp] theorem jumpTo_hart_posted (s : State) (p : Word) :
    (jumpTo s p).hart.posted = s.hart.posted := rfl
@[simp] theorem jumpTo_hart_replies (s : State) (p : Word) :
    (jumpTo s p).hart.replies = s.hart.replies := rfl

/-! ### `setGpr` -/

@[simp] theorem setGpr_up (s : State) (d : Reg) (v : GReg) : (setGpr s d v).up = s.up := by unfold setGpr; split <;> rfl
@[simp] theorem setGpr_others (s : State) (d : Reg) (v : GReg) : (setGpr s d v).others = s.others := by unfold setGpr; split <;> rfl
@[simp] theorem setGpr_saved (s : State) (d : Reg) (v : GReg) : (setGpr s d v).saved = s.saved := by unfold setGpr; split <;> rfl
@[simp] theorem setGpr_mem (s : State) (d : Reg) (v : GReg) : (setGpr s d v).mem = s.mem := by unfold setGpr; split <;> rfl
@[simp] theorem setGpr_poison (s : State) (d : Reg) (v : GReg) : (setGpr s d v).poison = s.poison := by unfold setGpr; split <;> rfl
@[simp] theorem setGpr_markDeny (s : State) (d : Reg) (v : GReg) : (setGpr s d v).markDeny = s.markDeny := by unfold setGpr; split <;> rfl
@[simp] theorem setGpr_sriov (s : State) (d : Reg) (v : GReg) : (setGpr s d v).sriov = s.sriov := by unfold setGpr; split <;> rfl
@[simp] theorem setGpr_slots (s : State) (d : Reg) (v : GReg) : (setGpr s d v).slots = s.slots := by unfold setGpr; split <;> rfl
@[simp] theorem setGpr_fes (s : State) (d : Reg) (v : GReg) : (setGpr s d v).fes = s.fes := by unfold setGpr; split <;> rfl
@[simp] theorem setGpr_fencedHalves (s : State) (d : Reg) (v : GReg) : (setGpr s d v).fencedHalves = s.fencedHalves := by unfold setGpr; split <;> rfl
@[simp] theorem setGpr_parts (s : State) (d : Reg) (v : GReg) : (setGpr s d v).parts = s.parts := by unfold setGpr; split <;> rfl
@[simp] theorem setGpr_gangs (s : State) (d : Reg) (v : GReg) : (setGpr s d v).gangs = s.gangs := by unfold setGpr; split <;> rfl
@[simp] theorem setGpr_pool (s : State) (d : Reg) (v : GReg) : (setGpr s d v).pool = s.pool := by unfold setGpr; split <;> rfl
@[simp] theorem setGpr_moves (s : State) (d : Reg) (v : GReg) : (setGpr s d v).moves = s.moves := by unfold setGpr; split <;> rfl
@[simp] theorem setGpr_copies (s : State) (d : Reg) (v : GReg) : (setGpr s d v).copies = s.copies := by unfold setGpr; split <;> rfl
@[simp] theorem setGpr_entries (s : State) (d : Reg) (v : GReg) : (setGpr s d v).entries = s.entries := by unfold setGpr; split <;> rfl
@[simp] theorem setGpr_engines (s : State) (d : Reg) (v : GReg) : (setGpr s d v).engines = s.engines := by unfold setGpr; split <;> rfl
@[simp] theorem setGpr_merges (s : State) (d : Reg) (v : GReg) : (setGpr s d v).merges = s.merges := by unfold setGpr; split <;> rfl
@[simp] theorem setGpr_marks (s : State) (d : Reg) (v : GReg) : (setGpr s d v).marks = s.marks := by unfold setGpr; split <;> rfl
@[simp] theorem setGpr_links (s : State) (d : Reg) (v : GReg) : (setGpr s d v).links = s.links := by unfold setGpr; split <;> rfl
@[simp] theorem setGpr_cold (s : State) (d : Reg) (v : GReg) : (setGpr s d v).cold = s.cold := by unfold setGpr; split <;> rfl
@[simp] theorem setGpr_vaults (s : State) (d : Reg) (v : GReg) : (setGpr s d v).vaults = s.vaults := by unfold setGpr; split <;> rfl
@[simp] theorem setGpr_svc (s : State) (d : Reg) (v : GReg) : (setGpr s d v).svc = s.svc := by unfold setGpr; split <;> rfl
@[simp] theorem setGpr_pf0 (s : State) (d : Reg) (v : GReg) : (setGpr s d v).pf0 = s.pf0 := by unfold setGpr; split <;> rfl
@[simp] theorem setGpr_hostDeny (s : State) (d : Reg) (v : GReg) : (setGpr s d v).hostDeny = s.hostDeny := by unfold setGpr; split <;> rfl
@[simp] theorem setGpr_peerDeny (s : State) (d : Reg) (v : GReg) : (setGpr s d v).peerDeny = s.peerDeny := by unfold setGpr; split <;> rfl
@[simp] theorem setGpr_residue (s : State) (d : Reg) (v : GReg) : (setGpr s d v).residue = s.residue := by unfold setGpr; split <;> rfl
@[simp] theorem setGpr_throttled (s : State) (d : Reg) (v : GReg) : (setGpr s d v).throttled = s.throttled := by unfold setGpr; split <;> rfl
@[simp] theorem setGpr_cycle (s : State) (d : Reg) (v : GReg) : (setGpr s d v).cycle = s.cycle := by unfold setGpr; split <;> rfl
@[simp] theorem setGpr_nextId (s : State) (d : Reg) (v : GReg) : (setGpr s d v).nextId = s.nextId := by unfold setGpr; split <;> rfl
@[simp] theorem setGpr_draws (s : State) (d : Reg) (v : GReg) : (setGpr s d v).draws = s.draws := by unfold setGpr; split <;> rfl
@[simp] theorem setGpr_tock (s : State) (d : Reg) (v : GReg) : (setGpr s d v).tock = s.tock := by unfold setGpr; split <;> rfl
@[simp] theorem setGpr_slice (s : State) (d : Reg) (v : GReg) : (setGpr s d v).slice = s.slice := by unfold setGpr; split <;> rfl
@[simp] theorem setGpr_agenda (s : State) (d : Reg) (v : GReg) : (setGpr s d v).agenda = s.agenda := by unfold setGpr; split <;> rfl
@[simp] theorem setGpr_hart_cid (s : State) (d : Reg) (v : GReg) :
    (setGpr s d v).hart.cid = s.hart.cid := by unfold setGpr; split <;> rfl
@[simp] theorem setGpr_hart_phase (s : State) (d : Reg) (v : GReg) :
    (setGpr s d v).hart.phase = s.hart.phase := by unfold setGpr; split <;> rfl
@[simp] theorem setGpr_hart_current (s : State) (d : Reg) (v : GReg) :
    (setGpr s d v).hart.current = s.hart.current := by unfold setGpr; split <;> rfl
@[simp] theorem setGpr_hart_issued (s : State) (d : Reg) (v : GReg) :
    (setGpr s d v).hart.issued = s.hart.issued := by unfold setGpr; split <;> rfl
@[simp] theorem setGpr_hart_headed (s : State) (d : Reg) (v : GReg) :
    (setGpr s d v).hart.headed = s.hart.headed := by unfold setGpr; split <;> rfl
@[simp] theorem setGpr_hart_probed (s : State) (d : Reg) (v : GReg) :
    (setGpr s d v).hart.probed = s.hart.probed := by unfold setGpr; split <;> rfl
@[simp] theorem setGpr_hart_offsets (s : State) (d : Reg) (v : GReg) :
    (setGpr s d v).hart.offsets = s.hart.offsets := by unfold setGpr; split <;> rfl
@[simp] theorem setGpr_hart_wrote (s : State) (d : Reg) (v : GReg) :
    (setGpr s d v).hart.wrote = s.hart.wrote := by unfold setGpr; split <;> rfl
@[simp] theorem setGpr_hart_heldFault (s : State) (d : Reg) (v : GReg) :
    (setGpr s d v).hart.heldFault = s.hart.heldFault := by unfold setGpr; split <;> rfl
@[simp] theorem setGpr_hart_lastSlot (s : State) (d : Reg) (v : GReg) :
    (setGpr s d v).hart.lastSlot = s.hart.lastSlot := by unfold setGpr; split <;> rfl
@[simp] theorem setGpr_hart_stopPending (s : State) (d : Reg) (v : GReg) :
    (setGpr s d v).hart.stopPending = s.hart.stopPending := by unfold setGpr; split <;> rfl
@[simp] theorem setGpr_hart_stopped (s : State) (d : Reg) (v : GReg) :
    (setGpr s d v).hart.stopped = s.hart.stopped := by unfold setGpr; split <;> rfl
@[simp] theorem setGpr_hart_due (s : State) (d : Reg) (v : GReg) :
    (setGpr s d v).hart.due = s.hart.due := by unfold setGpr; split <;> rfl
@[simp] theorem setGpr_hart_member (s : State) (d : Reg) (v : GReg) :
    (setGpr s d v).hart.member = s.hart.member := by unfold setGpr; split <;> rfl
@[simp] theorem setGpr_hart_homeGang (s : State) (d : Reg) (v : GReg) :
    (setGpr s d v).hart.homeGang = s.hart.homeGang := by unfold setGpr; split <;> rfl
@[simp] theorem setGpr_hart_leasePending (s : State) (d : Reg) (v : GReg) :
    (setGpr s d v).hart.leasePending = s.hart.leasePending := by unfold setGpr; split <;> rfl
@[simp] theorem setGpr_hart_inProgress (s : State) (d : Reg) (v : GReg) :
    (setGpr s d v).hart.inProgress = s.hart.inProgress := by unfold setGpr; split <;> rfl
@[simp] theorem setGpr_hart_fromZero (s : State) (d : Reg) (v : GReg) :
    (setGpr s d v).hart.fromZero = s.hart.fromZero := by unfold setGpr; split <;> rfl
@[simp] theorem setGpr_hart_held (s : State) (d : Reg) (v : GReg) :
    (setGpr s d v).hart.held = s.hart.held := by unfold setGpr; split <;> rfl
@[simp] theorem setGpr_hart_queue (s : State) (d : Reg) (v : GReg) :
    (setGpr s d v).hart.queue = s.hart.queue := by unfold setGpr; split <;> rfl
@[simp] theorem setGpr_hart_front (s : State) (d : Reg) (v : GReg) :
    (setGpr s d v).hart.front = s.hart.front := by unfold setGpr; split <;> rfl
@[simp] theorem setGpr_hart_gates (s : State) (d : Reg) (v : GReg) :
    (setGpr s d v).hart.gates = s.hart.gates := by unfold setGpr; split <;> rfl
@[simp] theorem setGpr_hart_vecFences (s : State) (d : Reg) (v : GReg) :
    (setGpr s d v).hart.vecFences = s.hart.vecFences := by unfold setGpr; split <;> rfl
@[simp] theorem setGpr_hart_age (s : State) (d : Reg) (v : GReg) :
    (setGpr s d v).hart.age = s.hart.age := by unfold setGpr; split <;> rfl
@[simp] theorem setGpr_hart_yielded (s : State) (d : Reg) (v : GReg) :
    (setGpr s d v).hart.yielded = s.hart.yielded := by unfold setGpr; split <;> rfl
@[simp] theorem setGpr_hart_stalled (s : State) (d : Reg) (v : GReg) :
    (setGpr s d v).hart.stalled = s.hart.stalled := by unfold setGpr; split <;> rfl
@[simp] theorem setGpr_hart_bound (s : State) (d : Reg) (v : GReg) :
    (setGpr s d v).hart.bound = s.hart.bound := by unfold setGpr; split <;> rfl
@[simp] theorem setGpr_hart_retry (s : State) (d : Reg) (v : GReg) :
    (setGpr s d v).hart.retry = s.hart.retry := by unfold setGpr; split <;> rfl
@[simp] theorem setGpr_hart_waitNs (s : State) (d : Reg) (v : GReg) :
    (setGpr s d v).hart.waitNs = s.hart.waitNs := by unfold setGpr; split <;> rfl
@[simp] theorem setGpr_hart_waitSince (s : State) (d : Reg) (v : GReg) :
    (setGpr s d v).hart.waitSince = s.hart.waitSince := by unfold setGpr; split <;> rfl
@[simp] theorem setGpr_hart_call (s : State) (d : Reg) (v : GReg) :
    (setGpr s d v).hart.call = s.hart.call := by unfold setGpr; split <;> rfl
@[simp] theorem setGpr_hart_reply (s : State) (d : Reg) (v : GReg) :
    (setGpr s d v).hart.reply = s.hart.reply := by unfold setGpr; split <;> rfl
@[simp] theorem setGpr_hart_coldErrors (s : State) (d : Reg) (v : GReg) :
    (setGpr s d v).hart.coldErrors = s.hart.coldErrors := by unfold setGpr; split <;> rfl
@[simp] theorem setGpr_hart_owes12 (s : State) (d : Reg) (v : GReg) :
    (setGpr s d v).hart.owes12 = s.hart.owes12 := by unfold setGpr; split <;> rfl
@[simp] theorem setGpr_hart_owes55 (s : State) (d : Reg) (v : GReg) :
    (setGpr s d v).hart.owes55 = s.hart.owes55 := by unfold setGpr; split <;> rfl
@[simp] theorem setGpr_hart_saveArea (s : State) (d : Reg) (v : GReg) :
    (setGpr s d v).hart.saveArea = s.hart.saveArea := by unfold setGpr; split <;> rfl
@[simp] theorem setGpr_hart_areaWritten (s : State) (d : Reg) (v : GReg) :
    (setGpr s d v).hart.areaWritten = s.hart.areaWritten := by unfold setGpr; split <;> rfl
@[simp] theorem setGpr_hart_savedPart (s : State) (d : Reg) (v : GReg) :
    (setGpr s d v).hart.savedPart = s.hart.savedPart := by unfold setGpr; split <;> rfl
@[simp] theorem setGpr_hart_savedScratch (s : State) (d : Reg) (v : GReg) :
    (setGpr s d v).hart.savedScratch = s.hart.savedScratch := by unfold setGpr; split <;> rfl
@[simp] theorem setGpr_hart_savedPoison (s : State) (d : Reg) (v : GReg) :
    (setGpr s d v).hart.savedPoison = s.hart.savedPoison := by unfold setGpr; split <;> rfl
@[simp] theorem setGpr_hart_wait (s : State) (d : Reg) (v : GReg) :
    (setGpr s d v).hart.wait = s.hart.wait := by unfold setGpr; split <;> rfl
@[simp] theorem setGpr_hart_slot (s : State) (d : Reg) (v : GReg) :
    (setGpr s d v).hart.slot = s.hart.slot := by unfold setGpr; split <;> rfl
@[simp] theorem setGpr_hart_partId (s : State) (d : Reg) (v : GReg) :
    (setGpr s d v).hart.partId = s.hart.partId := by unfold setGpr; split <;> rfl
@[simp] theorem setGpr_hart_gangStack (s : State) (d : Reg) (v : GReg) :
    (setGpr s d v).hart.gangStack = s.hart.gangStack := by unfold setGpr; split <;> rfl
@[simp] theorem setGpr_hart_gang (s : State) (d : Reg) (v : GReg) :
    (setGpr s d v).hart.gang = s.hart.gang := by unfold setGpr; split <;> rfl
@[simp] theorem setGpr_hart_g (s : State) (d : Reg) (v : GReg) :
    (setGpr s d v).hart.g = s.hart.g := by unfold setGpr; split <;> rfl
@[simp] theorem setGpr_hart_depth (s : State) (d : Reg) (v : GReg) :
    (setGpr s d v).hart.depth = s.hart.depth := by unfold setGpr; split <;> rfl
@[simp] theorem setGpr_hart_pc (s : State) (d : Reg) (v : GReg) :
    (setGpr s d v).hart.pc = s.hart.pc := by unfold setGpr; split <;> rfl
@[simp] theorem setGpr_hart_vregs (s : State) (d : Reg) (v : GReg) :
    (setGpr s d v).hart.vregs = s.hart.vregs := by unfold setGpr; split <;> rfl
@[simp] theorem setGpr_hart_mregs (s : State) (d : Reg) (v : GReg) :
    (setGpr s d v).hart.mregs = s.hart.mregs := by unfold setGpr; split <;> rfl
@[simp] theorem setGpr_hart_kregs (s : State) (d : Reg) (v : GReg) :
    (setGpr s d v).hart.kregs = s.hart.kregs := by unfold setGpr; split <;> rfl
@[simp] theorem setGpr_hart_csr (s : State) (d : Reg) (v : GReg) :
    (setGpr s d v).hart.csr = s.hart.csr := by unfold setGpr; split <;> rfl
@[simp] theorem setGpr_hart_loops (s : State) (d : Reg) (v : GReg) :
    (setGpr s d v).hart.loops = s.hart.loops := by unfold setGpr; split <;> rfl
@[simp] theorem setGpr_hart_regions (s : State) (d : Reg) (v : GReg) :
    (setGpr s d v).hart.regions = s.hart.regions := by unfold setGpr; split <;> rfl
@[simp] theorem setGpr_hart_aside (s : State) (d : Reg) (v : GReg) :
    (setGpr s d v).hart.aside = s.hart.aside := by unfold setGpr; split <;> rfl
@[simp] theorem setGpr_hart_streams (s : State) (d : Reg) (v : GReg) :
    (setGpr s d v).hart.streams = s.hart.streams := by unfold setGpr; split <;> rfl
@[simp] theorem setGpr_hart_par (s : State) (d : Reg) (v : GReg) :
    (setGpr s d v).hart.par = s.hart.par := by unfold setGpr; split <;> rfl
@[simp] theorem setGpr_hart_accWin (s : State) (d : Reg) (v : GReg) :
    (setGpr s d v).hart.accWin = s.hart.accWin := by unfold setGpr; split <;> rfl
@[simp] theorem setGpr_hart_rows (s : State) (d : Reg) (v : GReg) :
    (setGpr s d v).hart.rows = s.hart.rows := by unfold setGpr; split <;> rfl
@[simp] theorem setGpr_hart_rowPoison (s : State) (d : Reg) (v : GReg) :
    (setGpr s d v).hart.rowPoison = s.hart.rowPoison := by unfold setGpr; split <;> rfl
@[simp] theorem setGpr_hart_grant (s : State) (d : Reg) (v : GReg) :
    (setGpr s d v).hart.grant = s.hart.grant := by unfold setGpr; split <;> rfl
@[simp] theorem setGpr_hart_acc (s : State) (d : Reg) (v : GReg) :
    (setGpr s d v).hart.acc = s.hart.acc := by unfold setGpr; split <;> rfl
@[simp] theorem setGpr_hart_accPoison (s : State) (d : Reg) (v : GReg) :
    (setGpr s d v).hart.accPoison = s.hart.accPoison := by unfold setGpr; split <;> rfl
@[simp] theorem setGpr_hart_accLease (s : State) (d : Reg) (v : GReg) :
    (setGpr s d v).hart.accLease = s.hart.accLease := by unfold setGpr; split <;> rfl
@[simp] theorem setGpr_hart_genCache (s : State) (d : Reg) (v : GReg) :
    (setGpr s d v).hart.genCache = s.hart.genCache := by unfold setGpr; split <;> rfl
@[simp] theorem setGpr_hart_leaseNext (s : State) (d : Reg) (v : GReg) :
    (setGpr s d v).hart.leaseNext = s.hart.leaseNext := by unfold setGpr; split <;> rfl
@[simp] theorem setGpr_hart_fed (s : State) (d : Reg) (v : GReg) :
    (setGpr s d v).hart.fed = s.hart.fed := by unfold setGpr; split <;> rfl
@[simp] theorem setGpr_hart_lag (s : State) (d : Reg) (v : GReg) :
    (setGpr s d v).hart.lag = s.hart.lag := by unfold setGpr; split <;> rfl
@[simp] theorem setGpr_hart_posted (s : State) (d : Reg) (v : GReg) :
    (setGpr s d v).hart.posted = s.hart.posted := by unfold setGpr; split <;> rfl
@[simp] theorem setGpr_hart_replies (s : State) (d : Reg) (v : GReg) :
    (setGpr s d v).hart.replies = s.hart.replies := by unfold setGpr; split <;> rfl

/-! ### `setVreg` -/

@[simp] theorem setVreg_up (s : State) (v : Reg) (x : VReg) : (setVreg s v x).up = s.up := rfl
@[simp] theorem setVreg_others (s : State) (v : Reg) (x : VReg) : (setVreg s v x).others = s.others := rfl
@[simp] theorem setVreg_saved (s : State) (v : Reg) (x : VReg) : (setVreg s v x).saved = s.saved := rfl
@[simp] theorem setVreg_mem (s : State) (v : Reg) (x : VReg) : (setVreg s v x).mem = s.mem := rfl
@[simp] theorem setVreg_poison (s : State) (v : Reg) (x : VReg) : (setVreg s v x).poison = s.poison := rfl
@[simp] theorem setVreg_markDeny (s : State) (v : Reg) (x : VReg) : (setVreg s v x).markDeny = s.markDeny := rfl
@[simp] theorem setVreg_sriov (s : State) (v : Reg) (x : VReg) : (setVreg s v x).sriov = s.sriov := rfl
@[simp] theorem setVreg_slots (s : State) (v : Reg) (x : VReg) : (setVreg s v x).slots = s.slots := rfl
@[simp] theorem setVreg_fes (s : State) (v : Reg) (x : VReg) : (setVreg s v x).fes = s.fes := rfl
@[simp] theorem setVreg_fencedHalves (s : State) (v : Reg) (x : VReg) : (setVreg s v x).fencedHalves = s.fencedHalves := rfl
@[simp] theorem setVreg_parts (s : State) (v : Reg) (x : VReg) : (setVreg s v x).parts = s.parts := rfl
@[simp] theorem setVreg_gangs (s : State) (v : Reg) (x : VReg) : (setVreg s v x).gangs = s.gangs := rfl
@[simp] theorem setVreg_pool (s : State) (v : Reg) (x : VReg) : (setVreg s v x).pool = s.pool := rfl
@[simp] theorem setVreg_moves (s : State) (v : Reg) (x : VReg) : (setVreg s v x).moves = s.moves := rfl
@[simp] theorem setVreg_copies (s : State) (v : Reg) (x : VReg) : (setVreg s v x).copies = s.copies := rfl
@[simp] theorem setVreg_entries (s : State) (v : Reg) (x : VReg) : (setVreg s v x).entries = s.entries := rfl
@[simp] theorem setVreg_engines (s : State) (v : Reg) (x : VReg) : (setVreg s v x).engines = s.engines := rfl
@[simp] theorem setVreg_merges (s : State) (v : Reg) (x : VReg) : (setVreg s v x).merges = s.merges := rfl
@[simp] theorem setVreg_marks (s : State) (v : Reg) (x : VReg) : (setVreg s v x).marks = s.marks := rfl
@[simp] theorem setVreg_links (s : State) (v : Reg) (x : VReg) : (setVreg s v x).links = s.links := rfl
@[simp] theorem setVreg_cold (s : State) (v : Reg) (x : VReg) : (setVreg s v x).cold = s.cold := rfl
@[simp] theorem setVreg_vaults (s : State) (v : Reg) (x : VReg) : (setVreg s v x).vaults = s.vaults := rfl
@[simp] theorem setVreg_svc (s : State) (v : Reg) (x : VReg) : (setVreg s v x).svc = s.svc := rfl
@[simp] theorem setVreg_pf0 (s : State) (v : Reg) (x : VReg) : (setVreg s v x).pf0 = s.pf0 := rfl
@[simp] theorem setVreg_hostDeny (s : State) (v : Reg) (x : VReg) : (setVreg s v x).hostDeny = s.hostDeny := rfl
@[simp] theorem setVreg_peerDeny (s : State) (v : Reg) (x : VReg) : (setVreg s v x).peerDeny = s.peerDeny := rfl
@[simp] theorem setVreg_residue (s : State) (v : Reg) (x : VReg) : (setVreg s v x).residue = s.residue := rfl
@[simp] theorem setVreg_throttled (s : State) (v : Reg) (x : VReg) : (setVreg s v x).throttled = s.throttled := rfl
@[simp] theorem setVreg_cycle (s : State) (v : Reg) (x : VReg) : (setVreg s v x).cycle = s.cycle := rfl
@[simp] theorem setVreg_nextId (s : State) (v : Reg) (x : VReg) : (setVreg s v x).nextId = s.nextId := rfl
@[simp] theorem setVreg_draws (s : State) (v : Reg) (x : VReg) : (setVreg s v x).draws = s.draws := rfl
@[simp] theorem setVreg_tock (s : State) (v : Reg) (x : VReg) : (setVreg s v x).tock = s.tock := rfl
@[simp] theorem setVreg_slice (s : State) (v : Reg) (x : VReg) : (setVreg s v x).slice = s.slice := rfl
@[simp] theorem setVreg_agenda (s : State) (v : Reg) (x : VReg) : (setVreg s v x).agenda = s.agenda := rfl
@[simp] theorem setVreg_hart_cid (s : State) (v : Reg) (x : VReg) :
    (setVreg s v x).hart.cid = s.hart.cid := rfl
@[simp] theorem setVreg_hart_phase (s : State) (v : Reg) (x : VReg) :
    (setVreg s v x).hart.phase = s.hart.phase := rfl
@[simp] theorem setVreg_hart_current (s : State) (v : Reg) (x : VReg) :
    (setVreg s v x).hart.current = s.hart.current := rfl
@[simp] theorem setVreg_hart_issued (s : State) (v : Reg) (x : VReg) :
    (setVreg s v x).hart.issued = s.hart.issued := rfl
@[simp] theorem setVreg_hart_headed (s : State) (v : Reg) (x : VReg) :
    (setVreg s v x).hart.headed = s.hart.headed := rfl
@[simp] theorem setVreg_hart_probed (s : State) (v : Reg) (x : VReg) :
    (setVreg s v x).hart.probed = s.hart.probed := rfl
@[simp] theorem setVreg_hart_offsets (s : State) (v : Reg) (x : VReg) :
    (setVreg s v x).hart.offsets = s.hart.offsets := rfl
@[simp] theorem setVreg_hart_wrote (s : State) (v : Reg) (x : VReg) :
    (setVreg s v x).hart.wrote = s.hart.wrote := rfl
@[simp] theorem setVreg_hart_heldFault (s : State) (v : Reg) (x : VReg) :
    (setVreg s v x).hart.heldFault = s.hart.heldFault := rfl
@[simp] theorem setVreg_hart_lastSlot (s : State) (v : Reg) (x : VReg) :
    (setVreg s v x).hart.lastSlot = s.hart.lastSlot := rfl
@[simp] theorem setVreg_hart_stopPending (s : State) (v : Reg) (x : VReg) :
    (setVreg s v x).hart.stopPending = s.hart.stopPending := rfl
@[simp] theorem setVreg_hart_stopped (s : State) (v : Reg) (x : VReg) :
    (setVreg s v x).hart.stopped = s.hart.stopped := rfl
@[simp] theorem setVreg_hart_due (s : State) (v : Reg) (x : VReg) :
    (setVreg s v x).hart.due = s.hart.due := rfl
@[simp] theorem setVreg_hart_member (s : State) (v : Reg) (x : VReg) :
    (setVreg s v x).hart.member = s.hart.member := rfl
@[simp] theorem setVreg_hart_homeGang (s : State) (v : Reg) (x : VReg) :
    (setVreg s v x).hart.homeGang = s.hart.homeGang := rfl
@[simp] theorem setVreg_hart_leasePending (s : State) (v : Reg) (x : VReg) :
    (setVreg s v x).hart.leasePending = s.hart.leasePending := rfl
@[simp] theorem setVreg_hart_inProgress (s : State) (v : Reg) (x : VReg) :
    (setVreg s v x).hart.inProgress = s.hart.inProgress := rfl
@[simp] theorem setVreg_hart_fromZero (s : State) (v : Reg) (x : VReg) :
    (setVreg s v x).hart.fromZero = s.hart.fromZero := rfl
@[simp] theorem setVreg_hart_held (s : State) (v : Reg) (x : VReg) :
    (setVreg s v x).hart.held = s.hart.held := rfl
@[simp] theorem setVreg_hart_queue (s : State) (v : Reg) (x : VReg) :
    (setVreg s v x).hart.queue = s.hart.queue := rfl
@[simp] theorem setVreg_hart_front (s : State) (v : Reg) (x : VReg) :
    (setVreg s v x).hart.front = s.hart.front := rfl
@[simp] theorem setVreg_hart_gates (s : State) (v : Reg) (x : VReg) :
    (setVreg s v x).hart.gates = s.hart.gates := rfl
@[simp] theorem setVreg_hart_vecFences (s : State) (v : Reg) (x : VReg) :
    (setVreg s v x).hart.vecFences = s.hart.vecFences := rfl
@[simp] theorem setVreg_hart_age (s : State) (v : Reg) (x : VReg) :
    (setVreg s v x).hart.age = s.hart.age := rfl
@[simp] theorem setVreg_hart_yielded (s : State) (v : Reg) (x : VReg) :
    (setVreg s v x).hart.yielded = s.hart.yielded := rfl
@[simp] theorem setVreg_hart_stalled (s : State) (v : Reg) (x : VReg) :
    (setVreg s v x).hart.stalled = s.hart.stalled := rfl
@[simp] theorem setVreg_hart_bound (s : State) (v : Reg) (x : VReg) :
    (setVreg s v x).hart.bound = s.hart.bound := rfl
@[simp] theorem setVreg_hart_retry (s : State) (v : Reg) (x : VReg) :
    (setVreg s v x).hart.retry = s.hart.retry := rfl
@[simp] theorem setVreg_hart_waitNs (s : State) (v : Reg) (x : VReg) :
    (setVreg s v x).hart.waitNs = s.hart.waitNs := rfl
@[simp] theorem setVreg_hart_waitSince (s : State) (v : Reg) (x : VReg) :
    (setVreg s v x).hart.waitSince = s.hart.waitSince := rfl
@[simp] theorem setVreg_hart_call (s : State) (v : Reg) (x : VReg) :
    (setVreg s v x).hart.call = s.hart.call := rfl
@[simp] theorem setVreg_hart_reply (s : State) (v : Reg) (x : VReg) :
    (setVreg s v x).hart.reply = s.hart.reply := rfl
@[simp] theorem setVreg_hart_coldErrors (s : State) (v : Reg) (x : VReg) :
    (setVreg s v x).hart.coldErrors = s.hart.coldErrors := rfl
@[simp] theorem setVreg_hart_owes12 (s : State) (v : Reg) (x : VReg) :
    (setVreg s v x).hart.owes12 = s.hart.owes12 := rfl
@[simp] theorem setVreg_hart_owes55 (s : State) (v : Reg) (x : VReg) :
    (setVreg s v x).hart.owes55 = s.hart.owes55 := rfl
@[simp] theorem setVreg_hart_saveArea (s : State) (v : Reg) (x : VReg) :
    (setVreg s v x).hart.saveArea = s.hart.saveArea := rfl
@[simp] theorem setVreg_hart_areaWritten (s : State) (v : Reg) (x : VReg) :
    (setVreg s v x).hart.areaWritten = s.hart.areaWritten := rfl
@[simp] theorem setVreg_hart_savedPart (s : State) (v : Reg) (x : VReg) :
    (setVreg s v x).hart.savedPart = s.hart.savedPart := rfl
@[simp] theorem setVreg_hart_savedScratch (s : State) (v : Reg) (x : VReg) :
    (setVreg s v x).hart.savedScratch = s.hart.savedScratch := rfl
@[simp] theorem setVreg_hart_savedPoison (s : State) (v : Reg) (x : VReg) :
    (setVreg s v x).hart.savedPoison = s.hart.savedPoison := rfl
@[simp] theorem setVreg_hart_wait (s : State) (v : Reg) (x : VReg) :
    (setVreg s v x).hart.wait = s.hart.wait := rfl
@[simp] theorem setVreg_hart_slot (s : State) (v : Reg) (x : VReg) :
    (setVreg s v x).hart.slot = s.hart.slot := rfl
@[simp] theorem setVreg_hart_partId (s : State) (v : Reg) (x : VReg) :
    (setVreg s v x).hart.partId = s.hart.partId := rfl
@[simp] theorem setVreg_hart_gangStack (s : State) (v : Reg) (x : VReg) :
    (setVreg s v x).hart.gangStack = s.hart.gangStack := rfl
@[simp] theorem setVreg_hart_gang (s : State) (v : Reg) (x : VReg) :
    (setVreg s v x).hart.gang = s.hart.gang := rfl
@[simp] theorem setVreg_hart_g (s : State) (v : Reg) (x : VReg) :
    (setVreg s v x).hart.g = s.hart.g := rfl
@[simp] theorem setVreg_hart_depth (s : State) (v : Reg) (x : VReg) :
    (setVreg s v x).hart.depth = s.hart.depth := rfl
@[simp] theorem setVreg_hart_pc (s : State) (v : Reg) (x : VReg) :
    (setVreg s v x).hart.pc = s.hart.pc := rfl
@[simp] theorem setVreg_hart_regs (s : State) (v : Reg) (x : VReg) :
    (setVreg s v x).hart.regs = s.hart.regs := rfl
@[simp] theorem setVreg_hart_mregs (s : State) (v : Reg) (x : VReg) :
    (setVreg s v x).hart.mregs = s.hart.mregs := rfl
@[simp] theorem setVreg_hart_kregs (s : State) (v : Reg) (x : VReg) :
    (setVreg s v x).hart.kregs = s.hart.kregs := rfl
@[simp] theorem setVreg_hart_csr (s : State) (v : Reg) (x : VReg) :
    (setVreg s v x).hart.csr = s.hart.csr := rfl
@[simp] theorem setVreg_hart_loops (s : State) (v : Reg) (x : VReg) :
    (setVreg s v x).hart.loops = s.hart.loops := rfl
@[simp] theorem setVreg_hart_regions (s : State) (v : Reg) (x : VReg) :
    (setVreg s v x).hart.regions = s.hart.regions := rfl
@[simp] theorem setVreg_hart_aside (s : State) (v : Reg) (x : VReg) :
    (setVreg s v x).hart.aside = s.hart.aside := rfl
@[simp] theorem setVreg_hart_streams (s : State) (v : Reg) (x : VReg) :
    (setVreg s v x).hart.streams = s.hart.streams := rfl
@[simp] theorem setVreg_hart_par (s : State) (v : Reg) (x : VReg) :
    (setVreg s v x).hart.par = s.hart.par := rfl
@[simp] theorem setVreg_hart_accWin (s : State) (v : Reg) (x : VReg) :
    (setVreg s v x).hart.accWin = s.hart.accWin := rfl
@[simp] theorem setVreg_hart_rows (s : State) (v : Reg) (x : VReg) :
    (setVreg s v x).hart.rows = s.hart.rows := rfl
@[simp] theorem setVreg_hart_rowPoison (s : State) (v : Reg) (x : VReg) :
    (setVreg s v x).hart.rowPoison = s.hart.rowPoison := rfl
@[simp] theorem setVreg_hart_grant (s : State) (v : Reg) (x : VReg) :
    (setVreg s v x).hart.grant = s.hart.grant := rfl
@[simp] theorem setVreg_hart_acc (s : State) (v : Reg) (x : VReg) :
    (setVreg s v x).hart.acc = s.hart.acc := rfl
@[simp] theorem setVreg_hart_accPoison (s : State) (v : Reg) (x : VReg) :
    (setVreg s v x).hart.accPoison = s.hart.accPoison := rfl
@[simp] theorem setVreg_hart_accLease (s : State) (v : Reg) (x : VReg) :
    (setVreg s v x).hart.accLease = s.hart.accLease := rfl
@[simp] theorem setVreg_hart_genCache (s : State) (v : Reg) (x : VReg) :
    (setVreg s v x).hart.genCache = s.hart.genCache := rfl
@[simp] theorem setVreg_hart_leaseNext (s : State) (v : Reg) (x : VReg) :
    (setVreg s v x).hart.leaseNext = s.hart.leaseNext := rfl
@[simp] theorem setVreg_hart_fed (s : State) (v : Reg) (x : VReg) :
    (setVreg s v x).hart.fed = s.hart.fed := rfl
@[simp] theorem setVreg_hart_lag (s : State) (v : Reg) (x : VReg) :
    (setVreg s v x).hart.lag = s.hart.lag := rfl
@[simp] theorem setVreg_hart_posted (s : State) (v : Reg) (x : VReg) :
    (setVreg s v x).hart.posted = s.hart.posted := rfl
@[simp] theorem setVreg_hart_replies (s : State) (v : Reg) (x : VReg) :
    (setVreg s v x).hart.replies = s.hart.replies := rfl

/-! ### `setKreg` -/

@[simp] theorem setKreg_up (s : State) (k : Reg3) (x : KReg) : (setKreg s k x).up = s.up := rfl
@[simp] theorem setKreg_others (s : State) (k : Reg3) (x : KReg) : (setKreg s k x).others = s.others := rfl
@[simp] theorem setKreg_saved (s : State) (k : Reg3) (x : KReg) : (setKreg s k x).saved = s.saved := rfl
@[simp] theorem setKreg_mem (s : State) (k : Reg3) (x : KReg) : (setKreg s k x).mem = s.mem := rfl
@[simp] theorem setKreg_poison (s : State) (k : Reg3) (x : KReg) : (setKreg s k x).poison = s.poison := rfl
@[simp] theorem setKreg_markDeny (s : State) (k : Reg3) (x : KReg) : (setKreg s k x).markDeny = s.markDeny := rfl
@[simp] theorem setKreg_sriov (s : State) (k : Reg3) (x : KReg) : (setKreg s k x).sriov = s.sriov := rfl
@[simp] theorem setKreg_slots (s : State) (k : Reg3) (x : KReg) : (setKreg s k x).slots = s.slots := rfl
@[simp] theorem setKreg_fes (s : State) (k : Reg3) (x : KReg) : (setKreg s k x).fes = s.fes := rfl
@[simp] theorem setKreg_fencedHalves (s : State) (k : Reg3) (x : KReg) : (setKreg s k x).fencedHalves = s.fencedHalves := rfl
@[simp] theorem setKreg_parts (s : State) (k : Reg3) (x : KReg) : (setKreg s k x).parts = s.parts := rfl
@[simp] theorem setKreg_gangs (s : State) (k : Reg3) (x : KReg) : (setKreg s k x).gangs = s.gangs := rfl
@[simp] theorem setKreg_pool (s : State) (k : Reg3) (x : KReg) : (setKreg s k x).pool = s.pool := rfl
@[simp] theorem setKreg_moves (s : State) (k : Reg3) (x : KReg) : (setKreg s k x).moves = s.moves := rfl
@[simp] theorem setKreg_copies (s : State) (k : Reg3) (x : KReg) : (setKreg s k x).copies = s.copies := rfl
@[simp] theorem setKreg_entries (s : State) (k : Reg3) (x : KReg) : (setKreg s k x).entries = s.entries := rfl
@[simp] theorem setKreg_engines (s : State) (k : Reg3) (x : KReg) : (setKreg s k x).engines = s.engines := rfl
@[simp] theorem setKreg_merges (s : State) (k : Reg3) (x : KReg) : (setKreg s k x).merges = s.merges := rfl
@[simp] theorem setKreg_marks (s : State) (k : Reg3) (x : KReg) : (setKreg s k x).marks = s.marks := rfl
@[simp] theorem setKreg_links (s : State) (k : Reg3) (x : KReg) : (setKreg s k x).links = s.links := rfl
@[simp] theorem setKreg_cold (s : State) (k : Reg3) (x : KReg) : (setKreg s k x).cold = s.cold := rfl
@[simp] theorem setKreg_vaults (s : State) (k : Reg3) (x : KReg) : (setKreg s k x).vaults = s.vaults := rfl
@[simp] theorem setKreg_svc (s : State) (k : Reg3) (x : KReg) : (setKreg s k x).svc = s.svc := rfl
@[simp] theorem setKreg_pf0 (s : State) (k : Reg3) (x : KReg) : (setKreg s k x).pf0 = s.pf0 := rfl
@[simp] theorem setKreg_hostDeny (s : State) (k : Reg3) (x : KReg) : (setKreg s k x).hostDeny = s.hostDeny := rfl
@[simp] theorem setKreg_peerDeny (s : State) (k : Reg3) (x : KReg) : (setKreg s k x).peerDeny = s.peerDeny := rfl
@[simp] theorem setKreg_residue (s : State) (k : Reg3) (x : KReg) : (setKreg s k x).residue = s.residue := rfl
@[simp] theorem setKreg_throttled (s : State) (k : Reg3) (x : KReg) : (setKreg s k x).throttled = s.throttled := rfl
@[simp] theorem setKreg_cycle (s : State) (k : Reg3) (x : KReg) : (setKreg s k x).cycle = s.cycle := rfl
@[simp] theorem setKreg_nextId (s : State) (k : Reg3) (x : KReg) : (setKreg s k x).nextId = s.nextId := rfl
@[simp] theorem setKreg_draws (s : State) (k : Reg3) (x : KReg) : (setKreg s k x).draws = s.draws := rfl
@[simp] theorem setKreg_tock (s : State) (k : Reg3) (x : KReg) : (setKreg s k x).tock = s.tock := rfl
@[simp] theorem setKreg_slice (s : State) (k : Reg3) (x : KReg) : (setKreg s k x).slice = s.slice := rfl
@[simp] theorem setKreg_agenda (s : State) (k : Reg3) (x : KReg) : (setKreg s k x).agenda = s.agenda := rfl
@[simp] theorem setKreg_hart_cid (s : State) (k : Reg3) (x : KReg) :
    (setKreg s k x).hart.cid = s.hart.cid := rfl
@[simp] theorem setKreg_hart_phase (s : State) (k : Reg3) (x : KReg) :
    (setKreg s k x).hart.phase = s.hart.phase := rfl
@[simp] theorem setKreg_hart_current (s : State) (k : Reg3) (x : KReg) :
    (setKreg s k x).hart.current = s.hart.current := rfl
@[simp] theorem setKreg_hart_issued (s : State) (k : Reg3) (x : KReg) :
    (setKreg s k x).hart.issued = s.hart.issued := rfl
@[simp] theorem setKreg_hart_headed (s : State) (k : Reg3) (x : KReg) :
    (setKreg s k x).hart.headed = s.hart.headed := rfl
@[simp] theorem setKreg_hart_probed (s : State) (k : Reg3) (x : KReg) :
    (setKreg s k x).hart.probed = s.hart.probed := rfl
@[simp] theorem setKreg_hart_offsets (s : State) (k : Reg3) (x : KReg) :
    (setKreg s k x).hart.offsets = s.hart.offsets := rfl
@[simp] theorem setKreg_hart_wrote (s : State) (k : Reg3) (x : KReg) :
    (setKreg s k x).hart.wrote = s.hart.wrote := rfl
@[simp] theorem setKreg_hart_heldFault (s : State) (k : Reg3) (x : KReg) :
    (setKreg s k x).hart.heldFault = s.hart.heldFault := rfl
@[simp] theorem setKreg_hart_lastSlot (s : State) (k : Reg3) (x : KReg) :
    (setKreg s k x).hart.lastSlot = s.hart.lastSlot := rfl
@[simp] theorem setKreg_hart_stopPending (s : State) (k : Reg3) (x : KReg) :
    (setKreg s k x).hart.stopPending = s.hart.stopPending := rfl
@[simp] theorem setKreg_hart_stopped (s : State) (k : Reg3) (x : KReg) :
    (setKreg s k x).hart.stopped = s.hart.stopped := rfl
@[simp] theorem setKreg_hart_due (s : State) (k : Reg3) (x : KReg) :
    (setKreg s k x).hart.due = s.hart.due := rfl
@[simp] theorem setKreg_hart_member (s : State) (k : Reg3) (x : KReg) :
    (setKreg s k x).hart.member = s.hart.member := rfl
@[simp] theorem setKreg_hart_homeGang (s : State) (k : Reg3) (x : KReg) :
    (setKreg s k x).hart.homeGang = s.hart.homeGang := rfl
@[simp] theorem setKreg_hart_leasePending (s : State) (k : Reg3) (x : KReg) :
    (setKreg s k x).hart.leasePending = s.hart.leasePending := rfl
@[simp] theorem setKreg_hart_inProgress (s : State) (k : Reg3) (x : KReg) :
    (setKreg s k x).hart.inProgress = s.hart.inProgress := rfl
@[simp] theorem setKreg_hart_fromZero (s : State) (k : Reg3) (x : KReg) :
    (setKreg s k x).hart.fromZero = s.hart.fromZero := rfl
@[simp] theorem setKreg_hart_held (s : State) (k : Reg3) (x : KReg) :
    (setKreg s k x).hart.held = s.hart.held := rfl
@[simp] theorem setKreg_hart_queue (s : State) (k : Reg3) (x : KReg) :
    (setKreg s k x).hart.queue = s.hart.queue := rfl
@[simp] theorem setKreg_hart_front (s : State) (k : Reg3) (x : KReg) :
    (setKreg s k x).hart.front = s.hart.front := rfl
@[simp] theorem setKreg_hart_gates (s : State) (k : Reg3) (x : KReg) :
    (setKreg s k x).hart.gates = s.hart.gates := rfl
@[simp] theorem setKreg_hart_vecFences (s : State) (k : Reg3) (x : KReg) :
    (setKreg s k x).hart.vecFences = s.hart.vecFences := rfl
@[simp] theorem setKreg_hart_age (s : State) (k : Reg3) (x : KReg) :
    (setKreg s k x).hart.age = s.hart.age := rfl
@[simp] theorem setKreg_hart_yielded (s : State) (k : Reg3) (x : KReg) :
    (setKreg s k x).hart.yielded = s.hart.yielded := rfl
@[simp] theorem setKreg_hart_stalled (s : State) (k : Reg3) (x : KReg) :
    (setKreg s k x).hart.stalled = s.hart.stalled := rfl
@[simp] theorem setKreg_hart_bound (s : State) (k : Reg3) (x : KReg) :
    (setKreg s k x).hart.bound = s.hart.bound := rfl
@[simp] theorem setKreg_hart_retry (s : State) (k : Reg3) (x : KReg) :
    (setKreg s k x).hart.retry = s.hart.retry := rfl
@[simp] theorem setKreg_hart_waitNs (s : State) (k : Reg3) (x : KReg) :
    (setKreg s k x).hart.waitNs = s.hart.waitNs := rfl
@[simp] theorem setKreg_hart_waitSince (s : State) (k : Reg3) (x : KReg) :
    (setKreg s k x).hart.waitSince = s.hart.waitSince := rfl
@[simp] theorem setKreg_hart_call (s : State) (k : Reg3) (x : KReg) :
    (setKreg s k x).hart.call = s.hart.call := rfl
@[simp] theorem setKreg_hart_reply (s : State) (k : Reg3) (x : KReg) :
    (setKreg s k x).hart.reply = s.hart.reply := rfl
@[simp] theorem setKreg_hart_coldErrors (s : State) (k : Reg3) (x : KReg) :
    (setKreg s k x).hart.coldErrors = s.hart.coldErrors := rfl
@[simp] theorem setKreg_hart_owes12 (s : State) (k : Reg3) (x : KReg) :
    (setKreg s k x).hart.owes12 = s.hart.owes12 := rfl
@[simp] theorem setKreg_hart_owes55 (s : State) (k : Reg3) (x : KReg) :
    (setKreg s k x).hart.owes55 = s.hart.owes55 := rfl
@[simp] theorem setKreg_hart_saveArea (s : State) (k : Reg3) (x : KReg) :
    (setKreg s k x).hart.saveArea = s.hart.saveArea := rfl
@[simp] theorem setKreg_hart_areaWritten (s : State) (k : Reg3) (x : KReg) :
    (setKreg s k x).hart.areaWritten = s.hart.areaWritten := rfl
@[simp] theorem setKreg_hart_savedPart (s : State) (k : Reg3) (x : KReg) :
    (setKreg s k x).hart.savedPart = s.hart.savedPart := rfl
@[simp] theorem setKreg_hart_savedScratch (s : State) (k : Reg3) (x : KReg) :
    (setKreg s k x).hart.savedScratch = s.hart.savedScratch := rfl
@[simp] theorem setKreg_hart_savedPoison (s : State) (k : Reg3) (x : KReg) :
    (setKreg s k x).hart.savedPoison = s.hart.savedPoison := rfl
@[simp] theorem setKreg_hart_wait (s : State) (k : Reg3) (x : KReg) :
    (setKreg s k x).hart.wait = s.hart.wait := rfl
@[simp] theorem setKreg_hart_slot (s : State) (k : Reg3) (x : KReg) :
    (setKreg s k x).hart.slot = s.hart.slot := rfl
@[simp] theorem setKreg_hart_partId (s : State) (k : Reg3) (x : KReg) :
    (setKreg s k x).hart.partId = s.hart.partId := rfl
@[simp] theorem setKreg_hart_gangStack (s : State) (k : Reg3) (x : KReg) :
    (setKreg s k x).hart.gangStack = s.hart.gangStack := rfl
@[simp] theorem setKreg_hart_gang (s : State) (k : Reg3) (x : KReg) :
    (setKreg s k x).hart.gang = s.hart.gang := rfl
@[simp] theorem setKreg_hart_g (s : State) (k : Reg3) (x : KReg) :
    (setKreg s k x).hart.g = s.hart.g := rfl
@[simp] theorem setKreg_hart_depth (s : State) (k : Reg3) (x : KReg) :
    (setKreg s k x).hart.depth = s.hart.depth := rfl
@[simp] theorem setKreg_hart_pc (s : State) (k : Reg3) (x : KReg) :
    (setKreg s k x).hart.pc = s.hart.pc := rfl
@[simp] theorem setKreg_hart_regs (s : State) (k : Reg3) (x : KReg) :
    (setKreg s k x).hart.regs = s.hart.regs := rfl
@[simp] theorem setKreg_hart_vregs (s : State) (k : Reg3) (x : KReg) :
    (setKreg s k x).hart.vregs = s.hart.vregs := rfl
@[simp] theorem setKreg_hart_mregs (s : State) (k : Reg3) (x : KReg) :
    (setKreg s k x).hart.mregs = s.hart.mregs := rfl
@[simp] theorem setKreg_hart_csr (s : State) (k : Reg3) (x : KReg) :
    (setKreg s k x).hart.csr = s.hart.csr := rfl
@[simp] theorem setKreg_hart_loops (s : State) (k : Reg3) (x : KReg) :
    (setKreg s k x).hart.loops = s.hart.loops := rfl
@[simp] theorem setKreg_hart_regions (s : State) (k : Reg3) (x : KReg) :
    (setKreg s k x).hart.regions = s.hart.regions := rfl
@[simp] theorem setKreg_hart_aside (s : State) (k : Reg3) (x : KReg) :
    (setKreg s k x).hart.aside = s.hart.aside := rfl
@[simp] theorem setKreg_hart_streams (s : State) (k : Reg3) (x : KReg) :
    (setKreg s k x).hart.streams = s.hart.streams := rfl
@[simp] theorem setKreg_hart_par (s : State) (k : Reg3) (x : KReg) :
    (setKreg s k x).hart.par = s.hart.par := rfl
@[simp] theorem setKreg_hart_accWin (s : State) (k : Reg3) (x : KReg) :
    (setKreg s k x).hart.accWin = s.hart.accWin := rfl
@[simp] theorem setKreg_hart_rows (s : State) (k : Reg3) (x : KReg) :
    (setKreg s k x).hart.rows = s.hart.rows := rfl
@[simp] theorem setKreg_hart_rowPoison (s : State) (k : Reg3) (x : KReg) :
    (setKreg s k x).hart.rowPoison = s.hart.rowPoison := rfl
@[simp] theorem setKreg_hart_grant (s : State) (k : Reg3) (x : KReg) :
    (setKreg s k x).hart.grant = s.hart.grant := rfl
@[simp] theorem setKreg_hart_acc (s : State) (k : Reg3) (x : KReg) :
    (setKreg s k x).hart.acc = s.hart.acc := rfl
@[simp] theorem setKreg_hart_accPoison (s : State) (k : Reg3) (x : KReg) :
    (setKreg s k x).hart.accPoison = s.hart.accPoison := rfl
@[simp] theorem setKreg_hart_accLease (s : State) (k : Reg3) (x : KReg) :
    (setKreg s k x).hart.accLease = s.hart.accLease := rfl
@[simp] theorem setKreg_hart_genCache (s : State) (k : Reg3) (x : KReg) :
    (setKreg s k x).hart.genCache = s.hart.genCache := rfl
@[simp] theorem setKreg_hart_leaseNext (s : State) (k : Reg3) (x : KReg) :
    (setKreg s k x).hart.leaseNext = s.hart.leaseNext := rfl
@[simp] theorem setKreg_hart_fed (s : State) (k : Reg3) (x : KReg) :
    (setKreg s k x).hart.fed = s.hart.fed := rfl
@[simp] theorem setKreg_hart_lag (s : State) (k : Reg3) (x : KReg) :
    (setKreg s k x).hart.lag = s.hart.lag := rfl
@[simp] theorem setKreg_hart_posted (s : State) (k : Reg3) (x : KReg) :
    (setKreg s k x).hart.posted = s.hart.posted := rfl
@[simp] theorem setKreg_hart_replies (s : State) (k : Reg3) (x : KReg) :
    (setKreg s k x).hart.replies = s.hart.replies := rfl

/-! ### `setMreg` -/

@[simp] theorem setMreg_up (s : State) (m : Reg3) (x : MReg) : (setMreg s m x).up = s.up := by unfold setMreg; split <;> rfl
@[simp] theorem setMreg_others (s : State) (m : Reg3) (x : MReg) : (setMreg s m x).others = s.others := by unfold setMreg; split <;> rfl
@[simp] theorem setMreg_saved (s : State) (m : Reg3) (x : MReg) : (setMreg s m x).saved = s.saved := by unfold setMreg; split <;> rfl
@[simp] theorem setMreg_mem (s : State) (m : Reg3) (x : MReg) : (setMreg s m x).mem = s.mem := by unfold setMreg; split <;> rfl
@[simp] theorem setMreg_poison (s : State) (m : Reg3) (x : MReg) : (setMreg s m x).poison = s.poison := by unfold setMreg; split <;> rfl
@[simp] theorem setMreg_markDeny (s : State) (m : Reg3) (x : MReg) : (setMreg s m x).markDeny = s.markDeny := by unfold setMreg; split <;> rfl
@[simp] theorem setMreg_sriov (s : State) (m : Reg3) (x : MReg) : (setMreg s m x).sriov = s.sriov := by unfold setMreg; split <;> rfl
@[simp] theorem setMreg_slots (s : State) (m : Reg3) (x : MReg) : (setMreg s m x).slots = s.slots := by unfold setMreg; split <;> rfl
@[simp] theorem setMreg_fes (s : State) (m : Reg3) (x : MReg) : (setMreg s m x).fes = s.fes := by unfold setMreg; split <;> rfl
@[simp] theorem setMreg_fencedHalves (s : State) (m : Reg3) (x : MReg) : (setMreg s m x).fencedHalves = s.fencedHalves := by unfold setMreg; split <;> rfl
@[simp] theorem setMreg_parts (s : State) (m : Reg3) (x : MReg) : (setMreg s m x).parts = s.parts := by unfold setMreg; split <;> rfl
@[simp] theorem setMreg_gangs (s : State) (m : Reg3) (x : MReg) : (setMreg s m x).gangs = s.gangs := by unfold setMreg; split <;> rfl
@[simp] theorem setMreg_pool (s : State) (m : Reg3) (x : MReg) : (setMreg s m x).pool = s.pool := by unfold setMreg; split <;> rfl
@[simp] theorem setMreg_moves (s : State) (m : Reg3) (x : MReg) : (setMreg s m x).moves = s.moves := by unfold setMreg; split <;> rfl
@[simp] theorem setMreg_copies (s : State) (m : Reg3) (x : MReg) : (setMreg s m x).copies = s.copies := by unfold setMreg; split <;> rfl
@[simp] theorem setMreg_entries (s : State) (m : Reg3) (x : MReg) : (setMreg s m x).entries = s.entries := by unfold setMreg; split <;> rfl
@[simp] theorem setMreg_engines (s : State) (m : Reg3) (x : MReg) : (setMreg s m x).engines = s.engines := by unfold setMreg; split <;> rfl
@[simp] theorem setMreg_merges (s : State) (m : Reg3) (x : MReg) : (setMreg s m x).merges = s.merges := by unfold setMreg; split <;> rfl
@[simp] theorem setMreg_marks (s : State) (m : Reg3) (x : MReg) : (setMreg s m x).marks = s.marks := by unfold setMreg; split <;> rfl
@[simp] theorem setMreg_links (s : State) (m : Reg3) (x : MReg) : (setMreg s m x).links = s.links := by unfold setMreg; split <;> rfl
@[simp] theorem setMreg_cold (s : State) (m : Reg3) (x : MReg) : (setMreg s m x).cold = s.cold := by unfold setMreg; split <;> rfl
@[simp] theorem setMreg_vaults (s : State) (m : Reg3) (x : MReg) : (setMreg s m x).vaults = s.vaults := by unfold setMreg; split <;> rfl
@[simp] theorem setMreg_svc (s : State) (m : Reg3) (x : MReg) : (setMreg s m x).svc = s.svc := by unfold setMreg; split <;> rfl
@[simp] theorem setMreg_pf0 (s : State) (m : Reg3) (x : MReg) : (setMreg s m x).pf0 = s.pf0 := by unfold setMreg; split <;> rfl
@[simp] theorem setMreg_hostDeny (s : State) (m : Reg3) (x : MReg) : (setMreg s m x).hostDeny = s.hostDeny := by unfold setMreg; split <;> rfl
@[simp] theorem setMreg_peerDeny (s : State) (m : Reg3) (x : MReg) : (setMreg s m x).peerDeny = s.peerDeny := by unfold setMreg; split <;> rfl
@[simp] theorem setMreg_residue (s : State) (m : Reg3) (x : MReg) : (setMreg s m x).residue = s.residue := by unfold setMreg; split <;> rfl
@[simp] theorem setMreg_throttled (s : State) (m : Reg3) (x : MReg) : (setMreg s m x).throttled = s.throttled := by unfold setMreg; split <;> rfl
@[simp] theorem setMreg_cycle (s : State) (m : Reg3) (x : MReg) : (setMreg s m x).cycle = s.cycle := by unfold setMreg; split <;> rfl
@[simp] theorem setMreg_nextId (s : State) (m : Reg3) (x : MReg) : (setMreg s m x).nextId = s.nextId := by unfold setMreg; split <;> rfl
@[simp] theorem setMreg_draws (s : State) (m : Reg3) (x : MReg) : (setMreg s m x).draws = s.draws := by unfold setMreg; split <;> rfl
@[simp] theorem setMreg_tock (s : State) (m : Reg3) (x : MReg) : (setMreg s m x).tock = s.tock := by unfold setMreg; split <;> rfl
@[simp] theorem setMreg_slice (s : State) (m : Reg3) (x : MReg) : (setMreg s m x).slice = s.slice := by unfold setMreg; split <;> rfl
@[simp] theorem setMreg_agenda (s : State) (m : Reg3) (x : MReg) : (setMreg s m x).agenda = s.agenda := by unfold setMreg; split <;> rfl
@[simp] theorem setMreg_hart_cid (s : State) (m : Reg3) (x : MReg) :
    (setMreg s m x).hart.cid = s.hart.cid := by unfold setMreg; split <;> rfl
@[simp] theorem setMreg_hart_phase (s : State) (m : Reg3) (x : MReg) :
    (setMreg s m x).hart.phase = s.hart.phase := by unfold setMreg; split <;> rfl
@[simp] theorem setMreg_hart_current (s : State) (m : Reg3) (x : MReg) :
    (setMreg s m x).hart.current = s.hart.current := by unfold setMreg; split <;> rfl
@[simp] theorem setMreg_hart_issued (s : State) (m : Reg3) (x : MReg) :
    (setMreg s m x).hart.issued = s.hart.issued := by unfold setMreg; split <;> rfl
@[simp] theorem setMreg_hart_headed (s : State) (m : Reg3) (x : MReg) :
    (setMreg s m x).hart.headed = s.hart.headed := by unfold setMreg; split <;> rfl
@[simp] theorem setMreg_hart_probed (s : State) (m : Reg3) (x : MReg) :
    (setMreg s m x).hart.probed = s.hart.probed := by unfold setMreg; split <;> rfl
@[simp] theorem setMreg_hart_offsets (s : State) (m : Reg3) (x : MReg) :
    (setMreg s m x).hart.offsets = s.hart.offsets := by unfold setMreg; split <;> rfl
@[simp] theorem setMreg_hart_wrote (s : State) (m : Reg3) (x : MReg) :
    (setMreg s m x).hart.wrote = s.hart.wrote := by unfold setMreg; split <;> rfl
@[simp] theorem setMreg_hart_heldFault (s : State) (m : Reg3) (x : MReg) :
    (setMreg s m x).hart.heldFault = s.hart.heldFault := by unfold setMreg; split <;> rfl
@[simp] theorem setMreg_hart_lastSlot (s : State) (m : Reg3) (x : MReg) :
    (setMreg s m x).hart.lastSlot = s.hart.lastSlot := by unfold setMreg; split <;> rfl
@[simp] theorem setMreg_hart_stopPending (s : State) (m : Reg3) (x : MReg) :
    (setMreg s m x).hart.stopPending = s.hart.stopPending := by unfold setMreg; split <;> rfl
@[simp] theorem setMreg_hart_stopped (s : State) (m : Reg3) (x : MReg) :
    (setMreg s m x).hart.stopped = s.hart.stopped := by unfold setMreg; split <;> rfl
@[simp] theorem setMreg_hart_due (s : State) (m : Reg3) (x : MReg) :
    (setMreg s m x).hart.due = s.hart.due := by unfold setMreg; split <;> rfl
@[simp] theorem setMreg_hart_member (s : State) (m : Reg3) (x : MReg) :
    (setMreg s m x).hart.member = s.hart.member := by unfold setMreg; split <;> rfl
@[simp] theorem setMreg_hart_homeGang (s : State) (m : Reg3) (x : MReg) :
    (setMreg s m x).hart.homeGang = s.hart.homeGang := by unfold setMreg; split <;> rfl
@[simp] theorem setMreg_hart_leasePending (s : State) (m : Reg3) (x : MReg) :
    (setMreg s m x).hart.leasePending = s.hart.leasePending := by unfold setMreg; split <;> rfl
@[simp] theorem setMreg_hart_inProgress (s : State) (m : Reg3) (x : MReg) :
    (setMreg s m x).hart.inProgress = s.hart.inProgress := by unfold setMreg; split <;> rfl
@[simp] theorem setMreg_hart_fromZero (s : State) (m : Reg3) (x : MReg) :
    (setMreg s m x).hart.fromZero = s.hart.fromZero := by unfold setMreg; split <;> rfl
@[simp] theorem setMreg_hart_held (s : State) (m : Reg3) (x : MReg) :
    (setMreg s m x).hart.held = s.hart.held := by unfold setMreg; split <;> rfl
@[simp] theorem setMreg_hart_queue (s : State) (m : Reg3) (x : MReg) :
    (setMreg s m x).hart.queue = s.hart.queue := by unfold setMreg; split <;> rfl
@[simp] theorem setMreg_hart_front (s : State) (m : Reg3) (x : MReg) :
    (setMreg s m x).hart.front = s.hart.front := by unfold setMreg; split <;> rfl
@[simp] theorem setMreg_hart_gates (s : State) (m : Reg3) (x : MReg) :
    (setMreg s m x).hart.gates = s.hart.gates := by unfold setMreg; split <;> rfl
@[simp] theorem setMreg_hart_vecFences (s : State) (m : Reg3) (x : MReg) :
    (setMreg s m x).hart.vecFences = s.hart.vecFences := by unfold setMreg; split <;> rfl
@[simp] theorem setMreg_hart_age (s : State) (m : Reg3) (x : MReg) :
    (setMreg s m x).hart.age = s.hart.age := by unfold setMreg; split <;> rfl
@[simp] theorem setMreg_hart_yielded (s : State) (m : Reg3) (x : MReg) :
    (setMreg s m x).hart.yielded = s.hart.yielded := by unfold setMreg; split <;> rfl
@[simp] theorem setMreg_hart_stalled (s : State) (m : Reg3) (x : MReg) :
    (setMreg s m x).hart.stalled = s.hart.stalled := by unfold setMreg; split <;> rfl
@[simp] theorem setMreg_hart_bound (s : State) (m : Reg3) (x : MReg) :
    (setMreg s m x).hart.bound = s.hart.bound := by unfold setMreg; split <;> rfl
@[simp] theorem setMreg_hart_retry (s : State) (m : Reg3) (x : MReg) :
    (setMreg s m x).hart.retry = s.hart.retry := by unfold setMreg; split <;> rfl
@[simp] theorem setMreg_hart_waitNs (s : State) (m : Reg3) (x : MReg) :
    (setMreg s m x).hart.waitNs = s.hart.waitNs := by unfold setMreg; split <;> rfl
@[simp] theorem setMreg_hart_waitSince (s : State) (m : Reg3) (x : MReg) :
    (setMreg s m x).hart.waitSince = s.hart.waitSince := by unfold setMreg; split <;> rfl
@[simp] theorem setMreg_hart_call (s : State) (m : Reg3) (x : MReg) :
    (setMreg s m x).hart.call = s.hart.call := by unfold setMreg; split <;> rfl
@[simp] theorem setMreg_hart_reply (s : State) (m : Reg3) (x : MReg) :
    (setMreg s m x).hart.reply = s.hart.reply := by unfold setMreg; split <;> rfl
@[simp] theorem setMreg_hart_coldErrors (s : State) (m : Reg3) (x : MReg) :
    (setMreg s m x).hart.coldErrors = s.hart.coldErrors := by unfold setMreg; split <;> rfl
@[simp] theorem setMreg_hart_owes12 (s : State) (m : Reg3) (x : MReg) :
    (setMreg s m x).hart.owes12 = s.hart.owes12 := by unfold setMreg; split <;> rfl
@[simp] theorem setMreg_hart_owes55 (s : State) (m : Reg3) (x : MReg) :
    (setMreg s m x).hart.owes55 = s.hart.owes55 := by unfold setMreg; split <;> rfl
@[simp] theorem setMreg_hart_saveArea (s : State) (m : Reg3) (x : MReg) :
    (setMreg s m x).hart.saveArea = s.hart.saveArea := by unfold setMreg; split <;> rfl
@[simp] theorem setMreg_hart_areaWritten (s : State) (m : Reg3) (x : MReg) :
    (setMreg s m x).hart.areaWritten = s.hart.areaWritten := by unfold setMreg; split <;> rfl
@[simp] theorem setMreg_hart_savedPart (s : State) (m : Reg3) (x : MReg) :
    (setMreg s m x).hart.savedPart = s.hart.savedPart := by unfold setMreg; split <;> rfl
@[simp] theorem setMreg_hart_savedScratch (s : State) (m : Reg3) (x : MReg) :
    (setMreg s m x).hart.savedScratch = s.hart.savedScratch := by unfold setMreg; split <;> rfl
@[simp] theorem setMreg_hart_savedPoison (s : State) (m : Reg3) (x : MReg) :
    (setMreg s m x).hart.savedPoison = s.hart.savedPoison := by unfold setMreg; split <;> rfl
@[simp] theorem setMreg_hart_wait (s : State) (m : Reg3) (x : MReg) :
    (setMreg s m x).hart.wait = s.hart.wait := by unfold setMreg; split <;> rfl
@[simp] theorem setMreg_hart_slot (s : State) (m : Reg3) (x : MReg) :
    (setMreg s m x).hart.slot = s.hart.slot := by unfold setMreg; split <;> rfl
@[simp] theorem setMreg_hart_partId (s : State) (m : Reg3) (x : MReg) :
    (setMreg s m x).hart.partId = s.hart.partId := by unfold setMreg; split <;> rfl
@[simp] theorem setMreg_hart_gangStack (s : State) (m : Reg3) (x : MReg) :
    (setMreg s m x).hart.gangStack = s.hart.gangStack := by unfold setMreg; split <;> rfl
@[simp] theorem setMreg_hart_gang (s : State) (m : Reg3) (x : MReg) :
    (setMreg s m x).hart.gang = s.hart.gang := by unfold setMreg; split <;> rfl
@[simp] theorem setMreg_hart_g (s : State) (m : Reg3) (x : MReg) :
    (setMreg s m x).hart.g = s.hart.g := by unfold setMreg; split <;> rfl
@[simp] theorem setMreg_hart_depth (s : State) (m : Reg3) (x : MReg) :
    (setMreg s m x).hart.depth = s.hart.depth := by unfold setMreg; split <;> rfl
@[simp] theorem setMreg_hart_pc (s : State) (m : Reg3) (x : MReg) :
    (setMreg s m x).hart.pc = s.hart.pc := by unfold setMreg; split <;> rfl
@[simp] theorem setMreg_hart_regs (s : State) (m : Reg3) (x : MReg) :
    (setMreg s m x).hart.regs = s.hart.regs := by unfold setMreg; split <;> rfl
@[simp] theorem setMreg_hart_vregs (s : State) (m : Reg3) (x : MReg) :
    (setMreg s m x).hart.vregs = s.hart.vregs := by unfold setMreg; split <;> rfl
@[simp] theorem setMreg_hart_kregs (s : State) (m : Reg3) (x : MReg) :
    (setMreg s m x).hart.kregs = s.hart.kregs := by unfold setMreg; split <;> rfl
@[simp] theorem setMreg_hart_csr (s : State) (m : Reg3) (x : MReg) :
    (setMreg s m x).hart.csr = s.hart.csr := by unfold setMreg; split <;> rfl
@[simp] theorem setMreg_hart_loops (s : State) (m : Reg3) (x : MReg) :
    (setMreg s m x).hart.loops = s.hart.loops := by unfold setMreg; split <;> rfl
@[simp] theorem setMreg_hart_regions (s : State) (m : Reg3) (x : MReg) :
    (setMreg s m x).hart.regions = s.hart.regions := by unfold setMreg; split <;> rfl
@[simp] theorem setMreg_hart_aside (s : State) (m : Reg3) (x : MReg) :
    (setMreg s m x).hart.aside = s.hart.aside := by unfold setMreg; split <;> rfl
@[simp] theorem setMreg_hart_streams (s : State) (m : Reg3) (x : MReg) :
    (setMreg s m x).hart.streams = s.hart.streams := by unfold setMreg; split <;> rfl
@[simp] theorem setMreg_hart_par (s : State) (m : Reg3) (x : MReg) :
    (setMreg s m x).hart.par = s.hart.par := by unfold setMreg; split <;> rfl
@[simp] theorem setMreg_hart_accWin (s : State) (m : Reg3) (x : MReg) :
    (setMreg s m x).hart.accWin = s.hart.accWin := by unfold setMreg; split <;> rfl
@[simp] theorem setMreg_hart_rows (s : State) (m : Reg3) (x : MReg) :
    (setMreg s m x).hart.rows = s.hart.rows := by unfold setMreg; split <;> rfl
@[simp] theorem setMreg_hart_rowPoison (s : State) (m : Reg3) (x : MReg) :
    (setMreg s m x).hart.rowPoison = s.hart.rowPoison := by unfold setMreg; split <;> rfl
@[simp] theorem setMreg_hart_grant (s : State) (m : Reg3) (x : MReg) :
    (setMreg s m x).hart.grant = s.hart.grant := by unfold setMreg; split <;> rfl
@[simp] theorem setMreg_hart_acc (s : State) (m : Reg3) (x : MReg) :
    (setMreg s m x).hart.acc = s.hart.acc := by unfold setMreg; split <;> rfl
@[simp] theorem setMreg_hart_accPoison (s : State) (m : Reg3) (x : MReg) :
    (setMreg s m x).hart.accPoison = s.hart.accPoison := by unfold setMreg; split <;> rfl
@[simp] theorem setMreg_hart_accLease (s : State) (m : Reg3) (x : MReg) :
    (setMreg s m x).hart.accLease = s.hart.accLease := by unfold setMreg; split <;> rfl
@[simp] theorem setMreg_hart_genCache (s : State) (m : Reg3) (x : MReg) :
    (setMreg s m x).hart.genCache = s.hart.genCache := by unfold setMreg; split <;> rfl
@[simp] theorem setMreg_hart_leaseNext (s : State) (m : Reg3) (x : MReg) :
    (setMreg s m x).hart.leaseNext = s.hart.leaseNext := by unfold setMreg; split <;> rfl
@[simp] theorem setMreg_hart_fed (s : State) (m : Reg3) (x : MReg) :
    (setMreg s m x).hart.fed = s.hart.fed := by unfold setMreg; split <;> rfl
@[simp] theorem setMreg_hart_lag (s : State) (m : Reg3) (x : MReg) :
    (setMreg s m x).hart.lag = s.hart.lag := by unfold setMreg; split <;> rfl
@[simp] theorem setMreg_hart_posted (s : State) (m : Reg3) (x : MReg) :
    (setMreg s m x).hart.posted = s.hart.posted := by unfold setMreg; split <;> rfl
@[simp] theorem setMreg_hart_replies (s : State) (m : Reg3) (x : MReg) :
    (setMreg s m x).hart.replies = s.hart.replies := by unfold setMreg; split <;> rfl

/-! ### `setCsrs` -/

@[simp] theorem setCsrs_up (s : State) (f : Csrs → Csrs) : (setCsrs s f).up = s.up := rfl
@[simp] theorem setCsrs_others (s : State) (f : Csrs → Csrs) : (setCsrs s f).others = s.others := rfl
@[simp] theorem setCsrs_saved (s : State) (f : Csrs → Csrs) : (setCsrs s f).saved = s.saved := rfl
@[simp] theorem setCsrs_mem (s : State) (f : Csrs → Csrs) : (setCsrs s f).mem = s.mem := rfl
@[simp] theorem setCsrs_poison (s : State) (f : Csrs → Csrs) : (setCsrs s f).poison = s.poison := rfl
@[simp] theorem setCsrs_markDeny (s : State) (f : Csrs → Csrs) : (setCsrs s f).markDeny = s.markDeny := rfl
@[simp] theorem setCsrs_sriov (s : State) (f : Csrs → Csrs) : (setCsrs s f).sriov = s.sriov := rfl
@[simp] theorem setCsrs_slots (s : State) (f : Csrs → Csrs) : (setCsrs s f).slots = s.slots := rfl
@[simp] theorem setCsrs_fes (s : State) (f : Csrs → Csrs) : (setCsrs s f).fes = s.fes := rfl
@[simp] theorem setCsrs_fencedHalves (s : State) (f : Csrs → Csrs) : (setCsrs s f).fencedHalves = s.fencedHalves := rfl
@[simp] theorem setCsrs_parts (s : State) (f : Csrs → Csrs) : (setCsrs s f).parts = s.parts := rfl
@[simp] theorem setCsrs_gangs (s : State) (f : Csrs → Csrs) : (setCsrs s f).gangs = s.gangs := rfl
@[simp] theorem setCsrs_pool (s : State) (f : Csrs → Csrs) : (setCsrs s f).pool = s.pool := rfl
@[simp] theorem setCsrs_moves (s : State) (f : Csrs → Csrs) : (setCsrs s f).moves = s.moves := rfl
@[simp] theorem setCsrs_copies (s : State) (f : Csrs → Csrs) : (setCsrs s f).copies = s.copies := rfl
@[simp] theorem setCsrs_entries (s : State) (f : Csrs → Csrs) : (setCsrs s f).entries = s.entries := rfl
@[simp] theorem setCsrs_engines (s : State) (f : Csrs → Csrs) : (setCsrs s f).engines = s.engines := rfl
@[simp] theorem setCsrs_merges (s : State) (f : Csrs → Csrs) : (setCsrs s f).merges = s.merges := rfl
@[simp] theorem setCsrs_marks (s : State) (f : Csrs → Csrs) : (setCsrs s f).marks = s.marks := rfl
@[simp] theorem setCsrs_links (s : State) (f : Csrs → Csrs) : (setCsrs s f).links = s.links := rfl
@[simp] theorem setCsrs_cold (s : State) (f : Csrs → Csrs) : (setCsrs s f).cold = s.cold := rfl
@[simp] theorem setCsrs_vaults (s : State) (f : Csrs → Csrs) : (setCsrs s f).vaults = s.vaults := rfl
@[simp] theorem setCsrs_svc (s : State) (f : Csrs → Csrs) : (setCsrs s f).svc = s.svc := rfl
@[simp] theorem setCsrs_pf0 (s : State) (f : Csrs → Csrs) : (setCsrs s f).pf0 = s.pf0 := rfl
@[simp] theorem setCsrs_hostDeny (s : State) (f : Csrs → Csrs) : (setCsrs s f).hostDeny = s.hostDeny := rfl
@[simp] theorem setCsrs_peerDeny (s : State) (f : Csrs → Csrs) : (setCsrs s f).peerDeny = s.peerDeny := rfl
@[simp] theorem setCsrs_residue (s : State) (f : Csrs → Csrs) : (setCsrs s f).residue = s.residue := rfl
@[simp] theorem setCsrs_throttled (s : State) (f : Csrs → Csrs) : (setCsrs s f).throttled = s.throttled := rfl
@[simp] theorem setCsrs_cycle (s : State) (f : Csrs → Csrs) : (setCsrs s f).cycle = s.cycle := rfl
@[simp] theorem setCsrs_nextId (s : State) (f : Csrs → Csrs) : (setCsrs s f).nextId = s.nextId := rfl
@[simp] theorem setCsrs_draws (s : State) (f : Csrs → Csrs) : (setCsrs s f).draws = s.draws := rfl
@[simp] theorem setCsrs_tock (s : State) (f : Csrs → Csrs) : (setCsrs s f).tock = s.tock := rfl
@[simp] theorem setCsrs_slice (s : State) (f : Csrs → Csrs) : (setCsrs s f).slice = s.slice := rfl
@[simp] theorem setCsrs_agenda (s : State) (f : Csrs → Csrs) : (setCsrs s f).agenda = s.agenda := rfl
@[simp] theorem setCsrs_hart_cid (s : State) (f : Csrs → Csrs) :
    (setCsrs s f).hart.cid = s.hart.cid := rfl
@[simp] theorem setCsrs_hart_phase (s : State) (f : Csrs → Csrs) :
    (setCsrs s f).hart.phase = s.hart.phase := rfl
@[simp] theorem setCsrs_hart_current (s : State) (f : Csrs → Csrs) :
    (setCsrs s f).hart.current = s.hart.current := rfl
@[simp] theorem setCsrs_hart_issued (s : State) (f : Csrs → Csrs) :
    (setCsrs s f).hart.issued = s.hart.issued := rfl
@[simp] theorem setCsrs_hart_headed (s : State) (f : Csrs → Csrs) :
    (setCsrs s f).hart.headed = s.hart.headed := rfl
@[simp] theorem setCsrs_hart_probed (s : State) (f : Csrs → Csrs) :
    (setCsrs s f).hart.probed = s.hart.probed := rfl
@[simp] theorem setCsrs_hart_offsets (s : State) (f : Csrs → Csrs) :
    (setCsrs s f).hart.offsets = s.hart.offsets := rfl
@[simp] theorem setCsrs_hart_wrote (s : State) (f : Csrs → Csrs) :
    (setCsrs s f).hart.wrote = s.hart.wrote := rfl
@[simp] theorem setCsrs_hart_heldFault (s : State) (f : Csrs → Csrs) :
    (setCsrs s f).hart.heldFault = s.hart.heldFault := rfl
@[simp] theorem setCsrs_hart_lastSlot (s : State) (f : Csrs → Csrs) :
    (setCsrs s f).hart.lastSlot = s.hart.lastSlot := rfl
@[simp] theorem setCsrs_hart_stopPending (s : State) (f : Csrs → Csrs) :
    (setCsrs s f).hart.stopPending = s.hart.stopPending := rfl
@[simp] theorem setCsrs_hart_stopped (s : State) (f : Csrs → Csrs) :
    (setCsrs s f).hart.stopped = s.hart.stopped := rfl
@[simp] theorem setCsrs_hart_due (s : State) (f : Csrs → Csrs) :
    (setCsrs s f).hart.due = s.hart.due := rfl
@[simp] theorem setCsrs_hart_member (s : State) (f : Csrs → Csrs) :
    (setCsrs s f).hart.member = s.hart.member := rfl
@[simp] theorem setCsrs_hart_homeGang (s : State) (f : Csrs → Csrs) :
    (setCsrs s f).hart.homeGang = s.hart.homeGang := rfl
@[simp] theorem setCsrs_hart_leasePending (s : State) (f : Csrs → Csrs) :
    (setCsrs s f).hart.leasePending = s.hart.leasePending := rfl
@[simp] theorem setCsrs_hart_inProgress (s : State) (f : Csrs → Csrs) :
    (setCsrs s f).hart.inProgress = s.hart.inProgress := rfl
@[simp] theorem setCsrs_hart_fromZero (s : State) (f : Csrs → Csrs) :
    (setCsrs s f).hart.fromZero = s.hart.fromZero := rfl
@[simp] theorem setCsrs_hart_held (s : State) (f : Csrs → Csrs) :
    (setCsrs s f).hart.held = s.hart.held := rfl
@[simp] theorem setCsrs_hart_queue (s : State) (f : Csrs → Csrs) :
    (setCsrs s f).hart.queue = s.hart.queue := rfl
@[simp] theorem setCsrs_hart_front (s : State) (f : Csrs → Csrs) :
    (setCsrs s f).hart.front = s.hart.front := rfl
@[simp] theorem setCsrs_hart_gates (s : State) (f : Csrs → Csrs) :
    (setCsrs s f).hart.gates = s.hart.gates := rfl
@[simp] theorem setCsrs_hart_vecFences (s : State) (f : Csrs → Csrs) :
    (setCsrs s f).hart.vecFences = s.hart.vecFences := rfl
@[simp] theorem setCsrs_hart_age (s : State) (f : Csrs → Csrs) :
    (setCsrs s f).hart.age = s.hart.age := rfl
@[simp] theorem setCsrs_hart_yielded (s : State) (f : Csrs → Csrs) :
    (setCsrs s f).hart.yielded = s.hart.yielded := rfl
@[simp] theorem setCsrs_hart_stalled (s : State) (f : Csrs → Csrs) :
    (setCsrs s f).hart.stalled = s.hart.stalled := rfl
@[simp] theorem setCsrs_hart_bound (s : State) (f : Csrs → Csrs) :
    (setCsrs s f).hart.bound = s.hart.bound := rfl
@[simp] theorem setCsrs_hart_retry (s : State) (f : Csrs → Csrs) :
    (setCsrs s f).hart.retry = s.hart.retry := rfl
@[simp] theorem setCsrs_hart_waitNs (s : State) (f : Csrs → Csrs) :
    (setCsrs s f).hart.waitNs = s.hart.waitNs := rfl
@[simp] theorem setCsrs_hart_waitSince (s : State) (f : Csrs → Csrs) :
    (setCsrs s f).hart.waitSince = s.hart.waitSince := rfl
@[simp] theorem setCsrs_hart_call (s : State) (f : Csrs → Csrs) :
    (setCsrs s f).hart.call = s.hart.call := rfl
@[simp] theorem setCsrs_hart_reply (s : State) (f : Csrs → Csrs) :
    (setCsrs s f).hart.reply = s.hart.reply := rfl
@[simp] theorem setCsrs_hart_coldErrors (s : State) (f : Csrs → Csrs) :
    (setCsrs s f).hart.coldErrors = s.hart.coldErrors := rfl
@[simp] theorem setCsrs_hart_owes12 (s : State) (f : Csrs → Csrs) :
    (setCsrs s f).hart.owes12 = s.hart.owes12 := rfl
@[simp] theorem setCsrs_hart_owes55 (s : State) (f : Csrs → Csrs) :
    (setCsrs s f).hart.owes55 = s.hart.owes55 := rfl
@[simp] theorem setCsrs_hart_saveArea (s : State) (f : Csrs → Csrs) :
    (setCsrs s f).hart.saveArea = s.hart.saveArea := rfl
@[simp] theorem setCsrs_hart_areaWritten (s : State) (f : Csrs → Csrs) :
    (setCsrs s f).hart.areaWritten = s.hart.areaWritten := rfl
@[simp] theorem setCsrs_hart_savedPart (s : State) (f : Csrs → Csrs) :
    (setCsrs s f).hart.savedPart = s.hart.savedPart := rfl
@[simp] theorem setCsrs_hart_savedScratch (s : State) (f : Csrs → Csrs) :
    (setCsrs s f).hart.savedScratch = s.hart.savedScratch := rfl
@[simp] theorem setCsrs_hart_savedPoison (s : State) (f : Csrs → Csrs) :
    (setCsrs s f).hart.savedPoison = s.hart.savedPoison := rfl
@[simp] theorem setCsrs_hart_wait (s : State) (f : Csrs → Csrs) :
    (setCsrs s f).hart.wait = s.hart.wait := rfl
@[simp] theorem setCsrs_hart_slot (s : State) (f : Csrs → Csrs) :
    (setCsrs s f).hart.slot = s.hart.slot := rfl
@[simp] theorem setCsrs_hart_partId (s : State) (f : Csrs → Csrs) :
    (setCsrs s f).hart.partId = s.hart.partId := rfl
@[simp] theorem setCsrs_hart_gangStack (s : State) (f : Csrs → Csrs) :
    (setCsrs s f).hart.gangStack = s.hart.gangStack := rfl
@[simp] theorem setCsrs_hart_gang (s : State) (f : Csrs → Csrs) :
    (setCsrs s f).hart.gang = s.hart.gang := rfl
@[simp] theorem setCsrs_hart_g (s : State) (f : Csrs → Csrs) :
    (setCsrs s f).hart.g = s.hart.g := rfl
@[simp] theorem setCsrs_hart_depth (s : State) (f : Csrs → Csrs) :
    (setCsrs s f).hart.depth = s.hart.depth := rfl
@[simp] theorem setCsrs_hart_pc (s : State) (f : Csrs → Csrs) :
    (setCsrs s f).hart.pc = s.hart.pc := rfl
@[simp] theorem setCsrs_hart_regs (s : State) (f : Csrs → Csrs) :
    (setCsrs s f).hart.regs = s.hart.regs := rfl
@[simp] theorem setCsrs_hart_vregs (s : State) (f : Csrs → Csrs) :
    (setCsrs s f).hart.vregs = s.hart.vregs := rfl
@[simp] theorem setCsrs_hart_mregs (s : State) (f : Csrs → Csrs) :
    (setCsrs s f).hart.mregs = s.hart.mregs := rfl
@[simp] theorem setCsrs_hart_kregs (s : State) (f : Csrs → Csrs) :
    (setCsrs s f).hart.kregs = s.hart.kregs := rfl
@[simp] theorem setCsrs_hart_loops (s : State) (f : Csrs → Csrs) :
    (setCsrs s f).hart.loops = s.hart.loops := rfl
@[simp] theorem setCsrs_hart_regions (s : State) (f : Csrs → Csrs) :
    (setCsrs s f).hart.regions = s.hart.regions := rfl
@[simp] theorem setCsrs_hart_aside (s : State) (f : Csrs → Csrs) :
    (setCsrs s f).hart.aside = s.hart.aside := rfl
@[simp] theorem setCsrs_hart_streams (s : State) (f : Csrs → Csrs) :
    (setCsrs s f).hart.streams = s.hart.streams := rfl
@[simp] theorem setCsrs_hart_par (s : State) (f : Csrs → Csrs) :
    (setCsrs s f).hart.par = s.hart.par := rfl
@[simp] theorem setCsrs_hart_accWin (s : State) (f : Csrs → Csrs) :
    (setCsrs s f).hart.accWin = s.hart.accWin := rfl
@[simp] theorem setCsrs_hart_rows (s : State) (f : Csrs → Csrs) :
    (setCsrs s f).hart.rows = s.hart.rows := rfl
@[simp] theorem setCsrs_hart_rowPoison (s : State) (f : Csrs → Csrs) :
    (setCsrs s f).hart.rowPoison = s.hart.rowPoison := rfl
@[simp] theorem setCsrs_hart_grant (s : State) (f : Csrs → Csrs) :
    (setCsrs s f).hart.grant = s.hart.grant := rfl
@[simp] theorem setCsrs_hart_acc (s : State) (f : Csrs → Csrs) :
    (setCsrs s f).hart.acc = s.hart.acc := rfl
@[simp] theorem setCsrs_hart_accPoison (s : State) (f : Csrs → Csrs) :
    (setCsrs s f).hart.accPoison = s.hart.accPoison := rfl
@[simp] theorem setCsrs_hart_accLease (s : State) (f : Csrs → Csrs) :
    (setCsrs s f).hart.accLease = s.hart.accLease := rfl
@[simp] theorem setCsrs_hart_genCache (s : State) (f : Csrs → Csrs) :
    (setCsrs s f).hart.genCache = s.hart.genCache := rfl
@[simp] theorem setCsrs_hart_leaseNext (s : State) (f : Csrs → Csrs) :
    (setCsrs s f).hart.leaseNext = s.hart.leaseNext := rfl
@[simp] theorem setCsrs_hart_fed (s : State) (f : Csrs → Csrs) :
    (setCsrs s f).hart.fed = s.hart.fed := rfl
@[simp] theorem setCsrs_hart_lag (s : State) (f : Csrs → Csrs) :
    (setCsrs s f).hart.lag = s.hart.lag := rfl
@[simp] theorem setCsrs_hart_posted (s : State) (f : Csrs → Csrs) :
    (setCsrs s f).hart.posted = s.hart.posted := rfl
@[simp] theorem setCsrs_hart_replies (s : State) (f : Csrs → Csrs) :
    (setCsrs s f).hart.replies = s.hart.replies := rfl

/-! ### `takeId` -/

@[simp] theorem takeId_up (s : State) : (takeId s).up = s.up := rfl
@[simp] theorem takeId_others (s : State) : (takeId s).others = s.others := rfl
@[simp] theorem takeId_saved (s : State) : (takeId s).saved = s.saved := rfl
@[simp] theorem takeId_mem (s : State) : (takeId s).mem = s.mem := rfl
@[simp] theorem takeId_poison (s : State) : (takeId s).poison = s.poison := rfl
@[simp] theorem takeId_markDeny (s : State) : (takeId s).markDeny = s.markDeny := rfl
@[simp] theorem takeId_sriov (s : State) : (takeId s).sriov = s.sriov := rfl
@[simp] theorem takeId_slots (s : State) : (takeId s).slots = s.slots := rfl
@[simp] theorem takeId_fes (s : State) : (takeId s).fes = s.fes := rfl
@[simp] theorem takeId_fencedHalves (s : State) : (takeId s).fencedHalves = s.fencedHalves := rfl
@[simp] theorem takeId_parts (s : State) : (takeId s).parts = s.parts := rfl
@[simp] theorem takeId_gangs (s : State) : (takeId s).gangs = s.gangs := rfl
@[simp] theorem takeId_pool (s : State) : (takeId s).pool = s.pool := rfl
@[simp] theorem takeId_moves (s : State) : (takeId s).moves = s.moves := rfl
@[simp] theorem takeId_copies (s : State) : (takeId s).copies = s.copies := rfl
@[simp] theorem takeId_entries (s : State) : (takeId s).entries = s.entries := rfl
@[simp] theorem takeId_engines (s : State) : (takeId s).engines = s.engines := rfl
@[simp] theorem takeId_merges (s : State) : (takeId s).merges = s.merges := rfl
@[simp] theorem takeId_marks (s : State) : (takeId s).marks = s.marks := rfl
@[simp] theorem takeId_links (s : State) : (takeId s).links = s.links := rfl
@[simp] theorem takeId_cold (s : State) : (takeId s).cold = s.cold := rfl
@[simp] theorem takeId_vaults (s : State) : (takeId s).vaults = s.vaults := rfl
@[simp] theorem takeId_svc (s : State) : (takeId s).svc = s.svc := rfl
@[simp] theorem takeId_pf0 (s : State) : (takeId s).pf0 = s.pf0 := rfl
@[simp] theorem takeId_hostDeny (s : State) : (takeId s).hostDeny = s.hostDeny := rfl
@[simp] theorem takeId_peerDeny (s : State) : (takeId s).peerDeny = s.peerDeny := rfl
@[simp] theorem takeId_residue (s : State) : (takeId s).residue = s.residue := rfl
@[simp] theorem takeId_throttled (s : State) : (takeId s).throttled = s.throttled := rfl
@[simp] theorem takeId_cycle (s : State) : (takeId s).cycle = s.cycle := rfl
@[simp] theorem takeId_nextId (s : State) : (takeId s).nextId = s.nextId := rfl
@[simp] theorem takeId_draws (s : State) : (takeId s).draws = s.draws := rfl
@[simp] theorem takeId_tock (s : State) : (takeId s).tock = s.tock := rfl
@[simp] theorem takeId_slice (s : State) : (takeId s).slice = s.slice := rfl
@[simp] theorem takeId_agenda (s : State) : (takeId s).agenda = s.agenda := rfl
@[simp] theorem takeId_hart_cid (s : State) :
    (takeId s).hart.cid = s.hart.cid := rfl
@[simp] theorem takeId_hart_phase (s : State) :
    (takeId s).hart.phase = s.hart.phase := rfl
@[simp] theorem takeId_hart_current (s : State) :
    (takeId s).hart.current = s.hart.current := rfl
@[simp] theorem takeId_hart_issued (s : State) :
    (takeId s).hart.issued = s.hart.issued := rfl
@[simp] theorem takeId_hart_headed (s : State) :
    (takeId s).hart.headed = s.hart.headed := rfl
@[simp] theorem takeId_hart_probed (s : State) :
    (takeId s).hart.probed = s.hart.probed := rfl
@[simp] theorem takeId_hart_offsets (s : State) :
    (takeId s).hart.offsets = s.hart.offsets := rfl
@[simp] theorem takeId_hart_wrote (s : State) :
    (takeId s).hart.wrote = s.hart.wrote := rfl
@[simp] theorem takeId_hart_heldFault (s : State) :
    (takeId s).hart.heldFault = s.hart.heldFault := rfl
@[simp] theorem takeId_hart_lastSlot (s : State) :
    (takeId s).hart.lastSlot = s.hart.lastSlot := rfl
@[simp] theorem takeId_hart_stopPending (s : State) :
    (takeId s).hart.stopPending = s.hart.stopPending := rfl
@[simp] theorem takeId_hart_stopped (s : State) :
    (takeId s).hart.stopped = s.hart.stopped := rfl
@[simp] theorem takeId_hart_due (s : State) :
    (takeId s).hart.due = s.hart.due := rfl
@[simp] theorem takeId_hart_member (s : State) :
    (takeId s).hart.member = s.hart.member := rfl
@[simp] theorem takeId_hart_homeGang (s : State) :
    (takeId s).hart.homeGang = s.hart.homeGang := rfl
@[simp] theorem takeId_hart_leasePending (s : State) :
    (takeId s).hart.leasePending = s.hart.leasePending := rfl
@[simp] theorem takeId_hart_inProgress (s : State) :
    (takeId s).hart.inProgress = s.hart.inProgress := rfl
@[simp] theorem takeId_hart_fromZero (s : State) :
    (takeId s).hart.fromZero = s.hart.fromZero := rfl
@[simp] theorem takeId_hart_held (s : State) :
    (takeId s).hart.held = s.hart.held := rfl
@[simp] theorem takeId_hart_queue (s : State) :
    (takeId s).hart.queue = s.hart.queue := rfl
@[simp] theorem takeId_hart_gates (s : State) :
    (takeId s).hart.gates = s.hart.gates := rfl
@[simp] theorem takeId_hart_vecFences (s : State) :
    (takeId s).hart.vecFences = s.hart.vecFences := rfl
@[simp] theorem takeId_hart_age (s : State) :
    (takeId s).hart.age = s.hart.age := rfl
@[simp] theorem takeId_hart_yielded (s : State) :
    (takeId s).hart.yielded = s.hart.yielded := rfl
@[simp] theorem takeId_hart_stalled (s : State) :
    (takeId s).hart.stalled = s.hart.stalled := rfl
@[simp] theorem takeId_hart_bound (s : State) :
    (takeId s).hart.bound = s.hart.bound := rfl
@[simp] theorem takeId_hart_retry (s : State) :
    (takeId s).hart.retry = s.hart.retry := rfl
@[simp] theorem takeId_hart_waitNs (s : State) :
    (takeId s).hart.waitNs = s.hart.waitNs := rfl
@[simp] theorem takeId_hart_waitSince (s : State) :
    (takeId s).hart.waitSince = s.hart.waitSince := rfl
@[simp] theorem takeId_hart_call (s : State) :
    (takeId s).hart.call = s.hart.call := rfl
@[simp] theorem takeId_hart_reply (s : State) :
    (takeId s).hart.reply = s.hart.reply := rfl
@[simp] theorem takeId_hart_coldErrors (s : State) :
    (takeId s).hart.coldErrors = s.hart.coldErrors := rfl
@[simp] theorem takeId_hart_owes12 (s : State) :
    (takeId s).hart.owes12 = s.hart.owes12 := rfl
@[simp] theorem takeId_hart_owes55 (s : State) :
    (takeId s).hart.owes55 = s.hart.owes55 := rfl
@[simp] theorem takeId_hart_saveArea (s : State) :
    (takeId s).hart.saveArea = s.hart.saveArea := rfl
@[simp] theorem takeId_hart_areaWritten (s : State) :
    (takeId s).hart.areaWritten = s.hart.areaWritten := rfl
@[simp] theorem takeId_hart_savedPart (s : State) :
    (takeId s).hart.savedPart = s.hart.savedPart := rfl
@[simp] theorem takeId_hart_savedScratch (s : State) :
    (takeId s).hart.savedScratch = s.hart.savedScratch := rfl
@[simp] theorem takeId_hart_savedPoison (s : State) :
    (takeId s).hart.savedPoison = s.hart.savedPoison := rfl
@[simp] theorem takeId_hart_wait (s : State) :
    (takeId s).hart.wait = s.hart.wait := rfl
@[simp] theorem takeId_hart_slot (s : State) :
    (takeId s).hart.slot = s.hart.slot := rfl
@[simp] theorem takeId_hart_partId (s : State) :
    (takeId s).hart.partId = s.hart.partId := rfl
@[simp] theorem takeId_hart_gangStack (s : State) :
    (takeId s).hart.gangStack = s.hart.gangStack := rfl
@[simp] theorem takeId_hart_gang (s : State) :
    (takeId s).hart.gang = s.hart.gang := rfl
@[simp] theorem takeId_hart_g (s : State) :
    (takeId s).hart.g = s.hart.g := rfl
@[simp] theorem takeId_hart_depth (s : State) :
    (takeId s).hart.depth = s.hart.depth := rfl
@[simp] theorem takeId_hart_pc (s : State) :
    (takeId s).hart.pc = s.hart.pc := rfl
@[simp] theorem takeId_hart_csr (s : State) :
    (takeId s).hart.csr = s.hart.csr := rfl
@[simp] theorem takeId_hart_loops (s : State) :
    (takeId s).hart.loops = s.hart.loops := rfl
@[simp] theorem takeId_hart_regions (s : State) :
    (takeId s).hart.regions = s.hart.regions := rfl
@[simp] theorem takeId_hart_aside (s : State) :
    (takeId s).hart.aside = s.hart.aside := rfl
@[simp] theorem takeId_hart_streams (s : State) :
    (takeId s).hart.streams = s.hart.streams := rfl
@[simp] theorem takeId_hart_accWin (s : State) :
    (takeId s).hart.accWin = s.hart.accWin := rfl
@[simp] theorem takeId_hart_rows (s : State) :
    (takeId s).hart.rows = s.hart.rows := rfl
@[simp] theorem takeId_hart_rowPoison (s : State) :
    (takeId s).hart.rowPoison = s.hart.rowPoison := rfl
@[simp] theorem takeId_hart_grant (s : State) :
    (takeId s).hart.grant = s.hart.grant := rfl
@[simp] theorem takeId_hart_acc (s : State) :
    (takeId s).hart.acc = s.hart.acc := rfl
@[simp] theorem takeId_hart_accPoison (s : State) :
    (takeId s).hart.accPoison = s.hart.accPoison := rfl
@[simp] theorem takeId_hart_genCache (s : State) :
    (takeId s).hart.genCache = s.hart.genCache := rfl
@[simp] theorem takeId_hart_fed (s : State) :
    (takeId s).hart.fed = s.hart.fed := rfl
@[simp] theorem takeId_hart_lag (s : State) :
    (takeId s).hart.lag = s.hart.lag := rfl
@[simp] theorem takeId_hart_posted (s : State) :
    (takeId s).hart.posted = s.hart.posted := rfl


/-! ### `addFstat` -/

@[simp] theorem addFstat_up (s : State) (f : Flags) : (addFstat s f).up = s.up := rfl
@[simp] theorem addFstat_others (s : State) (f : Flags) : (addFstat s f).others = s.others := rfl
@[simp] theorem addFstat_saved (s : State) (f : Flags) : (addFstat s f).saved = s.saved := rfl
@[simp] theorem addFstat_mem (s : State) (f : Flags) : (addFstat s f).mem = s.mem := rfl
@[simp] theorem addFstat_poison (s : State) (f : Flags) : (addFstat s f).poison = s.poison := rfl
@[simp] theorem addFstat_markDeny (s : State) (f : Flags) : (addFstat s f).markDeny = s.markDeny := rfl
@[simp] theorem addFstat_sriov (s : State) (f : Flags) : (addFstat s f).sriov = s.sriov := rfl
@[simp] theorem addFstat_slots (s : State) (f : Flags) : (addFstat s f).slots = s.slots := rfl
@[simp] theorem addFstat_fes (s : State) (f : Flags) : (addFstat s f).fes = s.fes := rfl
@[simp] theorem addFstat_fencedHalves (s : State) (f : Flags) : (addFstat s f).fencedHalves = s.fencedHalves := rfl
@[simp] theorem addFstat_parts (s : State) (f : Flags) : (addFstat s f).parts = s.parts := rfl
@[simp] theorem addFstat_gangs (s : State) (f : Flags) : (addFstat s f).gangs = s.gangs := rfl
@[simp] theorem addFstat_pool (s : State) (f : Flags) : (addFstat s f).pool = s.pool := rfl
@[simp] theorem addFstat_moves (s : State) (f : Flags) : (addFstat s f).moves = s.moves := rfl
@[simp] theorem addFstat_copies (s : State) (f : Flags) : (addFstat s f).copies = s.copies := rfl
@[simp] theorem addFstat_entries (s : State) (f : Flags) : (addFstat s f).entries = s.entries := rfl
@[simp] theorem addFstat_engines (s : State) (f : Flags) : (addFstat s f).engines = s.engines := rfl
@[simp] theorem addFstat_merges (s : State) (f : Flags) : (addFstat s f).merges = s.merges := rfl
@[simp] theorem addFstat_marks (s : State) (f : Flags) : (addFstat s f).marks = s.marks := rfl
@[simp] theorem addFstat_links (s : State) (f : Flags) : (addFstat s f).links = s.links := rfl
@[simp] theorem addFstat_cold (s : State) (f : Flags) : (addFstat s f).cold = s.cold := rfl
@[simp] theorem addFstat_vaults (s : State) (f : Flags) : (addFstat s f).vaults = s.vaults := rfl
@[simp] theorem addFstat_svc (s : State) (f : Flags) : (addFstat s f).svc = s.svc := rfl
@[simp] theorem addFstat_pf0 (s : State) (f : Flags) : (addFstat s f).pf0 = s.pf0 := rfl
@[simp] theorem addFstat_hostDeny (s : State) (f : Flags) : (addFstat s f).hostDeny = s.hostDeny := rfl
@[simp] theorem addFstat_peerDeny (s : State) (f : Flags) : (addFstat s f).peerDeny = s.peerDeny := rfl
@[simp] theorem addFstat_residue (s : State) (f : Flags) : (addFstat s f).residue = s.residue := rfl
@[simp] theorem addFstat_throttled (s : State) (f : Flags) : (addFstat s f).throttled = s.throttled := rfl
@[simp] theorem addFstat_cycle (s : State) (f : Flags) : (addFstat s f).cycle = s.cycle := rfl
@[simp] theorem addFstat_nextId (s : State) (f : Flags) : (addFstat s f).nextId = s.nextId := rfl
@[simp] theorem addFstat_draws (s : State) (f : Flags) : (addFstat s f).draws = s.draws := rfl
@[simp] theorem addFstat_tock (s : State) (f : Flags) : (addFstat s f).tock = s.tock := rfl
@[simp] theorem addFstat_slice (s : State) (f : Flags) : (addFstat s f).slice = s.slice := rfl
@[simp] theorem addFstat_agenda (s : State) (f : Flags) : (addFstat s f).agenda = s.agenda := rfl
@[simp] theorem addFstat_hart_cid (s : State) (f : Flags) :
    (addFstat s f).hart.cid = s.hart.cid := rfl
@[simp] theorem addFstat_hart_phase (s : State) (f : Flags) :
    (addFstat s f).hart.phase = s.hart.phase := rfl
@[simp] theorem addFstat_hart_current (s : State) (f : Flags) :
    (addFstat s f).hart.current = s.hart.current := rfl
@[simp] theorem addFstat_hart_issued (s : State) (f : Flags) :
    (addFstat s f).hart.issued = s.hart.issued := rfl
@[simp] theorem addFstat_hart_headed (s : State) (f : Flags) :
    (addFstat s f).hart.headed = s.hart.headed := rfl
@[simp] theorem addFstat_hart_probed (s : State) (f : Flags) :
    (addFstat s f).hart.probed = s.hart.probed := rfl
@[simp] theorem addFstat_hart_offsets (s : State) (f : Flags) :
    (addFstat s f).hart.offsets = s.hart.offsets := rfl
@[simp] theorem addFstat_hart_wrote (s : State) (f : Flags) :
    (addFstat s f).hart.wrote = s.hart.wrote := rfl
@[simp] theorem addFstat_hart_heldFault (s : State) (f : Flags) :
    (addFstat s f).hart.heldFault = s.hart.heldFault := rfl
@[simp] theorem addFstat_hart_lastSlot (s : State) (f : Flags) :
    (addFstat s f).hart.lastSlot = s.hart.lastSlot := rfl
@[simp] theorem addFstat_hart_stopPending (s : State) (f : Flags) :
    (addFstat s f).hart.stopPending = s.hart.stopPending := rfl
@[simp] theorem addFstat_hart_stopped (s : State) (f : Flags) :
    (addFstat s f).hart.stopped = s.hart.stopped := rfl
@[simp] theorem addFstat_hart_due (s : State) (f : Flags) :
    (addFstat s f).hart.due = s.hart.due := rfl
@[simp] theorem addFstat_hart_member (s : State) (f : Flags) :
    (addFstat s f).hart.member = s.hart.member := rfl
@[simp] theorem addFstat_hart_homeGang (s : State) (f : Flags) :
    (addFstat s f).hart.homeGang = s.hart.homeGang := rfl
@[simp] theorem addFstat_hart_leasePending (s : State) (f : Flags) :
    (addFstat s f).hart.leasePending = s.hart.leasePending := rfl
@[simp] theorem addFstat_hart_inProgress (s : State) (f : Flags) :
    (addFstat s f).hart.inProgress = s.hart.inProgress := rfl
@[simp] theorem addFstat_hart_fromZero (s : State) (f : Flags) :
    (addFstat s f).hart.fromZero = s.hart.fromZero := rfl
@[simp] theorem addFstat_hart_held (s : State) (f : Flags) :
    (addFstat s f).hart.held = s.hart.held := rfl
@[simp] theorem addFstat_hart_queue (s : State) (f : Flags) :
    (addFstat s f).hart.queue = s.hart.queue := rfl
@[simp] theorem addFstat_hart_front (s : State) (f : Flags) :
    (addFstat s f).hart.front = s.hart.front := rfl
@[simp] theorem addFstat_hart_gates (s : State) (f : Flags) :
    (addFstat s f).hart.gates = s.hart.gates := rfl
@[simp] theorem addFstat_hart_vecFences (s : State) (f : Flags) :
    (addFstat s f).hart.vecFences = s.hart.vecFences := rfl
@[simp] theorem addFstat_hart_age (s : State) (f : Flags) :
    (addFstat s f).hart.age = s.hart.age := rfl
@[simp] theorem addFstat_hart_yielded (s : State) (f : Flags) :
    (addFstat s f).hart.yielded = s.hart.yielded := rfl
@[simp] theorem addFstat_hart_stalled (s : State) (f : Flags) :
    (addFstat s f).hart.stalled = s.hart.stalled := rfl
@[simp] theorem addFstat_hart_bound (s : State) (f : Flags) :
    (addFstat s f).hart.bound = s.hart.bound := rfl
@[simp] theorem addFstat_hart_retry (s : State) (f : Flags) :
    (addFstat s f).hart.retry = s.hart.retry := rfl
@[simp] theorem addFstat_hart_waitNs (s : State) (f : Flags) :
    (addFstat s f).hart.waitNs = s.hart.waitNs := rfl
@[simp] theorem addFstat_hart_waitSince (s : State) (f : Flags) :
    (addFstat s f).hart.waitSince = s.hart.waitSince := rfl
@[simp] theorem addFstat_hart_call (s : State) (f : Flags) :
    (addFstat s f).hart.call = s.hart.call := rfl
@[simp] theorem addFstat_hart_reply (s : State) (f : Flags) :
    (addFstat s f).hart.reply = s.hart.reply := rfl
@[simp] theorem addFstat_hart_coldErrors (s : State) (f : Flags) :
    (addFstat s f).hart.coldErrors = s.hart.coldErrors := rfl
@[simp] theorem addFstat_hart_owes12 (s : State) (f : Flags) :
    (addFstat s f).hart.owes12 = s.hart.owes12 := rfl
@[simp] theorem addFstat_hart_owes55 (s : State) (f : Flags) :
    (addFstat s f).hart.owes55 = s.hart.owes55 := rfl
@[simp] theorem addFstat_hart_saveArea (s : State) (f : Flags) :
    (addFstat s f).hart.saveArea = s.hart.saveArea := rfl
@[simp] theorem addFstat_hart_areaWritten (s : State) (f : Flags) :
    (addFstat s f).hart.areaWritten = s.hart.areaWritten := rfl
@[simp] theorem addFstat_hart_savedPart (s : State) (f : Flags) :
    (addFstat s f).hart.savedPart = s.hart.savedPart := rfl
@[simp] theorem addFstat_hart_savedScratch (s : State) (f : Flags) :
    (addFstat s f).hart.savedScratch = s.hart.savedScratch := rfl
@[simp] theorem addFstat_hart_savedPoison (s : State) (f : Flags) :
    (addFstat s f).hart.savedPoison = s.hart.savedPoison := rfl
@[simp] theorem addFstat_hart_wait (s : State) (f : Flags) :
    (addFstat s f).hart.wait = s.hart.wait := rfl
@[simp] theorem addFstat_hart_slot (s : State) (f : Flags) :
    (addFstat s f).hart.slot = s.hart.slot := rfl
@[simp] theorem addFstat_hart_partId (s : State) (f : Flags) :
    (addFstat s f).hart.partId = s.hart.partId := rfl
@[simp] theorem addFstat_hart_gangStack (s : State) (f : Flags) :
    (addFstat s f).hart.gangStack = s.hart.gangStack := rfl
@[simp] theorem addFstat_hart_gang (s : State) (f : Flags) :
    (addFstat s f).hart.gang = s.hart.gang := rfl
@[simp] theorem addFstat_hart_g (s : State) (f : Flags) :
    (addFstat s f).hart.g = s.hart.g := rfl
@[simp] theorem addFstat_hart_depth (s : State) (f : Flags) :
    (addFstat s f).hart.depth = s.hart.depth := rfl
@[simp] theorem addFstat_hart_pc (s : State) (f : Flags) :
    (addFstat s f).hart.pc = s.hart.pc := rfl
@[simp] theorem addFstat_hart_regs (s : State) (f : Flags) :
    (addFstat s f).hart.regs = s.hart.regs := rfl
@[simp] theorem addFstat_hart_vregs (s : State) (f : Flags) :
    (addFstat s f).hart.vregs = s.hart.vregs := rfl
@[simp] theorem addFstat_hart_mregs (s : State) (f : Flags) :
    (addFstat s f).hart.mregs = s.hart.mregs := rfl
@[simp] theorem addFstat_hart_kregs (s : State) (f : Flags) :
    (addFstat s f).hart.kregs = s.hart.kregs := rfl
@[simp] theorem addFstat_hart_loops (s : State) (f : Flags) :
    (addFstat s f).hart.loops = s.hart.loops := rfl
@[simp] theorem addFstat_hart_regions (s : State) (f : Flags) :
    (addFstat s f).hart.regions = s.hart.regions := rfl
@[simp] theorem addFstat_hart_aside (s : State) (f : Flags) :
    (addFstat s f).hart.aside = s.hart.aside := rfl
@[simp] theorem addFstat_hart_streams (s : State) (f : Flags) :
    (addFstat s f).hart.streams = s.hart.streams := rfl
@[simp] theorem addFstat_hart_par (s : State) (f : Flags) :
    (addFstat s f).hart.par = s.hart.par := rfl
@[simp] theorem addFstat_hart_accWin (s : State) (f : Flags) :
    (addFstat s f).hart.accWin = s.hart.accWin := rfl
@[simp] theorem addFstat_hart_rows (s : State) (f : Flags) :
    (addFstat s f).hart.rows = s.hart.rows := rfl
@[simp] theorem addFstat_hart_rowPoison (s : State) (f : Flags) :
    (addFstat s f).hart.rowPoison = s.hart.rowPoison := rfl
@[simp] theorem addFstat_hart_grant (s : State) (f : Flags) :
    (addFstat s f).hart.grant = s.hart.grant := rfl
@[simp] theorem addFstat_hart_acc (s : State) (f : Flags) :
    (addFstat s f).hart.acc = s.hart.acc := rfl
@[simp] theorem addFstat_hart_accPoison (s : State) (f : Flags) :
    (addFstat s f).hart.accPoison = s.hart.accPoison := rfl
@[simp] theorem addFstat_hart_accLease (s : State) (f : Flags) :
    (addFstat s f).hart.accLease = s.hart.accLease := rfl
@[simp] theorem addFstat_hart_genCache (s : State) (f : Flags) :
    (addFstat s f).hart.genCache = s.hart.genCache := rfl
@[simp] theorem addFstat_hart_leaseNext (s : State) (f : Flags) :
    (addFstat s f).hart.leaseNext = s.hart.leaseNext := rfl
@[simp] theorem addFstat_hart_fed (s : State) (f : Flags) :
    (addFstat s f).hart.fed = s.hart.fed := rfl
@[simp] theorem addFstat_hart_lag (s : State) (f : Flags) :
    (addFstat s f).hart.lag = s.hart.lag := rfl
@[simp] theorem addFstat_hart_posted (s : State) (f : Flags) :
    (addFstat s f).hart.posted = s.hart.posted := rfl
@[simp] theorem addFstat_hart_replies (s : State) (f : Flags) :
    (addFstat s f).hart.replies = s.hart.replies := rfl

/-! ### `setLoops` -/

@[simp] theorem setLoops_up (s : State) (l : Loops) : (setLoops s l).up = s.up := rfl
@[simp] theorem setLoops_others (s : State) (l : Loops) : (setLoops s l).others = s.others := rfl
@[simp] theorem setLoops_saved (s : State) (l : Loops) : (setLoops s l).saved = s.saved := rfl
@[simp] theorem setLoops_mem (s : State) (l : Loops) : (setLoops s l).mem = s.mem := rfl
@[simp] theorem setLoops_poison (s : State) (l : Loops) : (setLoops s l).poison = s.poison := rfl
@[simp] theorem setLoops_markDeny (s : State) (l : Loops) : (setLoops s l).markDeny = s.markDeny := rfl
@[simp] theorem setLoops_sriov (s : State) (l : Loops) : (setLoops s l).sriov = s.sriov := rfl
@[simp] theorem setLoops_slots (s : State) (l : Loops) : (setLoops s l).slots = s.slots := rfl
@[simp] theorem setLoops_fes (s : State) (l : Loops) : (setLoops s l).fes = s.fes := rfl
@[simp] theorem setLoops_fencedHalves (s : State) (l : Loops) : (setLoops s l).fencedHalves = s.fencedHalves := rfl
@[simp] theorem setLoops_parts (s : State) (l : Loops) : (setLoops s l).parts = s.parts := rfl
@[simp] theorem setLoops_gangs (s : State) (l : Loops) : (setLoops s l).gangs = s.gangs := rfl
@[simp] theorem setLoops_pool (s : State) (l : Loops) : (setLoops s l).pool = s.pool := rfl
@[simp] theorem setLoops_moves (s : State) (l : Loops) : (setLoops s l).moves = s.moves := rfl
@[simp] theorem setLoops_copies (s : State) (l : Loops) : (setLoops s l).copies = s.copies := rfl
@[simp] theorem setLoops_entries (s : State) (l : Loops) : (setLoops s l).entries = s.entries := rfl
@[simp] theorem setLoops_engines (s : State) (l : Loops) : (setLoops s l).engines = s.engines := rfl
@[simp] theorem setLoops_merges (s : State) (l : Loops) : (setLoops s l).merges = s.merges := rfl
@[simp] theorem setLoops_marks (s : State) (l : Loops) : (setLoops s l).marks = s.marks := rfl
@[simp] theorem setLoops_links (s : State) (l : Loops) : (setLoops s l).links = s.links := rfl
@[simp] theorem setLoops_cold (s : State) (l : Loops) : (setLoops s l).cold = s.cold := rfl
@[simp] theorem setLoops_vaults (s : State) (l : Loops) : (setLoops s l).vaults = s.vaults := rfl
@[simp] theorem setLoops_svc (s : State) (l : Loops) : (setLoops s l).svc = s.svc := rfl
@[simp] theorem setLoops_pf0 (s : State) (l : Loops) : (setLoops s l).pf0 = s.pf0 := rfl
@[simp] theorem setLoops_hostDeny (s : State) (l : Loops) : (setLoops s l).hostDeny = s.hostDeny := rfl
@[simp] theorem setLoops_peerDeny (s : State) (l : Loops) : (setLoops s l).peerDeny = s.peerDeny := rfl
@[simp] theorem setLoops_residue (s : State) (l : Loops) : (setLoops s l).residue = s.residue := rfl
@[simp] theorem setLoops_throttled (s : State) (l : Loops) : (setLoops s l).throttled = s.throttled := rfl
@[simp] theorem setLoops_cycle (s : State) (l : Loops) : (setLoops s l).cycle = s.cycle := rfl
@[simp] theorem setLoops_nextId (s : State) (l : Loops) : (setLoops s l).nextId = s.nextId := rfl
@[simp] theorem setLoops_draws (s : State) (l : Loops) : (setLoops s l).draws = s.draws := rfl
@[simp] theorem setLoops_tock (s : State) (l : Loops) : (setLoops s l).tock = s.tock := rfl
@[simp] theorem setLoops_slice (s : State) (l : Loops) : (setLoops s l).slice = s.slice := rfl
@[simp] theorem setLoops_agenda (s : State) (l : Loops) : (setLoops s l).agenda = s.agenda := rfl
@[simp] theorem setLoops_hart_cid (s : State) (l : Loops) :
    (setLoops s l).hart.cid = s.hart.cid := rfl
@[simp] theorem setLoops_hart_phase (s : State) (l : Loops) :
    (setLoops s l).hart.phase = s.hart.phase := rfl
@[simp] theorem setLoops_hart_current (s : State) (l : Loops) :
    (setLoops s l).hart.current = s.hart.current := rfl
@[simp] theorem setLoops_hart_issued (s : State) (l : Loops) :
    (setLoops s l).hart.issued = s.hart.issued := rfl
@[simp] theorem setLoops_hart_headed (s : State) (l : Loops) :
    (setLoops s l).hart.headed = s.hart.headed := rfl
@[simp] theorem setLoops_hart_probed (s : State) (l : Loops) :
    (setLoops s l).hart.probed = s.hart.probed := rfl
@[simp] theorem setLoops_hart_offsets (s : State) (l : Loops) :
    (setLoops s l).hart.offsets = s.hart.offsets := rfl
@[simp] theorem setLoops_hart_wrote (s : State) (l : Loops) :
    (setLoops s l).hart.wrote = s.hart.wrote := rfl
@[simp] theorem setLoops_hart_heldFault (s : State) (l : Loops) :
    (setLoops s l).hart.heldFault = s.hart.heldFault := rfl
@[simp] theorem setLoops_hart_lastSlot (s : State) (l : Loops) :
    (setLoops s l).hart.lastSlot = s.hart.lastSlot := rfl
@[simp] theorem setLoops_hart_stopPending (s : State) (l : Loops) :
    (setLoops s l).hart.stopPending = s.hart.stopPending := rfl
@[simp] theorem setLoops_hart_stopped (s : State) (l : Loops) :
    (setLoops s l).hart.stopped = s.hart.stopped := rfl
@[simp] theorem setLoops_hart_due (s : State) (l : Loops) :
    (setLoops s l).hart.due = s.hart.due := rfl
@[simp] theorem setLoops_hart_member (s : State) (l : Loops) :
    (setLoops s l).hart.member = s.hart.member := rfl
@[simp] theorem setLoops_hart_homeGang (s : State) (l : Loops) :
    (setLoops s l).hart.homeGang = s.hart.homeGang := rfl
@[simp] theorem setLoops_hart_leasePending (s : State) (l : Loops) :
    (setLoops s l).hart.leasePending = s.hart.leasePending := rfl
@[simp] theorem setLoops_hart_inProgress (s : State) (l : Loops) :
    (setLoops s l).hart.inProgress = s.hart.inProgress := rfl
@[simp] theorem setLoops_hart_fromZero (s : State) (l : Loops) :
    (setLoops s l).hart.fromZero = s.hart.fromZero := rfl
@[simp] theorem setLoops_hart_held (s : State) (l : Loops) :
    (setLoops s l).hart.held = s.hart.held := rfl
@[simp] theorem setLoops_hart_queue (s : State) (l : Loops) :
    (setLoops s l).hart.queue = s.hart.queue := rfl
@[simp] theorem setLoops_hart_front (s : State) (l : Loops) :
    (setLoops s l).hart.front = s.hart.front := rfl
@[simp] theorem setLoops_hart_gates (s : State) (l : Loops) :
    (setLoops s l).hart.gates = s.hart.gates := rfl
@[simp] theorem setLoops_hart_vecFences (s : State) (l : Loops) :
    (setLoops s l).hart.vecFences = s.hart.vecFences := rfl
@[simp] theorem setLoops_hart_age (s : State) (l : Loops) :
    (setLoops s l).hart.age = s.hart.age := rfl
@[simp] theorem setLoops_hart_yielded (s : State) (l : Loops) :
    (setLoops s l).hart.yielded = s.hart.yielded := rfl
@[simp] theorem setLoops_hart_stalled (s : State) (l : Loops) :
    (setLoops s l).hart.stalled = s.hart.stalled := rfl
@[simp] theorem setLoops_hart_bound (s : State) (l : Loops) :
    (setLoops s l).hart.bound = s.hart.bound := rfl
@[simp] theorem setLoops_hart_retry (s : State) (l : Loops) :
    (setLoops s l).hart.retry = s.hart.retry := rfl
@[simp] theorem setLoops_hart_waitNs (s : State) (l : Loops) :
    (setLoops s l).hart.waitNs = s.hart.waitNs := rfl
@[simp] theorem setLoops_hart_waitSince (s : State) (l : Loops) :
    (setLoops s l).hart.waitSince = s.hart.waitSince := rfl
@[simp] theorem setLoops_hart_call (s : State) (l : Loops) :
    (setLoops s l).hart.call = s.hart.call := rfl
@[simp] theorem setLoops_hart_reply (s : State) (l : Loops) :
    (setLoops s l).hart.reply = s.hart.reply := rfl
@[simp] theorem setLoops_hart_coldErrors (s : State) (l : Loops) :
    (setLoops s l).hart.coldErrors = s.hart.coldErrors := rfl
@[simp] theorem setLoops_hart_owes12 (s : State) (l : Loops) :
    (setLoops s l).hart.owes12 = s.hart.owes12 := rfl
@[simp] theorem setLoops_hart_owes55 (s : State) (l : Loops) :
    (setLoops s l).hart.owes55 = s.hart.owes55 := rfl
@[simp] theorem setLoops_hart_saveArea (s : State) (l : Loops) :
    (setLoops s l).hart.saveArea = s.hart.saveArea := rfl
@[simp] theorem setLoops_hart_areaWritten (s : State) (l : Loops) :
    (setLoops s l).hart.areaWritten = s.hart.areaWritten := rfl
@[simp] theorem setLoops_hart_savedPart (s : State) (l : Loops) :
    (setLoops s l).hart.savedPart = s.hart.savedPart := rfl
@[simp] theorem setLoops_hart_savedScratch (s : State) (l : Loops) :
    (setLoops s l).hart.savedScratch = s.hart.savedScratch := rfl
@[simp] theorem setLoops_hart_savedPoison (s : State) (l : Loops) :
    (setLoops s l).hart.savedPoison = s.hart.savedPoison := rfl
@[simp] theorem setLoops_hart_wait (s : State) (l : Loops) :
    (setLoops s l).hart.wait = s.hart.wait := rfl
@[simp] theorem setLoops_hart_slot (s : State) (l : Loops) :
    (setLoops s l).hart.slot = s.hart.slot := rfl
@[simp] theorem setLoops_hart_partId (s : State) (l : Loops) :
    (setLoops s l).hart.partId = s.hart.partId := rfl
@[simp] theorem setLoops_hart_gangStack (s : State) (l : Loops) :
    (setLoops s l).hart.gangStack = s.hart.gangStack := rfl
@[simp] theorem setLoops_hart_gang (s : State) (l : Loops) :
    (setLoops s l).hart.gang = s.hart.gang := rfl
@[simp] theorem setLoops_hart_g (s : State) (l : Loops) :
    (setLoops s l).hart.g = s.hart.g := rfl
@[simp] theorem setLoops_hart_depth (s : State) (l : Loops) :
    (setLoops s l).hart.depth = s.hart.depth := rfl
@[simp] theorem setLoops_hart_pc (s : State) (l : Loops) :
    (setLoops s l).hart.pc = s.hart.pc := rfl
@[simp] theorem setLoops_hart_regs (s : State) (l : Loops) :
    (setLoops s l).hart.regs = s.hart.regs := rfl
@[simp] theorem setLoops_hart_vregs (s : State) (l : Loops) :
    (setLoops s l).hart.vregs = s.hart.vregs := rfl
@[simp] theorem setLoops_hart_mregs (s : State) (l : Loops) :
    (setLoops s l).hart.mregs = s.hart.mregs := rfl
@[simp] theorem setLoops_hart_kregs (s : State) (l : Loops) :
    (setLoops s l).hart.kregs = s.hart.kregs := rfl
@[simp] theorem setLoops_hart_csr (s : State) (l : Loops) :
    (setLoops s l).hart.csr = s.hart.csr := rfl
@[simp] theorem setLoops_hart_regions (s : State) (l : Loops) :
    (setLoops s l).hart.regions = s.hart.regions := rfl
@[simp] theorem setLoops_hart_aside (s : State) (l : Loops) :
    (setLoops s l).hart.aside = s.hart.aside := rfl
@[simp] theorem setLoops_hart_streams (s : State) (l : Loops) :
    (setLoops s l).hart.streams = s.hart.streams := rfl
@[simp] theorem setLoops_hart_par (s : State) (l : Loops) :
    (setLoops s l).hart.par = s.hart.par := rfl
@[simp] theorem setLoops_hart_accWin (s : State) (l : Loops) :
    (setLoops s l).hart.accWin = s.hart.accWin := rfl
@[simp] theorem setLoops_hart_rows (s : State) (l : Loops) :
    (setLoops s l).hart.rows = s.hart.rows := rfl
@[simp] theorem setLoops_hart_rowPoison (s : State) (l : Loops) :
    (setLoops s l).hart.rowPoison = s.hart.rowPoison := rfl
@[simp] theorem setLoops_hart_grant (s : State) (l : Loops) :
    (setLoops s l).hart.grant = s.hart.grant := rfl
@[simp] theorem setLoops_hart_acc (s : State) (l : Loops) :
    (setLoops s l).hart.acc = s.hart.acc := rfl
@[simp] theorem setLoops_hart_accPoison (s : State) (l : Loops) :
    (setLoops s l).hart.accPoison = s.hart.accPoison := rfl
@[simp] theorem setLoops_hart_accLease (s : State) (l : Loops) :
    (setLoops s l).hart.accLease = s.hart.accLease := rfl
@[simp] theorem setLoops_hart_genCache (s : State) (l : Loops) :
    (setLoops s l).hart.genCache = s.hart.genCache := rfl
@[simp] theorem setLoops_hart_leaseNext (s : State) (l : Loops) :
    (setLoops s l).hart.leaseNext = s.hart.leaseNext := rfl
@[simp] theorem setLoops_hart_fed (s : State) (l : Loops) :
    (setLoops s l).hart.fed = s.hart.fed := rfl
@[simp] theorem setLoops_hart_lag (s : State) (l : Loops) :
    (setLoops s l).hart.lag = s.hart.lag := rfl
@[simp] theorem setLoops_hart_posted (s : State) (l : Loops) :
    (setLoops s l).hart.posted = s.hart.posted := rfl
@[simp] theorem setLoops_hart_replies (s : State) (l : Loops) :
    (setLoops s l).hart.replies = s.hart.replies := rfl

/-! ### `setVstart` -/

@[simp] theorem setVstart_up (s : State) (k : Nat) : (setVstart s k).up = s.up := rfl
@[simp] theorem setVstart_others (s : State) (k : Nat) : (setVstart s k).others = s.others := rfl
@[simp] theorem setVstart_saved (s : State) (k : Nat) : (setVstart s k).saved = s.saved := rfl
@[simp] theorem setVstart_mem (s : State) (k : Nat) : (setVstart s k).mem = s.mem := rfl
@[simp] theorem setVstart_poison (s : State) (k : Nat) : (setVstart s k).poison = s.poison := rfl
@[simp] theorem setVstart_markDeny (s : State) (k : Nat) : (setVstart s k).markDeny = s.markDeny := rfl
@[simp] theorem setVstart_sriov (s : State) (k : Nat) : (setVstart s k).sriov = s.sriov := rfl
@[simp] theorem setVstart_slots (s : State) (k : Nat) : (setVstart s k).slots = s.slots := rfl
@[simp] theorem setVstart_fes (s : State) (k : Nat) : (setVstart s k).fes = s.fes := rfl
@[simp] theorem setVstart_fencedHalves (s : State) (k : Nat) : (setVstart s k).fencedHalves = s.fencedHalves := rfl
@[simp] theorem setVstart_parts (s : State) (k : Nat) : (setVstart s k).parts = s.parts := rfl
@[simp] theorem setVstart_gangs (s : State) (k : Nat) : (setVstart s k).gangs = s.gangs := rfl
@[simp] theorem setVstart_pool (s : State) (k : Nat) : (setVstart s k).pool = s.pool := rfl
@[simp] theorem setVstart_moves (s : State) (k : Nat) : (setVstart s k).moves = s.moves := rfl
@[simp] theorem setVstart_copies (s : State) (k : Nat) : (setVstart s k).copies = s.copies := rfl
@[simp] theorem setVstart_entries (s : State) (k : Nat) : (setVstart s k).entries = s.entries := rfl
@[simp] theorem setVstart_engines (s : State) (k : Nat) : (setVstart s k).engines = s.engines := rfl
@[simp] theorem setVstart_merges (s : State) (k : Nat) : (setVstart s k).merges = s.merges := rfl
@[simp] theorem setVstart_marks (s : State) (k : Nat) : (setVstart s k).marks = s.marks := rfl
@[simp] theorem setVstart_links (s : State) (k : Nat) : (setVstart s k).links = s.links := rfl
@[simp] theorem setVstart_cold (s : State) (k : Nat) : (setVstart s k).cold = s.cold := rfl
@[simp] theorem setVstart_vaults (s : State) (k : Nat) : (setVstart s k).vaults = s.vaults := rfl
@[simp] theorem setVstart_svc (s : State) (k : Nat) : (setVstart s k).svc = s.svc := rfl
@[simp] theorem setVstart_pf0 (s : State) (k : Nat) : (setVstart s k).pf0 = s.pf0 := rfl
@[simp] theorem setVstart_hostDeny (s : State) (k : Nat) : (setVstart s k).hostDeny = s.hostDeny := rfl
@[simp] theorem setVstart_peerDeny (s : State) (k : Nat) : (setVstart s k).peerDeny = s.peerDeny := rfl
@[simp] theorem setVstart_residue (s : State) (k : Nat) : (setVstart s k).residue = s.residue := rfl
@[simp] theorem setVstart_throttled (s : State) (k : Nat) : (setVstart s k).throttled = s.throttled := rfl
@[simp] theorem setVstart_cycle (s : State) (k : Nat) : (setVstart s k).cycle = s.cycle := rfl
@[simp] theorem setVstart_nextId (s : State) (k : Nat) : (setVstart s k).nextId = s.nextId := rfl
@[simp] theorem setVstart_draws (s : State) (k : Nat) : (setVstart s k).draws = s.draws := rfl
@[simp] theorem setVstart_tock (s : State) (k : Nat) : (setVstart s k).tock = s.tock := rfl
@[simp] theorem setVstart_slice (s : State) (k : Nat) : (setVstart s k).slice = s.slice := rfl
@[simp] theorem setVstart_agenda (s : State) (k : Nat) : (setVstart s k).agenda = s.agenda := rfl
@[simp] theorem setVstart_hart_cid (s : State) (k : Nat) :
    (setVstart s k).hart.cid = s.hart.cid := rfl
@[simp] theorem setVstart_hart_phase (s : State) (k : Nat) :
    (setVstart s k).hart.phase = s.hart.phase := rfl
@[simp] theorem setVstart_hart_current (s : State) (k : Nat) :
    (setVstart s k).hart.current = s.hart.current := rfl
@[simp] theorem setVstart_hart_issued (s : State) (k : Nat) :
    (setVstart s k).hart.issued = s.hart.issued := rfl
@[simp] theorem setVstart_hart_headed (s : State) (k : Nat) :
    (setVstart s k).hart.headed = s.hart.headed := rfl
@[simp] theorem setVstart_hart_probed (s : State) (k : Nat) :
    (setVstart s k).hart.probed = s.hart.probed := rfl
@[simp] theorem setVstart_hart_offsets (s : State) (k : Nat) :
    (setVstart s k).hart.offsets = s.hart.offsets := rfl
@[simp] theorem setVstart_hart_wrote (s : State) (k : Nat) :
    (setVstart s k).hart.wrote = s.hart.wrote := rfl
@[simp] theorem setVstart_hart_heldFault (s : State) (k : Nat) :
    (setVstart s k).hart.heldFault = s.hart.heldFault := rfl
@[simp] theorem setVstart_hart_lastSlot (s : State) (k : Nat) :
    (setVstart s k).hart.lastSlot = s.hart.lastSlot := rfl
@[simp] theorem setVstart_hart_stopPending (s : State) (k : Nat) :
    (setVstart s k).hart.stopPending = s.hart.stopPending := rfl
@[simp] theorem setVstart_hart_stopped (s : State) (k : Nat) :
    (setVstart s k).hart.stopped = s.hart.stopped := rfl
@[simp] theorem setVstart_hart_due (s : State) (k : Nat) :
    (setVstart s k).hart.due = s.hart.due := rfl
@[simp] theorem setVstart_hart_member (s : State) (k : Nat) :
    (setVstart s k).hart.member = s.hart.member := rfl
@[simp] theorem setVstart_hart_homeGang (s : State) (k : Nat) :
    (setVstart s k).hart.homeGang = s.hart.homeGang := rfl
@[simp] theorem setVstart_hart_leasePending (s : State) (k : Nat) :
    (setVstart s k).hart.leasePending = s.hart.leasePending := rfl
@[simp] theorem setVstart_hart_inProgress (s : State) (k : Nat) :
    (setVstart s k).hart.inProgress = s.hart.inProgress := rfl
@[simp] theorem setVstart_hart_fromZero (s : State) (k : Nat) :
    (setVstart s k).hart.fromZero = s.hart.fromZero := rfl
@[simp] theorem setVstart_hart_held (s : State) (k : Nat) :
    (setVstart s k).hart.held = s.hart.held := rfl
@[simp] theorem setVstart_hart_queue (s : State) (k : Nat) :
    (setVstart s k).hart.queue = s.hart.queue := rfl
@[simp] theorem setVstart_hart_front (s : State) (k : Nat) :
    (setVstart s k).hart.front = s.hart.front := rfl
@[simp] theorem setVstart_hart_gates (s : State) (k : Nat) :
    (setVstart s k).hart.gates = s.hart.gates := rfl
@[simp] theorem setVstart_hart_vecFences (s : State) (k : Nat) :
    (setVstart s k).hart.vecFences = s.hart.vecFences := rfl
@[simp] theorem setVstart_hart_age (s : State) (k : Nat) :
    (setVstart s k).hart.age = s.hart.age := rfl
@[simp] theorem setVstart_hart_yielded (s : State) (k : Nat) :
    (setVstart s k).hart.yielded = s.hart.yielded := rfl
@[simp] theorem setVstart_hart_stalled (s : State) (k : Nat) :
    (setVstart s k).hart.stalled = s.hart.stalled := rfl
@[simp] theorem setVstart_hart_bound (s : State) (k : Nat) :
    (setVstart s k).hart.bound = s.hart.bound := rfl
@[simp] theorem setVstart_hart_retry (s : State) (k : Nat) :
    (setVstart s k).hart.retry = s.hart.retry := rfl
@[simp] theorem setVstart_hart_waitNs (s : State) (k : Nat) :
    (setVstart s k).hart.waitNs = s.hart.waitNs := rfl
@[simp] theorem setVstart_hart_waitSince (s : State) (k : Nat) :
    (setVstart s k).hart.waitSince = s.hart.waitSince := rfl
@[simp] theorem setVstart_hart_call (s : State) (k : Nat) :
    (setVstart s k).hart.call = s.hart.call := rfl
@[simp] theorem setVstart_hart_reply (s : State) (k : Nat) :
    (setVstart s k).hart.reply = s.hart.reply := rfl
@[simp] theorem setVstart_hart_coldErrors (s : State) (k : Nat) :
    (setVstart s k).hart.coldErrors = s.hart.coldErrors := rfl
@[simp] theorem setVstart_hart_owes12 (s : State) (k : Nat) :
    (setVstart s k).hart.owes12 = s.hart.owes12 := rfl
@[simp] theorem setVstart_hart_owes55 (s : State) (k : Nat) :
    (setVstart s k).hart.owes55 = s.hart.owes55 := rfl
@[simp] theorem setVstart_hart_saveArea (s : State) (k : Nat) :
    (setVstart s k).hart.saveArea = s.hart.saveArea := rfl
@[simp] theorem setVstart_hart_areaWritten (s : State) (k : Nat) :
    (setVstart s k).hart.areaWritten = s.hart.areaWritten := rfl
@[simp] theorem setVstart_hart_savedPart (s : State) (k : Nat) :
    (setVstart s k).hart.savedPart = s.hart.savedPart := rfl
@[simp] theorem setVstart_hart_savedScratch (s : State) (k : Nat) :
    (setVstart s k).hart.savedScratch = s.hart.savedScratch := rfl
@[simp] theorem setVstart_hart_savedPoison (s : State) (k : Nat) :
    (setVstart s k).hart.savedPoison = s.hart.savedPoison := rfl
@[simp] theorem setVstart_hart_wait (s : State) (k : Nat) :
    (setVstart s k).hart.wait = s.hart.wait := rfl
@[simp] theorem setVstart_hart_slot (s : State) (k : Nat) :
    (setVstart s k).hart.slot = s.hart.slot := rfl
@[simp] theorem setVstart_hart_partId (s : State) (k : Nat) :
    (setVstart s k).hart.partId = s.hart.partId := rfl
@[simp] theorem setVstart_hart_gangStack (s : State) (k : Nat) :
    (setVstart s k).hart.gangStack = s.hart.gangStack := rfl
@[simp] theorem setVstart_hart_gang (s : State) (k : Nat) :
    (setVstart s k).hart.gang = s.hart.gang := rfl
@[simp] theorem setVstart_hart_g (s : State) (k : Nat) :
    (setVstart s k).hart.g = s.hart.g := rfl
@[simp] theorem setVstart_hart_depth (s : State) (k : Nat) :
    (setVstart s k).hart.depth = s.hart.depth := rfl
@[simp] theorem setVstart_hart_pc (s : State) (k : Nat) :
    (setVstart s k).hart.pc = s.hart.pc := rfl
@[simp] theorem setVstart_hart_regs (s : State) (k : Nat) :
    (setVstart s k).hart.regs = s.hart.regs := rfl
@[simp] theorem setVstart_hart_vregs (s : State) (k : Nat) :
    (setVstart s k).hart.vregs = s.hart.vregs := rfl
@[simp] theorem setVstart_hart_mregs (s : State) (k : Nat) :
    (setVstart s k).hart.mregs = s.hart.mregs := rfl
@[simp] theorem setVstart_hart_kregs (s : State) (k : Nat) :
    (setVstart s k).hart.kregs = s.hart.kregs := rfl
@[simp] theorem setVstart_hart_loops (s : State) (k : Nat) :
    (setVstart s k).hart.loops = s.hart.loops := rfl
@[simp] theorem setVstart_hart_regions (s : State) (k : Nat) :
    (setVstart s k).hart.regions = s.hart.regions := rfl
@[simp] theorem setVstart_hart_aside (s : State) (k : Nat) :
    (setVstart s k).hart.aside = s.hart.aside := rfl
@[simp] theorem setVstart_hart_streams (s : State) (k : Nat) :
    (setVstart s k).hart.streams = s.hart.streams := rfl
@[simp] theorem setVstart_hart_par (s : State) (k : Nat) :
    (setVstart s k).hart.par = s.hart.par := rfl
@[simp] theorem setVstart_hart_accWin (s : State) (k : Nat) :
    (setVstart s k).hart.accWin = s.hart.accWin := rfl
@[simp] theorem setVstart_hart_rows (s : State) (k : Nat) :
    (setVstart s k).hart.rows = s.hart.rows := rfl
@[simp] theorem setVstart_hart_rowPoison (s : State) (k : Nat) :
    (setVstart s k).hart.rowPoison = s.hart.rowPoison := rfl
@[simp] theorem setVstart_hart_grant (s : State) (k : Nat) :
    (setVstart s k).hart.grant = s.hart.grant := rfl
@[simp] theorem setVstart_hart_acc (s : State) (k : Nat) :
    (setVstart s k).hart.acc = s.hart.acc := rfl
@[simp] theorem setVstart_hart_accPoison (s : State) (k : Nat) :
    (setVstart s k).hart.accPoison = s.hart.accPoison := rfl
@[simp] theorem setVstart_hart_accLease (s : State) (k : Nat) :
    (setVstart s k).hart.accLease = s.hart.accLease := rfl
@[simp] theorem setVstart_hart_genCache (s : State) (k : Nat) :
    (setVstart s k).hart.genCache = s.hart.genCache := rfl
@[simp] theorem setVstart_hart_leaseNext (s : State) (k : Nat) :
    (setVstart s k).hart.leaseNext = s.hart.leaseNext := rfl
@[simp] theorem setVstart_hart_fed (s : State) (k : Nat) :
    (setVstart s k).hart.fed = s.hart.fed := rfl
@[simp] theorem setVstart_hart_lag (s : State) (k : Nat) :
    (setVstart s k).hart.lag = s.hart.lag := rfl
@[simp] theorem setVstart_hart_posted (s : State) (k : Nat) :
    (setVstart s k).hart.posted = s.hart.posted := rfl
@[simp] theorem setVstart_hart_replies (s : State) (k : Nat) :
    (setVstart s k).hart.replies = s.hart.replies := rfl

/-! ### `setVrestart` -/

@[simp] theorem setVrestart_up (s : State) (k : Nat) : (setVrestart s k).up = s.up := rfl
@[simp] theorem setVrestart_others (s : State) (k : Nat) : (setVrestart s k).others = s.others := rfl
@[simp] theorem setVrestart_saved (s : State) (k : Nat) : (setVrestart s k).saved = s.saved := rfl
@[simp] theorem setVrestart_mem (s : State) (k : Nat) : (setVrestart s k).mem = s.mem := rfl
@[simp] theorem setVrestart_poison (s : State) (k : Nat) : (setVrestart s k).poison = s.poison := rfl
@[simp] theorem setVrestart_markDeny (s : State) (k : Nat) : (setVrestart s k).markDeny = s.markDeny := rfl
@[simp] theorem setVrestart_sriov (s : State) (k : Nat) : (setVrestart s k).sriov = s.sriov := rfl
@[simp] theorem setVrestart_slots (s : State) (k : Nat) : (setVrestart s k).slots = s.slots := rfl
@[simp] theorem setVrestart_fes (s : State) (k : Nat) : (setVrestart s k).fes = s.fes := rfl
@[simp] theorem setVrestart_fencedHalves (s : State) (k : Nat) : (setVrestart s k).fencedHalves = s.fencedHalves := rfl
@[simp] theorem setVrestart_parts (s : State) (k : Nat) : (setVrestart s k).parts = s.parts := rfl
@[simp] theorem setVrestart_gangs (s : State) (k : Nat) : (setVrestart s k).gangs = s.gangs := rfl
@[simp] theorem setVrestart_pool (s : State) (k : Nat) : (setVrestart s k).pool = s.pool := rfl
@[simp] theorem setVrestart_moves (s : State) (k : Nat) : (setVrestart s k).moves = s.moves := rfl
@[simp] theorem setVrestart_copies (s : State) (k : Nat) : (setVrestart s k).copies = s.copies := rfl
@[simp] theorem setVrestart_entries (s : State) (k : Nat) : (setVrestart s k).entries = s.entries := rfl
@[simp] theorem setVrestart_engines (s : State) (k : Nat) : (setVrestart s k).engines = s.engines := rfl
@[simp] theorem setVrestart_merges (s : State) (k : Nat) : (setVrestart s k).merges = s.merges := rfl
@[simp] theorem setVrestart_marks (s : State) (k : Nat) : (setVrestart s k).marks = s.marks := rfl
@[simp] theorem setVrestart_links (s : State) (k : Nat) : (setVrestart s k).links = s.links := rfl
@[simp] theorem setVrestart_cold (s : State) (k : Nat) : (setVrestart s k).cold = s.cold := rfl
@[simp] theorem setVrestart_vaults (s : State) (k : Nat) : (setVrestart s k).vaults = s.vaults := rfl
@[simp] theorem setVrestart_svc (s : State) (k : Nat) : (setVrestart s k).svc = s.svc := rfl
@[simp] theorem setVrestart_pf0 (s : State) (k : Nat) : (setVrestart s k).pf0 = s.pf0 := rfl
@[simp] theorem setVrestart_hostDeny (s : State) (k : Nat) : (setVrestart s k).hostDeny = s.hostDeny := rfl
@[simp] theorem setVrestart_peerDeny (s : State) (k : Nat) : (setVrestart s k).peerDeny = s.peerDeny := rfl
@[simp] theorem setVrestart_residue (s : State) (k : Nat) : (setVrestart s k).residue = s.residue := rfl
@[simp] theorem setVrestart_throttled (s : State) (k : Nat) : (setVrestart s k).throttled = s.throttled := rfl
@[simp] theorem setVrestart_cycle (s : State) (k : Nat) : (setVrestart s k).cycle = s.cycle := rfl
@[simp] theorem setVrestart_nextId (s : State) (k : Nat) : (setVrestart s k).nextId = s.nextId := rfl
@[simp] theorem setVrestart_draws (s : State) (k : Nat) : (setVrestart s k).draws = s.draws := rfl
@[simp] theorem setVrestart_tock (s : State) (k : Nat) : (setVrestart s k).tock = s.tock := rfl
@[simp] theorem setVrestart_slice (s : State) (k : Nat) : (setVrestart s k).slice = s.slice := rfl
@[simp] theorem setVrestart_agenda (s : State) (k : Nat) : (setVrestart s k).agenda = s.agenda := rfl
@[simp] theorem setVrestart_hart_cid (s : State) (k : Nat) :
    (setVrestart s k).hart.cid = s.hart.cid := rfl
@[simp] theorem setVrestart_hart_phase (s : State) (k : Nat) :
    (setVrestart s k).hart.phase = s.hart.phase := rfl
@[simp] theorem setVrestart_hart_current (s : State) (k : Nat) :
    (setVrestart s k).hart.current = s.hart.current := rfl
@[simp] theorem setVrestart_hart_issued (s : State) (k : Nat) :
    (setVrestart s k).hart.issued = s.hart.issued := rfl
@[simp] theorem setVrestart_hart_headed (s : State) (k : Nat) :
    (setVrestart s k).hart.headed = s.hart.headed := rfl
@[simp] theorem setVrestart_hart_probed (s : State) (k : Nat) :
    (setVrestart s k).hart.probed = s.hart.probed := rfl
@[simp] theorem setVrestart_hart_offsets (s : State) (k : Nat) :
    (setVrestart s k).hart.offsets = s.hart.offsets := rfl
@[simp] theorem setVrestart_hart_wrote (s : State) (k : Nat) :
    (setVrestart s k).hart.wrote = s.hart.wrote := rfl
@[simp] theorem setVrestart_hart_heldFault (s : State) (k : Nat) :
    (setVrestart s k).hart.heldFault = s.hart.heldFault := rfl
@[simp] theorem setVrestart_hart_lastSlot (s : State) (k : Nat) :
    (setVrestart s k).hart.lastSlot = s.hart.lastSlot := rfl
@[simp] theorem setVrestart_hart_stopPending (s : State) (k : Nat) :
    (setVrestart s k).hart.stopPending = s.hart.stopPending := rfl
@[simp] theorem setVrestart_hart_stopped (s : State) (k : Nat) :
    (setVrestart s k).hart.stopped = s.hart.stopped := rfl
@[simp] theorem setVrestart_hart_due (s : State) (k : Nat) :
    (setVrestart s k).hart.due = s.hart.due := rfl
@[simp] theorem setVrestart_hart_member (s : State) (k : Nat) :
    (setVrestart s k).hart.member = s.hart.member := rfl
@[simp] theorem setVrestart_hart_homeGang (s : State) (k : Nat) :
    (setVrestart s k).hart.homeGang = s.hart.homeGang := rfl
@[simp] theorem setVrestart_hart_leasePending (s : State) (k : Nat) :
    (setVrestart s k).hart.leasePending = s.hart.leasePending := rfl
@[simp] theorem setVrestart_hart_inProgress (s : State) (k : Nat) :
    (setVrestart s k).hart.inProgress = s.hart.inProgress := rfl
@[simp] theorem setVrestart_hart_fromZero (s : State) (k : Nat) :
    (setVrestart s k).hart.fromZero = s.hart.fromZero := rfl
@[simp] theorem setVrestart_hart_held (s : State) (k : Nat) :
    (setVrestart s k).hart.held = s.hart.held := rfl
@[simp] theorem setVrestart_hart_queue (s : State) (k : Nat) :
    (setVrestart s k).hart.queue = s.hart.queue := rfl
@[simp] theorem setVrestart_hart_front (s : State) (k : Nat) :
    (setVrestart s k).hart.front = s.hart.front := rfl
@[simp] theorem setVrestart_hart_gates (s : State) (k : Nat) :
    (setVrestart s k).hart.gates = s.hart.gates := rfl
@[simp] theorem setVrestart_hart_vecFences (s : State) (k : Nat) :
    (setVrestart s k).hart.vecFences = s.hart.vecFences := rfl
@[simp] theorem setVrestart_hart_age (s : State) (k : Nat) :
    (setVrestart s k).hart.age = s.hart.age := rfl
@[simp] theorem setVrestart_hart_yielded (s : State) (k : Nat) :
    (setVrestart s k).hart.yielded = s.hart.yielded := rfl
@[simp] theorem setVrestart_hart_stalled (s : State) (k : Nat) :
    (setVrestart s k).hart.stalled = s.hart.stalled := rfl
@[simp] theorem setVrestart_hart_bound (s : State) (k : Nat) :
    (setVrestart s k).hart.bound = s.hart.bound := rfl
@[simp] theorem setVrestart_hart_retry (s : State) (k : Nat) :
    (setVrestart s k).hart.retry = s.hart.retry := rfl
@[simp] theorem setVrestart_hart_waitNs (s : State) (k : Nat) :
    (setVrestart s k).hart.waitNs = s.hart.waitNs := rfl
@[simp] theorem setVrestart_hart_waitSince (s : State) (k : Nat) :
    (setVrestart s k).hart.waitSince = s.hart.waitSince := rfl
@[simp] theorem setVrestart_hart_call (s : State) (k : Nat) :
    (setVrestart s k).hart.call = s.hart.call := rfl
@[simp] theorem setVrestart_hart_reply (s : State) (k : Nat) :
    (setVrestart s k).hart.reply = s.hart.reply := rfl
@[simp] theorem setVrestart_hart_coldErrors (s : State) (k : Nat) :
    (setVrestart s k).hart.coldErrors = s.hart.coldErrors := rfl
@[simp] theorem setVrestart_hart_owes12 (s : State) (k : Nat) :
    (setVrestart s k).hart.owes12 = s.hart.owes12 := rfl
@[simp] theorem setVrestart_hart_owes55 (s : State) (k : Nat) :
    (setVrestart s k).hart.owes55 = s.hart.owes55 := rfl
@[simp] theorem setVrestart_hart_saveArea (s : State) (k : Nat) :
    (setVrestart s k).hart.saveArea = s.hart.saveArea := rfl
@[simp] theorem setVrestart_hart_areaWritten (s : State) (k : Nat) :
    (setVrestart s k).hart.areaWritten = s.hart.areaWritten := rfl
@[simp] theorem setVrestart_hart_savedPart (s : State) (k : Nat) :
    (setVrestart s k).hart.savedPart = s.hart.savedPart := rfl
@[simp] theorem setVrestart_hart_savedScratch (s : State) (k : Nat) :
    (setVrestart s k).hart.savedScratch = s.hart.savedScratch := rfl
@[simp] theorem setVrestart_hart_savedPoison (s : State) (k : Nat) :
    (setVrestart s k).hart.savedPoison = s.hart.savedPoison := rfl
@[simp] theorem setVrestart_hart_wait (s : State) (k : Nat) :
    (setVrestart s k).hart.wait = s.hart.wait := rfl
@[simp] theorem setVrestart_hart_slot (s : State) (k : Nat) :
    (setVrestart s k).hart.slot = s.hart.slot := rfl
@[simp] theorem setVrestart_hart_partId (s : State) (k : Nat) :
    (setVrestart s k).hart.partId = s.hart.partId := rfl
@[simp] theorem setVrestart_hart_gangStack (s : State) (k : Nat) :
    (setVrestart s k).hart.gangStack = s.hart.gangStack := rfl
@[simp] theorem setVrestart_hart_gang (s : State) (k : Nat) :
    (setVrestart s k).hart.gang = s.hart.gang := rfl
@[simp] theorem setVrestart_hart_g (s : State) (k : Nat) :
    (setVrestart s k).hart.g = s.hart.g := rfl
@[simp] theorem setVrestart_hart_depth (s : State) (k : Nat) :
    (setVrestart s k).hart.depth = s.hart.depth := rfl
@[simp] theorem setVrestart_hart_pc (s : State) (k : Nat) :
    (setVrestart s k).hart.pc = s.hart.pc := rfl
@[simp] theorem setVrestart_hart_regs (s : State) (k : Nat) :
    (setVrestart s k).hart.regs = s.hart.regs := rfl
@[simp] theorem setVrestart_hart_vregs (s : State) (k : Nat) :
    (setVrestart s k).hart.vregs = s.hart.vregs := rfl
@[simp] theorem setVrestart_hart_mregs (s : State) (k : Nat) :
    (setVrestart s k).hart.mregs = s.hart.mregs := rfl
@[simp] theorem setVrestart_hart_kregs (s : State) (k : Nat) :
    (setVrestart s k).hart.kregs = s.hart.kregs := rfl
@[simp] theorem setVrestart_hart_loops (s : State) (k : Nat) :
    (setVrestart s k).hart.loops = s.hart.loops := rfl
@[simp] theorem setVrestart_hart_regions (s : State) (k : Nat) :
    (setVrestart s k).hart.regions = s.hart.regions := rfl
@[simp] theorem setVrestart_hart_aside (s : State) (k : Nat) :
    (setVrestart s k).hart.aside = s.hart.aside := rfl
@[simp] theorem setVrestart_hart_streams (s : State) (k : Nat) :
    (setVrestart s k).hart.streams = s.hart.streams := rfl
@[simp] theorem setVrestart_hart_par (s : State) (k : Nat) :
    (setVrestart s k).hart.par = s.hart.par := rfl
@[simp] theorem setVrestart_hart_accWin (s : State) (k : Nat) :
    (setVrestart s k).hart.accWin = s.hart.accWin := rfl
@[simp] theorem setVrestart_hart_rows (s : State) (k : Nat) :
    (setVrestart s k).hart.rows = s.hart.rows := rfl
@[simp] theorem setVrestart_hart_rowPoison (s : State) (k : Nat) :
    (setVrestart s k).hart.rowPoison = s.hart.rowPoison := rfl
@[simp] theorem setVrestart_hart_grant (s : State) (k : Nat) :
    (setVrestart s k).hart.grant = s.hart.grant := rfl
@[simp] theorem setVrestart_hart_acc (s : State) (k : Nat) :
    (setVrestart s k).hart.acc = s.hart.acc := rfl
@[simp] theorem setVrestart_hart_accPoison (s : State) (k : Nat) :
    (setVrestart s k).hart.accPoison = s.hart.accPoison := rfl
@[simp] theorem setVrestart_hart_accLease (s : State) (k : Nat) :
    (setVrestart s k).hart.accLease = s.hart.accLease := rfl
@[simp] theorem setVrestart_hart_genCache (s : State) (k : Nat) :
    (setVrestart s k).hart.genCache = s.hart.genCache := rfl
@[simp] theorem setVrestart_hart_leaseNext (s : State) (k : Nat) :
    (setVrestart s k).hart.leaseNext = s.hart.leaseNext := rfl
@[simp] theorem setVrestart_hart_fed (s : State) (k : Nat) :
    (setVrestart s k).hart.fed = s.hart.fed := rfl
@[simp] theorem setVrestart_hart_lag (s : State) (k : Nat) :
    (setVrestart s k).hart.lag = s.hart.lag := rfl
@[simp] theorem setVrestart_hart_posted (s : State) (k : Nat) :
    (setVrestart s k).hart.posted = s.hart.posted := rfl
@[simp] theorem setVrestart_hart_replies (s : State) (k : Nat) :
    (setVrestart s k).hart.replies = s.hart.replies := rfl

/-! ### `addVxstat` -/

@[simp] theorem addVxstat_up (s : State) (f : Flags) (b : Bool) : (addVxstat s f b).up = s.up := rfl
@[simp] theorem addVxstat_others (s : State) (f : Flags) (b : Bool) : (addVxstat s f b).others = s.others := rfl
@[simp] theorem addVxstat_saved (s : State) (f : Flags) (b : Bool) : (addVxstat s f b).saved = s.saved := rfl
@[simp] theorem addVxstat_mem (s : State) (f : Flags) (b : Bool) : (addVxstat s f b).mem = s.mem := rfl
@[simp] theorem addVxstat_poison (s : State) (f : Flags) (b : Bool) : (addVxstat s f b).poison = s.poison := rfl
@[simp] theorem addVxstat_markDeny (s : State) (f : Flags) (b : Bool) : (addVxstat s f b).markDeny = s.markDeny := rfl
@[simp] theorem addVxstat_sriov (s : State) (f : Flags) (b : Bool) : (addVxstat s f b).sriov = s.sriov := rfl
@[simp] theorem addVxstat_slots (s : State) (f : Flags) (b : Bool) : (addVxstat s f b).slots = s.slots := rfl
@[simp] theorem addVxstat_fes (s : State) (f : Flags) (b : Bool) : (addVxstat s f b).fes = s.fes := rfl
@[simp] theorem addVxstat_fencedHalves (s : State) (f : Flags) (b : Bool) : (addVxstat s f b).fencedHalves = s.fencedHalves := rfl
@[simp] theorem addVxstat_parts (s : State) (f : Flags) (b : Bool) : (addVxstat s f b).parts = s.parts := rfl
@[simp] theorem addVxstat_gangs (s : State) (f : Flags) (b : Bool) : (addVxstat s f b).gangs = s.gangs := rfl
@[simp] theorem addVxstat_pool (s : State) (f : Flags) (b : Bool) : (addVxstat s f b).pool = s.pool := rfl
@[simp] theorem addVxstat_moves (s : State) (f : Flags) (b : Bool) : (addVxstat s f b).moves = s.moves := rfl
@[simp] theorem addVxstat_copies (s : State) (f : Flags) (b : Bool) : (addVxstat s f b).copies = s.copies := rfl
@[simp] theorem addVxstat_entries (s : State) (f : Flags) (b : Bool) : (addVxstat s f b).entries = s.entries := rfl
@[simp] theorem addVxstat_engines (s : State) (f : Flags) (b : Bool) : (addVxstat s f b).engines = s.engines := rfl
@[simp] theorem addVxstat_merges (s : State) (f : Flags) (b : Bool) : (addVxstat s f b).merges = s.merges := rfl
@[simp] theorem addVxstat_marks (s : State) (f : Flags) (b : Bool) : (addVxstat s f b).marks = s.marks := rfl
@[simp] theorem addVxstat_links (s : State) (f : Flags) (b : Bool) : (addVxstat s f b).links = s.links := rfl
@[simp] theorem addVxstat_cold (s : State) (f : Flags) (b : Bool) : (addVxstat s f b).cold = s.cold := rfl
@[simp] theorem addVxstat_vaults (s : State) (f : Flags) (b : Bool) : (addVxstat s f b).vaults = s.vaults := rfl
@[simp] theorem addVxstat_svc (s : State) (f : Flags) (b : Bool) : (addVxstat s f b).svc = s.svc := rfl
@[simp] theorem addVxstat_pf0 (s : State) (f : Flags) (b : Bool) : (addVxstat s f b).pf0 = s.pf0 := rfl
@[simp] theorem addVxstat_hostDeny (s : State) (f : Flags) (b : Bool) : (addVxstat s f b).hostDeny = s.hostDeny := rfl
@[simp] theorem addVxstat_peerDeny (s : State) (f : Flags) (b : Bool) : (addVxstat s f b).peerDeny = s.peerDeny := rfl
@[simp] theorem addVxstat_residue (s : State) (f : Flags) (b : Bool) : (addVxstat s f b).residue = s.residue := rfl
@[simp] theorem addVxstat_throttled (s : State) (f : Flags) (b : Bool) : (addVxstat s f b).throttled = s.throttled := rfl
@[simp] theorem addVxstat_cycle (s : State) (f : Flags) (b : Bool) : (addVxstat s f b).cycle = s.cycle := rfl
@[simp] theorem addVxstat_nextId (s : State) (f : Flags) (b : Bool) : (addVxstat s f b).nextId = s.nextId := rfl
@[simp] theorem addVxstat_draws (s : State) (f : Flags) (b : Bool) : (addVxstat s f b).draws = s.draws := rfl
@[simp] theorem addVxstat_tock (s : State) (f : Flags) (b : Bool) : (addVxstat s f b).tock = s.tock := rfl
@[simp] theorem addVxstat_slice (s : State) (f : Flags) (b : Bool) : (addVxstat s f b).slice = s.slice := rfl
@[simp] theorem addVxstat_agenda (s : State) (f : Flags) (b : Bool) : (addVxstat s f b).agenda = s.agenda := rfl
@[simp] theorem addVxstat_hart_cid (s : State) (f : Flags) (b : Bool) :
    (addVxstat s f b).hart.cid = s.hart.cid := rfl
@[simp] theorem addVxstat_hart_phase (s : State) (f : Flags) (b : Bool) :
    (addVxstat s f b).hart.phase = s.hart.phase := rfl
@[simp] theorem addVxstat_hart_current (s : State) (f : Flags) (b : Bool) :
    (addVxstat s f b).hart.current = s.hart.current := rfl
@[simp] theorem addVxstat_hart_issued (s : State) (f : Flags) (b : Bool) :
    (addVxstat s f b).hart.issued = s.hart.issued := rfl
@[simp] theorem addVxstat_hart_headed (s : State) (f : Flags) (b : Bool) :
    (addVxstat s f b).hart.headed = s.hart.headed := rfl
@[simp] theorem addVxstat_hart_probed (s : State) (f : Flags) (b : Bool) :
    (addVxstat s f b).hart.probed = s.hart.probed := rfl
@[simp] theorem addVxstat_hart_offsets (s : State) (f : Flags) (b : Bool) :
    (addVxstat s f b).hart.offsets = s.hart.offsets := rfl
@[simp] theorem addVxstat_hart_wrote (s : State) (f : Flags) (b : Bool) :
    (addVxstat s f b).hart.wrote = s.hart.wrote := rfl
@[simp] theorem addVxstat_hart_heldFault (s : State) (f : Flags) (b : Bool) :
    (addVxstat s f b).hart.heldFault = s.hart.heldFault := rfl
@[simp] theorem addVxstat_hart_lastSlot (s : State) (f : Flags) (b : Bool) :
    (addVxstat s f b).hart.lastSlot = s.hart.lastSlot := rfl
@[simp] theorem addVxstat_hart_stopPending (s : State) (f : Flags) (b : Bool) :
    (addVxstat s f b).hart.stopPending = s.hart.stopPending := rfl
@[simp] theorem addVxstat_hart_stopped (s : State) (f : Flags) (b : Bool) :
    (addVxstat s f b).hart.stopped = s.hart.stopped := rfl
@[simp] theorem addVxstat_hart_due (s : State) (f : Flags) (b : Bool) :
    (addVxstat s f b).hart.due = s.hart.due := rfl
@[simp] theorem addVxstat_hart_member (s : State) (f : Flags) (b : Bool) :
    (addVxstat s f b).hart.member = s.hart.member := rfl
@[simp] theorem addVxstat_hart_homeGang (s : State) (f : Flags) (b : Bool) :
    (addVxstat s f b).hart.homeGang = s.hart.homeGang := rfl
@[simp] theorem addVxstat_hart_leasePending (s : State) (f : Flags) (b : Bool) :
    (addVxstat s f b).hart.leasePending = s.hart.leasePending := rfl
@[simp] theorem addVxstat_hart_inProgress (s : State) (f : Flags) (b : Bool) :
    (addVxstat s f b).hart.inProgress = s.hart.inProgress := rfl
@[simp] theorem addVxstat_hart_fromZero (s : State) (f : Flags) (b : Bool) :
    (addVxstat s f b).hart.fromZero = s.hart.fromZero := rfl
@[simp] theorem addVxstat_hart_held (s : State) (f : Flags) (b : Bool) :
    (addVxstat s f b).hart.held = s.hart.held := rfl
@[simp] theorem addVxstat_hart_queue (s : State) (f : Flags) (b : Bool) :
    (addVxstat s f b).hart.queue = s.hart.queue := rfl
@[simp] theorem addVxstat_hart_front (s : State) (f : Flags) (b : Bool) :
    (addVxstat s f b).hart.front = s.hart.front := rfl
@[simp] theorem addVxstat_hart_gates (s : State) (f : Flags) (b : Bool) :
    (addVxstat s f b).hart.gates = s.hart.gates := rfl
@[simp] theorem addVxstat_hart_vecFences (s : State) (f : Flags) (b : Bool) :
    (addVxstat s f b).hart.vecFences = s.hart.vecFences := rfl
@[simp] theorem addVxstat_hart_age (s : State) (f : Flags) (b : Bool) :
    (addVxstat s f b).hart.age = s.hart.age := rfl
@[simp] theorem addVxstat_hart_yielded (s : State) (f : Flags) (b : Bool) :
    (addVxstat s f b).hart.yielded = s.hart.yielded := rfl
@[simp] theorem addVxstat_hart_stalled (s : State) (f : Flags) (b : Bool) :
    (addVxstat s f b).hart.stalled = s.hart.stalled := rfl
@[simp] theorem addVxstat_hart_bound (s : State) (f : Flags) (b : Bool) :
    (addVxstat s f b).hart.bound = s.hart.bound := rfl
@[simp] theorem addVxstat_hart_retry (s : State) (f : Flags) (b : Bool) :
    (addVxstat s f b).hart.retry = s.hart.retry := rfl
@[simp] theorem addVxstat_hart_waitNs (s : State) (f : Flags) (b : Bool) :
    (addVxstat s f b).hart.waitNs = s.hart.waitNs := rfl
@[simp] theorem addVxstat_hart_waitSince (s : State) (f : Flags) (b : Bool) :
    (addVxstat s f b).hart.waitSince = s.hart.waitSince := rfl
@[simp] theorem addVxstat_hart_call (s : State) (f : Flags) (b : Bool) :
    (addVxstat s f b).hart.call = s.hart.call := rfl
@[simp] theorem addVxstat_hart_reply (s : State) (f : Flags) (b : Bool) :
    (addVxstat s f b).hart.reply = s.hart.reply := rfl
@[simp] theorem addVxstat_hart_coldErrors (s : State) (f : Flags) (b : Bool) :
    (addVxstat s f b).hart.coldErrors = s.hart.coldErrors := rfl
@[simp] theorem addVxstat_hart_owes12 (s : State) (f : Flags) (b : Bool) :
    (addVxstat s f b).hart.owes12 = s.hart.owes12 := rfl
@[simp] theorem addVxstat_hart_owes55 (s : State) (f : Flags) (b : Bool) :
    (addVxstat s f b).hart.owes55 = s.hart.owes55 := rfl
@[simp] theorem addVxstat_hart_saveArea (s : State) (f : Flags) (b : Bool) :
    (addVxstat s f b).hart.saveArea = s.hart.saveArea := rfl
@[simp] theorem addVxstat_hart_areaWritten (s : State) (f : Flags) (b : Bool) :
    (addVxstat s f b).hart.areaWritten = s.hart.areaWritten := rfl
@[simp] theorem addVxstat_hart_savedPart (s : State) (f : Flags) (b : Bool) :
    (addVxstat s f b).hart.savedPart = s.hart.savedPart := rfl
@[simp] theorem addVxstat_hart_savedScratch (s : State) (f : Flags) (b : Bool) :
    (addVxstat s f b).hart.savedScratch = s.hart.savedScratch := rfl
@[simp] theorem addVxstat_hart_savedPoison (s : State) (f : Flags) (b : Bool) :
    (addVxstat s f b).hart.savedPoison = s.hart.savedPoison := rfl
@[simp] theorem addVxstat_hart_wait (s : State) (f : Flags) (b : Bool) :
    (addVxstat s f b).hart.wait = s.hart.wait := rfl
@[simp] theorem addVxstat_hart_slot (s : State) (f : Flags) (b : Bool) :
    (addVxstat s f b).hart.slot = s.hart.slot := rfl
@[simp] theorem addVxstat_hart_partId (s : State) (f : Flags) (b : Bool) :
    (addVxstat s f b).hart.partId = s.hart.partId := rfl
@[simp] theorem addVxstat_hart_gangStack (s : State) (f : Flags) (b : Bool) :
    (addVxstat s f b).hart.gangStack = s.hart.gangStack := rfl
@[simp] theorem addVxstat_hart_gang (s : State) (f : Flags) (b : Bool) :
    (addVxstat s f b).hart.gang = s.hart.gang := rfl
@[simp] theorem addVxstat_hart_g (s : State) (f : Flags) (b : Bool) :
    (addVxstat s f b).hart.g = s.hart.g := rfl
@[simp] theorem addVxstat_hart_depth (s : State) (f : Flags) (b : Bool) :
    (addVxstat s f b).hart.depth = s.hart.depth := rfl
@[simp] theorem addVxstat_hart_pc (s : State) (f : Flags) (b : Bool) :
    (addVxstat s f b).hart.pc = s.hart.pc := rfl
@[simp] theorem addVxstat_hart_regs (s : State) (f : Flags) (b : Bool) :
    (addVxstat s f b).hart.regs = s.hart.regs := rfl
@[simp] theorem addVxstat_hart_vregs (s : State) (f : Flags) (b : Bool) :
    (addVxstat s f b).hart.vregs = s.hart.vregs := rfl
@[simp] theorem addVxstat_hart_mregs (s : State) (f : Flags) (b : Bool) :
    (addVxstat s f b).hart.mregs = s.hart.mregs := rfl
@[simp] theorem addVxstat_hart_kregs (s : State) (f : Flags) (b : Bool) :
    (addVxstat s f b).hart.kregs = s.hart.kregs := rfl
@[simp] theorem addVxstat_hart_loops (s : State) (f : Flags) (b : Bool) :
    (addVxstat s f b).hart.loops = s.hart.loops := rfl
@[simp] theorem addVxstat_hart_regions (s : State) (f : Flags) (b : Bool) :
    (addVxstat s f b).hart.regions = s.hart.regions := rfl
@[simp] theorem addVxstat_hart_aside (s : State) (f : Flags) (b : Bool) :
    (addVxstat s f b).hart.aside = s.hart.aside := rfl
@[simp] theorem addVxstat_hart_streams (s : State) (f : Flags) (b : Bool) :
    (addVxstat s f b).hart.streams = s.hart.streams := rfl
@[simp] theorem addVxstat_hart_par (s : State) (f : Flags) (b : Bool) :
    (addVxstat s f b).hart.par = s.hart.par := rfl
@[simp] theorem addVxstat_hart_accWin (s : State) (f : Flags) (b : Bool) :
    (addVxstat s f b).hart.accWin = s.hart.accWin := rfl
@[simp] theorem addVxstat_hart_rows (s : State) (f : Flags) (b : Bool) :
    (addVxstat s f b).hart.rows = s.hart.rows := rfl
@[simp] theorem addVxstat_hart_rowPoison (s : State) (f : Flags) (b : Bool) :
    (addVxstat s f b).hart.rowPoison = s.hart.rowPoison := rfl
@[simp] theorem addVxstat_hart_grant (s : State) (f : Flags) (b : Bool) :
    (addVxstat s f b).hart.grant = s.hart.grant := rfl
@[simp] theorem addVxstat_hart_acc (s : State) (f : Flags) (b : Bool) :
    (addVxstat s f b).hart.acc = s.hart.acc := rfl
@[simp] theorem addVxstat_hart_accPoison (s : State) (f : Flags) (b : Bool) :
    (addVxstat s f b).hart.accPoison = s.hart.accPoison := rfl
@[simp] theorem addVxstat_hart_accLease (s : State) (f : Flags) (b : Bool) :
    (addVxstat s f b).hart.accLease = s.hart.accLease := rfl
@[simp] theorem addVxstat_hart_genCache (s : State) (f : Flags) (b : Bool) :
    (addVxstat s f b).hart.genCache = s.hart.genCache := rfl
@[simp] theorem addVxstat_hart_leaseNext (s : State) (f : Flags) (b : Bool) :
    (addVxstat s f b).hart.leaseNext = s.hart.leaseNext := rfl
@[simp] theorem addVxstat_hart_fed (s : State) (f : Flags) (b : Bool) :
    (addVxstat s f b).hart.fed = s.hart.fed := rfl
@[simp] theorem addVxstat_hart_lag (s : State) (f : Flags) (b : Bool) :
    (addVxstat s f b).hart.lag = s.hart.lag := rfl
@[simp] theorem addVxstat_hart_posted (s : State) (f : Flags) (b : Bool) :
    (addVxstat s f b).hart.posted = s.hart.posted := rfl
@[simp] theorem addVxstat_hart_replies (s : State) (f : Flags) (b : Bool) :
    (addVxstat s f b).hart.replies = s.hart.replies := rfl

/-! ### `setRnd` -/

@[simp] theorem setRnd_up (s : State) (r : BitVec 32) : (setRnd s r).up = s.up := rfl
@[simp] theorem setRnd_others (s : State) (r : BitVec 32) : (setRnd s r).others = s.others := rfl
@[simp] theorem setRnd_saved (s : State) (r : BitVec 32) : (setRnd s r).saved = s.saved := rfl
@[simp] theorem setRnd_mem (s : State) (r : BitVec 32) : (setRnd s r).mem = s.mem := rfl
@[simp] theorem setRnd_poison (s : State) (r : BitVec 32) : (setRnd s r).poison = s.poison := rfl
@[simp] theorem setRnd_markDeny (s : State) (r : BitVec 32) : (setRnd s r).markDeny = s.markDeny := rfl
@[simp] theorem setRnd_sriov (s : State) (r : BitVec 32) : (setRnd s r).sriov = s.sriov := rfl
@[simp] theorem setRnd_slots (s : State) (r : BitVec 32) : (setRnd s r).slots = s.slots := rfl
@[simp] theorem setRnd_fes (s : State) (r : BitVec 32) : (setRnd s r).fes = s.fes := rfl
@[simp] theorem setRnd_fencedHalves (s : State) (r : BitVec 32) : (setRnd s r).fencedHalves = s.fencedHalves := rfl
@[simp] theorem setRnd_parts (s : State) (r : BitVec 32) : (setRnd s r).parts = s.parts := rfl
@[simp] theorem setRnd_gangs (s : State) (r : BitVec 32) : (setRnd s r).gangs = s.gangs := rfl
@[simp] theorem setRnd_pool (s : State) (r : BitVec 32) : (setRnd s r).pool = s.pool := rfl
@[simp] theorem setRnd_moves (s : State) (r : BitVec 32) : (setRnd s r).moves = s.moves := rfl
@[simp] theorem setRnd_copies (s : State) (r : BitVec 32) : (setRnd s r).copies = s.copies := rfl
@[simp] theorem setRnd_entries (s : State) (r : BitVec 32) : (setRnd s r).entries = s.entries := rfl
@[simp] theorem setRnd_engines (s : State) (r : BitVec 32) : (setRnd s r).engines = s.engines := rfl
@[simp] theorem setRnd_merges (s : State) (r : BitVec 32) : (setRnd s r).merges = s.merges := rfl
@[simp] theorem setRnd_marks (s : State) (r : BitVec 32) : (setRnd s r).marks = s.marks := rfl
@[simp] theorem setRnd_links (s : State) (r : BitVec 32) : (setRnd s r).links = s.links := rfl
@[simp] theorem setRnd_cold (s : State) (r : BitVec 32) : (setRnd s r).cold = s.cold := rfl
@[simp] theorem setRnd_vaults (s : State) (r : BitVec 32) : (setRnd s r).vaults = s.vaults := rfl
@[simp] theorem setRnd_svc (s : State) (r : BitVec 32) : (setRnd s r).svc = s.svc := rfl
@[simp] theorem setRnd_pf0 (s : State) (r : BitVec 32) : (setRnd s r).pf0 = s.pf0 := rfl
@[simp] theorem setRnd_hostDeny (s : State) (r : BitVec 32) : (setRnd s r).hostDeny = s.hostDeny := rfl
@[simp] theorem setRnd_peerDeny (s : State) (r : BitVec 32) : (setRnd s r).peerDeny = s.peerDeny := rfl
@[simp] theorem setRnd_residue (s : State) (r : BitVec 32) : (setRnd s r).residue = s.residue := rfl
@[simp] theorem setRnd_throttled (s : State) (r : BitVec 32) : (setRnd s r).throttled = s.throttled := rfl
@[simp] theorem setRnd_cycle (s : State) (r : BitVec 32) : (setRnd s r).cycle = s.cycle := rfl
@[simp] theorem setRnd_nextId (s : State) (r : BitVec 32) : (setRnd s r).nextId = s.nextId := rfl
@[simp] theorem setRnd_draws (s : State) (r : BitVec 32) : (setRnd s r).draws = s.draws := rfl
@[simp] theorem setRnd_tock (s : State) (r : BitVec 32) : (setRnd s r).tock = s.tock := rfl
@[simp] theorem setRnd_slice (s : State) (r : BitVec 32) : (setRnd s r).slice = s.slice := rfl
@[simp] theorem setRnd_agenda (s : State) (r : BitVec 32) : (setRnd s r).agenda = s.agenda := rfl
@[simp] theorem setRnd_hart_cid (s : State) (r : BitVec 32) :
    (setRnd s r).hart.cid = s.hart.cid := rfl
@[simp] theorem setRnd_hart_phase (s : State) (r : BitVec 32) :
    (setRnd s r).hart.phase = s.hart.phase := rfl
@[simp] theorem setRnd_hart_current (s : State) (r : BitVec 32) :
    (setRnd s r).hart.current = s.hart.current := rfl
@[simp] theorem setRnd_hart_issued (s : State) (r : BitVec 32) :
    (setRnd s r).hart.issued = s.hart.issued := rfl
@[simp] theorem setRnd_hart_headed (s : State) (r : BitVec 32) :
    (setRnd s r).hart.headed = s.hart.headed := rfl
@[simp] theorem setRnd_hart_probed (s : State) (r : BitVec 32) :
    (setRnd s r).hart.probed = s.hart.probed := rfl
@[simp] theorem setRnd_hart_offsets (s : State) (r : BitVec 32) :
    (setRnd s r).hart.offsets = s.hart.offsets := rfl
@[simp] theorem setRnd_hart_wrote (s : State) (r : BitVec 32) :
    (setRnd s r).hart.wrote = s.hart.wrote := rfl
@[simp] theorem setRnd_hart_heldFault (s : State) (r : BitVec 32) :
    (setRnd s r).hart.heldFault = s.hart.heldFault := rfl
@[simp] theorem setRnd_hart_lastSlot (s : State) (r : BitVec 32) :
    (setRnd s r).hart.lastSlot = s.hart.lastSlot := rfl
@[simp] theorem setRnd_hart_stopPending (s : State) (r : BitVec 32) :
    (setRnd s r).hart.stopPending = s.hart.stopPending := rfl
@[simp] theorem setRnd_hart_stopped (s : State) (r : BitVec 32) :
    (setRnd s r).hart.stopped = s.hart.stopped := rfl
@[simp] theorem setRnd_hart_due (s : State) (r : BitVec 32) :
    (setRnd s r).hart.due = s.hart.due := rfl
@[simp] theorem setRnd_hart_member (s : State) (r : BitVec 32) :
    (setRnd s r).hart.member = s.hart.member := rfl
@[simp] theorem setRnd_hart_homeGang (s : State) (r : BitVec 32) :
    (setRnd s r).hart.homeGang = s.hart.homeGang := rfl
@[simp] theorem setRnd_hart_leasePending (s : State) (r : BitVec 32) :
    (setRnd s r).hart.leasePending = s.hart.leasePending := rfl
@[simp] theorem setRnd_hart_inProgress (s : State) (r : BitVec 32) :
    (setRnd s r).hart.inProgress = s.hart.inProgress := rfl
@[simp] theorem setRnd_hart_fromZero (s : State) (r : BitVec 32) :
    (setRnd s r).hart.fromZero = s.hart.fromZero := rfl
@[simp] theorem setRnd_hart_held (s : State) (r : BitVec 32) :
    (setRnd s r).hart.held = s.hart.held := rfl
@[simp] theorem setRnd_hart_queue (s : State) (r : BitVec 32) :
    (setRnd s r).hart.queue = s.hart.queue := rfl
@[simp] theorem setRnd_hart_front (s : State) (r : BitVec 32) :
    (setRnd s r).hart.front = s.hart.front := rfl
@[simp] theorem setRnd_hart_gates (s : State) (r : BitVec 32) :
    (setRnd s r).hart.gates = s.hart.gates := rfl
@[simp] theorem setRnd_hart_vecFences (s : State) (r : BitVec 32) :
    (setRnd s r).hart.vecFences = s.hart.vecFences := rfl
@[simp] theorem setRnd_hart_age (s : State) (r : BitVec 32) :
    (setRnd s r).hart.age = s.hart.age := rfl
@[simp] theorem setRnd_hart_yielded (s : State) (r : BitVec 32) :
    (setRnd s r).hart.yielded = s.hart.yielded := rfl
@[simp] theorem setRnd_hart_stalled (s : State) (r : BitVec 32) :
    (setRnd s r).hart.stalled = s.hart.stalled := rfl
@[simp] theorem setRnd_hart_bound (s : State) (r : BitVec 32) :
    (setRnd s r).hart.bound = s.hart.bound := rfl
@[simp] theorem setRnd_hart_retry (s : State) (r : BitVec 32) :
    (setRnd s r).hart.retry = s.hart.retry := rfl
@[simp] theorem setRnd_hart_waitNs (s : State) (r : BitVec 32) :
    (setRnd s r).hart.waitNs = s.hart.waitNs := rfl
@[simp] theorem setRnd_hart_waitSince (s : State) (r : BitVec 32) :
    (setRnd s r).hart.waitSince = s.hart.waitSince := rfl
@[simp] theorem setRnd_hart_call (s : State) (r : BitVec 32) :
    (setRnd s r).hart.call = s.hart.call := rfl
@[simp] theorem setRnd_hart_reply (s : State) (r : BitVec 32) :
    (setRnd s r).hart.reply = s.hart.reply := rfl
@[simp] theorem setRnd_hart_coldErrors (s : State) (r : BitVec 32) :
    (setRnd s r).hart.coldErrors = s.hart.coldErrors := rfl
@[simp] theorem setRnd_hart_owes12 (s : State) (r : BitVec 32) :
    (setRnd s r).hart.owes12 = s.hart.owes12 := rfl
@[simp] theorem setRnd_hart_owes55 (s : State) (r : BitVec 32) :
    (setRnd s r).hart.owes55 = s.hart.owes55 := rfl
@[simp] theorem setRnd_hart_saveArea (s : State) (r : BitVec 32) :
    (setRnd s r).hart.saveArea = s.hart.saveArea := rfl
@[simp] theorem setRnd_hart_areaWritten (s : State) (r : BitVec 32) :
    (setRnd s r).hart.areaWritten = s.hart.areaWritten := rfl
@[simp] theorem setRnd_hart_savedPart (s : State) (r : BitVec 32) :
    (setRnd s r).hart.savedPart = s.hart.savedPart := rfl
@[simp] theorem setRnd_hart_savedScratch (s : State) (r : BitVec 32) :
    (setRnd s r).hart.savedScratch = s.hart.savedScratch := rfl
@[simp] theorem setRnd_hart_savedPoison (s : State) (r : BitVec 32) :
    (setRnd s r).hart.savedPoison = s.hart.savedPoison := rfl
@[simp] theorem setRnd_hart_wait (s : State) (r : BitVec 32) :
    (setRnd s r).hart.wait = s.hart.wait := rfl
@[simp] theorem setRnd_hart_slot (s : State) (r : BitVec 32) :
    (setRnd s r).hart.slot = s.hart.slot := rfl
@[simp] theorem setRnd_hart_partId (s : State) (r : BitVec 32) :
    (setRnd s r).hart.partId = s.hart.partId := rfl
@[simp] theorem setRnd_hart_gangStack (s : State) (r : BitVec 32) :
    (setRnd s r).hart.gangStack = s.hart.gangStack := rfl
@[simp] theorem setRnd_hart_gang (s : State) (r : BitVec 32) :
    (setRnd s r).hart.gang = s.hart.gang := rfl
@[simp] theorem setRnd_hart_g (s : State) (r : BitVec 32) :
    (setRnd s r).hart.g = s.hart.g := rfl
@[simp] theorem setRnd_hart_depth (s : State) (r : BitVec 32) :
    (setRnd s r).hart.depth = s.hart.depth := rfl
@[simp] theorem setRnd_hart_pc (s : State) (r : BitVec 32) :
    (setRnd s r).hart.pc = s.hart.pc := rfl
@[simp] theorem setRnd_hart_regs (s : State) (r : BitVec 32) :
    (setRnd s r).hart.regs = s.hart.regs := rfl
@[simp] theorem setRnd_hart_vregs (s : State) (r : BitVec 32) :
    (setRnd s r).hart.vregs = s.hart.vregs := rfl
@[simp] theorem setRnd_hart_mregs (s : State) (r : BitVec 32) :
    (setRnd s r).hart.mregs = s.hart.mregs := rfl
@[simp] theorem setRnd_hart_kregs (s : State) (r : BitVec 32) :
    (setRnd s r).hart.kregs = s.hart.kregs := rfl
@[simp] theorem setRnd_hart_loops (s : State) (r : BitVec 32) :
    (setRnd s r).hart.loops = s.hart.loops := rfl
@[simp] theorem setRnd_hart_regions (s : State) (r : BitVec 32) :
    (setRnd s r).hart.regions = s.hart.regions := rfl
@[simp] theorem setRnd_hart_aside (s : State) (r : BitVec 32) :
    (setRnd s r).hart.aside = s.hart.aside := rfl
@[simp] theorem setRnd_hart_streams (s : State) (r : BitVec 32) :
    (setRnd s r).hart.streams = s.hart.streams := rfl
@[simp] theorem setRnd_hart_par (s : State) (r : BitVec 32) :
    (setRnd s r).hart.par = s.hart.par := rfl
@[simp] theorem setRnd_hart_accWin (s : State) (r : BitVec 32) :
    (setRnd s r).hart.accWin = s.hart.accWin := rfl
@[simp] theorem setRnd_hart_rows (s : State) (r : BitVec 32) :
    (setRnd s r).hart.rows = s.hart.rows := rfl
@[simp] theorem setRnd_hart_rowPoison (s : State) (r : BitVec 32) :
    (setRnd s r).hart.rowPoison = s.hart.rowPoison := rfl
@[simp] theorem setRnd_hart_grant (s : State) (r : BitVec 32) :
    (setRnd s r).hart.grant = s.hart.grant := rfl
@[simp] theorem setRnd_hart_acc (s : State) (r : BitVec 32) :
    (setRnd s r).hart.acc = s.hart.acc := rfl
@[simp] theorem setRnd_hart_accPoison (s : State) (r : BitVec 32) :
    (setRnd s r).hart.accPoison = s.hart.accPoison := rfl
@[simp] theorem setRnd_hart_accLease (s : State) (r : BitVec 32) :
    (setRnd s r).hart.accLease = s.hart.accLease := rfl
@[simp] theorem setRnd_hart_genCache (s : State) (r : BitVec 32) :
    (setRnd s r).hart.genCache = s.hart.genCache := rfl
@[simp] theorem setRnd_hart_leaseNext (s : State) (r : BitVec 32) :
    (setRnd s r).hart.leaseNext = s.hart.leaseNext := rfl
@[simp] theorem setRnd_hart_fed (s : State) (r : BitVec 32) :
    (setRnd s r).hart.fed = s.hart.fed := rfl
@[simp] theorem setRnd_hart_lag (s : State) (r : BitVec 32) :
    (setRnd s r).hart.lag = s.hart.lag := rfl
@[simp] theorem setRnd_hart_posted (s : State) (r : BitVec 32) :
    (setRnd s r).hart.posted = s.hart.posted := rfl
@[simp] theorem setRnd_hart_replies (s : State) (r : BitVec 32) :
    (setRnd s r).hart.replies = s.hart.replies := rfl

end Sys2Proof.Machine
end

