-- ==== Sys2Proof/Laws/Read.lean ====
section
/-!
SUPPORT. When two states read alike: what a byte that a hart reads depends on.
-/

namespace Sys2Proof.Machine

/-- A device register's value depends on the partitions, slots, regions, vaults and links, and on the slots of the contexts. -/
theorem devValue_congr (s t : State) (r : DevReg) (hp : t.parts = s.parts) (hc : t.cold = s.cold)
    (hv : t.vaults = s.vaults) (hs : t.slots = s.slots) (hl : t.links = s.links)
    (hx : ∀ c, (contextOf t c).map (fun h => hartIdOf h.slot) = (contextOf s c).map (fun h => hartIdOf h.slot)) :
    devValue t r = devValue s r := by
  cases r with
  | eventHart p =>
    simp only [devValue, part, hp]
    cases h : (Tab.get {} s.parts p).eventHart with
    | none => rfl
    | some c =>
      simp only [Option.bind_some]
      rw [hx c]
  | _ => simp only [devValue, part, slotCfg, coldRegion, vaultCtl, linkReg, hp, hc, hv, hs, hl]

/-- The contexts of two states whose current harts agree in number, slot and presence. -/
theorem contextOf_slot_congr (s t : State) (hcid : t.hart.cid = s.hart.cid) (hslot : t.hart.slot = s.hart.slot)
    (hph : t.hart.phase = .free ↔ s.hart.phase = .free) (ho : t.others = s.others) (hsv : t.saved = s.saved) (c : Nat) :
    (contextOf t c).map (fun h => hartIdOf h.slot) = (contextOf s c).map (fun h => hartIdOf h.slot) := by
  unfold contextOf contexts
  rw [ho, hsv]
  by_cases hf : s.hart.phase = .free
  · simp [hf, hph.2 hf]
  · have hf' : ¬ t.hart.phase = .free := fun h => hf (hph.1 h)
    simp only [List.filter_cons, bne_iff_ne, ne_eq, hf, hf', not_false_eq_true, if_true, List.find?_cons, hcid]
    cases h : (s.hart.cid == c) with
    | true => simp only [Option.map_some, hslot]
    | false => rfl

/-- What a byte that the current hart reads depends on. -/
theorem readByte_congr (s t : State) (a : Nat) (hm : t.mem = s.mem) (hr : t.hart.rows = s.hart.rows)
    (hslot : t.hart.slot = s.hart.slot) (hf : t.fes = s.fes) (hd : ∀ r, devValue t r = devValue s r) :
    readByte t a = readByte s a := by
  have hdb : ∀ o, deviceByte t o = deviceByte s o := fun o => by simp only [deviceByte, hd]
  simp only [readByte, frontEnd, hm, hr, hslot, hf, hdb]

/-- A change of the current hart that leaves its rows, its slot, its number and its presence alone changes no byte. -/
theorem sameMemory_hart (s : State) (h : Hart) (hr : h.rows = s.hart.rows) (hslot : h.slot = s.hart.slot)
    (hcid : h.cid = s.hart.cid) (hph : h.phase = .free ↔ s.hart.phase = .free) :
    SameMemory s { s with hart := h } := fun a =>
  readByte_congr s _ a rfl hr hslot rfl fun r =>
    devValue_congr s _ r rfl rfl rfl rfl rfl (contextOf_slot_congr s _ hcid hslot hph rfl rfl)

theorem SameMemory.refl (s : State) : SameMemory s s := fun _ => rfl

theorem SameMemory.trans {s t u : State} (h : SameMemory s t) (k : SameMemory t u) : SameMemory s u :=
  fun a => (k a).trans (h a)

theorem sameMemory_advance (s : State) (n : Nat) : SameMemory s (advance n s) :=
  sameMemory_hart s _ rfl rfl rfl Iff.rfl

theorem sameMemory_jumpTo (s : State) (p : Word) : SameMemory s (jumpTo s p) :=
  sameMemory_hart s _ rfl rfl rfl Iff.rfl

theorem sameMemory_setGpr (s : State) (d : Reg) (v : GReg) : SameMemory s (setGpr s d v) := by
  unfold setGpr
  split
  · exact SameMemory.refl s
  · exact sameMemory_hart s _ rfl rfl rfl Iff.rfl

theorem sameMemory_setCsrs (s : State) (f : Csrs → Csrs) : SameMemory s (setCsrs s f) :=
  sameMemory_hart s _ rfl rfl rfl Iff.rfl

theorem sameMemory_takeId (s : State) : SameMemory s (takeId s) :=
  sameMemory_hart s _ rfl rfl rfl Iff.rfl

theorem sameMemory_addFstat (s : State) (f : Flags) : SameMemory s (addFstat s f) :=
  sameMemory_hart s _ rfl rfl rfl Iff.rfl

/-! ### General registers -/

theorem gpr_zero (s : State) : gpr s 0 = {} := by simp [gpr]

theorem gval_zero (s : State) : gval s 0 = 0 := by simp [gval, gpr]

/-- A register after a write: g0 reads zero, the destination as written. -/
theorem gpr_setGpr_same (s : State) (d : Reg) (v : GReg) : gpr (setGpr s d v) d = if d = 0 then {} else v := by
  by_cases h : d = 0
  · simp only [gpr, if_pos h]
  · simp only [gpr, setGpr, if_neg h]
    exact Vector.getElem_set_self d.isLt

/-- A write of one register leaves every other alone. -/
theorem gpr_setGpr_other (s : State) (d r : Reg) (v : GReg) (h : r ≠ d) : gpr (setGpr s d v) r = gpr s r := by
  by_cases h0 : d = 0
  · simp only [setGpr, if_pos h0]
  · by_cases hr : r = 0
    · simp only [gpr, if_pos hr]
    · have hne : d.toNat ≠ r.toNat := fun e => h (BitVec.eq_of_toNat_eq e.symm)
      simp only [gpr, setGpr, if_neg h0, if_neg hr]
      exact Vector.getElem_set_ne d.isLt r.isLt hne

@[simp] theorem gpr_advance (n : Nat) (s : State) (r : Reg) : gpr (advance n s) r = gpr s r := rfl
@[simp] theorem gpr_jumpTo (s : State) (p : Word) (r : Reg) : gpr (jumpTo s p) r = gpr s r := rfl
@[simp] theorem gpr_setCsrs (s : State) (f : Csrs → Csrs) (r : Reg) : gpr (setCsrs s f) r = gpr s r := rfl
@[simp] theorem gpr_addFstat (s : State) (f : Flags) (r : Reg) : gpr (addFstat s f) r = gpr s r := rfl
@[simp] theorem gpr_setVreg (s : State) (v : Reg) (x : VReg) (r : Reg) : gpr (setVreg s v x) r = gpr s r := rfl

/-- A write of a general register with the pc moved on: everything that it changes. -/
theorem wrote_setGpr (s : State) (len : Nat) (d : Reg) (v : GReg) : Wrote s (advance len (setGpr s d v)) len d v where
  dest := gpr_setGpr_same s d v
  regs r h := gpr_setGpr_other s d r v h
  pc := by simp [advance]
  rest := by
    unfold setGpr
    split <;> rfl
  memory := (sameMemory_setGpr s d v).trans (sameMemory_advance _ len)

/-- `finish` answers, and does only that. -/
theorem finish_wrote (s : State) (len : Nat) (d : Reg) (v : GReg) :
    ∃ t, finish s len d v = .next t ∧ Wrote s t len d v := ⟨_, rfl, wrote_setGpr s len d v⟩

/-! ### Taking a lease ID (R130) -/

/-- Taking an ID changes lease sets alone: values and tags stay. -/
theorem gpr_takeId (s : State) (r : Reg) :
    gpr (takeId s) r = if r = 0 then {} else { gpr s r with lease := (gpr s r).lease.reuse s.hart.leaseNext } := by
  by_cases h : r = 0
  · simp only [gpr, if_pos h]
  · simp only [gpr, if_neg h, takeId, takeLease]
    exact Vector.getElem_map _ _

theorem gval_takeId (s : State) (r : Reg) : gval (takeId s) r = gval s r := by
  unfold gval
  rw [gpr_takeId]
  split
  next h => rw [h, gpr_zero]
  · rfl

end Sys2Proof.Machine
end

