-- ==== Sys2Proof/Laws/Access.lean ====
section
/-!
SUPPORT. What a store does to what is read: the stored bytes, and every other byte.
-/

namespace Sys2Proof.Machine

/-- A run of bytes lies within one aligned row of 256 bytes. Every range of the map is a whole number of such rows. -/
def OneRow (x n : Nat) : Prop := x % 256 + n ≤ 256

theorem localPlace_row (o : Nat) (i : Nat) (h : o % 256 + i < 256) : localPlace (o + i) = localPlace o := by
  have h1 : (o + i < 0x80000) ↔ (o < 0x80000) := by omega
  have h2 : (0x100000 ≤ o + i ∧ o + i < 0x500000) ↔ (0x100000 ≤ o ∧ o < 0x500000) := by omega
  have h3 : (0x800000 ≤ o + i ∧ o + i < 0x810000) ↔ (0x800000 ≤ o ∧ o < 0x810000) := by omega
  unfold localPlace
  simp only [h1, h2, h3]
  by_cases hc : 0x100000 ≤ o ∧ o < 0x500000
  · have : (o + i - 0x100000) / 0x100000 = (o - 0x100000) / 0x100000 := by omega
    simp only [this]
  · simp only [if_neg hc]

/-- Bytes of one row lie in one range of the map. -/
theorem placeOf_row (x i : Nat) (h : x % 256 + i < 256) : placeOf (x + i) = placeOf x := by
  have e1 : dramBytes = 1649267441664 := by decide
  have e2 : stripedBase = 17592186044416 := by decide
  have e3 : hostBase = 70368744177664 := by decide
  have e4 : peerBase = 140737488355328 := by decide
  have e5 : coldBase = 281474976710656 := by decide
  have e6 : deviceBase = 4222124650659840 := by decide
  have e7 : localBase = 4502500115742720 := by decide
  have e8 : mapEnd = 4503599627370496 := by decide
  have e9 : peerBytes = 2199023255552 := by decide
  have e10 : coldBytes = 281474976710656 := by decide
  have h1 : (x + i < dramBytes) ↔ (x < dramBytes) := by rw [e1]; omega
  have h2 : (x + i < stripedBase) ↔ (x < stripedBase) := by rw [e2]; omega
  have h3 : (x + i < stripedBase + dramBytes) ↔ (x < stripedBase + dramBytes) := by rw [e1, e2]; omega
  have h4 : (x + i < hostBase) ↔ (x < hostBase) := by rw [e3]; omega
  have h5 : (x + i < peerBase) ↔ (x < peerBase) := by rw [e4]; omega
  have h6 : (x + i < coldBase) ↔ (x < coldBase) := by rw [e5]; omega
  have h7 : (x + i < deviceBase) ↔ (x < deviceBase) := by rw [e6]; omega
  have h8 : (x + i < localBase) ↔ (x < localBase) := by rw [e7]; omega
  have h9 : (x + i < mapEnd) ↔ (x < mapEnd) := by rw [e8]; omega
  unfold placeOf
  simp only [h1, h2, h3, h4, h5, h6, h7, h8, h9]
  have hp : ¬ x < peerBase → (x + i - peerBase) / peerBytes = (x - peerBase) / peerBytes := by
    rw [e4, e9]; omega
  have hc : ¬ x < coldBase → (x + i - coldBase) / coldBytes = (x - coldBase) / coldBytes := by
    rw [e5, e10]; omega
  have hl : ¬ x < localBase → localPlace (x + i - localBase) = localPlace (x - localBase) := by
    intro hx
    have : x + i - localBase = x - localBase + i := by rw [e7] at hx ⊢; omega
    rw [this]
    apply localPlace_row
    rw [e7] at hx ⊢
    omega
  by_cases p4 : x < peerBase
  · simp only [if_pos p4]
  · by_cases p6 : x < coldBase
    · simp only [hp p4]
      by_cases p8 : x < localBase
      · simp only [if_pos p6]
      · exact absurd (by rw [e5] at p6; rw [e7]; omega) p8
    · by_cases p8 : x < localBase
      · simp only [hc p6, if_neg p6, if_pos p8, hp p4]
      · simp only [hc p6, hl p8, hp p4]

theorem unstripe_row (x i : Nat) (h : (x - stripedBase) % 256 + i < 256) (hx : stripedBase ≤ x) :
    unstripe (x + i) = unstripe x + i := by
  have e : x + i - stripedBase = x - stripedBase + i := by omega
  simp only [unstripe, e]
  generalize x - stripedBase = o at *
  have e1 : stackBytes = 103079215104 := by decide
  have e2 : vaultBytes = 536870912 := by decide
  rw [e1, e2]
  have a1 : (o + i) / 103079215104 = o / 103079215104 := by omega
  have a2 : (o + i) % 103079215104 = o % 103079215104 + i := by omega
  rw [a1, a2]
  generalize hq : o % 103079215104 = q at *
  have hq' : q % 256 + i < 256 := by omega
  have a3 : (q + i) / 4096 = q / 4096 := by omega
  have a4 : (q + i) % 4096 = q % 4096 + i := by omega
  rw [a3, a4]
  omega

theorem striped_ge (x : Nat) (h : placeOf x = .striped) : stripedBase ≤ x := by
  unfold placeOf at h
  by_cases h1 : x < dramBytes
  · rw [if_pos h1] at h; cases h
  · rw [if_neg h1] at h
    by_cases h2 : x < stripedBase
    · rw [if_pos h2] at h; cases h
    · exact Nat.le_of_not_lt h2

/-- Within a row, the bytes of system memory stand side by side under either name of DRAM. -/
theorem canon_row (x i : Nat) (h : x % 256 + i < 256) : canon (x + i) = canon x + i := by
  unfold canon
  rw [placeOf_row x i h]
  by_cases hs : placeOf x = .striped
  · simp only [if_pos hs]
    have hx := striped_ge x hs
    refine unstripe_row x i ?_ hx
    have e2 : stripedBase = 17592186044416 := by decide
    rw [e2] at hx ⊢
    omega
  · simp only [if_neg hs]

theorem rowWindowKey_row (o i : Nat) (h : o % 256 + i < 256) : rowWindowKey (o + i) = rowWindowKey o + i := by
  unfold rowWindowKey
  omega

/-- An address in the local window. -/
theorem local_of_place (x : Nat) (h : (placeOf x).isLocal = true) :
    localBase ≤ x ∧ placeOf x = localPlace (x - localBase) := by
  by_cases h8 : x < localBase
  · exfalso
    revert h
    unfold placeOf
    repeat' split
    all_goals (intro hh; cases hh)
  · refine ⟨Nat.le_of_not_lt h8, ?_⟩
    have e7 : localBase = 4502500115742720 := by decide
    have hn : ∀ n, n ≤ localBase → ¬ x < n := fun n hn hx => h8 (Nat.lt_of_lt_of_le hx hn)
    have past : placeOf x = if x < mapEnd then localPlace (x - localBase) else .hole := by
      unfold placeOf
      repeat rw [if_neg (hn _ (by decide))]
    rw [past] at h ⊢
    split
    · rfl
    · rename_i h9
      rw [if_neg h9] at h
      cases h

theorem rows_bounds (x : Nat) (h : placeOf x = .rows) : localBase ≤ x ∧ x - localBase < 0x80000 := by
  obtain ⟨h1, h2⟩ := local_of_place x (by rw [h]; rfl)
  refine ⟨h1, Nat.lt_of_not_le fun hx => ?_⟩
  rw [h] at h2
  revert h2
  unfold localPlace
  rw [if_neg (by omega)]
  repeat' split
  all_goals (intro hh; cases hh)

theorem scratch_bounds (x k : Nat) (h : placeOf x = .scratch k) :
    localBase ≤ x ∧ 0x100000 ≤ x - localBase ∧ x - localBase < 0x500000 ∧ k = (x - localBase - 0x100000) / 0x100000 := by
  obtain ⟨h1, h2⟩ := local_of_place x (by rw [h]; rfl)
  rw [h] at h2
  revert h2
  unfold localPlace
  split
  · intro hh; cases hh
  · split
    next hc => intro hh; injection hh with hh; exact ⟨h1, hc.1, hc.2, hh⟩
    · split <;> (intro hh; cases hh)

theorem scalarMem_bounds (x : Nat) (h : placeOf x = .scalarMem) : localBase ≤ x ∧ 0x800000 ≤ x - localBase := by
  obtain ⟨h1, h2⟩ := local_of_place x (by rw [h]; rfl)
  rw [h] at h2
  revert h2
  unfold localPlace
  split
  · intro hh; cases hh
  · split
    · intro hh; cases hh
    · split
      next hc => intro; exact ⟨h1, hc.1⟩
      · intro hh; cases hh

/-- What a store leaves of the rest of the machine: only memories and the poison marks change. -/
structure StoredOnly (s t : State) : Prop where
  rest : t = { s with
    hart := { s.hart with rows := t.hart.rows, rowPoison := t.hart.rowPoison }
    mem := t.mem, poison := t.poison, fes := t.fes }
  beats : ∀ f, (frontEnd t f).harness = (frontEnd s f).harness ∧ (frontEnd t f).beatmap = (frontEnd s f).beatmap

theorem StoredOnly.devValue {s t : State} (h : StoredOnly s t) (r : DevReg) : devValue t r = Machine.devValue s r := by
  have h1 := congrArg State.parts h.rest
  have h2 := congrArg State.cold h.rest
  have h3 := congrArg State.vaults h.rest
  have h4 := congrArg State.slots h.rest
  have h5 := congrArg State.links h.rest
  have h6 := congrArg (fun z => z.hart.cid) h.rest
  have h7 := congrArg (fun z => z.hart.slot) h.rest
  have h8 := congrArg (fun z => z.hart.phase) h.rest
  have h9 := congrArg State.others h.rest
  have h10 := congrArg State.saved h.rest
  have h8' : t.hart.phase = .free ↔ s.hart.phase = .free := by rw [show t.hart.phase = s.hart.phase from h8]
  exact devValue_congr s t r h1 h2 h3 h4 h5 (contextOf_slot_congr s t h6 h7 h8' h9 h10)

theorem StoredOnly.deviceByte {s t : State} (h : StoredOnly s t) (o : Nat) : deviceByte t o = Machine.deviceByte s o := by
  simp only [Machine.deviceByte, h.devValue]

theorem frontEnd_set_same (s : State) (id : Nat) (f : FrontEnd) : frontEnd (setFrontEnd s id f) id = f := by
  simp only [frontEnd, setFrontEnd, Tab.find_set_same, Option.getD_some]

theorem frontEnd_set_other (s : State) (id k : Nat) (f : FrontEnd) (h : k ≠ id) :
    frontEnd (setFrontEnd s id f) k = frontEnd s k := by
  simp only [frontEnd, setFrontEnd, Tab.find_set_other _ _ _ _ h]

/-- A store outside the device registers changes memories and poison marks alone. -/
theorem storeBytes_only (s : State) (x : Nat) (bs : List Byte) (h : placeOf x ≠ .device) :
    StoredOnly s (storeBytes s x bs) := by
  have keep : ∀ id f, f.harness = (frontEnd s id).harness → f.beatmap = (frontEnd s id).beatmap →
      ∀ k, (frontEnd (setFrontEnd s id f) k).harness = (frontEnd s k).harness ∧
        (frontEnd (setFrontEnd s id f) k).beatmap = (frontEnd s k).beatmap := by
    intro id f h1 h2 k
    by_cases hk : k = id
    · subst hk; rw [frontEnd_set_same]; exact ⟨h1, h2⟩
    · rw [frontEnd_set_other s id k f hk]; exact ⟨rfl, rfl⟩
  unfold storeBytes
  cases hp : placeOf x with
  | device => exact absurd hp h
  | scratch j => exact ⟨rfl, keep _ _ rfl rfl⟩
  | scalarMem => exact ⟨rfl, keep _ _ rfl rfl⟩
  | _ => exact ⟨rfl, fun _ => ⟨rfl, rfl⟩⟩

/-- The stored bytes read as stored (any range but the device registers). -/
theorem storeBytes_same (s : State) (x : Nat) (bs : List Byte) (i : Nat) (h : placeOf x ≠ .device)
    (hr : OneRow x bs.length) (hi : i < bs.length) : readByte (storeBytes s x bs) (x + i) = bs[i] := by
  have hrow : x % 256 + i < 256 := by unfold OneRow at hr; omega
  have hpl := placeOf_row x i hrow
  unfold readByte storeBytes
  rw [hpl]
  have e7 : localBase % 256 = 0 := by decide
  have e8 : localBase % 0x100000 = 0 := by decide
  cases hp : placeOf x with
  | device => exact absurd hp h
  | rows =>
    obtain ⟨hx, _⟩ := rows_bounds x hp
    have e : x + i - localBase = x - localBase + i := by omega
    simp only [e, rowWindowKey_row (x - localBase) i (by omega)]
    exact Mem.read_writeBytes_same _ _ _ _ hi
  | scratch j =>
    obtain ⟨hx, _⟩ := scratch_bounds x j hp
    have : (x + i - localBase) % 0x100000 = (x - localBase) % 0x100000 + i := by omega
    simp only [this, ← Nat.add_assoc]
    show (frontEnd (setFrontEnd s (feOf s.hart.slot) _) (feOf s.hart.slot)).scratch.read _ = _
    rw [frontEnd_set_same]
    exact Mem.read_writeBytes_same _ _ _ _ hi
  | scalarMem =>
    obtain ⟨hx, hy⟩ := scalarMem_bounds x hp
    have : x + i - localBase - 0x800000 = x - localBase - 0x800000 + i := by omega
    simp only [this]
    show (frontEnd (setFrontEnd s (feOf s.hart.slot) _) (feOf s.hart.slot)).sdm.read _ = _
    rw [frontEnd_set_same]
    exact Mem.read_writeBytes_same _ _ _ _ hi
  | _ =>
    simp only [canon_row x i hrow]
    exact Mem.read_writeBytes_same _ _ _ _ hi

/-- Addresses whose bytes share no storage with a run: the other name of a DRAM byte counts as the byte (R66). -/
def Apart (x n y : Nat) : Prop := ∀ i, i < n → canon y ≠ canon (x + i)

theorem apart_canon (x n y : Nat) (hr : OneRow x n) (h : Apart x n y) : canon y < canon x ∨ canon x + n ≤ canon y := by
  apply Decidable.byContradiction
  intro hc
  have h1 : canon x ≤ canon y ∧ canon y < canon x + n := by omega
  have := h (canon y - canon x) (by omega)
  rw [canon_row x _ (by unfold OneRow at hr; omega)] at this
  omega

theorem canon_local (x : Nat) (h : placeOf x ≠ .striped) : canon x = x := if_neg h

/-- Every other byte reads as before: a byte of the rows, of a scratchpad, of a scalar memory, of system memory. -/
theorem storeBytes_other_rows (s : State) (x : Nat) (bs : List Byte) (y : Nat) (hq : placeOf y = .rows)
    (h : placeOf x ≠ .device) (hr : OneRow x bs.length) (hc : canon y < canon x ∨ canon x + bs.length ≤ canon y) :
    (storeBytes s x bs).hart.rows.read (rowWindowKey (y - localBase)) = s.hart.rows.read (rowWindowKey (y - localBase)) := by
  have e7 : localBase % 256 = 0 := by decide
  have hrow : x % 256 + bs.length ≤ 256 := hr
  unfold storeBytes
  cases hp : placeOf x with
  | device => exact absurd hp h
  | rows =>
    rw [canon_local x (by rw [hp]; intro hh; cases hh), canon_local y (by rw [hq]; intro hh; cases hh)] at hc
    obtain ⟨hx, _⟩ := rows_bounds x hp
    obtain ⟨hy, _⟩ := rows_bounds y hq
    refine Mem.read_writeBytes_other _ _ _ _ ?_
    unfold rowWindowKey
    omega
  | _ => rfl

theorem storeBytes_other_scratch (s : State) (x : Nat) (bs : List Byte) (y k : Nat) (hq : placeOf y = .scratch k)
    (h : placeOf x ≠ .device) (hr : OneRow x bs.length) (hc : canon y < canon x ∨ canon x + bs.length ≤ canon y) (n : Nat)
    (hn : n = k * 0x100000 + (y - localBase) % 0x100000) :
    (frontEnd (storeBytes s x bs) (feOf s.hart.slot)).scratch.read n = (frontEnd s (feOf s.hart.slot)).scratch.read n := by
  have e8 : localBase % 0x100000 = 0 := by decide
  have hrow : x % 256 + bs.length ≤ 256 := hr
  unfold storeBytes
  cases hp : placeOf x with
  | device => exact absurd hp h
  | scratch j =>
    rw [canon_local x (by rw [hp]; intro hh; cases hh), canon_local y (by rw [hq]; intro hh; cases hh)] at hc
    obtain ⟨hx, hx1, hx2, hj⟩ := scratch_bounds x j hp
    obtain ⟨hy, hy1, hy2, hk⟩ := scratch_bounds y k hq
    simp only [frontEnd_set_same]
    refine Mem.read_writeBytes_other _ _ _ _ ?_
    omega
  | scalarMem => simp only [frontEnd_set_same]
  | _ => rfl

theorem storeBytes_other_sdm (s : State) (x : Nat) (bs : List Byte) (y : Nat) (hq : placeOf y = .scalarMem)
    (h : placeOf x ≠ .device) (hc : canon y < canon x ∨ canon x + bs.length ≤ canon y) (n : Nat)
    (hn : n = y - localBase - 0x800000) :
    (frontEnd (storeBytes s x bs) (feOf s.hart.slot)).sdm.read n = (frontEnd s (feOf s.hart.slot)).sdm.read n := by
  unfold storeBytes
  cases hp : placeOf x with
  | device => exact absurd hp h
  | scratch j => simp only [frontEnd_set_same]
  | scalarMem =>
    rw [canon_local x (by rw [hp]; intro hh; cases hh), canon_local y (by rw [hq]; intro hh; cases hh)] at hc
    obtain ⟨hx, hx1⟩ := scalarMem_bounds x hp
    obtain ⟨hy, hy1⟩ := scalarMem_bounds y hq
    simp only [frontEnd_set_same]
    refine Mem.read_writeBytes_other _ _ _ _ ?_
    omega
  | _ => rfl

theorem storeBytes_other_mem (s : State) (x : Nat) (bs : List Byte) (n : Nat) (h : placeOf x ≠ .device)
    (hc : n < canon x ∨ canon x + bs.length ≤ n) : (storeBytes s x bs).mem.read n = s.mem.read n := by
  unfold storeBytes
  cases hp : placeOf x with
  | device => exact absurd hp h
  | rows => rfl
  | scratch _ => rfl
  | scalarMem => rfl
  | _ => exact Mem.read_writeBytes_other _ _ _ _ hc

/-- Every byte that shares no storage with the stored run reads as before. -/
theorem storeBytes_other (s : State) (x : Nat) (bs : List Byte) (y : Nat) (h : placeOf x ≠ .device)
    (hr : OneRow x bs.length) (ha : Apart x bs.length y) : readByte (storeBytes s x bs) y = readByte s y := by
  have hc := apart_canon x bs.length y hr ha
  have ho := storeBytes_only s x bs h
  have hslot : (storeBytes s x bs).hart.slot = s.hart.slot := congrArg (fun z => z.hart.slot) ho.rest
  unfold readByte
  rw [hslot]
  cases hq : placeOf y with
  | device => exact ho.deviceByte _
  | rows => exact storeBytes_other_rows s x bs y hq h hr hc
  | scratch k => exact storeBytes_other_scratch s x bs y k hq h hr hc _ rfl
  | scalarMem => exact storeBytes_other_sdm s x bs y hq h hc _ rfl
  | _ => exact storeBytes_other_mem s x bs _ h hc

end Sys2Proof.Machine
end

