-- ==== Sys2Proof/Laws/Scalar.lean ====
section
/-!
SUPPORT. What the shared operations of the scalar instructions do: loads, stores, branches, traps and the return from one.
-/

namespace Sys2Proof.Machine

/-! ### Checks -/

/-- Checks that pass whole pass at issue, and the far side answers. -/
theorem checkFull_ok (s : State) (k : Acc) (tag : BitVec 8) (a n al : Nat) (h : checkFull s k tag a n al = .ok ()) :
    checkIssue s k tag a n al = .ok () ∧ farError s k a = none := by
  unfold checkFull at h
  cases h1 : checkIssue s k tag a n al with
  | error e => rw [h1] at h; cases h
  | ok u =>
    rw [h1] at h
    cases h2 : farError s k a with
    | none => exact ⟨rfl, rfl⟩
    | some e => rw [h2] at h; cases h

/-- A store that passes whole passes the checks of a store. -/
theorem checkStore_ok (s : State) (tag : BitVec 8) (x n al : Nat) (h : checkFull s .store tag x n al = .ok ()) :
    checkStore s tag x n al = .ok () := by
  obtain ⟨h1, h2⟩ := checkFull_ok s _ tag x n al h
  unfold checkStore
  rw [h1, h2]
  rfl

theorem lateError_none (s : State) (k : Acc) (x : Nat) (h : farError s k x = none) : lateError s k x = false := by
  unfold lateError
  rw [h]

/-! ### Loads and stores -/

/-- An admitted load writes the value read, with its ID and the set of its address register (R112, R130). -/
theorem scalarLoad_reads (s : State) (len : Nat) (d a : Reg) (off : Word) (sz : Nat) (conv : Nat → Word)
    (h : Readable s a (effAddr s a off) sz) :
    ∃ t, scalarLoad s len d a off sz conv = .next t ∧
      Wrote (takeId s) t len d
        (result (conv (readNat s (effAddr s a off) sz)) ((gpr (takeId s) a).lease.withId s.hart.leaseNext)) := by
  unfold scalarLoad
  simp only [h.checks, h.ready, h.described, h.clean, Bool.false_eq_true, if_false]
  exact finish_wrote _ _ _ _

/-- An admitted store performs at once (R112). -/
theorem scalarStore_stores (s : State) (len : Nat) (b a : Reg) (off : Word) (sz : Nat)
    (h : Storable s a (effAddr s a off) sz (storeData s b sz)) :
    scalarStore s len b a off sz = .next (advance len (storeBytes s (effAddr s a off) (storeData s b sz))) := by
  unfold scalarStore
  simp only [checkStore_ok s _ _ _ _ h.checks, checked, mayPost, h.atOnce, h.ready, h.described, h.taken, Bool.false_and,
    Bool.false_eq_true, if_false]
  unfold issueStore
  rw [lateError_none s _ _ (checkFull_ok s _ _ _ _ _ h.checks).2]
  rfl

/-- An admitted release that has nothing to wait for performs, unless it is clamped. -/
theorem releaseStore_stores (s : State) (len : Nat) (b a : Reg) (off : Word) (sz : Nat)
    (h : Storable s a (effAddr s a off) sz (storeData s b sz)) (hq : quiet s = true)
    (hc : scopeLimited s = false ∨ (placeOf (effAddr s a off)).isSystem = false) :
    releaseStore s len b a off sz = .next (advance len (storeBytes s (effAddr s a off) (storeData s b sz))) := by
  have hn : ¬ ((placeOf (effAddr s a off)).isSystem = true ∧ scopeLimited s = true) := by
    rcases hc with hc | hc <;> simp [hc]
  have hf : tableFull s = false := (Bool.or_eq_false_iff.1 h.ready).2
  unfold releaseStore
  simp only [checkStore_ok s _ _ _ _ h.checks, checked, hq, hf, h.described, h.taken, Bool.not_true, Bool.or_self,
    Bool.false_eq_true, if_false, clampScope, if_neg hn]
  unfold issueStore
  rw [lateError_none s _ _ (checkFull_ok s _ _ _ _ _ h.checks).2]
  rfl

theorem leBytes_length (n x : Nat) : (leBytes n x).length = n := by
  induction n generalizing x with
  | zero => rfl
  | succ n ih => simp [leBytes, ih]

/-- An aligned run of a power of two up to 16 bytes lies in one row. -/
theorem oneRow_of_aligned (x n : Nat) (h : x % n = 0) (hn : n = 1 ∨ n = 2 ∨ n = 4 ∨ n = 8 ∨ n = 16) : OneRow x n := by
  unfold OneRow
  rcases hn with rfl | rfl | rfl | rfl | rfl <;> omega

/-- A checked access is aligned (R72 check 4). -/
theorem checkIssue_aligned (s : State) (k : Acc) (tag : BitVec 8) (a n al : Nat) (h : checkIssue s k tag a n al = .ok ()) :
    a % al = 0 := by
  unfold checkIssue checkAccess at h
  cases h1 : checkSlot s k tag a n with
  | error e => rw [h1] at h; cases h
  | ok u =>
    rw [h1] at h
    apply Decidable.byContradiction
    intro hc
    unfold checkAlign at h
    rw [if_neg hc] at h
    cases h

/-! ### Status (R347, R349) -/

theorem and_high (st : BitVec 12) : (st &&& 0xE00).toNat = st.toNat / 512 * 512 := by
  have h : (st &&& 0xE00 : BitVec 12) = (st >>> 9) <<< 9 := by
    apply BitVec.eq_of_getLsbD_eq
    intro i hi
    have : i = 0 ∨ i = 1 ∨ i = 2 ∨ i = 3 ∨ i = 4 ∨ i = 5 ∨ i = 6 ∨ i = 7 ∨ i = 8 ∨ i = 9 ∨ i = 10 ∨ i = 11 := by omega
    rcases this with h | h | h | h | h | h | h | h | h | h | h | h <;> subst h <;> simp
  rw [h, BitVec.toNat_shiftLeft, BitVec.toNat_ushiftRight, Nat.shiftLeft_eq, Nat.shiftRight_eq_div_pow]
  have := st.isLt
  omega

theorem or_low (x : BitVec 12) (v : Nat) (hv : v < 512) :
    ((x &&& 0xE00) ||| BitVec.ofNat 12 v).toNat = x.toNat / 512 * 512 + v := by
  have hd : (x &&& 0xE00) &&& BitVec.ofNat 12 v = 0 := by
    apply BitVec.eq_of_getLsbD_eq
    intro i hi
    by_cases h9 : i < 9
    · have : i = 0 ∨ i = 1 ∨ i = 2 ∨ i = 3 ∨ i = 4 ∨ i = 5 ∨ i = 6 ∨ i = 7 ∨ i = 8 := by omega
      rcases this with h | h | h | h | h | h | h | h | h <;> subst h <;> simp
    · have : v.testBit i = false :=
        Nat.testBit_lt_two_pow (Nat.lt_of_lt_of_le (m := 2 ^ 9) hv (Nat.pow_le_pow_right (by omega) (by omega : 9 ≤ i)))
      simp [BitVec.getLsbD_ofNat, this]
  rw [← BitVec.add_eq_or_of_and_eq_zero _ _ hd, BitVec.toNat_add, and_high, BitVec.toNat_ofNat]
  have := x.isLt
  omega

theorem bit_eq {w : Nat} (x : BitVec w) (i : Nat) : bit x i = decide (x.toNat / 2 ^ i % 2 = 1) := by
  unfold bit
  rw [BitVec.getLsbD, Nat.testBit_eq_decide_div_mod_eq]

theorem b2n_lt (b : Bool) : b2n b < 2 := by cases b <;> decide

theorem b2n_eq_one (b : Bool) : decide (b2n b = 1) = b := by cases b <;> rfl

/-- The fields of a status that is put together from its parts. -/
theorem status_parts (x : BitVec 12) (hi nw m b c : Nat) (hm : m < 4) (hnw : nw < 4) (hb : b < 2) (hc : c < 2)
    (h9 : hi < 8) (h : x.toNat = hi * 512 + (nw * 32 + m * 8 + b * 4 + c)) :
    field x 3 2 = m ∧ bit x 2 = decide (b = 1) ∧ bit x 1 = false ∧ bit x 0 = decide (c = 1) ∧ field x 9 3 = hi ∧
      field x 5 2 = nw := by
  simp only [bit_eq, field, h]
  refine ⟨by omega, ?_, ?_, ?_, by omega, by omega⟩
  · congr 1; rw [eq_iff_iff]; constructor <;> (intro; omega)
  · rw [decide_eq_false_iff_not]; omega
  · congr 1; rw [eq_iff_iff]; constructor <;> (intro; omega)

/-- The fields of `status` after a trap entry (R347). -/
theorem entryStatus_fields (st : BitVec 12) :
    field (entryStatus st) 3 2 = field st 5 2 ∧ bit (entryStatus st) 2 = bit st 1 ∧ bit (entryStatus st) 1 = false ∧
      bit (entryStatus st) 0 = true ∧ field (entryStatus st) 9 3 = field st 9 3 ∧
      field (entryStatus st) 5 2 = if field st 5 2 = modeU then modeS else field st 5 2 := by
  have hmd : field st 5 2 < 4 := Nat.mod_lt _ (Nat.two_pow_pos 2)
  have hb := b2n_lt (bit st 1)
  have hnew : (if field st 5 2 = modeU then modeS else field st 5 2) < 4 := by split <;> first | decide | exact hmd
  have he : (entryStatus st).toNat = st.toNat / 512 * 512 +
      ((if field st 5 2 = modeU then modeS else field st 5 2) * 32 + field st 5 2 * 8 + b2n (bit st 1) * 4 + 1) :=
    or_low st _ (by omega)
  have hst := st.isLt
  have h := status_parts (entryStatus st) (st.toNat / 512) _ _ _ 1 hmd hnew hb (by decide) (by omega) he
  refine ⟨h.1, h.2.1.trans (b2n_eq_one _), h.2.2.1, h.2.2.2.1, h.2.2.2.2.1.trans ?_, h.2.2.2.2.2⟩
  unfold field
  omega

/-- Only the copies, their interlock entries and the hart's barriers differ. -/
def SameButCopies (s t : State) : Prop :=
  ∃ b cs es, t = { s with hart := { s.hart with csr := { s.hart.csr with cpb := b } }, copies := cs, entries := es }

theorem withdrawCopy_frame (s t : State) (c : Copy) (h : SameButCopies s t) : SameButCopies s (withdrawCopy t c) := by
  obtain ⟨b, cs, es, rfl⟩ := h
  exact ⟨_, _, _, rfl⟩

/-- Dropping the copies that stand in the queue touches them, their entries and the barriers alone (R315). -/
theorem withdrawQueued_frame (s : State) : SameButCopies s (withdrawQueued s) := by
  unfold withdrawQueued
  have h : ∀ (l : List Copy) (t : State), SameButCopies s t → SameButCopies s (l.foldl withdrawCopy t) := by
    intro l
    induction l with
    | nil => exact fun t h => h
    | cons c l ih => exact fun t h => ih _ (withdrawCopy_frame s t c h)
  exact h _ s ⟨_, _, _, rfl⟩

/-- A trap entry does what R347 says. -/
theorem takeTrap_enters (s : State) (async : Bool) (code : Nat) (tval epc : Word) (hf : s.hart.phase ≠ .free) :
    Entered s (takeTrap s async code tval epc) async code tval epc := by
  obtain ⟨b, cs, es, hw⟩ := withdrawQueued_frame s
  have hs := entryStatus_fields s.hart.csr.status
  unfold takeTrap
  rw [hw]
  exact
    { epc := rfl
      cause := by cases async <;> simp [b2n]
      tval := rfl
      pc := rfl
      pm := hs.1
      paie := hs.2.1
      aie := hs.2.2.1
      h := hs.2.2.2.1
      mode := hs.2.2.2.2.2
      high := hs.2.2.2.2.1
      regs := rfl
      regions := rfl
      aside := rfl
      memory := fun a => readByte_congr s _ a rfl rfl rfl rfl fun r =>
        devValue_congr s _ r rfl rfl rfl rfl rfl (contextOf_slot_congr s _ rfl rfl (by simp [hf]) rfl rfl) }

/-- A synchronous cause outside a handler is taken as a trap at the instruction. -/
theorem raise_enters (s : State) (e : Exc) (hf : s.hart.phase ≠ .free) (hst : s.hart.stopped = false)
    (hh : bit s.hart.csr.status 0 = false) :
    ∃ t, raise s e = .next t ∧ Entered s t false e.code e.tval s.hart.pc := by
  refine ⟨_, rfl, ?_⟩
  unfold trap
  rw [hst, hh]
  exact takeTrap_enters s false e.code e.tval s.hart.pc hf

end Sys2Proof.Machine
end

