-- ==== Sys2Proof/Laws/Canonical.lean ====
section
/-!
SUPPORT. System memory and what the instruction caches see keep their canonical form under the shared operations.
-/

namespace Sys2Proof.Machine

/-- System memory and what every instruction cache holds are in canonical form. -/
abbrev Canonical (s : State) : Prop := s.mem.wf ∧ ∀ id, (frontEnd s id).imem.wf

theorem Mem.wf_splice (m cs : Mem) (a n : Nat) (hm : m.wf) (hc : cs.wf) : (m.splice a n cs).wf := by
  unfold Mem.splice
  constructor
  · rw [List.pairwise_append, List.pairwise_append]
    refine ⟨⟨hm.1.filter _, ?_, ?_⟩, hm.1.filter _, ?_⟩
    · rw [List.pairwise_map]
      exact (hc.1.filter _).imp fun h => by simpa using h
    · intro c h d h'
      obtain ⟨x, _, rfl⟩ := List.mem_map.1 h'
      have := (List.mem_filter.1 h).2
      simp only [decide_eq_true_eq] at this ⊢
      omega
    · intro c h d h'
      have hd := (List.mem_filter.1 h').2
      simp only [decide_eq_true_eq] at hd
      rcases List.mem_append.1 h with h | h
      · have := (List.mem_filter.1 h).2
        simp only [decide_eq_true_eq] at this
        omega
      · obtain ⟨x, hx, rfl⟩ := List.mem_map.1 h
        have := (List.mem_filter.1 hx).2
        simp only [decide_eq_true_eq] at this ⊢
        omega
  · intro c h
    rcases List.mem_append.1 h with h | h
    · rcases List.mem_append.1 h with h | h
      · exact hm.2 c (List.mem_filter.1 h).1
      · obtain ⟨x, hx, rfl⟩ := List.mem_map.1 h
        exact hc.2 x (List.mem_filter.1 hx).1
    · exact hm.2 c (List.mem_filter.1 h).1

theorem Mem.wf_foldl_write {α : Type} (l : List α) (k : α → Nat) (v : α → Byte) (m : Mem) (h : m.wf) :
    (l.foldl (fun m c => m.write (k c) (v c)) m).wf := by
  induction l generalizing m with
  | nil => exact h
  | cons c l ih => exact ih _ (Mem.wf_write m _ _ h)

/-! ### Operations that leave both memories alone, or write bytes to one -/

theorem canonical_of_eq {s t : State} (hm : t.mem = s.mem) (hf : t.fes = s.fes) (h : Canonical s) : Canonical t := by
  unfold Canonical frontEnd
  rw [hm, hf]
  exact h

/-- Another front end in the place of one keeps the form if its cache does. -/
theorem canonical_setFrontEnd (s : State) (id : Nat) (f : FrontEnd) (h : Canonical s) (hf : f.imem.wf) :
    Canonical (setFrontEnd s id f) := by
  refine ⟨h.1, fun k => ?_⟩
  by_cases hk : k = id
  · subst hk
    simpa [frontEnd, setFrontEnd, Tab.find_set_same] using hf
  · simpa [frontEnd, setFrontEnd, Tab.find_set_other _ _ _ _ hk] using h.2 k

/-- A fold keeps what each of its steps keeps. -/
theorem canonical_foldl {α : Type} (f : State → α → State) (l : List α) (s : State) (hf : ∀ t x, Canonical t → Canonical (f t x))
    (h : Canonical s) : Canonical (l.foldl f s) := by
  induction l generalizing s with
  | nil => exact h
  | cons x l ih => exact ih _ (hf s x h)

theorem canonical_writeBytes (s : State) (a : Nat) (bs : List Byte) (p : List Nat) (h : Canonical s) :
    Canonical { s with mem := s.mem.writeBytes a bs, poison := p } := ⟨Mem.wf_writeBytes bs _ _ h.1, h.2⟩

theorem canonical_devWrite (s : State) (r : DevReg) (v : Word) (h : Canonical s) : Canonical (devWrite s r v) := by
  cases r <;> try exact h
  simp only [devWrite]
  split <;> exact h

theorem canonical_deviceStore (s : State) (o : Nat) (bs : List Byte) (h : Canonical s) : Canonical (deviceStore s o bs) := by
  refine canonical_foldl _ _ s (fun t i ht => ?_) h
  simp only
  split
  · exact canonical_devWrite t _ _ ht
  · exact ht

theorem canonical_storeBytes (s : State) (a : Nat) (bs : List Byte) (h : Canonical s) : Canonical (storeBytes s a bs) := by
  unfold storeBytes
  split
  · exact h
  · exact canonical_setFrontEnd s _ _ h (h.2 _)
  · exact canonical_setFrontEnd s _ _ h (h.2 _)
  · exact canonical_deviceStore s _ _ h
  · exact canonical_writeBytes s _ _ _ h

theorem canonical_poisonBytes (s : State) (a n : Nat) (h : Canonical s) : Canonical (poisonBytes s a n) := by
  unfold poisonBytes
  split
  · exact h
  · exact canonical_setFrontEnd s _ _ h (h.2 _)
  all_goals exact h

theorem canonical_storeRun (s : State) (a : Nat) (bs : List (Byte × Bool)) (h : Canonical s) : Canonical (storeRun s a bs) := by
  refine canonical_foldl _ _ _ (fun t x ht => ?_) (canonical_storeBytes s a _ h)
  split
  · exact canonical_poisonBytes t _ _ ht
  · exact ht

theorem canonical_homeStore (s : State) (a : Nat) (bs : List Byte) (h : Canonical s) : Canonical (homeStore s a bs) :=
  canonical_writeBytes s _ _ _ h

theorem canonical_storePieces (k : Nat) (s : State) (a : Nat) (bs : List (Byte × Bool)) (h : Canonical s) :
    Canonical (storePieces s a k bs) := by
  induction k generalizing s a bs with
  | zero => exact h
  | succ k ih => exact ih _ _ _ (canonical_storeRun s a _ h)

theorem canonical_storeBlocks (s : State) (k a : Nat) (bs : List Byte) (h : Canonical s) : Canonical (storeBlocks s k a bs) := by
  induction k generalizing s a bs with
  | zero => exact h
  | succ k ih =>
    simp only [storeBlocks]
    split
    · exact h
    · exact ih _ _ _ (canonical_storeBytes s _ _ h)

theorem canonical_serviceWrite (s : State) (a : Nat) (bs : List Byte) (h : Canonical s) : Canonical (serviceWrite s a bs) :=
  canonical_storeBlocks s _ a bs h

theorem canonical_logEntry (s : State) (p c k : Nat) (x : Word) (g : Hart) (h : Canonical s) : Canonical (logEntry s p c k x g) := by
  unfold logEntry
  simp only
  split
  · exact h
  · exact canonical_writeBytes (setPart s p _) _ _ _ h

theorem canonical_writeArea (s : State) (g : Hart) (h : Canonical s) : Canonical (writeArea s g) := by
  unfold writeArea
  refine canonical_of_eq (s := List.foldl _ s _) rfl rfl (canonical_foldl _ _ s (fun t i ht => ?_) h)
  exact ⟨Mem.wf_splice t.mem _ _ _ ht.1 (Mem.wf_foldl_write _ _ _ _ Mem.wf_nil), ht.2⟩

theorem wf_applyCopy (sat : Bool) (w : AccWin) (k : Nat) (m : Mem × Flags) (h : m.1.wf) : (applyCopy sat w k m).1.wf := by
  unfold applyCopy
  simp only
  generalize List.range _ = l
  induction l generalizing m with
  | nil => exact h
  | cons i l ih => exact ih _ (Mem.wf_writeBytes _ _ _ h)

/-! ### The end of a hart, traps -/

theorem canonical_settleReserves (s : State) (k : Nat) (h : Canonical s) : Canonical (settleReserves s k) := by
  refine canonical_foldl _ _ s (fun t g ht => ?_) h
  split <;> exact ht

theorem canonical_dropGangs (s : State) (k : Nat) (h : Canonical s) : Canonical (dropGangs s k) :=
  canonical_settleReserves _ k h

theorem canonical_retireGang (s : State) (k n : Nat) (h : Canonical s) : Canonical (retireGang s k n) := by
  unfold retireGang
  simp only
  split
  · exact canonical_dropGangs s k h
  · exact canonical_dropGangs _ k h

theorem canonical_completeGeneration (s : State) (g : Gang) (l : List Hart) (h : Canonical s) : Canonical (completeGeneration s g l) := by
  unfold completeGeneration
  simp only
  repeat' first | exact h | split

theorem canonical_checkBarrier (s : State) (k n : Nat) (h : Canonical s) : Canonical (checkBarrier s k n) := by
  unfold checkBarrier
  split
  · exact h
  · simp only
    split
    · exact h
    · exact canonical_completeGeneration s _ _ h

theorem canonical_leaveBarrier (s : State) (k n c : Nat) (h : Canonical s) : Canonical (leaveBarrier s k n c) := by
  unfold leaveBarrier
  split
  · exact h
  · exact canonical_checkBarrier _ _ _ h

theorem canonical_breakBarrier (s : State) (k n c : Nat) (h : Canonical s) : Canonical (breakBarrier s k n c) := by
  unfold breakBarrier
  split
  · exact h
  · split
    · exact canonical_leaveBarrier s k n c h
    · exact h

theorem canonical_performPosted (s : State) (h : Canonical s) : Canonical (performPosted s) := by
  refine canonical_foldl _ _ s (fun t p ht => ?_) h
  split
  · exact ht
  · exact canonical_storeBytes t _ _ ht

theorem canonical_dropHart (s : State) (h : Canonical s) : Canonical (dropHart s) := by
  have : Canonical (((performPosted s).moves.filter (·.manager == (performPosted s).hart.cid)).foldl releaseMove (performPosted s)) :=
    canonical_foldl _ _ _ (fun _ _ ht => ht) (canonical_performPosted s h)
  exact canonical_retireGang _ _ _ (canonical_breakBarrier _ _ _ _ this)

theorem canonical_withdrawQueued (s : State) (h : Canonical s) : Canonical (withdrawQueued s) := by
  obtain ⟨b, cs, es, hw⟩ := withdrawQueued_frame s
  rw [hw]
  exact h

theorem takeTrap_mem (s : State) (async : Bool) (code : Nat) (tval epc : Word) :
    (takeTrap s async code tval epc).mem = (withdrawQueued s).mem := by unfold takeTrap; rfl

theorem takeTrap_fes (s : State) (async : Bool) (code : Nat) (tval epc : Word) :
    (takeTrap s async code tval epc).fes = (withdrawQueued s).fes := by unfold takeTrap; rfl

theorem holdFault_mem (s : State) (e : Exc) : (holdFault s e).mem = (withdrawQueued s).mem := by unfold holdFault; rfl

theorem holdFault_fes (s : State) (e : Exc) : (holdFault s e).fes = (withdrawQueued s).fes := by unfold holdFault; rfl

theorem canonical_takeTrap (s : State) (async : Bool) (code : Nat) (tval epc : Word) (h : Canonical s) :
    Canonical (takeTrap s async code tval epc) :=
  canonical_of_eq (takeTrap_mem s async code tval epc) (takeTrap_fes s async code tval epc) (canonical_withdrawQueued s h)

theorem canonical_holdFault (s : State) (e : Exc) (h : Canonical s) : Canonical (holdFault s e) :=
  canonical_of_eq (holdFault_mem s e) (holdFault_fes s e) (canonical_withdrawQueued s h)

theorem canonical_terminateHart (s : State) (c : Nat) (h : Canonical s) : Canonical (terminateHart s c) :=
  canonical_dropHart _ (canonical_logEntry s _ _ _ _ _ h)

theorem canonical_trap (s : State) (e : Exc) (h : Canonical s) : Canonical (trap s e) := by
  unfold trap
  split
  · exact canonical_holdFault s e h
  · split
    · exact canonical_terminateHart s _ h
    · exact canonical_takeTrap s _ _ _ _ h

theorem canonical_takeAsync (s : State) (h : Canonical s) : Canonical (takeAsync s) := by
  unfold takeAsync
  split
  · exact h
  · simp only
    split <;> exact canonical_takeTrap _ _ _ _ _ h

theorem canonical_setGpr (s : State) (d : Reg) (v : GReg) (h : Canonical s) : Canonical (setGpr s d v) := by
  unfold setGpr
  split <;> exact h

theorem canonical_scalarResult (s : State) (d : Reg) (v : GReg) (h : Canonical s) : Canonical (scalarResult s d v) := by
  unfold scalarResult
  split
  · exact h
  · exact canonical_setGpr s d v h

theorem canonical_stopNow (s : State) (h : Canonical s) : Canonical (stopNow s) := by
  unfold stopNow
  split <;> exact h

theorem canonical_branchTo (s : State) (a : Word) (h : Canonical s) : Canonical (branchTo s a) := by
  unfold branchTo
  split
  · exact canonical_stopNow _ h
  · exact h

/-! ### Outcomes -/

/-- If the outcome is a next state, its memories are in canonical form. -/
def Keeps (o : Out) : Prop := ∀ t, o = .next t → Canonical t

theorem keeps_next {s : State} (h : Canonical s) : Keeps (.next s) := fun _ e => Host.Outcome.next.inj e ▸ h

theorem keeps_fault (e : Fault) : Keeps (.fault e) := fun _ h => nomatch h

theorem keeps_refused (e : Refusal) : Keeps (.refused e) := fun _ h => nomatch h

theorem keeps_raise (s : State) (e : Exc) (h : Canonical s) : Keeps (raise s e) := keeps_next (canonical_trap s e h)

theorem keeps_checked {α : Type} (s : State) (x : Except Exc α) (f : α → Out) (h : Canonical s) (hf : ∀ a, Keeps (f a)) :
    Keeps (checked s x f) := by
  cases x with
  | ok a => exact hf a
  | error e => exact keeps_raise s e h

/-- An operation that keeps the form for every current hart keeps it for a context that is brought up for it. -/
theorem keeps_asHart (s : State) (c : Nat) (f : State → Out) (h : Canonical s) (hf : ∀ u, Canonical u → Keeps (f u)) :
    Keeps (asHart s c f) := by
  unfold asHart
  split
  · exact hf s h
  · split
    · exact keeps_next h
    · rename_i g _
      simp only
      generalize hu : ({ s with hart := g, others := _, saved := _ } : State) = u
      have hk := hf u (by rw [← hu]; exact h)
      generalize f u = o at hk ⊢
      cases o with
      | next t => exact keeps_next (canonical_of_eq rfl rfl (hk t rfl))
      | fault e => exact keeps_fault e
      | refused e => exact keeps_refused e

end Sys2Proof.Machine
end

