-- ==== Sys2Proof/Laws/Int.lean ====
section
/-!
SUPPORT. The integer results of R105 and R106 in the operations of bit vectors.
-/

namespace Sys2Proof.Machine

/-- The high half of a signed product is that of the product of the sign-extended operands. -/
theorem mulHigh_eq (x y : Word) : mulHigh x y = ((x.signExtend 128 * y.signExtend 128) >>> 64).truncate 64 := by
  apply BitVec.eq_of_toNat_eq
  have hp : x.signExtend 128 * y.signExtend 128 = BitVec.ofInt 128 (x.toInt * y.toInt) := by
    apply BitVec.eq_of_toInt_eq
    rw [BitVec.toInt_mul, BitVec.toInt_signExtend_of_le (by decide), BitVec.toInt_signExtend_of_le (by decide), BitVec.toInt_ofInt]
  rw [hp]
  unfold mulHigh
  generalize x.toInt * y.toInt = p
  rw [BitVec.truncate, BitVec.toNat_setWidth, BitVec.toNat_ushiftRight, BitVec.toNat_ofInt, BitVec.toNat_ofInt,
    Nat.shiftRight_eq_div_pow]
  omega

/-- The high half of an unsigned product. -/
theorem mulHighNat_eq (x y : Word) : mulHighNat x y = ((x.zeroExtend 128 * y.zeroExtend 128) >>> 64).truncate 64 := by
  apply BitVec.eq_of_toNat_eq
  unfold mulHighNat
  have h : x.toNat * y.toNat < 2 ^ 128 := Nat.lt_of_lt_of_le (Nat.mul_lt_mul'' x.isLt y.isLt) (by decide)
  have hx : x.toNat % 2^128 = x.toNat := Nat.mod_eq_of_lt (Nat.lt_of_lt_of_le x.isLt (by decide))
  have hy : y.toNat % 2^128 = y.toNat := Nat.mod_eq_of_lt (Nat.lt_of_lt_of_le y.isLt (by decide))
  simp only [BitVec.truncate, BitVec.toNat_setWidth, BitVec.toNat_ofNat, BitVec.toNat_ushiftRight, BitVec.toNat_mul, BitVec.zeroExtend, hx, hy, Nat.mod_eq_of_lt h, Nat.shiftRight_eq_div_pow]

/-- Comparisons as register values. -/
theorem slt_eq (x y : Word) : boolWord (x.slt y) = if x.toInt < y.toInt then 1 else 0 := by
  unfold boolWord BitVec.slt; simp

theorem ult_eq (x y : Word) : boolWord (x.ult y) = if x.toNat < y.toNat then 1 else 0 := by
  unfold boolWord BitVec.ult; simp

/-- Division by zero gives all ones, else the quotient towards zero (R106). -/
theorem divSigned_eq (x y : Word) : divSigned x y = if y = 0 then 0xFFFFFFFFFFFFFFFF else x.sdiv y := by
  unfold divSigned
  split
  · rfl
  · apply BitVec.eq_of_toInt_eq
    rw [BitVec.toInt_ofInt, BitVec.toInt_sdiv]

theorem divNat_eq (x y : Word) : divNat x y = if y = 0 then 0xFFFFFFFFFFFFFFFF else x / y := by
  unfold divNat
  split
  · rfl
  · apply BitVec.eq_of_toNat_eq
    rw [BitVec.toNat_ofNat, BitVec.toNat_udiv]
    exact Nat.mod_eq_of_lt (Nat.lt_of_le_of_lt (Nat.div_le_self _ _) x.isLt)

/-- Least and greatest. -/
theorem min_eq (x y : Word) : (if y.slt x then y else x) = if x.toInt ≤ y.toInt then x else y := by
  unfold BitVec.slt; simp only [decide_eq_true_eq]
  split <;> split <;> first | rfl | (exfalso; omega)

theorem max_eq (x y : Word) : (if x.slt y then y else x) = if x.toInt ≤ y.toInt then y else x := by
  unfold BitVec.slt; simp only [decide_eq_true_eq]
  split <;> split <;> first | rfl | (exfalso; omega) | skip
  apply BitVec.eq_of_toInt_eq; omega

theorem minn_eq (x y : Word) : (if y.ult x then y else x) = if x.toNat ≤ y.toNat then x else y := by
  unfold BitVec.ult; simp only [decide_eq_true_eq]
  split <;> split <;> first | rfl | (exfalso; omega)

theorem maxn_eq (x y : Word) : (if x.ult y then y else x) = if x.toNat ≤ y.toNat then y else x := by
  unfold BitVec.ult; simp only [decide_eq_true_eq]
  split <;> split <;> first | rfl | (exfalso; omega) | skip
  apply BitVec.eq_of_toNat_eq; omega

end Sys2Proof.Machine
end

