-- ==== Sys2Proof/Laws/PerInstr.lean ====
section
/-!
SUPPORT. What holds of every instruction as syntax, one lemma for each constructor: its word fits its length, and the low bits
of its first halfword tell that length (R83).
-/

namespace Sys2Proof

theorem below {a b c : Nat} (h : a < b) (k : b ≤ c) : a < c := Nat.lt_of_lt_of_le h k

theorem VOp.field_lt (b : VOp) : b.field < 32 := by cases b <;> exact BitVec.isLt _

theorem VOp.opf_lt (b : VOp) : b.opf < 4 := by cases b <;> simp [VOp.opf]

theorem FenceScope.code_lt (s : FenceScope) : s.code < 8 := by cases s <;> decide

theorem MemW.code_lt (w : MemW) : w.code < 4 := by cases w <;> decide

theorem ElemTy.code_lt (t : ElemTy) : t.code < 16 := by cases t <;> decide

theorem AmoSz.code_lt (z : AmoSz) : z.code < 2 := by cases z <;> decide

/-- A word of `n` bits whose first halfword gives that length (R83). -/
def WordFits (n w : Nat) : Prop := w < 2 ^ n ∧ lengthBits (w % 2 ^ 16) = n

theorem fits_base (w : Nat) (h : w < 2 ^ 32) (k : w % 4 = 1) : WordFits 32 w := by
  refine ⟨h, ?_⟩
  unfold lengthBits
  rw [if_neg (by omega), if_pos (by omega)]

theorem fits_compressed (w : Nat) (h : w < 2 ^ 16) (k : w % 2 = 0) : WordFits 16 w := by
  refine ⟨h, ?_⟩
  unfold lengthBits
  rw [if_pos (by omega)]

theorem fits_prefixed (w : Nat) (h : w < 2 ^ 64) (k : w % 4 = 3) : WordFits 64 w := by
  refine ⟨h, ?_⟩
  unfold lengthBits
  rw [if_neg (by omega), if_neg (by omega)]

theorem layR_fits {major d a b m fn : Nat} (h0 : major < 32) (h1 : d < 32) (h2 : a < 32) (h3 : b < 32) (h4 : m < 8) (h5 : fn < 128) :
    WordFits 32 (layR major d a b m fn) := by
  refine fits_base _ ?_ ?_ <;> unfold layR <;> omega

theorem layV_fits {major d a b m opf op : Nat} (h0 : major < 32) (h1 : d < 32) (h2 : a < 32) (h3 : b < 32) (h4 : m < 8) (h5 : opf < 4) (h6 : op < 32) :
    WordFits 32 (layV major d a b m opf op) := by
  refine fits_base _ ?_ ?_ <;> unfold layV <;> omega

theorem layVM_fits {major d a b m kind nf mw : Nat} (h0 : major < 32) (h1 : d < 32) (h2 : a < 32) (h3 : b < 32) (h4 : m < 8) (h5 : kind < 4) (h6 : nf < 8) (h7 : mw < 4) :
    WordFits 32 (layVM major d a b m kind nf mw) := by
  refine fits_base _ ?_ ?_ <;> unfold layVM <;> omega

theorem layI_fits {major d a fn imm : Nat} (h0 : major < 32) (h1 : d < 32) (h2 : a < 32) (h3 : fn < 8) (h4 : imm < 4096) :
    WordFits 32 (layI major d a fn imm) := by
  refine fits_base _ ?_ ?_ <;> unfold layI <;> omega

theorem layU_fits {major d imm : Nat} (h0 : major < 32) (h1 : d < 32) (h2 : imm < 1048576) :
    WordFits 32 (layU major d imm) := by
  refine fits_base _ ?_ ?_ <;> unfold layU <;> omega

theorem layA_fits {d a b op sz aq rl : Nat} (h0 : d < 32) (h1 : a < 32) (h2 : b < 32) (h3 : op < 16) (h4 : sz < 2) (h5 : aq < 2) (h6 : rl < 2) :
    WordFits 32 (layA d a b op sz aq rl) := by
  refine fits_base _ ?_ ?_ <;> unfold layA <;> omega

theorem layC0_fits {d e c vt : Nat} (h0 : d < 32) (h1 : e < 8) (h2 : c < 64) (h3 : vt < 1024) :
    WordFits 32 (layC0 d e c vt) := by
  refine fits_base _ ?_ ?_ <;> unfold layC0 <;> omega

theorem layC1_fits {d a b fn : Nat} (h0 : d < 32) (h1 : a < 32) (h2 : b < 32) (h3 : fn < 512) :
    WordFits 32 (layC1 d a b fn) := by
  refine fits_base _ ?_ ?_ <;> unfold layC1 <;> omega

theorem layM_fits {op ty acc m v vb rows ka kb : Nat} (h0 : op < 32) (h1 : ty < 16) (h2 : acc < 64) (h3 : m < 8) (h4 : v < 32) (h5 : vb < 32) (h6 : rows < 128) (h7 : ka < 8) (h8 : kb < 8) :
    WordFits 64 (layM op ty acc m v vb rows ka kb) := by
  refine fits_prefixed _ ?_ ?_ <;> unfold layM <;> omega

theorem layC8_fits {major d imm : Nat} (h0 : major < 8) (h1 : d < 32) (h2 : imm < 128) :
    WordFits 16 (layC8 major d imm) := by
  refine fits_compressed _ ?_ ?_ <;> unfold layC8 <;> omega

theorem layCR_fits {d a fn : Nat} (h0 : d < 32) (h1 : a < 32) (h2 : fn < 4) :
    WordFits 16 (layCR d a fn) := by
  refine fits_compressed _ ?_ ?_ <;> unfold layCR <;> omega

theorem layC3_fits {major d a off : Nat} (h0 : major < 8) (h1 : d < 8) (h2 : a < 8) (h3 : off < 64) :
    WordFits 16 (layC3 major d a off) := by
  refine fits_compressed _ ?_ ?_ <;> unfold layC3 <;> omega

theorem layCB_fits {a fn off : Nat} (h0 : a < 8) (h1 : fn < 2) (h2 : off < 256) :
    WordFits 16 (layCB a fn off) := by
  refine fits_compressed _ ?_ ?_ <;> unfold layCB <;> omega

theorem layC7_fits {sub rest : Nat} (h0 : sub < 8) (h1 : rest < 512) :
    WordFits 16 (layC7 sub rest) := by
  refine fits_compressed _ ?_ ?_ <;> unfold layC7 <;> omega

namespace Laws.Layout

/-- The word of an instruction that has an encoding fits the length that its first halfword gives. -/
def Statement (i : Instr) : Prop := isEncoded i = true → WordFits (encodedBits i) (encode i)

theorem of_word {i : Instr} (n w : Nat) (hn : encodedBits i = n) (hw : encode i = w) (h : WordFits n w) : Statement i :=
  fun _ => hn ▸ hw ▸ h

theorem of_event {i : Instr} (h : encodedBits i = 0) : Statement i := fun k => by
  simp [isEncoded, h] at k

theorem lhi (d : Reg) (imm : BitVec 20) : Statement (.lhi d imm) :=
  of_word 32 (layU 0 d.toNat imm.toNat) rfl rfl (layU_fits (by decide) (below d.isLt (by decide)) (below imm.isLt (by decide)))
theorem aupc (d : Reg) (imm : BitVec 20) : Statement (.aupc d imm) :=
  of_word 32 (layU 1 d.toNat imm.toNat) rfl rfl (layU_fits (by decide) (below d.isLt (by decide)) (below imm.isLt (by decide)))
theorem addi (d : Reg) (a : Reg) (imm : BitVec 12) : Statement (.addi d a imm) :=
  of_word 32 (layI 2 d.toNat a.toNat 0 imm.toNat) rfl rfl (layI_fits (by decide) (below d.isLt (by decide)) (below a.isLt (by decide)) (by decide) (below imm.isLt (by decide)))
theorem andi (d : Reg) (a : Reg) (imm : BitVec 12) : Statement (.andi d a imm) :=
  of_word 32 (layI 2 d.toNat a.toNat 1 imm.toNat) rfl rfl (layI_fits (by decide) (below d.isLt (by decide)) (below a.isLt (by decide)) (by decide) (below imm.isLt (by decide)))
theorem ori (d : Reg) (a : Reg) (imm : BitVec 12) : Statement (.ori d a imm) :=
  of_word 32 (layI 2 d.toNat a.toNat 2 imm.toNat) rfl rfl (layI_fits (by decide) (below d.isLt (by decide)) (below a.isLt (by decide)) (by decide) (below imm.isLt (by decide)))
theorem xori (d : Reg) (a : Reg) (imm : BitVec 12) : Statement (.xori d a imm) :=
  of_word 32 (layI 2 d.toNat a.toNat 3 imm.toNat) rfl rfl (layI_fits (by decide) (below d.isLt (by decide)) (below a.isLt (by decide)) (by decide) (below imm.isLt (by decide)))
theorem slti (d : Reg) (a : Reg) (imm : BitVec 12) : Statement (.slti d a imm) :=
  of_word 32 (layI 2 d.toNat a.toNat 6 imm.toNat) rfl rfl (layI_fits (by decide) (below d.isLt (by decide)) (below a.isLt (by decide)) (by decide) (below imm.isLt (by decide)))
theorem sltni (d : Reg) (a : Reg) (imm : BitVec 12) : Statement (.sltni d a imm) :=
  of_word 32 (layI 2 d.toNat a.toNat 7 imm.toNat) rfl rfl (layI_fits (by decide) (below d.isLt (by decide)) (below a.isLt (by decide)) (by decide) (below imm.isLt (by decide)))
theorem slli (d : Reg) (a : Reg) (sh : BitVec 6) : Statement (.slli d a sh) :=
  of_word 32 (layI 2 d.toNat a.toNat 4 sh.toNat) rfl rfl (layI_fits (by decide) (below d.isLt (by decide)) (below a.isLt (by decide)) (by decide) (below sh.isLt (by decide)))
theorem srli (d : Reg) (a : Reg) (sh : BitVec 6) : Statement (.srli d a sh) :=
  of_word 32 (layI 2 d.toNat a.toNat 5 sh.toNat) rfl rfl (layI_fits (by decide) (below d.isLt (by decide)) (below a.isLt (by decide)) (by decide) (below sh.isLt (by decide)))
theorem srai (d : Reg) (a : Reg) (sh : BitVec 6) : Statement (.srai d a sh) :=
  of_word 32 (layI 2 d.toNat a.toNat 5 (2 ^ 10 + sh.toNat)) rfl rfl (layI_fits (by decide) (below d.isLt (by decide)) (below a.isLt (by decide)) (by decide) (by have := sh.isLt; omega))
theorem add (d : Reg) (a : Reg) (b : Reg) : Statement (.add d a b) :=
  of_word 32 (layR 3 d.toNat a.toNat b.toNat 0 0) rfl rfl (layR_fits (by decide) (below d.isLt (by decide)) (below a.isLt (by decide)) (below b.isLt (by decide)) (by decide) (by decide))
theorem sub (d : Reg) (a : Reg) (b : Reg) : Statement (.sub d a b) :=
  of_word 32 (layR 3 d.toNat a.toNat b.toNat 0 1) rfl rfl (layR_fits (by decide) (below d.isLt (by decide)) (below a.isLt (by decide)) (below b.isLt (by decide)) (by decide) (by decide))
theorem and (d : Reg) (a : Reg) (b : Reg) : Statement (.and d a b) :=
  of_word 32 (layR 3 d.toNat a.toNat b.toNat 0 2) rfl rfl (layR_fits (by decide) (below d.isLt (by decide)) (below a.isLt (by decide)) (below b.isLt (by decide)) (by decide) (by decide))
theorem or (d : Reg) (a : Reg) (b : Reg) : Statement (.or d a b) :=
  of_word 32 (layR 3 d.toNat a.toNat b.toNat 0 3) rfl rfl (layR_fits (by decide) (below d.isLt (by decide)) (below a.isLt (by decide)) (below b.isLt (by decide)) (by decide) (by decide))
theorem xor (d : Reg) (a : Reg) (b : Reg) : Statement (.xor d a b) :=
  of_word 32 (layR 3 d.toNat a.toNat b.toNat 0 4) rfl rfl (layR_fits (by decide) (below d.isLt (by decide)) (below a.isLt (by decide)) (below b.isLt (by decide)) (by decide) (by decide))
theorem sll (d : Reg) (a : Reg) (b : Reg) : Statement (.sll d a b) :=
  of_word 32 (layR 3 d.toNat a.toNat b.toNat 0 5) rfl rfl (layR_fits (by decide) (below d.isLt (by decide)) (below a.isLt (by decide)) (below b.isLt (by decide)) (by decide) (by decide))
theorem srl (d : Reg) (a : Reg) (b : Reg) : Statement (.srl d a b) :=
  of_word 32 (layR 3 d.toNat a.toNat b.toNat 0 6) rfl rfl (layR_fits (by decide) (below d.isLt (by decide)) (below a.isLt (by decide)) (below b.isLt (by decide)) (by decide) (by decide))
theorem sra (d : Reg) (a : Reg) (b : Reg) : Statement (.sra d a b) :=
  of_word 32 (layR 3 d.toNat a.toNat b.toNat 0 7) rfl rfl (layR_fits (by decide) (below d.isLt (by decide)) (below a.isLt (by decide)) (below b.isLt (by decide)) (by decide) (by decide))
theorem slt (d : Reg) (a : Reg) (b : Reg) : Statement (.slt d a b) :=
  of_word 32 (layR 3 d.toNat a.toNat b.toNat 0 8) rfl rfl (layR_fits (by decide) (below d.isLt (by decide)) (below a.isLt (by decide)) (below b.isLt (by decide)) (by decide) (by decide))
theorem sltn (d : Reg) (a : Reg) (b : Reg) : Statement (.sltn d a b) :=
  of_word 32 (layR 3 d.toNat a.toNat b.toNat 0 9) rfl rfl (layR_fits (by decide) (below d.isLt (by decide)) (below a.isLt (by decide)) (below b.isLt (by decide)) (by decide) (by decide))
theorem mul (d : Reg) (a : Reg) (b : Reg) : Statement (.mul d a b) :=
  of_word 32 (layR 3 d.toNat a.toNat b.toNat 0 10) rfl rfl (layR_fits (by decide) (below d.isLt (by decide)) (below a.isLt (by decide)) (below b.isLt (by decide)) (by decide) (by decide))
theorem mulh (d : Reg) (a : Reg) (b : Reg) : Statement (.mulh d a b) :=
  of_word 32 (layR 3 d.toNat a.toNat b.toNat 0 11) rfl rfl (layR_fits (by decide) (below d.isLt (by decide)) (below a.isLt (by decide)) (below b.isLt (by decide)) (by decide) (by decide))
theorem mulhn (d : Reg) (a : Reg) (b : Reg) : Statement (.mulhn d a b) :=
  of_word 32 (layR 3 d.toNat a.toNat b.toNat 0 12) rfl rfl (layR_fits (by decide) (below d.isLt (by decide)) (below a.isLt (by decide)) (below b.isLt (by decide)) (by decide) (by decide))
theorem div (d : Reg) (a : Reg) (b : Reg) : Statement (.div d a b) :=
  of_word 32 (layR 3 d.toNat a.toNat b.toNat 0 13) rfl rfl (layR_fits (by decide) (below d.isLt (by decide)) (below a.isLt (by decide)) (below b.isLt (by decide)) (by decide) (by decide))
theorem divn (d : Reg) (a : Reg) (b : Reg) : Statement (.divn d a b) :=
  of_word 32 (layR 3 d.toNat a.toNat b.toNat 0 14) rfl rfl (layR_fits (by decide) (below d.isLt (by decide)) (below a.isLt (by decide)) (below b.isLt (by decide)) (by decide) (by decide))
theorem rem (d : Reg) (a : Reg) (b : Reg) : Statement (.rem d a b) :=
  of_word 32 (layR 3 d.toNat a.toNat b.toNat 0 15) rfl rfl (layR_fits (by decide) (below d.isLt (by decide)) (below a.isLt (by decide)) (below b.isLt (by decide)) (by decide) (by decide))
theorem remn (d : Reg) (a : Reg) (b : Reg) : Statement (.remn d a b) :=
  of_word 32 (layR 3 d.toNat a.toNat b.toNat 0 16) rfl rfl (layR_fits (by decide) (below d.isLt (by decide)) (below a.isLt (by decide)) (below b.isLt (by decide)) (by decide) (by decide))
theorem min (d : Reg) (a : Reg) (b : Reg) : Statement (.min d a b) :=
  of_word 32 (layR 3 d.toNat a.toNat b.toNat 0 17) rfl rfl (layR_fits (by decide) (below d.isLt (by decide)) (below a.isLt (by decide)) (below b.isLt (by decide)) (by decide) (by decide))
theorem max (d : Reg) (a : Reg) (b : Reg) : Statement (.max d a b) :=
  of_word 32 (layR 3 d.toNat a.toNat b.toNat 0 18) rfl rfl (layR_fits (by decide) (below d.isLt (by decide)) (below a.isLt (by decide)) (below b.isLt (by decide)) (by decide) (by decide))
theorem minn (d : Reg) (a : Reg) (b : Reg) : Statement (.minn d a b) :=
  of_word 32 (layR 3 d.toNat a.toNat b.toNat 0 19) rfl rfl (layR_fits (by decide) (below d.isLt (by decide)) (below a.isLt (by decide)) (below b.isLt (by decide)) (by decide) (by decide))
theorem maxn (d : Reg) (a : Reg) (b : Reg) : Statement (.maxn d a b) :=
  of_word 32 (layR 3 d.toNat a.toNat b.toNat 0 20) rfl rfl (layR_fits (by decide) (below d.isLt (by decide)) (below a.isLt (by decide)) (below b.isLt (by decide)) (by decide) (by decide))
theorem ldb (d : Reg) (a : Reg) (imm : BitVec 12) : Statement (.ldb d a imm) :=
  of_word 32 (layI 4 d.toNat a.toNat 0 imm.toNat) rfl rfl (layI_fits (by decide) (below d.isLt (by decide)) (below a.isLt (by decide)) (by decide) (below imm.isLt (by decide)))
theorem ldh (d : Reg) (a : Reg) (imm : BitVec 12) : Statement (.ldh d a imm) :=
  of_word 32 (layI 4 d.toNat a.toNat 1 imm.toNat) rfl rfl (layI_fits (by decide) (below d.isLt (by decide)) (below a.isLt (by decide)) (by decide) (below imm.isLt (by decide)))
theorem ldw (d : Reg) (a : Reg) (imm : BitVec 12) : Statement (.ldw d a imm) :=
  of_word 32 (layI 4 d.toNat a.toNat 2 imm.toNat) rfl rfl (layI_fits (by decide) (below d.isLt (by decide)) (below a.isLt (by decide)) (by decide) (below imm.isLt (by decide)))
theorem ldd (d : Reg) (a : Reg) (imm : BitVec 12) : Statement (.ldd d a imm) :=
  of_word 32 (layI 4 d.toNat a.toNat 3 imm.toNat) rfl rfl (layI_fits (by decide) (below d.isLt (by decide)) (below a.isLt (by decide)) (by decide) (below imm.isLt (by decide)))
theorem ldbn (d : Reg) (a : Reg) (imm : BitVec 12) : Statement (.ldbn d a imm) :=
  of_word 32 (layI 4 d.toNat a.toNat 4 imm.toNat) rfl rfl (layI_fits (by decide) (below d.isLt (by decide)) (below a.isLt (by decide)) (by decide) (below imm.isLt (by decide)))
theorem ldhn (d : Reg) (a : Reg) (imm : BitVec 12) : Statement (.ldhn d a imm) :=
  of_word 32 (layI 4 d.toNat a.toNat 5 imm.toNat) rfl rfl (layI_fits (by decide) (below d.isLt (by decide)) (below a.isLt (by decide)) (by decide) (below imm.isLt (by decide)))
theorem ldwn (d : Reg) (a : Reg) (imm : BitVec 12) : Statement (.ldwn d a imm) :=
  of_word 32 (layI 4 d.toNat a.toNat 6 imm.toNat) rfl rfl (layI_fits (by decide) (below d.isLt (by decide)) (below a.isLt (by decide)) (by decide) (below imm.isLt (by decide)))
theorem ldbAcq (d : Reg) (a : Reg) (imm : BitVec 12) : Statement (.ldbAcq d a imm) :=
  of_word 32 (layI 10 d.toNat a.toNat 0 imm.toNat) rfl rfl (layI_fits (by decide) (below d.isLt (by decide)) (below a.isLt (by decide)) (by decide) (below imm.isLt (by decide)))
theorem ldhAcq (d : Reg) (a : Reg) (imm : BitVec 12) : Statement (.ldhAcq d a imm) :=
  of_word 32 (layI 10 d.toNat a.toNat 1 imm.toNat) rfl rfl (layI_fits (by decide) (below d.isLt (by decide)) (below a.isLt (by decide)) (by decide) (below imm.isLt (by decide)))
theorem ldwAcq (d : Reg) (a : Reg) (imm : BitVec 12) : Statement (.ldwAcq d a imm) :=
  of_word 32 (layI 10 d.toNat a.toNat 2 imm.toNat) rfl rfl (layI_fits (by decide) (below d.isLt (by decide)) (below a.isLt (by decide)) (by decide) (below imm.isLt (by decide)))
theorem lddAcq (d : Reg) (a : Reg) (imm : BitVec 12) : Statement (.lddAcq d a imm) :=
  of_word 32 (layI 10 d.toNat a.toNat 3 imm.toNat) rfl rfl (layI_fits (by decide) (below d.isLt (by decide)) (below a.isLt (by decide)) (by decide) (below imm.isLt (by decide)))
theorem ldbnAcq (d : Reg) (a : Reg) (imm : BitVec 12) : Statement (.ldbnAcq d a imm) :=
  of_word 32 (layI 10 d.toNat a.toNat 4 imm.toNat) rfl rfl (layI_fits (by decide) (below d.isLt (by decide)) (below a.isLt (by decide)) (by decide) (below imm.isLt (by decide)))
theorem ldhnAcq (d : Reg) (a : Reg) (imm : BitVec 12) : Statement (.ldhnAcq d a imm) :=
  of_word 32 (layI 10 d.toNat a.toNat 5 imm.toNat) rfl rfl (layI_fits (by decide) (below d.isLt (by decide)) (below a.isLt (by decide)) (by decide) (below imm.isLt (by decide)))
theorem ldwnAcq (d : Reg) (a : Reg) (imm : BitVec 12) : Statement (.ldwnAcq d a imm) :=
  of_word 32 (layI 10 d.toNat a.toNat 6 imm.toNat) rfl rfl (layI_fits (by decide) (below d.isLt (by decide)) (below a.isLt (by decide)) (by decide) (below imm.isLt (by decide)))
theorem stb (b : Reg) (a : Reg) (imm : BitVec 12) : Statement (.stb b a imm) :=
  of_word 32 (layI 5 b.toNat a.toNat 0 imm.toNat) rfl rfl (layI_fits (by decide) (below b.isLt (by decide)) (below a.isLt (by decide)) (by decide) (below imm.isLt (by decide)))
theorem sth (b : Reg) (a : Reg) (imm : BitVec 12) : Statement (.sth b a imm) :=
  of_word 32 (layI 5 b.toNat a.toNat 1 imm.toNat) rfl rfl (layI_fits (by decide) (below b.isLt (by decide)) (below a.isLt (by decide)) (by decide) (below imm.isLt (by decide)))
theorem stw (b : Reg) (a : Reg) (imm : BitVec 12) : Statement (.stw b a imm) :=
  of_word 32 (layI 5 b.toNat a.toNat 2 imm.toNat) rfl rfl (layI_fits (by decide) (below b.isLt (by decide)) (below a.isLt (by decide)) (by decide) (below imm.isLt (by decide)))
theorem std (b : Reg) (a : Reg) (imm : BitVec 12) : Statement (.std b a imm) :=
  of_word 32 (layI 5 b.toNat a.toNat 3 imm.toNat) rfl rfl (layI_fits (by decide) (below b.isLt (by decide)) (below a.isLt (by decide)) (by decide) (below imm.isLt (by decide)))
theorem stbRel (b : Reg) (a : Reg) (imm : BitVec 12) : Statement (.stbRel b a imm) :=
  of_word 32 (layI 5 b.toNat a.toNat 4 imm.toNat) rfl rfl (layI_fits (by decide) (below b.isLt (by decide)) (below a.isLt (by decide)) (by decide) (below imm.isLt (by decide)))
theorem sthRel (b : Reg) (a : Reg) (imm : BitVec 12) : Statement (.sthRel b a imm) :=
  of_word 32 (layI 5 b.toNat a.toNat 5 imm.toNat) rfl rfl (layI_fits (by decide) (below b.isLt (by decide)) (below a.isLt (by decide)) (by decide) (below imm.isLt (by decide)))
theorem stwRel (b : Reg) (a : Reg) (imm : BitVec 12) : Statement (.stwRel b a imm) :=
  of_word 32 (layI 5 b.toNat a.toNat 6 imm.toNat) rfl rfl (layI_fits (by decide) (below b.isLt (by decide)) (below a.isLt (by decide)) (by decide) (below imm.isLt (by decide)))
theorem stdRel (b : Reg) (a : Reg) (imm : BitVec 12) : Statement (.stdRel b a imm) :=
  of_word 32 (layI 5 b.toNat a.toNat 7 imm.toNat) rfl rfl (layI_fits (by decide) (below b.isLt (by decide)) (below a.isLt (by decide)) (by decide) (below imm.isLt (by decide)))
theorem beq (a : Reg) (b : Reg) (off : BitVec 12) : Statement (.beq a b off) :=
  of_word 32 (layI 6 a.toNat b.toNat 0 off.toNat) rfl rfl (layI_fits (by decide) (below a.isLt (by decide)) (below b.isLt (by decide)) (by decide) (below off.isLt (by decide)))
theorem bne (a : Reg) (b : Reg) (off : BitVec 12) : Statement (.bne a b off) :=
  of_word 32 (layI 6 a.toNat b.toNat 1 off.toNat) rfl rfl (layI_fits (by decide) (below a.isLt (by decide)) (below b.isLt (by decide)) (by decide) (below off.isLt (by decide)))
theorem blt (a : Reg) (b : Reg) (off : BitVec 12) : Statement (.blt a b off) :=
  of_word 32 (layI 6 a.toNat b.toNat 2 off.toNat) rfl rfl (layI_fits (by decide) (below a.isLt (by decide)) (below b.isLt (by decide)) (by decide) (below off.isLt (by decide)))
theorem bge (a : Reg) (b : Reg) (off : BitVec 12) : Statement (.bge a b off) :=
  of_word 32 (layI 6 a.toNat b.toNat 3 off.toNat) rfl rfl (layI_fits (by decide) (below a.isLt (by decide)) (below b.isLt (by decide)) (by decide) (below off.isLt (by decide)))
theorem bltn (a : Reg) (b : Reg) (off : BitVec 12) : Statement (.bltn a b off) :=
  of_word 32 (layI 6 a.toNat b.toNat 4 off.toNat) rfl rfl (layI_fits (by decide) (below a.isLt (by decide)) (below b.isLt (by decide)) (by decide) (below off.isLt (by decide)))
theorem bgen (a : Reg) (b : Reg) (off : BitVec 12) : Statement (.bgen a b off) :=
  of_word 32 (layI 6 a.toNat b.toNat 5 off.toNat) rfl rfl (layI_fits (by decide) (below a.isLt (by decide)) (below b.isLt (by decide)) (by decide) (below off.isLt (by decide)))
theorem jal (d : Reg) (off : BitVec 20) : Statement (.jal d off) :=
  of_word 32 (layU 7 d.toNat off.toNat) rfl rfl (layU_fits (by decide) (below d.isLt (by decide)) (below off.isLt (by decide)))
theorem jalr (d : Reg) (a : Reg) (imm : BitVec 12) : Statement (.jalr d a imm) :=
  of_word 32 (layI 8 d.toNat a.toNat 0 imm.toNat) rfl rfl (layI_fits (by decide) (below d.isLt (by decide)) (below a.isLt (by decide)) (by decide) (below imm.isLt (by decide)))
theorem fadd (d : Reg) (a : Reg) (b : Reg) : Statement (.fadd d a b) :=
  of_word 32 (layR 9 d.toNat a.toNat b.toNat 0 0) rfl rfl (layR_fits (by decide) (below d.isLt (by decide)) (below a.isLt (by decide)) (below b.isLt (by decide)) (by decide) (by decide))
theorem fsub (d : Reg) (a : Reg) (b : Reg) : Statement (.fsub d a b) :=
  of_word 32 (layR 9 d.toNat a.toNat b.toNat 0 1) rfl rfl (layR_fits (by decide) (below d.isLt (by decide)) (below a.isLt (by decide)) (below b.isLt (by decide)) (by decide) (by decide))
theorem fmul (d : Reg) (a : Reg) (b : Reg) : Statement (.fmul d a b) :=
  of_word 32 (layR 9 d.toNat a.toNat b.toNat 0 2) rfl rfl (layR_fits (by decide) (below d.isLt (by decide)) (below a.isLt (by decide)) (below b.isLt (by decide)) (by decide) (by decide))
theorem fdiv (d : Reg) (a : Reg) (b : Reg) : Statement (.fdiv d a b) :=
  of_word 32 (layR 9 d.toNat a.toNat b.toNat 0 3) rfl rfl (layR_fits (by decide) (below d.isLt (by decide)) (below a.isLt (by decide)) (below b.isLt (by decide)) (by decide) (by decide))
theorem fmin (d : Reg) (a : Reg) (b : Reg) : Statement (.fmin d a b) :=
  of_word 32 (layR 9 d.toNat a.toNat b.toNat 0 5) rfl rfl (layR_fits (by decide) (below d.isLt (by decide)) (below a.isLt (by decide)) (below b.isLt (by decide)) (by decide) (by decide))
theorem fmax (d : Reg) (a : Reg) (b : Reg) : Statement (.fmax d a b) :=
  of_word 32 (layR 9 d.toNat a.toNat b.toNat 0 6) rfl rfl (layR_fits (by decide) (below d.isLt (by decide)) (below a.isLt (by decide)) (below b.isLt (by decide)) (by decide) (by decide))
theorem feq (d : Reg) (a : Reg) (b : Reg) : Statement (.feq d a b) :=
  of_word 32 (layR 9 d.toNat a.toNat b.toNat 0 7) rfl rfl (layR_fits (by decide) (below d.isLt (by decide)) (below a.isLt (by decide)) (below b.isLt (by decide)) (by decide) (by decide))
theorem flt (d : Reg) (a : Reg) (b : Reg) : Statement (.flt d a b) :=
  of_word 32 (layR 9 d.toNat a.toNat b.toNat 0 8) rfl rfl (layR_fits (by decide) (below d.isLt (by decide)) (below a.isLt (by decide)) (below b.isLt (by decide)) (by decide) (by decide))
theorem fle (d : Reg) (a : Reg) (b : Reg) : Statement (.fle d a b) :=
  of_word 32 (layR 9 d.toNat a.toNat b.toNat 0 9) rfl rfl (layR_fits (by decide) (below d.isLt (by decide)) (below a.isLt (by decide)) (below b.isLt (by decide)) (by decide) (by decide))
theorem fmadd (d : Reg) (a : Reg) (b : Reg) : Statement (.fmadd d a b) :=
  of_word 32 (layR 9 d.toNat a.toNat b.toNat 0 11) rfl rfl (layR_fits (by decide) (below d.isLt (by decide)) (below a.isLt (by decide)) (below b.isLt (by decide)) (by decide) (by decide))
theorem fsqrt (d : Reg) (a : Reg) : Statement (.fsqrt d a) :=
  of_word 32 (layR 9 d.toNat a.toNat 0 0 4) rfl rfl (layR_fits (by decide) (below d.isLt (by decide)) (below a.isLt (by decide)) (by decide) (by decide) (by decide))
theorem fclass (d : Reg) (a : Reg) : Statement (.fclass d a) :=
  of_word 32 (layR 9 d.toNat a.toNat 0 0 10) rfl rfl (layR_fits (by decide) (below d.isLt (by decide)) (below a.isLt (by decide)) (by decide) (by decide) (by decide))
theorem fcvtF32I32 (d : Reg) (a : Reg) : Statement (.fcvtF32I32 d a) :=
  of_word 32 (layR 9 d.toNat a.toNat 0 0 16) rfl rfl (layR_fits (by decide) (below d.isLt (by decide)) (below a.isLt (by decide)) (by decide) (by decide) (by decide))
theorem fcvtF32N32 (d : Reg) (a : Reg) : Statement (.fcvtF32N32 d a) :=
  of_word 32 (layR 9 d.toNat a.toNat 0 0 17) rfl rfl (layR_fits (by decide) (below d.isLt (by decide)) (below a.isLt (by decide)) (by decide) (by decide) (by decide))
theorem fcvtF32I64 (d : Reg) (a : Reg) : Statement (.fcvtF32I64 d a) :=
  of_word 32 (layR 9 d.toNat a.toNat 0 0 18) rfl rfl (layR_fits (by decide) (below d.isLt (by decide)) (below a.isLt (by decide)) (by decide) (by decide) (by decide))
theorem fcvtF32N64 (d : Reg) (a : Reg) : Statement (.fcvtF32N64 d a) :=
  of_word 32 (layR 9 d.toNat a.toNat 0 0 19) rfl rfl (layR_fits (by decide) (below d.isLt (by decide)) (below a.isLt (by decide)) (by decide) (by decide) (by decide))
theorem fcvtI32F32 (d : Reg) (a : Reg) : Statement (.fcvtI32F32 d a) :=
  of_word 32 (layR 9 d.toNat a.toNat 0 0 20) rfl rfl (layR_fits (by decide) (below d.isLt (by decide)) (below a.isLt (by decide)) (by decide) (by decide) (by decide))
theorem fcvtN32F32 (d : Reg) (a : Reg) : Statement (.fcvtN32F32 d a) :=
  of_word 32 (layR 9 d.toNat a.toNat 0 0 21) rfl rfl (layR_fits (by decide) (below d.isLt (by decide)) (below a.isLt (by decide)) (by decide) (by decide) (by decide))
theorem fcvtI64F32 (d : Reg) (a : Reg) : Statement (.fcvtI64F32 d a) :=
  of_word 32 (layR 9 d.toNat a.toNat 0 0 22) rfl rfl (layR_fits (by decide) (below d.isLt (by decide)) (below a.isLt (by decide)) (by decide) (by decide) (by decide))
theorem fcvtN64F32 (d : Reg) (a : Reg) : Statement (.fcvtN64F32 d a) :=
  of_word 32 (layR 9 d.toNat a.toNat 0 0 23) rfl rfl (layR_fits (by decide) (below d.isLt (by decide)) (below a.isLt (by decide)) (by decide) (by decide) (by decide))
theorem amoadd (sz : AmoSz) (aq : Bool) (rl : Bool) (d : Reg) (b : Reg) (a : Reg) : Statement (.amoadd sz aq rl d b a) :=
  of_word 32 (layA d.toNat a.toNat b.toNat 0 sz.code aq.toNat rl.toNat) rfl rfl (layA_fits (below d.isLt (by decide)) (below a.isLt (by decide)) (below b.isLt (by decide)) (by decide) (AmoSz.code_lt sz) (Bool.toNat_lt aq) (Bool.toNat_lt rl))
theorem amoswap (sz : AmoSz) (aq : Bool) (rl : Bool) (d : Reg) (b : Reg) (a : Reg) : Statement (.amoswap sz aq rl d b a) :=
  of_word 32 (layA d.toNat a.toNat b.toNat 1 sz.code aq.toNat rl.toNat) rfl rfl (layA_fits (below d.isLt (by decide)) (below a.isLt (by decide)) (below b.isLt (by decide)) (by decide) (AmoSz.code_lt sz) (Bool.toNat_lt aq) (Bool.toNat_lt rl))
theorem amocas (sz : AmoSz) (aq : Bool) (rl : Bool) (d : Reg) (b : Reg) (a : Reg) : Statement (.amocas sz aq rl d b a) :=
  of_word 32 (layA d.toNat a.toNat b.toNat 2 sz.code aq.toNat rl.toNat) rfl rfl (layA_fits (below d.isLt (by decide)) (below a.isLt (by decide)) (below b.isLt (by decide)) (by decide) (AmoSz.code_lt sz) (Bool.toNat_lt aq) (Bool.toNat_lt rl))
theorem amomin (sz : AmoSz) (aq : Bool) (rl : Bool) (d : Reg) (b : Reg) (a : Reg) : Statement (.amomin sz aq rl d b a) :=
  of_word 32 (layA d.toNat a.toNat b.toNat 3 sz.code aq.toNat rl.toNat) rfl rfl (layA_fits (below d.isLt (by decide)) (below a.isLt (by decide)) (below b.isLt (by decide)) (by decide) (AmoSz.code_lt sz) (Bool.toNat_lt aq) (Bool.toNat_lt rl))
theorem amomax (sz : AmoSz) (aq : Bool) (rl : Bool) (d : Reg) (b : Reg) (a : Reg) : Statement (.amomax sz aq rl d b a) :=
  of_word 32 (layA d.toNat a.toNat b.toNat 4 sz.code aq.toNat rl.toNat) rfl rfl (layA_fits (below d.isLt (by decide)) (below a.isLt (by decide)) (below b.isLt (by decide)) (by decide) (AmoSz.code_lt sz) (Bool.toNat_lt aq) (Bool.toNat_lt rl))
theorem amoand (sz : AmoSz) (aq : Bool) (rl : Bool) (d : Reg) (b : Reg) (a : Reg) : Statement (.amoand sz aq rl d b a) :=
  of_word 32 (layA d.toNat a.toNat b.toNat 5 sz.code aq.toNat rl.toNat) rfl rfl (layA_fits (below d.isLt (by decide)) (below a.isLt (by decide)) (below b.isLt (by decide)) (by decide) (AmoSz.code_lt sz) (Bool.toNat_lt aq) (Bool.toNat_lt rl))
theorem amoor (sz : AmoSz) (aq : Bool) (rl : Bool) (d : Reg) (b : Reg) (a : Reg) : Statement (.amoor sz aq rl d b a) :=
  of_word 32 (layA d.toNat a.toNat b.toNat 6 sz.code aq.toNat rl.toNat) rfl rfl (layA_fits (below d.isLt (by decide)) (below a.isLt (by decide)) (below b.isLt (by decide)) (by decide) (AmoSz.code_lt sz) (Bool.toNat_lt aq) (Bool.toNat_lt rl))
theorem amoxor (sz : AmoSz) (aq : Bool) (rl : Bool) (d : Reg) (b : Reg) (a : Reg) : Statement (.amoxor sz aq rl d b a) :=
  of_word 32 (layA d.toNat a.toNat b.toNat 7 sz.code aq.toNat rl.toNat) rfl rfl (layA_fits (below d.isLt (by decide)) (below a.isLt (by decide)) (below b.isLt (by decide)) (by decide) (AmoSz.code_lt sz) (Bool.toNat_lt aq) (Bool.toNat_lt rl))
theorem waitw (sz : AmoSz) (aq : Bool) (d : Reg) (b : Reg) (a : Reg) : Statement (.waitw sz aq d b a) :=
  of_word 32 (layA d.toNat a.toNat b.toNat 8 sz.code aq.toNat 0) rfl rfl (layA_fits (below d.isLt (by decide)) (below a.isLt (by decide)) (below b.isLt (by decide)) (by decide) (AmoSz.code_lt sz) (Bool.toNat_lt aq) (by decide))
theorem ecall : Statement (.ecall) :=
  of_word 32 (layI 11 0 0 0 0) rfl rfl (layI_fits (by decide) (by decide) (by decide) (by decide) (by decide))
theorem trap : Statement (.trap) :=
  of_word 32 (layI 11 0 0 0 1) rfl rfl (layI_fits (by decide) (by decide) (by decide) (by decide) (by decide))
theorem eret : Statement (.eret) :=
  of_word 32 (layI 11 0 0 0 2) rfl rfl (layI_fits (by decide) (by decide) (by decide) (by decide) (by decide))
theorem exit : Statement (.exit) :=
  of_word 32 (layI 11 0 0 0 3) rfl rfl (layI_fits (by decide) (by decide) (by decide) (by decide) (by decide))
theorem yield : Statement (.yield) :=
  of_word 32 (layI 11 0 0 0 4) rfl rfl (layI_fits (by decide) (by decide) (by decide) (by decide) (by decide))
theorem flushi : Statement (.flushi) :=
  of_word 32 (layI 11 0 0 0 5) rfl rfl (layI_fits (by decide) (by decide) (by decide) (by decide) (by decide))
theorem csrrd (d : Reg) (c : CsrNum) : Statement (.csrrd d c) :=
  of_word 32 (layI 11 d.toNat 0 1 c.toNat) rfl rfl (layI_fits (by decide) (below d.isLt (by decide)) (by decide) (by decide) (below c.isLt (by decide)))
theorem csrwr (c : CsrNum) (a : Reg) : Statement (.csrwr c a) :=
  of_word 32 (layI 11 0 a.toNat 2 c.toNat) rfl rfl (layI_fits (by decide) (by decide) (below a.isLt (by decide)) (by decide) (below c.isLt (by decide)))
theorem csrset (c : CsrNum) (a : Reg) : Statement (.csrset c a) :=
  of_word 32 (layI 11 0 a.toNat 3 c.toNat) rfl rfl (layI_fits (by decide) (by decide) (below a.isLt (by decide)) (by decide) (below c.isLt (by decide)))
theorem csrclr (c : CsrNum) (a : Reg) : Statement (.csrclr c a) :=
  of_word 32 (layI 11 0 a.toNat 4 c.toNat) rfl rfl (layI_fits (by decide) (by decide) (below a.isLt (by decide)) (by decide) (below c.isLt (by decide)))
theorem fenceSv (s : FenceScope) : Statement (.fenceSv s) :=
  of_word 32 (layI 11 0 0 5 (s.code * 2 ^ 2 + 0)) rfl rfl (layI_fits (by decide) (by decide) (by decide) (by decide) (by have := FenceScope.code_lt s; omega))
theorem fenceVs (s : FenceScope) : Statement (.fenceVs s) :=
  of_word 32 (layI 11 0 0 5 (s.code * 2 ^ 2 + 1)) rfl rfl (layI_fits (by decide) (by decide) (by decide) (by decide) (by have := FenceScope.code_lt s; omega))
theorem fenceVv (s : FenceScope) : Statement (.fenceVv s) :=
  of_word 32 (layI 11 0 0 5 (s.code * 2 ^ 2 + 2)) rfl rfl (layI_fits (by decide) (by decide) (by decide) (by decide) (by have := FenceScope.code_lt s; omega))
theorem fenceAll (s : FenceScope) : Statement (.fenceAll s) :=
  of_word 32 (layI 11 0 0 5 (s.code * 2 ^ 2 + 3)) rfl rfl (layI_fits (by decide) (by decide) (by decide) (by decide) (by have := FenceScope.code_lt s; omega))
theorem lslot (d : Reg) (n : BitVec 8) : Statement (.lslot d n) :=
  of_word 32 (layI 12 d.toNat 0 0 n.toNat) rfl rfl (layI_fits (by decide) (below d.isLt (by decide)) (by decide) (by decide) (below n.isLt (by decide)))
theorem mvreq (d : Reg) (a : Reg) (n : BitVec 8) : Statement (.mvreq d a n) :=
  of_word 32 (layI 12 d.toNat a.toNat 1 n.toNat) rfl rfl (layI_fits (by decide) (below d.isLt (by decide)) (below a.isLt (by decide)) (by decide) (below n.isLt (by decide)))
theorem mvcommit (d : Reg) (a : Reg) (n : BitVec 8) : Statement (.mvcommit d a n) :=
  of_word 32 (layI 12 d.toNat a.toNat 2 n.toNat) rfl rfl (layI_fits (by decide) (below d.isLt (by decide)) (below a.isLt (by decide)) (by decide) (below n.isLt (by decide)))
theorem ltag (d : Reg) (a : Reg) : Statement (.ltag d a) :=
  of_word 32 (layI 12 d.toNat a.toNat 3 0) rfl rfl (layI_fits (by decide) (below d.isLt (by decide)) (below a.isLt (by decide)) (by decide) (by decide))
theorem ljoin (d : Reg) (a : Reg) : Statement (.ljoin d a) :=
  of_word 32 (layI 12 d.toNat a.toNat 3 2) rfl rfl (layI_fits (by decide) (below d.isLt (by decide)) (below a.isLt (by decide)) (by decide) (by decide))
theorem lclr (d : Reg) : Statement (.lclr d) :=
  of_word 32 (layI 12 d.toNat 0 3 1) rfl rfl (layI_fits (by decide) (below d.isLt (by decide)) (by decide) (by decide) (by decide))
theorem safept : Statement (.safept) :=
  of_word 32 (layI 12 0 0 3 3) rfl rfl (layI_fits (by decide) (by decide) (by decide) (by decide) (by decide))
theorem vlclr (d : Reg) : Statement (.vlclr d) :=
  of_word 32 (layI 12 d.toNat 0 3 4) rfl rfl (layI_fits (by decide) (below d.isLt (by decide)) (by decide) (by decide) (by decide))
theorem vsetvli (d : Reg) (e : BitVec 3) (c : BitVec 6) (t : BitVec 10) : Statement (.vsetvli d e c t) :=
  of_word 32 (layC0 d.toNat e.toNat c.toNat t.toNat) rfl rfl (layC0_fits (below d.isLt (by decide)) (below e.isLt (by decide)) (below c.isLt (by decide)) (below t.isLt (by decide)))
theorem vsetvl (d : Reg) (a : Reg) (b : Reg) : Statement (.vsetvl d a b) :=
  of_word 32 (layC1 d.toNat a.toNat b.toNat 0) rfl rfl (layC1_fits (below d.isLt (by decide)) (below a.isLt (by decide)) (below b.isLt (by decide)) (by decide))
theorem vwin (d : Reg) (a : Reg) (b : Reg) : Statement (.vwin d a b) :=
  of_word 32 (layC1 d.toNat a.toNat b.toNat 1) rfl rfl (layC1_fits (below d.isLt (by decide)) (below a.isLt (by decide)) (below b.isLt (by decide)) (by decide))
theorem vadd (d : Reg) (a : Reg) (b : VOp) (m : Reg3) : Statement (.vadd d a b m) :=
  of_word 32 (layV 14 d.toNat a.toNat b.field m.toNat b.opf 0) rfl rfl (layV_fits (by decide) (below d.isLt (by decide)) (below a.isLt (by decide)) (VOp.field_lt b) (below m.isLt (by decide)) (VOp.opf_lt b) (by decide))
theorem vsub (d : Reg) (a : Reg) (b : VOp) (m : Reg3) : Statement (.vsub d a b m) :=
  of_word 32 (layV 14 d.toNat a.toNat b.field m.toNat b.opf 1) rfl rfl (layV_fits (by decide) (below d.isLt (by decide)) (below a.isLt (by decide)) (VOp.field_lt b) (below m.isLt (by decide)) (VOp.opf_lt b) (by decide))
theorem vmul (d : Reg) (a : Reg) (b : VOp) (m : Reg3) : Statement (.vmul d a b m) :=
  of_word 32 (layV 14 d.toNat a.toNat b.field m.toNat b.opf 2) rfl rfl (layV_fits (by decide) (below d.isLt (by decide)) (below a.isLt (by decide)) (VOp.field_lt b) (below m.isLt (by decide)) (VOp.opf_lt b) (by decide))
theorem vmulh (d : Reg) (a : Reg) (b : VOp) (m : Reg3) : Statement (.vmulh d a b m) :=
  of_word 32 (layV 14 d.toNat a.toNat b.field m.toNat b.opf 3) rfl rfl (layV_fits (by decide) (below d.isLt (by decide)) (below a.isLt (by decide)) (VOp.field_lt b) (below m.isLt (by decide)) (VOp.opf_lt b) (by decide))
theorem vand (d : Reg) (a : Reg) (b : VOp) (m : Reg3) : Statement (.vand d a b m) :=
  of_word 32 (layV 14 d.toNat a.toNat b.field m.toNat b.opf 4) rfl rfl (layV_fits (by decide) (below d.isLt (by decide)) (below a.isLt (by decide)) (VOp.field_lt b) (below m.isLt (by decide)) (VOp.opf_lt b) (by decide))
theorem vor (d : Reg) (a : Reg) (b : VOp) (m : Reg3) : Statement (.vor d a b m) :=
  of_word 32 (layV 14 d.toNat a.toNat b.field m.toNat b.opf 5) rfl rfl (layV_fits (by decide) (below d.isLt (by decide)) (below a.isLt (by decide)) (VOp.field_lt b) (below m.isLt (by decide)) (VOp.opf_lt b) (by decide))
theorem vxor (d : Reg) (a : Reg) (b : VOp) (m : Reg3) : Statement (.vxor d a b m) :=
  of_word 32 (layV 14 d.toNat a.toNat b.field m.toNat b.opf 6) rfl rfl (layV_fits (by decide) (below d.isLt (by decide)) (below a.isLt (by decide)) (VOp.field_lt b) (below m.isLt (by decide)) (VOp.opf_lt b) (by decide))
theorem vsll (d : Reg) (a : Reg) (b : VOp) (m : Reg3) : Statement (.vsll d a b m) :=
  of_word 32 (layV 14 d.toNat a.toNat b.field m.toNat b.opf 7) rfl rfl (layV_fits (by decide) (below d.isLt (by decide)) (below a.isLt (by decide)) (VOp.field_lt b) (below m.isLt (by decide)) (VOp.opf_lt b) (by decide))
theorem vsrl (d : Reg) (a : Reg) (b : VOp) (m : Reg3) : Statement (.vsrl d a b m) :=
  of_word 32 (layV 14 d.toNat a.toNat b.field m.toNat b.opf 8) rfl rfl (layV_fits (by decide) (below d.isLt (by decide)) (below a.isLt (by decide)) (VOp.field_lt b) (below m.isLt (by decide)) (VOp.opf_lt b) (by decide))
theorem vsra (d : Reg) (a : Reg) (b : VOp) (m : Reg3) : Statement (.vsra d a b m) :=
  of_word 32 (layV 14 d.toNat a.toNat b.field m.toNat b.opf 9) rfl rfl (layV_fits (by decide) (below d.isLt (by decide)) (below a.isLt (by decide)) (VOp.field_lt b) (below m.isLt (by decide)) (VOp.opf_lt b) (by decide))
theorem vmin (d : Reg) (a : Reg) (b : VOp) (m : Reg3) : Statement (.vmin d a b m) :=
  of_word 32 (layV 14 d.toNat a.toNat b.field m.toNat b.opf 10) rfl rfl (layV_fits (by decide) (below d.isLt (by decide)) (below a.isLt (by decide)) (VOp.field_lt b) (below m.isLt (by decide)) (VOp.opf_lt b) (by decide))
theorem vmax (d : Reg) (a : Reg) (b : VOp) (m : Reg3) : Statement (.vmax d a b m) :=
  of_word 32 (layV 14 d.toNat a.toNat b.field m.toNat b.opf 11) rfl rfl (layV_fits (by decide) (below d.isLt (by decide)) (below a.isLt (by decide)) (VOp.field_lt b) (below m.isLt (by decide)) (VOp.opf_lt b) (by decide))
theorem vminn (d : Reg) (a : Reg) (b : VOp) (m : Reg3) : Statement (.vminn d a b m) :=
  of_word 32 (layV 14 d.toNat a.toNat b.field m.toNat b.opf 12) rfl rfl (layV_fits (by decide) (below d.isLt (by decide)) (below a.isLt (by decide)) (VOp.field_lt b) (below m.isLt (by decide)) (VOp.opf_lt b) (by decide))
theorem vmaxn (d : Reg) (a : Reg) (b : VOp) (m : Reg3) : Statement (.vmaxn d a b m) :=
  of_word 32 (layV 14 d.toNat a.toNat b.field m.toNat b.opf 13) rfl rfl (layV_fits (by decide) (below d.isLt (by decide)) (below a.isLt (by decide)) (VOp.field_lt b) (below m.isLt (by decide)) (VOp.opf_lt b) (by decide))
theorem vsadd (d : Reg) (a : Reg) (b : VOp) (m : Reg3) : Statement (.vsadd d a b m) :=
  of_word 32 (layV 14 d.toNat a.toNat b.field m.toNat b.opf 14) rfl rfl (layV_fits (by decide) (below d.isLt (by decide)) (below a.isLt (by decide)) (VOp.field_lt b) (below m.isLt (by decide)) (VOp.opf_lt b) (by decide))
theorem vssub (d : Reg) (a : Reg) (b : VOp) (m : Reg3) : Statement (.vssub d a b m) :=
  of_word 32 (layV 14 d.toNat a.toNat b.field m.toNat b.opf 15) rfl rfl (layV_fits (by decide) (below d.isLt (by decide)) (below a.isLt (by decide)) (VOp.field_lt b) (below m.isLt (by decide)) (VOp.opf_lt b) (by decide))
theorem vfadd (d : Reg) (a : Reg) (b : VOp) (m : Reg3) : Statement (.vfadd d a b m) :=
  of_word 32 (layV 15 d.toNat a.toNat b.field m.toNat b.opf 0) rfl rfl (layV_fits (by decide) (below d.isLt (by decide)) (below a.isLt (by decide)) (VOp.field_lt b) (below m.isLt (by decide)) (VOp.opf_lt b) (by decide))
theorem vfsub (d : Reg) (a : Reg) (b : VOp) (m : Reg3) : Statement (.vfsub d a b m) :=
  of_word 32 (layV 15 d.toNat a.toNat b.field m.toNat b.opf 1) rfl rfl (layV_fits (by decide) (below d.isLt (by decide)) (below a.isLt (by decide)) (VOp.field_lt b) (below m.isLt (by decide)) (VOp.opf_lt b) (by decide))
theorem vfmul (d : Reg) (a : Reg) (b : VOp) (m : Reg3) : Statement (.vfmul d a b m) :=
  of_word 32 (layV 15 d.toNat a.toNat b.field m.toNat b.opf 2) rfl rfl (layV_fits (by decide) (below d.isLt (by decide)) (below a.isLt (by decide)) (VOp.field_lt b) (below m.isLt (by decide)) (VOp.opf_lt b) (by decide))
theorem vfmadd (d : Reg) (a : Reg) (b : VOp) (m : Reg3) : Statement (.vfmadd d a b m) :=
  of_word 32 (layV 15 d.toNat a.toNat b.field m.toNat b.opf 3) rfl rfl (layV_fits (by decide) (below d.isLt (by decide)) (below a.isLt (by decide)) (VOp.field_lt b) (below m.isLt (by decide)) (VOp.opf_lt b) (by decide))
theorem vfnmsub (d : Reg) (a : Reg) (b : VOp) (m : Reg3) : Statement (.vfnmsub d a b m) :=
  of_word 32 (layV 15 d.toNat a.toNat b.field m.toNat b.opf 4) rfl rfl (layV_fits (by decide) (below d.isLt (by decide)) (below a.isLt (by decide)) (VOp.field_lt b) (below m.isLt (by decide)) (VOp.opf_lt b) (by decide))
theorem vfdiv (d : Reg) (a : Reg) (b : VOp) (m : Reg3) : Statement (.vfdiv d a b m) :=
  of_word 32 (layV 15 d.toNat a.toNat b.field m.toNat b.opf 5) rfl rfl (layV_fits (by decide) (below d.isLt (by decide)) (below a.isLt (by decide)) (VOp.field_lt b) (below m.isLt (by decide)) (VOp.opf_lt b) (by decide))
theorem vfmin (d : Reg) (a : Reg) (b : VOp) (m : Reg3) : Statement (.vfmin d a b m) :=
  of_word 32 (layV 15 d.toNat a.toNat b.field m.toNat b.opf 7) rfl rfl (layV_fits (by decide) (below d.isLt (by decide)) (below a.isLt (by decide)) (VOp.field_lt b) (below m.isLt (by decide)) (VOp.opf_lt b) (by decide))
theorem vfmax (d : Reg) (a : Reg) (b : VOp) (m : Reg3) : Statement (.vfmax d a b m) :=
  of_word 32 (layV 15 d.toNat a.toNat b.field m.toNat b.opf 8) rfl rfl (layV_fits (by decide) (below d.isLt (by decide)) (below a.isLt (by decide)) (VOp.field_lt b) (below m.isLt (by decide)) (VOp.opf_lt b) (by decide))
theorem vfscale (d : Reg) (a : Reg) (b : VOp) (m : Reg3) : Statement (.vfscale d a b m) :=
  of_word 32 (layV 15 d.toNat a.toNat b.field m.toNat b.opf 11) rfl rfl (layV_fits (by decide) (below d.isLt (by decide)) (below a.isLt (by decide)) (VOp.field_lt b) (below m.isLt (by decide)) (VOp.opf_lt b) (by decide))
theorem vfsgnj (d : Reg) (a : Reg) (b : VOp) (m : Reg3) : Statement (.vfsgnj d a b m) :=
  of_word 32 (layV 15 d.toNat a.toNat b.field m.toNat b.opf 13) rfl rfl (layV_fits (by decide) (below d.isLt (by decide)) (below a.isLt (by decide)) (VOp.field_lt b) (below m.isLt (by decide)) (VOp.opf_lt b) (by decide))
theorem vfsqrt (d : Reg) (a : Reg) (m : Reg3) : Statement (.vfsqrt d a m) :=
  of_word 32 (layV 15 d.toNat a.toNat 0 m.toNat 0 6) rfl rfl (layV_fits (by decide) (below d.isLt (by decide)) (below a.isLt (by decide)) (by decide) (below m.isLt (by decide)) (by decide) (by decide))
theorem vfrecip (d : Reg) (a : Reg) (m : Reg3) : Statement (.vfrecip d a m) :=
  of_word 32 (layV 15 d.toNat a.toNat 0 m.toNat 0 9) rfl rfl (layV_fits (by decide) (below d.isLt (by decide)) (below a.isLt (by decide)) (by decide) (below m.isLt (by decide)) (by decide) (by decide))
theorem vfrsqrt (d : Reg) (a : Reg) (m : Reg3) : Statement (.vfrsqrt d a m) :=
  of_word 32 (layV 15 d.toNat a.toNat 0 m.toNat 0 10) rfl rfl (layV_fits (by decide) (below d.isLt (by decide)) (below a.isLt (by decide)) (by decide) (below m.isLt (by decide)) (by decide) (by decide))
theorem vfround (d : Reg) (a : Reg) (m : Reg3) : Statement (.vfround d a m) :=
  of_word 32 (layV 15 d.toNat a.toNat 0 m.toNat 0 12) rfl rfl (layV_fits (by decide) (below d.isLt (by decide)) (below a.isLt (by decide)) (by decide) (below m.isLt (by decide)) (by decide) (by decide))
theorem vcmpEq (d : Reg3) (a : Reg) (b : VOp) (m : Reg3) : Statement (.vcmpEq d a b m) :=
  of_word 32 (layV 16 d.toNat a.toNat b.field m.toNat b.opf 0) rfl rfl (layV_fits (by decide) (below d.isLt (by decide)) (below a.isLt (by decide)) (VOp.field_lt b) (below m.isLt (by decide)) (VOp.opf_lt b) (by decide))
theorem vcmpNe (d : Reg3) (a : Reg) (b : VOp) (m : Reg3) : Statement (.vcmpNe d a b m) :=
  of_word 32 (layV 16 d.toNat a.toNat b.field m.toNat b.opf 1) rfl rfl (layV_fits (by decide) (below d.isLt (by decide)) (below a.isLt (by decide)) (VOp.field_lt b) (below m.isLt (by decide)) (VOp.opf_lt b) (by decide))
theorem vcmpLt (d : Reg3) (a : Reg) (b : VOp) (m : Reg3) : Statement (.vcmpLt d a b m) :=
  of_word 32 (layV 16 d.toNat a.toNat b.field m.toNat b.opf 2) rfl rfl (layV_fits (by decide) (below d.isLt (by decide)) (below a.isLt (by decide)) (VOp.field_lt b) (below m.isLt (by decide)) (VOp.opf_lt b) (by decide))
theorem vcmpLe (d : Reg3) (a : Reg) (b : VOp) (m : Reg3) : Statement (.vcmpLe d a b m) :=
  of_word 32 (layV 16 d.toNat a.toNat b.field m.toNat b.opf 3) rfl rfl (layV_fits (by decide) (below d.isLt (by decide)) (below a.isLt (by decide)) (VOp.field_lt b) (below m.isLt (by decide)) (VOp.opf_lt b) (by decide))
theorem vcmpGt (d : Reg3) (a : Reg) (b : VOp) (m : Reg3) : Statement (.vcmpGt d a b m) :=
  of_word 32 (layV 16 d.toNat a.toNat b.field m.toNat b.opf 4) rfl rfl (layV_fits (by decide) (below d.isLt (by decide)) (below a.isLt (by decide)) (VOp.field_lt b) (below m.isLt (by decide)) (VOp.opf_lt b) (by decide))
theorem vcmpGe (d : Reg3) (a : Reg) (b : VOp) (m : Reg3) : Statement (.vcmpGe d a b m) :=
  of_word 32 (layV 16 d.toNat a.toNat b.field m.toNat b.opf 5) rfl rfl (layV_fits (by decide) (below d.isLt (by decide)) (below a.isLt (by decide)) (VOp.field_lt b) (below m.isLt (by decide)) (VOp.opf_lt b) (by decide))
theorem vcmpLtn (d : Reg3) (a : Reg) (b : VOp) (m : Reg3) : Statement (.vcmpLtn d a b m) :=
  of_word 32 (layV 16 d.toNat a.toNat b.field m.toNat b.opf 6) rfl rfl (layV_fits (by decide) (below d.isLt (by decide)) (below a.isLt (by decide)) (VOp.field_lt b) (below m.isLt (by decide)) (VOp.opf_lt b) (by decide))
theorem vcmpLen (d : Reg3) (a : Reg) (b : VOp) (m : Reg3) : Statement (.vcmpLen d a b m) :=
  of_word 32 (layV 16 d.toNat a.toNat b.field m.toNat b.opf 7) rfl rfl (layV_fits (by decide) (below d.isLt (by decide)) (below a.isLt (by decide)) (VOp.field_lt b) (below m.isLt (by decide)) (VOp.opf_lt b) (by decide))
theorem vcmpGtn (d : Reg3) (a : Reg) (b : VOp) (m : Reg3) : Statement (.vcmpGtn d a b m) :=
  of_word 32 (layV 16 d.toNat a.toNat b.field m.toNat b.opf 8) rfl rfl (layV_fits (by decide) (below d.isLt (by decide)) (below a.isLt (by decide)) (VOp.field_lt b) (below m.isLt (by decide)) (VOp.opf_lt b) (by decide))
theorem vcmpGen (d : Reg3) (a : Reg) (b : VOp) (m : Reg3) : Statement (.vcmpGen d a b m) :=
  of_word 32 (layV 16 d.toNat a.toNat b.field m.toNat b.opf 9) rfl rfl (layV_fits (by decide) (below d.isLt (by decide)) (below a.isLt (by decide)) (VOp.field_lt b) (below m.isLt (by decide)) (VOp.opf_lt b) (by decide))
theorem vfcmpEq (d : Reg3) (a : Reg) (b : VOp) (m : Reg3) : Statement (.vfcmpEq d a b m) :=
  of_word 32 (layV 16 d.toNat a.toNat b.field m.toNat b.opf 12) rfl rfl (layV_fits (by decide) (below d.isLt (by decide)) (below a.isLt (by decide)) (VOp.field_lt b) (below m.isLt (by decide)) (VOp.opf_lt b) (by decide))
theorem vfcmpNe (d : Reg3) (a : Reg) (b : VOp) (m : Reg3) : Statement (.vfcmpNe d a b m) :=
  of_word 32 (layV 16 d.toNat a.toNat b.field m.toNat b.opf 13) rfl rfl (layV_fits (by decide) (below d.isLt (by decide)) (below a.isLt (by decide)) (VOp.field_lt b) (below m.isLt (by decide)) (VOp.opf_lt b) (by decide))
theorem vfcmpLt (d : Reg3) (a : Reg) (b : VOp) (m : Reg3) : Statement (.vfcmpLt d a b m) :=
  of_word 32 (layV 16 d.toNat a.toNat b.field m.toNat b.opf 14) rfl rfl (layV_fits (by decide) (below d.isLt (by decide)) (below a.isLt (by decide)) (VOp.field_lt b) (below m.isLt (by decide)) (VOp.opf_lt b) (by decide))
theorem vfcmpLe (d : Reg3) (a : Reg) (b : VOp) (m : Reg3) : Statement (.vfcmpLe d a b m) :=
  of_word 32 (layV 16 d.toNat a.toNat b.field m.toNat b.opf 15) rfl rfl (layV_fits (by decide) (below d.isLt (by decide)) (below a.isLt (by decide)) (VOp.field_lt b) (below m.isLt (by decide)) (VOp.opf_lt b) (by decide))
theorem vfcmpGt (d : Reg3) (a : Reg) (b : VOp) (m : Reg3) : Statement (.vfcmpGt d a b m) :=
  of_word 32 (layV 16 d.toNat a.toNat b.field m.toNat b.opf 16) rfl rfl (layV_fits (by decide) (below d.isLt (by decide)) (below a.isLt (by decide)) (VOp.field_lt b) (below m.isLt (by decide)) (VOp.opf_lt b) (by decide))
theorem vfcmpGe (d : Reg3) (a : Reg) (b : VOp) (m : Reg3) : Statement (.vfcmpGe d a b m) :=
  of_word 32 (layV 16 d.toNat a.toNat b.field m.toNat b.opf 17) rfl rfl (layV_fits (by decide) (below d.isLt (by decide)) (below a.isLt (by decide)) (VOp.field_lt b) (below m.isLt (by decide)) (VOp.opf_lt b) (by decide))
theorem mand (d : Reg3) (a : Reg3) (b : Reg3) : Statement (.mand d a b) :=
  of_word 32 (layV 16 d.toNat a.toNat b.toNat 0 0 23) rfl rfl (layV_fits (by decide) (below d.isLt (by decide)) (below a.isLt (by decide)) (below b.isLt (by decide)) (by decide) (by decide) (by decide))
theorem mor (d : Reg3) (a : Reg3) (b : Reg3) : Statement (.mor d a b) :=
  of_word 32 (layV 16 d.toNat a.toNat b.toNat 0 0 24) rfl rfl (layV_fits (by decide) (below d.isLt (by decide)) (below a.isLt (by decide)) (below b.isLt (by decide)) (by decide) (by decide) (by decide))
theorem mxor (d : Reg3) (a : Reg3) (b : Reg3) : Statement (.mxor d a b) :=
  of_word 32 (layV 16 d.toNat a.toNat b.toNat 0 0 25) rfl rfl (layV_fits (by decide) (below d.isLt (by decide)) (below a.isLt (by decide)) (below b.isLt (by decide)) (by decide) (by decide) (by decide))
theorem mandn (d : Reg3) (a : Reg3) (b : Reg3) : Statement (.mandn d a b) :=
  of_word 32 (layV 16 d.toNat a.toNat b.toNat 0 0 26) rfl rfl (layV_fits (by decide) (below d.isLt (by decide)) (below a.isLt (by decide)) (below b.isLt (by decide)) (by decide) (by decide) (by decide))
theorem mnot (d : Reg3) (a : Reg3) : Statement (.mnot d a) :=
  of_word 32 (layV 16 d.toNat a.toNat 0 0 0 27) rfl rfl (layV_fits (by decide) (below d.isLt (by decide)) (below a.isLt (by decide)) (by decide) (by decide) (by decide) (by decide))
theorem mmv (d : Reg3) (a : Reg3) : Statement (.mmv d a) :=
  of_word 32 (layV 16 d.toNat a.toNat 0 0 0 31) rfl rfl (layV_fits (by decide) (below d.isLt (by decide)) (below a.isLt (by decide)) (by decide) (by decide) (by decide) (by decide))
theorem mpop (d : Reg) (a : Reg3) : Statement (.mpop d a) :=
  of_word 32 (layV 16 d.toNat a.toNat 0 0 0 28) rfl rfl (layV_fits (by decide) (below d.isLt (by decide)) (below a.isLt (by decide)) (by decide) (by decide) (by decide) (by decide))
theorem mfirst (d : Reg) (a : Reg3) : Statement (.mfirst d a) :=
  of_word 32 (layV 16 d.toNat a.toNat 0 0 0 29) rfl rfl (layV_fits (by decide) (below d.isLt (by decide)) (below a.isLt (by decide)) (by decide) (by decide) (by decide) (by decide))
theorem mset (d : Reg3) : Statement (.mset d) :=
  of_word 32 (layV 16 d.toNat 0 0 0 0 30) rfl rfl (layV_fits (by decide) (below d.isLt (by decide)) (by decide) (by decide) (by decide) (by decide) (by decide))
theorem vslideup (d : Reg) (a : Reg) (b : VOp) (m : Reg3) : Statement (.vslideup d a b m) :=
  of_word 32 (layV 17 d.toNat a.toNat b.field m.toNat b.opf 0) rfl rfl (layV_fits (by decide) (below d.isLt (by decide)) (below a.isLt (by decide)) (VOp.field_lt b) (below m.isLt (by decide)) (VOp.opf_lt b) (by decide))
theorem vslidedn (d : Reg) (a : Reg) (b : VOp) (m : Reg3) : Statement (.vslidedn d a b m) :=
  of_word 32 (layV 17 d.toNat a.toNat b.field m.toNat b.opf 1) rfl rfl (layV_fits (by decide) (below d.isLt (by decide)) (below a.isLt (by decide)) (VOp.field_lt b) (below m.isLt (by decide)) (VOp.opf_lt b) (by decide))
theorem vgather (d : Reg) (a : Reg) (b : Reg) (m : Reg3) : Statement (.vgather d a b m) :=
  of_word 32 (layV 17 d.toNat a.toNat b.toNat m.toNat 0 2) rfl rfl (layV_fits (by decide) (below d.isLt (by decide)) (below a.isLt (by decide)) (below b.isLt (by decide)) (below m.isLt (by decide)) (by decide) (by decide))
theorem vcompress (d : Reg) (a : Reg) (m : Reg3) : Statement (.vcompress d a m) :=
  of_word 32 (layV 17 d.toNat a.toNat 0 m.toNat 0 3) rfl rfl (layV_fits (by decide) (below d.isLt (by decide)) (below a.isLt (by decide)) (by decide) (below m.isLt (by decide)) (by decide) (by decide))
theorem vbcast (d : Reg) (b : Reg) (m : Reg3) : Statement (.vbcast d b m) :=
  of_word 32 (layV 17 d.toNat 0 b.toNat m.toNat 1 4) rfl rfl (layV_fits (by decide) (below d.isLt (by decide)) (by decide) (below b.isLt (by decide)) (below m.isLt (by decide)) (by decide) (by decide))
theorem vid (d : Reg) (m : Reg3) : Statement (.vid d m) :=
  of_word 32 (layV 17 d.toNat 0 0 m.toNat 0 5) rfl rfl (layV_fits (by decide) (below d.isLt (by decide)) (by decide) (by decide) (below m.isLt (by decide)) (by decide) (by decide))
theorem vmerge (d : Reg) (a : Reg) (b : VOp) (m : Reg3) : Statement (.vmerge d a b m) :=
  of_word 32 (layV 17 d.toNat a.toNat b.field m.toNat b.opf 6) rfl rfl (layV_fits (by decide) (below d.isLt (by decide)) (below a.isLt (by decide)) (VOp.field_lt b) (below m.isLt (by decide)) (VOp.opf_lt b) (by decide))
theorem vmv (d : Reg) (a : Reg) (m : Reg3) : Statement (.vmv d a m) :=
  of_word 32 (layV 17 d.toNat a.toNat 0 m.toNat 0 7) rfl rfl (layV_fits (by decide) (below d.isLt (by decide)) (below a.isLt (by decide)) (by decide) (below m.isLt (by decide)) (by decide) (by decide))
theorem vmvsx (d : Reg) (b : Reg) : Statement (.vmvsx d b) :=
  of_word 32 (layV 17 d.toNat 0 b.toNat 0 1 8) rfl rfl (layV_fits (by decide) (below d.isLt (by decide)) (by decide) (below b.isLt (by decide)) (by decide) (by decide) (by decide))
theorem vmvxs (d : Reg) (a : Reg) : Statement (.vmvxs d a) :=
  of_word 32 (layV 17 d.toNat a.toNat 0 0 0 9) rfl rfl (layV_fits (by decide) (below d.isLt (by decide)) (below a.isLt (by decide)) (by decide) (by decide) (by decide) (by decide))
theorem vext (d : Reg) (a : Reg) (b : VOp) : Statement (.vext d a b) :=
  of_word 32 (layV 17 d.toNat a.toNat b.field 0 b.opf 10) rfl rfl (layV_fits (by decide) (below d.isLt (by decide)) (below a.isLt (by decide)) (VOp.field_lt b) (by decide) (VOp.opf_lt b) (by decide))
theorem vcvt (d : Reg) (a : Reg) (s : BitVec 4) (m : Reg3) : Statement (.vcvt d a s m) :=
  of_word 32 (layV 18 d.toNat a.toNat s.toNat m.toNat 0 0) rfl rfl (layV_fits (by decide) (below d.isLt (by decide)) (below a.isLt (by decide)) (below s.isLt (by decide)) (below m.isLt (by decide)) (by decide) (by decide))
theorem vcvti (d : Reg) (a : Reg) (s : BitVec 4) (m : Reg3) : Statement (.vcvti d a s m) :=
  of_word 32 (layV 18 d.toNat a.toNat s.toNat m.toNat 0 1) rfl rfl (layV_fits (by decide) (below d.isLt (by decide)) (below a.isLt (by decide)) (below s.isLt (by decide)) (below m.isLt (by decide)) (by decide) (by decide))
theorem vquant (d : Reg) (a : Reg) (k : Reg3) (m : Reg3) : Statement (.vquant d a k m) :=
  of_word 32 (layV 18 d.toNat a.toNat k.toNat m.toNat 0 2) rfl rfl (layV_fits (by decide) (below d.isLt (by decide)) (below a.isLt (by decide)) (below k.isLt (by decide)) (below m.isLt (by decide)) (by decide) (by decide))
theorem vredsum (d : Reg) (a : Reg) (b : Reg) (m : Reg3) : Statement (.vredsum d a b m) :=
  of_word 32 (layV 18 d.toNat a.toNat b.toNat m.toNat 1 8) rfl rfl (layV_fits (by decide) (below d.isLt (by decide)) (below a.isLt (by decide)) (below b.isLt (by decide)) (below m.isLt (by decide)) (by decide) (by decide))
theorem vredmax (d : Reg) (a : Reg) (b : Reg) (m : Reg3) : Statement (.vredmax d a b m) :=
  of_word 32 (layV 18 d.toNat a.toNat b.toNat m.toNat 1 9) rfl rfl (layV_fits (by decide) (below d.isLt (by decide)) (below a.isLt (by decide)) (below b.isLt (by decide)) (below m.isLt (by decide)) (by decide) (by decide))
theorem vredmin (d : Reg) (a : Reg) (b : Reg) (m : Reg3) : Statement (.vredmin d a b m) :=
  of_word 32 (layV 18 d.toNat a.toNat b.toNat m.toNat 1 10) rfl rfl (layV_fits (by decide) (below d.isLt (by decide)) (below a.isLt (by decide)) (below b.isLt (by decide)) (below m.isLt (by decide)) (by decide) (by decide))
theorem vfredsum (d : Reg) (a : Reg) (b : Reg) (m : Reg3) : Statement (.vfredsum d a b m) :=
  of_word 32 (layV 18 d.toNat a.toNat b.toNat m.toNat 1 11) rfl rfl (layV_fits (by decide) (below d.isLt (by decide)) (below a.isLt (by decide)) (below b.isLt (by decide)) (below m.isLt (by decide)) (by decide) (by decide))
theorem vfredosum (d : Reg) (a : Reg) (b : Reg) (m : Reg3) : Statement (.vfredosum d a b m) :=
  of_word 32 (layV 18 d.toNat a.toNat b.toNat m.toNat 1 12) rfl rfl (layV_fits (by decide) (below d.isLt (by decide)) (below a.isLt (by decide)) (below b.isLt (by decide)) (below m.isLt (by decide)) (by decide) (by decide))
theorem vfredmax (d : Reg) (a : Reg) (b : Reg) (m : Reg3) : Statement (.vfredmax d a b m) :=
  of_word 32 (layV 18 d.toNat a.toNat b.toNat m.toNat 1 13) rfl rfl (layV_fits (by decide) (below d.isLt (by decide)) (below a.isLt (by decide)) (below b.isLt (by decide)) (below m.isLt (by decide)) (by decide) (by decide))
theorem vld (d : Reg) (a : Reg) (m : Reg3) (w : MemW) : Statement (.vld d a m w) :=
  of_word 32 (layVM 19 d.toNat a.toNat 0 m.toNat 0 0 w.code) rfl rfl (layVM_fits (by decide) (below d.isLt (by decide)) (below a.isLt (by decide)) (by decide) (below m.isLt (by decide)) (by decide) (by decide) (MemW.code_lt w))
theorem vst (d : Reg) (a : Reg) (m : Reg3) (w : MemW) : Statement (.vst d a m w) :=
  of_word 32 (layVM 20 d.toNat a.toNat 0 m.toNat 0 0 w.code) rfl rfl (layVM_fits (by decide) (below d.isLt (by decide)) (below a.isLt (by decide)) (by decide) (below m.isLt (by decide)) (by decide) (by decide) (MemW.code_lt w))
theorem vlds (d : Reg) (a : Reg) (b : Reg) (m : Reg3) (w : MemW) : Statement (.vlds d a b m w) :=
  of_word 32 (layVM 19 d.toNat a.toNat b.toNat m.toNat 1 0 w.code) rfl rfl (layVM_fits (by decide) (below d.isLt (by decide)) (below a.isLt (by decide)) (below b.isLt (by decide)) (below m.isLt (by decide)) (by decide) (by decide) (MemW.code_lt w))
theorem vldx (d : Reg) (a : Reg) (b : Reg) (m : Reg3) (w : MemW) : Statement (.vldx d a b m w) :=
  of_word 32 (layVM 19 d.toNat a.toNat b.toNat m.toNat 2 0 w.code) rfl rfl (layVM_fits (by decide) (below d.isLt (by decide)) (below a.isLt (by decide)) (below b.isLt (by decide)) (below m.isLt (by decide)) (by decide) (by decide) (MemW.code_lt w))
theorem vsts (d : Reg) (a : Reg) (b : Reg) (m : Reg3) (w : MemW) : Statement (.vsts d a b m w) :=
  of_word 32 (layVM 20 d.toNat a.toNat b.toNat m.toNat 1 0 w.code) rfl rfl (layVM_fits (by decide) (below d.isLt (by decide)) (below a.isLt (by decide)) (below b.isLt (by decide)) (below m.isLt (by decide)) (by decide) (by decide) (MemW.code_lt w))
theorem vstx (d : Reg) (a : Reg) (b : Reg) (m : Reg3) (w : MemW) : Statement (.vstx d a b m w) :=
  of_word 32 (layVM 20 d.toNat a.toNat b.toNat m.toNat 2 0 w.code) rfl rfl (layVM_fits (by decide) (below d.isLt (by decide)) (below a.isLt (by decide)) (below b.isLt (by decide)) (below m.isLt (by decide)) (by decide) (by decide) (MemW.code_lt w))
theorem vlseg (d : Reg) (a : Reg) (nf : Reg3) (m : Reg3) (w : MemW) : Statement (.vlseg d a nf m w) :=
  of_word 32 (layVM 19 d.toNat a.toNat 0 m.toNat 3 nf.toNat w.code) rfl rfl (layVM_fits (by decide) (below d.isLt (by decide)) (below a.isLt (by decide)) (by decide) (below m.isLt (by decide)) (by decide) (below nf.isLt (by decide)) (MemW.code_lt w))
theorem vsseg (d : Reg) (a : Reg) (nf : Reg3) (m : Reg3) (w : MemW) : Statement (.vsseg d a nf m w) :=
  of_word 32 (layVM 20 d.toNat a.toNat 0 m.toNat 3 nf.toNat w.code) rfl rfl (layVM_fits (by decide) (below d.isLt (by decide)) (below a.isLt (by decide)) (by decide) (below m.isLt (by decide)) (by decide) (below nf.isLt (by decide)) (MemW.code_lt w))
theorem vamoAdd (d : Reg) (a : Reg) (b : Reg) (m : Reg3) : Statement (.vamoAdd d a b m) :=
  of_word 32 (layR 21 d.toNat a.toNat b.toNat m.toNat 0) rfl rfl (layR_fits (by decide) (below d.isLt (by decide)) (below a.isLt (by decide)) (below b.isLt (by decide)) (below m.isLt (by decide)) (by decide))
theorem vamoSwap (d : Reg) (a : Reg) (b : Reg) (m : Reg3) : Statement (.vamoSwap d a b m) :=
  of_word 32 (layR 21 d.toNat a.toNat b.toNat m.toNat 1) rfl rfl (layR_fits (by decide) (below d.isLt (by decide)) (below a.isLt (by decide)) (below b.isLt (by decide)) (below m.isLt (by decide)) (by decide))
theorem vamoMin (d : Reg) (a : Reg) (b : Reg) (m : Reg3) : Statement (.vamoMin d a b m) :=
  of_word 32 (layR 21 d.toNat a.toNat b.toNat m.toNat 3) rfl rfl (layR_fits (by decide) (below d.isLt (by decide)) (below a.isLt (by decide)) (below b.isLt (by decide)) (below m.isLt (by decide)) (by decide))
theorem vamoMax (d : Reg) (a : Reg) (b : Reg) (m : Reg3) : Statement (.vamoMax d a b m) :=
  of_word 32 (layR 21 d.toNat a.toNat b.toNat m.toNat 4) rfl rfl (layR_fits (by decide) (below d.isLt (by decide)) (below a.isLt (by decide)) (below b.isLt (by decide)) (below m.isLt (by decide)) (by decide))
theorem vamoAnd (d : Reg) (a : Reg) (b : Reg) (m : Reg3) : Statement (.vamoAnd d a b m) :=
  of_word 32 (layR 21 d.toNat a.toNat b.toNat m.toNat 5) rfl rfl (layR_fits (by decide) (below d.isLt (by decide)) (below a.isLt (by decide)) (below b.isLt (by decide)) (below m.isLt (by decide)) (by decide))
theorem vamoOr (d : Reg) (a : Reg) (b : Reg) (m : Reg3) : Statement (.vamoOr d a b m) :=
  of_word 32 (layR 21 d.toNat a.toNat b.toNat m.toNat 6) rfl rfl (layR_fits (by decide) (below d.isLt (by decide)) (below a.isLt (by decide)) (below b.isLt (by decide)) (below m.isLt (by decide)) (by decide))
theorem vamoXor (d : Reg) (a : Reg) (b : Reg) (m : Reg3) : Statement (.vamoXor d a b m) :=
  of_word 32 (layR 21 d.toNat a.toNat b.toNat m.toNat 7) rfl rfl (layR_fits (by decide) (below d.isLt (by decide)) (below a.isLt (by decide)) (below b.isLt (by decide)) (below m.isLt (by decide)) (by decide))
theorem vwait (a : Reg) (b : Reg) : Statement (.vwait a b) :=
  of_word 32 (layR 21 0 a.toNat b.toNat 0 8) rfl rfl (layR_fits (by decide) (by decide) (below a.isLt (by decide)) (below b.isLt (by decide)) (by decide) (by decide))
theorem vsred (d : Reg) (a : Reg) (m : Reg3) : Statement (.vsred d a m) :=
  of_word 32 (layR 21 d.toNat a.toNat 0 m.toNat 9) rfl rfl (layR_fits (by decide) (below d.isLt (by decide)) (below a.isLt (by decide)) (by decide) (below m.isLt (by decide)) (by decide))
theorem awdecl (a : Reg) (b : Reg) : Statement (.awdecl a b) :=
  of_word 32 (layR 21 0 a.toNat b.toNat 0 10) rfl rfl (layR_fits (by decide) (by decide) (below a.isLt (by decide)) (below b.isLt (by decide)) (by decide) (by decide))
theorem awmerge (a : Reg) : Statement (.awmerge a) :=
  of_word 32 (layR 21 0 a.toNat 0 0 11) rfl rfl (layR_fits (by decide) (by decide) (below a.isLt (by decide)) (by decide) (by decide) (by decide))
theorem wmpub (n : BitVec 4) (b : Reg) : Statement (.wmpub n b) :=
  of_word 32 (layR 21 n.toNat 0 b.toNat 0 12) rfl rfl (layR_fits (by decide) (below n.isLt (by decide)) (by decide) (below b.isLt (by decide)) (by decide) (by decide))
theorem wmset (n : BitVec 4) (a : Reg) : Statement (.wmset n a) :=
  of_word 32 (layR 21 n.toNat a.toNat 0 0 13) rfl rfl (layR_fits (by decide) (below n.isLt (by decide)) (below a.isLt (by decide)) (by decide) (by decide) (by decide))
theorem wmclr (n : BitVec 4) : Statement (.wmclr n) :=
  of_word 32 (layR 21 n.toNat 0 0 0 14) rfl rfl (layR_fits (by decide) (below n.isLt (by decide)) (by decide) (by decide) (by decide) (by decide))
theorem gbar : Statement (.gbar) :=
  of_word 32 (layR 21 0 0 0 0 15) rfl rfl (layR_fits (by decide) (by decide) (by decide) (by decide) (by decide) (by decide))
theorem gjoin (d : Reg) (a : Reg) : Statement (.gjoin d a) :=
  of_word 32 (layR 21 d.toNat a.toNat 0 0 16) rfl rfl (layR_fits (by decide) (below d.isLt (by decide)) (below a.isLt (by decide)) (by decide) (by decide) (by decide))
theorem gleave : Statement (.gleave) :=
  of_word 32 (layR 21 0 0 0 0 17) rfl rfl (layR_fits (by decide) (by decide) (by decide) (by decide) (by decide) (by decide))
theorem vregion (a : Reg3) (off : BitVec 12) : Statement (.vregion a off) :=
  of_word 32 (layI 22 a.toNat 0 0 off.toNat) rfl rfl (layI_fits (by decide) (below a.isLt (by decide)) (by decide) (by decide) (below off.isLt (by decide)))
theorem vloop (a : Reg) (off : BitVec 12) : Statement (.vloop a off) :=
  of_word 32 (layI 22 a.toNat 0 1 off.toNat) rfl rfl (layI_fits (by decide) (below a.isLt (by decide)) (by decide) (by decide) (below off.isLt (by decide)))
theorem vloopP (a : Reg) (off : BitVec 12) : Statement (.vloopP a off) :=
  of_word 32 (layI 22 a.toNat 0 2 off.toNat) rfl rfl (layI_fits (by decide) (below a.isLt (by decide)) (by decide) (by decide) (below off.isLt (by decide)))
theorem bany (a : Reg3) (off : BitVec 12) : Statement (.bany a off) :=
  of_word 32 (layI 22 a.toNat 0 3 off.toNat) rfl rfl (layI_fits (by decide) (below a.isLt (by decide)) (by decide) (by decide) (below off.isLt (by decide)))
theorem ball (a : Reg3) (off : BitVec 12) : Statement (.ball a off) :=
  of_word 32 (layI 22 a.toNat 0 4 off.toNat) rfl rfl (layI_fits (by decide) (below a.isLt (by decide)) (by decide) (by decide) (below off.isLt (by decide)))
theorem bnone (a : Reg3) (off : BitVec 12) : Statement (.bnone a off) :=
  of_word 32 (layI 22 a.toNat 0 5 off.toNat) rfl rfl (layI_fits (by decide) (below a.isLt (by decide)) (by decide) (by decide) (below off.isLt (by decide)))
theorem bsend (a : Reg) (off : BitVec 12) : Statement (.bsend a off) :=
  of_word 32 (layI 22 a.toNat 0 6 off.toNat) rfl rfl (layI_fits (by decide) (below a.isLt (by decide)) (by decide) (by decide) (below off.isLt (by decide)))
theorem vlend : Statement (.vlend) :=
  of_word 32 (layI 22 0 0 7 0) rfl rfl (layI_fits (by decide) (by decide) (by decide) (by decide) (by decide))
theorem vrend : Statement (.vrend) :=
  of_word 32 (layI 22 0 0 7 1) rfl rfl (layI_fits (by decide) (by decide) (by decide) (by decide) (by decide))
theorem vsbind (d : Reg) (a : Reg) : Statement (.vsbind d a) :=
  of_word 32 (layR 23 d.toNat a.toNat 0 0 0) rfl rfl (layR_fits (by decide) (below d.isLt (by decide)) (below a.isLt (by decide)) (by decide) (by decide) (by decide))
theorem vsunbind (d : Reg) : Statement (.vsunbind d) :=
  of_word 32 (layR 23 d.toNat 0 0 0 1) rfl rfl (layR_fits (by decide) (below d.isLt (by decide)) (by decide) (by decide) (by decide) (by decide))
theorem vspill (d : Reg) (a : Reg) : Statement (.vspill d a) :=
  of_word 32 (layI 24 d.toNat a.toNat 0 0) rfl rfl (layI_fits (by decide) (below d.isLt (by decide)) (below a.isLt (by decide)) (by decide) (by decide))
theorem vfill (d : Reg) (a : Reg) : Statement (.vfill d a) :=
  of_word 32 (layI 24 d.toNat a.toNat 1 0) rfl rfl (layI_fits (by decide) (below d.isLt (by decide)) (below a.isLt (by decide)) (by decide) (by decide))
theorem gspill (d : Reg) (a : Reg) (imm : BitVec 12) : Statement (.gspill d a imm) :=
  of_word 32 (layI 24 d.toNat a.toNat 2 imm.toNat) rfl rfl (layI_fits (by decide) (below d.isLt (by decide)) (below a.isLt (by decide)) (by decide) (below imm.isLt (by decide)))
theorem gfill (d : Reg) (a : Reg) (imm : BitVec 12) : Statement (.gfill d a imm) :=
  of_word 32 (layI 24 d.toNat a.toNat 3 imm.toNat) rfl rfl (layI_fits (by decide) (below d.isLt (by decide)) (below a.isLt (by decide)) (by decide) (below imm.isLt (by decide)))
theorem cpy (d : Reg) (a : Reg) (b : Reg) (m : Reg3) : Statement (.cpy d a b m) :=
  of_word 32 (layR 25 d.toNat a.toNat b.toNat m.toNat 0) rfl rfl (layR_fits (by decide) (below d.isLt (by decide)) (below a.isLt (by decide)) (below b.isLt (by decide)) (below m.isLt (by decide)) (by decide))
theorem cpyx (a : Reg) (m : Reg3) : Statement (.cpyx a m) :=
  of_word 32 (layR 25 0 a.toNat 0 m.toNat 1) rfl rfl (layR_fits (by decide) (by decide) (below a.isLt (by decide)) (by decide) (below m.isLt (by decide)) (by decide))
theorem cpb (m : Reg3) (b : Reg) : Statement (.cpb m b) :=
  of_word 32 (layR 25 0 0 b.toNat m.toNat 2) rfl rfl (layR_fits (by decide) (by decide) (by decide) (below b.isLt (by decide)) (below m.isLt (by decide)) (by decide))
theorem cpwait (m : Reg3) : Statement (.cpwait m) :=
  of_word 32 (layR 25 0 0 0 m.toNat 3) rfl rfl (layR_fits (by decide) (by decide) (by decide) (by decide) (below m.isLt (by decide)) (by decide))
theorem swpout (d : Reg) (a : Reg) : Statement (.swpout d a) :=
  of_word 32 (layR 26 d.toNat a.toNat 0 0 0) rfl rfl (layR_fits (by decide) (below d.isLt (by decide)) (below a.isLt (by decide)) (by decide) (by decide) (by decide))
theorem swpin (d : Reg) (a : Reg) : Statement (.swpin d a) :=
  of_word 32 (layR 26 d.toNat a.toNat 0 0 1) rfl rfl (layR_fits (by decide) (below d.isLt (by decide)) (below a.isLt (by decide)) (by decide) (by decide) (by decide))
theorem xfer (d : Reg) (a : Reg) : Statement (.xfer d a) :=
  of_word 32 (layR 26 d.toNat a.toNat 0 0 2) rfl rfl (layR_fits (by decide) (below d.isLt (by decide)) (below a.isLt (by decide)) (by decide) (by decide) (by decide))
theorem launch (d : Reg) (a : Reg) : Statement (.launch d a) :=
  of_word 32 (layR 26 d.toNat a.toNat 0 0 3) rfl rfl (layR_fits (by decide) (below d.isLt (by decide)) (below a.isLt (by decide)) (by decide) (by decide) (by decide))
theorem launchNb (d : Reg) (a : Reg) : Statement (.launchNb d a) :=
  of_word 32 (layR 26 d.toNat a.toNat 0 0 4) rfl rfl (layR_fits (by decide) (below d.isLt (by decide)) (below a.isLt (by decide)) (by decide) (by decide) (by decide))
theorem mattach (n : BitVec 7) : Statement (.mattach n) :=
  of_word 64 (layM 0 0 0 0 0 0 n.toNat 0 0) rfl rfl (layM_fits (by decide) (by decide) (by decide) (by decide) (by decide) (by decide) (below n.isLt (by decide)) (by decide) (by decide))
theorem mdetach : Statement (.mdetach) :=
  of_word 64 (layM 1 0 0 0 0 0 0 0 0) rfl rfl (layM_fits (by decide) (by decide) (by decide) (by decide) (by decide) (by decide) (by decide) (by decide) (by decide))
theorem mzero : Statement (.mzero) :=
  of_word 64 (layM 2 0 0 0 0 0 0 0 0) rfl rfl (layM_fits (by decide) (by decide) (by decide) (by decide) (by decide) (by decide) (by decide) (by decide) (by decide))
theorem vmma (t : ElemTy) (c : BitVec 6) (a : Reg) (b : Reg) (n : BitVec 7) (m : Reg3) : Statement (.vmma t c a b n m) :=
  of_word 64 (layM 3 t.code c.toNat m.toNat a.toNat b.toNat n.toNat 0 0) rfl rfl (layM_fits (by decide) (ElemTy.code_lt t) (below c.isLt (by decide)) (below m.isLt (by decide)) (below a.isLt (by decide)) (below b.isLt (by decide)) (below n.isLt (by decide)) (by decide) (by decide))
theorem vmmas (c : BitVec 6) (a : Reg) (b : Reg) (n : BitVec 7) (x : Reg3) (y : Reg3) (m : Reg3) : Statement (.vmmas c a b n x y m) :=
  of_word 64 (layM 4 13 c.toNat m.toNat a.toNat b.toNat n.toNat x.toNat y.toNat) rfl rfl (layM_fits (by decide) (by decide) (below c.isLt (by decide)) (below m.isLt (by decide)) (below a.isLt (by decide)) (below b.isLt (by decide)) (below n.isLt (by decide)) (below x.isLt (by decide)) (below y.isLt (by decide)))
theorem mext (d : Reg) (c : BitVec 6) (t : ElemTy) (m : Reg3) : Statement (.mext d c t m) :=
  of_word 64 (layM 5 t.code c.toNat m.toNat d.toNat 0 0 0 0) rfl rfl (layM_fits (by decide) (ElemTy.code_lt t) (below c.isLt (by decide)) (below m.isLt (by decide)) (below d.isLt (by decide)) (by decide) (by decide) (by decide) (by decide))
theorem mins (c : BitVec 6) (a : Reg) (t : ElemTy) (m : Reg3) : Statement (.mins c a t m) :=
  of_word 64 (layM 6 t.code c.toNat m.toNat a.toNat 0 0 0 0) rfl rfl (layM_fits (by decide) (ElemTy.code_lt t) (below c.isLt (by decide)) (below m.isLt (by decide)) (below a.isLt (by decide)) (by decide) (by decide) (by decide) (by decide))
theorem cAddi (d : Reg) (imm : BitVec 7) : Statement (.cAddi d imm) :=
  of_word 16 (layC8 0 d.toNat imm.toNat) rfl rfl (layC8_fits (by decide) (below d.isLt (by decide)) (below imm.isLt (by decide)))
theorem cLi (d : Reg) (imm : BitVec 7) : Statement (.cLi d imm) :=
  of_word 16 (layC8 1 d.toNat imm.toNat) rfl rfl (layC8_fits (by decide) (below d.isLt (by decide)) (below imm.isLt (by decide)))
theorem cMv (d : Reg) (a : Reg) : Statement (.cMv d a) :=
  of_word 16 (layCR d.toNat a.toNat 0) rfl rfl (layCR_fits (below d.isLt (by decide)) (below a.isLt (by decide)) (by decide))
theorem cAdd (d : Reg) (a : Reg) : Statement (.cAdd d a) :=
  of_word 16 (layCR d.toNat a.toNat 1) rfl rfl (layCR_fits (below d.isLt (by decide)) (below a.isLt (by decide)) (by decide))
theorem cSub (d : Reg) (a : Reg) : Statement (.cSub d a) :=
  of_word 16 (layCR d.toNat a.toNat 2) rfl rfl (layCR_fits (below d.isLt (by decide)) (below a.isLt (by decide)) (by decide))
theorem cAnd (d : Reg) (a : Reg) : Statement (.cAnd d a) :=
  of_word 16 (layCR d.toNat a.toNat 3) rfl rfl (layCR_fits (below d.isLt (by decide)) (below a.isLt (by decide)) (by decide))
theorem cLdd (d : Reg3) (a : Reg3) (off : BitVec 6) : Statement (.cLdd d a off) :=
  of_word 16 (layC3 3 d.toNat a.toNat off.toNat) rfl rfl (layC3_fits (by decide) (below d.isLt (by decide)) (below a.isLt (by decide)) (below off.isLt (by decide)))
theorem cStd (d : Reg3) (a : Reg3) (off : BitVec 6) : Statement (.cStd d a off) :=
  of_word 16 (layC3 4 d.toNat a.toNat off.toNat) rfl rfl (layC3_fits (by decide) (below d.isLt (by decide)) (below a.isLt (by decide)) (below off.isLt (by decide)))
theorem cLdw (d : Reg3) (a : Reg3) (off : BitVec 6) : Statement (.cLdw d a off) :=
  of_word 16 (layC3 5 d.toNat a.toNat off.toNat) rfl rfl (layC3_fits (by decide) (below d.isLt (by decide)) (below a.isLt (by decide)) (below off.isLt (by decide)))
theorem cBeqz (a : Reg3) (off : BitVec 8) : Statement (.cBeqz a off) :=
  of_word 16 (layCB a.toNat 0 off.toNat) rfl rfl (layCB_fits (below a.isLt (by decide)) (by decide) (below off.isLt (by decide)))
theorem cBnez (a : Reg3) (off : BitVec 8) : Statement (.cBnez a off) :=
  of_word 16 (layCB a.toNat 1 off.toNat) rfl rfl (layCB_fits (below a.isLt (by decide)) (by decide) (below off.isLt (by decide)))
theorem cJ (off : BitVec 9) : Statement (.cJ off) :=
  of_word 16 (layC7 0 off.toNat) rfl rfl (layC7_fits (by decide) (below off.isLt (by decide)))
theorem cJr (a : Reg) : Statement (.cJr a) :=
  of_word 16 (layC7 1 (a.toNat * 2 ^ 4)) rfl rfl (layC7_fits (by decide) (by have := a.isLt; omega))
theorem cExit : Statement (.cExit) :=
  of_word 16 (layC7 2 0) rfl rfl (layC7_fits (by decide) (by decide))
theorem cVlend : Statement (.cVlend) :=
  of_word 16 (layC7 3 0) rfl rfl (layC7_fits (by decide) (by decide))
theorem cSafept : Statement (.cSafept) :=
  of_word 16 (layC7 4 0) rfl rfl (layC7_fits (by decide) (by decide))
theorem cYield : Statement (.cYield) :=
  of_word 16 (layC7 5 0) rfl rfl (layC7_fits (by decide) (by decide))
theorem waitwWake (x0 : Nat) : Statement (.waitwWake x0) := of_event rfl
theorem ecallReply (x0 : Nat) : Statement (.ecallReply x0) := of_event rfl
theorem exitComplete (x0 : Nat) : Statement (.exitComplete x0) := of_event rfl
theorem mvreqComplete (x0 : Nat) : Statement (.mvreqComplete x0) := of_event rfl
theorem vwaitWake (x0 : Nat) : Statement (.vwaitWake x0) := of_event rfl
theorem vwaitTimeout (x0 : Nat) : Statement (.vwaitTimeout x0) := of_event rfl
theorem awmergeApply (x0 : Nat) : Statement (.awmergeApply x0) := of_event rfl
theorem chunkDelivery (x0 : Reg) : Statement (.chunkDelivery x0) := of_event rfl
theorem cpwaitComplete (x0 : Nat) : Statement (.cpwaitComplete x0) := of_event rfl
theorem copyChunk (x0 : Nat) : Statement (.copyChunk x0) := of_event rfl
theorem swpoutComplete (x0 : Nat) : Statement (.swpoutComplete x0) := of_event rfl
theorem swpinBlockLanded (x0 : Nat) : Statement (.swpinBlockLanded x0) := of_event rfl
theorem swpinComplete (x0 : Nat) : Statement (.swpinComplete x0) := of_event rfl
theorem xferLayer (x0 : Nat) : Statement (.xferLayer x0) := of_event rfl
theorem xferComplete (x0 : Nat) : Statement (.xferComplete x0) := of_event rfl
theorem illegalEncoding (x0 : DecodeError) (x1 : Word) : Statement (.illegalEncoding x0 x1) := of_event rfl
theorem issueBeat (x0 : Nat) : Statement (.issueBeat x0) := of_event rfl
theorem laneShiftRepair (x0 : Nat) (x1 : BitVec 2) (x2 : HalfSel) (x3 : Option (BitVec 16)) : Statement (.laneShiftRepair x0 x1 x2 x3) := of_event rfl
theorem frameBoundary (x0 : Nat) : Statement (.frameBoundary x0) := of_event rfl
theorem accessPerform (x0 : Nat) (x1 : Nat) : Statement (.accessPerform x0 x1) := of_event rfl
theorem replyWrite (x0 : Nat) (x1 : Nat) : Statement (.replyWrite x0 x1) := of_event rfl
theorem coldTierStoreError (x0 : Nat) (x1 : Nat) : Statement (.coldTierStoreError x0 x1) := of_event rfl
theorem watermarkTimeout (x0 : Nat) (x1 : BitVec 4) : Statement (.watermarkTimeout x0 x1) := of_event rfl
theorem trapEntry (x0 : Nat) : Statement (.trapEntry x0) := of_event rfl
theorem launchStart (x0 : Nat) (x1 : List Nat) : Statement (.launchStart x0 x1) := of_event rfl
theorem ringFetch (x0 : Nat) (x1 : Nat) : Statement (.ringFetch x0 x1) := of_event rfl
theorem notifyWrite (x0 : Nat) (x1 : Option Nat) (x2 : BitVec 32) : Statement (.notifyWrite x0 x1 x2) := of_event rfl
theorem hostInterrupt (x0 : Nat) (x1 : Option Nat) : Statement (.hostInterrupt x0 x1) := of_event rfl
theorem hostApertureAccess (x0 : BarFunction) (x1 : Nat) (x2 : ExtAccess) : Statement (.hostApertureAccess x0 x1 x2) := of_event rfl
theorem dlaunch (x0 : Word) : Statement (.dlaunch x0) := of_event rfl
theorem peerAccess (x0 : BitVec 16) (x1 : BitVec 4) (x2 : BitVec 4) (x3 : Nat) (x4 : ExtAccess) : Statement (.peerAccess x0 x1 x2 x3 x4) := of_event rfl
theorem sliceEnd (x0 : Nat) : Statement (.sliceEnd x0) := of_event rfl
theorem contextSave (x0 : Nat) : Statement (.contextSave x0) := of_event rfl
theorem restore (x0 : Nat) (x1 : Nat) (x2 : List Nat) : Statement (.restore x0 x1 x2) := of_event rfl
theorem slotbaseWrite (x0 : Word) : Statement (.slotbaseWrite x0) := of_event rfl
theorem harnessWrite (x0 : Nat) (x1 : Word) : Statement (.harnessWrite x0 x1) := of_event rfl
theorem beatmapWrite (x0 : Nat) (x1 : Word) : Statement (.beatmapWrite x0 x1) := of_event rfl
theorem rowrangeWrite (x0 : Nat) (x1 : Word) : Statement (.rowrangeWrite x0 x1) := of_event rfl
theorem partWrite (x0 : Nat) (x1 : Word) : Statement (.partWrite x0 x1) := of_event rfl
theorem selvedgeWrite (x0 : Nat) (x1 : BitVec 4) (x2 : Word) : Statement (.selvedgeWrite x0 x1 x2) := of_event rfl
theorem notifybmWrite (x0 : Word) : Statement (.notifybmWrite x0) := of_event rfl
theorem wmCsrWrite (x0 : BitVec 4) (x1 : Word) : Statement (.wmCsrWrite x0 x1) := of_event rfl
theorem cpbCsrWrite (x0 : Reg3) (x1 : Word) : Statement (.cpbCsrWrite x0 x1) := of_event rfl
theorem loopRegisterWrite (x0 : LoopReg) (x1 : Word) : Statement (.loopRegisterWrite x0 x1) := of_event rfl
theorem stripWrite (x0 : Word) : Statement (.stripWrite x0) := of_event rfl
theorem vlCsrWrite (x0 : Word) : Statement (.vlCsrWrite x0) := of_event rfl
theorem vstartWrite (x0 : Word) : Statement (.vstartWrite x0) := of_event rfl
theorem registerWrite (x0 : RegDest) (x1 : Word) : Statement (.registerWrite x0 x1) := of_event rfl
theorem timerExpire (x0 : Nat) : Statement (.timerExpire x0) := of_event rfl
theorem uncorrectableError (x0 : ErrorSite) : Statement (.uncorrectableError x0) := of_event rfl
theorem securityAlarm (x0 : Alarm) : Statement (.securityAlarm x0) := of_event rfl
theorem quarantineRelease (x0 : Nat) : Statement (.quarantineRelease x0) := of_event rfl
theorem vaultControlWrite (x0 : Nat) (x1 : Word) : Statement (.vaultControlWrite x0 x1) := of_event rfl
theorem linkLaneFailure (x0 : Nat) (x1 : BitVec 3) : Statement (.linkLaneFailure x0 x1) := of_event rfl
theorem coldTierExpanderError (x0 : Nat) : Statement (.coldTierExpanderError x0) := of_event rfl
theorem thermalNotice (x0 : Nat) : Statement (.thermalNotice x0) := of_event rfl
theorem stackShutdown (x0 : Nat) : Statement (.stackShutdown x0) := of_event rfl
theorem powerNotice : Statement (.powerNotice) := of_event rfl
theorem bringUp : Statement (.bringUp) := of_event rfl
theorem firmwareSwitch : Statement (.firmwareSwitch) := of_event rfl
theorem certificateChain : Statement (.certificateChain) := of_event rfl
theorem version (x0 : Nat) : Statement (.version x0) := of_event rfl
theorem loadImage (x0 : Nat) : Statement (.loadImage x0) := of_event rfl
theorem unloadImage (x0 : Nat) : Statement (.unloadImage x0) := of_event rfl
theorem allocateWatermark (x0 : Nat) : Statement (.allocateWatermark x0) := of_event rfl
theorem freeWatermark (x0 : Nat) : Statement (.freeWatermark x0) := of_event rfl
theorem setSessionDirectory (x0 : Nat) : Statement (.setSessionDirectory x0) := of_event rfl
theorem readEventBlock (x0 : Nat) : Statement (.readEventBlock x0) := of_event rfl
theorem writeEventBlock (x0 : Nat) : Statement (.writeEventBlock x0) := of_event rfl
theorem terminate (x0 : Nat) : Statement (.terminate x0) := of_event rfl
theorem attestationQuote (x0 : Nat) : Statement (.attestationQuote x0) := of_event rfl
theorem peerWatermarkPublication (x0 : BitVec 16) (x1 : BitVec 4) (x2 : BitVec 4) (x3 : BitVec 16) (x4 : Nat) : Statement (.peerWatermarkPublication x0 x1 x2 x3 x4) := of_event rfl
theorem vaultRetirement (x0 : Nat) : Statement (.vaultRetirement x0) := of_event rfl

end Laws.Layout

end Sys2Proof
end

