-- ==== Sys2Proof/Laws/Vector.lean ====
section
/-!
SUPPORT. The vector side: elements in the rows, runs of results, masks (R18, R54, R224).
-/

namespace Sys2Proof.Machine

/-! ### Numbers as bytes -/

theorem leNat_lt (l : List Byte) : leNat l < 256 ^ l.length := by
  induction l with
  | nil => decide
  | cons b l ih =>
    have := b.isLt
    simp only [leNat, List.length_cons, Nat.pow_succ]
    omega

theorem leNat_leBytes (n x : Nat) : leNat (leBytes n x) = x % 256 ^ n := by
  induction n generalizing x with
  | zero => simp [leBytes, leNat, Nat.mod_one]
  | succ n ih =>
    have h : x % 256 ^ (n + 1) = x % 256 + 256 * (x / 256 % 256 ^ n) := by
      rw [Nat.pow_succ, Nat.mul_comm (256 ^ n), Nat.mod_mul]
    simp only [leBytes, leNat, ih, BitVec.toNat_ofNat, h]

/-- A number that has been written reads back. -/
theorem Mem.readNat_writeBytes (m : Mem) (a n x : Nat) : (m.writeBytes a (leBytes n x)).readNat a n = x % 256 ^ n := by
  have h := Mem.readBytes_writeBytes (leBytes n x) m a
  rw [leBytes_length] at h
  rw [Mem.readNat, h, leNat_leBytes]

/-- A number elsewhere reads as before. -/
theorem Mem.readNat_writeBytes_other (m : Mem) (a : Nat) (bs : List Byte) (b n : Nat) (h : b + n ≤ a ∨ a + bs.length ≤ b) :
    (m.writeBytes a bs).readNat b n = m.readNat b n := by
  unfold Mem.readNat
  rw [Mem.readBytes_congr]
  intro x h1 h2
  exact Mem.read_writeBytes_other bs m a x (by omega)

/-! ### The image of a window (R18) -/

theorem slabs_le (s : State) : slab0 s + slabs s ≤ 4 := by
  unfold slab0 slabs
  cases s.hart.par with
  | none => simp only [Option.isSome_none, Bool.false_eq_true, if_false]; omega
  | some p => simp only [Option.isSome_some, if_true]; omega

/-- Different bytes of an image are different bytes of the rows. -/
theorem imageKey_inj (s : State) (base a b : Nat) (h : imageKey s base a = imageKey s base b) : a = b := by
  have h4 := slabs_le s
  by_cases h0 : slabs s = 0
  · simp only [imageKey, rowBytes, h0, Nat.mul_zero, Nat.div_zero, Nat.mod_zero] at h
    omega
  · have hr : 0 < rowBytes s := by unfold rowBytes; omega
    have hle : slab0 s * 256 + rowBytes s ≤ 1024 := by unfold rowBytes; omega
    have ha := Nat.mod_lt a hr
    have hb := Nat.mod_lt b hr
    unfold imageKey at h
    have hq : a / rowBytes s = b / rowBytes s := by omega
    have hm : a % rowBytes s = b % rowBytes s := by omega
    rw [← Nat.div_add_mod a (rowBytes s), ← Nat.div_add_mod b (rowBytes s), hq, hm]

/-- The bytes of an aligned run of up to eight bytes follow each other. -/
theorem imageKey_run (s : State) (base a j n : Nat) (hn : n ∣ 256) (ha : n ∣ a) (hj : j < n) :
    imageKey s base (a + j) = imageKey s base a + j := by
  obtain ⟨k, hk⟩ := hn
  obtain ⟨i, rfl⟩ := ha
  have hn0 : 0 < n := by omega
  by_cases h0 : slabs s = 0
  · simp only [imageKey, rowBytes, h0, Nat.mul_zero, Nat.div_zero, Nat.mod_zero]
    omega
  · have hr : rowBytes s = n * (k * slabs s) := by rw [rowBytes, hk, Nat.mul_assoc]
    have hk0 : 0 < k := Nat.pos_of_ne_zero fun h => by subst h; omega
    have hq : (n * i + j) / rowBytes s = n * i / rowBytes s := by
      rw [hr, ← Nat.div_div_eq_div_mul (n * i + j) n, ← Nat.div_div_eq_div_mul (n * i) n, Nat.mul_add_div hn0, Nat.mul_div_cancel_left _ hn0,
        Nat.div_eq_of_lt hj, Nat.add_zero]
    have hm : (n * i + j) % rowBytes s = n * i % rowBytes s + j := by
      have h1 := Nat.div_add_mod (n * i + j) (rowBytes s)
      have h2 := Nat.div_add_mod (n * i) (rowBytes s)
      rw [hq] at h1
      omega
    unfold imageKey
    rw [hq, hm]
    omega

/-- The element widths of the types of R58. -/
def Width (w : Nat) : Prop := w = 4 ∨ w = 8 ∨ w = 16 ∨ w = 32 ∨ w = 64

theorem tyWidth_width (ty : ElemTy) : Width (tyWidth ty) := by
  cases ty <;> simp [Width, tyWidth]

/-! ### Elements -/

/-- The key of byte `j` of element `i` at a width of whole bytes. -/
theorem imageKey_elem (s : State) (base i j n : Nat) (hn : n = 1 ∨ n = 2 ∨ n = 4 ∨ n = 8) (hj : j < n) :
    imageKey s base (i * n + j) = imageKey s base (i * n) + j :=
  imageKey_run s base (i * n) j n (by rcases hn with rfl | rfl | rfl | rfl <;> decide) ⟨i, Nat.mul_comm i n⟩ hj

theorem half_bytes (o x i : Nat) (ho : o < 256) :
    (BitVec.ofNat 8 (if i % 2 = 0 then o / 16 * 16 + x % 16 else o % 16 + x % 16 * 16)).toNat =
      if i % 2 = 0 then o / 16 * 16 + x % 16 else o % 16 + x % 16 * 16 := by
  rw [BitVec.toNat_ofNat]
  split <;> omega

/-- Reading an element from rows rather than from the state. -/
theorem readElem_eq (s : State) (base w i : Nat) : readElem s base w i =
    if w = 4 then (s.hart.rows.read (imageKey s base (i / 2))).toNat / 16 ^ (i % 2) % 16
    else s.hart.rows.readNat (imageKey s base (i * (w / 8))) (w / 8) := by
  unfold readElem
  split
  · have := (s.hart.rows.read (imageKey s base (i / 2))).isLt
    rcases Nat.mod_two_eq_zero_or_one i with h | h
    · simp only [h, if_true, Nat.pow_zero, Nat.div_one]
    · simp only [h, Nat.one_ne_zero, if_false, Nat.pow_one]
      omega
  · rfl

/-- Other rows, other replica settings alike: an element as some rows hold it. -/
def elemIn (s : State) (rows : Mem) (base w i : Nat) : Nat := readElem { s with hart := { s.hart with rows := rows } } base w i

theorem elemIn_eq (s : State) (rows : Mem) (base w i : Nat) : elemIn s rows base w i =
    if w = 4 then (rows.read (imageKey s base (i / 2))).toNat / 16 ^ (i % 2) % 16
    else rows.readNat (imageKey s base (i * (w / 8))) (w / 8) :=
  readElem_eq { s with hart := { s.hart with rows := rows } } base w i

theorem elemIn_rows (s : State) (base w i : Nat) : elemIn s s.hart.rows base w i = readElem s base w i := rfl

theorem width_bytes {w : Nat} (hw : Width w) (h4 : w ≠ 4) : w / 8 = 1 ∨ w / 8 = 2 ∨ w / 8 = 4 ∨ w / 8 = 8 := by
  rcases hw with rfl | rfl | rfl | rfl | rfl <;> first | exact absurd rfl h4 | decide

theorem width_pow {w : Nat} (hw : Width w) (h4 : w ≠ 4) : 256 ^ (w / 8) = 2 ^ w := by
  rcases hw with rfl | rfl | rfl | rfl | rfl <;> first | exact absurd rfl h4 | decide

/-- An element that has been written reads back, cut to its width. -/
theorem elemIn_set_same (s : State) (rows : Mem) (base w i x : Nat) (hw : Width w) :
    elemIn s (rowsSetElem s rows base w i x) base w i = x % 2 ^ w := by
  rw [elemIn_eq]
  unfold rowsSetElem
  by_cases h4 : w = 4
  · subst h4
    simp only [if_true]
    rw [Mem.read_write, if_pos rfl, half_bytes _ _ _ (rows.read _).isLt]
    have := (rows.read (imageKey s base (i / 2))).isLt
    rcases Nat.mod_two_eq_zero_or_one i with h | h
    · simp only [h, if_true, Nat.pow_zero, Nat.div_one]
      omega
    · simp only [h, Nat.one_ne_zero, if_false, Nat.pow_one]
      omega
  · simp only [if_neg h4]
    rw [Mem.readNat_writeBytes, width_pow hw h4]

/-- The bytes of a row that an element at an index occupies. -/
def elemKeys (s : State) (base w i k : Nat) : Prop :=
  ∃ j, j < (w + 7) / 8 ∧ k = imageKey s base (i * w / 8 + j)

/-- A byte that an element does not occupy keeps its value when the element is written. -/
theorem rowsSetElem_other (s : State) (rows : Mem) (base w i x k : Nat) (hw : Width w) (h : ¬ elemKeys s base w i k) :
    (rowsSetElem s rows base w i x).read k = rows.read k := by
  unfold rowsSetElem
  by_cases h4 : w = 4
  · subst h4
    simp only [if_true]
    rw [Mem.read_write, if_neg]
    rintro rfl
    exact h ⟨0, by decide, by rw [Nat.add_zero]; congr 1; omega⟩
  · simp only [if_neg h4]
    apply Mem.read_writeBytes_other
    rw [leBytes_length]
    apply Decidable.byContradiction
    intro hc
    have hb := width_bytes hw h4
    have hk : k = imageKey s base (i * (w / 8)) + (k - imageKey s base (i * (w / 8))) := by omega
    have hj : k - imageKey s base (i * (w / 8)) < w / 8 := by omega
    rw [← imageKey_elem s base i _ _ hb hj] at hk
    have he : i * w / 8 = i * (w / 8) := by
      rcases hw with rfl | rfl | rfl | rfl | rfl <;> first | exact absurd rfl h4 | omega
    exact h ⟨k - imageKey s base (i * (w / 8)), Nat.lt_of_lt_of_le hj (Nat.div_le_div_right (Nat.le_add_right w 7)),
      hk.trans (congrArg (fun o => imageKey s base (o + (k - imageKey s base (i * (w / 8))))) he.symm)⟩

/-- Another element of the same width keeps its value. -/
theorem elemIn_set_other (s : State) (rows : Mem) (base w i j x : Nat) (hw : Width w) (h : j ≠ i) :
    elemIn s (rowsSetElem s rows base w i x) base w j = elemIn s rows base w j := by
  rw [elemIn_eq, elemIn_eq]
  by_cases h4 : w = 4
  · subst h4
    simp only [if_true, rowsSetElem]
    rw [Mem.read_write]
    split
    · rename_i hk
      have hij : j / 2 = i / 2 := imageKey_inj s base _ _ hk
      rw [half_bytes _ _ _ (rows.read _).isLt, hij]
      have := (rows.read (imageKey s base (i / 2))).isLt
      rcases Nat.mod_two_eq_zero_or_one i with hi | hi <;> rcases Nat.mod_two_eq_zero_or_one j with hj | hj
      · omega
      · simp only [hi, hj, if_true, Nat.pow_one]; omega
      · simp only [hi, hj, Nat.one_ne_zero, if_false, Nat.pow_zero, Nat.div_one]; omega
      · omega
    · rfl
  · simp only [if_neg h4]
    unfold Mem.readNat
    congr 1
    apply Mem.readBytes_congr
    intro k h1 h2
    apply rowsSetElem_other s rows base w i x k hw
    rintro ⟨b, hb, hk⟩
    have hn := width_bytes hw h4
    have he : i * w / 8 = i * (w / 8) := by
      rcases hw with rfl | rfl | rfl | rfl | rfl <;> first | exact absurd rfl h4 | omega
    have hc : k - imageKey s base (j * (w / 8)) < w / 8 := by omega
    have hk2 : k = imageKey s base (j * (w / 8)) + (k - imageKey s base (j * (w / 8))) := by omega
    rw [← imageKey_elem s base j _ _ hn hc] at hk2
    have hw8 : (w + 7) / 8 = w / 8 := by
      rcases hw with rfl | rfl | rfl | rfl | rfl <;> first | exact absurd rfl h4 | decide
    have := imageKey_inj s base _ _ (hk2.symm.trans hk)
    rw [he] at this
    rw [hw8] at hb
    generalize k - imageKey s base (j * (w / 8)) = c at this hc
    rcases Nat.lt_or_gt_of_ne h with hl | hl
    · have := Nat.mul_le_mul_right (w / 8) hl; rw [Nat.succ_mul] at this; omega
    · have := Nat.mul_le_mul_right (w / 8) hl; rw [Nat.succ_mul] at this; omega

/-- Elements that are not written keep their values. -/
theorem elemIn_write_other (s : State) (base w : Nat) (xs : List (Nat × Nat)) (rows : Mem) (j : Nat) (hw : Width w)
    (h : ∀ x ∈ xs, x.1 ≠ j) :
    elemIn s (xs.foldl (fun r x => rowsSetElem s r base w x.1 x.2) rows) base w j = elemIn s rows base w j := by
  induction xs generalizing rows with
  | nil => rfl
  | cons x xs ih =>
    rw [List.foldl_cons, ih _ fun y hy => h y (List.mem_cons_of_mem x hy),
      elemIn_set_other s rows base w x.1 j x.2 hw fun e => h x List.mem_cons_self e.symm]

/-- Elements that are written once each read back. -/
theorem elemIn_write_same (s : State) (base w : Nat) (xs : List (Nat × Nat)) (rows : Mem) (x : Nat × Nat) (hw : Width w)
    (hn : (xs.map (·.1)).Nodup) (hx : x ∈ xs) :
    elemIn s (xs.foldl (fun r x => rowsSetElem s r base w x.1 x.2) rows) base w x.1 = x.2 % 2 ^ w := by
  induction xs generalizing rows with
  | nil => exact absurd hx List.not_mem_nil
  | cons y xs ih =>
    rw [List.map_cons, List.nodup_cons] at hn
    rw [List.foldl_cons]
    rcases List.mem_cons.1 hx with rfl | hx
    · rw [elemIn_write_other s base w xs _ x.1 hw fun z hz e => hn.1 (e ▸ List.mem_map_of_mem hz),
        elemIn_set_same s rows base w x.1 x.2 hw]
    · exact ih _ hn.2 hx

/-- Bytes that no written element occupies keep their values. -/
theorem write_other (s : State) (base w : Nat) (xs : List (Nat × Nat)) (rows : Mem) (k : Nat) (hw : Width w)
    (h : ∀ x ∈ xs, ¬ elemKeys s base w x.1 k) :
    (xs.foldl (fun r x => rowsSetElem s r base w x.1 x.2) rows).read k = rows.read k := by
  induction xs generalizing rows with
  | nil => rfl
  | cons x xs ih =>
    rw [List.foldl_cons, ih _ fun y hy => h y (List.mem_cons_of_mem x hy),
      rowsSetElem_other s rows base w x.1 x.2 k hw (h x List.mem_cons_self)]

/-- What `writeElems` does to an element: the value written, or the value it had. -/
theorem readElem_writeElems_same (s : State) (base w : Nat) (xs : List (Nat × Nat)) (x : Nat × Nat) (hw : Width w)
    (hn : (xs.map (·.1)).Nodup) (hx : x ∈ xs) : readElem (writeElems s base w xs) base w x.1 = x.2 % 2 ^ w :=
  elemIn_write_same s base w xs s.hart.rows x hw hn hx

theorem readElem_writeElems_other (s : State) (base w : Nat) (xs : List (Nat × Nat)) (j : Nat) (hw : Width w)
    (h : ∀ x ∈ xs, x.1 ≠ j) : readElem (writeElems s base w xs) base w j = readElem s base w j :=
  elemIn_write_other s base w xs s.hart.rows j hw h

/-! ### Active elements, runs of results, masks -/

theorem mem_indexes (lo hi i : Nat) : i ∈ indexes lo hi ↔ lo ≤ i ∧ i < hi := by
  unfold indexes
  simp only [List.mem_map, List.mem_range]
  constructor
  · rintro ⟨k, hk, rfl⟩
    omega
  · rintro ⟨h1, h2⟩
    exact ⟨i - lo, by omega, by omega⟩

theorem nodup_indexes (lo hi : Nat) : (indexes lo hi).Nodup := by
  unfold indexes
  rw [List.nodup_iff_pairwise_ne, List.pairwise_map]
  exact (List.nodup_iff_pairwise_ne.1 List.nodup_range).imp fun h e => h (by omega)

theorem mem_activeIdx (s : State) (m : Reg3) (lo hi i : Nat) :
    i ∈ activeIdx s m lo hi ↔ lo ≤ i ∧ i < hi ∧ maskBit s m i = true := by
  unfold activeIdx
  rw [List.mem_filter, mem_indexes, and_assoc]

theorem nodup_activeIdx (s : State) (m : Reg3) (lo hi : Nat) : (activeIdx s m lo hi).Nodup :=
  (nodup_indexes lo hi).filter _

/-- Without stochastic rounding a run computes each element by itself and leaves the register alone. -/
theorem runElems_plain (op : Nat → Nat → Nat × Flags × Bool) (rnd : BitVec 32) (l : List Nat) :
    runElems false op rnd l =
      { elems := l.map fun i => (i, (op i (rnd.toNat % 65536)).1)
        flags := l.foldl (fun f i => f ||| (op i (rnd.toNat % 65536)).2.1) 0
        sat := l.any fun i => (op i (rnd.toNat % 65536)).2.2
        rnd := rnd } := by
  have key : ∀ (l : List Nat) (r : Run), r.rnd = rnd →
      l.foldl (fun (r : Run) i =>
        let rnd := if false then lfsr16 r.rnd else r.rnd
        let x := op i (rnd.toNat % 65536)
        { elems := (i, x.1) :: r.elems, flags := r.flags ||| x.2.1, sat := r.sat || x.2.2, rnd := rnd }) r =
      { elems := (l.map fun i => (i, (op i (rnd.toNat % 65536)).1)).reverse ++ r.elems
        flags := l.foldl (fun f i => f ||| (op i (rnd.toNat % 65536)).2.1) r.flags
        sat := r.sat || l.any fun i => (op i (rnd.toNat % 65536)).2.2
        rnd := rnd } := by
    intro l
    induction l with
    | nil => intro r h; subst h; simp
    | cons i l ih =>
      intro r h
      rw [List.foldl_cons, ih _ (by exact h)]
      simp [h, Bool.or_assoc]
  unfold runElems
  rw [key l _ rfl]
  simp

/-- Bits of a mask after a list of writes: the last write of a bit decides. -/
theorem testBit_setBits_other (old : Nat) (xs : List (Nat × Bool)) (k : Nat) (h : ∀ x ∈ xs, x.1 ≠ k) :
    (setBits old xs).testBit k = old.testBit k := by
  unfold setBits
  induction xs generalizing old with
  | nil => rfl
  | cons x xs ih =>
    rw [List.foldl_cons, ih _ fun y hy => h y (List.mem_cons_of_mem x hy)]
    split
    · rfl
    · rw [Nat.testBit_xor, Nat.testBit_two_pow_of_ne (h x List.mem_cons_self), Bool.xor_false]

theorem testBit_setBits_same (old : Nat) (xs : List (Nat × Bool)) (x : Nat × Bool) (hn : (xs.map (·.1)).Nodup) (hx : x ∈ xs) :
    (setBits old xs).testBit x.1 = x.2 := by
  induction xs generalizing old with
  | nil => exact absurd hx List.not_mem_nil
  | cons y xs ih =>
    rw [List.map_cons, List.nodup_cons] at hn
    rcases List.mem_cons.1 hx with rfl | hx
    · show (setBits (if old.testBit x.1 = x.2 then old else old ^^^ 2 ^ x.1) xs).testBit x.1 = x.2
      rw [testBit_setBits_other _ _ x.1 fun z hz e => hn.1 (e ▸ List.mem_map_of_mem hz)]
      split
      · assumption
      · rename_i h
        rw [Nat.testBit_xor, Nat.testBit_two_pow_self]
        cases h1 : old.testBit x.1 <;> cases h2 : x.2 <;> simp_all
    · exact ih _ hn.2 hx

end Sys2Proof.Machine
end

