-- ==== Sys2Proof/Tests/Slice0.lean ====
section
/-!
SUPPORT. Tests: ill-formed terms, words of chapter 6, single steps on small states with values worked out by hand from the
rules, and for each statement a state that meets its hypotheses.
-/

namespace Sys2Proof.Tests

-- one evaluation at a time
set_option Elab.async false

open Sys2Proof.Machine Sys2Proof.Claims

/-! ### Ill-formed terms (R86 check 7) -/

theorem test_illformed_slots :
    wellFormed (.lslot 1 0) = false ∧ wellFormed (.lslot 1 255) = false ∧ wellFormed (.mvreq 1 2 0) = false ∧
      wellFormed (.mvcommit 1 2 255) = false ∧ wellFormed (.lslot 1 254) = true := by decide

theorem test_illformed_forms :
    wellFormed (.vfadd 1 2 (.vi 3) 0) = false ∧ wellFormed (.vfcmpEq 1 2 (.vi 3) 0) = false ∧
      wellFormed (.vslideup 1 2 (.vi 31) 0) = false ∧ wellFormed (.vslidedn 1 2 (.vv 3) 0) = false ∧
      wellFormed (.vext 1 2 (.vi 16)) = false ∧ wellFormed (.vext 1 2 (.vi 15)) = true := by decide

theorem test_illformed_segments :
    wellFormed (.vlseg 1 2 0 0 .x1) = false ∧ wellFormed (.vsseg 25 2 7 0 .x1) = false ∧
      wellFormed (.vlseg 24 2 7 0 .x1) = true := by decide

theorem test_illformed_matrix :
    wellFormed (.mattach 17) = false ∧ wellFormed (.vmma .i8 0 1 9 16 0) = false ∧ wellFormed (.vmma .bf16 0 1 12 16 0) = false ∧
      wellFormed (.vmma .bf16 0 1 8 65 0) = false ∧ wellFormed (.vmmas 0 1 8 0 1 1 0) = false ∧
      wellFormed (.mext 1 0 .f4b 0) = false ∧ wellFormed (.mins 0 1 .i64 0) = false := by decide

theorem test_illformed_compressed :
    wellFormed (.cAddi 0 1) = false ∧ wellFormed (.cLi 0 1) = false ∧ wellFormed (.cMv 0 1) = false ∧
      wellFormed (.cAdd 0 1) = false ∧ wellFormed (.cSub 0 1) = false ∧ wellFormed (.cAnd 0 1) = false := by decide

/-! ### Words of chapter 6 and of the chapters' field lines -/

theorem test_decode_integer :
    decodeTableWord 32 0x056970ED = some (.lhi 21 0xA5C3B) ∧
    decodeTableWord 32 0x0D6970ED = some (.aupc 21 0xA5C3B) ∧
    decodeTableWord 32 0x15542CB5 = some (.addi 21 10 0xB2D) ∧
    decodeTableWord 32 0x15546CB5 = some (.andi 21 10 0xB2D) ∧
    decodeTableWord 32 0x1554ACB5 = some (.ori 21 10 0xB2D) ∧
    decodeTableWord 32 0x1554ECB5 = some (.xori 21 10 0xB2D) ∧
    decodeTableWord 32 0x1555ACB5 = some (.slti 21 10 0xB2D) ∧
    decodeTableWord 32 0x1555ECB5 = some (.sltni 21 10 0xB2D) ∧
    decodeTableWord 32 0x155500AD = some (.slli 21 10 0x2B) ∧
    decodeTableWord 32 0x155540AD = some (.srli 21 10 0x2B) ∧
    decodeTableWord 32 0x155550AD = some (.srai 21 10 0x2B) ∧
    decodeTableWord 32 0x1D553001 = some (.add 21 10 19) ∧
    decodeTableWord 32 0x1D553005 = some (.sub 21 10 19) ∧
    decodeTableWord 32 0x1D553009 = some (.and 21 10 19) ∧
    decodeTableWord 32 0x1D55300D = some (.or 21 10 19) ∧
    decodeTableWord 32 0x1D553011 = some (.xor 21 10 19) ∧
    decodeTableWord 32 0x1D553015 = some (.sll 21 10 19) ∧
    decodeTableWord 32 0x1D553019 = some (.srl 21 10 19) ∧
    decodeTableWord 32 0x1D55301D = some (.sra 21 10 19) ∧
    decodeTableWord 32 0x1D553021 = some (.slt 21 10 19) ∧
    decodeTableWord 32 0x1D553025 = some (.sltn 21 10 19) ∧
    decodeTableWord 32 0x1D553029 = some (.mul 21 10 19) ∧
    decodeTableWord 32 0x1D55302D = some (.mulh 21 10 19) ∧
    decodeTableWord 32 0x1D553031 = some (.mulhn 21 10 19) ∧
    decodeTableWord 32 0x1D553035 = some (.div 21 10 19) ∧
    decodeTableWord 32 0x1D553039 = some (.divn 21 10 19) ∧
    decodeTableWord 32 0x1D55303D = some (.rem 21 10 19) ∧
    decodeTableWord 32 0x1D553041 = some (.remn 21 10 19) ∧
    decodeTableWord 32 0x1D553045 = some (.min 21 10 19) ∧
    decodeTableWord 32 0x1D553049 = some (.max 21 10 19) ∧
    decodeTableWord 32 0x1D55304D = some (.minn 21 10 19) ∧
    decodeTableWord 32 0x1D553051 = some (.maxn 21 10 19) := by decide

theorem test_decode_loads_and_stores :
    decodeTableWord 32 0x25542CB5 = some (.ldb 21 10 0xB2D) ∧
    decodeTableWord 32 0x25546CB5 = some (.ldh 21 10 0xB2D) ∧
    decodeTableWord 32 0x2554ACB5 = some (.ldw 21 10 0xB2D) ∧
    decodeTableWord 32 0x2554ECB5 = some (.ldd 21 10 0xB2D) ∧
    decodeTableWord 32 0x25552CB5 = some (.ldbn 21 10 0xB2D) ∧
    decodeTableWord 32 0x25556CB5 = some (.ldhn 21 10 0xB2D) ∧
    decodeTableWord 32 0x2555ACB5 = some (.ldwn 21 10 0xB2D) ∧
    decodeTableWord 32 0x2CD42CB5 = some (.stb 19 10 0xB2D) ∧
    decodeTableWord 32 0x2CD46CB5 = some (.sth 19 10 0xB2D) ∧
    decodeTableWord 32 0x2CD4ACB5 = some (.stw 19 10 0xB2D) ∧
    decodeTableWord 32 0x2CD4ECB5 = some (.std 19 10 0xB2D) ∧
    decodeTableWord 32 0x2CD52CB5 = some (.stbRel 19 10 0xB2D) ∧
    decodeTableWord 32 0x2CD56CB5 = some (.sthRel 19 10 0xB2D) ∧
    decodeTableWord 32 0x2CD5ACB5 = some (.stwRel 19 10 0xB2D) ∧
    decodeTableWord 32 0x2CD5ECB5 = some (.stdRel 19 10 0xB2D) := by decide

theorem test_decode_acquiring_loads_and_atomics :
    decodeTableWord 32 0x55542CB5 = some (.ldbAcq 21 10 0xB2D) ∧
    decodeTableWord 32 0x55546CB5 = some (.ldhAcq 21 10 0xB2D) ∧
    decodeTableWord 32 0x5554ACB5 = some (.ldwAcq 21 10 0xB2D) ∧
    decodeTableWord 32 0x5554ECB5 = some (.lddAcq 21 10 0xB2D) ∧
    decodeTableWord 32 0x55552CB5 = some (.ldbnAcq 21 10 0xB2D) ∧
    decodeTableWord 32 0x55556CB5 = some (.ldhnAcq 21 10 0xB2D) ∧
    decodeTableWord 32 0x5555ACB5 = some (.ldwnAcq 21 10 0xB2D) ∧
    decodeTableWord 32 0x5555E619 = some (.amoadd .d true false 21 19 10) ∧
    decodeTableWord 32 0x5555E639 = some (.amoswap .d true false 21 19 10) ∧
    decodeTableWord 32 0x5555E659 = some (.amocas .d true false 21 19 10) ∧
    decodeTableWord 32 0x5555E679 = some (.amomin .d true false 21 19 10) ∧
    decodeTableWord 32 0x5555E699 = some (.amomax .d true false 21 19 10) ∧
    decodeTableWord 32 0x5555E6B9 = some (.amoand .d true false 21 19 10) ∧
    decodeTableWord 32 0x5555E6D9 = some (.amoor .d true false 21 19 10) ∧
    decodeTableWord 32 0x5555E6F9 = some (.amoxor .d true false 21 19 10) ∧
    decodeTableWord 32 0x5555E719 = some (.waitw .d true 21 19 10) := by decide

theorem test_decode_branches_and_jumps :
    decodeTableWord 32 0x32A6294D = some (.beq 10 19 0xA53) ∧
    decodeTableWord 32 0x32A6694D = some (.bne 10 19 0xA53) ∧
    decodeTableWord 32 0x32A6A94D = some (.blt 10 19 0xA53) ∧
    decodeTableWord 32 0x32A6E94D = some (.bge 10 19 0xA53) ∧
    decodeTableWord 32 0x32A7294D = some (.bltn 10 19 0xA53) ∧
    decodeTableWord 32 0x32A7694D = some (.bgen 10 19 0xA53) ∧
    decodeTableWord 32 0x3D67169D = some (.jal 21 0x9C5A7) ∧
    decodeTableWord 32 0x45542CB5 = some (.jalr 21 10 0xB2D) := by decide

theorem test_decode_scalar_floating_point :
    decodeTableWord 32 0x4D553001 = some (.fadd 21 10 19) ∧
    decodeTableWord 32 0x4D553005 = some (.fsub 21 10 19) ∧
    decodeTableWord 32 0x4D553009 = some (.fmul 21 10 19) ∧
    decodeTableWord 32 0x4D55300D = some (.fdiv 21 10 19) ∧
    decodeTableWord 32 0x4D553015 = some (.fmin 21 10 19) ∧
    decodeTableWord 32 0x4D553019 = some (.fmax 21 10 19) ∧
    decodeTableWord 32 0x4D55301D = some (.feq 21 10 19) ∧
    decodeTableWord 32 0x4D553021 = some (.flt 21 10 19) ∧
    decodeTableWord 32 0x4D553025 = some (.fle 21 10 19) ∧
    decodeTableWord 32 0x4D55302D = some (.fmadd 21 10 19) ∧
    decodeTableWord 32 0x4D540011 = some (.fsqrt 21 10) ∧
    decodeTableWord 32 0x4D540029 = some (.fclass 21 10) ∧
    decodeTableWord 32 0x4D540041 = some (.fcvtF32I32 21 10) ∧
    decodeTableWord 32 0x4D540045 = some (.fcvtF32N32 21 10) ∧
    decodeTableWord 32 0x4D540049 = some (.fcvtF32I64 21 10) ∧
    decodeTableWord 32 0x4D54004D = some (.fcvtF32N64 21 10) ∧
    decodeTableWord 32 0x4D540051 = some (.fcvtI32F32 21 10) ∧
    decodeTableWord 32 0x4D540055 = some (.fcvtN32F32 21 10) ∧
    decodeTableWord 32 0x4D540059 = some (.fcvtI64F32 21 10) ∧
    decodeTableWord 32 0x4D54005D = some (.fcvtN64F32 21 10) := by decide

theorem test_decode_system :
    decodeTableWord 32 0x58000001 = some (.ecall) ∧
    decodeTableWord 32 0x58000005 = some (.trap) ∧
    decodeTableWord 32 0x58000009 = some (.eret) ∧
    decodeTableWord 32 0x5800000D = some (.exit) ∧
    decodeTableWord 32 0x58000011 = some (.yield) ∧
    decodeTableWord 32 0x58000015 = some (.flushi) ∧
    decodeTableWord 32 0x5D404859 = some (.csrrd 21 0x216) ∧
    decodeTableWord 32 0x58148859 = some (.csrwr 0x216 10) ∧
    decodeTableWord 32 0x5814C859 = some (.csrset 0x216 10) ∧
    decodeTableWord 32 0x58150859 = some (.csrclr 0x216 10) ∧
    decodeTableWord 32 0x58014041 = some (.fenceSv .device) ∧
    decodeTableWord 32 0x58014045 = some (.fenceVs .device) ∧
    decodeTableWord 32 0x58014049 = some (.fenceVv .device) ∧
    decodeTableWord 32 0x5801404D = some (.fenceAll .device) := by decide

theorem test_decode_slots_and_leases :
    decodeTableWord 32 0x654002D9 = some (.lslot 21 0xB6) ∧
    decodeTableWord 32 0x655442D9 = some (.mvreq 21 10 0xB6) ∧
    decodeTableWord 32 0x655482D9 = some (.mvcommit 21 10 0xB6) ∧
    decodeTableWord 32 0x6554C001 = some (.ltag 21 10) ∧
    decodeTableWord 32 0x6554C009 = some (.ljoin 21 10) ∧
    decodeTableWord 32 0x6540C005 = some (.lclr 21) ∧
    decodeTableWord 32 0x6000C00D = some (.safept) ∧
    decodeTableWord 32 0x6540C011 = some (.vlclr 21) := by decide

theorem test_decode_vector_configuration :
    decodeTableWord 32 0x6D56DA9D = some (.vsetvli 21 5 0x2D 0x2A7) ∧
    decodeTableWord 32 0x6D6A9801 = some (.vsetvl 21 10 19) ∧
    decodeTableWord 32 0x6D6A9805 = some (.vwin 21 10 19) := by decide

theorem test_decode_vector_integer :
    decodeTableWord 32 0x75553B01 = some (.vadd 21 10 (.vi 19) 5) ∧
    decodeTableWord 32 0x75553A85 = some (.vsub 21 10 (.vs 19) 5) ∧
    decodeTableWord 32 0x75553A89 = some (.vmul 21 10 (.vs 19) 5) ∧
    decodeTableWord 32 0x75553A8D = some (.vmulh 21 10 (.vs 19) 5) ∧
    decodeTableWord 32 0x75553A91 = some (.vand 21 10 (.vs 19) 5) ∧
    decodeTableWord 32 0x75553A95 = some (.vor 21 10 (.vs 19) 5) ∧
    decodeTableWord 32 0x75553A99 = some (.vxor 21 10 (.vs 19) 5) ∧
    decodeTableWord 32 0x75553A9D = some (.vsll 21 10 (.vs 19) 5) ∧
    decodeTableWord 32 0x75553AA1 = some (.vsrl 21 10 (.vs 19) 5) ∧
    decodeTableWord 32 0x75553AA5 = some (.vsra 21 10 (.vs 19) 5) ∧
    decodeTableWord 32 0x75553B29 = some (.vmin 21 10 (.vi 19) 5) ∧
    decodeTableWord 32 0x75553AAD = some (.vmax 21 10 (.vs 19) 5) ∧
    decodeTableWord 32 0x75553AB1 = some (.vminn 21 10 (.vs 19) 5) ∧
    decodeTableWord 32 0x75553AB5 = some (.vmaxn 21 10 (.vs 19) 5) ∧
    decodeTableWord 32 0x75553AB9 = some (.vsadd 21 10 (.vs 19) 5) ∧
    decodeTableWord 32 0x75553ABD = some (.vssub 21 10 (.vs 19) 5) := by decide

theorem test_decode_vector_floating_point :
    decodeTableWord 32 0x7D553A81 = some (.vfadd 21 10 (.vs 19) 5) ∧
    decodeTableWord 32 0x7D553A85 = some (.vfsub 21 10 (.vs 19) 5) ∧
    decodeTableWord 32 0x7D553A89 = some (.vfmul 21 10 (.vs 19) 5) ∧
    decodeTableWord 32 0x7D553A8D = some (.vfmadd 21 10 (.vs 19) 5) ∧
    decodeTableWord 32 0x7D553A91 = some (.vfnmsub 21 10 (.vs 19) 5) ∧
    decodeTableWord 32 0x7D553A95 = some (.vfdiv 21 10 (.vs 19) 5) ∧
    decodeTableWord 32 0x7D553A9D = some (.vfmin 21 10 (.vs 19) 5) ∧
    decodeTableWord 32 0x7D553AA1 = some (.vfmax 21 10 (.vs 19) 5) ∧
    decodeTableWord 32 0x7D553AAD = some (.vfscale 21 10 (.vs 19) 5) ∧
    decodeTableWord 32 0x7D553AB5 = some (.vfsgnj 21 10 (.vs 19) 5) ∧
    decodeTableWord 32 0x7D540A19 = some (.vfsqrt 21 10 5) ∧
    decodeTableWord 32 0x7D540A25 = some (.vfrecip 21 10 5) ∧
    decodeTableWord 32 0x7D540A29 = some (.vfrsqrt 21 10 5) ∧
    decodeTableWord 32 0x7D540A31 = some (.vfround 21 10 5) := by decide

theorem test_decode_compares_and_masks :
    decodeTableWord 32 0x81553A81 = some (.vcmpEq 5 10 (.vs 19) 5) ∧
    decodeTableWord 32 0x81553A85 = some (.vcmpNe 5 10 (.vs 19) 5) ∧
    decodeTableWord 32 0x81553A89 = some (.vcmpLt 5 10 (.vs 19) 5) ∧
    decodeTableWord 32 0x81553A8D = some (.vcmpLe 5 10 (.vs 19) 5) ∧
    decodeTableWord 32 0x81553A91 = some (.vcmpGt 5 10 (.vs 19) 5) ∧
    decodeTableWord 32 0x81553A95 = some (.vcmpGe 5 10 (.vs 19) 5) ∧
    decodeTableWord 32 0x81553A99 = some (.vcmpLtn 5 10 (.vs 19) 5) ∧
    decodeTableWord 32 0x81553A9D = some (.vcmpLen 5 10 (.vs 19) 5) ∧
    decodeTableWord 32 0x81553AA1 = some (.vcmpGtn 5 10 (.vs 19) 5) ∧
    decodeTableWord 32 0x81553AA5 = some (.vcmpGen 5 10 (.vs 19) 5) ∧
    decodeTableWord 32 0x81553AB1 = some (.vfcmpEq 5 10 (.vs 19) 5) ∧
    decodeTableWord 32 0x81553AB5 = some (.vfcmpNe 5 10 (.vs 19) 5) ∧
    decodeTableWord 32 0x81553AB9 = some (.vfcmpLt 5 10 (.vs 19) 5) ∧
    decodeTableWord 32 0x81553ABD = some (.vfcmpLe 5 10 (.vs 19) 5) ∧
    decodeTableWord 32 0x81553AC1 = some (.vfcmpGt 5 10 (.vs 19) 5) ∧
    decodeTableWord 32 0x81553AC5 = some (.vfcmpGe 5 10 (.vs 19) 5) ∧
    decodeTableWord 32 0x8144605D = some (.mand 5 2 6) ∧
    decodeTableWord 32 0x81446061 = some (.mor 5 2 6) ∧
    decodeTableWord 32 0x81446065 = some (.mxor 5 2 6) ∧
    decodeTableWord 32 0x81446069 = some (.mandn 5 2 6) ∧
    decodeTableWord 32 0x8144006D = some (.mnot 5 2) ∧
    decodeTableWord 32 0x8144007D = some (.mmv 5 2) ∧
    decodeTableWord 32 0x85440071 = some (.mpop 21 2) ∧
    decodeTableWord 32 0x85440075 = some (.mfirst 21 2) ∧
    decodeTableWord 32 0x81400079 = some (.mset 5) := by decide

theorem test_decode_permutes :
    decodeTableWord 32 0x8D54DB01 = some (.vslideup 21 10 (.vi 13) 5) ∧
    decodeTableWord 32 0x8D553A85 = some (.vslidedn 21 10 (.vs 19) 5) ∧
    decodeTableWord 32 0x8D553A09 = some (.vgather 21 10 19 5) ∧
    decodeTableWord 32 0x8D540A0D = some (.vcompress 21 10 5) ∧
    decodeTableWord 32 0x8D413A91 = some (.vbcast 21 19 5) ∧
    decodeTableWord 32 0x8D400A15 = some (.vid 21 5) ∧
    decodeTableWord 32 0x8D553A99 = some (.vmerge 21 10 (.vs 19) 5) ∧
    decodeTableWord 32 0x8D540A1D = some (.vmv 21 10 5) ∧
    decodeTableWord 32 0x8D4130A1 = some (.vmvsx 21 19) ∧
    decodeTableWord 32 0x8D540025 = some (.vmvxs 21 10) ∧
    decodeTableWord 32 0x8D54D129 = some (.vext 21 10 (.vi 13)) := by decide

theorem test_decode_conversions_and_reductions :
    decodeTableWord 32 0x95549A01 = some (.vcvt 21 10 9 5) ∧
    decodeTableWord 32 0x95549A05 = some (.vcvti 21 10 9 5) ∧
    decodeTableWord 32 0x95546A09 = some (.vquant 21 10 6 5) ∧
    decodeTableWord 32 0x95553AA1 = some (.vredsum 21 10 19 5) ∧
    decodeTableWord 32 0x95553AA5 = some (.vredmax 21 10 19 5) ∧
    decodeTableWord 32 0x95553AA9 = some (.vredmin 21 10 19 5) ∧
    decodeTableWord 32 0x95553AAD = some (.vfredsum 21 10 19 5) ∧
    decodeTableWord 32 0x95553AB1 = some (.vfredosum 21 10 19 5) ∧
    decodeTableWord 32 0x95553AB5 = some (.vfredmax 21 10 19 5) := by decide

theorem test_decode_vector_memory :
    decodeTableWord 32 0x9D540A09 = some (.vld 21 10 5 .x4) ∧
    decodeTableWord 32 0xA5540A09 = some (.vst 21 10 5 .x4) ∧
    decodeTableWord 32 0x9D553A89 = some (.vlds 21 10 19 5 .x4) ∧
    decodeTableWord 32 0x9D553B09 = some (.vldx 21 10 19 5 .x4) ∧
    decodeTableWord 32 0xA5553A89 = some (.vsts 21 10 19 5 .x4) ∧
    decodeTableWord 32 0xA5553B09 = some (.vstx 21 10 19 5 .x4) ∧
    decodeTableWord 32 0x99540BB9 = some (.vlseg 5 10 3 5 .x4) ∧
    decodeTableWord 32 0xA1540BB9 = some (.vsseg 5 10 3 5 .x4) := by decide

theorem test_decode_synchronisation :
    decodeTableWord 32 0xAD553A01 = some (.vamoAdd 21 10 19 5) ∧
    decodeTableWord 32 0xAD553A05 = some (.vamoSwap 21 10 19 5) ∧
    decodeTableWord 32 0xAD553A0D = some (.vamoMin 21 10 19 5) ∧
    decodeTableWord 32 0xAD553A11 = some (.vamoMax 21 10 19 5) ∧
    decodeTableWord 32 0xAD553A15 = some (.vamoAnd 21 10 19 5) ∧
    decodeTableWord 32 0xAD553A19 = some (.vamoOr 21 10 19 5) ∧
    decodeTableWord 32 0xAD553A1D = some (.vamoXor 21 10 19 5) ∧
    decodeTableWord 32 0xA8153021 = some (.vwait 10 19) ∧
    decodeTableWord 32 0xAD540A25 = some (.vsred 21 10 5) ∧
    decodeTableWord 32 0xA8153029 = some (.awdecl 10 19) ∧
    decodeTableWord 32 0xA814002D = some (.awmerge 10) ∧
    decodeTableWord 32 0xAAC13031 = some (.wmpub 11 19) ∧
    decodeTableWord 32 0xAAD40035 = some (.wmset 11 10) ∧
    decodeTableWord 32 0xAAC00039 = some (.wmclr 11) ∧
    decodeTableWord 32 0xA800003D = some (.gbar) ∧
    decodeTableWord 32 0xAD540041 = some (.gjoin 21 10) ∧
    decodeTableWord 32 0xA8000045 = some (.gleave) := by decide

theorem test_decode_regions_and_loops :
    decodeTableWord 32 0xB080294D = some (.vregion 2 0xA53) ∧
    decodeTableWord 32 0xB280694D = some (.vloop 10 0xA53) ∧
    decodeTableWord 32 0xB280A94D = some (.vloopP 10 0xA53) ∧
    decodeTableWord 32 0xB080E94D = some (.bany 2 0xA53) ∧
    decodeTableWord 32 0xB081294D = some (.ball 2 0xA53) ∧
    decodeTableWord 32 0xB081694D = some (.bnone 2 0xA53) ∧
    decodeTableWord 32 0xB281A94D = some (.bsend 10 0xA53) ∧
    decodeTableWord 32 0xB001C001 = some (.vlend) ∧
    decodeTableWord 32 0xB001C005 = some (.vrend) := by decide

theorem test_decode_streams_and_spills :
    decodeTableWord 32 0xBD540001 = some (.vsbind 21 10) ∧
    decodeTableWord 32 0xBD400005 = some (.vsunbind 21) ∧
    decodeTableWord 32 0xC5540001 = some (.vspill 21 10) ∧
    decodeTableWord 32 0xC5544001 = some (.vfill 21 10) ∧
    decodeTableWord 32 0xC4D4ACB5 = some (.gspill 19 10 0xB2D) ∧
    decodeTableWord 32 0xC554ECB5 = some (.gfill 21 10 0xB2D) := by decide

theorem test_decode_copies_and_engines :
    decodeTableWord 32 0xCD553A01 = some (.cpy 21 10 19 5) ∧
    decodeTableWord 32 0xC8140A05 = some (.cpyx 10 5) ∧
    decodeTableWord 32 0xC8013A09 = some (.cpb 5 19) ∧
    decodeTableWord 32 0xC8000A0D = some (.cpwait 5) ∧
    decodeTableWord 32 0xD5540001 = some (.swpout 21 10) ∧
    decodeTableWord 32 0xD5540005 = some (.swpin 21 10) ∧
    decodeTableWord 32 0xD5540009 = some (.xfer 21 10) ∧
    decodeTableWord 32 0xD554000D = some (.launch 21 10) ∧
    decodeTableWord 32 0xD5540011 = some (.launchNb 21 10) := by decide

theorem test_decode_compressed :
    decodeTableWord 16 0x15AA = some (.cAddi 21 0x55) ∧
    decodeTableWord 16 0x35AA = some (.cLi 21 0x55) ∧
    decodeTableWord 16 0x5550 = some (.cMv 21 10) ∧
    decodeTableWord 16 0x5552 = some (.cAdd 21 10) ∧
    decodeTableWord 16 0x5554 = some (.cSub 21 10) ∧
    decodeTableWord 16 0x5556 = some (.cAnd 21 10) ∧
    decodeTableWord 16 0x755A = some (.cLdd 5 2 0x2D) ∧
    decodeTableWord 16 0x995A = some (.cStd 6 2 0x2D) ∧
    decodeTableWord 16 0xB55A = some (.cLdw 5 2 0x2D) ∧
    decodeTableWord 16 0xC96A = some (.cBeqz 2 0xB5) ∧
    decodeTableWord 16 0xCB6A = some (.cBnez 2 0xB5) ∧
    decodeTableWord 16 0xE2B6 = some (.cJ 0x15B) ∧
    decodeTableWord 16 0xE540 = some (.cJr 10) ∧
    decodeTableWord 16 0xE800 = some (.cExit) ∧
    decodeTableWord 16 0xEC00 = some (.cVlend) ∧
    decodeTableWord 16 0xF000 = some (.cSafept) ∧
    decodeTableWord 16 0xF400 = some (.cYield) := by decide

theorem test_decode_matrix :
    decodeTableWord 64 0x0008000000000003 = some (.mattach 16) ∧
    decodeTableWord 64 0x0000000000400003 = some .mdetach ∧
    decodeTableWord 64 0x0000000000800003 = some .mzero ∧
    decodeTableWord 64 0x2208000000E80003 = some (.vmma .bf16 0 4 8 16 0) ∧
    decodeTableWord 64 0x0A02000000ED0403 = some (.vmma .e4m3 16 1 8 4 2) ∧
    decodeTableWord 64 0x1202140001350003 = some (.vmmas 16 2 8 4 1 2 0) ∧
    decodeTableWord 64 0x1000000001680003 = some (.mext 2 0 .bf16 0) ∧
    decodeTableWord 64 0x2800000001A03403 = some (.mins 3 5 .f32 2) := by decide

/-- Patterns that are no instructions, with their causes (R86). -/
theorem test_refused_patterns :
    decode [0x01, 0x02, 0x00, 0x18] = .error .reservedField ∧ decode [0x01, 0x00, 0x00, 0xD8] = .error .unassigned ∧
      decode [0x03, 0, 0, 0x08, 0, 0, 0, 0] = .error .prefixClass ∧ decode [0x00, 0xF8] = .error .compressed ∧
      decode [0, 0] = .error .zeroHalfword ∧ decode [0xFF, 0xFF, 0xFF, 0xFF, 0, 0, 0, 0] = .error .onesWord ∧
      DecodeError.cause .prefixClass = 14 ∧ DecodeError.cause .compressed = 15 := ⟨rfl, rfl, rfl, rfl, rfl, rfl, rfl, rfl⟩

/-! ### Small states -/

/-- A hart in mode D on slot 0 with the whole of DRAM before it. -/
def calm : State := firstLaunch State.reset

/-- `calm` with general registers set. -/
def withRegs (s : State) (l : List (Reg × Word)) : State :=
  l.foldl (fun t x => setGpr t x.1 { val := x.2, tag := 0, lease := {} }) s

/-- `calm` in another mode and with `status` bits 2:0. -/
def inMode (m low : Nat) : State := { calm with hart := { calm.hart with csr := { calm.hart.csr with
  status := BitVec.ofNat 12 (m * 32 + low) } } }

/-- A general register after an instruction. -/
def regAfter (i : Instr) (s : State) (r : Reg) : Option Nat :=
  match exec i s with
  | .next t => some (gval t r).toNat
  | .fault _ | .refused _ => none

/-- The pc, the cause and its value after an instruction. -/
def pcAfter (i : Instr) (s : State) : Option Nat :=
  match exec i s with
  | .next t => some t.hart.pc.toNat
  | .fault _ | .refused _ => none

def causeAfter (i : Instr) (s : State) : Option (Nat × Nat) :=
  match exec i s with
  | .next t => some (t.hart.csr.cause.toNat, t.hart.csr.tval.toNat)
  | .fault _ | .refused _ => none

/-- A byte of memory after an instruction, as the hart reads it. -/
def byteAfter (i : Instr) (s : State) (a : Nat) : Option Nat :=
  match exec i s with
  | .next t => some (readByte t a).toNat
  | .fault _ | .refused _ => none

/-! ### Single steps -/

theorem test_div_corners :
    regAfter (.div 1 2 3) (withRegs calm [(2, 0x8000000000000000), (3, 0xFFFFFFFFFFFFFFFF)]) 1 = some 0x8000000000000000 ∧
      regAfter (.rem 1 2 3) (withRegs calm [(2, -7), (3, 2)]) 1 = some 0xFFFFFFFFFFFFFFFF := by decide +kernel

theorem test_mulh_signs :
    regAfter (.mulh 1 2 3) (withRegs calm [(2, -1), (3, 3)]) 1 = some 0xFFFFFFFFFFFFFFFF ∧
      regAfter (.mulhn 1 2 3) (withRegs calm [(2, -1), (3, 3)]) 1 = some 2 := by decide +kernel

theorem test_g0_discards : regAfter (.addi 0 2 5) (withRegs calm [(2, 1)]) 0 = some 0 := by decide +kernel

theorem test_lhi_extends : regAfter (.lhi 1 0x80000) calm 1 = some 0xFFFFFFFF80000000 := by decide +kernel

theorem test_load_extends :
    regAfter (.ldb 1 2 0) { withRegs calm [(2, 0x1000)] with mem := [(0x1000, 0x80)] } 1 = some 0xFFFFFFFFFFFFFF80 ∧
      regAfter (.ldbn 1 2 0) { withRegs calm [(2, 0x1000)] with mem := [(0x1000, 0x80)] } 1 = some 0x80 := by decide +kernel

theorem test_store_order : byteAfter (.sth 1 2 0) (withRegs calm [(1, 0x1234), (2, 0x1000)]) 0x1001 = some 0x12 := by decide +kernel

theorem test_branch_backward :
    pcAfter (.bne 1 0 (-2)) (withRegs { calm with hart := { calm.hart with pc := 0x100 } } [(1, 1)]) = some 0xFC := by decide +kernel

theorem test_jump_odd : causeAfter (.jalr 1 2 1) (withRegs (inMode 0 0) [(2, 0x100)]) = some (7, 0x101) := by decide +kernel

theorem test_ecall_user : causeAfter .ecall (inMode 0 0) = some (10, 0) := by decide +kernel

theorem test_csr_unassigned : causeAfter (.csrrd 1 0x017) (inMode 2 0) = some (5, 0x017) := by decide +kernel

theorem test_csr_denied : causeAfter (.csrwr 0x100 1) (inMode 0 0) = some (4, 0x100) := by decide +kernel

theorem test_amoadd_old_value :
    regAfter (.amoadd .w false false 1 3 2) { withRegs calm [(2, 0x1000), (3, 1)] with
      mem := [(0x1000, 0xFF), (0x1001, 0xFF), (0x1002, 0xFF), (0x1003, 0xFF)] } 1 = some 0xFFFFFFFFFFFFFFFF := by decide +kernel

theorem test_fdiv_zero : regAfter (.fdiv 1 2 3) (withRegs calm [(2, 0xBF800000)]) 1 = some 0xFF800000 := by decide +kernel

theorem test_compressed_load :
    regAfter (.cLdw 0 1 1) { withRegs calm [(9, 0x1000)] with mem := [(0x1007, 0x80)] } 8 = some 0xFFFFFFFF80000000 := by decide +kernel


/-! ### ECDSA: the order of the base point, and a signature worked out with another implementation -/

theorem test_curve_order : (basePoint.mul curveN).z = 0 := by decide +kernel

theorem test_ecdsa_sign :
    ecdsaSign 0x1234567890abcdef 0xfedcba987654321 12345 =
      (0x86d6e9f564ac2ecffd1990f362fbdfbdd1e54a98ea99edf1c16ae2b49af21812d147c25dbb7335bdecc4edb467174be2,
        0x178fa2710420ea665c0f86e5bd4a4be342f7580de7ca4193f8d1ae3413b7eba672440205213db2e67e8b4ba99b04f33a) := by decide +kernel
/-! ### Witnesses: for each statement with hypotheses, states and operands that meet them -/

/-- Registers 2 and 3 with the FP32 bits of two operands. -/
def fp (x y : Word) : State := withRegs calm [(2, x), (3, y)]

theorem witness_FpArithmetic :
    (let x := (gval (fp 1 0x80000000) 2).toNat % 2 ^ 32
     let y := (gval (fp 1 0x80000000) 3).toNat % 2 ^ 32
     x % 2 ^ 31 ≠ 0 ∧ x % 2 ^ 31 < 0x7F800000 ∧ y % 2 ^ 31 = 0) ∧
    (let x := (gval (fp 0xFF800000 0x7F800000) 2).toNat % 2 ^ 32
     let y := (gval (fp 0xFF800000 0x7F800000) 3).toNat % 2 ^ 32
     x % 2 ^ 31 = 0x7F800000 ∧ y % 2 ^ 31 = 0x7F800000) ∧
    (let x := (gval (fp 0x7F800000 0) 2).toNat % 2 ^ 32
     let y := (gval (fp 0x7F800000 0) 3).toNat % 2 ^ 32
     x % 2 ^ 31 = 0x7F800000 ∧ y % 2 ^ 31 = 0) ∧
    (let x := (gval (fp 0xFF800000 0xFF800000) 2).toNat % 2 ^ 32
     let y := (gval (fp 0xFF800000 0xFF800000) 3).toNat % 2 ^ 32
     x % 2 ^ 31 = 0x7F800000 ∧ y = x) ∧
    (let x := (gval (fp 0x80000001 0) 2).toNat % 2 ^ 32
     2 ^ 31 < x ∧ x ≤ 2 ^ 31 + 0x7F800000) ∧
    (gval (fp 0x80000000 0) 2).toNat % 2 ^ 32 = 2 ^ 31 ∧ (1 : Reg) ≠ 0 := by decide +kernel

/-- A word in DRAM under a register. -/
def word : State := { withRegs calm [(2, 0x1000), (3, 0x80)] with mem := [(0x1000, 0x80), (0x1003, 0x80)] }

theorem ok_of {x : Except Exc Unit} (h : x.toBool = true) : x = .ok () := by
  cases x with
  | ok _ => rfl
  | error _ => exact absurd h Bool.false_ne_true

/-- Offsets of described device registers: timer and quarantine of a partition, the event hart, a host window, the last peer
window, a cold region, the last vault, the debug registers of slot 0, the last link. -/
def deviceOffsets : List Nat :=
  [0, 0xC008, 0xC010, 0xC018, 0xC020, 0xC028, 0x30000, 0x419F8, 0x500D0, 0x500D8, 0x100000 + 8 * 3071, 0x200000, 0x200008, 0x4000F8]

theorem witness_ScalarLoads :
    Readable word 2 (loadAddr word 2 0) 8 ∧ Readable word 2 (loadAddr word 2 (-1)) 1 ∧
      Readable word 2 (loadAddr word 2 2) 2 ∧ Readable word 2 (loadAddr word 2 (-4)) 4 ∧
      ∀ o ∈ deviceOffsets, placeOf (deviceBase + o) = .device ∧ (deviceBase + o) % 8 = 0 :=
  ⟨by constructor <;> rfl, by constructor <;> rfl, by constructor <;> rfl, by constructor <;> rfl, by decide +kernel⟩

/-- The registers of `deviceOffsets` but the links take a store of 0 in mode D. -/
theorem witness_ScalarStores :
    Storable word 2 (loadAddr word 2 0) 8 (lowBytes (gval word 3) 8) ∧ Storable word 2 (loadAddr word 2 2047) 1 (lowBytes (gval word 3) 1) ∧
      ReleaseFree word (loadAddr word 2 0) ∧
      ∀ o ∈ deviceOffsets.dropLast, let s := withRegs calm [(2, BitVec.ofNat 64 (deviceBase + o))]
        Storable s 2 (loadAddr s 2 0) 8 (lowBytes (gval s 0) 8) ∧ placeOf (loadAddr s 2 0) = .device ∧
          (lowBytes (gval s 0) 8).length = 8 := by
  refine ⟨by constructor <;> rfl, by constructor <;> rfl, ⟨rfl, Or.inl rfl⟩, fun o ho => ?_⟩
  simp only [deviceOffsets, List.dropLast, List.mem_cons, List.not_mem_nil, or_false] at ho
  rcases ho with rfl | rfl | rfl | rfl | rfl | rfl | rfl | rfl | rfl | rfl | rfl | rfl | rfl <;>
    exact ⟨by constructor <;> first | decide +kernel | exact ok_of (by decide +kernel), by decide +kernel, by decide +kernel⟩

theorem witness_AccessTraps :
    let s := withRegs calm [(2, 0x1001), (3, 0x800000000000000)]
    Awake s ∧ (gpr s 2).tag = 0 ∧ loadAddr s 2 0 % 2 ≠ 0 ∧
      (gpr s 3).tag = 0 ∧ loadAddr s 3 0 % 8 = 0 ∧ placeOf (loadAddr s 3 0) = .hole ∧
      (gpr (setGpr s 4 { val := 0, tag := 255, lease := {} }) 4).tag = 255 := by decide +kernel

theorem witness_Atomics :
    AtomicReady word 2 true (gval word 2).toNat 4 ∧ AtomicReady word 2 false (gval word 2).toNat 8 ∧
      (let s := withRegs calm [(2, 0xFFF0000000000)]
       (gpr s 2).tag = 0 ∧ (gval s 2).toNat % 8 = 0 ∧ placeOf (gval s 2).toNat = .rows) ∧
      (let s := withRegs calm [(2, 0x1000000000000)]
       (gval s 2).toNat % 8 = 0 ∧ placeOf (gval s 2).toNat = .cold 0) ∧
      (let s := withRegs calm [(2, 0xF000000000000)]
       (gval s 2).toNat % 8 = 0 ∧ placeOf (gval s 2).toNat = .device ∧ mode s = modeD ∧ Awake s) :=
  ⟨⟨rfl, rfl, rfl, fun _ => ⟨rfl, Or.inl rfl⟩⟩, ⟨rfl, rfl, rfl, fun h => nomatch h⟩, by decide +kernel⟩

theorem witness_WaitOnWord :
    WaitReady word 2 (gval word 2).toNat 4 ∧ numberAt word 0x1000 4 = 0x80000080 ∧
      numberAt word 0x1000 4 ≠ gprLow (gval word 3) 32 ∧
      numberAt word 0x1004 4 = gprLow (gval word 0) 32 ∧ word.hart.phase = .launched ∧ WaitReady word 2 0x1004 4 ∧
      (let s := withRegs calm [(2, 0xFFF0000000000)]
       checkIssue s .load (baseTag s 2) (gval s 2).toNat 4 4 = .ok () ∧ (placeOf (gval s 2).toNat).isDram = false ∧ Awake s) :=
  ⟨by constructor <;> rfl, by decide +kernel, by decide +kernel, by decide +kernel, rfl, by constructor <;> rfl, ok_of (by decide +kernel),
    by decide +kernel, by decide +kernel⟩

theorem witness_MaskBranches :
    (false = true ↔ ∃ i, i < calm.hart.csr.vl.toNat ∧ maskBitAt calm 1 i = true) ∧
      (true = true ↔ ∀ i, i < calm.hart.csr.vl.toNat → maskBitAt calm 1 i = true) ∧
      bindingOf calm 3 = none ∧ Awake calm := by
  have h : calm.hart.csr.vl.toNat = 0 := by decide +kernel
  refine ⟨by simp [h], by simp [h], ?_⟩
  decide +kernel

theorem witness_Jumps :
    bit (branchTarget calm (1 : BitVec 20)) 0 = false ∧
      (let s := { calm with hart := { calm.hart with pc := 1 } }
       bit (branchTarget s (1 : BitVec 20)) 0 = true ∧ bit (branchTarget s (1 : BitVec 9)) 0 = true ∧ Awake s) ∧
      bit (gval (fp 0x100 0) 2 + (0 : BitVec 12).signExtend 64) 0 = false ∧
      bit (gval (fp 0x100 0) 2 + (1 : BitVec 12).signExtend 64) 0 = true ∧ bit (gval (fp 0x101 0) 2) 0 = true ∧
      Awake (fp 0x101 0) := by decide +kernel

theorem witness_CompressedForms :
    let s := withRegs calm [(9, 0x1000)]
    Readable s 9 (gval s 9 + BitVec.ofNat 64 (63 * 8)).toNat 8 ∧ Readable s 9 (gval s 9 + BitVec.ofNat 64 (1 * 4)).toNat 4 ∧
      Storable s 9 (gval s 9 + BitVec.ofNat 64 (0 * 8)).toNat 8 (lowBytes (gval s 3) 8) :=
  ⟨by constructor <;> rfl, by constructor <;> rfl, by constructor <;> rfl⟩

theorem witness_TrapEntry :
    Awake (inMode 0 0) ∧ mode (inMode 0 0) = modeU ∧ { calm.hart with stopped := true }.stopped = true ∧
      (∀ q ∈ calm.hart.queue, q.copy = none) ∧
      asyncReady { inMode 0 2 with hart := { (inMode 0 2).hart with owes55 := true } } = true := by decide +kernel

theorem witness_DoubleTrap : calm.hart.phase ≠ .free ∧ calm.hart.stopped = false ∧ bit (inMode 0 1).hart.csr.status 0 = true ∧ mode (inMode 0 1) = modeU ∧
    calm.hart.posted = [] ∧
    (part calm 12).logHead - (part calm 12).logConsumed = (part calm 12).logEntries ∧
    (let s := setPart calm 12 { part calm 12 with logEntries := 64, logBase := 0x2000 }
     (part s 12).logHead - (part s 12).logConsumed ≠ (part s 12).logEntries) := by decide +kernel

/-- `calm` in a handler entered from a loop of depth 1. -/
def inHandler : State := { inMode 1 1 with hart := { (inMode 1 1).hart with aside := [{ regions := [], depth := 1, fed := none }] } }

theorem witness_TrapReturn :
    mode inHandler ≠ modeU ∧ (∀ x ∈ calm.hart.aside.head?, x.depth = calm.hart.loops.depth) ∧ mode calm ≠ modeU ∧
      ∃ x ∈ inHandler.hart.aside.head?, x.depth ≠ inHandler.hart.loops.depth :=
  ⟨by decide +kernel, by decide +kernel, by decide +kernel, ⟨_, rfl, by decide +kernel⟩⟩

theorem witness_CsrPermissions :
    Awake (inMode 0 0) ∧ (∀ r ∈ csrRows, ¬ (r.1 ≤ 0x017 ∧ 0x017 ≤ r.2.1)) ∧ (0x0C8, 0x0C9, 0, 3) ∈ csrRows ∧
      (0x100, 0x105, 1, 1) ∈ csrRows ∧ mode (inMode 0 0) < 1 ∧ mode calm < 3 := by decide +kernel

/-- An `awmerge` of the hart is under way. -/
theorem witness_CsrReads_merging :
    MergesDone calm ∧
      ¬ MergesDone { calm with merges := [{ seq := 1, cid := 1, partId := 12, member := 0, sat := false, after := [], tag := 0
                                            win := { seq := 1, base := 0, size := 256, ty := .i32, copies := [] } }] } := by
  decide +kernel

theorem witness_CsrReads : (0x010, 0x011, 0, 1) ∈ csrRows ∧ 0 ≤ mode calm ∧ (0x210, 0x21F, 1, 2) ∈ csrRows ∧
    1 ≤ mode calm := by decide +kernel

theorem witness_CsrWrites :
    1 ≤ mode calm ∧ (plainCsrs.all fun r => r.ok 1 || r.num == 0x101 || r.num == 0x102) = true ∧
      (plainCsrs.any fun r => !r.ok 0xFFFFFFFFFFFFFFFF) = true ∧ Awake calm ∧
      (let v : Word := 0xE17
       v.toNat < 2 ^ 12 ∧ field v 7 2 = 0 ∧ field v 3 2 < 3 ∧ (field v 3 2 = 2 → mode (inMode 2 0) ≠ modeS)) ∧
      field (0x18 : Word) 3 2 = 3 ∧ field (0x10 : Word) 3 2 = 2 ∧ mode (inMode 1 0) = modeS ∧ Awake (inMode 1 0) := by
  decide +kernel

/-- A hart that runs the one replica of a parallel strip loop at depth 0 of it. -/
def replica : State :=
  { calm with hart := { calm.hart with
    par := some { active := 0, depth := 0, asides := 0, count := 1, rest := [], ended := [] } } }

theorem witness_CsrWriteEvents :
    calm.hart.phase ≠ .free ∧ 1 ≤ mode calm ∧ vectorQuiet calm = true ∧ (0x20 : Word).toNat % 32 = 0 ∧
      wmOk calm 0 = true ∧ wmOk calm 3 = false ∧
      calm.hart.par = none ∧ replica.hart.par ≠ none ∧ Awake replica := by
  decide +kernel

theorem witness_ConfigurationWrites_harness : harnessOk calm 1 0 = true := by
  have h1 : boundHalves 1 0 = [] := by decide +kernel
  have h2 : halfTaken calm 1 [] = false := by simp [halfTaken]
  have h3 : (hartsOn calm 1).isEmpty = true := by decide +kernel
  simp only [harnessOk, h1, h2, h3, Bool.or_true, Bool.and_true]
  decide +kernel

/-- A front end without harts has no group ready in any beat; one before its last beat. -/
theorem witness_ConfigurationWrites_beats :
    (let s := setFrontEnd calm 1 { frontEnd calm 1 with beatPending := some 0 }
     (∀ b, (frontEnd calm 1).beat ≤ b → b < 16 → readyHarts s 1 (field (frontEnd calm 1).beatmap (4 * b) 4) = []) ∧
       (frontEnd calm 1).beat < 16) ∧
    (frontEnd (setFrontEnd calm 1 { frontEnd calm 1 with beat := 15 }) 1).beat = 15 := by
  refine ⟨⟨fun b _ _ => ?_, by decide +kernel⟩, by decide +kernel⟩
  have h : hartsOn (setFrontEnd calm 1 { frontEnd calm 1 with beatPending := some 0 }) 1 = [] := by decide +kernel
  rw [readyHarts, h]
  rfl

/-- A hart before a `vadd` has a group ready in a beat of its partition. -/
theorem witness_ConfigurationWrites_busy :
    let s := putInstr calm (leBytes 4 0x70C3E301)
    let t := setFrontEnd s 0 { frontEnd s 0 with beatPending := some 0xCCCCCCCCCCCCCCCC }
    ∃ b, (frontEnd s 0).beat ≤ b ∧ b < 16 ∧ readyHarts t 0 (field (frontEnd s 0).beatmap (4 * b) 4) ≠ [] :=
  ⟨0, by decide +kernel, by decide, by decide +kernel⟩

theorem witness_ConfigurationWrites :
    (∀ b < 16, field (0xCCCCCCCCCCCCCCCC : Word) (4 * b) 4 ≠ 13 ∧ field (0xCCCCCCCCCCCCCCCC : Word) (4 * b) 4 ≠ 14) ∧
      (∀ x ∈ slotsAt 0, field (slotCfg calm x).part 0 4 = 15 ∨
        ∃ b < 16, field (0xCCCCCCCCCCCCCCCC : Word) (4 * b) 4 = field (slotCfg calm x).part 0 4) ∧
      slotLive calm 1 = false ∧ slotLive calm 0 = true ∧ calm.hart.phase = .launched ∧ mode calm = modeD ∧ Awake calm ∧
      (let v : Word := 0x02000200
       v.toNat < 2 ^ 28 ∧ field v 11 5 = 0 ∧ 0 < field v 16 12 ∧ field v 0 11 + field v 16 12 ≤ 2048 ∧
         ∀ x ∈ slotsAt (1 / 4), x ≠ 1 →
           field v 0 11 + field v 16 12 ≤ field (slotCfg calm x).rowrange 0 11 ∨
             field (slotCfg calm x).rowrange 0 11 + field (slotCfg calm x).rowrange 16 12 ≤ field v 0 11) ∧
      (let v : Word := BitVec.ofNat 64 (256 * 2 ^ 39 + 3)
       v.toNat < 2 ^ 56 ∧ field v 4 22 = 0 ∧ field v 0 4 ≠ 13 ∧ field v 0 4 ≠ 14 ∧ spBase v + spLen v ≤ 0x100000 ∧
         sdBase v + sdLen v ≤ 0x10000 ∧ field v 0 4 ≠ 15 ∧
         ownerOf (frontEnd calm 0).scratchOwner 0 ≠ field v 0 4) ∧
      (let v : Word := 0x3B4
       v.toNat < 2 ^ 52 ∧ field v 6 1 = 0 ∧ field v 10 2 = 0 ∧
         (12 ≤ field v 0 6 ∧ field v 0 6 ≤ 52 ∧ v.toNat / 4096 * 4096 % 2 ^ field v 0 6 = 0)) := by decide +kernel

/-- A hart whose vector side has a copy in flight. -/
def busy : State :=
  { calm with copies := [{ seq := 1, cid := calm.hart.cid, bar := 0, dst := 0, src := 0, dstTag := 0, srcTag := 0,
                           rowBytes := 64, rows := 1, dstPitch := 0, srcPitch := 0, done := 0, slab := none, logged := false }] }

theorem witness_FencesAndYields :
    vectorQuiet calm = true ∧ ownPosted calm = [] ∧ vectorQuiet busy = false ∧
      (let s := { calm with hart := { calm.hart with posted := [{ addr := 0x1000000000000, data := [1], tags := [] }] } }
       (∃ p ∈ ownPosted s, p.vec = false ∧ (placeOf p.addr).isDram = false) ∧ vectorQuiet s = true) ∧
      scopeLimited calm = false ∧ quiet calm = true ∧ quiet busy = false ∧ calm.hart.csr.scopepol = false ∧ Awake calm ∧
      calm.hart.stopPending = false ∧ { calm.hart with stopPending := true }.stopPending = true := by decide +kernel

theorem witness_ExitAndRetirement :
    calm.hart.phase = .launched ∧ calm.hart.par = none ∧ (∀ m ∈ calm.moves, m.manager ≠ calm.hart.cid) ∧
      calm.hart.accWin = none ∧ ExitFree calm ∧ Awake calm ∧
      ¬ ExitFree { calm with hart := { calm.hart with replies := [{ d := 1, val := {} }] } } ∧
      (∀ h ∈ calm.others ++ calm.saved, h.phase.live = true → ¬ WithMe calm h) ∧
      (let s := { calm with saved := [{ calm.hart with cid := 7, phase := .preempted }] }
       ∃ h ∈ s.others ++ s.saved, h.phase.live = true ∧ WithMe s h) :=
  ⟨rfl, rfl, by decide +kernel, rfl, ⟨rfl, rfl⟩, by decide +kernel, (fun h => nomatch h.2), by decide +kernel,
    ⟨_, List.mem_cons_self, rfl, rfl, rfl⟩⟩

theorem witness_ServiceCalls :
    mode calm ≠ modeU ∧ quiet calm = true ∧ calm.hart.phase = .launched ∧ calm.svc.recovery = false ∧
      (refusals calm).find? (·.2) = none ∧
      (refusals (withRegs calm [(11, 0x100000000)])).find? (·.2) = some (255, true) ∧
      (refusals (withRegs calm [(11, 0x10001)])).find? (·.2) = some (53, true) ∧
      (refusals (withRegs calm [(11, 3)])).find? (·.2) = some (255, true) := by decide +kernel

/-- A manager in mode D beside a parked hart whose slot table at 0x3000 has a record 1. -/
def mover : State :=
  { withRegs calm [(2, 0x3000)] with
    mem := [(0x3022, 1), (0x3029, 1)]
    others := [{ cid := 9, phase := .parked, wait := .gbar, slot := 1, partId := 12, csr := { slotbase := 0x3000 } }] }

theorem witness_SlotsAndLeases :
    NamesRecord 1 ∧ NamesRecord 254 ∧ ¬ NamesRecord 0 ∧ ¬ NamesRecord 255 ∧ Awake calm ∧
      RecordReadable calm (slotAddr calm.hart.csr.slotbase 254) :=
  ⟨by decide, by decide, by decide, by decide, by decide +kernel, ⟨by constructor <;> rfl, by decide +kernel⟩⟩

theorem witness_Moves_request :
    mover.hart.phase ≠ .free ∧ mode mover ≠ modeU ∧ TableReadable mover 2 1 ∧ MoveFree mover 2 1 ∧
      ∀ h ∈ contexts mover, OnTable mover (gval mover 2) h →
        (h.phase = .preempted ∨ h.phase = .exiting ∨ h.phase = .parked ∨ h.stopped = true) ∧
          inFlightTouches mover (newMove mover 1 2 1) h = false :=
  ⟨by decide +kernel, by decide +kernel, ⟨rfl, rfl, by constructor <;> rfl, by decide +kernel⟩,
    ⟨by decide +kernel, by decide +kernel, by decide +kernel, by decide +kernel, by decide +kernel, rfl⟩, by decide +kernel⟩

theorem witness_Moves_commit :
    let m := newMove mover 1 2 1
    let s := { mover with moves := [m] }
    TableReadable s 2 1 ∧ s.moves.find? (·.manager == s.hart.cid) = some m ∧ m.table = gval s 2 ∧ m.slot = 1 ∧ m.done = true ∧
      (m.everyPart = true ↔ mode s = modeD) ∧ m.partId = s.hart.partId ∧ s.hart.csr.slotbase ≠ gval s 2 ∧
      s.hart.posted = [] ∧ s.hart.phase = .launched ∧ m.pc = s.hart.pc ∧
      moveQuiet { s with others := s.others.map fun h => { h with stopped := true }, moves := [{ m with done := false }] }
        { m with done := false } = true ∧
      Awake (inMode 0 0) ∧ mode (inMode 0 0) = modeU ∧
      { calm.hart with posted := [{ addr := 0, data := [1], tags := [] }] }.posted ≠ [] ∧
      poisonedRecord s m (BitVec.ofNat 64 (recordAt s (slotAddr (gval s 2) 1)).base - m.oldBase) = none ∧
      (let b : Stream := { reg := 2, addr := 0x9000, tag := 0, record := [], pos := 0, lease := {} }
       let u := { s with
         others := s.others.map fun h => { h with streams := [b] }
         poison := [0x9008 / 8] }
       poisonedRecord u m (BitVec.ofNat 64 (recordAt u (slotAddr (gval u 2) 1)).base - m.oldBase) = some 0x9008 ∧ Awake u) :=
  ⟨⟨rfl, rfl, by constructor <;> rfl, by decide +kernel⟩, by decide +kernel⟩

/-- `calm` with eight windows of one row each (v1 to v8, rows 0 to 7), a vector length, a type code and general registers. -/
def vec (ty vl : Nat) (l : List (Reg × Word)) : State :=
  let s := setCsrs (withRegs calm l) fun c => { c with vtype := BitVec.ofNat 10 ty, vl := BitVec.ofNat 64 vl }
  [1, 2, 3, 4, 5, 6, 7, 8].foldl (fun t (n : Nat) =>
    setVreg t (BitVec.ofNat 5 n) { vreg t (BitVec.ofNat 5 n) with win := { base := BitVec.ofNat 11 (n - 1), len := 1 } }) s

theorem witness_VectorLength :
    ValidType 0x008 ∧ ValidType 0x31D ∧ ¬ ValidType 0x00D ∧ ¬ ValidType 0x00E ∧ ¬ ValidType 0x400 ∧ Awake calm ∧
      IsCapacity calm (512 * 2048) ∧ IsCapacity replica (512 * 2048) ∧
      (let s := withRegs calm [(2, 2047), (3, 2048), (4, 2049)]
       (gval s 2).toNat ≤ 2047 ∧ (gval s 3).toNat ≤ 2048 ∧ 2048 < (gval s 4).toNat ∧ ∀ x ∈ s.hart.streams, x.reg ≠ 5) := by
  have h : contexts calm = [calm.hart] := rfl
  have k : calm.hart.par = none := rfl
  have k' : replica.hart.par ≠ none := by decide +kernel
  refine ⟨by decide, by decide, by decide, by decide, by decide, by decide +kernel, ⟨fun q => absurd k q, fun _ => ?_⟩,
    ⟨fun _ => rfl, fun q => absurd q k'⟩, by decide +kernel⟩
  rw [h]
  exact ⟨by decide +kernel, Or.inl ⟨_, List.mem_cons_self, by decide +kernel⟩⟩

theorem witness_VectorIntegers :
    TypeIs (vec 2 4 []) .i32 .rne ∧ Operands (vec 2 4 []) 1 32 [(2, 32), (3, 32)] true ∧
      Operands (vec 2 64 []) 2 32 [(2, 32)] true ∧ TypeIs (vec 0x102 4 []) .i32 .sr ∧ TypeIs (vec 8 4 []) .f32 .rne ∧
      tyIsInt .f32 = false ∧ Awake (vec 8 4 []) ∧
      HoldsWritten (vec 2 4 []) (vreg (vec 2 4 []) 1).win.base.toNat 32 (fun i => if i = 3 then some 7 else none)
        (vreg (vec 2 4 []) 1).win ∧
      ¬ HoldsWritten (vec 2 4 []) (vreg (vec 2 4 []) 1).win.base.toNat 32 (fun i => if i = 3 then some 7 else none)
        (vreg (vec 2 4 []) 2).win :=
  ⟨⟨rfl, rfl, (nomatch ·)⟩, by constructor <;> decide +kernel,
   by constructor <;> decide +kernel,
   ⟨rfl, rfl, (nomatch ·)⟩, ⟨rfl, rfl, (nomatch ·)⟩, by decide, by decide +kernel,
   ⟨3, by decide +kernel, rfl, by decide +kernel, by decide +kernel⟩, fun ⟨i, hi, _, hb, _⟩ => by
     have h4 : i < 4 := hi
     match i, h4 with
     | 0, _ | 1, _ | 2, _ | 3, _ => exact absurd hb (by decide +kernel)⟩

theorem witness_VectorFloats :
    TypeIs (vec 0x48 4 []) .f32 .rtz ∧ Operands (vec 0x48 4 []) 1 32 [(2, 32), (3, 32), (1, 32)] true ∧
      Operands (vec 0x48 4 []) 3 32 [(3, 32)] true ∧ TypeIs (vec 3 4 []) .i64 .rne ∧ tyIsFloat .i64 = false ∧
      Awake (vec 3 4 []) :=
  ⟨⟨rfl, rfl, (nomatch ·)⟩, by constructor <;> decide +kernel,
   by constructor <;> decide +kernel,
   ⟨rfl, rfl, (nomatch ·)⟩, by decide, by decide +kernel⟩

theorem witness_VectorCompares :
    TypeIs (vec 0 4 []) .i8 .rne ∧ Sources (vec 0 4 []) [(2, 8), (3, 8)] ∧ TypeIs (vec 10 4 []) .bf16 .rne ∧
      Sources (vec 10 4 []) [(2, 16), (2, 16)] ∧ Awake (vec 10 4 []) :=
  ⟨⟨rfl, rfl, (nomatch ·)⟩, by constructor <;> decide +kernel,
   ⟨rfl, rfl, (nomatch ·)⟩, by constructor <;> decide +kernel, by decide +kernel⟩

theorem witness_MaskGroup :
    vlen (vec 0 4 []) ≤ maskBits (vec 0 4 []) ∧ maskBits (vec 0 0x1000000 []) < vlen (vec 0 0x1000000 []) ∧
      Awake (vec 0 0x1000000 []) ∧
      (let s := setMreg (vec 0 4 []) 1 { bits := 4, lease := {} }
       maskBit s 1 2 = true ∧ (∀ j, j < 2 → maskBit s 1 j = false) ∧ (vec 0 4 []).hart.lag = false ∧ AtOnce s ∧
         { vec 0 4 [] with hart := { (vec 0 4 []).hart with lag := true } }.hart.lag = true) ∧
      (∀ i, i < vlen (vec 0 4 []) → maskBit (vec 0 4 []) 1 i = false) := by decide +kernel

theorem witness_CrossLanePermutes :
    TypeIs (vec 2 4 []) .i32 .rne ∧ Operands (vec 2 4 []) 1 32 [(2, 32), (3, 32)] false ∧
      (VOp.vs 9).isScalar = true ∧ (VOp.vs 9).notNegative = true ∧ (VOp.vi 15).notNegative = true ∧
      Sources (vec 2 4 []) [(2, 32)] ∧ Claims.Fits (vec 2 0 []) (vreg (vec 2 0 []) 2).win 32 (max 1 (vlen (vec 2 0 []))) ∧
      elemPoisoned (vec 2 0 []) (vreg (vec 2 0 []) 2).win.base.toNat 32 0 = false ∧ AtOnce (vec 2 0 []) :=
  ⟨⟨rfl, rfl, (nomatch ·)⟩, by constructor <;> decide +kernel,
   by decide, by decide, by decide, by constructor <;> decide +kernel, by decide +kernel⟩

theorem witness_VectorMoves :
    TypeIs (vec 2 4 []) .i32 .rne ∧ Operands (vec 2 4 []) 1 32 [] true ∧ 0 < vlen (vec 2 4 []) ∧ vfirst (vec 2 4 []) = 0 ∧
      Operands (vec 8 0 []) 1 32 [] true ∧ vlen (vec 8 0 []) = 0 ∧ Awake (vec 8 0 []) :=
  ⟨⟨rfl, rfl, (nomatch ·)⟩, by constructor <;> decide +kernel,
   by decide +kernel, by decide +kernel,
   by constructor <;> decide +kernel, by decide +kernel⟩

/-- `vec` with scale registers k0 and k1 in rows 8 and 9. -/
def scaled (ty vl : Nat) : State :=
  setKreg (setKreg (vec ty vl []) 0 { win := { base := 8, len := 1 } }) 1 { win := { base := 9, len := 1 } }

theorem witness_VectorConversions :
    TypeIs (scaled 0x10A 32) .bf16 .sr ∧ Operands (scaled 0x10A 32) 1 16 [(2, 32)] true ∧
      TypeIs (scaled 0x2A 32) .bf16 .rne ∧ Operands (scaled 0x2A 32) 1 16 [(2, 4)] true ∧
      field (scaled 0x2A 32).hart.csr.vtype 4 2 ≠ 0 ∧ ScaleFits (scaled 0x2A 32) 0 ((vlen (scaled 0x2A 32) + blockLen (scaled 0x2A 32) - 1) / blockLen (scaled 0x2A 32)) ∧
      RowsApart (vreg (scaled 0x2A 32) 1).win (kreg (scaled 0x2A 32) 0).win ∧
      TypeIs (scaled 0x12D 32) .f4b .sr ∧ vlen (scaled 0x12D 32) % blockLen (scaled 0x12D 32) = 0 ∧
      Operands (scaled 0x12D 32) 1 4 [(2, 32)] true ∧
      Claims.Fits (scaled 0x12D 32) (kreg (scaled 0x12D 32) 1).win 8 (vlen (scaled 0x12D 32) / blockLen (scaled 0x12D 32)) ∧
      RowsApart (kreg (scaled 0x12D 32) 1).win (vreg (scaled 0x12D 32) 2).win ∧
      RowsApart (kreg (scaled 0x12D 32) 1).win (vreg (scaled 0x12D 32) 1).win ∧ Awake (scaled 0x12D 32) :=
  ⟨⟨rfl, rfl, (nomatch ·)⟩, by constructor <;> decide +kernel,
   ⟨rfl, rfl, (nomatch ·)⟩, by constructor <;> decide +kernel,
   by decide +kernel, ⟨by decide +kernel, by decide +kernel⟩, by decide +kernel,
   ⟨rfl, rfl, fun _ => by decide +kernel⟩, by decide +kernel,
   by constructor <;> decide +kernel, by decide +kernel⟩

theorem witness_Reductions :
    TypeIs (vec 2 4 []) .i32 .rne ∧ Sources (vec 2 4 []) [(2, 32)] ∧ TypeIs (vec 8 3 []) .f32 .rne ∧
      Sources (vec 8 3 []) [(2, 32)] ∧ Awake (vec 8 3 []) ∧ tyIsAnyFloat .f32 = true ∧ tyIsAnyFloat .i32 = false :=
  ⟨⟨rfl, rfl, (nomatch ·)⟩, by constructor <;> decide +kernel,
   ⟨rfl, rfl, (nomatch ·)⟩, by constructor <;> decide +kernel, by decide +kernel,
   by decide, by decide⟩

/-! ### Vector memory -/

/-- `vec` with one or more elements of 32 bits and a base address in DRAM in g9, an odd one in g10. -/
def vmem (ty vl : Nat) : State := vec ty vl [(9, 0x1000), (10, 0x1002), (11, 8)]

theorem active_lt {s : State} {m : Reg3} {i : Nat} (h : isActive s m i = true) : i < vlen s := by
  simp only [isActive, Bool.and_eq_true, decide_eq_true_eq] at h
  exact h.1.2

theorem vmem_regs_unit : XferRegs (vmem 2 2) .unit 1 1 32 := by constructor <;> first | decide +kernel | omega

theorem vmem_regs_one : XferRegs (vmem 2 2) (.indexed 2) 1 1 32 := by constructor <;> first | decide +kernel | omega

theorem vmem_regs_two : XferRegs (vmem 2 2) .segment 1 2 32 := by
  refine ⟨⟨rfl, rfl⟩, ⟨rfl, rfl, rfl, rfl, rfl⟩, ?_, ?_, fun f g h k => ?_, ?_, ?_⟩
  case refine_3 =>
    obtain ⟨rfl, rfl⟩ : f = 0 ∧ g = 1 := by omega
    decide +kernel
  all_goals decide +kernel

theorem vmem_ready (k : Acc) (h : k = .load ∨ k = .store ∨ k = .atomic) (i : Nat) (hi : i < 2) :
    ElementReady (vmem 2 2) k 9 (elementAddr (vmem 2 2) .unit 9 .i32 32 1 i 0) 4 ∧
      ElementReady (vmem 2 2) k 9 (elementAddr (vmem 2 2) (.indexed 2) 9 .i32 32 1 i 0) 4 := by
  obtain rfl | rfl : i = 0 ∨ i = 1 := by omega
  all_goals rcases h with rfl | rfl | rfl <;>
    exact ⟨⟨rfl, rfl, fun _ => by decide +kernel, rfl⟩, ⟨rfl, rfl, fun _ => by decide +kernel, rfl⟩⟩

theorem witness_VectorLoads :
    TypeIs (vmem 2 2) .i32 .rne ∧ memFormat .i32 .x1 = some .i32 ∧ XferRegs (vmem 2 2) .unit 1 1 32 ∧
      (∀ i, isActive (vmem 2 2) 0 i = true → ∀ f, f < 1 →
        ElementReady (vmem 2 2) .load 9 (elementAddr (vmem 2 2) .unit 9 .i32 32 1 i f) 4 ∧
          firstPoisoned (vmem 2 2) (replicaAddr (vmem 2 2) (elementAddr (vmem 2 2) .unit 9 .i32 32 1 i f)) 4 = none) ∧
      XferRegs (vmem 2 2) .segment 1 2 32 ∧
      memFormat .i8 .x2 = none ∧ TypeIs (vmem 0 2) .i8 .rne ∧ Awake (vmem 0 2) ∧ (vmem 0 2).hart.inProgress = none ∧
      Awake (vmem 2 2) ∧ vfirst (vmem 2 2) < vlen (vmem 2 2) ∧ maskBit (vmem 2 2) 0 (vfirst (vmem 2 2)) = true ∧
      ∃ e, checkVector (vmem 2 2) .load (gpr (vmem 2 2) 10).tag (elementAddr (vmem 2 2) .unit 10 .i32 32 1 0 0) 4 4 = .error e := by
  refine ⟨⟨rfl, rfl, (nomatch ·)⟩, rfl, vmem_regs_unit, fun i hi f hf => ?_, vmem_regs_two, rfl, ⟨rfl, rfl, (nomatch ·)⟩,
    by decide +kernel, rfl, by decide +kernel, by decide +kernel, by decide +kernel, ⟨_, rfl⟩⟩
  obtain rfl : f = 0 := by omega
  have h2 : i < 2 := active_lt hi
  exact ⟨(vmem_ready .load (.inl rfl) i h2).1, by
    match i, h2 with
    | 0, _ => rfl
    | 1, _ => rfl⟩

theorem witness_VectorStores :
    TypeIs (vmem 2 2) .i32 .rne ∧ memFormat .i32 .x1 = some .i32 ∧ XferRegs (vmem 2 2) .unit 1 1 32 ∧
      (∀ i, isActive (vmem 2 2) 0 i = true → ∀ f, f < 1 →
        ElementReady (vmem 2 2) .store 9 (elementAddr (vmem 2 2) .unit 9 .i32 32 1 i f) 4 ∧
          placeOf (replicaAddr (vmem 2 2) (elementAddr (vmem 2 2) .unit 9 .i32 32 1 i f)) ≠ .device ∧
          elemPoisoned (vmem 2 2) (vreg (vmem 2 2) (1 + BitVec.ofNat 5 f)).win.base.toNat 32 i = false) ∧
      TypeIs (vmem 0x108 2) .f32 .sr ∧ memFormat .f32 .x2 = some .bf16 ∧ memFormat .f32 .x4 = some .e4m3 ∧
      Awake (vmem 0x108 2) := by
  refine ⟨⟨rfl, rfl, (nomatch ·)⟩, rfl, vmem_regs_unit, fun i hi f hf => ?_, ⟨rfl, rfl, (nomatch ·)⟩, rfl, rfl, by decide +kernel⟩
  obtain rfl : f = 0 := by omega
  have h2 : i < 2 := active_lt hi
  refine ⟨(vmem_ready .store (.inr (.inl rfl)) i h2).1, ?_⟩
  match i, h2 with
  | 0, _ => decide +kernel
  | 1, _ => decide +kernel

theorem witness_VectorAtomics :
    TypeIs (vmem 2 2) .i32 .rne ∧ XferRegs (vmem 2 2) (.indexed 2) 1 1 32 ∧
      (∀ i, isActive (vmem 2 2) 0 i = true →
        ElementReady (vmem 2 2) .atomic 9 (elementAddr (vmem 2 2) (.indexed 2) 9 .i32 32 1 i 0) 4 ∧
          placeOf (replicaAddr (vmem 2 2) (elementAddr (vmem 2 2) (.indexed 2) 9 .i32 32 1 i 0)) ≠ .device ∧
          firstPoisoned (vmem 2 2) (replicaAddr (vmem 2 2) (elementAddr (vmem 2 2) (.indexed 2) 9 .i32 32 1 i 0)) 4 = none ∧
          elemPoisoned (vmem 2 2) (vreg (vmem 2 2) 1).win.base.toNat 32 i = false) ∧
      TypeIs (vmem 1 2) .i16 .rne ∧ Awake (vmem 1 2) ∧ (vmem 1 2).hart.inProgress = none := by
  refine ⟨⟨rfl, rfl, (nomatch ·)⟩, vmem_regs_one, fun i hi => ?_, ⟨rfl, rfl, (nomatch ·)⟩, by decide +kernel, rfl⟩
  have h2 : i < 2 := active_lt hi
  refine ⟨(vmem_ready .atomic (.inr (.inr rfl)) i h2).2, ?_⟩
  match i, h2 with
  | 0, _ => decide +kernel
  | 1, _ => decide +kernel

/-! ### Gangs, watermarks, accumulation windows -/

/-- The record of the gang 0 of stack 0 with some members and a barrier. -/
def gangRec (n : Nat) (b : Barrier) : Gang :=
  { stack := 0, num := 0, partId := 12, size := n, queue := 0, vdev := 0, clamped := false, density := 1, slabs := 1
    hasReserve := false, owedReserve := false, startedAt := 0, barrier := b }

/-- The current hart (number 1) with a second member (number 2) that waits in a given way. -/
def pair (w : Wait) (b : Barrier) : State :=
  let s := vec 2 4 []
  { s with
    others := [{ s.hart with cid := 2, phase := .parked, wait := w, member := 1 }]
    gangs := [gangRec 2 b] }

theorem witness_GangBarriers :
    (let s := pair .gbar { arrived := [2] }
     let g := gangRec 2 { arrived := [2] }
     quiet s = true ∧ s.hart.phase = .launched ∧ gangOf s s.hart.gangStack s.hart.gang = some g ∧
       s.hart.cid ∉ g.barrier.owed ∧ g.barrier.broken = false ∧ s.hart.cid ∈ generation s g ∧
       (∀ c ∈ generation s g, c ≠ s.hart.cid → c ∈ g.barrier.arrived) ∧
       ∀ h ∈ s.others ++ s.saved, h.cid ∈ generation s g → h.wait = .gbar) ∧
    (let g := gangRec 2 {}
     ∃ c ∈ generation (pair .none {}) g, c ≠ (pair .none {}).hart.cid ∧ c ∉ g.barrier.arrived) ∧
    (let g := gangRec 2 { late := [1, 2] }
     (∀ c ∈ membersOf (pair .none g.barrier) g, c ∈ g.barrier.late) ∧ (pair .none g.barrier).hart.cid ∈ generation (pair .none g.barrier) g) ∧
    (let g := gangRec 2 { late := [1] }
     (pair .none g.barrier).hart.cid ∉ generation (pair .none g.barrier) g) ∧
    quiet busy = false ∧ (pair .none {}).hart.cid ∉ (gangRec 2 {}).barrier.arrived ∧
    calm.hart.stopPending = false ∧ { calm.hart with stopPending := true }.stopPending = true ∧
    (let g := gangRec 2 { broken := true, owed := [1] }
     (pair .none g.barrier).hart.cid ∈ g.barrier.owed ∧ g.barrier.arrived = [] ∧ Awake (pair .none g.barrier)) ∧
    gangOf calm calm.hart.gangStack calm.hart.gang = none ∧ TypeIs (pair .none {}) .i32 .rne ∧
    Operands (pair .none {}) 1 32 [(2, 32)] true ∧
    (let s := pair (.vsred 1 2 0) { arrived := [2] }
     ∀ h ∈ s.others ++ s.saved, h.cid ∈ generation s (gangRec 2 { arrived := [2] }) →
       (∃ a b c, h.wait = .vsred a b c) ∧ h.csr.vl = s.hart.csr.vl ∧ h.csr.vtype = s.hart.csr.vtype) ∧
    TypeIs (vec 0 4 []) .i8 .rne ∧ Awake (vec 0 4 []) := by
  refine ⟨by decide +kernel, by decide +kernel, by decide +kernel, by decide +kernel, by decide +kernel, by decide +kernel, rfl, rfl,
    by decide +kernel, rfl, ⟨rfl, rfl, (nomatch ·)⟩,
    by constructor <;> decide +kernel,
    fun h hh _ => ?_, ⟨rfl, rfl, (nomatch ·)⟩, by decide +kernel⟩
  obtain rfl := List.mem_singleton.1 hh
  exact ⟨⟨1, 2, 0, rfl⟩, rfl, rfl⟩

/-- A hart alone in gang 5 beside the gang 0 of another hart; g2 names gang 0, g3 a gang that is not there, g4 the hart's own. -/
def loner (b : Barrier) : State :=
  let s := withRegs calm [(2, 0), (3, 0x70000), (4, 0x50000)]
  { s with
    hart := { s.hart with gang := 5 }
    others := [{ s.hart with cid := 2, member := 0 }]
    gangs := [gangRec 1 b, { gangRec 1 {} with num := 5 }] }

theorem witness_GangMembership :
    quiet (loner {}) = true ∧ (loner {}).hart.lag = false ∧
      (joinRefusals (loner {}) 0 0).find? (·.2) = none ∧ gangOf (loner {}) 0 0 = some (gangRec 1 {}) ∧
      (joinRefusals (loner {}) 0 7).find? (·.2) = some (2, true) ∧ (loner {}).hart.phase = .launched ∧ (loner {}).hart.gang ≠ 0 ∧
      (let b : Barrier := { arrived := [2], late := [3] }
       gangOf (loner b) 0 0 = some (gangRec 1 b)) ∧
      (∃ g, gangOf (loner {}) 0 (loner {}).hart.gang = some g ∧ g.size ≤ 1) ∧
      ((loner {}).hart.gangStack = field (gval (loner {}) 4) 28 4 ∧ (loner {}).hart.gang = field (gval (loner {}) 4) 16 12 ∧
        (joinRefusals (loner {}) (loner {}).hart.gangStack (loner {}).hart.gang).find? (·.2) = none) ∧
      gangOf (pair .none {}) 0 0 = some (gangRec 2 {}) ∧ 1 < (gangRec 2 {}).size ∧ quiet (pair .none {}) = true ∧
      ∀ h ∈ (pair .none {}).others ++ (pair .none {}).saved, h.cid ≠ (pair .none {}).hart.cid :=
  ⟨by decide +kernel, rfl, by decide +kernel, rfl, by decide +kernel, rfl, by decide +kernel, rfl,
    ⟨_, rfl, by decide⟩, by decide +kernel, rfl, by decide, by decide +kernel⟩

/-- A merge of the current hart that is still to be applied. -/
def merging : Merge :=
  { seq := 3, cid := 1, partId := 12, member := 0, sat := false, after := [], tag := 0
    win := { seq := 1, base := 0x1000, size := 256, ty := .i32, copies := [] } }

/-- `word` with a watermarked object of the hart's partition, of 8 elements of 4 bytes, bound to binding 0, and an unbound one. -/
def marked : State :=
  let s := setCsrs (withRegs word [(4, 8), (5, 9), (6, 1)]) fun c => { c with wm := c.wm.set 0 (BitVec.ofNat 64 (2 ^ 48 + 1)) }
  { s with marks := [(markKey 1, { owner := 12, base := 0x1000, length := 32, esize := 4, index := 2 })] }

theorem witness_WatermarkWaits :
    WaitReady word 2 0x1000 8 ∧ gated word (word.nextId + 1) = false ∧ word.merges = [] ∧
      (∃ m ∈ { word with merges := [merging] }.merges, m.cid = word.hart.cid) ∧ (gval word 2).toNat = 0x1000 ∧ (gval word 3).toNat ≤ numberAt word 0x1000 8 ∧
      numberAt word 0x1000 8 < (gval (setGpr word 3 { val := -1 }) 3).toNat ∧ word.hart.phase = .launched ∧
      { word.hart with stopped := true }.stopped = true ∧ vectorFenced word = false ∧
      (let s := { busy with hart := { busy.hart with vecFences := [{ scalar := false, upTo := 1, slab := none }] } }
       vectorFenced s = true ∧ s.merges = [] ∧ gated s (s.nextId + 1) = false) ∧
      (let s := { word with hart := { word.hart with phase := .parked, wait := .vwait 2 3, waitNs := 1073741824 } }
       Awake s ∧ 2 ^ 30 ≤ s.hart.waitNs + (timeNs s - s.hart.waitSince)) ∧
      (let s := { marked with hart := { marked.hart with stalled := [(0x1008, 4)], waitNs := 1000 } }
       let limit := field (bindingsFor s)[0] 48 16 * 1000
       Awake s ∧ limit ≠ 0 ∧ limit ≤ s.hart.waitNs + (timeNs s - s.hart.waitSince) ∧
         (∃ r ∈ s.hart.stalled, heldBy s r.1 r.2 0 = true) ∧ field (bindingsFor s)[1] 48 16 = 0) ∧
      (let s := { calm with hart := { marked.hart with bound := some marked.hart.csr.wm, csr := calm.hart.csr, stalled := [(0x1008, 4)] } }
       field s.hart.csr.wm[0] 48 16 = 0 ∧ field (bindingsFor s)[0] 48 16 ≠ 0) ∧
      bit marked.hart.csr.wm[0] 0 = true ∧ gval marked 6 ≠ 0 ∧ wmOk marked (gval marked 6) = true ∧
      wmOk calm (gval marked 6) = false ∧ quiet marked = true ∧
      (∀ m ∈ marked.marks.find? (markKey marked.hart.csr.wm[0].toNat), (gval marked 4).toNat * m.esize ≤ m.length ∧
        m.length < (gval marked 5).toNat * m.esize) ∧ (marked.marks.find? (markKey marked.hart.csr.wm[0].toNat)).isSome = true ∧
      bit marked.hart.csr.wm[15] 0 = false ∧ scopeLimited marked = false ∧ (placeOf 0x1000).isSystem = false ∧
      (let s := { calm with gangs := [{ gangRec 1 {} with clamped := true }] }
       (placeOf 0x1000000000000).isSystem = true ∧ scopeLimited s = true ∧
         { s.hart.csr with scopepol := true }.scopepol = true) :=
  ⟨by constructor <;> rfl, by decide +kernel, rfl, ⟨_, List.mem_cons_self, by decide +kernel⟩, by decide +kernel⟩

/-- `vmem` with an open window of 256 bytes at 0x1000. -/
def summing : State :=
  let s := vmem 2 2
  { s with hart := { s.hart with accWin := some { seq := 1, base := 0x1000, size := 256, ty := .i32, copies := [] } } }

theorem window_free : ¬ MeetsOther (vec 2 4 [(2, 0x1000), (3, 256)]) 0x1000 256 := by
  rintro ⟨h, hh, -, w, hw, -⟩
  obtain rfl := List.mem_singleton.1 hh
  exact nomatch hw

theorem witness_AccumulationWindows :
    (let s := vec 2 4 [(2, 0x1000), (3, 256)]
     TypeIs s .i32 .rne ∧ WindowFits s 0x1000 256 .i32 ∧ ¬ WindowFits s 0x1000 128 .i32 ∧ (gval s 2).toNat = 0x1000 ∧
       checkAccess s .store (gpr s 2).tag 0x1000 256 256 = .ok () ∧ checkWatch s .store 0x1000 256 = .ok () ∧ (placeOf 0x1000).isDram = true ∧ Awake s) ∧
    (∃ w, summing.hart.accWin = some w ∧ w.base = (gval summing 9).toNat ∧ w.base ≠ (gval summing 10).toNat) ∧
    calm.hart.accWin = none ∧ Awake summing ∧ Awake calm ∧
    XferRegs summing .unit 1 1 32 ∧ (∃ i, isActive summing 0 i = true) ∧
    (∀ i, isActive summing 0 i = true → elementAddr summing .unit 9 .i32 32 1 i 0 + 4 ≤ 0x1000 + 256 ∧
      checkVectorAccess summing .store (gpr summing 9).tag (elementAddr summing .unit 9 .i32 32 1 i 0) 4 4 = .ok () ∧
      checkVectorRest summing .store true (elementAddr summing .unit 9 .i32 32 1 i 0) 4 = .ok () ∧
      mustWait summing true (elementAddr summing .unit 9 .i32 32 1 i 0) 4 = false) ∧
    mustWait summing true 0x1000 256 = false ∧
    mustWait { summing with hart := { summing.hart with posted := [{ addr := 0x10F8, data := [1], tags := [] }] } } true 0x1000 256 = true ∧
    (let m := merging
     [m].find? (·.seq == m.seq) = some m ∧ (∀ c ∈ m.after, contributorDone calm c = true) ∧
       ∀ i, i < m.win.size → placeOf (m.win.base + i) = placeOf m.win.base) := by
  refine ⟨⟨⟨rfl, rfl, (nomatch ·)⟩, ⟨by decide, by decide, by decide, rfl, window_free, by decide +kernel⟩,
    fun h => absurd h.2.1 (by decide), rfl, rfl, rfl, rfl, by decide +kernel⟩, ⟨_, rfl, by decide +kernel⟩, rfl, by decide +kernel, by decide +kernel,
    by constructor <;> first | decide +kernel | omega,
    ⟨0, by decide +kernel⟩, fun i hi => ?_, by decide +kernel, by decide +kernel,
    ⟨by decide +kernel, by decide, by decide +kernel⟩⟩
  have h2 : i < 2 := active_lt hi
  match i, h2 with
  | 0, _ => exact ⟨by decide +kernel, rfl, rfl, rfl⟩
  | 1, _ => exact ⟨by decide +kernel, rfl, rfl, rfl⟩

/-! ### Regions, loops, streams, spills, copies -/

/-- Bytes put into memory. -/
def withBytes (s : State) (a : Nat) (bs : List Byte) : State := { s with mem := s.mem.writeBytes (canon a) bs }

/-- A hart at the end of the last strip but one of a loop at depth 1 that reaches from 0x100 to 0x200. -/
def looping (count : Word) (zero : Bool) : State :=
  { calm with hart := { calm.hart with
    pc := 0x200
    loops := { cur := { lpstart := 0x100, lpend := 0x200, lpcount := count, strip := 0 }, depth := 1, zeroTrip := zero } } }

/-- The first of two replicas at the end of its strip, with `n` strips in all. -/
def strips (n : Nat) (rest : List Replica) : State :=
  let s := looping 4 false
  { s with hart := { s.hart with
    g := 2, par := some { active := 0, depth := 1, asides := 0, count := n, rest := rest, ended := [] } } }

/-- A replica at the start of its strip. -/
def waiting : Replica := { slab := 1, pc := 0x100, regs := calm.hart.regs, loops := (looping 4 false).hart.loops, regions := [], rnd := 1 }

theorem witness_RegionsAndLoops :
    calm.hart.regions.length < 8 ∧ (false = true ↔ ∃ i, i < vlen calm ∧ maskBitAt calm 1 i = true) ∧
      (let s := { calm with hart := { calm.hart with regions := List.replicate 8 { mask := 1, skip := false } } }
       8 ≤ s.hart.regions.length ∧ Awake s ∧ ∃ r l, s.hart.regions = r :: l) ∧
      calm.hart.regions = [] ∧ Awake calm ∧ calm.hart.loops.depth ≠ 4 ∧ calm.hart.g ≤ 1 ∧
      (1 < (strips 2 []).hart.g ∧ { strips 2 [] with hart := { (strips 2 []).hart with par := none } }.hart.par = none ∧
        gval (withRegs calm [(2, 3)]) 2 ≠ 0) ∧
      { calm.hart.loops with depth := 4 }.depth = 4 ∧ calm.hart.par = none ∧ calm.hart.loops.depth = 0 ∧
      (looping 0 true).hart.loops.depth ≠ 0 ∧ (looping 0 true).hart.loops.zeroTrip = true ∧
      (let l := (looping 2 false).hart.loops
       l.zeroTrip = false ∧ (looping 2 false).hart.pc = (atBackEdge l).lpend ∧ (atBackEdge l).lpcount ≠ 0) ∧
      (atBackEdge (looping 1 false).hart.loops).lpcount = 0 ∧
      (∃ p, (strips 3 []).hart.par = some p ∧ (strips 3 []).hart.loops.depth = p.depth ∧
        0 + (strips 3 []).hart.g < stripsLeft (strips 3 []) p ∧
        (strips 3 []).hart.pc = (strips 3 []).hart.loops.cur.lpend ∧ bit (strips 3 []).hart.csr.status 10 = false ∧
        bit { (strips 3 []).hart.csr with status := 0x400 }.status 10 = true) ∧
      (looping 2 false).hart.stopPending = false ∧ { calm.hart with stopPending := true }.stopPending = true ∧
      (∃ p, (strips 2 [waiting]).hart.par = some p ∧ stripsLeft (strips 2 [waiting]) p ≤ 0 + (strips 2 [waiting]).hart.g ∧
        ∃ r rest, p.rest = r :: rest) ∧
      (∃ p, (strips 1 []).hart.par = some p ∧ p.rest = [] ∧ stripsLeft (strips 1 []) p ≤ 0 + (strips 1 []).hart.g ∧
        ∃ r, (p.ended ++ [{ waiting with slab := 0 }] : List Replica).find? (fun (x : Replica) => x.slab == (1 - 1) % (strips 1 []).hart.g) = some r) := by
  have h : vlen calm = 0 := by decide +kernel
  exact ⟨by decide +kernel, by simp [h], ⟨by decide +kernel, by decide +kernel, _, _, rfl⟩, rfl, by decide +kernel,
    by decide +kernel, by decide +kernel, by decide +kernel, rfl, rfl, rfl, by decide +kernel, rfl, by decide +kernel,
    by decide +kernel, ⟨_, rfl, rfl, by decide +kernel⟩, by decide +kernel, rfl, ⟨_, rfl, by decide +kernel, _, _, rfl⟩,
    ⟨_, rfl, rfl, by decide +kernel, _, rfl⟩⟩

/-- A linear record: 100 bytes at 0x2000 in chunks of 64. -/
def linear : List Byte := leBytes 4 0 ++ leBytes 4 64 ++ leBytes 8 0x2000 ++ leBytes 8 100 ++ List.replicate 40 0

/-- `vec` with the record at 0x1000 and a binding of v2. -/
def streaming (pos : Nat) : State :=
  let s := withBytes (vec 2 4 [(9, 0x1000)]) 0x1000 linear
  { s with hart := { s.hart with streams := [{ reg := 2, addr := 0x1000, tag := 0, record := linear, pos := pos, lease := {} }] } }

theorem witness_Streams :
    Bindable (streaming 0) 1 9 ∧
      (∃ b, bindingOf (streaming 1) 2 = some b ∧ nextChunk (streaming 1) b = .ok [(0x2040, 36)] ∧
        recField b.record 0 1 = 0) ∧
      chunkCount linear = 2 ∧ Awake (streaming 2) ∧
      (let s := { streaming 0 with hart := { (streaming 0).hart with csr := { (streaming 0).hart.csr with status := 0 } } }
       ∃ b x, bindingOf s 2 = some b ∧ nextChunk s b = .error (.exc x) ∧ x.code ≠ 28 ∧ Awake s) :=
  ⟨⟨by decide +kernel, rfl, by decide +kernel, by decide +kernel, by decide +kernel, Or.inl (by decide)⟩,
    ⟨_, rfl, rfl, by decide +kernel⟩, by decide +kernel, by decide +kernel, _, _, rfl, rfl, by decide +kernel⟩

/-- A copy of the hart is in flight that a `fence.vv` or a `fence.vs` waits for. -/
theorem witness_FencesAndYields_held :
    (let s := { busy with hart := { busy.hart with vecFences := [{ scalar := false, upTo := 1, slab := none }] } }
     vectorFenced s = true ∧ vectorSide s (.vadd 3 1 (.vi 30) 1) = false ∧ vectorSide s (.vld 3 2 0 .x1) = true ∧
       scalarFenced s = false) ∧
    (let s := { busy with hart := { busy.hart with vecFences := [{ scalar := true, upTo := 1, slab := none }] } }
     scalarFenced s = true ∧ scalarAccess (.ldd 3 2 0) = true ∧ vectorFenced s = false) ∧
    (let s := { calm with gangs := [{ gangRec 1 {} with clamped := true }] }
     scopeLimited s = true ∧ { s.hart.csr with scopepol := true }.scopepol = true ∧ Awake s) := by decide +kernel

/-- A record with one of its reserved flags set. -/
theorem witness_SlotsAndLeases_reserved :
    let s := withBytes (setCsrs calm fun c => { c with slotbase := 0x2000 }) 0x2020 (leBytes 8 0 ++ leBytes 8 0 ++ leBytes 4 4)
    RecordRead s (slotAddr s.hart.csr.slotbase 1) ∧ ¬ ReservedClear s (slotAddr s.hart.csr.slotbase 1) ∧ Awake s :=
  ⟨by constructor <;> rfl, by decide +kernel, by decide +kernel⟩

/-- `vec` on one slab with the header of an image of v2 at 0x1000, and 16 bytes of a general register at 0x3000. -/
def spilled : State :=
  withBytes (withBytes (vec 2 4 [(9, 0x1000), (10, 0x2000), (11, 0x3000)]) 0x1000 (leBytes 8 0x100010001)) 0x3000
    (leBytes 8 5 ++ [7])

theorem image_at (k : Acc) (h : k = .load ∨ k = .store) (a : Reg) (ha : a = 9 ∨ a = 10) : ImageReady spilled k 2 a := by
  have n : (vreg spilled 2).win.len.toNat = 1 := by decide +kernel
  have m : rowBytes spilled = 256 := by decide +kernel
  refine ⟨by decide +kernel, by decide +kernel, by decide +kernel, ?_, ?_, ?_, ?_⟩
  · rcases h with rfl | rfl <;> rcases ha with rfl | rfl <;> rfl
  · intro r hr
    obtain rfl : r = 0 := by omega
    rcases h with rfl | rfl <;> rcases ha with rfl | rfl <;> exact ok_of (by decide +kernel)
  · rintro x l (⟨rfl, rfl⟩ | ⟨r, hr, rfl, rfl⟩)
    · rcases h with rfl | rfl <;> rcases ha with rfl | rfl <;> decide +kernel
    · obtain rfl : r = 0 := by omega
      rcases h with rfl | rfl <;> rcases ha with rfl | rfl <;> decide +kernel
  · intro _ i j hi hj
    have e : canon (slotAddr spilled.hart.csr.slotbase (gpr spilled a).tag) = 0 := by
      rcases ha with rfl | rfl <;> decide +kernel
    have q : ∀ i < 64, ∀ j < 32, canon (replicaAddr spilled (gval spilled a).toNat + i) ≠
        canon (slotAddr spilled.hart.csr.slotbase (gpr spilled a).tag + j) := by
      rcases ha with rfl | rfl <;> decide +kernel
    exact q i hi j hj

theorem witness_SpillsAndFills :
    ImageReady spilled .store 2 10 ∧ ImageReady spilled .load 2 9 ∧ ImageReady spilled .load 2 10 ∧
      firstPoisoned spilled (replicaAddr spilled (gval spilled 9).toNat) 64 = none ∧
      (∀ j, j < 64 → readByte spilled (replicaAddr spilled (gval spilled 9).toNat + j) = imageHeader spilled 2 j) ∧
      (∃ j < 64, readByte spilled (replicaAddr spilled (gval spilled 10).toNat + j) ≠ imageHeader spilled 2 j) ∧
      Awake spilled ∧ Storable spilled 11 (loadAddr spilled 11 0) 16 (lowBytes (gval spilled 5) 8 ++ (gpr spilled 5).tag :: List.replicate 7 0) ∧ Readable spilled 11 (loadAddr spilled 11 0) 16 ∧
      numberAt spilled (loadAddr spilled 11 0 + 9) 7 = 0 ∧ Readable spilled 9 (loadAddr spilled 9 (-16)) 16 :=
  ⟨image_at .store (.inr rfl) 10 (.inr rfl), image_at .load (.inl rfl) 9 (.inl rfl), image_at .load (.inl rfl) 10 (.inr rfl),
    by decide +kernel, by decide +kernel, by decide +kernel, by decide +kernel, by constructor <;> rfl, by constructor <;> rfl,
    by decide +kernel, by constructor <;> rfl⟩

/-- A descriptor of two rows of 64 bytes from 0x4000 to 0x5000, the rows of the destination descending. -/
def rowsDown : List Byte :=
  leBytes 4 1 ++ leBytes 4 64 ++ leBytes 8 0x5000 ++ leBytes 8 0x4000 ++ leBytes 8 (2 ^ 64 - 64) ++ leBytes 8 64 ++ leBytes 4 2 ++
    List.replicate 20 0

/-- Operands of copies: g2 destination, g3 source, g4 length, g9 the descriptor. -/
def copying : State := withBytes (withRegs calm [(2, 0x1000), (3, 0x2000), (4, 0x1000), (5, 0x1001), (6, 0x100000001), (9, 0x6000)])
  0x6000 rowsDown

/-- A copy in flight to a destination. -/
def flying (dst : Word) : Copy :=
  { seq := 1, cid := 1, bar := 0, dst := dst, src := 0x2010, dstTag := 0, srcTag := 0, rowBytes := 0x1000, rows := 1
    dstPitch := 0, srcPitch := 0, done := 0xFF0, slab := none, logged := false }

/-- `copying` before a copy that has been dispatched ahead of its turn as copy 1. -/
def ahead : State :=
  { copying with
    copies := [{ flying 0x1000 with done := 0, queued := true }]
    hart := { copying.hart with queue := [{ pc := copying.hart.pc, instr := .cpy 2 3 4 0, regs := copying.hart.regs, copy := some 1 }] } }

theorem witness_CopyDispatch_ahead :
    DispatchedAhead ahead 1 ∧ NotSkipped ahead ∧ (∃ c, ahead.copies.find? (·.seq == 1) = some c) ∧ ownPosted ahead = [] ∧
      (let s := { ahead with hart := { ahead.hart with posted := [{ addr := 0x2010, data := [1], tags := [] }] } }
       ∀ c, s.copies.find? (·.seq == 1) = some c →
         ∃ p ∈ ownPosted s, ∃ r ∈ [c.srcSpan, c.dstSpan], meets p.addr p.data.length r.1 (r.2 - r.1) = true) ∧
      copyBefore ahead = 0 ∧ copyBefore copying = copying.nextId ∧ ∀ k, ¬ DispatchedAhead copying k :=
  ⟨⟨_, rfl, rfl, rfl⟩, by decide +kernel, ⟨_, rfl⟩, by decide +kernel, fun c h => by cases h; decide +kernel, by decide +kernel,
    by decide +kernel, fun _ ⟨_, h, _⟩ => nomatch h⟩

theorem witness_CopyDispatch :
    (gval copying 0).toNat = 0 ∧ (gval copying 4).toNat ≠ 0 ∧ (gval copying 4).toNat ≤ 2 ^ 32 ∧
      (gval copying 2).toNat + (gval copying 4).toNat ≤ (gval copying 3).toNat ∧
      checkCopySide copying .load (gpr copying 3).tag 0x2000 0x1000 = .ok () ∧
      checkCopySide copying .store (gpr copying 2).tag 0x1000 0x1000 = .ok () ∧
      CopyFree copying { seq := copying.nextId + 1, cid := 1, bar := 0, dst := 0x1000, src := 0x2000, dstTag := 0, srcTag := 0
                         rowBytes := 0x1000, rows := 1, dstPitch := 0, srcPitch := 0, done := 0, slab := none, logged := false } ∧
      2 ^ 32 < (gval copying 6).toNat ∧ (gval copying 3).toNat < (gval copying 2).toNat + (gval copying 5).toNat ∧
      Readable copying 9 (gval copying 9).toNat 64 ∧ readBytes copying 0x6000 64 = rowsDown ∧ descriptorOk rowsDown = true ∧
      (∀ j, j < 2 → checkCopySide copying .load 0 (wordOf rowsDown 16 + BitVec.ofNat 64 j * wordOf rowsDown 32).toNat 64 = .ok () ∧
        checkCopySide copying .store 0 (wordOf rowsDown 8 + BitVec.ofNat 64 j * wordOf rowsDown 24).toNat 64 = .ok ()) ∧
      NotSkipped copying ∧
      ¬ NotSkipped { copying with hart := { copying.hart with regions := [{ mask := 1, skip := true }] } } ∧
      descriptorOk (List.replicate 64 0xFF) = false ∧ Awake copying := by
  refine ⟨by decide +kernel, by decide +kernel, by decide +kernel, by decide +kernel, rfl, rfl, by decide +kernel,
    by decide +kernel, by decide +kernel, by constructor <;> rfl, by decide +kernel, by decide +kernel, fun j hj => ?_, by decide +kernel⟩
  match j, hj with
  | 0, _ => exact ⟨rfl, rfl⟩
  | 1, _ => exact ⟨rfl, rfl⟩

/-- The current hart with that copy, and barriers 0 to 2: pending, idle, failed. -/
def carrying (dst : Word) : State :=
  { calm with
    copies := [flying dst]
    hart := { calm.hart with csr := { calm.hart.csr with cpb := #v[16, 0, 0x8078000000000000, 0, 0, 0, 0, 0] } } }

theorem witness_CopyProgress :
    (carrying 0x1000).hart.phase ≠ .free ∧ (carrying 0x1000).hart.cid = (flying 0x1000).cid ∧
      (carrying 0x1000).copies.find? (·.seq == (flying 0x1000).seq) = some (flying 0x1000) ∧
      (flying 0x1000).chunk = [(0x1FF0, 0x3000, 16)] ∧ (flying 0x1000).queued = false ∧ gated (carrying 0x1000) 1 = false ∧
      { flying 0x1000 with queued := true }.queued = true ∧ (∀ q ∈ (carrying 0x1000).hart.queue, q.copy = none) ∧
      (∀ x ∈ (flying 0x1000).chunk, pieceError (carrying 0x1000) x = none) ∧
      (∀ i, i < 16 → placeOf (0x1FF0 + i) = placeOf 0x1FF0) ∧ placeOf 0x1FF0 ≠ .device ∧
      (∀ i, i < 16 → ∀ j, j < 16 → canon (0x3000 + i) ≠ canon (0x1FF0 + j)) ∧
      (∃ x ∈ (flying (BitVec.ofNat 64 peerBase)).chunk, pieceError (carrying (BitVec.ofNat 64 peerBase)) x ≠ none) ∧
      (let s := { carrying 0x1000 with hart := { (carrying 0x1000).hart with gates := [{ bar := 0, limit := 0, upTo := 1 }] } }
       gated s 2 = true ∧ gated s (s.nextId + 1) = true ∧ gated (carrying 0x1000) ((carrying 0x1000).nextId + 1) = false) ∧
      (carrying 0x1000).hart.phase = .launched ∧
      pendingOn (carrying 0x1000).hart.csr.cpb[1] = 0 ∧ bit (carrying 0x1000).hart.csr.cpb[1] 63 = false ∧
      pendingOn (carrying 0x1000).hart.csr.cpb[2] = 0 ∧ bit (carrying 0x1000).hart.csr.cpb[2] 63 = true ∧
      causeOn (carrying 0x1000).hart.csr.cpb[2] = 30 ∧ pendingOn (carrying 0x1000).hart.csr.cpb[0] ≠ 0 ∧
      Awake (carrying 0x1000) := by decide +kernel

/-! ### Engines -/

/-- A directory entry: an f4b session of one block of 64 bytes at 0xA000. -/
def entryBytes (state : Nat) : List Byte :=
  [BitVec.ofNat 8 state, 13, 1, 0] ++ leBytes 4 16 ++ leBytes 8 0x9000 ++ leBytes 8 0xC000 ++ leBytes 4 64

/-- Descriptors that name session 0 with the status at 0xB000. -/
def engineDesc (kind : Nat) : List Byte :=
  leBytes 8 kind ++ leBytes 8 0xB000 ++
    match kind with
    | 0 => leBytes 8 0x1000000000000 ++ leBytes 4 128 ++ List.replicate 36 0
    | 1 => List.replicate 48 0
    | _ => leBytes 8 0xD000 ++ [0, 1, 1, 0] ++ leBytes 4 1 ++ List.replicate 32 0

/-- The device partition with that session in a state, and a descriptor at 0x7000; peer 0 is reached by link 0. -/
def session (state kind : Nat) : State :=
  let s := setPart (withRegs calm [(9, 0x7000)]) 12
    { part calm 12 with sessBase := 0x8000, sessCount := 1, peers := [(0, 0x8000000000000001)] }
  withBytes (withBytes (withBytes (withBytes (withBytes s 0x8000 (entryBytes state)) 0x9000
    (leBytes 8 0xA000 ++ leBytes 4 1 ++ leBytes 4 64)) 0xD000 (leBytes 8 peerBase ++ leBytes 4 1 ++ leBytes 4 64)) 0xC000
    (contextHeader 13 16 1 64 64)) 0x7000 (engineDesc kind)

theorem session_read (state kind : Nat) (k : EngineKind) (h : (state, kind, k) ∈ [(1, 0, EngineKind.swpout), (3, 1, .swpin), (1, 2, .xfer)]) :
    CommandRead (session state kind) k 9 (engineDesc kind) ∧ ListsRead (session state kind) k (engineDesc kind) := by
  simp only [List.mem_cons, List.not_mem_nil, or_false, Prod.mk.injEq] at h
  rcases h with ⟨rfl, rfl, rfl⟩ | ⟨rfl, rfl, rfl⟩ | ⟨rfl, rfl, rfl⟩ <;>
    (constructor <;> constructor) <;>
      first | decide +kernel | exact ok_of (by decide +kernel) | exact fun h => absurd h (by decide) | exact fun _ => ok_of (by decide +kernel)

theorem witness_EngineCommands :
    (∀ x ∈ [(1, 0, EngineKind.swpout), (3, 1, .swpin), (1, 2, .xfer)],
      CommandRead (session x.1 x.2.1) x.2.2 9 (engineDesc x.2.1) ∧ ListsRead (session x.1 x.2.1) x.2.2 (engineDesc x.2.1) ∧
        commandOk (readCommand (session x.1 x.2.1) x.2.2 (gpr (session x.1 x.2.1) 9).tag (engineDesc x.2.1)) = true ∧
        checkCommandWindow (session x.1 x.2.1) (readCommand (session x.1 x.2.1) x.2.2 (gpr (session x.1 x.2.1) 9).tag
          (engineDesc x.2.1)) = .ok () ∧
        checkControl (session x.1 x.2.1) 0x8000 48 = .ok () ∧ sessionField (session x.1 x.2.1) 12 0 40 8 = 0 ∧
        commandFollows (session x.1 x.2.1) (readCommand (session x.1 x.2.1) x.2.2 (gpr (session x.1 x.2.1) 9).tag
          (engineDesc x.2.1)) = false ∧
        (commandRefusals (session x.1 x.2.1) x.2.2 (engineDesc x.2.1)).find? (·.2) = none) ∧
      (commandRefusals (session 1 0) .swpin (engineDesc 0)).find? (·.2) = some (2, true) ∧
      (let s := withBytes (session 1 0) 0x900A [0xFF]
       CommandRead s .swpout 9 (engineDesc 0) ∧ ListsRead s .swpout (engineDesc 0) ∧
         commandOk (readCommand s .swpout (gpr s 9).tag (engineDesc 0)) = false) ∧
      (let s := { session 1 0 with hart := { (session 1 0).hart with posted := [{ addr := 0xA000, data := [1], tags := [] }] } }
       commandFollows s (readCommand s .swpout (gpr s 9).tag (engineDesc 0)) = true) ∧
      (let s := { session 1 0 with poison := [0x8000 / 8] }
       ∃ e, checkControl s 0x8000 48 = .error e) ∧
      sessionField (withBytes (session 1 0) 0x8028 [1]) 12 0 40 8 ≠ 0 ∧
      ((session 1 0).engines.filter (·.partId == (session 1 0).hart.partId)).length < 64 ∧ 0 < (part (session 1 0) 12).sessCount ∧
      (part (session 1 0) 12).sessBase = 0x8000 ∧ Awake (session 1 0) ∧
      (session 1 0).hart.lag = false ∧ Awake (inMode 0 0) ∧ mode (inMode 0 0) = modeU := by
  refine ⟨fun x hx => ⟨(session_read _ _ _ hx).1, (session_read _ _ _ hx).2, ?_⟩, by decide +kernel, ⟨?_, ?_, by decide +kernel⟩,
    by decide +kernel, ⟨_, rfl⟩, by decide +kernel⟩
  · simp only [List.mem_cons, List.not_mem_nil, or_false] at hx
    rcases hx with rfl | rfl | rfl <;>
      exact ⟨by decide +kernel, ok_of (by decide +kernel), ok_of (by decide +kernel), by decide +kernel, by decide +kernel, by decide +kernel⟩
  all_goals
    constructor <;> first | decide +kernel | exact ok_of (by decide +kernel) | exact fun h => absurd h (by decide)

/-- A command of the current hart over that session. -/
def command (k : EngineKind) (units : Nat) : EngineCmd :=
  { seq := 1, kind := k, cid := 1, partId := 12, modeD := true, slot := 0, session := 0, statusAddr := 0xB000, cold := 0xC000
    capacity := 128, keep := true, tokens := 16, tag := 0, mark := 0, peer := 0, peerMark := 0, first := 0, layers := 1, bpl := 1, ty := 13
    blockBytes := 64, blocks := 1, extents := [{ base := 0xA000, len := 1, stride := 64 }]
    dstExtents := [{ base := peerBase, len := 1, stride := 64 }], units := units, flags := 0, code := 0, cause := 0 }

/-- The session with that command running. -/
def engaged (state : Nat) (c : EngineCmd) : State := { session state 0 with engines := [c] }

theorem witness_EngineProgress :
    (let c := command .swpout 0
     let s := engaged 2 c
     Running s c .swpout ∧ 64 + c.blocks * compressedBytes 13 64 ≤ c.capacity ∧
       (∀ j, j < c.blocks → extentBlock c.extents j = some (0xA000 + 64 * j) ∧
         (compressBlock 13 (systemBytes s (0xA000 + 64 * j) 64)).1.length = 64) ∧
       BlockPlan s c 64 64 ((List.range 1).map fun j => (0xA000 + 64 * j, 0xC000 + 64 + j * 64)) ∧
       engineCheck s c .store 0xC000 64 = none ∧ InSystem 0xC000 64 ∧ Apart 0xA000 64 0xC000 64 ∧ Apart 0xC040 64 0xC000 64 ∧
       Apart 0xC000 64 0x8000 64 ∧ Apart 0xC000 64 0xB000 8 ∧ sessionField s 12 0 0 1 = 2) ∧
    (let c := command .swpin 0
     let s := engaged 4 c
     Running s c .swpin ∧ c.units < c.blocks ∧ swpinHeader s c = none ∧ extentBlock c.extents 0 = some 0xA000 ∧
       (systemBytes s 0xC040 64).length = c.bytes ∧ BlockPlan s c 64 (c.bytes) [(0xC040, 0xA000)]) ∧
    (let c := command .swpin 1
     Running (engaged 4 c) c .swpin ∧ c.units = c.blocks ∧ sessionField (engaged 4 c) 12 0 0 1 = 4) ∧
    (let c := command .xfer 0
     let s := engaged 1 c
     Running s c .xfer ∧ c.units < c.layers ∧
       (∀ j, j < c.bpl → extentBlock c.extents (c.units * c.bpl + j) = some (0xA000 + 64 * j) ∧
         extentBlock c.dstExtents (c.units * c.bpl + j) = some (peerBase + 64 * j)) ∧
       BlockPlan s c 64 64 ((List.range 1).map fun j => (0xA000 + 64 * j, peerBase + 64 * j))) ∧
    (let c := command .xfer 1
     Running (engaged 1 c) c .xfer ∧ c.units = c.layers ∧ sessionField (engaged 1 c) 12 0 0 1 = 1) :=
  ⟨⟨by constructor <;> decide +kernel, by decide +kernel, by decide +kernel, by constructor <;> decide +kernel, by decide +kernel⟩,
    ⟨by constructor <;> decide +kernel, by decide +kernel, by decide +kernel, by decide +kernel, by decide +kernel,
      by constructor <;> decide +kernel⟩,
    ⟨by constructor <;> decide +kernel, by decide +kernel⟩,
    ⟨by constructor <;> decide +kernel, by decide +kernel, by decide +kernel, by constructor <;> decide +kernel⟩,
    by constructor <;> decide +kernel, by decide +kernel⟩

/-! ### Launches, matrix -/

/-- A launch record of one member with overlap, entered at 0x100. -/
def launchBytes (mode queue : Nat) : List Byte :=
  [1, 1] ++ leBytes 2 1 ++ [0, 1, 1, BitVec.ofNat 8 mode] ++ leBytes 8 0x100 ++ List.replicate 16 0 ++ leBytes 2 queue ++
    List.replicate 30 0

/-- Save areas for the device partition and for partition 0, which has slot 1, queue 5 with one record in its ring and a slice;
the records for slot 2 of the device partition and for queue 5 at 0x6000 and 0x7000. -/
def scheduling (mapped : List (Nat × Nat)) : State :=
  let s := withRegs calm [(2, 0x6000), (3, 0x7000), (4, 0x8000)]
  let s := { s with
    pf0 := { s.pf0 with dctxBase := 0x1000000, dctxCount := 4, dctxStride := 0x100000 }
    slots := (s.slots.set 1 { fusedSlot 1 with part := 0 }).set 2 { fusedSlot 2 with part := 12 } }
  let s := setPart s 0 { part s 0 with notifybm := 0x200000, hwSlots := mapped, vdev := 0, slicesLeft := 1 }
  let s := withBytes (withBytes s 0x6000 (launchBytes 2 0)) 0x7000 (launchBytes 0 5)
  let s := withBytes s 0x2002A0 (leBytes 8 0x7000 ++ leBytes 4 1 ++ leBytes 4 0 ++ leBytes 4 1)
  withBytes (withBytes s 0x220608 (leBytes 8 0x2000000 ++ leBytes 4 4 ++ leBytes 4 0x100000)) 0x220200 [1]

/-- A stack's pool is full. -/
def crowded (reserve : Bool) : State :=
  let s := scheduling []
  { s with
    gangs := [{ gangRec 1 {} with hasReserve := reserve }]
    pool := List.replicate 4096 { seq := 1, partId := 12, stack := 0, record := parseRecord (launchBytes 2 0) } }

/-- The pending launch of the record for a partition. -/
def pendingFor (p : Nat) : Pending :=
  { seq := 9, partId := p, stack := 0, record := parseRecord (if p = 12 then launchBytes 2 0 else launchBytes 0 5) }

theorem witness_Launches_program :
    Readable (scheduling []) 2 (gval (scheduling []) 2).toNat 64 ∧ fenceQuiet (scheduling []) = true ∧
      readBytes (scheduling []) 0x6000 64 = launchBytes 2 0 ∧ readBytes (scheduling []) 0x7000 64 = launchBytes 0 5 ∧
      launchOk (scheduling []) (.program (mode (scheduling []))) 12 (launchBytes 2 0) = true ∧
      launchOk (scheduling []) (.program (mode (scheduling []))) 12 (launchBytes 0 5) = true ∧
      (hostStacks (scheduling []) 12 (parseRecord (launchBytes 2 0))).find? (hasRoom (scheduling [])) = some 0 ∧
      (hostStacks (scheduling []) 0 (parseRecord (launchBytes 0 5))).find? (hasRoom (scheduling [])) = some 0 ∧
      mappedQueue (scheduling []) 0 5 = false ∧ (part (scheduling []) 0).hwSlots.find? 0 = none ∧
      mappedQueue (scheduling [(0, 5)]) 0 5 = true ∧
      launchOk (scheduling []) (.program (mode (scheduling []))) 12 (readBytes (scheduling []) 0x8000 64) = false ∧
      Awake (scheduling []) ∧ (scheduling []).hart.lag = false :=
  ⟨by constructor <;> rfl, by decide +kernel⟩

theorem witness_Launches_full :
    (hostStacks (crowded true) 12 (parseRecord (launchBytes 2 0))).find? (hasRoom (crowded true)) = none ∧
      (hostStacks (crowded true) 12 (parseRecord (launchBytes 2 0))).contains 0 = true ∧
      (hostStacks (crowded false) 12 (parseRecord (launchBytes 2 0))).find? (hasRoom (crowded false)) = none ∧
      gangOf (crowded true) 0 0 = some { gangRec 1 {} with hasReserve := true } ∧
      gangOf (crowded false) 0 0 = some { gangRec 1 {} with hasReserve := false } := by
  decide +kernel

theorem witness_Launches_start :
    (let x := pendingFor 12
     let s := { scheduling [] with pool := [x] }
     s.pool.find? (·.seq == x.seq) = some x ∧ readyToStart s x = true ∧ inSlice s x.partId x.record.queue = true ∧
       mayServe s x.partId x.record.queue = true ∧ slotsSuit s x [2] = true ∧ x.record.mode ≤ 2) ∧
    (let x := pendingFor 0
     let s := { scheduling [(0, 5)] with pool := [x] }
     readyToStart s x = true ∧ inSlice s x.partId x.record.queue = true ∧
       mayServe s x.partId x.record.queue = true ∧ slotsSuit s x [1] = true) := by decide +kernel

theorem witness_Launches_ring :
    let s := scheduling [(0, 5)]
    mappedQueue s 0 5 = true ∧ queueNum s 0 5 12 4 ≠ queueNum s 0 5 16 4 ∧ (part s 0).notifybm.toNat % 4096 = 0 ∧
      (∀ i, i < 32 → placeOf ((part s 0).notifybm.toNat + 0x200 + 32 * 5 + i) = placeOf ((part s 0).notifybm.toNat)) ∧
      (placeOf (part s 0).notifybm.toNat).isDram = true ∧
      queueNum s 0 5 0 8 + 64 * (queueNum s 0 5 12 4 % queueNum s 0 5 8 4) = 0x7000 ∧ firstPoisoned s 0x7000 64 = none ∧
      launchOk s (.ring 5) 0 (readBytes s 0x7000 64) = true ∧ launchOk s (.ring 4) 0 (readBytes s 0x7000 64) = false := by
  decide +kernel

/-- `vec` with windows for v8 to v15 and k0, k1 in rows 8 to 17, and some rows of accumulators. -/
def tiles (ty vl grant : Nat) : State :=
  let s := [8, 9, 10, 11, 12, 13, 14, 15].foldl (fun t (n : Nat) =>
    setVreg t (BitVec.ofNat 5 n) { vreg t (BitVec.ofNat 5 n) with win := { base := BitVec.ofNat 11 n, len := 1 } }) (vec ty vl [])
  let s := setKreg (setKreg s 0 { win := { base := 16, len := 1 } }) 1 { win := { base := 17, len := 1 } }
  { s with hart := { s.hart with grant := grant } }

theorem witness_Matrix :
    (let s := tiles 0 256 16
     s.hart.par = none ∧ s.hart.grant ≤ rowsLeft s ∧ s.hart.grant ≠ 0 ∧ Awake s ∧ TypeIs s .i8 .rne ∧
       MultiplyReady s .i8 15 1 8 1 ∧ s.hart.grant < (16 : BitVec 6).toNat + (1 : BitVec 7).toNat) ∧
    calm.hart.grant = 0 ∧ replica.hart.par ≠ none ∧
    (let s := tiles 0x1D 512 16
     TypeIs s .f4b .rne ∧ field s.hart.csr.vtype 4 2 ≠ 0 ∧ MultiplyReady s .f4b 0 1 8 1 ∧
       ScaleFits s 0 ((1 * innerK s .f4b + (blockLen s - 1)) / blockLen s) ∧ ScaleFits s 1 (8 * (vlen s / blockLen s))) ∧
    (let s := tiles 0x108 4 16
     TypeIs s .f32 .sr ∧ s.hart.accPoison = [] ∧ (15 : BitVec 6).toNat < s.hart.grant ∧ vlen s ≤ columnsOf s ∧
       Operands s 1 16 [] true) ∧
    TypeIs (tiles 8 4 16) .f32 .rne ∧ Sources (tiles 8 4 16) [(2, 32)] :=
  ⟨⟨rfl, by decide +kernel, by decide +kernel, by decide +kernel, ⟨rfl, rfl, (nomatch ·)⟩,
      ⟨by decide, ⟨rfl, rfl⟩, by decide +kernel, by decide +kernel, by decide +kernel, by decide +kernel, ⟨rfl, rfl, rfl⟩⟩, by decide +kernel⟩,
    rfl, by decide +kernel,
    ⟨⟨rfl, rfl, fun _ => by decide +kernel⟩, by decide +kernel,
      ⟨by decide, ⟨rfl, rfl⟩, by decide +kernel, by decide +kernel, by decide +kernel, by decide +kernel, ⟨rfl, rfl, rfl⟩⟩,
      ⟨by decide +kernel, by decide +kernel⟩, ⟨by decide +kernel, by decide +kernel⟩⟩,
    ⟨⟨rfl, rfl, (nomatch ·)⟩, rfl, by decide +kernel, by decide +kernel,
      by constructor <;> decide +kernel⟩,
    ⟨rfl, rfl, (nomatch ·)⟩, by constructor <;> decide +kernel⟩

/-! ### Scheduling, errors, the outside world -/

/-- `calm` with two posted stores, one of them of the cold tier, and a result that waits. -/
def lagging : State :=
  { calm with hart := { calm.hart with
    posted := [{ addr := 0x1000, data := [1, 2], tags := [] }, { addr := 0x1000000000000, data := [3], tags := [] }], replies := [{ d := 1, val := {} }] } }

/-- `calm` before a `vadd`, the only hart with an element group ready. -/
def issuing : State := putInstr calm (leBytes 4 0x70C3E301)

/-- Partition 0 with a slice that is over and a pending launch of queue 5. -/
def sliced (slices : Nat) : State :=
  let s := scheduling [(0, 5)]
  setPart { s with pool := [pendingFor 0] } 0 { part s 0 with slicesLeft := slices }

/-- A context that left slot 2 while it waited at a barrier, its gang, and its slot free again. -/
def savedState : State :=
  let s := scheduling []
  { s with
    saved := [{ s.hart with cid := 7, phase := .preempted, gang := 3, slot := 2 }]
    gangs := [{ gangRec 1 {} with num := 3 }] }

theorem witness_SchedulingEvents :
    lagging.hart.phase ≠ .free ∧ meets 0x1000 2 0x1000000000000 1 = false ∧ (placeOf 0x1000).isDram = true ∧
      placeOf 0x1000000000000 = .cold 0 ∧ readyNow calm 1 = [] ∧ Distinct issuing ∧ issuing.hart ∈ readyNow issuing 0 ∧
      (∀ k ∈ readyNow issuing 0, k.cid ≠ issuing.hart.cid → k.age < issuing.hart.age) ∧
      (∀ k ∈ readyNow issuing 0, issuedLast issuing 0 ≠ some k.cid) ∧
      sliceOver (sliced 2) 0 = true ∧ 1 < (part (sliced 2) 0).slicesLeft ∧ deviceIdle (sliced 2) 0 0 = false ∧ deviceIdle (scheduling []) 0 0 = true ∧
      sliceOver (sliced 1) 0 = true ∧ nextDevice (sliced 1) 0 0 = some 0 ∧
      nextDevice (scheduling []) 1 0 = none ∧ sliceOver (scheduling []) 1 = true ∧
      lateError lagging .store 0x1000 = false ∧
      (let s := { lagging with hart := { lagging.hart with
         posted := [{ addr := 0x1000000000000, data := [1], tags := [], part := some 0x1000000000000 },
                    { addr := 0x1000000000001, data := [2], tags := [], part := some 0x1000000000000 }] } }
       (s.hart.posted.eraseIdx 0).filter (fun q => q.part ≠ some 0x1000000000000) = []) ∧
      (part (sliced 2) 0).slicesLeft ≠ 0 ∧ sliceEndNs (sliced 2) 0 ≤ timeNs (sliced 2) ∧
      lateError { lagging with cold := [(0, { reg := 1, capacity := 4096, failed := true })] } .store 0x1000000000000 = true ∧
      Distinct savedState ∧ gangOf savedState 0 3 = some { gangRec 1 {} with num := 3 } ∧
      restoreOk savedState { gangRec 1 {} with num := 3 } [2] = true := by decide +kernel

/-- A hart for which a pre-emption is due, beside a hart of its gang that goes on. -/
def leaving : State :=
  { calm with
    hart := { calm.hart with due := true }
    others := [{ calm.hart with cid := 2, member := 1, slot := 1 }] }

theorem witness_SchedulingEvents_save :
    Distinct leaving ∧ Leaves leaving leaving.hart ∧ ∀ h ∈ contexts leaving, Leaves leaving h → CanLeave leaving h := by
  refine ⟨by decide +kernel, by decide +kernel, fun h hh l => ?_⟩
  have c : contexts leaving = [leaving.hart, { calm.hart with cid := 2, member := 1, slot := 1 }] := rfl
  rw [c, List.mem_cons, List.mem_singleton] at hh
  obtain rfl | rfl := hh
  · constructor <;> decide +kernel
  · exact absurd l.2.2.2 (by decide +kernel)

/-- A context and its gang. -/
theorem witness_ErrorEvents_context :
    contextOf (pair .none {}) 1 = some (pair .none {}).hart ∧ gangOf (pair .none {}) 0 0 = some (gangRec 2 {}) ∧
      Distinct (pair .none {}) := by decide +kernel

theorem witness_ErrorEvents :
    (let s := { setPart calm 3 { part calm 3 with timer := 1 } with cycle := 1000 }
     (part s 3).timer ≠ 0 ∧ (part s 3).timer.toNat ≤ timeNs s) ∧
    calm.hart.phase ≠ .free ∧ Distinct calm ∧ InUse calm (fun _ => True) 12 ∧ InUse calm (fun x => stackOf x = 0) 12 ∧
    (vaultAt { calm with vaults := [(3, { asked := true, retired := false, fenced := false })] } 3).asked = true ∧
    (let s := { calm with links := [(1, 0x80), (2, 0x100)] }
     bit (linkAt s 2) 8 = true ∧ bit (linkAt s 0) 8 = false ∧ linkAt s 0 &&& 0xFF &&& ~~~(1#9 <<< 7) ≠ 0 ∧
       bit (linkAt s 1) 8 = false ∧ linkAt s 1 &&& 0xFF &&& ~~~(1#9 <<< 7) = 0) ∧
    ((session 1 0).parts.map (·.1)).Nodup ∧
    { calm.hart with areaWritten := true }.areaWritten = true ∧ calm.hart.areaWritten = false ∧
    (∃ x ∈ (session 1 0).parts, x.2.peers.any (fun e => bit e.2 63 && bit e.2 0) = true) ∧ calm.hart ∈ hartsOn calm 0 := by
  refine ⟨?_, ?_, ?_, ⟨?_, 0, trivial, Or.inl rfl, ?_⟩, ⟨?_, 0, ?_, Or.inl rfl, ?_⟩, ?_⟩
  all_goals decide +kernel

/-- `calm` with a window of the device partition over the first TiB. -/
def windowed : State :=
  { calm with slots := calm.slots.set 0 { fusedSlot 0 with selvedge := (Vector.replicate 16 0).set 0 0x3A8 } }

/-- A partition 4 that admits partition 2 of device 9 as a peer, with a watermark object. -/
def peering : State :=
  let s := setPart calm 4 { part calm 4 with peers := [(0, BitVec.ofNat 64 (2 ^ 63 + 2 * 2 ^ 48 + 9 * 2 ^ 32))] }
  { s with marks := [(7, { owner := 4, base := 0x1000, length := 32, esize := 4, index := 2 })] }

/-- The clauses on authentic banks divide the cases of an open value (log 10). -/
theorem witness_HostEvents :
    reachable (scheduling []) = true ∧ field (5 : BitVec 32) 12 20 = 0 ∧ queueVdev (scheduling []) 0 5 = 0 ∧
      mappedQueue (scheduling []) 0 5 = false ∧ (part (scheduling []) 0).hwSlots.find? 0 = none ∧
      mappedQueue (scheduling [(0, 5)]) 0 5 = true ∧ field (0x1000 : BitVec 32) 12 20 ≠ 0 ∧
      Admitted windowed 12 .store 0x1000 4 ∧ ¬ Admitted windowed 12 .store 0x10000000000 4 ∧ Admits peering 4 9 2 ∧ ¬ Admits peering 4 9 3 ∧
      (∃ m, peering.marks.find? (7 : BitVec 16).toNat = some m ∧ m.owner = (4 : BitVec 4).toNat) ∧
      { calm.pf0 with dstatus := 1 }.dstatus = 1 ∧ (scheduling []).pf0.dstatus ≠ 1 ∧
      launchOk (scheduling []) .pf0 12 (readBytes (scheduling []) 0x6000 64) = true ∧ firstPoisoned (scheduling []) 0x6000 64 = none ∧
      (hostStacks (scheduling []) 12 (parseRecord (readBytes (scheduling []) 0x6000 64))).find? (hasRoom (scheduling [])) = some 0 ∧
      launchOk (scheduling []) .pf0 12 (readBytes (scheduling []) 0x8000 64) = false ∧ State.reset.up = false := by
  refine ⟨?_, ?_, ?_, ?_, ?_, ?_, ?_, ?_, ?_, ?_, ?_, ⟨_, rfl, rfl⟩, ?_⟩
  all_goals decide +kernel

/-- The functions of a partition with SR-IOV and of one without; a queue of another virtual device; admitted atomics, one of which
changes nothing. -/
theorem witness_HostEvents_functions :
    hasFunction { calm with sriov := [11] } 11 (some 5) = true ∧ hasFunction { calm with sriov := [11] } 11 (some 64) = false ∧
      hasFunction calm 11 (some 5) = false ∧ hasFunction calm 11 none = true ∧ hasFunction calm 12 none = false ∧
      reachable { calm with up := false } = false ∧ reachable { calm with svc := { calm.svc with recovery := true } } = false ∧
      (∀ o ∈ deviceOffsets.dropLast, placeOf (deviceBase + o) = .device ∧ (deviceBase + o) % 8 = 0 ∧
        undescribed true (deviceBase + o) 8 = false ∧ badDevice calm (deviceBase + o) (leBytes 8 0) = false) ∧
      badDevice calm (deviceBase + 0x30000) (leBytes 8 (0xFFFFFFFFFFFFFFFF : Word).toNat) = true ∧ calm.up = true ∧
      State.reset.up = false ∧ queueVdev (scheduling []) 0 5 ≠ 3 ∧
      Admitted windowed 12 .atomic 0x1000 4 ∧ ¬ Admitted windowed 12 .atomic 0x10000000000 4 ∧ amoBytes .w = 4 ∧
      firstPoisoned windowed 0x1000 4 = none ∧ firstPoisoned { windowed with poison := [0x1000 / 8] } 0x1000 4 ≠ none ∧
      amoNew .add 32 (windowed.mem.readNat (canon 0x1000) 4) 7 = some 7 ∧
      amoNew (.cas 1) 32 (windowed.mem.readNat (canon 0x1000) 4) 7 = none := by decide +kernel

/-! ### Service functions, the step -/

/-- A call of the current hart. -/
def asked (fn : Nat) (args : Vector Word 6) : Call :=
  { seq := 1, cid := 1, partId := 12, token := 5, fn := fn, args := args, bankB := false, abi := 1, version := 1 }

/-- It has been accepted; the partition has an image at 0x70000 and a watermark object 3 of stack 0; the hart binds object 4. -/
def calling (c : Call) : State :=
  let s := setPart windowed 12 { part windowed 12 with images := [{ area := 0x70000, base := 0x80000, size := 64 }], logEntries := 64 }
  let s := { s with
    svc := { s.svc with calls := [c] }
    marks := [(3, { owner := 12, base := 0x1000, length := 32, esize := 4, index := 2 }),
      (4, { owner := 12, base := 0x1000, length := 32, esize := 4, index := 2 }),
      (5, { owner := 3, base := 0x1000, length := 32, esize := 4, index := 2 })] }
  setCsrs s fun r => { r with wm := r.wm.set 0 0x41 }

theorem calling_serves (c : Call) (h : c.seq = 1 ∧ c.cid = 1 ∧ c.faulted = false) : Serves (calling c) c c.fn := by
  refine ⟨?_, rfl, h.2.2, ⟨rfl, rfl⟩, fun d hd _ k => ?_, fun _ d hd _ k => ?_, (calling c).hart, ?_⟩
  · show [c].find? (·.seq == c.seq) = some c
    simp
  · obtain rfl := List.mem_singleton.1 (show d ∈ [c] from hd)
    exact absurd k (Nat.lt_irrefl _)
  · obtain rfl := List.mem_singleton.1 (show d ∈ [c] from hd)
    exact absurd k (Nat.lt_irrefl _)
  · rw [h.2.1]
    rfl

theorem witness_Services_calls : ∀ fn, Serves (calling (asked fn (Vector.replicate 6 0))) (asked fn (Vector.replicate 6 0)) fn :=
  fun _ => calling_serves _ ⟨rfl, rfl, rfl⟩

theorem witness_Services_images :
    (let c := asked 2 #v[0x70000, 0, 0, 0, 0, 0]
     ∃ x ∈ (part (calling c) c.partId).images, x.area = argument c 0) ∧
    (let c := asked 2 #v[0x70040, 0, 0, 0, 0, 0]
     ∀ x ∈ (part (calling c) c.partId).images, x.area ≠ argument c 0) := by decide +kernel

theorem calling_bound (c : Call) (k : Nat) : Bound (calling c) 12 k ↔ k = 4 := by
  have hc : contexts (calling c) = [(calling c).hart] := rfl
  have hw : (calling c).hart.csr.wm.toList = 0x41 :: List.replicate 15 0 := rfl
  have he : (calling c).engines = [] := rfl
  have hp : (calling c).hart.partId = 12 := rfl
  have h1 : bit (0x41 : Word) 0 = true ∧ markKey 65 = 4 := by decide
  have h0 : bit (0 : Word) 0 = false := by decide
  simp only [Bound, hc, hw, he, hp, List.mem_cons, List.mem_replicate, List.not_mem_nil, false_and, exists_false, or_false,
    exists_eq_left, true_and]
  constructor
  · rintro ⟨v, rfl | ⟨-, rfl⟩, hb, rfl⟩
    · exact h1.2
    · exact absurd (h0.symm.trans hb) Bool.false_ne_true
  · rintro rfl
    exact ⟨_, .inl rfl, h1.1, h1.2⟩

def alloc (stack off : Word) : Call := asked 16 #v[stack, off, 64, 2, 0, 0]
def free (stack n : Word) : Call := asked 17 #v[stack, n, 0, 0, 0, 0]

theorem witness_Services_allocate :
    argument (alloc 15 0x1000) 0 < 16 ∧ argument (alloc 15 0x1000) 1 < 2 ^ 52 ∧ 0 < argument (alloc 15 0x1000) 2 ∧
      argument (alloc 15 0x1000) 2 ≤ 2 ^ 48 ∧ argument (alloc 15 0x1000) 3 ≤ 16 ∧
      windowsAllow (calling (alloc 15 0x1000)) 12 .load 0x1000 64 = true ∧
      (calling (alloc 15 0x1000)).marks.find? (15 * 4096 + 0) = none ∧
      windowsAllow (calling (alloc 15 0x10000000000)) 12 .load 0x10000000000 64 = false ∧ ¬ argument (alloc 16 0) 0 < 16 := by
  decide +kernel

theorem witness_Services_free :
    ((calling (free 0 3)).marks.find? 3).map (·.owner) = some 12 ∧ ¬ Bound (calling (free 0 3)) 12 3 ∧
      Bound (calling (free 0 4)) 12 4 ∧ ((calling (free 0 5)).marks.find? 5).map (·.owner) = some 3 ∧
      (calling (free 0 4095)).marks.find? 4095 = none ∧ ¬ argument (free 0 4096) 1 < 4096 :=
  ⟨by decide +kernel, fun h => absurd ((calling_bound _ _).1 h) (by decide), (calling_bound _ _).2 rfl, by decide +kernel⟩

theorem witness_Services_sessions :
    (let c := asked 18 #v[0x100000, 0x1000000, 0, 0, 0, 0]
     let base := argument c 0
     let n := argument c 1
     base % 4096 = 0 ∧ 0 < n ∧ n ≤ 2 ^ 24 ∧ (placeOf base).isDram = true ∧ placeOf (base + 64 * n - 1) = placeOf base ∧
       windowsAllow (calling c) c.partId .atomic base (64 * n) = true ∧ (∀ e ∈ (calling c).engines, e.partId ≠ c.partId)) ∧
    (let c := asked 18 #v[0x100000, 0, 0, 0, 0, 0]
     ¬ 0 < argument c 1) ∧
    (let c := asked 18 #v[0x10000000000, 1, 0, 0, 0, 0]
     windowsAllow (calling c) c.partId .atomic (argument c 0) 64 = false) := by decide +kernel

theorem witness_Services_events :
    (let c := asked 32 #v[0x28, 0, 0, 0, 0, 0]
     0x28 ∈ (eventReads (calling c) c.partId).map (·.1) ∧ argument c 0 = 0x28) ∧
    argument (asked 32 #v[4, 0, 0, 0, 0, 0]) 0 ∉ [0x00, 0x08, 0x10, 0x14, 0x18, 0x1C, 0x20, 0x28] ∧
    ((0x10000 : Word).toNat % 4096 = 0 ∧ (placeOf (0x10000 : Word).toNat).isDram = true ∧
      (∃ i, 6 ≤ i ∧ i ≤ 16 ∧ (0x10000 : Word).toNat = 2 ^ i) ∧ (0xFFFFFFFF : Word).toNat < 2 ^ 32 ∧
      ¬ (0x100000000 : Word).toNat < 2 ^ 32 ∧ ¬ (0x10001 : Word).toNat % 4096 = 0) :=
  ⟨by decide +kernel, by decide +kernel, by decide +kernel, by decide +kernel, ⟨16, by decide, by decide, rfl⟩, by decide,
    by decide, by decide⟩

def stop (what n : Word) : Call := asked 34 #v[what, n, 0, 0, 0, 0]

theorem witness_Services_terminate :
    Distinct (calling (stop 0 0)) ∧ slotOfId (argument (stop 0 0) 1) = some 0 ∧
      (slotHolder (calling (stop 0 0)) 0).map (fun v => (v.phase.live, v.partId)) = some (true, 12) ∧
      slotHolder (calling (stop 0 1)) 1 = none ∧ { stop 0 0 with partId := 3 }.partId ≠ 12 ∧ argument (stop 1 0) 1 < 2 ^ 32 ∧
      (calling (stop 1 0)).gangs = [] ∧ ([gangRec 1 {}].find? fun g => g.stack == argument (stop 1 0) 1 / 2 ^ 28 &&
        g.num == argument (stop 1 0) 1 / 2 ^ 16 % 2 ^ 12).map (·.partId) = some 12 ∧ 2 ≤ argument (stop 2 0) 0 := by decide +kernel

/-- The service cores reach the first TiB; the partition has a window over the first two, which end in a hole. -/
def cores (c : Call) : State :=
  let s := { calling c with slots := calm.slots.set 0 { fusedSlot 0 with selvedge := (Vector.replicate 16 0).set 0 0x3A9 } }
  { s with svc := { s.svc with windows := [(0, 2 ^ 40)] } }

def quote (out : Word) : Call := asked 48 #v[0x1000, out, 0, 0, 0, 0]

theorem witness_Services_quote :
    (let v := cores (quote 0x2000)
     windowsAllow v 12 .load 0x1000 48 = true ∧ windowsAllow v 12 .store 0x2000 384 = true ∧
       serviceMap v v.hart .load 0x1000 48 = true ∧ serviceMap v v.hart .store 0x2000 384 = true ∧
       (placeOf 0x1000).isLocal = false ∧ (placeOf 0x2000).isLocal = false ∧ InDram 0x2000 384 ∧
       v.svc.m0.length = 48 ∧ v.svc.m1.length = 48 ∧ (part v 12).m3.length = 48) ∧
    (let v := cores (quote 0x18000000000)
     windowsAllow v 12 .store 0x18000000000 384 = true ∧ serviceMap v v.hart .store 0x18000000000 384 = false) ∧
    windowsAllow (cores (quote 0x100000000000)) 12 .store 0x100000000000 384 = false ∧
    argument (asked 48 #v[0, 8, 0, 0, 0, 0]) 1 % 64 ≠ 0 := by decide +kernel

/-- The accesses of a quote and of a load of 92 bytes lie in the windows of the service cores, or do not. -/
theorem witness_Services_reach :
    (let s := cores (quote 0x2000)
     InCores s 0x1000 48 ∧ InCores s 0x2000 384 ∧ InCores s 0x40000 92 ∧ InCores s 0x60000 8160 ∧ InCores s 0x50000 64 ∧
       InCores s 0x90000 64) ∧
    ¬ InCores (calling (quote 0x2000)) 0x1000 48 ∧ ¬ InCores (calling (quote 0x2000)) 0x40000 92 := by decide +kernel

/-- An image file of one section of four bytes. -/
def imageFile : List Byte :=
  leBytes 4 0x524F5250 ++ [1, 0, 12, 0] ++ leBytes 8 0 ++ leBytes 4 64 ++ leBytes 4 92 ++ leBytes 4 64 ++ [1, 0, 0, 0] ++
    leBytes 4 64 ++ leBytes 4 64 ++ leBytes 4 0 ++ leBytes 4 64 ++ leBytes 4 0 ++ List.replicate 12 0 ++
    [1, 1, 0, 0] ++ leBytes 4 88 ++ leBytes 4 0 ++ leBytes 4 4 ++ leBytes 4 64 ++ leBytes 4 0 ++ [0x0D, 0, 0, 0x58]

/-- The load of the file at 0x40000, or of what stands elsewhere. -/
def loading (file area : Word) : Call := asked 1 #v[file, 92, 0x50000, 0x60000, area, 0]

theorem low_dram (a i : Nat) (h : a + i < 2 ^ 32) : placeOf (a + i) = .vault := by
  have : a + i < dramBytes := Nat.lt_trans h (by decide)
  simp [placeOf, this]

theorem witness_Services_load :
    (let c := loading 0x40000 0x90000
     let j := jobOf (withBytes (calling c) 0x40000 imageFile) c calm.hart
     j.failure = none ∧ InDram j.base j.msize ∧ InDram j.table 8160) ∧
    (let c := loading 0x30000 0x90000
     let j := jobOf (calling c) c calm.hart
     j.argsOk = true ∧ j.nat 0 4 ≠ 0x524F5250 ∧ j.failure = some (1, 0)) ∧
    argument (loading 0x40000 0x90001) 4 % 64 ≠ 0 ∧ (calling (loading 0x40000 0x90000)).moves = [] ∧
    Distinct (withBytes (calling (loading 0x40000 0x90000)) 0x40000 imageFile) ∧
    contextOf (calling (loading 0x40000 0x90000)) 1 = some (calling (loading 0x40000 0x90000)).hart :=
  ⟨⟨by decide +kernel, by decide +kernel, by decide +kernel, fun i hi =>
      (low_dram 0x60000 i (by omega)).trans (low_dram 0x60000 0 (by decide)).symm⟩,
    by decide +kernel, by decide +kernel, rfl, by decide +kernel, rfl⟩

/-- `calm` before an `addi`. -/
def before : State := putInstr calm (leBytes 4 0x11CE3FFD)

theorem before_ready : Ready before (.addi 7 7 (-1)) :=
  ⟨.inr ⟨rfl, rfl, leBytes 4 0x11CE3FFD, [], rfl, rfl⟩, fun h => absurd h (by decide +kernel), rfl⟩

theorem before_turn : Turn before :=
  ⟨rfl, rfl, rfl, rfl, rfl, fun _ _ => ⟨rfl, rfl⟩, rfl, rfl, rfl, nofun, by decide +kernel⟩

theorem witness_StepRunsDecoded :
    Turn before ∧ (∀ k, 2 * k < 4 → Fetchable before (before.hart.pc.toNat + 2 * k)) ∧
      lengthBits (readNat before before.hart.pc.toNat 2) / 8 = 4 ∧ before.hart.pc.toNat % 2 = 0 ∧
      before.hart.pc.toNat + 8 ≤ 2 ^ 52 ∧ Ready before (.addi 7 7 (-1)) ∧ takesBeat (.addi 7 7 (-1)) = false ∧
      hasCredit before = false ∧ servedPlace exec before = none ∧ before.hart.par = none ∧
      (∀ h ∈ before.hart :: (before.others ++ before.saved), h.queue = [] ∧ h.front = none ∧ h.lastSlot = 0 ∧ h.current = none ∧
        staysAt { before.hart with pc := 4 } (.addi 7 7 (-1)) h = false ∧ (inBarrier h = false ∨ h.pc ≠ 4)) ∧
      (∀ h ∈ contexts before, h.owes55 = true → h.phase = .launched → ∀ k, contextOf before h.cid = some k →
        k.owes55 = true ∨ k.phase ≠ .launched) ∧
      Alone before before := by
  refine ⟨before_turn, fun k hk => ?_, by decide +kernel, by decide +kernel,
    by decide +kernel, before_ready, rfl, by decide +kernel, by rfl, rfl, by decide +kernel,
    fun h hh x => absurd x (by rw [show contexts before = [before.hart] from rfl, List.mem_singleton] at hh; subst hh; decide +kernel),
    ⟨by decide +kernel, rfl, rfl, rfl, rfl⟩⟩
  obtain rfl | rfl : k = 0 ∨ k = 1 := by omega
  all_goals exact ⟨ok_of (by decide +kernel), by decide +kernel, by decide +kernel, by decide +kernel⟩

/-- A `vadd` for which no beat has been given, and a hart that could issue it. -/
def beat : State := { putInstr (vec 2 4 []) (leBytes 4 0x70C3E301) with slice := false }

theorem witness_StepRunsDecoded_beat :
    Turn beat ∧ Ready beat (.vadd 3 1 (.vi 30) 1) ∧ hasCredit beat = false ∧ beat.slice = false ∧ servedPlace exec beat = some 0 :=
  ⟨⟨rfl, rfl, rfl, rfl, rfl, fun _ _ => ⟨rfl, rfl⟩, rfl, rfl, rfl, nofun, by decide +kernel⟩,
    ⟨.inr ⟨rfl, rfl, leBytes 4 0x70C3E301, [], rfl, by rfl⟩, fun h => absurd h (by decide +kernel), rfl⟩, by decide +kernel, rfl, by rfl⟩

/-- The `vadd` of `beat` in a queue, in a beat of its hart, with groups that it has issued in advance. -/
def queued (n : Nat) : State :=
  { beat with
    slice := true
    hart := { beat.hart with
      queue := [{ pc := beat.hart.pc, instr := .vadd 3 1 (.vi 30) 1, regs := beat.hart.regs, issued := n }]
      front := some { pc := 4, regs := beat.hart.regs, fstat := 0 } } }

theorem witness_StepRunsDecoded_queue :
    (Turn (queued 0) ∧ Ready (queued 0) (.vadd 3 1 (.vi 30) 1) ∧ hasCredit (queued 0) = false ∧ (queued 0).slice = true ∧
      (queued 0).hart.queue ≠ [] ∧ servedPlace exec (queued 0) = some 0) ∧
    (Turn (queued 1) ∧ Ready (queued 1) (.vadd 3 1 (.vi 30) 1) ∧ hasCredit (queued 1) = true) ∧
    (before.hart.phase ≠ .free ∧ staysAt before.hart (.addi 7 7 (-1)) before.hart = true ∧
      otherReplica before.hart before.hart = false) :=
  ⟨⟨⟨rfl, rfl, rfl, rfl, rfl, fun _ _ => ⟨rfl, rfl⟩, rfl, rfl, rfl, nofun, by decide +kernel⟩,
      ⟨.inl rfl, fun h => absurd h (by decide +kernel), rfl⟩, by decide +kernel, rfl, nofun, by rfl⟩,
    ⟨⟨rfl, rfl, rfl, rfl, rfl, fun _ _ => ⟨rfl, rfl⟩, rfl, rfl, rfl, nofun, by decide +kernel⟩,
      ⟨.inl rfl, fun h => absurd h (by decide +kernel), rfl⟩, by decide +kernel⟩,
    by decide +kernel⟩

/-- A `cpwait` with a copy of its hart to the cold tier in flight. -/
theorem witness_StepRunsDecoded_horizon :
    let s := { putInstr calm (encodeBytes (.cpwait 0)) with copies := [flying 0x1000000000000] }
    beforeHorizon s = true ∧ Ready s (.cpwait 0) :=
  ⟨by decide +kernel, .inr ⟨rfl, rfl, encodeBytes (.cpwait 0), [], rfl, by rfl⟩, fun _ => ⟨rfl, 0, rfl⟩, rfl⟩

theorem witness_DecodeEncode :
    isEncoded (.vfadd 1 2 (.vv 3) 7) = true ∧ wellFormed (.vfadd 1 2 (.vv 3) 7) = true ∧
      decode (encodeBytes (.vfadd 31 0 (.vs 31) 7) ++ [0xFF]) = .ok (.vfadd 31 0 (.vs 31) 7, [0xFF]) :=
  ⟨rfl, rfl, rfl⟩

theorem before_fes (fe : Nat) : (frontEnd before fe).imem.wf := by
  by_cases h : fe = 0
  · subst h; decide +kernel
  · have : (frontEnd before fe).imem = [] := by
      have k : before.fes.find? fe = none := by
        show Tab.find? [(0, _)] fe = none
        simp [Tab.find?, Ne.symm h]
      rw [frontEnd, k]; rfl
    rw [this]; exact (by decide : Mem.wf ([] : Mem))

theorem witness_MemoryCanonical :
    before.mem.wf ∧ (∀ fe, (frontEnd before fe).imem.wf) ∧ ∃ t, step before = .next t :=
  ⟨by decide +kernel, before_fes, _, rfl⟩
end Sys2Proof.Tests
end

section
/-!
PROOF (O59). The outcomes that keep the canonical form; scalar accesses, branches, regions and loops keep it.

A step is a composition of operations. System memory changes by byte writes and by the splice of a save area, what an instruction
cache sees changes where the cache takes over system memory as it is, and everything else leaves both alone. So there is one lemma
for each operation, `canonical_` for one that gives a state and `keeps_` for one that gives an outcome.
-/

namespace Sys2Proof.Machine

/-! ### Outcomes of state functions that may fail -/

/-- If there is a next state, its memories are in canonical form. -/
def KeepsSome (x : Option State) : Prop := ∀ t, x = some t → Canonical t

theorem keepsSome_some {s : State} (h : Canonical s) : KeepsSome (some s) := fun _ e => Option.some.inj e ▸ h

theorem keepsSome_none : KeepsSome none := fun _ h => nomatch h

theorem keepsSome_ite {c : Prop} [Decidable c] {x y : Option State} (hx : KeepsSome x) (hy : KeepsSome y) :
    KeepsSome (if c then x else y) := by
  split
  · exact hx
  · exact hy

/-- If there is no error, the memories of the resulting state are in canonical form. -/
def KeepsOk {ε : Type} (x : Except ε State) : Prop := ∀ t, x = .ok t → Canonical t

theorem keepsOk_ok {ε : Type} {s : State} (h : Canonical s) : KeepsOk (.ok s : Except ε State) := fun _ e => Except.ok.inj e ▸ h

theorem keepsOk_error {ε : Type} {e : ε} : KeepsOk (.error e : Except ε State) := fun _ h => nomatch h

theorem keepsOk_ite {ε : Type} {c : Prop} [Decidable c] {x y : Except ε State} (hx : KeepsOk x) (hy : KeepsOk y) :
    KeepsOk (if c then x else y) := by
  split
  · exact hx
  · exact hy

theorem keeps_ite {c : Prop} [Decidable c] {x y : Out} (hx : Keeps x) (hy : Keeps y) : Keeps (if c then x else y) := by
  split
  · exact hx
  · exact hy

theorem canonical_ite {c : Prop} [Decidable c] {s t : State} (hs : Canonical s) (ht : Canonical t) :
    Canonical (if c then s else t) := by
  split
  · exact hs
  · exact ht

/-! ### Operations that change nothing but the current hart, or nothing that the form speaks of -/

theorem canonical_setHart {s : State} {g : Hart} (h : Canonical s) : Canonical { s with hart := g } := h

theorem canonical_setPool {s : State} {l : List Pending} (h : Canonical s) : Canonical { s with pool := l } := h

theorem canonical_setTock {s : State} {b : Bool} (h : Canonical s) : Canonical { s with tock := b } := h

theorem canonical_setIndex {s : State} {v : Reg} {n : Nat} {busy : Bool} (h : Canonical s) : Canonical (setIndex s v n busy) := h

theorem canonical_setGroups {s : State} {v : Reg} {w n : Nat} {busy : Bool} (h : Canonical s) :
    Canonical (setGroups s v w n busy) := h

theorem canonical_setVstart {s : State} {k : Nat} (h : Canonical s) : Canonical (setVstart s k) := h

theorem canonical_setVrestart {s : State} {k : Nat} (h : Canonical s) : Canonical (setVrestart s k) := h

theorem canonical_addVxstat {s : State} {f : Flags} {sat : Bool} (h : Canonical s) : Canonical (addVxstat s f sat) := h

theorem canonical_setRnd {s : State} {r : BitVec 32} (h : Canonical s) : Canonical (setRnd s r) := h

theorem canonical_writeElems {s : State} {base w : Nat} {xs : List (Nat × Nat)} (h : Canonical s) :
    Canonical (writeElems s base w xs) := h

theorem canonical_advance {s : State} {len : Nat} (h : Canonical s) : Canonical (advance len s) := h

theorem canonical_takeId {s : State} (h : Canonical s) : Canonical (takeId s) := h

theorem canonical_endStall {s : State} (h : Canonical s) : Canonical (endStall s) := h

theorem canonical_complete {s : State} {len : Nat} (h : Canonical s) : Canonical (complete s len) := h

theorem canonical_setAccLease {s : State} {l : LeaseSet} (h : Canonical s) : Canonical (setAccLease s l) := h

theorem canonical_accWrite {s : State} {xs : List (Nat × Nat)} (h : Canonical s) : Canonical (accWrite s xs) := h

/-! ### Registers, results, branches -/

theorem canonical_setMreg {s : State} {m : Reg3} {x : MReg} (h : Canonical s) : Canonical (setMreg s m x) := canonical_ite h h

theorem canonical_spreadLease {s : State} {v : Option Reg} {k : Option Reg3} {rows : List Nat} {l : LeaseSet} (h : Canonical s) :
    Canonical (spreadLease s v k rows l) := canonical_ite h h

theorem canonical_leaseWritten {s : State} {v : Reg} {whole : Bool} {rows : List Nat} {l : LeaseSet} (h : Canonical s) :
    Canonical (leaseWritten s v whole rows l) := canonical_spreadLease h

theorem canonical_park {s : State} {w : Wait} (h : Canonical s) : Canonical (park s w) := canonical_stopNow _ h

theorem canonical_drainReplies {s : State} (h : Canonical s) : Canonical (drainReplies s) :=
  canonical_foldl _ s.hart.replies s (fun _ _ => canonical_setGpr _ _ _) h

theorem keeps_finish {s : State} {len : Nat} {d : Reg} {v : GReg} (h : Canonical s) : Keeps (finish s len d v) :=
  keeps_next (canonical_setGpr s d v h)

theorem keeps_branch {s : State} {len : Nat} {c : Bool} {off : Word} (h : Canonical s) : Keeps (branch s len c off) :=
  keeps_next (canonical_ite (canonical_branchTo s _ h) h)

theorem keeps_jumpLink {s : State} {len : Nat} {d : Reg} {target : Word} (h : Canonical s) : Keeps (jumpLink s len d target) :=
  keeps_ite (keeps_raise s _ h) (keeps_next (canonical_branchTo _ _ (canonical_setGpr s d _ h)))

theorem keeps_fpFinish {s : State} {d : Reg} {x : Word} {l : LeaseSet} {f : Flags} (h : Canonical s) :
    Keeps (fpFinish s d x l f) := keeps_finish (s := addFstat s f) h

theorem keeps_fpRound {s : State} {d : Reg} {v : FVal × Flags} {l : LeaseSet} (h : Canonical s) : Keeps (fpRound s d v l) :=
  keeps_fpFinish h

/-! ### Scalar accesses -/

theorem keeps_scalarLoad {s : State} {len : Nat} {d a : Reg} {off : Word} {sz : Nat} {conv : Nat → Word} (h : Canonical s) :
    Keeps (scalarLoad s len d a off sz conv) := by
  have ht : Canonical (takeId s) := h
  unfold scalarLoad
  simp only
  split
  · exact keeps_raise _ _ ht
  · refine keeps_ite (keeps_next h) (keeps_ite (keeps_fault _) ?_)
    split
    · exact keeps_raise _ _ ht
    · exact keeps_finish ht

theorem keeps_issueStore {s : State} {len x : Nat} {bs : List Byte} {tags : List (BitVec 8)} {post : Bool} (h : Canonical s) :
    Keeps (issueStore s len x bs tags post) :=
  keeps_ite (keeps_next h) (keeps_ite (keeps_next h) (keeps_next (canonical_storeBytes s x bs h)))

theorem keeps_clampScope {s : State} {sys : Bool} {code : Nat} {go : State → Out} (h : Canonical s)
    (hgo : ∀ u, Canonical u → Keeps (go u)) : Keeps (clampScope s sys code go) :=
  keeps_ite (keeps_ite (keeps_raise s _ h) (hgo _ h)) (hgo _ h)

theorem keeps_scalarStore {s : State} {len : Nat} {b a : Reg} {off : Word} {sz : Nat} (h : Canonical s) :
    Keeps (scalarStore s len b a off sz) :=
  keeps_checked s _ _ h fun _ =>
    keeps_ite (keeps_next h) (keeps_ite (keeps_fault _) (keeps_ite (keeps_raise s _ h) (keeps_issueStore h)))

theorem keeps_releaseStore {s : State} {len : Nat} {b a : Reg} {off : Word} {sz : Nat} (h : Canonical s) :
    Keeps (releaseStore s len b a off sz) :=
  keeps_checked s _ _ h fun _ => keeps_ite (keeps_next h) (keeps_ite (keeps_fault _) (keeps_ite (keeps_raise s _ h)
    (keeps_clampScope h fun _ hu => keeps_issueStore hu)))

theorem keeps_execAccessPerform {s : State} {c k : Nat} (h : Canonical s) : Keeps (execAccessPerform c k s) := by
  refine keeps_asHart s c _ h fun t ht => ?_
  split
  · exact keeps_ite (keeps_next ht) (keeps_next (canonical_storeBytes _ _ _ ht))
  · exact keeps_next ht

theorem keeps_execColdTierStoreError {s : State} {c k : Nat} (h : Canonical s) : Keeps (execColdTierStoreError c k s) := by
  refine keeps_asHart s c _ h fun t ht => ?_
  split
  · split <;> exact keeps_next ht
  · exact keeps_next ht

theorem keeps_execReplyWrite {s : State} {c k : Nat} (h : Canonical s) : Keeps (execReplyWrite c k s) := by
  refine keeps_asHart s c _ h fun t ht => ?_
  split
  · exact keeps_next (canonical_setGpr _ _ _ ht)
  · exact keeps_next ht

theorem keeps_scalarAmo {s : State} {sz : AmoSz} {rl : Bool} {d b a : Reg} {new : Nat → Nat → Nat → Option Nat} (h : Canonical s) :
    Keeps (scalarAmo s sz rl d b a new) := by
  have ht : Canonical (takeId s) := h
  unfold scalarAmo
  simp only
  split
  · exact keeps_raise _ _ ht
  · refine keeps_ite (keeps_next h) ?_
    split
    · exact keeps_raise _ _ ht
    · refine keeps_clampScope ht fun u hu => keeps_finish ?_
      split
      · exact canonical_storeBytes u _ _ hu
      · exact hu

theorem keeps_waitwRead {s : State} {sz : AmoSz} {aq : Bool} {d b a : Reg} (h : Canonical s) :
    Keeps (waitwRead s sz aq d b a) := by
  have ht : Canonical (takeId s) := h
  unfold waitwRead
  simp only
  split
  · exact keeps_raise _ _ ht
  · refine keeps_ite (keeps_next h) ?_
    split
    · exact keeps_raise _ _ ht
    · exact keeps_ite (keeps_next (canonical_park h)) (keeps_finish ht)

theorem keeps_execWaitwWake {s : State} {c : Nat} (h : Canonical s) : Keeps (execWaitwWake c s) := by
  refine keeps_asHart s c _ h fun t ht => ?_
  split
  · exact keeps_ite (keeps_waitwRead ht) (keeps_next ht)
  · exact keeps_next ht

theorem keeps_execGspill {s : State} {b a : Reg} {imm : BitVec 12} (h : Canonical s) : Keeps (execGspill b a imm s) :=
  keeps_checked s _ _ h fun _ =>
    keeps_ite (keeps_next h) (keeps_ite (keeps_fault _) (keeps_ite (keeps_raise s _ h) (keeps_issueStore h)))

theorem keeps_execGfill {s : State} {d a : Reg} {imm : BitVec 12} (h : Canonical s) : Keeps (execGfill d a imm s) := by
  have ht : Canonical (takeId s) := h
  unfold execGfill
  simp only
  split
  · exact keeps_raise _ _ ht
  · refine keeps_ite (keeps_next h) (keeps_ite (keeps_fault _) ?_)
    split
    · exact keeps_raise _ _ ht
    · exact keeps_ite (keeps_raise _ _ ht) (keeps_finish ht)

/-! ### Regions, loops, bindings -/

theorem keeps_execVregion {s : State} {m : Reg3} {off : BitVec 12} (h : Canonical s) : Keeps (execVregion m off s) :=
  keeps_ite (keeps_raise s _ h) (keeps_next h)

theorem keeps_execVrend {s : State} (h : Canonical s) : Keeps (execVrend s) := by
  unfold execVrend
  split
  · exact keeps_raise s _ h
  · exact keeps_next h

theorem canonical_loopEnter {s : State} {a : Reg} {off : BitVec 12} (h : Canonical s) : Canonical (loopEnter s a off) :=
  canonical_ite h h

theorem keeps_execVloop {s : State} {a : Reg} {off : BitVec 12} (h : Canonical s) : Keeps (execVloop a off s) :=
  keeps_ite (keeps_raise s _ h) (keeps_next (canonical_loopEnter h))

theorem keeps_execVloopP {s : State} {a : Reg} {off : BitVec 12} (h : Canonical s) : Keeps (execVloopP a off s) :=
  have he := canonical_loopEnter (a := a) (off := off) h
  keeps_ite (keeps_raise s _ h) (keeps_ite (keeps_next he) (keeps_next he))

theorem canonical_rotateReplicas {s : State} {k : Nat} (h : Canonical s) : Canonical (rotateReplicas s k) := by
  unfold rotateReplicas
  split
  · exact h
  · split
    · exact h
    · exact canonical_ite (canonical_drainReplies h) h

theorem canonical_replicaEdge {s : State} {p : ParLoop} {len : Nat} (h : Canonical s) : Canonical (replicaEdge s p len) := by
  have hd := canonical_drainReplies h
  unfold replicaEdge
  simp only
  refine canonical_ite ?_ ?_
  · split <;> exact hd
  · split <;> exact hd

theorem keeps_loopEnd_plain {s : State} {l : Loops} {out : Word} (h : Canonical s) : Keeps (loopEnd.plain s l out) :=
  keeps_ite (keeps_raise s _ h) (keeps_ite (keeps_next h) (keeps_ite (keeps_next h) (keeps_next (canonical_stopNow _ h))))

theorem keeps_loopEnd {s : State} {len : Nat} (h : Canonical s) : Keeps (loopEnd s len) := by
  unfold loopEnd
  simp only
  split
  · rename_i p _
    have he := canonical_replicaEdge (p := p) (len := len) h
    exact keeps_ite (keeps_next (canonical_ite (canonical_stopNow _ he) he)) (keeps_loopEnd_plain h)
  · exact keeps_loopEnd_plain h

theorem keeps_execVsbind {s : State} {v a : Reg} (h : Canonical s) : Keeps (execVsbind v a s) :=
  keeps_ite (keeps_next h) (keeps_checked s _ _ h fun _ => keeps_next h)

theorem keeps_execBsend {s : State} {v : Reg} {off : BitVec 12} (h : Canonical s) : Keeps (execBsend v off s) := by
  unfold execBsend
  split
  · exact keeps_raise s _ h
  · exact keeps_branch h

end Sys2Proof.Machine
end

section
/-!
PROOF (O59). Copies, the writes of control and status registers and of a slot's configuration, calls, gangs, waits and
watermarks keep the canonical form.
-/

namespace Sys2Proof.Machine

/-! ### Copies -/

theorem canonical_countDown {s : State} {m : Reg3} {n : Nat} (h : Canonical s) : Canonical (countDown s m n) := h

theorem canonical_setCopy {s : State} {c : Copy} (h : Canonical s) : Canonical (setCopy s c) := canonical_ite h h

theorem canonical_failCopy {s : State} {c : Copy} {cause : Nat} (h : Canonical s) : Canonical (failCopy s c cause) :=
  canonical_setCopy (s := recordFailure (countDown s c.bar c.left) c.bar cause) h

theorem canonical_reissueCopy {s : State} {c : Copy} (h : Canonical s) : Canonical (reissueCopy s c) := by
  unfold reissueCopy
  simp only
  split
  · exact canonical_failCopy h
  · exact canonical_failCopy h
  · exact canonical_setCopy h

theorem canonical_reissue {l : List Copy} {s : State} (h : Canonical s) : Canonical (reissue s l) := by
  induction l generalizing s with
  | nil => exact h
  | cons c l ih => exact canonical_ite h (ih (canonical_ite (canonical_reissueCopy h) h))

theorem canonical_reissueAll {s : State} (h : Canonical s) : Canonical (reissueAll s) := canonical_reissue h

theorem canonical_relog {s : State} {c : Nat} (h : Canonical s) : Canonical (relog s c) := by
  have hk : Keeps (asHart (logCopies s c) c fun t => .next (reissueAll t)) :=
    keeps_asHart _ c _ h fun _ ht => keeps_next (canonical_reissueAll ht)
  unfold relog
  split
  · exact hk _ ‹_›
  · exact h

theorem keeps_acceptCopy {s : State} {c : Copy} (h : Canonical s) : Keeps (acceptCopy s c) :=
  keeps_ite (keeps_next h) (keeps_ite (keeps_next h) (keeps_next h))

theorem canonical_leaveQueue {s : State} {k : Nat} (h : Canonical s) : Canonical (leaveQueue s k) := by
  unfold leaveQueue
  split
  · exact h
  · exact canonical_ite h h

theorem keeps_copyTurn {s : State} {dispatch : Out} (h : Canonical s) (hd : Keeps dispatch) : Keeps (copyTurn s dispatch) := by
  unfold copyTurn
  split
  · exact keeps_ite (keeps_next h) (keeps_next (canonical_leaveQueue h))
  · exact hd

theorem keeps_dispatchCpy {s : State} {d a b : Reg} {m : Reg3} (h : Canonical s) : Keeps (dispatchCpy d a b m s) :=
  keeps_ite (keeps_next h) (keeps_ite (keeps_raise s _ h) (keeps_ite (keeps_raise s _ h)
    (keeps_checked s _ _ h fun _ => keeps_acceptCopy h)))

theorem keeps_dispatchCpyx {s : State} {a : Reg} {m : Reg3} (h : Canonical s) : Keeps (dispatchCpyx a m s) := by
  refine keeps_checked s _ _ h fun _ => keeps_ite (keeps_next h) (keeps_ite (keeps_fault _) ?_)
  split
  · exact keeps_raise s _ h
  · exact keeps_ite (keeps_raise s _ h) (keeps_checked s _ _ h fun _ => keeps_acceptCopy h)

theorem keeps_cpwaitEnd {s : State} {m : Reg3} (h : Canonical s) : Keeps (cpwaitEnd s m) :=
  keeps_ite (keeps_raise _ _ h) (keeps_next h)

theorem keeps_execCpwait {s : State} {m : Reg3} (h : Canonical s) : Keeps (execCpwait m s) :=
  keeps_ite (keeps_next h) (keeps_ite (keeps_cpwaitEnd h) (keeps_next (canonical_park h)))

theorem keeps_execCpwaitComplete {s : State} {c : Nat} (h : Canonical s) : Keeps (execCpwaitComplete c s) := by
  refine keeps_asHart s c _ h fun t ht => ?_
  split
  · exact keeps_ite (keeps_cpwaitEnd (s := unpark t) ht) (keeps_next ht)
  · exact keeps_next ht

theorem canonical_cleanGranule {s : State} {c : Copy} {done : Nat} {tainted : List Nat} {g : Nat} (h : Canonical s) :
    Canonical (cleanGranule c done tainted s g) := canonical_ite (canonical_storeBytes s _ _ h) h

theorem canonical_runChunk {s : State} {c : Copy} (h : Canonical s) : Canonical (runChunk s c) := by
  unfold runChunk
  split
  · exact canonical_failCopy h
  · have hr := canonical_foldl (fun t x => storeRun t x.1 (readRun t x.2.1 x.2.2)) c.chunk s
      (fun t x ht => canonical_storeRun t _ _ ht) h
    exact canonical_setCopy (canonical_countDown (canonical_foldl _ _ _ (fun _ _ ht => canonical_cleanGranule ht) hr))

theorem keeps_execCopyChunk {s : State} {k : Nat} (h : Canonical s) : Keeps (execCopyChunk k s) := by
  unfold execCopyChunk
  split
  · exact keeps_next h
  · refine keeps_ite (keeps_next h) (keeps_asHart s _ _ h fun t ht => keeps_next ?_)
    exact canonical_ite ht (canonical_runChunk ht)

/-! ### Control and status registers, the writes of a slot's configuration -/

theorem canonical_postHarnessChange {s : State} {fe p : Nat} (h : Canonical s) : Canonical (postHarnessChange s fe p) :=
  canonical_logEntry s _ _ _ _ _ h

theorem canonical_rebind {s : State} {fe : Nat} {v : Word} (h : Canonical s) : Canonical (rebind s fe v) := by
  have hf : Canonical (setFrontEnd s fe { frontEnd s fe with harness := v }) := canonical_setFrontEnd s fe _ h (h.2 fe)
  exact canonical_foldl _ _ _ (fun _ _ => canonical_postHarnessChange)
    (canonical_foldl _ _ _ (fun _ _ => canonical_relog) hf)

theorem keepsSome_writeHarness {s : State} {fe : Nat} {v : Word} (h : Canonical s) : KeepsSome (writeHarness s fe v) :=
  keepsSome_ite (keepsSome_some (canonical_rebind h)) keepsSome_none

theorem keepsSome_writeBeatmap {s : State} {fe : Nat} {v : Word} (h : Canonical s) : KeepsSome (writeBeatmap s fe v) :=
  keepsSome_ite keepsSome_none (keepsSome_some (canonical_setFrontEnd s fe _ h (h.2 fe)))

theorem keepsSome_writeRowrange {s : State} {slot : Nat} {v : Word} (h : Canonical s) : KeepsSome (writeRowrange s slot v) :=
  keepsSome_ite keepsSome_none (keepsSome_some h)

/-- An instruction cache that takes up lines again sees memory as it is. -/
theorem canonical_claimLines {s : State} {slot p : Nat} (h : Canonical s) : Canonical (claimLines s slot p) :=
  canonical_ite h (canonical_setFrontEnd s _ _ h h.1)

theorem keepsSome_writePart {s : State} {slot : Nat} {v : Word} (h : Canonical s) : KeepsSome (writePart s slot v) := by
  have hl : Canonical (claimLines s slot (field v 0 4)) := canonical_claimLines h
  exact keepsSome_ite keepsSome_none (keepsSome_some (canonical_ite h (canonical_setFrontEnd _ _ _ hl (hl.2 _))))

theorem keepsSome_writeSelvedge {s : State} {slot : Nat} {i : BitVec 4} {v : Word} (h : Canonical s) :
    KeepsSome (writeSelvedge s slot i v) := keepsSome_ite keepsSome_none (keepsSome_some h)

theorem canonical_stopForTable {s : State} (h : Canonical s) : Canonical (stopForTable s) := canonical_ite h h

/-- A value that is checked and taken. -/
theorem keepsOk_taken {b : Bool} {t : State} (h : Canonical t) : KeepsOk (if b then .ok t else .error 4 : Except Nat State) :=
  keepsOk_ite (keepsOk_ok h) keepsOk_error

/-- A configuration that is written or refused. -/
theorem keepsOk_option (x : Option State) :
    KeepsSome x → KeepsOk (match x with | some t => .ok t | none => .error 4 : Except Nat State) := by
  intro hx
  cases x with
  | some t => exact keepsOk_ok (hx t rfl)
  | none => exact keepsOk_error

/-- A write to a CSR, in the order of the register numbers. -/
theorem keepsOk_csrWrite {s : State} {n : Nat} {v : Word} (h : Canonical s) : KeepsOk (csrWrite s n v) := by
  have status : KeepsOk (match statusWrite s v with
      | some st => .ok (setCsrs s ({ · with status := st })) | none => .error 4 : Except Nat State) := by
    split
    · exact keepsOk_ok h
    · exact keepsOk_error
  -- vl, vtype, vstart, vrestart, vxstat, rndstate, fstat, mretry
  refine keepsOk_ite (keepsOk_ok h) <| keepsOk_ite (keepsOk_taken h) <| keepsOk_ite (keepsOk_ok h) <| keepsOk_ite (keepsOk_ok h) <|
    keepsOk_ite (keepsOk_taken h) <| keepsOk_ite (keepsOk_taken h) <| keepsOk_ite (keepsOk_taken h) <|
    keepsOk_ite (keepsOk_taken h) ?_
  -- strip and the loop registers
  refine keepsOk_ite (keepsOk_ok h) <| keepsOk_ite (keepsOk_ite keepsOk_error (keepsOk_ok h)) <|
    keepsOk_ite (keepsOk_ite keepsOk_error (keepsOk_ok h)) <| keepsOk_ite (keepsOk_ok h) ?_
  -- slotbase, wm, cpb
  refine keepsOk_ite (keepsOk_taken (canonical_stopForTable h)) <| keepsOk_ite (keepsOk_taken h) <| keepsOk_ite (keepsOk_taken h) ?_
  -- vwb, vwl, vpi, kwb, kwl
  refine keepsOk_ite (keepsOk_taken h) <| keepsOk_ite (keepsOk_taken h) <| keepsOk_ite (keepsOk_taken h) <|
    keepsOk_ite (keepsOk_taken h) <| keepsOk_ite (keepsOk_taken h) ?_
  -- status, tvec, epc, cause, tval, scratch, scopepol, notifybm
  refine keepsOk_ite status <| keepsOk_ite (keepsOk_taken h) <| keepsOk_ite (keepsOk_taken h) <| keepsOk_ite (keepsOk_taken h) <|
    keepsOk_ite (keepsOk_ok h) <| keepsOk_ite (keepsOk_ok h) <| keepsOk_ite (keepsOk_taken h) <| keepsOk_ite (keepsOk_taken h) ?_
  -- beatmap, harness, rowrange, selvedge, part
  exact keepsOk_ite (keepsOk_option _ (keepsSome_writeBeatmap h)) <| keepsOk_ite (keepsOk_option _ (keepsSome_writeHarness h)) <|
    keepsOk_ite (keepsOk_option _ (keepsSome_writeRowrange h)) <| keepsOk_ite (keepsOk_option _ (keepsSome_writeSelvedge h)) <|
    keepsOk_ite (keepsOk_option _ (keepsSome_writePart h)) keepsOk_error

theorem keeps_csrStore {s : State} {n : Nat} {v : Word} {go : State → Out} (h : Canonical s)
    (hgo : ∀ u, Canonical u → Keeps (go u)) : Keeps (csrStore s n v go) := by
  refine keeps_checked s _ _ h fun _ => keeps_ite (keeps_next h) ?_
  split
  · exact hgo _ (keepsOk_csrWrite h _ ‹_›)
  · exact keeps_raise s _ h

/-- `csrwr`, `csrset`, `csrclr` go on with the next instruction. -/
theorem keeps_csrStore_advance {s : State} {n : Nat} {v : Word} (h : Canonical s) :
    Keeps (csrStore s n v fun t => .next (advance 4 t)) := keeps_csrStore h fun _ hu => keeps_next hu

theorem keeps_execCsrrd {s : State} {d : Reg} {csr : CsrNum} (h : Canonical s) : Keeps (execCsrrd d csr s) :=
  keeps_checked s _ _ h fun _ => keeps_ite (keeps_next h) (keeps_finish h)

theorem keeps_csrEvent {s : State} {n : Nat} {v : Word} (h : Canonical s) : Keeps (csrEvent s n v) :=
  keeps_ite (keeps_next h) (keeps_csrStore h fun _ hu => keeps_next hu)

theorem keeps_configWrite {s : State} {n : Nat} {x : Option State} (h : Canonical s) (hx : KeepsSome x) :
    Keeps (configWrite s n x) := by
  cases x with
  | some t => exact keeps_next (hx t rfl)
  | none => exact keeps_ite (keeps_raise s _ h) (keeps_next h)

theorem canonical_writePf0 {s : State} {off : Nat} {v : Word} (h : Canonical s) : Canonical (writePf0 s off v) :=
  canonical_ite h (canonical_ite h h)

theorem keeps_execRegisterWrite {s : State} {dest : RegDest} {v : Word} (h : Canonical s) : Keeps (execRegisterWrite dest v s) := by
  cases dest with
  | csr n => exact keeps_csrEvent h
  | pf0 off => exact keeps_next (canonical_ite (canonical_writePf0 h) h)
  | device a =>
    exact keeps_ite (keeps_next h) (keeps_ite (keeps_fault _)
      (keeps_ite (keeps_next h) (keeps_next (canonical_deviceStore s _ _ h))))

/-! ### Calls, traps, the end of a hart, fences -/

theorem canonical_writeReply {s : State} {r : Vector Word 4} (h : Canonical s) : Canonical (writeReply s r) :=
  canonical_setGpr _ _ _ (canonical_setGpr _ _ _ (canonical_setGpr _ _ _ (canonical_setGpr _ _ _ h)))

theorem keeps_submitCall {s : State} (h : Canonical s) : Keeps (submitCall s) := by
  refine keeps_ite (keeps_next h) (keeps_ite (keeps_next (canonical_park h)) ?_)
  split
  · exact keeps_next (canonical_writeReply h)
  · exact keeps_next (canonical_park h)

theorem keeps_execEcall {s : State} (h : Canonical s) : Keeps (execEcall s) := keeps_ite (keeps_raise s _ h) (keeps_submitCall h)

theorem keeps_execEcallReply {s : State} {c : Nat} (h : Canonical s) : Keeps (execEcallReply c s) := by
  refine keeps_asHart s c _ h fun t ht => ?_
  split
  · exact keeps_ite (keeps_next (canonical_writeReply ht)) (keeps_next ht)
  · exact keeps_next ht

theorem keeps_execEret {s : State} (h : Canonical s) : Keeps (execEret s) :=
  keeps_ite (keeps_raise s _ h) (keeps_ite (keeps_raise s _ h) (keeps_next h))

/-- The instruction caches of some front ends drop their lines and see memory as it is. -/
theorem canonical_discardLines {s : State} {fes : List Nat} (h : Canonical s) : Canonical (discardLines s fes) :=
  canonical_foldl _ fes s (fun t f ht => canonical_setFrontEnd t f _ ht ht.1) h

theorem keeps_execFlushi {s : State} (h : Canonical s) : Keeps (execFlushi s) :=
  keeps_ite (keeps_next h) (keeps_next (canonical_discardLines h))

theorem canonical_completeExit {s : State} (h : Canonical s) : Canonical (completeExit s) :=
  canonical_retireGang _ _ _ (canonical_leaveBarrier _ _ _ _ h)

theorem keeps_exitHart {s : State} (h : Canonical s) : Keeps (exitHart s) :=
  keeps_ite (keeps_raise s _ h) (keeps_ite (keeps_raise s _ h) (keeps_next (canonical_ite (canonical_completeExit h) h)))

theorem keeps_execExitComplete {s : State} {c : Nat} (h : Canonical s) : Keeps (execExitComplete c s) :=
  keeps_asHart s c _ h fun _ ht => keeps_next (canonical_ite (canonical_completeExit ht) ht)

theorem keeps_fence {s : State} {scope : FenceScope} {f : State → State} (h : Canonical s)
    (hf : ∀ u, Canonical u → Canonical (f u)) : Keeps (fence s scope f) := keeps_clampScope h fun u hu => keeps_next (hf u hu)

theorem keeps_execFenceAll {s : State} {scope : FenceScope} (h : Canonical s) : Keeps (execFenceAll scope s) :=
  keeps_ite (keeps_next h) (keeps_fence h fun _ hu => hu)

theorem keeps_execLslot {s : State} {d : Reg} {n : BitVec 8} (h : Canonical s) : Keeps (execLslot d n s) :=
  keeps_ite (keeps_raise s _ h) (keeps_ite (keeps_next h) (keeps_checked s _ _ h fun _ => keeps_finish h))

theorem keeps_safePoint {s : State} {len : Nat} (h : Canonical s) : Keeps (safePoint s len) := keeps_next (canonical_stopNow _ h)

/-! ### Gangs, barriers, waits, accumulation windows, watermarks -/

theorem keeps_raiseBroken {s : State} {g : Gang} (h : Canonical s) : Keeps (raiseBroken s g) :=
  keeps_raise _ _ (canonical_checkBarrier _ _ _ h)

theorem canonical_countArrival {s : State} {g : Gang} (h : Canonical s) : Canonical (countArrival s g) :=
  canonical_checkBarrier _ _ _ h

theorem canonical_arrive {s : State} {g : Gang} {w : Wait} (h : Canonical s) : Canonical (arrive s g w) :=
  canonical_countArrival (canonical_park h)

theorem keeps_atBarrier {s : State} {w : Wait} (h : Canonical s) : Keeps (atBarrier s w) := by
  refine keeps_ite (keeps_next (canonical_park h)) ?_
  split
  · exact keeps_next h
  · exact keeps_ite (keeps_raiseBroken h) (keeps_next (canonical_arrive h))

theorem canonical_reachBarrier {s : State} (h : Canonical s) : Canonical (reachBarrier s) := by
  refine canonical_ite ?_ h
  split
  · exact h
  · exact canonical_ite h (canonical_countArrival h)

theorem canonical_joinGang {s : State} {g : Gang} (h : Canonical s) : Canonical (joinGang s g) :=
  canonical_ite h (canonical_retireGang _ _ _ h)

/-- A status in a general register, and the next instruction. -/
theorem keeps_answer {s : State} {d : Reg} {v : GReg} (h : Canonical s) : Keeps (.next (advance 4 (scalarResult s d v))) :=
  keeps_next (canonical_scalarResult s d v h)

theorem keeps_execGjoin {s : State} {d a : Reg} (h : Canonical s) : Keeps (execGjoin d a s) := by
  refine keeps_ite (keeps_next h) ?_
  split
  · exact keeps_answer h
  · exact keeps_answer (canonical_joinGang h)
  · exact keeps_answer h

theorem canonical_leaveGang {s : State} {g : Gang} (h : Canonical s) : Canonical (leaveGang s g) :=
  canonical_leaveBarrier _ _ _ _ h

theorem keeps_execGleave {s : State} (h : Canonical s) : Keeps (execGleave s) := by
  refine keeps_ite (keeps_next h) ?_
  split
  · exact keeps_next (canonical_ite h (canonical_leaveGang h))
  · exact keeps_next h

theorem canonical_parkVwait {s : State} {a b : Reg} (h : Canonical s) : Canonical (parkVwait s a b) := canonical_park h

theorem keeps_execVwait {s : State} {a b : Reg} (h : Canonical s) : Keeps (execVwait a b s) :=
  have hp := keeps_next (canonical_parkVwait (a := a) (b := b) h)
  keeps_ite (keeps_checked s _ _ h fun _ => keeps_next (canonical_ite h (canonical_parkVwait h))) hp

theorem keeps_execVwaitWake {s : State} {c : Nat} (h : Canonical s) : Keeps (execVwaitWake c s) := by
  refine keeps_asHart s c _ h fun t ht => ?_
  split
  · refine keeps_ite ?_ (keeps_next ht)
    split
    · exact keeps_next ht
    · exact keeps_next ht
    · exact keeps_raise _ _ ht
  · exact keeps_next ht

theorem keeps_execVwaitTimeout {s : State} {c : Nat} (h : Canonical s) : Keeps (execVwaitTimeout c s) := by
  refine keeps_asHart s c _ h fun t ht => ?_
  split
  · exact keeps_ite (keeps_raise _ _ ht) (keeps_next ht)
  · exact keeps_next ht

theorem keeps_execAwdecl {s : State} {a b : Reg} (h : Canonical s) : Keeps (execAwdecl a b s) :=
  keeps_checked s _ _ h fun _ => keeps_next h

theorem keeps_execAwmerge {s : State} {a : Reg} (h : Canonical s) : Keeps (execAwmerge a s) := by
  unfold execAwmerge
  split
  · exact keeps_ite (keeps_raise s _ h) (keeps_ite (keeps_next h) (keeps_next h))
  · exact keeps_raise s _ h

theorem canonical_clearBindings {s : State} {c : Nat} (h : Canonical s) : Canonical (clearBindings s c) := canonical_ite h h

/-- The copies of an accumulation window are added to memory one after the other. -/
theorem wf_foldl_applyCopy (sat : Bool) (w : AccWin) (l : List Nat) (m : Mem × Flags) (h : m.1.wf) :
    (l.foldl (fun x i => applyCopy sat w i x) m).1.wf := by
  induction l generalizing m with
  | nil => exact h
  | cons k l ih => exact ih _ (wf_applyCopy sat w k m h)

theorem keeps_execAwmergeApply {s : State} {k : Nat} (h : Canonical s) : Keeps (execAwmergeApply k s) := by
  unfold execAwmergeApply
  split
  · exact keeps_next h
  · exact keeps_ite (keeps_next (canonical_clearBindings ⟨wf_foldl_applyCopy _ _ _ (s.mem, 0) h.1, h.2⟩)) (keeps_next h)

theorem canonical_publish {s : State} {key index : Nat} (h : Canonical s) : Canonical (publish s key index) := by
  unfold publish
  split <;> exact h

theorem keeps_execWmset {s : State} {n : BitVec 4} {a : Reg} (h : Canonical s) : Keeps (execWmset n a s) :=
  keeps_ite (keeps_next h) (keeps_raise s _ h)

theorem keeps_execWmpub {s : State} {n : BitVec 4} {b : Reg} (h : Canonical s) : Keeps (execWmpub n b s) := by
  unfold execWmpub
  split
  · exact keeps_ite (keeps_raise s _ h) (keeps_ite (keeps_next h)
      (keeps_clampScope h fun _ hu => keeps_next (canonical_publish hu)))
  · exact keeps_raise s _ h

end Sys2Proof.Machine
end

section
/-!
PROOF (O59). Stream chunks, vector operations and transfers, spills and matrix steps keep the canonical form.
-/

namespace Sys2Proof.Machine

/-! ### Stream chunks and the groups of a vector instruction -/

theorem keepsOk_holdGroup {s : State} {runs : List (Nat × Nat)} (h : Canonical s) : KeepsOk (holdGroup s runs) := by
  refine keepsOk_ite (keepsOk_ok h) ?_
  split
  · exact keepsOk_error
  · exact keepsOk_ok h

theorem canonical_deliver {s : State} {v : Reg} {b : Stream} {runs : List (Word × Nat)} (h : Canonical s) :
    Canonical (deliver s v b runs) := canonical_leaseWritten h

/-- The state that a delivery of chunks goes on with, or waits in. -/
def Feed.state : Feed → State
  | .ready s => s
  | .wait s => s

theorem canonical_feedAll {l : List (Reg × Stream)} {s : State} (h : Canonical s) (x : Feed) (hx : feedAll s l = .ok x) :
    Canonical x.state := by
  induction l generalizing s with
  | nil => exact Except.ok.inj hx ▸ h
  | cons p l ih =>
    obtain ⟨v, b⟩ := p
    unfold feedAll at hx
    split at hx
    · exact ih (canonical_deliver h) hx
    · cases hx
    · exact Except.ok.inj hx ▸ h
    · rename_i runs _ _
      have hk := keepsOk_holdGroup (runs := runs) h
      generalize holdGroup s runs = y at hx hk
      cases y with
      | ok t => exact Except.ok.inj hx ▸ hk t rfl
      | error e => cases hx

theorem canonical_lostChunk {s : State} {e : Exc} (h : Canonical s) : Canonical (lostChunk s e) := canonical_ite h h

theorem keeps_withChunks {s : State} {rs : List Reg} {go : State → Out} {own : State → State} (h : Canonical s)
    (hgo : ∀ u, Canonical u → Keeps (go u)) (hown : ∀ u, Canonical u → Canonical (own u) := by exact fun _ hu => hu) :
    Keeps (withChunks s rs go own) := by
  unfold withChunks
  split
  · exact hgo s h
  · refine keeps_ite (hgo s h) ?_
    split
    · exact keeps_raise _ _ (hown _ (canonical_lostChunk h))
    · exact keeps_next h
    · rename_i t ht
      have hr : Canonical t := canonical_feedAll h (.ready t) ht
      exact hgo _ (canonical_endStall hr)

theorem keeps_execChunkDelivery {s : State} {v : Reg} (h : Canonical s) : Keeps (execChunkDelivery v s) := by
  unfold execChunkDelivery
  split
  · exact keeps_next h
  · split
    · exact keeps_raise _ _ (canonical_lostChunk h)
    · exact keeps_next (canonical_feedAll h (.ready _) ‹_›)
    · exact keeps_next (canonical_feedAll h (.wait _) ‹_›)

theorem keeps_nextBeat {s : State} (h : Canonical s) : Keeps (nextBeat s) := keeps_next h

theorem keeps_continueAt {s : State} {k : Nat} (h : Canonical s) : Keeps (continueAt s k) := keeps_next h

theorem keeps_closeSpan {s : State} {sp : Span} {len : Nat} (h : Canonical s) : Keeps (closeSpan s sp len) := by
  unfold closeSpan
  split
  · exact keeps_raise _ _ (canonical_setVrestart h)
  · exact keeps_ite (keeps_continueAt h) (keeps_next (canonical_complete (canonical_setVstart h)))

theorem canonical_closeGroups {s : State} {vd : Reg} {w : Nat} {sp : Span} (h : Canonical s) :
    Canonical (closeGroups s vd w sp) := by
  unfold closeGroups
  split <;> exact h

theorem keeps_elementwise {s : State} {pre : Except Exc Unit} {vd : Reg} {wd : Nat} {srcs : List WinOp} {m : Reg3}
    {extra : State → LeaseSet} {draws : Bool} {op : State → Nat → Nat → Nat × Flags × Bool} {bad : State → Nat → Bool} {len : Nat}
    (h : Canonical s) : Keeps (elementwise s pre vd wd srcs m extra draws op bad len) :=
  keeps_checked s _ _ h fun _ => keeps_withChunks h fun _ hu =>
    keeps_closeSpan (canonical_closeGroups (canonical_setRnd (canonical_addVxstat
      (canonical_ite (canonical_leaseWritten (canonical_writeElems hu)) (canonical_writeElems hu)))))

theorem keeps_maskwise {s : State} {pre : Except Exc Unit} {md : Reg3} {w : Nat} {srcs : List WinOp} {m : Reg3}
    {extra : State → LeaseSet} {op : State → Nat → Bool × Flags} (h : Canonical s) :
    Keeps (maskwise s pre md w srcs m extra op) :=
  keeps_checked s _ _ h fun _ => keeps_withChunks h fun _ hu => keeps_closeSpan (canonical_addVxstat (canonical_setMreg hu))

theorem keeps_closeCross {s : State} (h : Canonical s) : Keeps (closeCross s) :=
  keeps_next (canonical_complete (canonical_setVstart h))

theorem keeps_crossPoison {s : State} {k : Nat} (h : Canonical s) : Keeps (crossPoison s k) :=
  keeps_raise _ _ (canonical_setVrestart h)

theorem keeps_crossVector {s : State} {pre : Except Exc Unit} {vd : Reg} {w : Nat} {srcs : List WinOp} {m : Reg3}
    {extra : State → LeaseSet} {reads : State → List (WinOp × Nat)} {elems : State → List (Nat × Nat)} (h : Canonical s) :
    Keeps (crossVector s pre vd w srcs m extra reads elems) := by
  refine keeps_checked s _ _ h fun _ => keeps_withChunks h fun u hu => ?_
  simp only
  split
  · exact keeps_crossPoison hu
  · exact keeps_ite (keeps_nextBeat (canonical_setIndex (canonical_leaseWritten (canonical_writeElems hu))))
      (keeps_closeCross (canonical_setGroups (canonical_ite hu (canonical_leaseWritten (canonical_writeElems hu)))))

theorem keeps_crossScalar {s : State} {pre : Except Exc Unit} {d : Reg} {src : WinOp} {m : Reg3} {extra : State → LeaseSet}
    {n : Nat} {reads : State → List (WinOp × Nat)} {value : State → Word × Flags × Bool} (h : Canonical s) :
    Keeps (crossScalar s pre d src m extra n reads value) := by
  refine keeps_checked s _ _ h fun _ => keeps_withChunks h fun u hu => ?_
  split
  · exact keeps_crossPoison hu
  · exact keeps_ite (keeps_nextBeat hu) (keeps_closeCross (canonical_scalarResult _ _ _ (canonical_addVxstat hu)))

/-! ### Vector operations -/

theorem keeps_vecAny {s : State} {go : VMode → Out} (h : Canonical s) (hgo : ∀ md, Keeps (go md)) : Keeps (vecAny s go) :=
  keeps_checked s _ _ h hgo

theorem keeps_execVcvt {s : State} {vd va : Reg} {src : BitVec 4} {m : Reg3} (h : Canonical s) : Keeps (execVcvt vd va src m s) :=
  keeps_checked s _ _ h fun _ => keeps_elementwise h

theorem keeps_execVcvti {s : State} {vd va : Reg} {src : BitVec 4} {m : Reg3} (h : Canonical s) : Keeps (execVcvti vd va src m s) :=
  keeps_checked s _ _ h fun _ => keeps_elementwise h

theorem canonical_quantOne {s : State} {va vd : Reg} {kb m : Reg3} {md : VMode} {b : Nat} (h : Canonical s) :
    Canonical (quantOne va vd kb m md s b) :=
  canonical_ite h (canonical_setRnd (canonical_addVxstat (canonical_writeElems (canonical_writeElems h))))

theorem canonical_scaleLease {s : State} {k : Reg3} {whole : Bool} {rows : List Nat} {l : LeaseSet} (h : Canonical s) :
    Canonical (scaleLease s k whole rows l) := canonical_spreadLease h

theorem keeps_execVquant {s : State} {vd va : Reg} {kb m : Reg3} (h : Canonical s) : Keeps (execVquant vd va kb m s) := by
  refine keeps_checked s _ _ h fun md => keeps_checked s _ _ h fun _ => keeps_withChunks h fun u hu => ?_
  have hq (l : List Nat) : Canonical (l.foldl (quantOne va vd kb m md) u) :=
    canonical_foldl _ l u (fun _ _ ht => canonical_quantOne ht) hu
  have hl (l : List Nat) {c : Prop} [Decidable c] {whole : Bool} {r1 r2 : List Nat} {x : LeaseSet} :
      Canonical (if c then l.foldl (quantOne va vd kb m md) u
        else scaleLease (leaseWritten (l.foldl (quantOne va vd kb m md) u) vd whole r1 x) kb whole r2 x) :=
    canonical_ite (hq l) (canonical_scaleLease (canonical_leaseWritten (hq l)))
  simp only
  split
  · exact keeps_raise _ _ (canonical_setVrestart (canonical_setGroups (hl _)))
  · exact keeps_ite (keeps_continueAt (canonical_setGroups (hl _)))
      (keeps_next (canonical_complete (canonical_setVstart (canonical_setGroups (hl _)))))

theorem keeps_slide {s : State} {up : Bool} {vd va : Reg} {b : VOp} {m : Reg3} {raw : Instr} (h : Canonical s) :
    Keeps (slide s up vd va b m raw) :=
  keeps_ite (keeps_raise s _ h) (keeps_vecAny h fun _ => keeps_crossVector h)

theorem keeps_execVgather {s : State} {vd va vb : Reg} {m : Reg3} (h : Canonical s) : Keeps (execVgather vd va vb m s) :=
  keeps_vecAny h fun _ => keeps_crossVector h

theorem keeps_execVcompress {s : State} {vd va : Reg} {m : Reg3} (h : Canonical s) : Keeps (execVcompress vd va m s) :=
  keeps_vecAny h fun _ => keeps_crossVector h

theorem keeps_execVbcast {s : State} {vd b : Reg} {m : Reg3} (h : Canonical s) : Keeps (execVbcast vd b m s) :=
  keeps_vecAny h fun _ => keeps_elementwise h

theorem keeps_execVid {s : State} {vd : Reg} {m : Reg3} (h : Canonical s) : Keeps (execVid vd m s) :=
  keeps_vecAny h fun _ => keeps_elementwise h

theorem keeps_execVmv {s : State} {vd va : Reg} {m : Reg3} (h : Canonical s) : Keeps (execVmv vd va m s) :=
  keeps_vecAny h fun _ => keeps_elementwise h

theorem keeps_execVmerge {s : State} {vd va : Reg} {b : VOp} {m : Reg3} (h : Canonical s) : Keeps (execVmerge vd va b m s) :=
  keeps_vecAny h fun _ => keeps_checked s _ _ h fun _ => keeps_withChunks h fun _ hu =>
    keeps_closeSpan (canonical_closeGroups
      (canonical_ite (canonical_leaseWritten (canonical_writeElems hu)) (canonical_writeElems hu)))

theorem keeps_execVmvsx {s : State} {vd b : Reg} (h : Canonical s) : Keeps (execVmvsx vd b s) :=
  keeps_vecAny h fun _ => keeps_checked s _ _ h fun _ => keeps_ite
    (keeps_next (canonical_complete (canonical_setVstart (canonical_setGroups (canonical_leaseWritten (canonical_writeElems h))))))
    (keeps_next (canonical_complete (canonical_setVstart (canonical_setGroups h))))

theorem keeps_execVmvxs {s : State} {d va : Reg} (h : Canonical s) : Keeps (execVmvxs d va s) :=
  keeps_vecAny h fun _ => keeps_crossScalar h

theorem keeps_execVext {s : State} {d va : Reg} {b : VOp} (h : Canonical s) : Keeps (execVext d va b s) :=
  keeps_ite (keeps_raise s _ h) (keeps_vecAny h fun _ => keeps_crossScalar h)

theorem keeps_reduce {s : State} {d va b : Reg} {m : Reg3} {ok : ElemTy → Bool}
    {value : VMode → Nat → List (Option Nat) → Word × Flags × Bool} (h : Canonical s) : Keeps (reduce s d va b m ok value) :=
  keeps_checked s _ _ h fun _ => keeps_crossScalar h

theorem keeps_execVsred {s : State} {vd va : Reg} {m : Reg3} (h : Canonical s) : Keeps (execVsred vd va m s) := by
  refine keeps_checked s _ _ h fun _ => keeps_checked s _ _ h fun _ => keeps_withChunks h fun u hu => ?_
  split
  · exact keeps_crossPoison hu
  · exact keeps_ite (keeps_next hu) (keeps_atBarrier hu)

theorem keeps_setLength {s : State} {d : Reg} {req : Nat} {t : Word} {lease : LeaseSet} (h : Canonical s) :
    Keeps (setLength s d req t lease) := keeps_ite (keeps_raise s _ h) (keeps_finish h)

theorem keeps_execVwin {s : State} {vd a b : Reg} (h : Canonical s) : Keeps (execVwin vd a b s) :=
  keeps_ite (keeps_raise s _ h) (keeps_next h)

theorem keeps_vecFp {s : State} {vd va : Reg} {b : VOp} {m : Reg3} {addend : Bool} {f : VMode → Nat → Nat → Nat → Nat × Flags}
    (h : Canonical s) : Keeps (vecFp s vd va b m addend f) := keeps_checked s _ _ h fun _ => keeps_elementwise h

theorem keeps_execVfscale {s : State} {vd va : Reg} {b : VOp} {m : Reg3} (h : Canonical s) : Keeps (execVfscale vd va b m s) :=
  keeps_checked s _ _ h fun _ => keeps_elementwise h

theorem keeps_vecFpUnary {s : State} {vd va : Reg} {m : Reg3} {f : VMode → FVal → FVal × Flags} (h : Canonical s) :
    Keeps (vecFpUnary s vd va m f) := keeps_checked s _ _ h fun _ => keeps_elementwise h

theorem keeps_vecInt {s : State} {vd va : Reg} {b : VOp} {m : Reg3} {f : VMode → Nat → Nat → Nat × Bool} (h : Canonical s) :
    Keeps (vecInt s vd va b m f) := keeps_checked s _ _ h fun _ => keeps_elementwise h

theorem keeps_vecShift {s : State} {vd va : Reg} {b : VOp} {m : Reg3} {f : Nat → Nat → Nat → Nat} (h : Canonical s) :
    Keeps (vecShift s vd va b m f) := keeps_checked s _ _ h fun _ => keeps_elementwise h

theorem keeps_vecCmp {s : State} {md : Reg3} {va : Reg} {b : VOp} {m : Reg3} {natural : Bool} {ok : Ordering → Bool}
    (h : Canonical s) : Keeps (vecCmp s md va b m natural ok) := keeps_checked s _ _ h fun _ => keeps_maskwise h

theorem keeps_vecFcmp {s : State} {md : Reg3} {va : Reg} {b : VOp} {m : Reg3} {quietNan nan : Bool} {ok : Ordering → Bool}
    (h : Canonical s) : Keeps (vecFcmp s md va b m quietNan nan ok) := keeps_checked s _ _ h fun _ => keeps_maskwise h

theorem keeps_maskOp {s : State} {md : Reg3} {srcs : List Reg3} {bits : Nat → Nat} (h : Canonical s) :
    Keeps (maskOp s md srcs bits) :=
  keeps_checked s _ _ h fun _ => keeps_ite (keeps_nextBeat (canonical_setMreg h)) (keeps_closeCross (canonical_setMreg h))

theorem keeps_maskScalar {s : State} {d : Reg} {m : Reg3} {f : Nat → Nat → Word} (h : Canonical s) : Keeps (maskScalar s d m f) :=
  keeps_checked s _ _ h fun _ => keeps_ite (keeps_nextBeat h) (keeps_closeCross (canonical_scalarResult _ _ _ h))

/-! ### Vector transfers -/

theorem canonical_probe {s : State} {x : Xfer} {adds : Bool} (h : Canonical s) : Canonical (x.probe s adds) := canonical_ite h h

theorem keeps_closeXfer {s : State} {r : Reach} (h : Canonical s) : Keeps (closeXfer s r) := by
  have he := canonical_endStall h
  unfold closeXfer
  split
  · exact keeps_raise _ _ (canonical_ite he (canonical_setVstart he))
  · exact keeps_ite (keeps_continueAt he) (keeps_next (canonical_complete (canonical_setVstart he)))
  · refine keeps_ite (keeps_continueAt he) (keeps_ite (keeps_next h) ?_)
    split
    · exact keeps_raise _ _ he
    · exact keeps_next (keepsOk_holdGroup h _ ‹_›)

theorem canonical_issueId {s : State} (h : Canonical s) : Canonical (issueId s).2 := by
  unfold issueId
  split <;> exact h

theorem canonical_timedOutStall {s : State} {e : Exc} (h : Canonical s) : Canonical (timedOutStall s e) := by
  have hl : Canonical (lostChunk s e) := canonical_lostChunk h
  refine canonical_ite h ?_
  split
  iterate 8 · exact canonical_issueId hl
  · exact hl

theorem keeps_execWatermarkTimeout {s : State} {c : Nat} {n : BitVec 4} (h : Canonical s) : Keeps (execWatermarkTimeout c n s) :=
  keeps_asHart s c _ h fun _ ht => keeps_ite (keeps_raise _ _ (canonical_timedOutStall ht)) (keeps_next ht)

theorem keeps_raiseTaken {s : State} {e : Exc} (h : Canonical s) : Keeps (raiseTaken s e) := keeps_raise _ _ (canonical_issueId h)

theorem canonical_xferDeliver {s : State} {x : Xfer} {whole : Bool} {idxs : List Nat} {lease : LeaseSet} {vals : Nat → List Nat}
    (h : Canonical s) : Canonical (x.deliver s whole idxs lease vals) :=
  canonical_foldl _ _ s (fun _ _ ht => canonical_ite ht (canonical_leaseWritten ht)) h

theorem canonical_xferGroups {s : State} {x : Xfer} {n : Nat} {busy : Bool} (h : Canonical s) : Canonical (x.groups s n busy) :=
  canonical_foldl _ x.regs s (fun _ _ ht => ht) h

theorem keeps_xferClose {s : State} {x : Xfer} {r : Reach} {failed : Bool} (h : Canonical s) : Keeps (x.close s r failed) :=
  keeps_closeXfer (canonical_ite h (canonical_xferGroups h))

theorem keeps_runLoad {s : State} {x : Xfer} (h : Canonical s) : Keeps (runLoad s x) := by
  unfold runLoad
  split
  · exact keeps_raiseTaken h
  · refine keeps_withChunks h (fun u hu => ?_) fun u hu => canonical_issueId hu
    have ht : Canonical (issueId (x.probe u false)).2 := canonical_issueId (canonical_probe hu)
    simp only
    split
    · exact keeps_fault _
    · split
      · exact keeps_raise _ _ (canonical_setVrestart (canonical_endStall (canonical_xferGroups (canonical_xferDeliver ht))))
      · exact keeps_xferClose (canonical_xferDeliver ht)

theorem canonical_addToWindow {s : State} {sat : Bool} {aw : AccWin} {w i a v : Nat} (h : Canonical s) :
    Canonical (addToWindow sat s aw w i a v) := by
  unfold addToWindow
  split <;> exact h

theorem canonical_storeField {s : State} {x : Xfer} {aw : Option AccWin} {i : Nat} {p : Reg × Nat} (h : Canonical s) :
    Canonical (storeField x aw i s p) := by
  unfold storeField
  have hr {c : Prop} [Decidable c] {r : BitVec 32} : Canonical (if c then setRnd s r else s) := canonical_ite h h
  simp only
  split
  · exact canonical_addToWindow hr
  · exact canonical_storeBytes _ _ _ hr

theorem canonical_storeElem {s : State} {x : Xfer} {aw : Option AccWin} {i : Nat} (h : Canonical s) :
    Canonical (storeElem x aw s i) := canonical_foldl _ _ s (fun _ _ ht => canonical_storeField ht) h

theorem canonical_clearCovered {s : State} {runs : List (Nat × Nat)} (h : Canonical s) : Canonical (clearCovered s runs) := by
  refine canonical_ite (canonical_ite h h) ?_
  exact canonical_setFrontEnd _ _ _ (canonical_ite h h) (h.2 _)

theorem keeps_runStore {s : State} {x : Xfer} (h : Canonical s) : Keeps (runStore s x) := by
  refine keeps_checked s _ _ h fun _ => keeps_withChunks h fun u hu => ?_
  have hp : Canonical (x.probe u (x.addsTo u).isSome) := canonical_probe hu
  simp only
  split
  · exact keeps_fault _
  · refine keeps_ite (keeps_raise _ _ hp) ?_
    have hs (l : List Nat) : Canonical (l.foldl (storeElem x (x.addsTo u)) (x.probe u (x.addsTo u).isSome)) :=
      canonical_foldl _ l _ (fun _ _ ht => canonical_storeElem ht) hp
    have hc (l : List Nat) {c : Prop} [Decidable c] {g : Hart} {runs : List (Nat × Nat)} :=
      canonical_ite (c := c) (hs l) (canonical_clearCovered (runs := runs) (canonical_setHart (g := g) (hs l)))
    split
    · exact keeps_raise _ _ (canonical_setVrestart (canonical_endStall (hc _)))
    · exact keeps_closeXfer (hc _)

theorem keeps_vecLoad {s : State} {kind : XKind} {regs : List Reg} {a : Reg} {m : Reg3} {mw : MemW} (h : Canonical s) :
    Keeps (vecLoad s kind regs a m mw) := by
  unfold vecLoad
  split
  · exact keeps_raiseTaken h
  · exact keeps_runLoad h

theorem keeps_vecStore {s : State} {kind : XKind} {regs : List Reg} {a : Reg} {m : Reg3} {mw : MemW} (h : Canonical s) :
    Keeps (vecStore s kind regs a m mw) := keeps_checked s _ _ h fun _ => keeps_runStore h

theorem keeps_execVlseg {s : State} {vd a : Reg} {nf m : Reg3} {w : MemW} (h : Canonical s) : Keeps (execVlseg vd a nf m w s) :=
  keeps_ite (keeps_vecLoad h) (keeps_raise s _ h)

theorem keeps_execVsseg {s : State} {vd a : Reg} {nf m : Reg3} {w : MemW} (h : Canonical s) : Keeps (execVsseg vd a nf m w s) :=
  keeps_ite (keeps_vecStore h) (keeps_raise s _ h)

theorem canonical_amoElem {s : State} {x : Xfer} {new : ElemTy → Nat → Nat → Nat} {vd : Reg} {i a : Nat} (h : Canonical s) :
    Canonical (amoElem x new s vd i a) := canonical_storeBytes s a _ h

theorem canonical_amoRun {x : Xfer} {new : ElemTy → Nat → Nat → Nat} {vd : Reg} {l : List (Nat × Nat × Bool)} {s : State}
    (h : Canonical s) : Canonical (amoRun x new vd s l).1 := by
  induction l generalizing s with
  | nil => exact h
  | cons p l ih =>
    obtain ⟨i, a, bad⟩ := p
    unfold amoRun
    split
    · exact h
    · exact ih (canonical_amoElem h)

theorem keeps_vecAmo {s : State} {vd a vb : Reg} {m : Reg3} {new : ElemTy → Nat → Nat → Nat} (h : Canonical s) :
    Keeps (vecAmo s vd a vb m new) := by
  unfold vecAmo
  split
  · exact keeps_raiseTaken h
  · simp only
    split
    · exact keeps_raiseTaken h
    · refine keeps_withChunks h (fun u hu => ?_) fun u hu => canonical_issueId hu
      have hr (x : Xfer) (l : List (Nat × Nat × Bool)) : Canonical (amoRun x new vd (issueId (x.probe u false)).2 l).1 :=
        canonical_amoRun (canonical_issueId (canonical_probe hu))
      have hv (x : Xfer) (l : List (Nat × Nat × Bool)) {c : Prop} [Decidable c] {rows : List Nat} {lease : LeaseSet} :=
        canonical_ite (c := c) (hr x l) (canonical_leaseWritten (v := vd) (whole := false) (rows := rows) (l := lease) (hr x l))
      split
      · exact keeps_raise _ _ (canonical_setVrestart (canonical_endStall (canonical_xferGroups (hv _ _))))
      · exact keeps_xferClose (hv _ _)

/-! ### Spills and fills -/

theorem canonical_spillPiece {s : State} {v : Reg} {r b a : Nat} (h : Canonical s) : Canonical (spillPiece s v r b a) :=
  canonical_foldl _ _ _ (fun _ _ ht => canonical_ite (canonical_poisonBytes _ _ _ ht) ht) (canonical_storeBytes s a _ h)

theorem canonical_spillRow {s : State} {v a : Reg} {r : Nat} (h : Canonical s) : Canonical (spillRow v a s r) :=
  canonical_foldl _ _ s (fun _ _ ht => canonical_spillPiece ht) h

theorem keeps_closeRows {s : State} {n : Nat} {r : Reach} (h : Canonical s) : Keeps (closeRows s n r) := by
  have he := canonical_endStall h
  unfold closeRows
  split
  · exact keeps_raise _ _ (canonical_ite he (canonical_setVstart he))
  · exact keeps_ite (keeps_continueAt he) (keeps_next (canonical_complete (canonical_setVstart he)))
  · refine keeps_ite (keeps_continueAt he) (keeps_ite (keeps_continueAt h) ?_)
    split
    · exact keeps_raise _ _ he
    · exact keeps_continueAt (keepsOk_holdGroup h _ ‹_›)

theorem canonical_headerFault {s : State} {e : Exc} (h : Canonical s) : Canonical (headerFault s e) := canonical_ite h h

theorem canonical_headerDone {s : State} (h : Canonical s) : Canonical (headerDone s) := h

theorem keeps_spillRows {s : State} {v a : Reg} (h : Canonical s) : Keeps (execVspill.rows v a s) := by
  unfold execVspill.rows
  simp only
  split
  · exact keeps_fault _
  · exact keeps_ite (keeps_raise s _ h) (keeps_closeRows (canonical_foldl _ _ s (fun _ _ ht => canonical_spillRow ht) h))

theorem keeps_execVspill {s : State} {v a : Reg} (h : Canonical s) : Keeps (execVspill v a s) := by
  refine keeps_checked s _ _ h fun _ => keeps_ite (keeps_spillRows h) ?_
  split
  · exact keeps_raise _ _ (canonical_headerFault h)
  · exact keeps_ite (keeps_next h) (keeps_ite (keeps_fault _) (keeps_ite (keeps_raise s _ h)
      (keeps_spillRows (canonical_headerDone (canonical_storeBytes s _ _ h)))))

theorem canonical_fillRow {s : State} {v a : Reg} {r : Nat} (h : Canonical s) : Canonical (fillRow v a s r) := h

theorem keeps_fillRows {s : State} {id : BitVec 4} {v a : Reg} (h : Canonical s) : Keeps (execVfill.rows v a id s) := by
  unfold execVfill.rows
  simp only
  split
  · exact keeps_fault _
  · have hr (l : List Nat) : Canonical (l.foldl (fillRow v a) s) := canonical_foldl _ l s (fun _ _ ht => canonical_fillRow ht) h
    exact keeps_closeRows (canonical_setIndex (canonical_ite (hr _) (canonical_leaseWritten (hr _))))

theorem keeps_execVfill {s : State} {v a : Reg} (h : Canonical s) : Keeps (execVfill v a s) := by
  have ht : Canonical (issueId s).2 := canonical_issueId h
  unfold execVfill
  split
  · exact keeps_raiseTaken h
  · refine keeps_ite (keeps_fillRows ht) ?_
    split
    · exact keeps_raise _ _ (canonical_ite ht (canonical_headerFault (canonical_setIndex ht)))
    · refine keeps_ite (keeps_next (canonical_setIndex ht)) (keeps_ite (keeps_fault _) ?_)
      split
      · exact keeps_raise _ _ ht
      · exact keeps_ite (keeps_fillRows (canonical_headerDone ht)) (keeps_raise _ _ (canonical_setVstart (canonical_setIndex ht)))

/-! ### Matrix steps -/

theorem keeps_matrixDone {s : State} (h : Canonical s) : Keeps (matrixDone s) := keeps_next (canonical_complete h)

theorem canonical_attachRows {s : State} {rows : Nat} (h : Canonical s) : Canonical (attachRows s rows) := h

theorem keeps_execMattach {s : State} {rows : BitVec 7} (h : Canonical s) : Keeps (execMattach rows s) :=
  keeps_ite (keeps_ite (keeps_raise s _ h) (keeps_matrixDone (canonical_attachRows h))) (keeps_raise s _ h)

theorem keeps_execMdetach {s : State} (h : Canonical s) : Keeps (execMdetach s) :=
  keeps_ite (keeps_raise s _ h) (keeps_matrixDone (canonical_setAccLease h))

theorem keeps_execMzero {s : State} (h : Canonical s) : Keeps (execMzero s) :=
  keeps_ite (keeps_raise s _ h) (keeps_matrixDone (canonical_setAccLease h))

theorem canonical_mmaRun {x : Mma} {limit n : Nat} {s : State} {t : Nat} (h : Canonical s) : Canonical (x.run limit s t n).1 := by
  induction n generalizing s t with
  | zero => exact h
  | succ n ih =>
    unfold Mma.run
    simp only
    repeat' split
    · exact h
    · exact h
    · exact h
    · exact h
    · exact ih h

theorem keeps_mmaClose {s : State} {x : Mma} {e : MmaEnd} (h : Canonical s) : Keeps (x.close s e) := by
  cases e with
  | done => exact keeps_matrixDone (canonical_setVstart h)
  | more t => exact keeps_continueAt h
  | beat => exact keeps_nextBeat h
  | poison t => exact keeps_raise _ _ (canonical_setVrestart h)
  | replay t => exact keeps_raise _ _ (canonical_setVstart h)

theorem keeps_runMma {s : State} {x : Mma} (h : Canonical s) : Keeps (runMma s x) :=
  keeps_checked s _ _ h fun _ => keeps_withChunks h fun _ hu =>
    keeps_mmaClose (canonical_ite (canonical_mmaRun hu) (canonical_mmaRun hu))

theorem keeps_execVmma {s : State} {ty : ElemTy} {acc : BitVec 6} {va vb : Reg} {rows : BitVec 7} {m : Reg3} (h : Canonical s) :
    Keeps (execVmma ty acc va vb rows m s) := keeps_ite (keeps_runMma h) (keeps_raise s _ h)

theorem keeps_execVmmas {s : State} {acc : BitVec 6} {va vb : Reg} {rows : BitVec 7} {ka kb m : Reg3} (h : Canonical s) :
    Keeps (execVmmas acc va vb rows ka kb m s) := keeps_ite (keeps_runMma h) (keeps_raise s _ h)

theorem keeps_execMext {s : State} {vd : Reg} {row : BitVec 6} {ty : ElemTy} {m : Reg3} (h : Canonical s) :
    Keeps (execMext vd row ty m s) := keeps_ite (keeps_raise s _ h) (keeps_checked s _ _ h fun _ => keeps_elementwise h)

theorem keeps_execMins {s : State} {row : BitVec 6} {va : Reg} {ty : ElemTy} {m : Reg3} (h : Canonical s) :
    Keeps (execMins row va ty m s) :=
  keeps_ite (keeps_raise s _ h) (keeps_checked s _ _ h fun _ => keeps_checked s _ _ h fun _ =>
    keeps_withChunks h fun _ hu => keeps_closeSpan (canonical_addVxstat (canonical_setAccLease (canonical_accWrite hu))))

end Sys2Proof.Machine
end

section
/-!
PROOF (O59). Engine commands, launches and scheduling, the containment of errors, moves, beats, the host's accesses and
the services keep the canonical form.
-/

namespace Sys2Proof.Machine

/-! ### Engine commands -/

theorem canonical_setEntry {s : State} {p i off n v : Nat} (h : Canonical s) : Canonical (setEntry s p i off n v) :=
  canonical_homeStore s _ _ h

theorem canonical_beginEntry {s : State} {c : EngineCmd} (h : Canonical s) : Canonical (beginEntry s c) := by
  unfold beginEntry
  simp only
  split
  · exact canonical_setEntry h
  · exact canonical_setEntry (canonical_setEntry h)
  · exact canonical_setEntry h

theorem keeps_engineCommand {s : State} {k : EngineKind} {d a : Reg} {raw : Instr} (h : Canonical s) :
    Keeps (engineCommand s k d a raw) := by
  refine keeps_ite (keeps_raise s _ h) (keeps_checked s _ _ h fun _ => keeps_ite (keeps_next h) (keeps_ite (keeps_fault _) ?_))
  refine keeps_checked s _ _ h fun r => keeps_ite (keeps_next h) (keeps_checked s _ _ h fun c => ?_)
  cases c with
  | inl st => exact keeps_answer h
  | inr c => exact keeps_ite (keeps_next h) (keeps_answer (canonical_beginEntry (s := (freshId s).2) h))

theorem canonical_engineView {s : State} {c : EngineCmd} (h : Canonical s) : Canonical (engineView s c) := h

theorem canonical_engineWrite {s : State} {c : EngineCmd} {a : Nat} {bs : List (Byte × Bool)} (h : Canonical s) :
    Canonical (engineWrite s c a bs) := by
  have hv := canonical_storePieces (ceilDiv bs.length 64) (engineView s c) a bs (canonical_engineView h)
  exact canonical_ite hv hv

theorem canonical_setEngine {s : State} {c : EngineCmd} (h : Canonical s) : Canonical (setEngine s c) := h

theorem canonical_endCommand {s : State} {c : EngineCmd} {done : State → State} (h : Canonical s)
    (hd : ∀ u, Canonical u → Canonical (done u)) : Canonical (endCommand s c done) := by
  refine canonical_ite ?_ (canonical_engineWrite ?_)
  all_goals exact canonical_ite h (canonical_ite (canonical_setEntry h) (canonical_ite (canonical_setEntry h) (hd s h)))

theorem canonical_moveBlock {s t : State} {c : EngineCmd} {src dst : Option Nat} {n m : Nat}
    {f : List (Byte × Bool) → List (Byte × Bool) × Flags} {fl : Flags} (h : Canonical s)
    (ht : moveBlock s c src dst n m f = .ok (t, fl)) : Canonical t := by
  unfold moveBlock at ht
  split at ht
  · split at ht
    · cases ht
    · cases ht
    · exact (Prod.mk.inj (Except.ok.inj ht)).1 ▸ canonical_engineWrite h
  · cases ht

theorem canonical_swpoutBlocks {k : Nat} {s : State} {c : EngineCmd} (h : Canonical s) : Canonical (swpoutBlocks s c k).1 := by
  induction k generalizing s c with
  | zero => exact h
  | succ k ih =>
    unfold swpoutBlocks
    simp only
    split
    · exact h
    · exact ih (canonical_moveBlock h ‹_›)

theorem canonical_runSwpout {s : State} {c : EngineCmd} (h : Canonical s) : Canonical (runSwpout s c).1 := by
  have hb : Canonical (swpoutBlocks s c c.blocks).1 := canonical_swpoutBlocks h
  unfold runSwpout
  simp only
  split
  · exact h
  · split
    · exact hb
    · split
      · exact hb
      · exact canonical_engineWrite hb

theorem keeps_execSwpoutComplete {s : State} {k : Nat} (h : Canonical s) : Keeps (execSwpoutComplete k s) := by
  unfold execSwpoutComplete
  split
  · exact keeps_next h
  · exact keeps_ite (keeps_next h) (keeps_next (canonical_endCommand (canonical_runSwpout h) fun _ hu =>
      canonical_setEntry (canonical_setEntry (canonical_setEntry hu))))

theorem canonical_landBlock {s : State} {c : EngineCmd} (h : Canonical s) : Canonical (landBlock s c) := by
  unfold landBlock
  split
  · exact canonical_setEngine h
  · refine canonical_ite h ?_
    simp only
    generalize (fun bs : List (Byte × Bool) => if c.keep then (bs, (0 : Flags)) else widenBlock c.elems bs) = f
    split
    · exact canonical_setEngine h
    · rename_i ht
      have he := canonical_setEntry (p := c.partId) (i := c.session) (off := 32) (n := 8) (v := c.units + 1)
        (canonical_moveBlock h ht)
      exact canonical_setEngine (canonical_ite (canonical_publish he) he)

theorem keeps_execSwpinBlockLanded {s : State} {k : Nat} (h : Canonical s) : Keeps (execSwpinBlockLanded k s) := by
  unfold execSwpinBlockLanded
  split
  · exact keeps_next h
  · exact keeps_ite (keeps_next h) (keeps_next (canonical_landBlock h))

theorem keeps_execSwpinComplete {s : State} {k : Nat} (h : Canonical s) : Keeps (execSwpinComplete k s) := by
  unfold execSwpinComplete
  split
  · exact keeps_next h
  · exact keeps_ite (keeps_next h) (keeps_next (canonical_endCommand h fun _ hu =>
      canonical_setEntry (canonical_setEntry (canonical_setEntry hu))))

theorem canonical_xferBlocks {k j : Nat} {s : State} {c : EngineCmd} (h : Canonical s) : Canonical (xferBlocks s c j k).1 := by
  induction k generalizing s j with
  | zero => exact h
  | succ k ih =>
    unfold xferBlocks
    split
    · exact h
    · exact ih (canonical_moveBlock h ‹_›)

theorem keeps_execXferLayer {s : State} {k : Nat} (h : Canonical s) : Keeps (execXferLayer k s) := by
  unfold execXferLayer
  split
  · exact keeps_next h
  · exact keeps_ite (keeps_next h) (keeps_next (canonical_setEngine (canonical_xferBlocks h)))

theorem keeps_execXferComplete {s : State} {k : Nat} (h : Canonical s) : Keeps (execXferComplete k s) := by
  unfold execXferComplete
  split
  · exact keeps_next h
  · exact keeps_ite (keeps_next h) (keeps_next (canonical_endCommand h fun _ hu => hu))

/-! ### Launches, queues, scheduling -/

theorem canonical_setPart {s : State} {p : Nat} {x : Part} (h : Canonical s) : Canonical (setPart s p x) := h

theorem canonical_postAsync {s : State} {p code : Nat} {tval : Word} (h : Canonical s) : Canonical (postAsync s p code tval) := h

theorem canonical_setQueueField {s : State} {p q off n v : Nat} (h : Canonical s) : Canonical (setQueueField s p q off n v) :=
  canonical_homeStore s _ _ h

theorem canonical_setNotifyBit {s : State} {p q : Nat} {on : Bool} (h : Canonical s) : Canonical (setNotifyBit s p q on) :=
  canonical_homeStore s _ _ h

theorem canonical_mapQueue {s : State} {p q k : Nat} (h : Canonical s) : Canonical (mapQueue s p q k) :=
  canonical_setQueueField (canonical_setPart (canonical_setNotifyBit h))

theorem canonical_unmapQueue {s : State} {p q k : Nat} (h : Canonical s) : Canonical (unmapQueue s p q k) :=
  canonical_setQueueField (canonical_setPart h)

theorem canonical_dueGang {s : State} {g : Gang} (h : Canonical s) : Canonical (dueGang s g) := h

theorem canonical_dueGangs {s : State} {gs : List Gang} (h : Canonical s) : Canonical (gs.foldl dueGang s) :=
  canonical_foldl dueGang gs s (fun _ _ ht => canonical_dueGang ht) h

theorem canonical_notifyQueue {s : State} {p q : Nat} (h : Canonical s) : Canonical (notifyQueue s p q) := by
  refine canonical_ite h ?_
  split
  · exact canonical_mapQueue h
  · split
    · exact canonical_mapQueue (canonical_setNotifyBit (canonical_unmapQueue (canonical_dueGangs h)))
    · exact canonical_ite (canonical_postAsync (canonical_setNotifyBit h)) (canonical_setNotifyBit h)

theorem canonical_freeQueueSlot {s : State} {p : Nat} {x : Nat × Nat} (h : Canonical s) : Canonical (freeQueueSlot p s x) := by
  refine canonical_ite ?_ h
  simp only
  split
  · exact canonical_mapQueue (canonical_unmapQueue h)
  · exact canonical_unmapQueue h

theorem canonical_enterPool {s : State} {p : Nat} {r : LaunchRec} {stack : Nat} (h : Canonical s) :
    Canonical (enterPool s p r stack) := h

theorem canonical_spendReserve {s : State} {spent : Bool} (h : Canonical s) : Canonical (spendReserve s spent) := by
  unfold spendReserve
  split <;> exact h

theorem canonical_queueLaunch {s : State} {p : Nat} {r : LaunchRec} {e : Nat × Bool} (h : Canonical s) :
    Canonical (queueLaunch s p r e) :=
  have he := canonical_enterPool (p := p) (r := r) (stack := e.1) (canonical_spendReserve (spent := e.2) h)
  canonical_ite he (canonical_notifyQueue he)

theorem keeps_launchRecord {s : State} {d a : Reg} {blocks : Bool} (h : Canonical s) : Keeps (launchRecord s d a blocks) := by
  refine keeps_checked s _ _ h fun _ => keeps_ite (keeps_next h) (keeps_ite (keeps_fault _) ?_)
  split
  · exact keeps_raise s _ h
  · refine keeps_ite (keeps_raise s _ h) ?_
    simp only
    split
    · exact keeps_answer (canonical_queueLaunch h)
    · exact keeps_ite (keeps_next (canonical_park h)) (keeps_answer h)

theorem canonical_advanceHead {s : State} {p q : Nat} (h : Canonical s) : Canonical (advanceHead s p q) := canonical_setQueueField h

theorem canonical_rejectRecord {s : State} {p q : Nat} (h : Canonical s) : Canonical (rejectRecord s p q) :=
  canonical_postAsync (canonical_advanceHead (canonical_setQueueField h))

theorem canonical_fetchRecord {s : State} {p q : Nat} (h : Canonical s) : Canonical (fetchRecord s p q) := by
  refine canonical_ite ?_ h
  split
  · exact canonical_rejectRecord h
  · refine canonical_ite ?_ (canonical_rejectRecord h)
    split
    · exact canonical_advanceHead (canonical_enterPool h)
    · exact h

theorem canonical_placeMembers {s : State} {x : Pending} {slots : List Nat} (h : Canonical s) :
    Canonical (placeMembers s x slots) := h

theorem canonical_serveQueue {s : State} {p q : Nat} (h : Canonical s) : Canonical (serveQueue s p q) := by
  refine canonical_ite h (canonical_setQueueField (canonical_ite ?_ h))
  exact canonical_foldl _ _ s (fun _ _ ht => canonical_setQueueField ht) h

theorem keeps_execLaunchStart {s : State} {k : Nat} {slots : List Nat} (h : Canonical s) : Keeps (execLaunchStart k slots s) := by
  unfold execLaunchStart
  split
  · exact keeps_next h
  · rename_i x _
    have hp : Canonical (placeMembers (serveQueue s x.partId x.record.queue) x slots) :=
      canonical_placeMembers (canonical_serveQueue h)
    exact keeps_ite (keeps_next (canonical_ite hp hp)) (keeps_next h)

theorem canonical_logCopies {s : State} {c : Nat} (h : Canonical s) : Canonical (logCopies s c) := h

theorem canonical_saveContext {s : State} {c : Nat} (h : Canonical s) : Canonical (saveContext s c) := by
  unfold saveContext
  split
  · rename_i hx
    refine keeps_asHart s c _ h (fun t ht => ?_) _ hx
    have hu : Canonical { t with hart := {}, saved := t.saved ++ [savedHart t], draws := t.draws + 1 } := ht
    exact keeps_next (canonical_ite (canonical_writeArea _ _ (canonical_logCopies hu)) (canonical_logCopies hu))
  · exact h
  · exact h

theorem keeps_execContextSave {s : State} {c : Nat} (h : Canonical s) : Keeps (execContextSave c s) := by
  unfold execContextSave
  split
  · exact keeps_next h
  · exact keeps_next (canonical_ite (canonical_foldl _ _ s (fun _ _ ht => canonical_saveContext ht) h) h)

theorem canonical_putScratch {s : State} {g : Hart} {slot : Nat} (h : Canonical s) : Canonical (putScratch s g slot) :=
  canonical_setFrontEnd s _ _ h (h.2 _)

theorem canonical_restoreHart {s : State} {x : Hart × Nat} (h : Canonical s) : Canonical (restoreHart s x) := by
  have hw {c : Prop} [Decidable c] : Canonical (if c then writeArea s x.1 else s) := canonical_ite (canonical_writeArea s _ h) h
  unfold restoreHart
  simp only
  split
  · rename_i hx
    refine keeps_asHart _ _ _ ?_ (fun t ht => keeps_next (canonical_reissueAll ht)) _ hx
    exact canonical_putScratch hw
  · exact canonical_putScratch hw
  · exact canonical_putScratch hw

theorem keeps_execRestore {s : State} {k n : Nat} {slots : List Nat} (h : Canonical s) : Keeps (execRestore k n slots s) := by
  unfold execRestore
  split
  · exact keeps_next h
  · refine keeps_ite (keeps_next ?_) (keeps_next h)
    exact canonical_foldl _ _ _ (fun _ _ ht => canonical_restoreHart ht) (canonical_serveQueue h)

theorem canonical_markVictims {s : State} {p : Nat} (h : Canonical s) : Canonical (markVictims s p) := by
  refine canonical_ite h ?_
  split <;> exact canonical_dueGangs h

theorem canonical_endSlice {s : State} {p : Nat} (h : Canonical s) : Canonical (endSlice s p) := by
  refine canonical_ite (canonical_dueGangs (canonical_setPart h)) ?_
  split
  · exact canonical_dueGangs (canonical_setPart h)
  · exact canonical_setPart h

/-! ### Errors and their containment -/

theorem canonical_report {s : State} {p cause kind : Nat} {addr : Word} (h : Canonical s) :
    Canonical (report s p cause kind addr) :=
  canonical_postAsync (canonical_logEntry s _ _ _ _ _ h)

/-- Reports to several partitions. -/
theorem canonical_reports {s : State} {ps : List Nat} {cause kind : Nat} {addr : Word} (h : Canonical s) :
    Canonical (ps.foldl (fun t p => report t p cause kind addr) s) :=
  canonical_foldl _ ps s (fun _ _ ht => canonical_report ht) h

theorem canonical_dropContext {s : State} {c : Nat} (h : Canonical s) : Canonical (dropContext s c) := by
  unfold dropContext
  split
  · rename_i hx
    exact keeps_asHart s c _ h (fun t ht => keeps_next (canonical_dropHart t ht)) _ hx
  · exact h
  · exact h

theorem canonical_dropContexts {s : State} {cs : List Nat} (h : Canonical s) : Canonical (cs.foldl dropContext s) :=
  canonical_foldl dropContext cs s (fun _ _ ht => canonical_dropContext ht) h

theorem canonical_terminateGang {s : State} {g : Gang} {cause : Nat} (h : Canonical s) : Canonical (terminateGang s g cause) :=
  canonical_dropContexts (canonical_logEntry s _ _ _ _ _ h)

theorem canonical_holdSlots {s : State} {p : Nat} (h : Canonical s) : Canonical (holdSlots s p) := by
  have hs {c : Prop} [Decidable c] : Canonical (if c then setSlotCfg s 0 (slotCfg s 0) else s) := canonical_ite h h
  exact hs

theorem canonical_unmapAll {s : State} {p : Nat} (h : Canonical s) : Canonical (unmapAll s p) :=
  canonical_foldl _ _ s (fun _ _ ht => canonical_unmapQueue ht) h

theorem canonical_terminatePartition {s : State} {p cause : Nat} {addr : Word} (h : Canonical s) :
    Canonical (terminatePartition s p cause addr) := by
  refine canonical_holdSlots (canonical_unmapAll (canonical_foldl _ _ _ (fun t k ht => canonical_settleReserves t k ht) ?_))
  exact canonical_setPool (canonical_dropContexts (canonical_logEntry s _ _ _ _ _ h))

theorem canonical_quarantine {s : State} {p : Nat} (h : Canonical s) : Canonical (quarantine s p) :=
  canonical_report (canonical_ite h (canonical_dueGangs h))

theorem canonical_retireFrontEnd {s : State} {fe : Nat} (h : Canonical s) : Canonical (retireFrontEnd s fe) :=
  canonical_reports (canonical_dueGangs (canonical_setFrontEnd s fe _ h (h.2 fe)))

theorem keeps_execLaneShiftRepair {s : State} {fe : Nat} {entry : BitVec 2} {half : HalfSel} {repair : Option (BitVec 16)}
    (h : Canonical s) : Keeps (execLaneShiftRepair fe entry half repair s) := by
  refine keeps_next ?_
  cases repair with
  | none => exact canonical_retireFrontEnd h
  | some e => exact canonical_ite (canonical_rebind h) (canonical_retireFrontEnd h)

theorem canonical_linkDown {s : State} {l : Nat} (h : Canonical s) : Canonical (linkDown s l) := canonical_reports h

theorem canonical_fenceShadow {s : State} {fe : Nat} (h : Canonical s) : Canonical (fenceShadow s fe) :=
  canonical_setFrontEnd s fe _ h (h.2 fe)

theorem canonical_loseContext {s : State} {c : Nat} (h : Canonical s) : Canonical (loseContext s c) := by
  unfold loseContext
  split
  · exact h
  · refine canonical_report (canonical_ite ?_ (canonical_foldl _ _ _ (fun _ _ ht => canonical_fenceShadow ht) ?_))
    all_goals
      split
      · exact canonical_terminateGang h
      · exact canonical_dropContext h

theorem canonical_fenceVault {s : State} {v : Nat} (h : Canonical s) : Canonical (fenceVault s v) := canonical_reports h

theorem canonical_contain {s : State} {site : ErrorSite} (h : Canonical s) : Canonical (contain s site) := by
  cases site with
  | cleanLine => exact h
  | dirtyUser gs => exact h
  | dirtyPrivileged p => exact canonical_terminatePartition h
  | dram g => exact h
  | farLine l => exact h
  | scratchpad fe key => exact canonical_setFrontEnd s fe _ h (h.2 fe)
  | rowStore c key => exact h
  | accumulator c word => exact h
  | savedContext c => exact canonical_loseContext h
  | syncEntry p => exact canonical_terminatePartition h
  | firmware => exact canonical_logEntry s _ _ _ _ _ h
  | vault v => exact canonical_fenceVault h
  | link l => exact canonical_linkDown h

theorem keeps_execSecurityAlarm {s : State} {a : Alarm} (h : Canonical s) : Keeps (execSecurityAlarm a s) := by
  refine keeps_next ?_
  cases a with
  | tamper => exact canonical_foldl quarantine _ _ (fun _ _ ht => canonical_quarantine ht) (canonical_ite h h)
  | authentication p => exact canonical_quarantine (canonical_ite h h)

theorem keeps_execLinkLaneFailure {s : State} {l : Nat} {lane : BitVec 3} (h : Canonical s) :
    Keeps (execLinkLaneFailure l lane s) :=
  keeps_next (canonical_ite h (canonical_ite (canonical_linkDown h) h))

theorem canonical_throttle {s : State} {stack : Nat} {ps : List Nat} (h : Canonical s) : Canonical (throttle s stack ps) :=
  canonical_reports h

theorem keeps_execStackShutdown {s : State} {stack : Nat} (h : Canonical s) : Keeps (execStackShutdown stack s) :=
  keeps_next (canonical_foldl _ _ s (fun _ _ ht => canonical_terminatePartition ht) h)

/-! ### Moves -/

theorem keeps_finishMove {s : State} {m : Move} (h : Canonical s) :
    Keeps (finishMove s m) := keeps_ite (keeps_finish h) (keeps_next h)

theorem keeps_moveRequest {s : State} {d a : Reg} {n : BitVec 8} (h : Canonical s) : Keeps (moveRequest s d a n) := by
  refine keeps_checked s _ _ h fun r => keeps_ite (keeps_raise s _ h) ?_
  split
  · exact keeps_finishMove h
  · exact keeps_checked s _ _ h fun _ => keeps_ite (keeps_next h) (keeps_finishMove h)

theorem keeps_execMvreq {s : State} {d a : Reg} {n : BitVec 8} (h : Canonical s) : Keeps (execMvreq d a n s) :=
  keeps_ite (keeps_raise s _ h) (keeps_ite (keeps_raise s _ h) (keeps_ite (keeps_next h) (keeps_moveRequest h)))

theorem keeps_execMvreqComplete {s : State} {c : Nat} (h : Canonical s) : Keeps (execMvreqComplete c s) := by
  refine keeps_asHart s c _ h fun t ht => ?_
  split
  · exact keeps_finishMove ht
  · exact keeps_next ht

theorem canonical_contextView {s : State} {g : Hart} (h : Canonical s) : Canonical (contextView s g) :=
  canonical_ite (canonical_setFrontEnd { s with hart := g } _ _ h (h.2 _)) h

theorem canonical_refreshAreas {s : State} {m : Move} (h : Canonical s) : Canonical (refreshAreas s m) :=
  canonical_foldl writeArea _ s (fun t g ht => canonical_writeArea t g ht) h

theorem keeps_commitMove {s : State} {d : Reg} {m : Move} {r : Record} {l : LeaseSet} (h : Canonical s) :
    Keeps (commitMove s d m r l) := by
  unfold commitMove
  simp only
  split
  · exact keeps_raise s _ h
  · exact keeps_finish (canonical_refreshAreas h)

theorem keeps_execMvcommit {s : State} {d a : Reg} {n : BitVec 8} (h : Canonical s) : Keeps (execMvcommit d a n s) := by
  refine keeps_ite (keeps_raise s _ h) (keeps_ite (keeps_raise s _ h) (keeps_ite (keeps_next h) ?_))
  refine keeps_checked s _ _ h fun r => ?_
  split
  · exact keeps_commitMove h
  · exact keeps_raise s _ h

/-! ### Beats -/

theorem canonical_makeCurrent {s : State} {c : Nat} (h : Canonical s) : Canonical (makeCurrent s c) := by
  refine canonical_ite h ?_
  split <;> exact h

theorem wf_passBeats {f : FrontEnd} {n : Nat} (h : f.imem.wf) : (passBeats f n).imem.wf := by
  unfold passBeats
  split <;> exact h

theorem keeps_execIssueBeat {s : State} {fe : Nat} (h : Canonical s) : Keeps (execIssueBeat fe s) := by
  have hb (l : Tab Nat) : Canonical (setFrontEnd s fe { passBeats (frontEnd s fe) 1 with lastIssued := l }) :=
    canonical_setFrontEnd s fe _ h (wf_passBeats (h.2 fe))
  unfold execIssueBeat
  simp only
  split
  · exact keeps_next (hb _)
  · exact keeps_next (canonical_makeCurrent (hb _))

theorem keeps_execFrameBoundary {s : State} {fe : Nat} (h : Canonical s) : Keeps (execFrameBoundary fe s) :=
  keeps_next (canonical_ite (canonical_setFrontEnd s fe _ h (wf_passBeats (h.2 fe))) h)

/-! ### The host and the peers -/

theorem canonical_outsideAccess {s : State} {p off : Nat} {acc : ExtAccess} (h : Canonical s) :
    Canonical (outsideAccess s p off acc) := by
  refine canonical_ite h ?_
  cases acc with
  | read n => exact h
  | write bs => exact canonical_homeStore s off bs h
  | atomic sz op v =>
    refine canonical_ite h ?_
    split
    · exact canonical_homeStore s off _ h
    · exact h

theorem canonical_enterDevice {s : State} {b : List Byte} (h : Canonical s) : Canonical (enterDevice s b) := by
  unfold enterDevice
  split <;> exact h

theorem canonical_submitDevice {s : State} {a : Nat} (h : Canonical s) : Canonical (submitDevice s a) := by
  unfold submitDevice
  split
  · exact canonical_enterDevice h
  · exact h

theorem keeps_execNotifyWrite {s : State} {p : Nat} {vf : Option Nat} {v : BitVec 32} (h : Canonical s) :
    Keeps (execNotifyWrite p vf v s) :=
  keeps_next (canonical_ite h (canonical_ite h (canonical_notifyQueue h)))

theorem keeps_execHostInterrupt {s : State} {p : Nat} {vf : Option Nat} (h : Canonical s) : Keeps (execHostInterrupt p vf s) :=
  keeps_next (canonical_ite h h)

/-! ### The services -/

theorem keeps_serve {s : State} {k fn : Nat} {f : State → Call → Hart → State × Answer}
    {touches : State → Call → Hart → List (Nat × Nat)} (h : Canonical s) (hf : ∀ t c g, Canonical t → Canonical (f t c g).1) :
    Keeps (serve s k fn f touches) := by
  unfold serve
  split
  · exact keeps_next h
  · refine keeps_ite (keeps_next h) ?_
    split
    · exact keeps_next h
    · exact keeps_ite (keeps_next h) (keeps_next (hf _ _ _ h))

theorem canonical_callView {s : State} {g : Hart} (h : Canonical s) : Canonical (callView s g) := canonical_contextView h

theorem canonical_callBack {s t : State} {g : Hart} (h : Canonical t) : Canonical (callBack s t g) :=
  canonical_ite (canonical_setFrontEnd { t with hart := s.hart } _ _ h (h.2 _)) h

theorem canonical_fst_ite {α : Type} {c : Prop} [Decidable c] {x y : State × α} (hx : Canonical x.1) (hy : Canonical y.1) :
    Canonical (if c then x else y).1 := by
  split
  · exact hx
  · exact hy

theorem canonical_serveUnload {s : State} {c : Call} {g : Hart} (h : Canonical s) : Canonical (serveUnload s c g).1 :=
  canonical_fst_ite h h

theorem canonical_serveAllocate {s : State} {c : Call} {g : Hart} (h : Canonical s) : Canonical (serveAllocate s c g).1 := by
  refine canonical_fst_ite h (canonical_fst_ite h ?_)
  split <;> exact h

theorem canonical_serveFree {s : State} {c : Call} {g : Hart} (h : Canonical s) : Canonical (serveFree s c g).1 := by
  refine canonical_fst_ite h ?_
  split
  · exact h
  · exact canonical_fst_ite h h

theorem canonical_serveDirectory {s : State} {c : Call} {g : Hart} (h : Canonical s) : Canonical (serveDirectory s c g).1 :=
  canonical_fst_ite h (canonical_fst_ite h (canonical_fst_ite h h))

theorem canonical_serveReadEvent {s : State} {c : Call} {g : Hart} (h : Canonical s) : Canonical (serveReadEvent s c g).1 := by
  unfold serveReadEvent
  split <;> exact h

theorem canonical_serveTerminate {s : State} {c : Call} {g : Hart} (h : Canonical s) : Canonical (serveTerminate s c g).1 := by
  unfold serveTerminate
  simp only
  split
  · split
    · exact h
    · refine canonical_fst_ite h (canonical_fst_ite h ?_)
      split
      · rename_i hx
        exact keeps_asHart s _ _ h (fun t ht => keeps_next (canonical_terminateHart t _ ht)) _ hx
      · exact h
      · exact h
  · split
    · exact h
    · exact canonical_fst_ite h (canonical_terminateGang h)
  · exact h

theorem canonical_serveQuote {s : State} {c : Call} {g : Hart} (h : Canonical s) : Canonical (serveQuote s c g).1 :=
  canonical_fst_ite h (canonical_serviceWrite _ _ _ h)

theorem canonical_applyReloc {j : LoadJob} {s : State} {r : Reloc} (h : Canonical s) : Canonical (j.apply s r) := by
  unfold LoadJob.apply
  simp only
  split <;> exact canonical_serviceWrite s _ _ h

theorem canonical_placeSlot {j : LoadJob} {s : State} {x : SlotEntry} (h : Canonical s) : Canonical (j.placeSlot s x) :=
  canonical_ite (canonical_serviceWrite s _ _ h) h

theorem canonical_load {j : LoadJob} (h : Canonical j.view) : Canonical j.load := by
  have hi := canonical_storePieces (ceilDiv j.msize 64) j.view j.base ((List.range j.msize).map fun m => (j.content m, false)) h
  have hs := canonical_foldl j.placeSlot j.slots _ (fun _ _ ht => canonical_placeSlot ht) hi
  have hr := canonical_foldl j.apply ((List.range j.relocs).map j.reloc) _ (fun _ _ ht => canonical_applyReloc ht) hs
  exact canonical_discardLines (canonical_setPart (canonical_serviceWrite _ j.area j.areaData hr))

theorem canonical_serveLoad {s : State} {c : Call} {g : Hart} (h : Canonical s) : Canonical (serveLoad s c g).1 := by
  unfold serveLoad
  simp only
  split
  · exact h
  · exact canonical_callBack (canonical_load (canonical_callView h))

theorem keeps_execLoadImage {s : State} {k : Nat} (h : Canonical s) : Keeps (execLoadImage k s) := by
  unfold execLoadImage
  split
  · exact keeps_next h
  · exact keeps_ite (keeps_next h) (keeps_serve h fun _ _ _ ht => canonical_serveLoad ht)

end Sys2Proof.Machine
end

section
/-!
PROOF (O59). Every instruction and every event keeps the canonical form.
-/

namespace Sys2Proof.Machine

/-- The meaning of an instruction keeps the canonical form; instructions with one shared operation stand together. -/
theorem keeps_exec {s : State} (i : Instr) (h : Canonical s) : Keeps (exec i s) := by
  unfold exec
  cases i with
  | lhi | aupc | fclass | ltag | addi | andi | ori | xori | slti | sltni | slli | srli | srai | add | sub | and | or | xor
    | sll | srl | sra | slt | sltn | mul | mulh | mulhn | div | divn | rem | remn | min | max | minn | maxn | cAddi | cLi
    | cMv | cAdd | cSub | cAnd => exact keeps_finish h
  | ldb | ldh | ldw | ldd | ldbn | ldhn | ldwn | ldbAcq | ldhAcq | ldwAcq | lddAcq | ldbnAcq | ldhnAcq | ldwnAcq | cLdd
    | cLdw => exact keeps_scalarLoad h
  | stb | sth | stw | std | cStd => exact keeps_scalarStore h
  | stbRel | sthRel | stwRel | stdRel => exact keeps_releaseStore h
  | beq | bne | blt | bge | bltn | bgen | bany | ball | bnone | cBeqz | cBnez => exact keeps_branch h
  | jal | jalr | cJ | cJr => exact keeps_jumpLink h
  | fadd | fsub | fmul | fdiv | fmadd | fsqrt | fcvtF32I32 | fcvtF32N32 | fcvtF32I64 | fcvtF32N64 => exact keeps_fpRound h
  | fmin | fmax | feq | flt | fle | fcvtI32F32 | fcvtN32F32 | fcvtI64F32 | fcvtN64F32 => exact keeps_fpFinish h
  | amoadd | amoswap | amocas | amomin | amomax | amoand | amoor | amoxor => exact keeps_scalarAmo h
  | waitw => exact keeps_waitwRead h
  | ecall => exact keeps_execEcall h
  | trap | illegalEncoding => exact keeps_raise s _ h
  | eret => exact keeps_execEret h
  | exit | cExit => exact keeps_exitHart h
  | yield | vlclr | wmclr | vsunbind | cpb | cYield | coldTierExpanderError | certificateChain => exact keeps_next h
  | flushi => exact keeps_execFlushi h
  | csrrd => exact keeps_execCsrrd h
  | csrwr | csrset | csrclr => exact keeps_csrStore_advance h
  | fenceSv | fenceVs | fenceVv => exact keeps_fence h fun _ hu => hu
  | fenceAll => exact keeps_execFenceAll h
  | lslot => exact keeps_execLslot h
  | mvreq => exact keeps_execMvreq h
  | mvcommit => exact keeps_execMvcommit h
  | ljoin | lclr => exact keeps_next (canonical_setGpr s _ _ h)
  | safept | cSafept => exact keeps_safePoint h
  | vsetvli | vsetvl => exact keeps_setLength h
  | vwin => exact keeps_execVwin h
  | vadd | vsub | vmul | vmulh | vand | vor | vxor | vmin | vmax | vminn | vmaxn | vsadd | vssub => exact keeps_vecInt h
  | vsll | vsrl | vsra => exact keeps_vecShift h
  | vfadd | vfsub | vfmul | vfmadd | vfnmsub | vfdiv | vfmin | vfmax | vfsgnj => exact keeps_vecFp h
  | vfscale => exact keeps_execVfscale h
  | vfsqrt | vfrecip | vfrsqrt | vfround => exact keeps_vecFpUnary h
  | vcmpEq | vcmpNe | vcmpLt | vcmpLe | vcmpGt | vcmpGe | vcmpLtn | vcmpLen | vcmpGtn | vcmpGen => exact keeps_vecCmp h
  | vfcmpEq | vfcmpNe | vfcmpLt | vfcmpLe | vfcmpGt | vfcmpGe => exact keeps_vecFcmp h
  | mand | mor | mxor | mandn | mnot | mmv | mset => exact keeps_maskOp h
  | mpop | mfirst => exact keeps_maskScalar h
  | vslideup | vslidedn => exact keeps_slide h
  | vgather => exact keeps_execVgather h
  | vcompress => exact keeps_execVcompress h
  | vbcast => exact keeps_execVbcast h
  | vid => exact keeps_execVid h
  | vmerge => exact keeps_execVmerge h
  | vmv => exact keeps_execVmv h
  | vmvsx => exact keeps_execVmvsx h
  | vmvxs => exact keeps_execVmvxs h
  | vext => exact keeps_execVext h
  | vcvt => exact keeps_execVcvt h
  | vcvti => exact keeps_execVcvti h
  | vquant => exact keeps_execVquant h
  | vredsum | vredmax | vredmin | vfredsum | vfredosum | vfredmax => exact keeps_reduce h
  | vld | vlds | vldx => exact keeps_vecLoad h
  | vst | vsts | vstx => exact keeps_vecStore h
  | vlseg => exact keeps_execVlseg h
  | vsseg => exact keeps_execVsseg h
  | vamoAdd | vamoSwap | vamoMin | vamoMax | vamoAnd | vamoOr | vamoXor => exact keeps_vecAmo h
  | vwait => exact keeps_execVwait h
  | vsred => exact keeps_execVsred h
  | awdecl => exact keeps_execAwdecl h
  | awmerge => exact keeps_execAwmerge h
  | wmpub => exact keeps_execWmpub h
  | wmset => exact keeps_execWmset h
  | gbar => exact keeps_atBarrier h
  | gjoin => exact keeps_execGjoin h
  | gleave => exact keeps_execGleave h
  | vregion => exact keeps_execVregion h
  | vloop => exact keeps_execVloop h
  | vloopP => exact keeps_execVloopP h
  | bsend => exact keeps_execBsend h
  | vlend | cVlend => exact keeps_loopEnd h
  | vrend => exact keeps_execVrend h
  | vsbind => exact keeps_execVsbind h
  | vspill => exact keeps_execVspill h
  | vfill => exact keeps_execVfill h
  | gspill => exact keeps_execGspill h
  | gfill => exact keeps_execGfill h
  | cpy => exact keeps_copyTurn h (keeps_dispatchCpy h)
  | cpyx => exact keeps_copyTurn h (keeps_dispatchCpyx h)
  | cpwait => exact keeps_execCpwait h
  | swpout | swpin | xfer => exact keeps_engineCommand h
  | launch | launchNb => exact keeps_launchRecord h
  | mattach => exact keeps_execMattach h
  | mdetach => exact keeps_execMdetach h
  | mzero => exact keeps_execMzero h
  | vmma => exact keeps_execVmma h
  | vmmas => exact keeps_execVmmas h
  | mext => exact keeps_execMext h
  | mins => exact keeps_execMins h
  | waitwWake => exact keeps_execWaitwWake h
  | ecallReply => exact keeps_execEcallReply h
  | exitComplete => exact keeps_execExitComplete h
  | mvreqComplete => exact keeps_execMvreqComplete h
  | vwaitWake => exact keeps_execVwaitWake h
  | vwaitTimeout => exact keeps_execVwaitTimeout h
  | awmergeApply => exact keeps_execAwmergeApply h
  | chunkDelivery => exact keeps_execChunkDelivery h
  | cpwaitComplete => exact keeps_execCpwaitComplete h
  | copyChunk => exact keeps_execCopyChunk h
  | swpoutComplete => exact keeps_execSwpoutComplete h
  | swpinBlockLanded => exact keeps_execSwpinBlockLanded h
  | swpinComplete => exact keeps_execSwpinComplete h
  | xferLayer => exact keeps_execXferLayer h
  | xferComplete => exact keeps_execXferComplete h
  | issueBeat => exact keeps_execIssueBeat h
  | laneShiftRepair => exact keeps_execLaneShiftRepair h
  | frameBoundary => exact keeps_execFrameBoundary h
  | accessPerform => exact keeps_execAccessPerform h
  | replyWrite => exact keeps_execReplyWrite h
  | coldTierStoreError => exact keeps_execColdTierStoreError h
  | watermarkTimeout => exact keeps_execWatermarkTimeout h
  | trapEntry => exact keeps_asHart s _ _ h fun t ht => keeps_next (canonical_ite (canonical_takeAsync t ht) ht)
  | launchStart => exact keeps_execLaunchStart h
  | ringFetch => exact keeps_next (canonical_fetchRecord h)
  | notifyWrite => exact keeps_execNotifyWrite h
  | hostInterrupt => exact keeps_execHostInterrupt h
  | hostApertureAccess | peerAccess => exact keeps_next (canonical_ite (canonical_outsideAccess h) h)
  | dlaunch => exact keeps_next (canonical_ite h (canonical_submitDevice h))
  | sliceEnd => exact keeps_next (canonical_ite h (canonical_endSlice h))
  | contextSave => exact keeps_execContextSave h
  | restore => exact keeps_execRestore h
  | slotbaseWrite | notifybmWrite | wmCsrWrite | cpbCsrWrite | loopRegisterWrite | stripWrite | vlCsrWrite | vstartWrite =>
    exact keeps_csrEvent h
  | harnessWrite => exact keeps_configWrite h (keepsSome_writeHarness h)
  | beatmapWrite => exact keeps_configWrite h (keepsSome_writeBeatmap h)
  | rowrangeWrite => exact keeps_configWrite h (keepsSome_writeRowrange h)
  | partWrite => exact keeps_configWrite h (keepsSome_writePart h)
  | selvedgeWrite => exact keeps_configWrite h (keepsSome_writeSelvedge h)
  | registerWrite => exact keeps_execRegisterWrite h
  | timerExpire | vaultRetirement => exact keeps_next (canonical_ite h h)
  | uncorrectableError => exact keeps_next (canonical_contain h)
  | securityAlarm => exact keeps_execSecurityAlarm h
  | quarantineRelease | vaultControlWrite => exact keeps_next (canonical_devWrite s _ _ h)
  | linkLaneFailure => exact keeps_execLinkLaneFailure h
  | thermalNotice | powerNotice => exact keeps_next (canonical_throttle h)
  | stackShutdown => exact keeps_execStackShutdown h
  | bringUp | firmwareSwitch => exact keeps_ite (keeps_next h) (keeps_next h)
  | version | writeEventBlock => exact keeps_serve h fun _ _ _ ht => ht
  | loadImage => exact keeps_execLoadImage h
  | unloadImage => exact keeps_serve h fun _ _ _ ht => canonical_serveUnload ht
  | allocateWatermark => exact keeps_serve h fun _ _ _ ht => canonical_serveAllocate ht
  | freeWatermark => exact keeps_serve h fun _ _ _ ht => canonical_serveFree ht
  | setSessionDirectory => exact keeps_serve h fun _ _ _ ht => canonical_serveDirectory ht
  | readEventBlock => exact keeps_serve h fun _ _ _ ht => canonical_serveReadEvent ht
  | terminate => exact keeps_serve h fun _ _ _ ht => canonical_serveTerminate ht
  | attestationQuote => exact keeps_serve h fun _ _ _ ht => canonical_serveQuote ht
  | peerWatermarkPublication => exact keeps_next (canonical_ite (canonical_publish h) h)

end Sys2Proof.Machine
end

section
/-!
PROOF (O59). What a step does around an instruction keeps the canonical form, and so does the step.
-/

namespace Sys2Proof.Machine

/-! ### What a replica stores late (R34) -/

theorem canonical_lagByte {s t : State} {e : Posted} {a : Nat} (h : Canonical t) : Canonical (lagByte s e t a) :=
  canonical_storeBytes t a _ h

theorem canonical_lagRun {s t : State} {e : Posted} {r : Nat × Nat} (h : Canonical t) : Canonical (lagRun s e t r) :=
  canonical_foldl _ _ t (fun _ _ hu => canonical_lagByte hu) h

theorem canonical_lagStores {s t : State} {i : Instr} (h : Canonical t) : Canonical (lagStores s i t) := by
  refine canonical_ite h (canonical_ite h ?_)
  split
  · exact canonical_ite h (canonical_lagRun h)
  · exact canonical_foldl _ _ t (fun _ _ hu => canonical_lagRun hu) h

theorem keeps_unordered {s : State} {i : Instr} (h : Canonical s) : Keeps (unordered exec s i) := by
  have he := keeps_exec i h
  unfold unordered
  generalize exec i s = x at he ⊢
  split
  · exact keeps_next (canonical_lagStores (he _ rfl))
  · exact he

/-! ### The plan of the current hart -/

theorem keeps_thenNext {x : Out} {f : State → State} (h : Keeps x) (hf : ∀ u, Canonical u → Canonical (f u)) :
    Keeps (thenNext x f) := by
  cases x with
  | next t => exact keeps_next (hf t (h t rfl))
  | fault e => exact keeps_fault e
  | refused e => exact keeps_refused e

theorem canonical_dequeue {g : Hart} {i : Instr} {t : State} (h : Canonical t) : Canonical (dequeue g i t) := h

/-- A state that a plan goes on with has its memories in canonical form. -/
def Plan.Keeps : Plan → Prop
  | .boundary t => Canonical t
  | .skip _ t => Canonical t
  | _ => True

theorem planKeeps_deliverHeld {s : State} {x : Async} (h : Canonical s) : (deliverHeld s x).Keeps := by
  unfold deliverHeld
  split
  · exact trivial
  · split
    · exact trivial
    · exact canonical_trap _ _ h

theorem keepsSome_beforeExec {s : State} {i : Instr} (h : Canonical s) : KeepsSome (beforeExec s i) :=
  keepsSome_ite (keepsSome_some (canonical_stopNow s h)) <| keepsSome_ite (keepsSome_some h) <|
    keepsSome_ite (keepsSome_some h) <| keepsSome_ite (keepsSome_some (canonical_advance h)) <|
    keepsSome_ite (keepsSome_some (canonical_advance (canonical_takeId h))) <|
    keepsSome_ite (keepsSome_some h) keepsSome_none

theorem keepsSome_boundaryCause {s : State} (h : Canonical s) : KeepsSome (boundaryCause s) := by
  unfold boundaryCause
  split
  · exact keepsSome_some (canonical_trap _ _ h)
  · exact keepsSome_ite keepsSome_none (keepsSome_some (canonical_trap _ _ h))
  · exact keepsSome_none

theorem planKeeps_planNext {s : State} (h : Canonical s) : (planNext s).Keeps := by
  unfold planNext
  split
  · split <;> exact trivial
  · split <;> exact trivial
  · split
    · exact trivial
    · split
      · exact keepsSome_beforeExec h _ ‹_›
      · exact trivial

theorem planKeeps_planOf {s : State} (h : Canonical s) : (planOf s).Keeps := by
  have hb : KeepsSome (if atBoundary s ∧ !s.hart.stopped then boundaryCause s else none) :=
    keepsSome_ite (keepsSome_boundaryCause h) keepsSome_none
  unfold planOf
  split
  · exact planKeeps_deliverHeld h
  · exact hb _ ‹_›
  · split
    · exact trivial
    · split
      · exact trivial
      · split
        · exact canonical_reissueAll h
        · split
          · exact trivial
          · exact planKeeps_planNext h

theorem keeps_runPlan {s : State} {p : Plan} (h : Canonical s) (hp : p.Keeps) : Keeps (runPlan exec s p) := by
  cases p with
  | reply => exact keeps_exec (.replyWrite s.hart.cid 0) h
  | boundary t => exact keeps_next hp
  | hold => exact keeps_next h
  | async => exact keeps_exec (.trapEntry s.hart.cid) h
  | fault e => exact keeps_raise s e h
  | bad e raw => exact keeps_exec (.illegalEncoding e raw) h
  | skip i t => exact keeps_next (canonical_dequeue hp)
  | instr i => exact keeps_thenNext (keeps_unordered h) fun _ hu => canonical_dequeue hu

theorem keeps_runHart {s : State} (h : Canonical s) : Keeps (runHart exec s) := keeps_runPlan h (planKeeps_planOf h)

/-! ### The scalar side runs ahead (R22) -/

theorem canonical_putQueue {s : State} {i : Instr} {copy : Option Nat} (h : Canonical s) : Canonical (putQueue s i copy) := h

theorem canonical_putCopy {s : State} {i : Instr} (h : Canonical s) : Canonical (putCopy exec s i) := by
  refine canonical_ite h ?_
  split
  · refine canonical_ite h (canonical_ite (canonical_putQueue h) ?_)
    exact h
  · exact h

theorem canonical_enqueue {s : State} {i : Instr} (h : Canonical s) : Canonical (enqueue exec s i) := by
  refine canonical_ite (canonical_stopNow s h) (canonical_ite h ?_)
  split
  · exact canonical_putCopy h
  · exact canonical_putCopy h
  · exact canonical_putQueue h

theorem canonical_scalarAhead {s : State} {i : Instr} (h : Canonical s) : Canonical (scalarAhead exec s i) := by
  refine canonical_ite ?_ h
  split
  · exact canonical_ite h h
  · exact h

theorem canonical_runAhead {s : State} (h : Canonical s) : Canonical (runAhead exec s) := by
  unfold runAhead
  split
  · exact canonical_ite (canonical_enqueue h) (canonical_ite h (canonical_scalarAhead h))
  · exact h

/-! ### Turns (R21, R42) -/

theorem canonical_mapContexts {f : Hart → Hart} {s : State} (h : Canonical s) : Canonical (mapContexts f s) := h

theorem canonical_mapContext {c : Nat} {f : Hart → Hart} {s : State} (h : Canonical s) : Canonical (mapContext c f s) := h

theorem canonical_noteBeat {s : State} {k : Nat} (h : Canonical s) : Canonical (noteBeat exec s k) := h

theorem canonical_tick {s : State} (h : Canonical s) : Canonical (tick s) := h

theorem canonical_noteSteps {s t : State} {j : Option Nat} (h : Canonical t) : Canonical (noteSteps s t j) := canonical_ite h h

theorem canonical_rotate {s : State} (h : Canonical s) : Canonical (rotate s) := by
  unfold rotate
  simp only
  split
  · exact h
  · split <;> exact h

theorem canonical_focus {s : State} (h : Canonical s) : Canonical (focus s) := by
  unfold focus
  split
  · exact canonical_rotateReplicas h
  · exact h

theorem canonical_passReplica {s t : State} (h : Canonical t) : Canonical (passReplica s t) :=
  canonical_ite (canonical_rotateReplicas h) h

theorem canonical_endTurn {s t : State} {j : Option Nat} (h : Canonical t) : Canonical (endTurn s j t) := by
  have ht : Canonical (tick (passReplica s (noteSteps s t j))) := canonical_tick (canonical_passReplica (canonical_noteSteps h))
  exact canonical_rotate ht

theorem canonical_endEvent {s t : State} (h : Canonical t) : Canonical (endEvent s t) := canonical_tick (canonical_noteSteps h)

theorem canonical_tryFirst {s : State} {g : Hart} (h : Canonical s) : Canonical (tryFirst exec s g) := by
  have hk : Keeps (asHart s g.cid fun t => if t.hart.phase = .launched then runHart exec (drainReplies t) else .next t) :=
    keeps_asHart s g.cid _ h fun t ht => keeps_ite (keeps_runHart (canonical_drainReplies ht)) (keeps_next ht)
  unfold tryFirst
  split
  · exact canonical_ite (hk _ ‹_›) h
  · exact h

theorem canonical_afterRebind {s t : State} (h : Canonical t) : Canonical (afterRebind exec s t) :=
  canonical_foldl _ _ t (fun _ _ hu => canonical_mapContext (canonical_tryFirst (canonical_mapContext hu))) h

theorem keeps_turnEnds {s : State} {p : Plan} {x : Out} (h : Keeps x) : Keeps (turnEnds exec s p x) :=
  keeps_thenNext (keeps_thenNext h fun _ hu => canonical_afterRebind hu) fun _ hu => canonical_endTurn hu

theorem canonical_refreshHeld {s : State} {fe : Nat} (h : Canonical s) : Canonical (refreshHeld exec s fe) :=
  canonical_foldl _ _ s (fun _ _ hu => canonical_mapContext hu) h

theorem keeps_issueTurn {s : State} (h : Canonical s) : Keeps (issueTurn exec s) := by
  have hb (k : Nat) : Canonical (noteBeat exec s k) := canonical_noteBeat h
  refine keeps_ite (keeps_turnEnds (keeps_runHart h)) ?_
  split
  · split
    · exact keeps_next (canonical_endTurn (canonical_setHart (hb _)))
    · exact keeps_next (canonical_endTurn (hb _))
  · exact keeps_turnEnds (keeps_runPlan (hb 0) (planKeeps_planOf h))
  · exact keeps_turnEnds (keeps_runHart h)

theorem keeps_beatTurn {s : State} (h : Canonical s) : Keeps (beatTurn exec s) := by
  have he := keeps_exec (.issueBeat (feOf s.hart.slot)) (canonical_refreshHeld (fe := feOf s.hart.slot) h)
  unfold beatTurn
  simp only
  split
  · have ht := he _ ‹_›
    exact keeps_ite (keeps_issueTurn (canonical_focus ht)) (keeps_next (canonical_endTurn ht))
  · exact he

theorem keeps_hartTurn {s : State} (h : Canonical s) : Keeps (hartTurn exec s) := by
  refine keeps_ite (keeps_ite ?_ (keeps_ite (keeps_issueTurn h) (keeps_ite (keeps_beatTurn h) ?_))) ?_
  · exact keeps_turnEnds (keeps_runPlan (s := { s with slice := true }) h (planKeeps_planOf h))
  · exact keeps_turnEnds (keeps_runHart h)
  · exact keeps_thenNext (keeps_exec _ h) fun _ hu => canonical_endTurn hu

theorem keeps_instrTurn {s : State} (h : Canonical s) : Keeps (instrTurn exec s) := keeps_hartTurn (canonical_focus h)

/-! ### Events and the step -/

theorem canonical_tryFirsts {s : State} {gs : List Hart} (h : Canonical s) : Canonical (gs.foldl (tryFirst exec) s) :=
  canonical_foldl _ gs s (fun _ _ hu => canonical_tryFirst hu) h

theorem keeps_saveTurn {s : State} {c : Nat} (h : Canonical s) : Keeps (saveTurn exec c s) := by
  unfold saveTurn
  split
  · exact keeps_next (canonical_tick h)
  · simp only
    split
    · exact keeps_thenNext (keeps_exec _ (canonical_tryFirsts h)) fun _ hu => canonical_endEvent hu
    · exact keeps_next (canonical_endEvent (canonical_tryFirsts h))

theorem keepsSome_freeTurn {s : State} (h : Canonical s) : KeepsSome (freeTurn exec s) := by
  have ha := canonical_runAhead h
  refine keepsSome_ite (keepsSome_some ha) (keepsSome_ite (keepsSome_some ha) ?_)
  split
  · exact keepsSome_ite (keepsSome_some (canonical_rotateReplicas h)) keepsSome_none
  · exact keepsSome_none

theorem keeps_eventTurn {s : State} (h : Canonical s) : Keeps (eventTurn exec s) := by
  unfold eventTurn
  split
  · exact keeps_saveTurn h
  · exact keeps_thenNext (keeps_thenNext (keeps_exec _ h) fun _ hu => canonical_afterRebind hu) fun _ hu => canonical_endEvent hu
  · split
    · exact keeps_next (canonical_tick (keepsSome_freeTurn h _ ‹_›))
    · exact keeps_instrTurn h

theorem canonical_restartService {s : State} (h : Canonical s) : Canonical (restartService s) := canonical_ite h h

theorem canonical_resumeCopies {s : State} (h : Canonical s) : Canonical (resumeCopies s) := by
  refine canonical_foldl _ _ s (fun t c ht => ?_) h
  split
  · rename_i hx
    exact keeps_asHart t c _ ht (fun _ hu => keeps_next (canonical_ite (canonical_reissueAll hu) hu)) _ hx
  · exact ht

theorem canonical_reachBarriers {s : State} (h : Canonical s) : Canonical (reachBarriers s) := by
  refine canonical_foldl _ _ s (fun t c ht => ?_) h
  split
  · rename_i hx
    exact keeps_asHart t c.cid _ ht (fun _ hu => keeps_next (canonical_reachBarrier hu)) _ hx
  · exact ht

theorem canonical_settle {s : State} (h : Canonical s) : Canonical (settle s) := by
  have hr : Canonical (reachBarriers (resumeCopies (restartService s))) :=
    canonical_reachBarriers (canonical_resumeCopies (canonical_restartService h))
  have hq (t : State) (p : Nat) (ht : Canonical t) : Canonical (markVictims ((part t p).hwSlots.foldl (freeQueueSlot p) t) p) :=
    canonical_markVictims (canonical_foldl _ _ t (fun _ _ hu => canonical_freeQueueSlot hu) ht)
  have hp := canonical_foldl (fun t p => markVictims ((part t p).hwSlots.foldl (freeQueueSlot p) t) p)
    (activeParts (reachBarriers (resumeCopies (restartService s)))) _ hq hr
  unfold settle
  simp only
  split
  · exact canonical_enterDevice (canonical_mapContexts hp)
  · exact canonical_mapContexts hp

theorem keeps_step {s : State} (h : Canonical s) : Keeps (step s) := by
  refine keeps_ite (keeps_thenNext (keeps_exec _ h) fun _ hu => canonical_endEvent hu) ?_
  split
  · exact keeps_thenNext (keeps_thenNext (keeps_exec _ h) fun _ hu => canonical_afterRebind hu) fun _ hu => canonical_endEvent hu
  · exact keeps_ite (keeps_eventTurn (canonical_setTock (canonical_settle h))) (keeps_instrTurn h)

/-- Settles O59: every operation of a step keeps the canonical form, so the step does. -/
theorem memoryCanonical : Obligations.MemoryCanonical := by
  unfold Obligations.MemoryCanonical
  intro s t hm hf hstep
  exact keeps_step ⟨hm, hf⟩ t hstep

end Sys2Proof.Machine
end

section
/-!
PROOF (O17, O20). What a trap entry leaves alone, and what an access of a control and status register comes to: the trap of a
failed check, the wait, the register's own rejection, or the state of the write.
-/

namespace Sys2Proof.Machine

open Sys2Proof.Claims

/-! ### What a trap entry leaves alone (R347) -/

/-- Without copies in the decoupling queue there is nothing to withdraw. -/
theorem withdrawQueued_of_no_copies {s : State} (h : ∀ q ∈ s.hart.queue, q.copy = none) : withdrawQueued s = s := by
  have hk : s.hart.queue.filterMap (·.copy) = [] := List.filterMap_eq_nil_iff.2 h
  have hc : s.copies.filter (fun c => ([] : List Nat).contains c.seq) = [] := List.filter_eq_nil_iff.2 fun _ _ => nofun
  simp only [withdrawQueued, hk, hc, List.foldl_nil]

theorem takeTrap_cpb (s : State) (async : Bool) (code : Nat) (tval epc : Word) :
    (takeTrap s async code tval epc).hart.csr.cpb = (withdrawQueued s).hart.csr.cpb := by unfold takeTrap; rfl

theorem takeTrap_vreg (s : State) (async : Bool) (code : Nat) (tval epc : Word) (v : Reg) :
    vreg (takeTrap s async code tval epc) v = { vreg (withdrawQueued s) v with busy := false } := by
  unfold takeTrap
  exact Vector.getElem_map (fun x : VReg => { x with busy := false }) v.isLt

/-- A trap entry leaves the rest of the hart alone. -/
theorem takeTrap_undisturbed (s : State) (async : Bool) (code : Nat) (tval epc : Word) :
    Undisturbed s (takeTrap s async code tval epc) := by
  obtain ⟨b, cs, es, hw⟩ := withdrawQueued_frame s
  refine { vregs := fun v => ?_, csr := ?_, barriers := fun hq => ?_, hart := ?_ }
  · rw [takeTrap_vreg, hw]
    rfl
  · unfold takeTrap
    rw [hw]
  · rw [takeTrap_cpb, withdrawQueued_of_no_copies hq]
  · unfold takeTrap
    simp only [hw, endFlight, landed, dropAhead]

/-- A synchronous cause outside a handler is taken as a trap that leaves the rest of the hart alone. -/
theorem raise_trapped {s : State} (h : Awake s) (e : Exc) :
    ∃ t, raise s e = .next t ∧ Trapped s t false e.code e.tval := by
  obtain ⟨hfree, hstopped, hhandler⟩ := h
  have ht : trap s e = takeTrap s false e.code e.tval s.hart.pc := by simp [trap, hstopped, hhandler]
  exact ⟨trap s e, rfl, ht ▸ ⟨takeTrap_enters s false e.code e.tval s.hart.pc hfree, takeTrap_undisturbed s _ _ _ _⟩⟩

/-! ### The permissions of R57 -/

/-- Every number of a row of R57's table has the permissions of the row. -/
theorem csrPerm_of_row {r : Nat × Nat × Nat × Nat} {n : Nat} (hr : r ∈ csrRows) (hlo : r.1 ≤ n) (hhi : n ≤ r.2.1) :
    csrPerm n = some r.2.2 := by
  have rows : ∀ r ∈ csrRows, ∀ k < r.2.1 + 1 - r.1, csrPerm (r.1 + k) = some r.2.2 := by decide +kernel
  have h := rows r hr (n - r.1) (by omega)
  rwa [Nat.add_sub_cancel' hlo] at h

/-- A number in no row of R57's table is not assigned. -/
theorem csrPerm_of_no_row {n : Nat} (h : ∀ r ∈ csrRows, ¬ (r.1 ≤ n ∧ n ≤ r.2.1)) : csrPerm n = none := by
  simp only [csrRows, List.forall_mem_cons] at h
  unfold csrPerm
  repeat rw [if_neg (by omega)]

/-- Check 1 of R57. -/
theorem csrCheck_unassigned {s : State} {n : Nat} {write : Bool} (h : csrPerm n = none) :
    csrCheck s n write = .error { code := 5, tval := BitVec.ofNat 64 n } := by
  unfold csrCheck
  rw [h]

/-- Check 2 of R57. -/
theorem csrCheck_denied {s : State} {n : Nat} {write : Bool} {p : Nat × Nat} (h : csrPerm n = some p)
    (hm : mode s < if write then p.2 else p.1) : csrCheck s n write = .error { code := 4, tval := BitVec.ofNat 64 n } := by
  unfold csrCheck
  rw [h]
  exact if_neg (Nat.not_le.2 hm)

theorem csrCheck_allowed {s : State} {n : Nat} {write : Bool} {p : Nat × Nat} (h : csrPerm n = some p)
    (hm : (if write then p.2 else p.1) ≤ mode s) : csrCheck s n write = .ok () := by
  unfold csrCheck
  rw [h]
  exact if_pos hm

/-! ### The accesses of R122 -/

/-- A checked access whose check fails raises the check's cause. -/
theorem checked_of_error {α : Type} {s : State} {x : Except Exc α} {e : Exc} (f : α → Out) (h : x = .error e) :
    checked s x f = raise s e := h ▸ rfl

/-- The three writing instructions store what the table of writers says. -/
theorem exec_csrWriter {p : (CsrNum → Reg → Instr) × (Word → Word → Word)} (hp : p ∈ csrWriters) (s : State) (csr : CsrNum)
    (a : Reg) :
    exec (p.1 csr a) s = csrStore s csr.toNat (p.2 (csrValue s csr.toNat) (gval s a)) fun t => .next (advance 4 t) := by
  simp only [csrWriters, List.mem_cons, List.not_mem_nil, or_false] at hp
  obtain rfl | rfl | rfl := hp <;> rfl

/-- A `csrrd` that the check refuses traps. -/
theorem csrrd_trapped {s : State} (hs : Awake s) (d : Reg) (csr : CsrNum) {code : Nat}
    (h : csrCheck s csr.toNat false = .error { code := code, tval := BitVec.ofNat 64 csr.toNat }) :
    ∃ t, exec (.csrrd d csr) s = .next t ∧ Trapped s t false code (csr.zeroExtend 64) := by
  rw [BitVec.zeroExtend, ← BitVec.ofNat_toNat]
  have hraise : exec (.csrrd d csr) s = raise s _ := checked_of_error _ h
  rw [hraise]
  exact raise_trapped hs _

/-- A `csrwr`, `csrset` or `csrclr` that the check refuses traps. -/
theorem csrWriter_trapped {s : State} (hs : Awake s) {p : (CsrNum → Reg → Instr) × (Word → Word → Word)} (hp : p ∈ csrWriters)
    (csr : CsrNum) (a : Reg) {code : Nat}
    (h : csrCheck s csr.toNat true = .error { code := code, tval := BitVec.ofNat 64 csr.toNat }) :
    ∃ t, exec (p.1 csr a) s = .next t ∧ Trapped s t false code (csr.zeroExtend 64) := by
  rw [exec_csrWriter hp, csrStore, checked_of_error _ h, BitVec.zeroExtend, ← BitVec.ofNat_toNat]
  exact raise_trapped hs _

/-- Settles O17: the rows of R57's table are the permissions that the first two checks of an access go by. -/
theorem csrPermissions : Obligations.CsrPermissions := by
  unfold Obligations.CsrPermissions
  intro s csr a hs
  refine ⟨fun hno => ?_, fun r hr hlo hhi => ⟨fun hm => ?_, fun hm _ p hp => ?_⟩⟩
  · have hperm : csrPerm csr.toNat = none := csrPerm_of_no_row hno
    exact ⟨csrrd_trapped hs a csr (csrCheck_unassigned hperm),
      fun p hp => csrWriter_trapped hs hp csr a (csrCheck_unassigned hperm)⟩
  · exact csrrd_trapped hs a csr (csrCheck_denied (csrPerm_of_row hr hlo hhi) hm)
  · exact csrWriter_trapped hs hp csr a (csrCheck_denied (csrPerm_of_row hr hlo hhi) hm)

end Sys2Proof.Machine
end

section
/-!
PROOF (O20). What a write of each register of R57's table with an effect of its own does, and the three ways in which a program
makes it: the event, the write of the number, `csrwr`. All three come to `csrStore`, so a row of `csrEvents` is settled by the law
of `csrWrite` for its number.
-/

namespace Sys2Proof.Machine

open Sys2Proof.Claims

/-! ### Which values a register takes -/

/-- The bits of a word from `lo` up are zero if it is below `2 ^ lo`. -/
theorem field_high_beq_zero (v : Word) {lo n : Nat} (h : lo + n = 64) : (field v lo n == 0) = decide (v.toNat < 2 ^ lo) := by
  have hlt : v.toNat / 2 ^ lo < 2 ^ n := Nat.div_lt_of_lt_mul (by rw [← Nat.pow_add, h]; exact v.isLt)
  rw [Bool.eq_iff_iff, beq_iff_eq, decide_eq_true_eq, field, Nat.mod_eq_of_lt hlt, Nat.div_eq_zero_iff_lt (Nat.two_pow_pos lo)]

/-- A well-formed binding names an object that the hart's partition owns (R194). -/
theorem wmOk_eq (s : State) (v : Word) : wmOk s v = (v == 0 || bindingOk s v) := by
  unfold wmOk bindingOk
  cases s.marks.find? (markKey v.toNat) <;> rfl

/-- The register whose number stands `r` above the first number `b` of its kind. -/
theorem ofNat_index {w : Nat} (b : Nat) (r : BitVec w) : BitVec.ofNat w (b + r.toNat - b) = r := by
  rw [Nat.add_sub_cancel_left, BitVec.ofNat_toNat, BitVec.setWidth_eq]

/-! ### The writes (R55, R58, R61, R76, R194, R255, R316, R332) -/

theorem writeLoopReg_eq (s : State) (r : LoopReg) (v : Word) : writeLoopReg s r v = loopWritten r s v := by
  unfold writeLoopReg loopWritten
  cases hd : s.hart.loops.depth <;> cases r <;> simp [hd]

/-- A hart that names a table with an open move stops (R76). -/
theorem stopForTable_eq (s : State) : stopForTable s = { s with hart := { s.hart with
    stopPending := false, stopped := s.hart.stopped || s.moves.any fun m => usesTable m s.hart } } := by
  unfold stopForTable
  cases s.moves.any fun m => usesTable m s.hart <;> simp

/-- A write of `slotbase` empties the cache of generations and may stop the hart (R61, R76). -/
theorem csrWrite_slotbase (s : State) (v : Word) :
    csrWrite s 0x030 v = if v.toNat < 2 ^ 52 && v.toNat % 32 == 0 then
      .ok { s with hart := { s.hart with
        csr := { s.hart.csr with slotbase := v }, genCache := [], stopPending := false
        stopped := s.hart.stopped ||
          s.moves.any fun m => s.hart.phase.live && v == m.table && (m.everyPart || s.hart.partId == m.partId) } }
      else .error 4 := by
  have hlow : field v 0 5 = v.toNat % 32 := by simp [field]
  unfold csrWrite
  repeat rw [if_neg (by omega)]
  rw [if_pos rfl, stopForTable_eq, hlow, field_high_beq_zero v rfl, Bool.and_comm]
  rfl

theorem csrWrite_wm (s : State) (n : BitVec 4) (v : Word) :
    csrWrite s (0x040 + n.toNat) v = if wmOk s v then .ok (setWm s n v) else .error 4 := by
  have := n.isLt
  unfold csrWrite
  repeat rw [if_neg (by omega)]
  rw [if_pos (by omega), ofNat_index, wmOk_eq]

theorem csrWrite_cpb (s : State) (n : Reg3) (v : Word) :
    csrWrite s (0x050 + n.toNat) v =
      if field v 48 2 == 0 && field v 56 7 == 0 then .ok (setCpb s n v) else .error 4 := by
  have := n.isLt
  unfold csrWrite
  repeat rw [if_neg (by omega)]
  rw [if_pos (by omega), ofNat_index, Bool.and_comm]

theorem csrWrite_vwb (s : State) (r : Reg) (v : Word) :
    csrWrite s (0x060 + r.toNat) v = if decide (v.toNat < 2 ^ 11) then
      .ok (setVreg s r { vreg s r with win := { (vreg s r).win with base := v.truncate 11 } }) else .error 4 := by
  have := r.isLt
  unfold csrWrite
  repeat rw [if_neg (by omega)]
  rw [if_pos (by omega), ofNat_index, field_high_beq_zero v rfl]

theorem csrWrite_vwl (s : State) (r : Reg) (v : Word) :
    csrWrite s (0x080 + r.toNat) v = if decide (v.toNat ≤ 2048) then
      .ok (setVreg s r { vreg s r with win := { (vreg s r).win with len := v.truncate 12 } }) else .error 4 := by
  have := r.isLt
  unfold csrWrite
  repeat rw [if_neg (by omega)]
  rw [if_pos (by omega), ofNat_index]

theorem csrWrite_kwb (s : State) (r : Reg3) (v : Word) :
    csrWrite s (0x0D0 + r.toNat) v = if decide (v.toNat < 2 ^ 11) then
      .ok (setKreg s r { kreg s r with win := { (kreg s r).win with base := v.truncate 11 } }) else .error 4 := by
  have := r.isLt
  unfold csrWrite
  repeat rw [if_neg (by omega)]
  rw [if_pos (by omega), ofNat_index, field_high_beq_zero v rfl]

theorem csrWrite_kwl (s : State) (r : Reg3) (v : Word) :
    csrWrite s (0x0D8 + r.toNat) v = if decide (v.toNat ≤ 2048) then
      .ok (setKreg s r { kreg s r with win := { (kreg s r).win with len := v.truncate 12 } }) else .error 4 := by
  have := r.isLt
  unfold csrWrite
  repeat rw [if_neg (by omega)]
  rw [if_pos (by omega), ofNat_index]

/-- Outside the replicas of a parallel loop every loop register is written (R255). -/
theorem csrWrite_loopReg (s : State) (r : LoopReg) (v : Word) (h : r = .lpcount ∨ s.hart.par = none) :
    csrWrite s (loopRegNum r) v = .ok (loopWritten r s v) := by
  rw [← writeLoopReg_eq]
  cases r with
  | lpcount => rfl
  | lpstart | lpend =>
    have hpar : ¬ s.hart.par.isSome = true := by simpa using h
    exact if_neg hpar

/-- In a replica of a parallel loop `lpstart` and `lpend` are not written (R257). -/
theorem csrWrite_loopReg_replica (s : State) (r : LoopReg) (v : Word) (hr : r ≠ .lpcount) (h : s.hart.par ≠ none) :
    csrWrite s (loopRegNum r) v = .error 1 := by
  have hpar : s.hart.par.isSome = true := Option.isSome_iff_ne_none.2 h
  cases r with
  | lpcount => exact absurd rfl hr
  | lpstart | lpend => exact if_pos hpar

/-! ### A write after the checks of R57 -/

theorem csrStore_of_ok {s t : State} {n : Nat} {v : Word} {go : State → Out} (hc : csrCheck s n true = .ok ())
    (hw : csrWaits s true n = false) (h : csrWrite s n v = .ok t) : csrStore s n v go = go t := by
  simp [csrStore, checked, hc, hw, h]

theorem csrStore_of_error {s : State} {n c : Nat} {v : Word} {go : State → Out} (hc : csrCheck s n true = .ok ())
    (hw : csrWaits s true n = false) (h : csrWrite s n v = .error c) :
    csrStore s n v go = raise s { code := c, tval := if c = 4 then BitVec.ofNat 64 n else 0 } := by
  simp [csrStore, checked, hc, hw, h]

/-- Only a write of `slotbase` and an access of `vxstat` wait (R60, R61). -/
theorem csrWaits_write {s : State} {n : Nat} (hx : n ≠ 0x014) (hq : n = 0x030 → vectorQuiet s = true) :
    csrWaits s true n = false := by
  by_cases hn : n = 0x030
  · simp [csrWaits, hn, hq hn]
  · simp [csrWaits, hn, hx]

theorem csrEvent_of_present {s : State} {n : Nat} {v : Word} (h : s.hart.phase ≠ .free) :
    csrEvent s n v = csrStore s n v .next := if_neg h

/-! ### The rows with an effect of their own -/

/-- A row of the events says of its register what the model does: the number stands in R57's table with the row's least mode of
a writer, the event is the write of the number, and the write takes the row's values and leaves the row's state. -/
structure EventLaws (r : CsrEvent) : Prop where
  row : ∃ q ∈ csrRows, q.1 ≤ r.num ∧ r.num ≤ q.2.1 ∧ q.2.2.2 = r.write
  num_ne : r.num ≠ 0x014
  event : ∀ s v, exec (r.event v) s = csrEvent s r.num v
  write : ∀ s v, csrWrite s r.num v = if r.ok s v then .ok (r.after s v) else .error 4

/-- The numbers of R57's table have 12 bits. -/
theorem csrRows_lt : ∀ q ∈ csrRows, q.2.1 < 2 ^ 12 := by decide

/-- The number of a row as a CSR number. -/
theorem EventLaws.toNat_num {r : CsrEvent} (h : EventLaws r) : (BitVec.ofNat 12 r.num).toNat = r.num := by
  obtain ⟨q, hq, -, hhi, -⟩ := h.row
  rw [BitVec.toNat_ofNat, Nat.mod_eq_of_lt (Nat.lt_of_le_of_lt hhi (csrRows_lt q hq))]

/-- A write of a row's register, in a mode that may write, comes to the row's state or to cause 4. -/
theorem EventLaws.csrStore_eq {r : CsrEvent} (h : EventLaws r) {s : State} (hm : r.write ≤ mode s)
    (hq : r.num = 0x030 → vectorQuiet s = true) (v : Word) (go : State → Out) :
    csrStore s r.num v go =
      if r.ok s v then go (r.after s v) else raise s { code := 4, tval := BitVec.ofNat 64 r.num } := by
  obtain ⟨q, hq', hlo, hhi, hwrite⟩ := h.row
  have hc : csrCheck s r.num true = .ok () := csrCheck_allowed (csrPerm_of_row hq' hlo hhi) (hwrite ▸ hm)
  have hw : csrWaits s true r.num = false := csrWaits_write h.num_ne hq
  have hv := h.write s v
  by_cases hok : r.ok s v = true
  · rw [if_pos hok] at hv ⊢
    exact csrStore_of_ok hc hw hv
  · rw [if_neg hok] at hv ⊢
    exact csrStore_of_error hc hw hv

/-- The laws of register `k` of several whose numbers begin at `b`, above `vxstat`, in one row of R57's table. -/
theorem EventLaws.of_range {lo hi rd wr b k : Nat} {event : Word → Instr} {ok : State → Word → Bool}
    {after : State → Word → State} (hq : (lo, hi, rd, wr) ∈ csrRows) (hx : 0x014 < b) (hlo : lo ≤ b) (hhi : b + k ≤ hi)
    (hevent : b + k < 2 ^ 12 → ∀ s v, exec (event v) s = csrEvent s (b + k) v)
    (hwrite : ∀ s v, csrWrite s (b + k) v = if ok s v then .ok (after s v) else .error 4) :
    EventLaws ⟨event, b + k, wr, ok, after⟩ where
  row := ⟨_, hq, Nat.le_add_right_of_le hlo, hhi, rfl⟩
  num_ne := Nat.ne_of_gt (Nat.lt_add_right k hx)
  event := hevent (Nat.lt_of_le_of_lt hhi (csrRows_lt _ hq))
  write := hwrite

/-- A write by the number of register `k` of several whose numbers begin at `b`. -/
theorem exec_registerWrite_csr (b k : Nat) (h : b + k < 2 ^ 12) (s : State) (v : Word) :
    exec (.registerWrite (.csr (BitVec.ofNat 12 b + BitVec.ofNat 12 k)) v) s = csrEvent s (b + k) v := by
  have hn : (BitVec.ofNat 12 b + BitVec.ofNat 12 k).toNat = b + k := by
    rw [← BitVec.ofNat_add, BitVec.toNat_ofNat, Nat.mod_eq_of_lt h]
  exact congrArg (csrEvent s · v) hn

/-- What holds of every entry of a table of registers holds of each register. -/
theorem forall_mem_ofFn {α : Type} {n : Nat} {f : Fin n → α} {p : α → Prop} : (∀ x ∈ List.ofFn f, p x) ↔ ∀ i, p (f i) := by
  refine ⟨fun h i => h _ (List.mem_ofFn.2 ⟨i, rfl⟩), fun h x hx => ?_⟩
  obtain ⟨i, rfl⟩ := List.mem_ofFn.1 hx
  exact h i

/-- Every row of the events has the laws. -/
theorem eventLaws_of_mem_csrEvents : ∀ r ∈ csrEvents, EventLaws r := by
  simp only [csrEvents, List.forall_mem_append, List.forall_mem_cons, forall_mem_ofFn, List.not_mem_nil,
    false_imp_iff, implies_true, and_true]
  refine ⟨⟨⟨⟨⟨⟨⟨?vl, ?vstart, ?strip, ?lpcount, ?slotbase, ?notifybm⟩, ?wm⟩, ?cpb⟩, ?vwb⟩, ?vwl⟩, ?kwb⟩, ?kwl⟩
  case vl => exact ⟨⟨(0x010, 0x011, 0, 1), by decide⟩, by decide, fun _ _ => rfl, fun _ _ => rfl⟩
  case vstart => exact ⟨⟨(0x012, 0x012, 0, 0), by decide⟩, by decide, fun _ _ => rfl, fun _ _ => rfl⟩
  case strip => exact ⟨⟨(0x020, 0x020, 0, 1), by decide⟩, by decide, fun _ _ => rfl, fun _ _ => rfl⟩
  case lpcount =>
    exact ⟨⟨(0x021, 0x023, 0, 0), by decide⟩, by decide, fun _ _ => rfl,
      fun s v => csrWrite_loopReg s .lpcount v (.inl rfl)⟩
  case slotbase => exact ⟨⟨(0x030, 0x030, 0, 1), by decide⟩, by decide, fun _ _ => rfl, csrWrite_slotbase⟩
  case notifybm => exact ⟨⟨(0x110, 0x110, 1, 1), by decide⟩, by decide, fun _ _ => rfl, fun _ _ => rfl⟩
  case wm =>
    exact fun n => .of_range (by decide : (0x040, 0x04F, 0, 1) ∈ csrRows) (by decide) (by decide) (by omega)
      (fun _ _ _ => rfl) fun s => csrWrite_wm s (BitVec.ofFin n)
  case cpb =>
    exact fun n => .of_range (by decide : (0x050, 0x057, 0, 1) ∈ csrRows) (by decide) (by decide) (by omega)
      (fun _ _ _ => rfl) fun s => csrWrite_cpb s (BitVec.ofFin n)
  case vwb =>
    exact fun n => .of_range (by decide : (0x060, 0x09F, 0, 0) ∈ csrRows) (by decide) (by decide) (by omega)
      (exec_registerWrite_csr 0x060 n) fun s => csrWrite_vwb s (BitVec.ofFin n)
  case vwl =>
    exact fun n => .of_range (by decide : (0x060, 0x09F, 0, 0) ∈ csrRows) (by decide) (by decide) (by omega)
      (exec_registerWrite_csr 0x080 n) fun s => csrWrite_vwl s (BitVec.ofFin n)
  case kwb =>
    exact fun n => .of_range (by decide : (0x0D0, 0x0DF, 0, 0) ∈ csrRows) (by decide) (by decide) (by omega)
      (exec_registerWrite_csr 0x0D0 n) fun s => csrWrite_kwb s (BitVec.ofFin n)
  case kwl =>
    exact fun n => .of_range (by decide : (0x0D0, 0x0DF, 0, 0) ∈ csrRows) (by decide) (by decide) (by omega)
      (exec_registerWrite_csr 0x0D8 n) fun s => csrWrite_kwl s (BitVec.ofFin n)

/-- A write of a register with an effect of its own completes, as an event, as the write of its number and by `csrwr`. -/
theorem EventLaws.completes {r : CsrEvent} (h : EventLaws r) {s : State} {v : Word} (hs : s.hart.phase ≠ .free)
    (hm : r.write ≤ mode s) (hq : r.num = 0x030 → vectorQuiet s = true) (hok : r.ok s v = true) :
    exec (r.event v) s = .next (r.after s v) ∧
      exec (.registerWrite (.csr (BitVec.ofNat 12 r.num)) v) s = .next (r.after s v) ∧
      ∀ a, gval s a = v → exec (.csrwr (BitVec.ofNat 12 r.num) a) s = .next (advance 4 (r.after s v)) := by
  have hstore (go : State → Out) : csrStore s r.num v go = go (r.after s v) := by rw [h.csrStore_eq hm hq, if_pos hok]
  have hevent : csrEvent s r.num v = .next (r.after s v) := (csrEvent_of_present hs).trans (hstore _)
  refine ⟨(h.event s v).trans hevent, (congrArg (csrEvent s · v) h.toNat_num).trans hevent, ?_⟩
  rintro a rfl
  exact (congrArg (csrStore s · _ fun t => .next (advance 4 t)) h.toNat_num).trans (hstore _)

/-- A value that the register does not take traps. -/
theorem EventLaws.rejects {r : CsrEvent} (h : EventLaws r) {s : State} {v : Word} (hs : Awake s)
    (hm : r.write ≤ mode s) (hq : r.num = 0x030 → vectorQuiet s = true) (hok : r.ok s v = false) :
    ∃ t, exec (r.event v) s = .next t ∧ Trapped s t false 4 (BitVec.ofNat 64 r.num) := by
  rw [h.event, csrEvent_of_present hs.1, h.csrStore_eq hm hq, if_neg (Bool.eq_false_iff.1 hok)]
  exact raise_trapped hs _

/-! ### The loop registers outside and in a replica (R255, R257) -/

theorem csrCheck_loopReg (s : State) (r : LoopReg) : csrCheck s (loopRegNum r) true = .ok () := by
  have hrow : 0x021 ≤ loopRegNum r ∧ loopRegNum r ≤ 0x023 := by cases r <;> decide
  have hmem : (0x021, 0x023, 0, 0) ∈ csrRows := by decide
  exact csrCheck_allowed (csrPerm_of_row hmem hrow.1 hrow.2) (Nat.zero_le _)

theorem csrWaits_loopReg (s : State) (r : LoopReg) : csrWaits s true (loopRegNum r) = false := by cases r <;> rfl

/-- Outside the replicas of a parallel loop every loop register is written. -/
theorem exec_loopRegisterWrite {s : State} {r : LoopReg} (v : Word) (hs : s.hart.phase ≠ .free)
    (h : r = .lpcount ∨ s.hart.par = none) : exec (.loopRegisterWrite r v) s = .next (loopWritten r s v) :=
  (csrEvent_of_present hs).trans (csrStore_of_ok (csrCheck_loopReg s r) (csrWaits_loopReg s r) (csrWrite_loopReg s r v h))

/-- In a replica `lpstart` and `lpend` raise cause 1. -/
theorem exec_loopRegisterWrite_replica {s : State} {r : LoopReg} (v : Word) (hs : s.hart.phase ≠ .free) (hr : r ≠ .lpcount)
    (h : s.hart.par ≠ none) : exec (.loopRegisterWrite r v) s = raise s { code := 1, tval := 0 } :=
  (csrEvent_of_present hs).trans
    (csrStore_of_error (csrCheck_loopReg s r) (csrWaits_loopReg s r) (csrWrite_loopReg_replica s r v hr h))

/-- Settles O20: every row of the events has the laws, and the loop registers are written or trap. -/
theorem csrWriteEvents : Obligations.CsrWriteEvents := by
  unfold Obligations.CsrWriteEvents
  refine ⟨fun r hr s v hs hm hq => ?_, fun r hr s v => ⟨fun hpar hs => ?_, fun hpar hs => ?_⟩⟩
  · have laws : EventLaws r := eventLaws_of_mem_csrEvents r hr
    exact ⟨laws.completes hs hm hq, fun hok hawake => laws.rejects hawake hm hq hok⟩
  · exact exec_loopRegisterWrite v hs (.inr hpar)
  · rw [exec_loopRegisterWrite_replica v hs.1 hr hpar]
    exact raise_trapped hs _

end Sys2Proof.Machine
end

section
/-!
PROOF (O7). The checks of R72 that fail at issue, and the scalar loads and stores that they turn away.
-/

namespace Sys2Proof.Machine

open Sys2Proof.Claims

/-! ### Checks of R72 that fail -/

/-- Checks that fail at issue fail as a whole. -/
theorem checkFull_of_issue_error {s : State} {k : Acc} {tag : BitVec 8} {a n al : Nat} {e : Exc}
    (h : checkIssue s k tag a n al = .error e) : checkFull s k tag a n al = .error e := by
  unfold checkFull
  rw [h]
  rfl

theorem checkStore_of_issue_error {s : State} {tag : BitVec 8} {x n al : Nat} {e : Exc}
    (h : checkIssue s .store tag x n al = .error e) : checkStore s tag x n al = .error e := by
  unfold checkStore
  rw [h]
  rfl

theorem checkIssue_of_access_error {s : State} {k : Acc} {tag : BitVec 8} {a n al : Nat} {e : Exc}
    (h : checkAccess s k tag a n al = .error e) : checkIssue s k tag a n al = .error e := by
  unfold checkIssue
  rw [h]
  rfl

/-- Check 1: the conflict tag comes before everything else. -/
theorem checkIssue_conflict (s : State) (k : Acc) (a n al : Nat) : checkIssue s k 255 a n al = .error (excAt 20 a) := rfl

/-- Through an untagged register the checks begin with check 4. -/
theorem checkAccess_untagged (s : State) (k : Acc) (a n al : Nat) :
    checkAccess s k 0 a n al = checkAlign k a al >>= fun _ => checkPlain s k a n := rfl

theorem checkIssue_misaligned {s : State} {k : Acc} {a n al : Nat} (h : a % al ≠ 0) :
    checkIssue s k 0 a n al = .error (excAt (if k.writes then 19 else 18) a) := by
  refine checkIssue_of_access_error ?_
  rw [checkAccess_untagged, checkAlign, if_neg h]
  rfl

/-- A hole of the map fails check 5 at its first byte (R64). -/
theorem checkPlain_hole {s : State} {k : Acc} {a n : Nat} (h : placeOf a = .hole) :
    checkPlain s k a n = .error (excAt k.bounds a) := by
  have hmap : checkMap s k a n = .error (excAt k.bounds a) := by simp [checkMap, checkPoints, byteCause, h]
  rw [checkPlain, hmap]
  rfl

theorem checkIssue_hole {s : State} {k : Acc} {a n al : Nat} (hal : a % al = 0) (h : placeOf a = .hole) :
    checkIssue s k 0 a n al = .error (excAt k.bounds a) := by
  refine checkIssue_of_access_error ?_
  rw [checkAccess_untagged, checkAlign, if_pos hal]
  exact checkPlain_hole h

/-! ### Scalar accesses whose checks fail -/

/-- A load whose checks fail raises their cause once it has taken its lease ID (R140). -/
theorem scalarLoad_traps {s : State} (hs : Awake s) {len : Nat} {d a : Reg} {off : Word} {sz : Nat} {conv : Nat → Word} {e : Exc}
    (h : checkIssue s .load (baseTag s a) (effAddr s a off) sz sz = .error e) :
    ∃ t, scalarLoad s len d a off sz conv = .next t ∧ Entered (takeId s) t false e.code e.tval s.hart.pc := by
  have hraise : scalarLoad s len d a off sz conv = raise (takeId s) e := by
    simp only [scalarLoad, checkFull_of_issue_error h]
  rw [hraise]
  exact raise_enters (takeId s) e hs.1 hs.2.1 hs.2.2

/-- Every load of R112 is `scalarLoad` of its size. -/
theorem exec_loadForm {p : (Reg → Reg → BitVec 12 → Instr) × Nat × Bool} (hp : p ∈ loadForms) (s : State) (d a : Reg)
    (imm : BitVec 12) : ∃ conv, exec (p.1 d a imm) s = scalarLoad s 4 d a (imm.signExtend 64) p.2.1 conv := by
  simp only [loadForms, List.mem_cons, List.not_mem_nil, or_false] at hp
  obtain rfl | rfl | rfl | rfl | rfl | rfl | rfl | rfl | rfl | rfl | rfl | rfl | rfl | rfl := hp <;> exact ⟨_, rfl⟩

/-- Every store of R112, plain or release, goes on behind the checks of a store. -/
theorem exec_storeForm {p : (Reg → Reg → BitVec 12 → Instr) × Nat × Bool} (hp : p ∈ storeForms) (s : State) (b a : Reg)
    (imm : BitVec 12) :
    ∃ go, exec (p.1 b a imm) s = checked s (checkStore s (gpr s a).tag (loadAddr s a imm) p.2.1 p.2.1) go := by
  simp only [storeForms, List.mem_cons, List.not_mem_nil, or_false] at hp
  obtain rfl | rfl | rfl | rfl | rfl | rfl | rfl | rfl := hp <;> exact ⟨_, rfl⟩

theorem loadForm_traps {p : (Reg → Reg → BitVec 12 → Instr) × Nat × Bool} (hp : p ∈ loadForms) {s : State} (hs : Awake s)
    (d : Reg) {a : Reg} {imm : BitVec 12} {e : Exc}
    (h : checkIssue s .load (gpr s a).tag (loadAddr s a imm) p.2.1 p.2.1 = .error e) :
    ∃ t, exec (p.1 d a imm) s = .next t ∧ Entered (takeId s) t false e.code e.tval s.hart.pc := by
  obtain ⟨conv, hexec⟩ := exec_loadForm hp s d a imm
  rw [hexec]
  exact scalarLoad_traps hs h

theorem storeForm_traps {p : (Reg → Reg → BitVec 12 → Instr) × Nat × Bool} (hp : p ∈ storeForms) {s : State} (hs : Awake s)
    (b : Reg) {a : Reg} {imm : BitVec 12} {e : Exc}
    (h : checkIssue s .store (gpr s a).tag (loadAddr s a imm) p.2.1 p.2.1 = .error e) :
    ∃ t, exec (p.1 b a imm) s = .next t ∧ Entered s t false e.code e.tval s.hart.pc := by
  obtain ⟨go, hexec⟩ := exec_storeForm hp s b a imm
  rw [hexec, checked_of_error go (checkStore_of_issue_error h)]
  exact raise_enters s e hs.1 hs.2.1 hs.2.2

theorem misalignedTraps : MisalignedTraps :=
  ⟨fun _ hp _ d _ _ hs htag hmis => loadForm_traps hp hs d (htag ▸ checkIssue_misaligned hmis),
    fun _ hp _ b _ _ hs htag hmis => storeForm_traps hp hs b (htag ▸ checkIssue_misaligned hmis)⟩

theorem addressesTrap : AddressesTrap :=
  ⟨fun _ hp _ d _ _ hs => ⟨fun htag => loadForm_traps hp hs d (htag ▸ checkIssue_conflict _ _ _ _ _),
      fun htag hal hhole => loadForm_traps hp hs d (htag ▸ checkIssue_hole hal hhole)⟩,
    fun _ hp _ b _ _ hs => ⟨fun htag => storeForm_traps hp hs b (htag ▸ checkIssue_conflict _ _ _ _ _),
      fun htag hal hhole => storeForm_traps hp hs b (htag ▸ checkIssue_hole hal hhole)⟩⟩

/-- Settles O7: each of the three checks fails at issue, and a load or store whose checks fail at issue traps. -/
theorem accessTraps : Obligations.AccessTraps := by
  unfold Obligations.AccessTraps
  exact ⟨misalignedTraps, addressesTrap⟩

end Sys2Proof.Machine
end

section
/-!
PROOF (O25). Slot records as `lslot` reads them (R68, R69), slot tags and lease sets (R109, R110).
-/

namespace Sys2Proof.Machine

open Sys2Proof.Claims

/-! ### The number at an address -/

theorem sum_map_mul_left {α : Type} (c : Nat) (f : α → Nat) (l : List α) :
    (l.map fun i => c * f i).sum = c * (l.map f).sum := by
  induction l with
  | nil => rfl
  | cons i l ih => rw [List.map_cons, List.sum_cons, ih, List.map_cons, List.sum_cons, Nat.mul_add]

theorem numberAt_succ (s : State) (x n : Nat) :
    numberAt s x (n + 1) = (readByte s x).toNat + 256 * numberAt s (x + 1) n := by
  have hshift : ∀ i, (readByte s (x + (i + 1))).toNat * 256 ^ (i + 1) = 256 * ((readByte s (x + 1 + i)).toNat * 256 ^ i) :=
    fun i => by
      rw [Nat.add_right_comm x 1 i, Nat.add_assoc x i 1, Nat.pow_succ, Nat.mul_left_comm 256, Nat.mul_comm (256 ^ i)]
  simp only [numberAt, ← List.sum_eq_foldl, List.range_succ_eq_map, List.map_cons, List.map_map, List.sum_cons, Function.comp_def,
    Nat.succ_eq_add_one, hshift, sum_map_mul_left, Nat.add_zero, Nat.pow_zero, Nat.mul_one]

/-- The model's little-endian number is the sum of the bytes by their places (R3). -/
theorem readNat_eq_numberAt (s : State) (x n : Nat) : readNat s x n = numberAt s x n := by
  induction n generalizing x with
  | zero => rfl
  | succ n ih =>
    rw [numberAt_succ, ← ih]
    rfl

/-! ### Slot records (R68, R69) -/

theorem slotNumOk_iff (n : BitVec 8) : slotNumOk n = true ↔ NamesRecord n := by simp [slotNumOk, NamesRecord]

/-- A record that may be read is its fields, or cause 1 for a reserved bit (R8). -/
theorem checkedRecord_of_read {s : State} {x : Nat} (h : RecordRead s x) :
    checkedRecord s x = if ReservedClear s x then .ok (recordAt s x) else .error { code := 1, tval := 0 } := by
  simp only [checkedRecord, h.far, h.clean, readNat_eq_numberAt]
  by_cases hc : ReservedClear s x
  · rw [if_pos hc, if_neg]
    · rfl
    · omega
  · rw [if_neg hc, if_pos]
    · rfl
    · omega

/-- `lslot` of a record that may be read meets none of the causes that come before the record's own. -/
theorem lslotRecord_of_read {s : State} {n : BitVec 8} (h : RecordRead s (slotAddr s.hart.csr.slotbase n)) :
    lslotRecord s n = checkedRecord s (slotAddr s.hart.csr.slotbase n) := by
  unfold slotAddr at h ⊢
  simp only [lslotRecord, readRecord, recordAddr, h.checks, h.unwatched, h.outside]
  rfl

/-- The generation of a record, cached (R69). -/
def cacheGen (s : State) (n : BitVec 8) (gen : BitVec 32) : State :=
  { s with hart := { s.hart with genCache := s.hart.genCache.set n.toNat gen } }

theorem sameMemory_cacheGen (s : State) (n : BitVec 8) (gen : BitVec 32) : SameMemory s (cacheGen s n gen) :=
  sameMemory_hart s _ rfl rfl rfl Iff.rfl

/-- `lslot` of a record that may be read goes by what the record holds. -/
theorem exec_lslot_of_read {s : State} {n : BitVec 8} (d : Reg) (hn : NamesRecord n)
    (h : RecordRead s (slotAddr s.hart.csr.slotbase n)) :
    exec (.lslot d n) s = checked s (checkedRecord s (slotAddr s.hart.csr.slotbase n)) fun r =>
      finish (cacheGen s n r.gen) 4 d { val := BitVec.ofNat 64 r.base, tag := n, lease := {} } := by
  have hwait : mustWait s false (recordAddr s.hart.csr.slotbase n) 32 = false := h.ready
  show execLslot d n s = _
  simp only [execLslot, (slotNumOk_iff n).2 hn, hwait, lslotRecord_of_read h, Bool.not_true, Bool.false_eq_true, if_false]
  rfl

theorem lslot_writes {s : State} {n : BitVec 8} (d : Reg) (hn : NamesRecord n)
    (h : RecordReadable s (slotAddr s.hart.csr.slotbase n)) :
    let r := recordAt s (slotAddr s.hart.csr.slotbase n)
    ∃ t, exec (.lslot d n) s = .next t ∧ SameMemory s t ∧
      Wrote (cacheGen s n r.gen) t 4 d { val := BitVec.ofNat 64 r.base, tag := n, lease := {} } := by
  intro r
  obtain ⟨hread, hclear⟩ := h
  obtain ⟨t, ht, hw⟩ := finish_wrote (cacheGen s n r.gen) 4 d { val := BitVec.ofNat 64 r.base, tag := n, lease := {} }
  refine ⟨t, ?_, (sameMemory_cacheGen s n r.gen).trans hw.memory, hw⟩
  rw [exec_lslot_of_read d hn hread, checkedRecord_of_read hread, if_pos hclear]
  exact ht

theorem lslot_reserved_traps {s : State} {n : BitVec 8} (hs : Awake s) (d : Reg) (hn : NamesRecord n)
    (h : RecordRead s (slotAddr s.hart.csr.slotbase n)) (hr : ¬ ReservedClear s (slotAddr s.hart.csr.slotbase n)) :
    ∃ t, exec (.lslot d n) s = .next t ∧ Trapped s t false 1 0 := by
  have herr := (checkedRecord_of_read h).trans (if_neg hr)
  rw [exec_lslot_of_read d hn h, checked_of_error _ herr]
  exact raise_trapped hs _

theorem lslot_number_traps {s : State} {n : BitVec 8} (hs : Awake s) (d : Reg) (hn : ¬ NamesRecord n) :
    ∃ t, exec (.lslot d n) s = .next t ∧ Trapped s t false 1 (instrBits (.lslot d n)) := by
  have hraise : exec (.lslot d n) s = raise s { code := 1, tval := instrBits (.lslot d n) } := by
    have hno : slotNumOk n = false := Bool.eq_false_iff.2 fun h => hn ((slotNumOk_iff n).1 h)
    show execLslot d n s = _
    simp only [execLslot, hno, Bool.not_false, if_true]
  rw [hraise]
  exact raise_trapped hs _

/-! ### Lease sets (R110) -/

theorem vreg_setVreg_same (s : State) (v : Reg) (x : VReg) : vreg (setVreg s v x) v = x :=
  Vector.getElem_set_self ..

theorem vreg_setVreg_other {s : State} {v w : Reg} (x : VReg) (h : w ≠ v) : vreg (setVreg s v x) w = vreg s w :=
  Vector.getElem_set_ne v.isLt w.isLt fun e => h (BitVec.eq_of_toNat_eq e.symm)

theorem vlclr_clears (s : State) (v : Reg) :
    ∃ t, exec (.vlclr v) s = .next t ∧ vreg t v = { vreg s v with lease := {} } ∧
      (∀ w, w ≠ v → vreg t w = vreg s w) ∧ SameMemory s t ∧
      t = advance 4 { s with hart := { s.hart with vregs := t.hart.vregs } } :=
  ⟨_, rfl, vreg_setVreg_same s v _, fun _ h => vreg_setVreg_other _ h, sameMemory_hart s _ rfl rfl rfl Iff.rfl, rfl⟩

/-- Settles O25: `lslot` goes by what the record holds, and the instructions on tags and lease sets write one register. -/
theorem slotsAndLeases : Obligations.SlotsAndLeases := by
  unfold Obligations.SlotsAndLeases
  refine ⟨fun s d n => ⟨fun hn h => ?_, fun hn h hr hs => lslot_reserved_traps hs d hn h hr,
    fun hn hs => lslot_number_traps hs d hn⟩, fun s d a => ⟨?_, ?_, ?_⟩, vlclr_clears⟩
  · obtain ⟨t, ht, hmem, hw⟩ := lslot_writes d hn h
    exact ⟨t, _, ht, hmem, rfl, hw⟩
  · exact finish_wrote s 4 d _
  · exact ⟨_, rfl, wrote_setGpr s 4 d _⟩
  · exact ⟨_, rfl, wrote_setGpr s 4 d _⟩

end Sys2Proof.Machine
end

section
/-!
PROOF (O26). A commit of a move that does not wait for a vector store of its manager (R15, R78).
-/

namespace Sys2Proof.Machine

open Sys2Proof.Claims

/-- A manager in mode D that has left a parallel loop and holds an open move of slot 1 of the table at 0x3000: a byte that a vector
store of the loop's first replica has written to 0x5000 has still to perform (log 54). -/
def commitAhead : State :=
  let m : Move :=
    { manager := 1, table := 0x3000, slot := 1, oldBase := 0, oldSize := 0, everyPart := true, partId := 12, done := true, pc := 0
      d := 1, lease := {} }
  let p : Posted := { addr := 0x5000, data := [7], tags := [0], slab := some 0, vec := true, part := some 0x5000 }
  let s := firstLaunch State.reset
  setGpr { s with hart := { s.hart with posted := [p] }, moves := [m] } 2 { val := 0x3000, tag := 0, lease := {} }

/-- `mvcommit` waits for the stores of the scalar agent alone (`scalarQuiet`): the move commits while the vector store still stands. -/
theorem commitAhead_commits :
    ∃ t, exec (.mvcommit 1 2 1) commitAhead = .next t ∧ t.moves = [] ∧ t.hart.posted = commitAhead.hart.posted :=
  ⟨_, rfl, by decide +kernel, by decide +kernel⟩

/-- Refutes O26: its clause that `mvcommit` waits at every posted store of the manager fails for a vector store, behind which the
move of `commitAhead` commits. -/
theorem not_moves : ¬ Obligations.Moves := by
  unfold Obligations.Moves
  rintro ⟨-, -, -, hwaits, -⟩
  have hstall : exec (.mvcommit 1 2 1) commitAhead = .next commitAhead :=
    hwaits commitAhead 1 2 1 (by decide +kernel) (by decide) (by decide +kernel)
  obtain ⟨t, hcommit, hmoves, -⟩ := commitAhead_commits
  obtain rfl : t = commitAhead := Host.Outcome.next.inj (hcommit.symm.trans hstall)
  exact absurd hmoves (by decide +kernel)

end Sys2Proof.Machine
end

section
/-!
PROOF (O52). A save of two members that leaves a context with the phase free as the current one (R340).

Each member is saved as the current hart. Behind the first one no hart is current, and the second one comes in from its place in the
list of the others, which the hart that was current marks by its number, 0. Nothing in `Distinct` keeps a context with the phase free
and the number 0 out of that list, and one that stands before the place is taken for the hart that was current.
-/

namespace Sys2Proof.Machine

open Sys2Proof.Claims

/-! ### What a save does to the contexts that hold slots -/

/-- What no step of a fold changes is the same behind the fold. -/
theorem foldl_unchanged {α β : Type} {f : State → α → State} {g : State → β} (h : ∀ s a, g (f s a) = g s) (l : List α)
    (s : State) : g (l.foldl f s) = g s := by
  induction l generalizing s with
  | nil => rfl
  | cons a l ih => rw [List.foldl_cons, ih, h]

theorem writeArea_hart (s : State) (h : Hart) : (writeArea s h).hart = s.hart := by
  simp only [writeArea]
  exact foldl_unchanged (g := State.hart) (fun _ _ => by rfl) _ s

theorem writeArea_others (s : State) (h : Hart) : (writeArea s h).others = s.others := by
  simp only [writeArea]
  exact foldl_unchanged (g := State.others) (fun _ _ => by rfl) _ s

/-- The state behind the save of the current hart, which has the number `c`. -/
def currentSaved (c : Nat) (s : State) : State :=
  let k := savedHart s
  let u := logCopies { s with hart := {}, saved := s.saved ++ [k], draws := s.draws + 1 } c
  if k.areaWritten then writeArea u k else u

@[simp] theorem currentSaved_hart (c : Nat) (s : State) : (currentSaved c s).hart = {} := by
  simp only [currentSaved]
  split
  · exact writeArea_hart _ _
  · rfl

@[simp] theorem currentSaved_others (c : Nat) (s : State) : (currentSaved c s).others = s.others := by
  simp only [currentSaved]
  split
  · exact writeArea_others _ _
  · rfl

theorem asHart_current {s : State} (h : s.hart.phase ≠ .free) (f : State → Out) : asHart s s.hart.cid f = f s :=
  if_pos ⟨h, rfl⟩

theorem saveContext_current {s : State} (h : s.hart.phase ≠ .free) : saveContext s s.hart.cid = currentSaved s.hart.cid s := by
  unfold saveContext
  rw [asHart_current h]
  rfl

/-- While no hart is current a context is saved from its place in the list, which `s.hart` marks meanwhile. -/
theorem saveContext_of_free {s : State} {c : Nat} {y : Hart} (hfree : s.hart.phase = .free)
    (hfind : (s.others ++ s.saved).find? (·.cid == c) = some y) :
    saveContext s c = putBack (currentSaved c { s with
      hart := y
      others := s.others.map fun x => if x.cid = c then s.hart else x
      saved := s.saved.map fun x => if x.cid = c then s.hart else x }) s.hart.cid := by
  unfold saveContext asHart
  rw [if_neg fun h => h.1 hfree, hfind]
  rfl

/-- The context that becomes the current one again is the first of the number of the one that was. -/
theorem putBack_hart_of_head {s : State} {x : Hart} {l : List Hart} (h : s.others = x :: l) : (putBack s x.cid).hart = x := by
  simp [putBack, h]

/-- A context `x` before the saved one that has the number of `s.hart` takes its place. -/
theorem saveContext_hart_of_head {s : State} {x y : Hart} (hfree : s.hart.phase = .free) (hothers : s.others = [x, y])
    (hx : x.cid = s.hart.cid) (hy : x.cid ≠ y.cid) : (saveContext s y.cid).hart = x := by
  have hfind : (s.others ++ s.saved).find? (·.cid == y.cid) = some y := by simp [hothers, hy]
  rw [saveContext_of_free hfree hfind, ← hx]
  refine putBack_hart_of_head (l := [s.hart]) ?_
  simp [hothers, hy]

/-! ### The state -/

/-- The second member of the gang: the first one's likeness on slot 1. -/
def secondLeaver : Hart :=
  { (firstLaunch State.reset).hart with cid := 2, member := 1, slot := 1, due := true }

/-- A context with the phase free and the number 0 that differs from `{}` in its pc. -/
def freeContext : Hart := { cid := 0, phase := .free, pc := 8 }

/-- Two members of a gang that are due to leave, hart 1 the current one; before hart 2 stands `freeContext`. -/
def leavingBesideFree : State :=
  let s := firstLaunch State.reset
  { s with hart := { s.hart with due := true }, others := [freeContext, secondLeaver] }

theorem distinct_leavingBesideFree : Distinct leavingBesideFree := by decide +kernel

theorem leaves_leavingBesideFree : Leaves leavingBesideFree leavingBesideFree.hart := by decide +kernel

/-- The contexts are the two members: one with the phase free is none. -/
theorem contexts_leavingBesideFree : contexts leavingBesideFree = [leavingBesideFree.hart, secondLeaver] := rfl

theorem canLeave_leavingBesideFree : ∀ h ∈ contexts leavingBesideFree, CanLeave leavingBesideFree h := by
  intro h hh
  rw [contexts_leavingBesideFree, List.mem_cons, List.mem_singleton] at hh
  obtain rfl | rfl := hh
  · exact ⟨.head _, .inl rfl, ⟨rfl, rfl⟩, rfl⟩
  · exact ⟨.tail _ (.tail _ (.head _)), .inl rfl, ⟨rfl, rfl⟩, rfl⟩

/-- The unit is ready: its members are saved one by one, the current hart first. -/
theorem exec_contextSave_leavingBesideFree :
    exec (.contextSave leavingBesideFree.hart.cid) leavingBesideFree =
      .next (saveContext (saveContext leavingBesideFree leavingBesideFree.hart.cid) secondLeaver.cid) := rfl

/-- Behind the second save the free context is the current one. -/
theorem contextSave_leavingBesideFree_hart :
    (saveContext (saveContext leavingBesideFree leavingBesideFree.hart.cid) secondLeaver.cid).hart = freeContext := by
  rw [saveContext_current (by decide)]
  exact saveContext_hart_of_head (by rw [currentSaved_hart]) (currentSaved_others _ _) (by rw [currentSaved_hart]; rfl) (by decide)

/-- Refutes O52: its clause that a save leaves `{}` as the current hart fails beside a free context with the number 0, which
`Distinct` admits, when two members leave together. -/
theorem not_schedulingEvents : ¬ Obligations.SchedulingEvents := by
  unfold Obligations.SchedulingEvents
  rintro ⟨-, -, -, -, hsaves, -⟩
  obtain ⟨t, hsave, hempty, -⟩ := hsaves leavingBesideFree distinct_leavingBesideFree leaves_leavingBesideFree
    fun h hh _ => canLeave_leavingBesideFree h hh
  obtain rfl := Host.Outcome.next.inj (exec_contextSave_leavingBesideFree.symm.trans hsave)
  rw [contextSave_leavingBesideFree_hart] at hempty
  exact absurd hempty (by decide)

end Sys2Proof.Machine
end
